-- ==== Sys2Proof/Word.lean ====
section
/-! DEFINITION. The plain word types of the HC-62 (00_scope.md, Memory accesses): a word is 32 bits,
little-endian; radio bytes are 8 bits; half words carry event arguments, ids and 16-bit counts. -/

namespace Sys2Proof

/-- One byte: a radio character, an order kind or tag, a byte of memory. -/
abbrev Byte := BitVec 8

/-- Sixteen bits: event sequences and arguments, authority ids, saturating counts, CRCs. -/
abbrev Half := BitVec 16

/-- Thirty-two bits: a word of memory or of the mirror, a time of the 1 ms time base, a tally. -/
abbrev Word := BitVec 32

/-- The milliseconds from `start` to `now` on the wrapping 32-bit time base (R187). -/
def Word.since (now start : Word) : Nat := (now - start).toNat

end Sys2Proof
end

