-- ==== Sys2Proof/Syntax.lean ====
section
/-! DEFINITION. The commands of the HC-62: one constructor of `Instr` for each row of spec/opcode_table.json, with the
operands that the row's rule says the event carries (the table itself gives no operand fields; log 1). -/

namespace Sys2Proof

/-- The three encoders (R1). -/
inductive Encoder where
  | p1 | p2 | w
deriving DecidableEq, Repr

/-- The two rack pinions, whose encoders have an index line (R1, R20). -/
inductive Pinion where
  | p1 | p2
deriving DecidableEq, Repr

/-- The four feedback inputs that confirm a stage (R49). -/
inductive FeedbackSwitch where
  | ps1 | ps2 | ps3 | band
deriving DecidableEq, Repr

/-- A full write of a non-zero kind to word 0 of an order slot (R175): the slot, the tag, and the upper half of the word
(verdict and reason bytes) as the host wrote it, which reaches memory only while the bridge is TRANSPARENT (R180). -/
structure Trigger where
  slot  : Fin 16
  tag   : Byte
  upper : Half
deriving DecidableEq, Repr

/-- The source station and the sequence number of a delivered frame (R146). -/
structure Sender where
  station  : Byte
  sequence : Byte
deriving DecidableEq, Repr

/-- The data and the byte enables of a host write (R173); enable bit `i` is byte `i`. -/
structure WriteData where
  data    : Word
  enables : BitVec 4
deriving DecidableEq, Repr

/-- The commands (spec/opcode_table.json, in the table's order). -/
inductive Instr where
  /-- ENCODER_STEP: the phase lines of one encoder now stand at `levels` (bit 1 the first line, bit 0 the second). -/
  | encoderStep (e : Encoder) (levels : BitVec 2)
  /-- SPEED_WINDOW_TICK: one millisecond of the time base. -/
  | speedWindowTick
  | standstillTimerExpiry
  /-- INDEX_PULSE: the rising edge of a pinion's index line. -/
  | indexPulse (p : Pinion)
  | datumRisingEdge
  | datumFallingEdge
  | copyCompletion
  /-- BRAKE_FEEDBACK_CHANGE: the level of one of the four confirming inputs. -/
  | brakeFeedbackChange (sw : FeedbackSwitch) (closed : Bool)
  | applyingDeadlineExpiry
  | releasingDeadlineExpiry
  | testHoldEnd
  | reservoirSwitchChange (closed : Bool)
  | chargeTimingEnd
  | crewKeyEdge (level : Bool)
  | silenceTimerExpiry
  | doorClEdge (d : Fin 8) (closed : Bool)
  | doorFoEdge (d : Fin 8) (closed : Bool)
  | doorObEdge (d : Fin 8) (closed : Bool)
  | doorPbEdge (d : Fin 8) (closed : Bool)
  | doorEhEdge (d : Fin 8) (closed : Bool)
  | motionTimerExpiry (d : Fin 8)
  /-- PERMIT_LIFETIME_EXPIRY: of the permit of one platform id. -/
  | permitLifetimeExpiry (platform : Byte)
  /-- RX_CHARACTER: a character taken at its stop bit, with the levels of its parity bit and of its stop bit, the idle level being
  true (R141). -/
  | rxCharacter (c : Byte) (parity stop : Bool)
  | pause
  | resume
  | cdRise
  | cdFall
  | gapTimerExpiry
  | deferTimerExpiry
  | keyUpTimerExpiry
  | txCharacterSent
  | tailTimerExpiry
  | pauseTimerExpiry
  | linkTimerExpiry
  | reportTimerExpiry
  /-- GRANT: authority id, start, end, direction byte, speed cap (Table 12-9). -/
  | grant (src : Sender) (id : Half) (start stop : BitVec 24) (dir : Byte) (cap : Half)
  /-- REVOKE: authority id and revocation point. -/
  | revoke (src : Sender) (id : Half) (point : BitVec 24)
  /-- RESTRICT: restriction id, start, end, limit, directions byte. -/
  | restrict (src : Sender) (id : Byte) (start stop : BitVec 24) (limit : Half) (dirs : Byte)
  | lift (src : Sender) (id : Byte)
  /-- PERMIT: platform id and side mask (bit 0 left, bit 1 right). -/
  | permit (src : Sender) (platform mask : Byte)
  | withdraw (src : Sender) (platform : Byte)
  | eStop (src : Sender)
  | eRelease (src : Sender)
  | wakeMessage (src : Sender)
  | poll (src : Sender)
  | text (src : Sender) (bytes : List Byte)
  | run (t : Trigger)
  | stand (t : Trigger)
  | stable (t : Trigger)
  | wake (t : Trigger)
  | brakeTest (t : Trigger)
  | maintenanceRelease (t : Trigger)
  | brakeRequest (t : Trigger)
  | resetDemand (t : Trigger)
  | setPosition (t : Trigger)
  | resetEncoder (t : Trigger)
  | activateProfile (t : Trigger)
  | addRestriction (t : Trigger)
  | removeRestriction (t : Trigger)
  | relinquish (t : Trigger)
  | releaseSide (t : Trigger)
  | openSide (t : Trigger)
  | closeSide (t : Trigger)
  | isolateDoor (t : Trigger)
  | restoreDoor (t : Trigger)
  | setDoorEvents (t : Trigger)
  | setGuard (t : Trigger)
  | clearGuard (t : Trigger)
  | sendText (t : Trigger)
  | takeMessage (t : Trigger)
  | pollReport (t : Trigger)
  /-- UNKNOWN_KIND_TRIGGER: a trigger whose kind byte is not 1 to 25. -/
  | unknownKindTrigger (kind : Byte) (t : Trigger)
  /-- PARAMETER_WORD_WRITE: word `word + 1` (1 to 7) of an order slot. -/
  | parameterWordWrite (slot : Fin 16) (word : Fin 7) (d : WriteData)
  | orderWordPartialWrite (slot : Fin 16) (d : WriteData)
  | aliveWrite (d : WriteData)
  /-- SETTINGS_WRITE: the word at offset 0x0400 + 4 × `word`. -/
  | settingsWrite (word : Fin 256) (d : WriteData)
  /-- PROFILE_WRITE: the word at offset 0x1000 + 4 × `word`. -/
  | profileWrite (word : Fin 2048) (d : WriteData)
  /-- EVENT_HEAD_POP: a read of the fourth event head word (offset 0x4F10) with these byte enables. -/
  | eventHeadPop (enables : BitVec 4)
  /-- FAULT_SUMMARY_READ: a read of the fault summary word (offset 0x4F44) with these byte enables. -/
  | faultSummaryRead (enables : BitVec 4)
  /-- MIRROR_WRITE: the word at offset 0x4000 + 4 × `word`. -/
  | mirrorWrite (word : Fin 2048) (d : WriteData)
  | guardedWrite (addr : BitVec 24) (d : WriteData)
  | ordinaryWrite (addr : BitVec 24) (d : WriteData)
  /-- MEMORY_READY: memory's answer; for a read, the word it gives. -/
  | memoryReady (data : Word)
  | memoryTimeout
  | coldResetAssert
  /-- COLD_RESET_RELEASE: with the levels of the base select and bit rate straps (R174). -/
  | coldResetRelease (baseStraps : BitVec 4) (rateStraps : BitVec 2)
  | warmResetAssert
  | warmResetRelease
deriving DecidableEq, Repr

end Sys2Proof
end

