-- ==== Sys2Proof/Config.lean ====
section
/-! DEFINITION. What the spec leaves open and the machine goes on with: free values, each an opaque constant that
nothing in Lean can evaluate. Each has a log entry under notes/assumptions/. -/

namespace Sys2Proof

/-- Whether a write that met the memory timeout reached memory: "may or may not have reached memory" (R179).
Applied to the free-value counter of the state (log 5). -/
opaque Config.timeoutWriteLands : Nat → Bool

/-- The pinion a CLIMB_OFF names when a direct setting of regime RACK finds both pinions FAULTED (R6 gives the posting,
not which of the two it names): true for P1. Applied to the free-value counter of the state (log 8). -/
opaque Config.climbOffNamesP1 : Nat → Bool

/-- The 16-bit argument of an event whose number lies outside what 16 bits hold (log 6). -/
opaque Config.eventArgumentOverflow : Int → Half

/-- The route position where the exact sum lies outside a signed 32-bit count (R5 states no result there; log 7). -/
opaque Config.positionOverflow : Int → Word

/-- The permitted speed where no limit of R71 applies: every segment lies above the car extent, no authority is held and validity
is CONFIRMED. R71 gives P as the lowest of the limits, from 0 to 4095, and states no value when there is none (log 22). -/
opaque Config.permittedWithoutLimit : Word → BitVec 12

end Sys2Proof
end

