-- ==== Sys2Proof/Machine/State.lean ====
section
/-! DEFINITION. The whole state of the HC-62 as plain data, block by block (00_scope.md, Table 0-1), the reasons a step
can stop, and the state right after cold reset. INVENTORY.md lists every field with its rule. -/

namespace Sys2Proof.Machine

/-! ### Names the spec gives to values -/

/-- Brake stages in rising order (Table 0-4). -/
inductive Stage where
  | released | s1 | s2 | s3 | band | emergency
deriving DecidableEq, Repr

/-- The twelve sources of brake demand (Table 3-1). -/
inductive DemandSource where
  | ordered | mode | supervision | authority | odometry | rollback | doors | handle | radio | silence | feedback | test
deriving DecidableEq, Repr

/-- Car modes (R106). -/
inductive Mode where
  | stand | run | stabled | test | lockout
deriving DecidableEq, Repr

/-- Causes of a change of mode (Table 6-2). -/
inductive ModeCause where
  | order | autoStand | wake | test | lockout | maintenance
deriving DecidableEq, Repr

/-- What last woke the car (Table 6-6). -/
inductive WakeReason where
  | none | radio | order | crewKey | rollAway
deriving DecidableEq, Repr

/-- UP is route position increasing (00_scope.md, Direction). -/
inductive Dir where
  | up | down
deriving DecidableEq, Repr

/-- The directions of a restriction (Table 4-2). -/
inductive Dirs where
  | up | down | both
deriving DecidableEq, Repr

/-- The encoder that moves route position (R4). -/
inductive Source where
  | none | p1 | p2 | w
deriving DecidableEq, Repr

inductive Regime where
  | rack | adhesion | entering
deriving DecidableEq, Repr

/-- How far route position may be trusted (R7). -/
inductive Validity where
  | unknown | provisional | confirmed | uncertain
deriving DecidableEq, Repr

/-- Reasons of DATUM_MISMATCH (Table 1-3). -/
inductive MismatchReason where
  | noCandidate | regime | source | reversed | noIndex | noFall
deriving DecidableEq, Repr

/-- Supervision state in rising order (R77). -/
inductive SupervisionState where
  | idle | normal | warning | intervention | tripped
deriving DecidableEq, Repr

/-- The RUN travel record (R102). -/
inductive TravelRecord where
  | none | with_ | against
deriving DecidableEq, Repr

/-- Outcome of the last REVOKE or RELINQUISH (R98, R99, R100). -/
inductive RevokeOutcome where
  | none | nextCleared | shortened | late | beyondEnd | missed
deriving DecidableEq, Repr

inductive GuardKind where
  | none | fixed | speed
deriving DecidableEq, Repr

inductive GuardAction where
  | none | clamp | keep | pass
deriving DecidableEq, Repr

/-- Door states (Table 7-1). -/
inductive DoorState where
  | locked | released | opening | open_ | closing | reopening | faulted | isolated
deriving DecidableEq, Repr

inductive DoorFault where
  | none | motionTimeout | contactLost
deriving DecidableEq, Repr

/-- A side of the car: doors D0 to D3 or D4 to D7 (R125). -/
inductive Side where
  | left | right
deriving DecidableEq, Repr

/-- Causes of a side withdrawal (Table 7-4). -/
inductive WithdrawCause where
  | close | permit | profile | mode | position
deriving DecidableEq, Repr

/-- Link states (R148). -/
inductive LinkState where
  | listen | receiving | defer | keyUp | sending | paused | tail
deriving DecidableEq, Repr

/-- Classes of the transmit queue, highest first (R154). -/
inductive TxClass where
  | alarm | refusal | report | text
deriving DecidableEq, Repr

/-- Reasons of TX_DROPPED (R154). -/
inductive TxDrop where
  | full | displaced | pauseLimit | stabled
deriving DecidableEq, Repr

/-- Reasons of a receive drop (R144 and Table 8-3). -/
inductive RxDrop where
  | restart | timeout | long | carrier | damaged | short | crc | other | badSource | duplicate
deriving DecidableEq, Repr

/-- Alarm kinds (Table 9-4). -/
inductive AlarmKind where
  | rollAway | handleDeferred | lockout | climbOut | hostSilent | overrun | revokeLate
deriving DecidableEq, Repr

/-- Outcomes of a message (Table 9-2). -/
inductive MessageOutcome where
  | acted | refused | ignored | dropped | badFormat
deriving DecidableEq, Repr

/-- States of an order slot (R182). -/
inductive SlotState where
  | free | running | done | refused | aborted
deriving DecidableEq, Repr

inductive Verdict where
  | none | taken | refused
deriving DecidableEq, Repr

/-- Reason codes (Table 11-2). -/
inductive Reason where
  | ok | busy | busySlot | unknownKind | wrongMode | notStandstill | badParam | noProfile | noPosition | noAuthority
  | doorsOpen | latchedDemand | chargeWait | profileBusy | brakeLow | outsidePlatform | noPermit | full | empty | owned
  | duplicate | conditionActive | badCrc | badSegment | lockout | notHere | notContiguous | slotsFull | conflict | stabled
deriving DecidableEq, Repr

/-- Results of a brake test step, and outcome and abort reason of the test (R63, Table 12-11). -/
inductive StepResult where
  | notRun | pass | fail
deriving DecidableEq, Repr

inductive TestOutcome where
  | none | passed | failed | aborted | running
deriving DecidableEq, Repr

inductive AbortReason where
  | none | moved | doors | overridden | stopped | reset
deriving DecidableEq, Repr

/-- The twelve fault classes of the fault summary, in the order of Table 11-5. -/
inductive FaultClass where
  | odometry | datum | brake | lockout | supervision | authority | door | handle | radio | guard | bridge | silence
deriving DecidableEq, Repr

/-- The sections of the mirror (Table 11-6). EVENTS keeps its generation word in the event queue. -/
inductive Section where
  | car | supervision | brake | authority | restrictions | doors | radio | guards | orders | fault | bridge
deriving DecidableEq, Repr

/-- Event kinds (Table 11-4). -/
inductive EventKind where
  | encoderFault | sourceChanged | rackEntered | rackEntryFailed | rackLeft | climbOut | climbOff | datumCaptured
  | datumMismatch | positionUncertain | positionLost | rollback | standstill | moving
  | profileActive | profileAborted
  | supervisionState | tsrChanged | guardViolation
  | authGranted | authHandover | authRevoked | authOverrun | nextDropped
  | demandSet | demandCleared | brakeSettled | brakeFeedbackFault | releaseStuck | lockout | brakeTestDone
  | modeChanged | chargeDone | hostSilent | wake
  | doorState | doorFault | doorInputEdge | sideWithdrawn | handlePulled | handleDeferred | permitChanged
  | linkLost | linkRestored | frameDropped | messageArrived | eStop | eReleaseIgnored | txDropped
  | orderDone | badAccess | memoryTimeout | coldStart | warmStart
deriving DecidableEq, Repr

/-! ### Odometry Unit (chapter 1) -/

/-- One encoder: tally, health and last quadrature state (R1). -/
structure Enc where
  tally   : Word
  faulted : Bool
  quad    : BitVec 2
deriving DecidableEq, Repr

/-- A rack entry check in progress (R9). Travel counts up in the crossing direction. -/
structure EntryCheck where
  dir  : Dir
  wTravel  : Int
  p1Travel : Int
  p2Travel : Int
  p1Included : Bool
  p2Included : Bool
deriving DecidableEq, Repr

/-- The capture state (R19 to R21); the datum is recorded by the fields the rules read. -/
inductive Capture where
  | idle
  /-- datum position in teeth, K, direction and source pinion at the edge, pulses and travel since (R20) -/
  | awaitIndex (datum k : Nat) (dir : Dir) (pinion : Pinion) (pulses travel : Nat)
  /-- datum position in teeth, its window, route position at the rising edge, travel since (R21) -/
  | awaitFall (datum window : Nat) (rise : Word) (travel : Nat)
deriving DecidableEq, Repr

/-- ODO's state (Table 1-5). Climb supervision and the motion encoder are computed. -/
structure Odo where
  p1 : Enc
  p2 : Enc
  w  : Enc
  source     : Source
  regime     : Regime
  entry      : Option EntryCheck
  pos        : Word
  validity   : Validity
  segment    : Option Nat
  mismatches : Byte
  deviation  : Word
  ref1       : Word
  ref2       : Word
  creep      : Half
  reverse    : Half
  /-- the nets of the last complete milliseconds, newest first, at most 100 (R17) -/
  window     : List Int
  /-- the net of the running millisecond -/
  bucket     : Int
  speed      : Nat
  dir        : Dir
  standstill : Bool
  /-- start of the running standstill timer (R18) -/
  standTimer : Option Word
  capture    : Capture
deriving DecidableEq, Repr

/-! ### Profile Store (chapter 2) -/

/-- Words 0 to 6 of a segment record (Table 12-5). -/
structure SegRec where
  w0 : Word
  w1 : Word
  w2 : Word
  w3 : Word
  w4 : Word
  w5 : Word
  w6 : Word
deriving DecidableEq, Repr

/-- The 32 settings words (Table 12-6). -/
abbrev Settings := Vector Word 32

/-- The holding store of a copy in flight (R35). -/
structure Holding where
  segs     : List SegRec
  settings : Settings
  crc      : Half
deriving DecidableEq, Repr

/-- PRF's four stores and the activation (R28). The active count is the length of `active`; records at and above it are
zero and are read by no block. `copying` is `some` while the activation state is COPYING. -/
structure Prf where
  staged         : Vector SegRec 256
  stagedSettings : Settings
  active         : List SegRec
  settings       : Settings
  crc            : Half
  copying        : Option Holding
deriving DecidableEq, Repr

/-! ### Speed Supervision Unit (chapter 4) -/

/-- Who placed a restriction: a station by radio, or the host (Table 4-2). -/
inductive Origin where
  | radio (station : Byte)
  | host
deriving DecidableEq, Repr

structure Restriction where
  id     : Byte
  origin : Origin
  start  : Nat
  stop   : Nat
  limit  : Nat
  dirs   : Dirs
deriving DecidableEq, Repr

/-- SSU's state (Table 4-5). The speed bound is computed. -/
structure Ssu where
  state        : SupervisionState
  hold         : Bool
  permitted    : Nat
  braking      : Nat
  effectiveEnd : Option Nat
  distance     : Int
  /-- stage and cause of the present following request (R76, R77) -/
  request      : Stage × Byte
  restrictions : List Restriction
deriving DecidableEq, Repr

/-! ### Authority Table (chapter 5) -/

/-- An authority record (Table 5-1). -/
structure Authority where
  id      : Half
  station : Byte
  start   : Nat
  stop    : Nat
  dir     : Dir
  cap     : Nat
deriving DecidableEq, Repr

structure RevokeRecord where
  id      : Half
  point   : Nat
  outcome : RevokeOutcome
deriving DecidableEq, Repr

/-- AUT's state (Table 5-4). -/
structure Aut where
  current      : Option Authority
  next         : Option Authority
  dc           : Int
  request      : Bool
  travel       : TravelRecord
  overrun      : Bool
  lateRevoke   : Bool
  relinquished : Bool
  lastRevoke   : RevokeRecord
  missed       : Byte
deriving DecidableEq, Repr

/-! ### Brake Controller (chapter 3) -/

/-- A demand entry (R42). -/
structure Entry where
  stage   : Stage
  latched : Bool
  cause   : Byte
  setTime : Word
  setPos  : Word
deriving DecidableEq, Repr

/-- The brake state machine (R51); an operation holds its target and the start of its running deadline. -/
inductive BrakeState where
  | settled
  | applying  (target : Stage) (deadline : Option Word)
  | releasing (target : Stage) (deadline : Option Word)
deriving DecidableEq, Repr

/-- The levels of the five feedback inputs (true: closed). -/
structure Feedback where
  ps1  : Bool
  ps2  : Bool
  ps3  : Bool
  band : Bool
  reservoir : Bool
deriving DecidableEq, Repr

/-- The last brake test record (R63). -/
structure TestRecord where
  start   : Word
  outcome : TestOutcome
  abort   : AbortReason
  results : Vector StepResult 5
  times   : Vector Half 5
deriving DecidableEq, Repr

/-- A brake test in progress: the present step 0 to 4 (numbered 1 to 5 by R63), when it started, and when its hold began. -/
structure TestRun where
  step  : Fin 5
  start : Word
  hold  : Option Word
deriving DecidableEq, Repr

/-- BRK's state (Table 3-10). The output levels are computed. -/
structure Brk where
  table     : Vector Entry 12
  commanded : Stage
  confirmed : Stage
  state     : BrakeState
  inputs    : Feedback
  record    : TestRecord
  test      : Option TestRun
deriving DecidableEq, Repr

/-! ### Mode Controller (chapter 6) -/

/-- The phases of the charge wait (R115). -/
inductive ChargeWait where
  | timing (start : Word)
  | awaitReservoir
  | complete
deriving DecidableEq, Repr

/-- MOD's state (Table 6-5). -/
structure Mod where
  mode       : Mode
  charge     : ChargeWait
  /-- start of the running silence timer (R117) -/
  silence    : Option Word
  hostSilent : Bool
  /-- the silence timer has been restarted by an alive write and has not expired since (Table 3-7) -/
  aliveSeen  : Bool
  wakeReason : WakeReason
  crewKey    : Bool
deriving DecidableEq, Repr

/-! ### Door Controller (chapter 7) -/

/-- A door record (Table 7-1). -/
structure Door where
  state       : DoorState
  retries     : Nat
  closeFailed : Bool
  fault       : DoorFault
  cl : Bool
  fo : Bool
  ob : Bool
  pb : Bool
  eh : Bool
  /-- start of the running motion timer -/
  motion      : Option Word
deriving DecidableEq, Repr

/-- A side record (R125). -/
structure SideRec where
  released  : Bool
  platform  : Byte
  stationControlled : Bool
  position  : Word
deriving DecidableEq, Repr

/-- A platform permit (R133). -/
structure Permit where
  platform : Byte
  left     : Bool
  right    : Bool
  granted  : Word
deriving DecidableEq, Repr

/-- A deferred pull of an emergency handle (R135). -/
structure DeferredPull where
  door     : Fin 8
  position : Word
  time     : Word
deriving DecidableEq, Repr

/-- DOR's state (Table 7-6); `openAffected` and `closeAffected` are the affected doors of the running door orders. -/
structure Dor where
  doors     : Vector Door 8
  left      : SideRec
  right     : SideRec
  permits   : List Permit
  deferred  : Option DeferredPull
  risingLow   : Word
  risingHigh  : Word
  fallingLow  : Word
  fallingHigh : Word
  openAffectedLeft   : BitVec 8
  openAffectedRight  : BitVec 8
  closeAffectedLeft  : BitVec 8
  closeAffectedRight : BitVec 8
deriving DecidableEq, Repr

/-! ### Radio Link Controller: the link (chapter 8) and the messages (chapter 9) -/

/-- The frame assembler (R143): OUTSIDE, or INSIDE with the buffer (oldest byte first), the damaged flag, the ESC-pending
flag and the start of the gap timer (R144). -/
inductive Assembler where
  | outside
  | inside (buffer : List Byte) (damaged escPending : Bool) (gap : Word)
deriving DecidableEq, Repr

/-- A frame of the transmit queue (R154). -/
structure TxFrame where
  cls      : TxClass
  dest     : Byte
  kind     : Byte
  payload  : List Byte
  sequence : Option Byte
deriving DecidableEq, Repr

/-- The frame in the send buffer, with the source and the CRC it took on entry to KEY_UP (R151), the character in progress
and the characters after it (R152). -/
structure Sending where
  frame   : TxFrame
  source  : Byte
  crc     : Half
  current : Option Byte
  rest    : List Byte
deriving DecidableEq, Repr

/-- A running defer timer: its start and its length in ms, read when it started (R150). -/
structure DeferTimer where
  start  : Word
  length : Nat
deriving DecidableEq, Repr

/-- An entry of the station table (R146). -/
structure Station where
  sequence  : Option Byte
  lastHeard : Option Word
deriving DecidableEq, Repr

/-- The state of the link (Table 8-6). -/
structure Link where
  bitRate    : BitVec 2
  cd         : Bool
  ptt        : Bool
  state      : LinkState
  assembler  : Assembler
  flowHold   : Bool
  deferTimer : Option DeferTimer
  keyUpTimer : Option Word
  pauseTimer : Option Word
  tailTimer  : Option Word
  sendBuffer : Option Sending
  queue      : List TxFrame
  sendSequence : Byte
  stations   : Vector Station 30
  linkTimer  : Option Word
  lost       : Bool
  noise      : Half
  rxDrops    : Vector Half 10
  txDrops    : Vector Half 4
deriving DecidableEq, Repr

/-- A message of the mailbox (R164); its length is that of `bytes`. -/
structure Message where
  station  : Byte
  sequence : Byte
  bytes    : List Byte
  arrival  : Word
  serial   : Half
deriving DecidableEq, Repr

/-- The state of the message dispatch (Table 9-6). -/
structure Msg where
  mailbox     : List Message
  serial      : Half
  textDrops   : Half
  badFormat   : Half
  rollAway    : Bool
  reportTimer : Option Word
deriving DecidableEq, Repr

/-! ### Order Unit and Event Queue (chapter 11) -/

/-- A slot record (R182). -/
structure Slot where
  state   : SlotState
  kind    : Byte
  tag     : Byte
  work    : Vector Word 7
  verdict : Verdict
  reason  : Reason
  result  : Word
deriving DecidableEq, Repr

/-- ORD's state: slots, parameter shadows (R175), and the slot of the RUNNING order of each timed kind (R184). -/
structure Ord where
  slots      : Vector Slot 16
  shadows    : Vector (Vector Word 7) 16
  brakeTest  : Option (Fin 16)
  activate   : Option (Fin 16)
  openLeft   : Option (Fin 16)
  openRight  : Option (Fin 16)
  closeLeft  : Option (Fin 16)
  closeRight : Option (Fin 16)
deriving DecidableEq, Repr

/-- An event record (Table 11-3); the block is that of the kind (Table 11-4). -/
structure Event where
  sequence : Half
  time     : Word
  kind     : EventKind
  argument : Half
  position : Word
deriving DecidableEq, Repr

/-- EVQ's state (R188, R190). -/
structure Evq where
  queue      : List Event
  next       : Half
  lost       : Half
  faults     : BitVec 12
  generation : Word
deriving DecidableEq, Repr

/-! ### The bridge (chapters 4 and 10) -/

/-- A guard slot (Table 4-3). -/
structure Guard where
  enabled    : Bool
  address    : Word
  kind       : GuardKind
  low        : Word
  high       : Word
  action     : GuardAction
  violations : Byte
  last       : Word
deriving DecidableEq, Repr

/-- The bridge's own state (Table 10-4), and the generation words of the sections but EVENTS (R191). -/
structure Bridge where
  base        : BitVec 4
  guards      : Vector Guard 4
  dropped     : Half
  generations : Vector Word 11
deriving DecidableEq, Repr

/-- A forwarded host access waiting for memory (R179): a read or a write of the word at `addr`. -/
structure Access where
  isRead  : Bool
  addr    : BitVec 24
  data    : Word
  enables : BitVec 4
deriving DecidableEq, Repr

/-- A host read that waits to be taken: its byte address and its byte enables (R173). The table has no row for it (log 32). -/
structure HostRead where
  addr    : BitVec 24
  enables : BitVec 4
deriving DecidableEq, Repr

/-- The memory path: the static memory (a list of address and byte, addresses strictly rising; an unlisted byte has no known
value, log 4), the access in progress, and the data of the last completed host read. -/
structure Path where
  mem      : List Host.Cell
  access   : Option Access
  hostData : Word
deriving DecidableEq, Repr

/-- The part itself: everything but the memory path and the queue of commands. -/
structure Part where
  now       : Word
  coldLine  : Bool
  warmLine  : Bool
  freeCount : Nat
  bridge : Bridge
  ord : Ord
  evq : Evq
  odo : Odo
  prf : Prf
  ssu : Ssu
  aut : Aut
  brk : Brk
  mod : Mod
  dor : Dor
  link : Link
  msg : Msg
deriving DecidableEq, Repr

/-- The state of the machine; `pending` is the queue of the commands that wait, first in, first out, and `reads` that of the host's
reads, which have no row in the table and are taken when no command waits (log 32). -/
structure State where
  part    : Part
  path    : Path
  pending : List Instr
  reads   : List HostRead
deriving DecidableEq, Repr

/-! ### How a step can stop -/

/-- Why the machine stops with a fault. The spec gives no fault that stops the part. -/
inductive Fault where
  /-- Raised by nothing: every input the spec describes has an effect, and every address exists. Safe: no run meets it. -/
  | none
deriving DecidableEq, Repr

/-- Why a command has no meaning. -/
inductive Refusal where
  /-- Raised by an arm of `exec` whose row has no meaning yet (there is none). Safe: the run stops. -/
  | notModelled (mnemonic : String)
deriving DecidableEq, Repr

/-! ### The state right after cold reset -/

/-- Two half words as one word. -/
def pack16 (low high : Nat) : Word := BitVec.ofNat 32 (low + 65536 * high)

/-- The default settings (Tables 2-3, 2-4 and 12-6). -/
def Settings.default : Settings :=
  #v[0x02030501#32, 0x081800A0#32, 0#32, pack16 500 1000, pack16 32 96, pack16 192 64, pack16 40 200, pack16 32 320,
     pack16 4000 120, 0x0514#32, 0#32, 0#32, 0#32, 0#32, 0#32, 0#32,
     pack16 2 4, pack16 8 14, pack16 22 32, pack16 44 58,
     pack16 3 6, pack16 12 21, pack16 33 48, pack16 66 87,
     pack16 4 8, pack16 16 28, pack16 44 64, pack16 88 116,
     pack16 6 12, pack16 24 42, pack16 66 96, pack16 132 174]

/-- A zeroed segment record. -/
def SegRec.zero : SegRec := ⟨0, 0, 0, 0, 0, 0, 0⟩

/-- A free order slot: all fields 0 (R185). -/
def Slot.free : Slot :=
  { state := .free, kind := 0, tag := 0, work := Vector.replicate 7 0, verdict := .none, reason := .ok, result := 0 }

/-- A disabled guard slot: all fields 0 (R90). -/
def Guard.off : Guard :=
  { enabled := false, address := 0, kind := .none, low := 0, high := 0, action := .none, violations := 0, last := 0 }

/-- A demand entry with no stage. -/
def Entry.clear : Entry := { stage := .released, latched := false, cause := 0, setTime := 0, setPos := 0 }

/-- An encoder after cold reset, its quadrature state sampled from the lines (R24). -/
def Enc.fresh (quad : BitVec 2) : Enc := { tally := 0, faulted := false, quad := quad }

/-- ODO after cold reset (Table 1-5), the encoders sampled. -/
def Odo.cold (q1 q2 qw : BitVec 2) : Odo :=
  { p1 := Enc.fresh q1, p2 := Enc.fresh q2, w := Enc.fresh qw, source := .none, regime := .adhesion, entry := none, pos := 0,
    validity := .unknown, segment := none, mismatches := 0, deviation := 0, ref1 := 0, ref2 := 0, creep := 0, reverse := 0,
    window := [], bucket := 0, speed := 0, dir := .up, standstill := false, standTimer := some 0, capture := .idle }

/-- PRF after cold reset (Table 2-5). -/
def Prf.cold : Prf :=
  { staged := Vector.replicate 256 SegRec.zero, stagedSettings := Vector.replicate 32 0, active := [],
    settings := Settings.default, crc := 0, copying := none }

/-- SSU after cold reset, before the evaluation at the release (Table 4-5). -/
def Ssu.cold : Ssu :=
  { state := .idle, hold := false, permitted := 0, braking := 0, effectiveEnd := none, distance := 2147483647,
    request := (.released, 0), restrictions := [] }

/-- AUT after cold reset (Table 5-4). -/
def Aut.cold : Aut :=
  { current := none, next := none, dc := 2147483647, request := false, travel := .none, overrun := false, lateRevoke := false,
    relinquished := false, lastRevoke := ⟨0, 0, .none⟩, missed := 0 }

/-- BRK after cold reset, before the start at the release (Table 3-10): every entry 0, then MODE at BAND, cause CHARGE. -/
def Brk.cold (inputs : Feedback) : Brk :=
  { table := (Vector.replicate 12 Entry.clear).set 1 { Entry.clear with stage := .band, cause := 3 },
    commanded := .band, confirmed := .released, state := .settled, inputs := inputs,
    record := { start := 0, outcome := .none, abort := .none, results := Vector.replicate 5 .notRun,
                times := Vector.replicate 5 0 },
    test := none }

/-- A door after cold reset with these input levels: LOCKED with CL closed, FAULTED with CL open (R140). -/
def Door.cold (cl fo ob pb eh : Bool) : Door :=
  { state := if cl then .locked else .faulted, retries := 0, closeFailed := false,
    fault := if cl then .none else .contactLost, cl := cl, fo := fo, ob := ob, pb := pb, eh := eh, motion := none }

/-- A side that is not released. -/
def SideRec.cold : SideRec := { released := false, platform := 0, stationControlled := false, position := 0 }

/-- DOR after cold reset (Table 7-6) with these doors. -/
def Dor.cold (doors : Vector Door 8) : Dor :=
  { doors := doors, left := SideRec.cold, right := SideRec.cold, permits := [], deferred := none, risingLow := 0,
    risingHigh := 0, fallingLow := 0, fallingHigh := 0, openAffectedLeft := 0, openAffectedRight := 0,
    closeAffectedLeft := 0, closeAffectedRight := 0 }

/-- The link after cold reset (Table 8-6). -/
def Link.cold (bitRate : BitVec 2) (cd : Bool) : Link :=
  { bitRate := bitRate, cd := cd, ptt := false, state := .listen, assembler := .outside, flowHold := false, deferTimer := none,
    keyUpTimer := none, pauseTimer := none, tailTimer := none, sendBuffer := none, queue := [], sendSequence := 0,
    stations := Vector.replicate 30 ⟨none, none⟩, linkTimer := none, lost := true, noise := 0,
    rxDrops := Vector.replicate 10 0, txDrops := Vector.replicate 4 0 }

/-- The message dispatch after cold reset; the report timer starts at the release (R167). -/
def Msg.cold : Msg :=
  { mailbox := [], serial := 0, textDrops := 0, badFormat := 0, rollAway := false, reportTimer := some 0 }

/-- ORD after either reset (Table 11-7, R181). -/
def Ord.cold : Ord :=
  { slots := Vector.replicate 16 Slot.free, shadows := Vector.replicate 16 (Vector.replicate 7 0), brakeTest := none,
    activate := none, openLeft := none, openRight := none, closeLeft := none, closeRight := none }

/-- MOD after cold reset, the charge wait and the silence timer started at the release (Table 6-5). -/
def Mod.cold (crewKey : Bool) : Mod :=
  { mode := .stand, charge := .timing 0, silence := some 0, hostSilent := false, aliveSeen := false, wakeReason := .none,
    crewKey := crewKey }

/-- The machine right after cold reset, with the straps at 0 and a car standing with its doors closed and every other line
open, low or absent (log 9): COLD_START is the only event, the brake applies toward BAND, and the generation words of CAR,
SUPERVISION and BRAKE have risen by the changes of the release (R191, R192; log 15). -/
def State.reset : State :=
  { part :=
      { now := 0, coldLine := false, warmLine := false, freeCount := 0,
        bridge := { base := 0, guards := Vector.replicate 4 Guard.off, dropped := 0,
                    generations := #v[1, 1, 1, 0, 0, 0, 0, 0, 0, 0, 0] },
        ord := Ord.cold,
        evq := { queue := [⟨0, 0, .coldStart, 0, 0⟩], next := 1, lost := 0, faults := 0, generation := 1 },
        odo := Odo.cold 0 0 0,
        prf := Prf.cold,
        ssu := { Ssu.cold with braking := 6 },
        aut := Aut.cold,
        brk := { Brk.cold ⟨false, false, false, false, false⟩ with state := .applying .band (some 0) },
        mod := Mod.cold false,
        dor := Dor.cold (Vector.replicate 8 (Door.cold true false false false false)),
        link := Link.cold 0 false,
        msg := Msg.cold },
    path := { mem := [], access := none, hostData := 0 },
    pending := [], reads := [] }

end Sys2Proof.Machine
end

