-- ==== Sys2Proof/Machine/Flags.lean ====
section
/-! DEFINITION. Codes and flags: the order of the stages (Table 0-4), the source numbers of the demand table (Table 3-1), the codes
of modes, events, reasons and mirror fields (Tables 6-2, 11-2, 11-4, 12-11), and the fault class an event sets (Table 11-5). -/

namespace Sys2Proof.Machine

/-! ### Brake stages and demand sources -/

/-- The value of a stage (Table 0-4). -/
def Stage.value : Stage → Nat
  | .released => 0 | .s1 => 1 | .s2 => 2 | .s3 => 3 | .band => 4 | .emergency => 5

/-- The stage of a value 0 to 5. -/
def Stage.ofNat? : Nat → Option Stage
  | 0 => some .released | 1 => some .s1 | 2 => some .s2 | 3 => some .s3 | 4 => some .band | 5 => some .emergency | _ => none

/-- The higher of two stages. -/
def Stage.max (a b : Stage) : Stage := if a.value < b.value then b else a

/-- The place of a source in the demand table (Table 3-1, numbers less one). -/
def DemandSource.index : DemandSource → Fin 12
  | .ordered => 0 | .mode => 1 | .supervision => 2 | .authority => 3 | .odometry => 4 | .rollback => 5 | .doors => 6
  | .handle => 7 | .radio => 8 | .silence => 9 | .feedback => 10 | .test => 11

/-- The number of a source (Table 3-1). -/
def DemandSource.number (d : DemandSource) : Nat := d.index.val + 1

/-- The source of a number 1 to 12. -/
def DemandSource.ofNat? : Nat → Option DemandSource
  | 1 => some .ordered | 2 => some .mode | 3 => some .supervision | 4 => some .authority | 5 => some .odometry
  | 6 => some .rollback | 7 => some .doors | 8 => some .handle | 9 => some .radio | 10 => some .silence
  | 11 => some .feedback | 12 => some .test | _ => none

/-! ### Codes -/

def Mode.code : Mode → Nat
  | .stand => 1 | .run => 2 | .stabled => 3 | .test => 4 | .lockout => 5

def ModeCause.code : ModeCause → Nat
  | .order => 1 | .autoStand => 2 | .wake => 3 | .test => 4 | .lockout => 5 | .maintenance => 6

def WakeReason.code : WakeReason → Nat
  | .none => 0 | .radio => 1 | .order => 2 | .crewKey => 3 | .rollAway => 4

/-- 1 UP, 2 DOWN (Table 12-11). -/
def Dir.code : Dir → Nat
  | .up => 1 | .down => 2

def Dirs.code : Dirs → Nat
  | .up => 1 | .down => 2 | .both => 3

/-- The directions include this direction. -/
def Dirs.includes : Dirs → Dir → Bool
  | .both, _ => true
  | .up, d => d == .up
  | .down, d => d == .down

def Source.code : Source → Nat
  | .none => 0 | .p1 => 1 | .p2 => 2 | .w => 3

def Regime.code : Regime → Nat
  | .rack => 1 | .adhesion => 2 | .entering => 3

def Validity.code : Validity → Nat
  | .unknown => 0 | .provisional => 1 | .confirmed => 2 | .uncertain => 3

def MismatchReason.code : MismatchReason → Nat
  | .noCandidate => 1 | .regime => 2 | .source => 3 | .reversed => 4 | .noIndex => 5 | .noFall => 6

/-- 0 IDLE to 4 TRIPPED, also the rising order of the states (R77). -/
def SupervisionState.code : SupervisionState → Nat
  | .idle => 0 | .normal => 1 | .warning => 2 | .intervention => 3 | .tripped => 4

/-- The higher of two supervision states. -/
def SupervisionState.max (a b : SupervisionState) : SupervisionState := if a.code < b.code then b else a

def TravelRecord.code : TravelRecord → Nat
  | .none => 0 | .with_ => 1 | .against => 2

def RevokeOutcome.code : RevokeOutcome → Nat
  | .none => 0 | .nextCleared => 1 | .shortened => 2 | .late => 3 | .beyondEnd => 4 | .missed => 5

def GuardKind.code : GuardKind → Nat
  | .none => 0 | .fixed => 1 | .speed => 2

def GuardAction.code : GuardAction → Nat
  | .none => 0 | .clamp => 1 | .keep => 2 | .pass => 3

def DoorState.code : DoorState → Nat
  | .locked => 1 | .released => 2 | .opening => 3 | .open_ => 4 | .closing => 5 | .reopening => 6 | .faulted => 7
  | .isolated => 8

def DoorFault.code : DoorFault → Nat
  | .none => 0 | .motionTimeout => 1 | .contactLost => 2

def Side.code : Side → Nat
  | .left => 1 | .right => 2

def WithdrawCause.code : WithdrawCause → Nat
  | .close => 1 | .permit => 2 | .profile => 3 | .mode => 4 | .position => 5

def LinkState.code : LinkState → Nat
  | .listen => 1 | .receiving => 2 | .defer => 3 | .keyUp => 4 | .sending => 5 | .paused => 6 | .tail => 7

/-- 1 ALARM to 4 TEXT: the rank of a class, the highest class first (R154). -/
def TxClass.code : TxClass → Nat
  | .alarm => 1 | .refusal => 2 | .report => 3 | .text => 4

def TxDrop.code : TxDrop → Nat
  | .full => 1 | .displaced => 2 | .pauseLimit => 3 | .stabled => 4

/-- The place of a transmit drop count, codes less one. -/
def TxDrop.index : TxDrop → Fin 4
  | .full => 0 | .displaced => 1 | .pauseLimit => 2 | .stabled => 3

def RxDrop.code : RxDrop → Nat
  | .restart => 1 | .timeout => 2 | .long => 3 | .carrier => 4 | .damaged => 5 | .short => 6 | .crc => 7 | .other => 8
  | .badSource => 9 | .duplicate => 10

/-- The place of a receive drop count, codes less one. -/
def RxDrop.index : RxDrop → Fin 10
  | .restart => 0 | .timeout => 1 | .long => 2 | .carrier => 3 | .damaged => 4 | .short => 5 | .crc => 6 | .other => 7
  | .badSource => 8 | .duplicate => 9

def AlarmKind.code : AlarmKind → Nat
  | .rollAway => 1 | .handleDeferred => 2 | .lockout => 3 | .climbOut => 4 | .hostSilent => 5 | .overrun => 6
  | .revokeLate => 7

def MessageOutcome.code : MessageOutcome → Nat
  | .acted => 1 | .refused => 2 | .ignored => 3 | .dropped => 4 | .badFormat => 5

def SlotState.code : SlotState → Nat
  | .free => 0 | .running => 1 | .done => 2 | .refused => 3 | .aborted => 4

def Verdict.code : Verdict → Nat
  | .none => 0 | .taken => 1 | .refused => 2

/-- Reason codes (Table 11-2). -/
def Reason.code : Reason → Nat
  | .ok => 0 | .busy => 1 | .busySlot => 2 | .unknownKind => 3 | .wrongMode => 4 | .notStandstill => 5 | .badParam => 6
  | .noProfile => 7 | .noPosition => 8 | .noAuthority => 9 | .doorsOpen => 10 | .latchedDemand => 11 | .chargeWait => 12
  | .profileBusy => 13 | .brakeLow => 14 | .outsidePlatform => 15 | .noPermit => 16 | .full => 17 | .empty => 18
  | .owned => 19 | .duplicate => 20 | .conditionActive => 21 | .badCrc => 22 | .badSegment => 23 | .lockout => 24
  | .notHere => 32 | .notContiguous => 33 | .slotsFull => 34 | .conflict => 35 | .stabled => 36

def StepResult.code : StepResult → Nat
  | .notRun => 0 | .pass => 1 | .fail => 2

def TestOutcome.code : TestOutcome → Nat
  | .none => 0 | .passed => 1 | .failed => 2 | .aborted => 3 | .running => 4

def AbortReason.code : AbortReason → Nat
  | .none => 0 | .moved => 1 | .doors => 2 | .overridden => 3 | .stopped => 4 | .reset => 5

/-- P1 = 1, P2 = 2, W = 3 (R2). -/
def encoderCode : Encoder → Nat
  | .p1 => 1 | .p2 => 2 | .w => 3

/-- A flag reads 1 when set and 0 when clear (R193). -/
def flagNat (b : Bool) : Nat := if b then 1 else 0

/-! ### Events and fault classes -/

/-- The bit of a class in the fault summary (R193). -/
def FaultClass.bit : FaultClass → Nat
  | .odometry => 0 | .datum => 1 | .brake => 2 | .lockout => 3 | .supervision => 4 | .authority => 5 | .door => 6
  | .handle => 7 | .radio => 8 | .guard => 9 | .bridge => 10 | .silence => 11

/-- Event codes (Table 11-4). -/
def EventKind.code : EventKind → Nat
  | .encoderFault => 1 | .sourceChanged => 2 | .rackEntered => 3 | .rackEntryFailed => 4 | .rackLeft => 5 | .climbOut => 6
  | .climbOff => 7 | .datumCaptured => 8 | .datumMismatch => 9 | .positionUncertain => 10 | .positionLost => 11
  | .rollback => 12 | .standstill => 13 | .moving => 14
  | .profileActive => 16 | .profileAborted => 17
  | .supervisionState => 20 | .tsrChanged => 21 | .guardViolation => 22
  | .authGranted => 24 | .authHandover => 25 | .authRevoked => 26 | .authOverrun => 27 | .nextDropped => 28
  | .demandSet => 32 | .demandCleared => 33 | .brakeSettled => 34 | .brakeFeedbackFault => 35 | .releaseStuck => 36
  | .lockout => 37 | .brakeTestDone => 38
  | .modeChanged => 40 | .chargeDone => 41 | .hostSilent => 42 | .wake => 43
  | .doorState => 48 | .doorFault => 49 | .doorInputEdge => 50 | .sideWithdrawn => 51 | .handlePulled => 52
  | .handleDeferred => 53 | .permitChanged => 54
  | .linkLost => 56 | .linkRestored => 57 | .frameDropped => 58 | .messageArrived => 59 | .eStop => 60
  | .eReleaseIgnored => 61 | .txDropped => 62
  | .orderDone => 64 | .badAccess => 65 | .memoryTimeout => 66 | .coldStart => 67 | .warmStart => 68

/-- The block that posts a kind (Table 11-4). -/
def EventKind.block : EventKind → Nat
  | .badAccess | .memoryTimeout => 1
  | .orderDone => 2
  | .coldStart | .warmStart => 3
  | .encoderFault | .sourceChanged | .rackEntered | .rackEntryFailed | .rackLeft | .climbOut | .climbOff | .datumCaptured
  | .datumMismatch | .positionUncertain | .positionLost | .rollback | .standstill | .moving => 4
  | .profileActive | .profileAborted => 5
  | .supervisionState | .tsrChanged | .guardViolation => 6
  | .authGranted | .authHandover | .authRevoked | .authOverrun | .nextDropped => 7
  | .demandSet | .demandCleared | .brakeSettled | .brakeFeedbackFault | .releaseStuck | .lockout | .brakeTestDone => 8
  | .modeChanged | .chargeDone | .hostSilent | .wake => 9
  | .doorState | .doorFault | .doorInputEdge | .sideWithdrawn | .handlePulled | .handleDeferred | .permitChanged => 10
  | .linkLost | .linkRestored | .frameDropped | .messageArrived | .eStop | .eReleaseIgnored | .txDropped => 11

/-- The class whose bit an event of this kind sets, where it sets one (Table 11-5). Five kinds set theirs only with some
outcome: SUPERVISION_STATE, AUTH_REVOKED, BRAKE_TEST_DONE, FRAME_DROPPED and MESSAGE_ARRIVED; the poster says whether. -/
def EventKind.faultClass : EventKind → Option FaultClass
  | .encoderFault | .rackEntryFailed | .climbOut | .climbOff | .positionLost | .rollback => some .odometry
  | .datumMismatch | .positionUncertain => some .datum
  | .brakeFeedbackFault | .releaseStuck | .brakeTestDone => some .brake
  | .lockout => some .lockout
  | .supervisionState => some .supervision
  | .authOverrun | .authRevoked => some .authority
  | .doorFault => some .door
  | .handlePulled | .handleDeferred => some .handle
  | .linkLost | .frameDropped | .txDropped | .eStop | .messageArrived => some .radio
  | .guardViolation => some .guard
  | .badAccess | .memoryTimeout => some .bridge
  | .hostSilent => some .silence
  | .sourceChanged | .rackEntered | .rackLeft | .datumCaptured | .standstill | .moving | .profileActive | .profileAborted
  | .tsrChanged | .authGranted | .authHandover | .nextDropped | .demandSet | .demandCleared | .brakeSettled | .modeChanged
  | .chargeDone | .wake | .doorState | .doorInputEdge | .sideWithdrawn | .permitChanged | .linkRestored
  | .eReleaseIgnored | .orderDone | .coldStart | .warmStart => none

/-- An argument of two parts: the first in bits 8 to 15, the second in bits 0 to 7 (Table 12-3). -/
def arg2 (first second : Nat) : Half := BitVec.ofNat 16 (first * 256 + second)

/-- An argument of parts in bits 12 to 15, 8 to 11 and 0 to 7 (Table 12-3). -/
def arg3 (first second low : Nat) : Half := BitVec.ofNat 16 (first * 4096 + second * 256 + low)

/-- A signed number as an argument; what 16 bits do not hold is a free value (log 6). -/
def argSigned (v : Int) : Half :=
  if -32768 ≤ v ∧ v ≤ 32767 then BitVec.ofInt 16 v else Config.eventArgumentOverflow v

/-- An unsigned number as an argument; what 16 bits do not hold is a free value (log 6). -/
def argUnsigned (v : Nat) : Half :=
  if v ≤ 65535 then BitVec.ofNat 16 v else Config.eventArgumentOverflow v

/-- A signed count as a 32-bit word; what 32 bits do not hold is a free value (log 7). -/
def wordOfCount (v : Int) : Word :=
  if -2147483648 ≤ v ∧ v ≤ 2147483647 then BitVec.ofInt 32 v else Config.positionOverflow v

end Sys2Proof.Machine
end

