-- ==== Sys2Proof/Machine/Operands.lean ====
section
/-! DEFINITION. The operand forms: the parts of a word, the enabled bytes of a write, the fields of the settings and of a segment
record (Tables 12-5 and 12-6), little-endian numbers on the radio (R195), and the CRC (R194). -/

namespace Sys2Proof.Machine

/-! ### Parts of a word -/

/-- Byte `i` of a word, byte 0 the least significant. -/
def byteAt (w : Word) (i : Nat) : Nat := w.toNat / 256 ^ i % 256

/-- Half `i` of a word, half 0 the least significant. -/
def halfAt (w : Word) (i : Nat) : Nat := w.toNat / 65536 ^ i % 65536

/-- Bits 0 to 23 of a word. -/
def low24 (w : Word) : Nat := w.toNat % 16777216

/-- A 16-bit field read as a signed number. -/
def signed16 (n : Nat) : Int := (BitVec.ofNat 16 n).toInt

/-- The bits of the bytes whose enable is set. -/
def enableMask (e : BitVec 4) : Word :=
  (if e.getLsbD 0 then 0x000000FF#32 else 0) ||| (if e.getLsbD 1 then 0x0000FF00#32 else 0) |||
  (if e.getLsbD 2 then 0x00FF0000#32 else 0) ||| (if e.getLsbD 3 then 0xFF000000#32 else 0)

/-- Each byte whose enable is set replaces that byte of the old word (R29, R30, R175). -/
def mergeBytes (old new : Word) (e : BitVec 4) : Word := (old &&& ~~~ enableMask e) ||| (new &&& enableMask e)

/-- A full access has all four byte enables set (00_scope.md, Memory accesses). -/
def isFull (e : BitVec 4) : Bool := e == 0xF#4

/-- The four bytes of a word, least significant first. -/
def wordBytes (w : Word) : List Byte :=
  [BitVec.ofNat 8 (byteAt w 0), BitVec.ofNat 8 (byteAt w 1), BitVec.ofNat 8 (byteAt w 2), BitVec.ofNat 8 (byteAt w 3)]

/-- The `n` bytes of a number, least significant first (R195). -/
def leBytes : Nat → Nat → List Byte
  | 0, _ => []
  | n + 1, v => BitVec.ofNat 8 v :: leBytes n (v / 256)

/-- The number whose bytes, least significant first, these are (R195). -/
def leNat : List Byte → Nat
  | [] => 0
  | b :: bs => b.toNat + 256 * leNat bs

/-! ### Characters on the serial line (R141) -/

/-- The data bits of a character, the first sent first: least significant bit first. -/
def dataBits (c : Byte) : List Bool := (List.range 8).map c.getLsbD

/-- The parity bit that gives even parity over the nine bits. -/
def evenParity (c : Byte) : Bool := (dataBits c).foldl xor false

/-- The eleven bits of a character on the line, the idle level being true: start bit, data bits, parity bit, stop bit. -/
def lineBits (c : Byte) : List Bool := false :: (dataBits c ++ [evenParity c, true])

/-- The parity bit does not give even parity. -/
def parityError (c : Byte) (parity : Bool) : Bool := parity != evenParity c

/-- The stop bit is not at the idle level. -/
def framingError (stop : Bool) : Bool := !stop

/-- A character with either error. -/
def errored (c : Byte) (parity stop : Bool) : Bool := parityError c parity || framingError stop

/-- Bits per second of a latched bit rate. -/
def bitRate (rate : BitVec 2) : Nat := 4800 * 2 ^ rate.toNat

/-! ### The settings (Table 12-6) -/

/-- Word `i` of the settings. -/
def Settings.word (s : Settings) (i : Nat) : Word := s[i]?.getD 0

def Settings.carId (s : Settings) : Nat := byteAt (s.word 0) 0
def Settings.chargeCode (s : Settings) : Nat := byteAt (s.word 0) 1
def Settings.obstructionRetries (s : Settings) : Nat := byteAt (s.word 0) 2
def Settings.mismatchLimit (s : Settings) : Nat := byteAt (s.word 0) 3
def Settings.carLength (s : Settings) : Nat := halfAt (s.word 1) 0
def Settings.climbThreshold (s : Settings) : Nat := byteAt (s.word 1) 2
def Settings.entryLength (s : Settings) : Nat := byteAt (s.word 1) 3
def Settings.routeEnd (s : Settings) : Nat := (s.word 2).toNat
def Settings.silencePeriod (s : Settings) : Nat := halfAt (s.word 3) 0
def Settings.standstillTime (s : Settings) : Nat := halfAt (s.word 3) 1
def Settings.warningMargin (s : Settings) : Nat := halfAt (s.word 4) 0
def Settings.interventionMargin (s : Settings) : Nat := halfAt (s.word 4) 1
def Settings.emergencyMargin (s : Settings) : Nat := halfAt (s.word 5) 0
def Settings.releaseSpeed (s : Settings) : Nat := halfAt (s.word 5) 1
def Settings.warningDistance (s : Settings) : Nat := halfAt (s.word 6) 0
def Settings.requestDistance (s : Settings) : Nat := halfAt (s.word 6) 1
def Settings.rollbackAllowance (s : Settings) : Nat := halfAt (s.word 7) 0
def Settings.uncertaintyCap (s : Settings) : Nat := halfAt (s.word 7) 1
def Settings.doorMotionTime (s : Settings) : Nat := halfAt (s.word 8) 0
/-- The permit lifetime in ms. -/
def Settings.permitLifetime (s : Settings) : Nat := halfAt (s.word 8) 1 * 1000
/-- The link timeout in ms. -/
def Settings.linkTimeout (s : Settings) : Nat := byteAt (s.word 9) 0 * 1000
/-- The report interval in ms. -/
def Settings.reportInterval (s : Settings) : Nat := byteAt (s.word 9) 1 * 1000
/-- The length of TIMING: (charge wait code + 1) × 10 s (R115). -/
def Settings.chargeTime (s : Settings) : Nat := (s.chargeCode + 1) * 10000
/-- The braking table entry of gradient class `c` and speed band `b`, in teeth. -/
def Settings.braking (s : Settings) (c b : Nat) : Nat := halfAt (s.word (16 + (c * 8 + b) / 2)) (b % 2)

/-! ### Segment records (Table 12-5) -/

def SegRec.start (r : SegRec) : Nat := r.w0.toNat
def SegRec.regimeCode (r : SegRec) : Nat := byteAt r.w1 0
def SegRec.isRack (r : SegRec) : Bool := r.regimeCode == 1
def SegRec.noStopCode (r : SegRec) : Nat := byteAt r.w1 1
def SegRec.noStop (r : SegRec) : Bool := r.noStopCode == 1
def SegRec.gradient (r : SegRec) : Int := signed16 (halfAt r.w1 1)
def SegRec.limitUp (r : SegRec) : Nat := halfAt r.w2 0
def SegRec.limitDown (r : SegRec) : Nat := halfAt r.w2 1
/-- 0 NONE, 1 L, 2 R, 3 BOTH. -/
def SegRec.sideCode (r : SegRec) : Nat := byteAt r.w3 0
def SegRec.platformId (r : SegRec) : Nat := byteAt r.w3 1
def SegRec.stationControlled (r : SegRec) : Bool := byteAt r.w3 2 != 0
/-- 0 NONE, 1 AT EDGE, 2 TOOTH ALIGN, 3 CENTRE. -/
def SegRec.method (r : SegRec) : Nat := byteAt r.w3 3
def SegRec.windowStart (r : SegRec) : Nat := low24 r.w4
def SegRec.windowEnd (r : SegRec) : Nat := low24 r.w5
def SegRec.datumK (r : SegRec) : Nat := byteAt r.w4 3
def SegRec.datumWindow (r : SegRec) : Nat := byteAt r.w5 3
def SegRec.datumPosition (r : SegRec) : Nat := r.w6.toNat

/-- Word `i` of a record, 0 to 6. -/
def SegRec.word (r : SegRec) : Nat → Word
  | 0 => r.w0 | 1 => r.w1 | 2 => r.w2 | 3 => r.w3 | 4 => r.w4 | 5 => r.w5 | _ => r.w6

/-- The record with word `i` (0 to 6) replaced; word 7 is not captured (R29). -/
def SegRec.setWord (r : SegRec) (i : Nat) (w : Word) : SegRec :=
  match i with
  | 0 => { r with w0 := w } | 1 => { r with w1 := w } | 2 => { r with w2 := w } | 3 => { r with w3 := w }
  | 4 => { r with w4 := w } | 5 => { r with w5 := w } | 6 => { r with w6 := w } | _ => r

/-- Words 0 to 6 of a record, in order. -/
def SegRec.words (r : SegRec) : List Word := [r.w0, r.w1, r.w2, r.w3, r.w4, r.w5, r.w6]

/-- Each segment with its end: the next start, or the route end for the last (R25). -/
def withEnds (routeEnd : Nat) : List SegRec → List (SegRec × Nat)
  | [] => []
  | [r] => [(r, routeEnd)]
  | r :: t :: rest => (r, t.start) :: withEnds routeEnd (t :: rest)

/-! ### The CRC (R194) -/

/-- One bit of the CRC register: polynomial 0x1021, most significant bit first. -/
def crcShift (c : Half) : Half := if c.msb then (c <<< 1) ^^^ 0x1021#16 else c <<< 1

/-- One byte into the CRC. -/
def crcByte (c : Half) (b : Byte) : Half :=
  crcShift (crcShift (crcShift (crcShift (crcShift (crcShift (crcShift (crcShift (c ^^^ (b.setWidth 16 <<< 8)))))))))

/-- The part's one CRC-16, starting at 0xFFFF. -/
def crc16 (bytes : List Byte) : Half := bytes.foldl crcByte 0xFFFF#16

end Sys2Proof.Machine
end

