-- ==== Sys2Proof/Machine/Ops.lean ====
section
/-! DEFINITION. The operations every block shares: replacing one block of the part, saturating counts, the time base, posting an
event (R187, R188), the reset inputs (R180), order slots (R184), and the bytes of memory (R173). -/

namespace Sys2Proof.Machine

/-! ### Replacing one block of the part -/

def Part.withNow (p : Part) (x : Word) : Part := { p with now := x }
def Part.withColdLine (p : Part) (x : Bool) : Part := { p with coldLine := x }
def Part.withWarmLine (p : Part) (x : Bool) : Part := { p with warmLine := x }
def Part.withFreeCount (p : Part) (x : Nat) : Part := { p with freeCount := x }
def Part.withBridge (p : Part) (x : Bridge) : Part := { p with bridge := x }
def Part.withOrd (p : Part) (x : Ord) : Part := { p with ord := x }
def Part.withEvq (p : Part) (x : Evq) : Part := { p with evq := x }
def Part.withOdo (p : Part) (x : Odo) : Part := { p with odo := x }
def Part.withPrf (p : Part) (x : Prf) : Part := { p with prf := x }
def Part.withSsu (p : Part) (x : Ssu) : Part := { p with ssu := x }
def Part.withAut (p : Part) (x : Aut) : Part := { p with aut := x }
def Part.withBrk (p : Part) (x : Brk) : Part := { p with brk := x }
def Part.withMod (p : Part) (x : Mod) : Part := { p with mod := x }
def Part.withDor (p : Part) (x : Dor) : Part := { p with dor := x }
def Part.withLink (p : Part) (x : Link) : Part := { p with link := x }
def Part.withMsg (p : Part) (x : Msg) : Part := { p with msg := x }

/-! ### Counts, time, and the reset inputs -/

/-- A 16-bit count that stops at 65535. -/
def sat16 (c : Half) : Half := if c == 0xFFFF#16 then c else c + 1

/-- An 8-bit count that stops at 255. -/
def sat8 (c : Byte) : Byte := if c == 0xFF#8 then c else c + 1

/-- A timer that started at `start` has run for `length` ms. -/
def Part.passed (p : Part) (start : Word) (length : Nat) : Bool := length ≤ Word.since p.now start

/-- The timer runs and its length has passed: its expiry is due (log 2). -/
def Part.due (p : Part) (timer : Option Word) (length : Nat) : Bool :=
  match timer with
  | none => false
  | some start => p.passed start length

/-- A reset input is asserted: the bridge is TRANSPARENT (R180). -/
def Part.asserted (p : Part) : Bool := p.coldLine || p.warmLine

/-- Do `f` when `c` holds. -/
def doWhen (c : Bool) (f : Part → Part) (p : Part) : Part := if c then f p else p

/-! ### Events (R187, R188, R190) -/

/-- EVQ's handling of a posting: stored with the next sequence while fewer than 64 are stored, else lost; the fault bit is set
either way. -/
def Evq.posting (q : Evq) (now : Word) (k : EventKind) (arg : Half) (pos : Word) (sets : Bool) : Evq :=
  let faults := match k.faultClass with
    | some c => if sets then q.faults ||| (1#12 <<< c.bit) else q.faults
    | none => q.faults
  if q.queue.length < 64 then
    { queue := q.queue ++ [⟨q.next, now, k, arg, pos⟩], next := q.next + 1, lost := q.lost, faults := faults,
      generation := q.generation + 1 }
  else
    { queue := q.queue, next := q.next, lost := sat16 q.lost, faults := faults, generation := q.generation + 1 }

/-- Post an event with a position of its own, setting its fault bit if `sets`. -/
def postAt (k : EventKind) (arg : Half) (pos : Word) (sets : Bool) (p : Part) : Part :=
  p.withEvq (p.evq.posting p.now k arg pos sets)

/-- Post an event at the route position. -/
def post (k : EventKind) (arg : Half) (p : Part) : Part := postAt k arg p.odo.pos true p

/-- Post an event at the route position; `sets` says whether its outcome sets the fault bit of its class. -/
def postIf (k : EventKind) (arg : Half) (sets : Bool) (p : Part) : Part := postAt k arg p.odo.pos sets p

/-! ### Order slots (R182, R184) -/

/-- Change the record of one slot. -/
def setSlot (i : Fin 16) (f : Slot → Slot) (p : Part) : Part :=
  p.withOrd { p.ord with slots := p.ord.slots.set i (f p.ord.slots[i]) }

/-- A timed order is taken: its slot is RUNNING with reason OK and result 0. -/
def slotRunning (i : Fin 16) : Part → Part :=
  setSlot i fun r => { r with state := .running, verdict := .taken, reason := .ok, result := 0 }

/-- A timed order ends: its slot takes the new state and the result, and ORD posts ORDER_DONE. -/
def slotEnd (i : Fin 16) (aborted : Bool) (result : Word) (p : Part) : Part :=
  let q := setSlot i (fun r => { r with state := if aborted then .aborted else .done, result := result }) p
  postAt .orderDone (arg3 i.val (if aborted then 2 else 1) p.ord.slots[i].tag.toNat) result true q

/-- How a block judges an order (R183): refused with a reason and a result, taken with a result, or a timed order taken, whose
slot the block has made RUNNING. -/
inductive Judgement where
  | refuse (r : Reason) (result : Word)
  | take (result : Word)
  | timed
deriving DecidableEq, Repr

/-- A refusal with result word 0. -/
def Judgement.no (r : Reason) : Judgement := .refuse r 0

/-- Parameter word `n + 1` of an order, from its working copy. -/
def param (work : Vector Word 7) (n : Fin 7) : Nat := work[n].toNat

/-! ### Memory: a list of address and byte, addresses strictly rising (log 4) -/

/-- The addresses of the list rise strictly from `low` on. -/
def memRises : Nat → List Host.Cell → Bool
  | _, [] => true
  | low, c :: cs => low ≤ c.1 && memRises (c.1 + 1) cs

/-- The one canonical form of memory: addresses strictly rising. An unlisted byte has no known value, so no entry equals what
an unlisted address reads as. -/
def Memory.wf (m : List Host.Cell) : Bool := memRises 0 m

/-- The byte at an address, none where nothing has been written (log 4). -/
def Memory.read (m : List Host.Cell) (a : Nat) : Option Byte :=
  match m with
  | [] => none
  | c :: cs => if c.1 = a then some c.2 else Memory.read cs a

/-- Write one byte, keeping the canonical form. -/
def Memory.write (m : List Host.Cell) (a : Nat) (b : Byte) : List Host.Cell :=
  match m with
  | [] => [(a, b)]
  | c :: cs => if a < c.1 then (a, b) :: c :: cs else if a = c.1 then (a, b) :: cs else c :: Memory.write cs a b

/-- Write byte `i` of a word when its enable is set. -/
def Memory.writeLane (m : List Host.Cell) (a : Nat) (d : Word) (e : BitVec 4) (i : Nat) : List Host.Cell :=
  if e.getLsbD i then Memory.write m (a + i) (BitVec.ofNat 8 (byteAt d i)) else m

/-- Write the enabled bytes of a word, least significant byte first (R173). -/
def Memory.writeWord (m : List Host.Cell) (a : Nat) (d : Word) (e : BitVec 4) : List Host.Cell :=
  Memory.writeLane (Memory.writeLane (Memory.writeLane (Memory.writeLane m a d e 0) a d e 1) a d e 2) a d e 3

end Sys2Proof.Machine
end

