-- ==== Sys2Proof/Machine/Link.lean ====
section
/-! DEFINITION. The sending half of the radio link: the transmit queue (R154, R155), the link state machine (R148 to R153), the frames
the car builds (R160, R166, R168, Table 12-10), and the meanings of the rows of the transmitter and the carrier. -/

namespace Sys2Proof.Machine

/-- What the transmit queue does with a frame handed to it (R154, R170). -/
inductive TxResult where
  | placed | refreshed | full | stabled
deriving DecidableEq, Repr

/-- The result word of POLL REPORT (R170). -/
def TxResult.code : TxResult → Nat
  | .placed => 1 | .refreshed => 2 | .full => 3 | .stabled => 4

/-! ### The queue as a list (R154) -/

/-- A frame at the tail of its class. -/
def txInsertTail (f : TxFrame) (q : List TxFrame) : List TxFrame :=
  q.takeWhile (fun g => g.cls.code ≤ f.cls.code) ++ f :: q.dropWhile (fun g => g.cls.code ≤ f.cls.code)

/-- A frame at the head of its class. -/
def txInsertHead (f : TxFrame) (q : List TxFrame) : List TxFrame :=
  q.takeWhile (fun g => g.cls.code < f.cls.code) ++ f :: q.dropWhile (fun g => g.cls.code < f.cls.code)

/-- The frame a full queue displaces for class `c`: the newest frame of the lowest class present, if it ranks below. In a queue
ordered by class that is the last frame, and Table 8-4 reads: ALARM displaces anything below, REFUSAL a TEXT or the REPORT,
REPORT a TEXT, TEXT nothing. -/
def txDisplaced (c : TxClass) (q : List TxFrame) : Option TxFrame :=
  match q.getLast? with
  | some g => if c.code < g.cls.code then some g else none
  | none => none

/-- A REPORT is queued. -/
def txHasReport (q : List TxFrame) : Bool := q.any fun g => g.cls == .report

/-- The queued REPORT takes a new kind and payload in place, keeping its position and sequence. -/
def txRefresh (f : TxFrame) (q : List TxFrame) : List TxFrame :=
  q.map fun g => if g.cls == .report then { g with kind := f.kind, payload := f.payload } else g

/-! ### Drops, the frame's bytes, keying up -/

/-- A frame of class `c` is dropped or displaced: counted, and TX_DROPPED posted (R154). -/
def txDrop (c : TxClass) (r : TxDrop) (p : Part) : Part :=
  post .txDropped (arg2 c.code r.code)
    (p.withLink { p.link with txDrops := p.link.txDrops.set r.index (sat16 p.link.txDrops[r.index]) })

/-- The bytes of a frame from destination to the last payload byte (Table 12-8). -/
def frameBytes (f : TxFrame) (source sequence : Byte) : List Byte :=
  [f.dest, source, f.kind, sequence, BitVec.ofNat 8 f.payload.length] ++ f.payload

/-- A byte of a frame as it is sent: a special byte is preceded by ESC (R152). -/
def stuff (b : Byte) : List Byte := if 0xF1 ≤ b.toNat ∧ b.toNat ≤ 0xF5 then [0xF3#8, b] else [b]

/-- START, the stuffed bytes with the CRC most significant byte first, END (R152, R194). -/
def frameStream (bytes : List Byte) (crc : Half) : List Byte :=
  0xF1#8 :: ((bytes ++ [BitVec.ofNat 8 (crc.toNat / 256), BitVec.ofNat 8 crc.toNat]).flatMap stuff ++ [0xF2#8])

/-- Entry to KEY_UP with the head frame (R151). -/
def keyUp (p : Part) : Part :=
  match p.link.queue with
  | [] => p
  | f :: rest =>
    let seq := f.sequence.getD p.link.sendSequence
    let next := if f.sequence.isSome then p.link.sendSequence else p.link.sendSequence + 1
    let source := BitVec.ofNat 8 p.prf.settings.carId
    let bytes := frameBytes f source seq
    p.withLink { p.link with
      state := .keyUp, queue := rest, sendSequence := next, flowHold := false, ptt := true, deferTimer := none,
      keyUpTimer := some p.now,
      sendBuffer := some ⟨{ f with sequence := some seq }, source, crc16 bytes, none, frameStream bytes (crc16 bytes)⟩ }

/-- LISTEN looks at the queue: KEY_UP when CD is absent, DEFER when CD is present (R148). While a reset is asserted PTT is not
asserted (R141), so it does not look. -/
def listenLook (p : Part) : Part :=
  if p.link.state == .listen && !p.link.queue.isEmpty && !p.asserted then
    if p.link.cd then p.withLink { p.link with state := .defer, deferTimer := none } else keyUp p
  else p

/-- The state moves to LISTEN, which looks at the queue at once. -/
def toListen (p : Part) : Part := listenLook (p.withLink { p.link with state := .listen })

/-! ### Handing a frame to the queue (R154) -/

/-- What the queue does with a frame of this class now. -/
def offerResult (c : TxClass) (p : Part) : TxResult :=
  if p.mod.mode == .stabled && c != .alarm then .stabled
  else if c == .report && txHasReport p.link.queue then .refreshed
  else if p.link.queue.length < 4 || (txDisplaced c p.link.queue).isSome then .placed
  else .full

/-- Make room in a full queue: the displaced frame leaves it, counted. -/
def txMakeRoom (c : TxClass) (p : Part) : Part :=
  if p.link.queue.length < 4 then p
  else match txDisplaced c p.link.queue with
    | some g => txDrop g.cls .displaced (p.withLink { p.link with queue := p.link.queue.dropLast })
    | none => p

/-- A frame is handed to the transmit queue. A TEXT that is not taken is answered by SEND TEXT and is not counted. -/
def offer (f : TxFrame) (p : Part) : Part :=
  match offerResult f.cls p with
  | .placed =>
    let q := txMakeRoom f.cls p
    listenLook (q.withLink { q.link with queue := txInsertTail f q.link.queue })
  | .refreshed => p.withLink { p.link with queue := txRefresh f p.link.queue }
  | .full => if f.cls == .text then p else txDrop f.cls .full p
  | .stabled => if f.cls == .text then p else txDrop f.cls .stabled p

/-- A frame is put back from KEY_UP (R155). -/
def putBack (f : TxFrame) (p : Part) : Part :=
  if f.cls == .report && txHasReport p.link.queue then p
  else if p.link.queue.length < 4 || (txDisplaced f.cls p.link.queue).isSome then
    let q := txMakeRoom f.cls p
    q.withLink { q.link with queue := txInsertHead f q.link.queue }
  else txDrop f.cls .full p

/-! ### The frames the car builds (Table 12-10) -/

/-- Route position in teeth as reports give it: divided by 16, the remainder dropped, limited to 0 to 1,048,575 (Table 9-3). -/
def reportTeeth (p : Part) : Nat := min (p.odo.pos.toInt.toNat / 16) 1048575

/-- The absolute deviation stands above the climb threshold (R15). -/
def climbing (p : Part) : Bool := p.prf.settings.climbThreshold < p.odo.deviation.toInt.natAbs

/-- The alarm flags, bit k−1 for alarm code k (Table 9-4). -/
def alarmFlags (p : Part) : Nat :=
  flagNat p.msg.rollAway + 2 * flagNat p.dor.deferred.isSome + 4 * flagNat (p.mod.mode == .lockout) + 8 * flagNat (climbing p)
  + 16 * flagNat p.brk.table[DemandSource.silence.index].latched + 32 * flagNat p.aut.overrun + 64 * flagNat p.aut.lateRevoke

/-- The payload of a REPORT (Table 12-10). -/
def reportPayload (p : Part) : List Byte :=
  leBytes 1 p.prf.settings.carId ++ leBytes 3 (reportTeeth p) ++ leBytes 1 p.odo.validity.code ++ leBytes 2 p.odo.speed
  ++ leBytes 1 p.odo.dir.code ++ leBytes 1 p.mod.mode.code ++ leBytes 1 p.brk.commanded.value
  ++ leBytes 2 (match p.aut.current with | some a => a.id.toNat | none => 0)
  ++ leBytes 1 (flagNat p.aut.next.isNone + 2 * flagNat p.aut.request + 4 * flagNat p.aut.relinquished)
  ++ leBytes 1 (alarmFlags p) ++ leBytes 1 p.msg.mailbox.length ++ leBytes 1 p.ssu.state.code

/-- A REPORT is handed to the queue; the report timer restarts in every mode but STABLED (R166, R167). -/
def handReport (p : Part) : Part :=
  let q := offer { cls := .report, dest := 0, kind := 16, payload := reportPayload p, sequence := none } p
  if p.mod.mode == .stabled then q else q.withMsg { q.msg with reportTimer := some p.now }

/-- An alarm is handed to the queue (R168). -/
def handAlarm (k : AlarmKind) (p : Part) : Part :=
  offer { cls := .alarm, dest := 0, kind := 17, sequence := none,
          payload := leBytes 1 k.code ++ leBytes 3 (reportTeeth p) ++ leBytes 1 p.odo.validity.code } p

/-- A refusal is handed to the queue: station answered, refused kind, id, reason (R160). -/
def handRefusal (station : Byte) (kind id : Nat) (r : Reason) (p : Part) : Part :=
  offer { cls := .refusal, dest := 0, kind := 18, sequence := none,
          payload := station :: (leBytes 1 kind ++ leBytes 2 id ++ leBytes 1 r.code) } p

/-! ### The line TXD (R141, R152) -/

/-- What TXD carries: the bits of the character in progress in SENDING, and nothing but the idle level otherwise or while a reset is
asserted. -/
def txdBits (p : Part) : List Bool :=
  match p.link.state, p.link.sendBuffer with
  | .sending, some b => if p.asserted then [] else (b.current.map lineBits).getD []
  | _, _ => []

/-! ### The rows of the transmitter -/

/-- SENDING goes on with the next character of the frame. -/
def sendNext (p : Part) : Part :=
  match p.link.sendBuffer with
  | some b => p.withLink { p.link with
      state := .sending, pauseTimer := none, keyUpTimer := none,
      sendBuffer := some { b with current := b.rest.head?, rest := b.rest.tail } }
  | none => p

/-- Entry to PAUSED (R153). -/
def toPaused (p : Part) : Part :=
  match p.link.sendBuffer with
  | some b => p.withLink { p.link with
      state := .paused, pauseTimer := some p.now, keyUpTimer := none, sendBuffer := some { b with current := none } }
  | none => p

/-- A flow byte: PAUSE sets the flow hold flag and RESUME clears it in the states that assert PTT; RESUME in PAUSED goes on
sending (R149, R152, R153). -/
def flowByte (hold : Bool) (p : Part) : Part :=
  match p.link.state with
  | .listen | .receiving | .defer => p
  | .keyUp | .sending | .tail => p.withLink { p.link with flowHold := hold }
  | .paused =>
    let q := p.withLink { p.link with flowHold := hold }
    if hold then q else sendNext q

/-- Expiry of the key-up timer of 40 ms (R151). -/
def keyUpExpiry (p : Part) : Part :=
  if p.link.state == .keyUp && p.due p.link.keyUpTimer 40 then
    if p.link.flowHold then toPaused p else sendNext p
  else p

/-- Expiry of the defer timer (R150). -/
def deferExpiry (p : Part) : Part :=
  match p.link.state, p.link.deferTimer with
  | .defer, some t => if p.passed t.start t.length then keyUp p else p
  | _, _ => p

/-- The character in progress is complete (R152): after the END the state moves to TAIL, on a flow hold to PAUSED (log 24). -/
def characterSent (p : Part) : Part :=
  match p.link.state, p.link.sendBuffer with
  | .sending, some b =>
    if b.rest.isEmpty then
      p.withLink { p.link with state := .tail, sendBuffer := none, tailTimer := some p.now }
    else if p.link.flowHold then toPaused p else sendNext p
  | _, _ => p

/-- TAIL ends after 20 ms: PTT is dropped and LISTEN looks at the queue (R152). -/
def tailExpiry (p : Part) : Part :=
  if p.link.state == .tail && p.due p.link.tailTimer 20 then
    toListen (p.withLink { p.link with ptt := false, tailTimer := none })
  else p

/-- The pause timer of 500 ms expires: the frame is abandoned (R153). -/
def pauseExpiry (p : Part) : Part :=
  match p.link.state, p.link.sendBuffer with
  | .paused, some b =>
    if p.due p.link.pauseTimer 500 then
      toListen (txDrop b.frame.cls .pauseLimit
        (p.withLink { p.link with ptt := false, pauseTimer := none, sendBuffer := none, state := .listen }))
    else p
  | _, _ => p

/-- The report timer expires: a REPORT is handed (R167). -/
def reportExpiry (p : Part) : Part :=
  if p.due p.msg.reportTimer p.prf.settings.reportInterval && !p.asserted && p.mod.mode != .stabled then handReport p else p

/-- CD rises: DEFER stops its timer, KEY_UP puts its frame back, LISTEN looks (R150, R151). -/
def carrierRise (p : Part) : Part :=
  if p.link.cd then p else
  let q := p.withLink { p.link with cd := true }
  if q.asserted then q else
  match q.link.state with
  | .defer => q.withLink { q.link with deferTimer := none }
  | .keyUp =>
    let r := q.withLink { q.link with ptt := false, keyUpTimer := none, sendBuffer := none, state := .defer, deferTimer := none }
    match q.link.sendBuffer with
    | some b => putBack b.frame r
    | none => r
  | .listen => listenLook q
  | _ => q

end Sys2Proof.Machine
end

