-- ==== Sys2Proof/Machine/Brake.lean ====
section
/-! DEFINITION. The brake controller (chapter 3): the demand table and its requests (R42 to R46), the outputs (R47, R48), the
confirmation patterns (R49, R50) and the brake state machine (R51 to R56). -/

namespace Sys2Proof.Machine

/-! ### The demand table -/

/-- The entry of a source. -/
def Part.entry (p : Part) (d : DemandSource) : Entry := p.brk.table[d.index]

/-- Some entry is latched. -/
def Part.anyLatched (p : Part) : Bool := p.brk.table.toList.any Entry.latched

/-- The highest stage requested by any entry (R45). -/
def highestStage (t : Vector Entry 12) : Stage := t.toList.foldl (fun s e => s.max e.stage) .released

/-- The lowest-numbered source whose entry holds the commanded stage, its number (R45). -/
def lowestSource (b : Brk) : Nat := b.table.toList.findIdx (fun e => e.stage == b.commanded) + 1

/-! ### Outputs (R47, R48) -/

/-- The seven output levels, bit 0 the S1 line to bit 6 TRAIN BRAKE, energised and asserted lines reading 1 (Table 3-4, R193). -/
def outputLevels : Stage → Nat
  | .released => 0b0011000
  | .s1 => 0b0111001
  | .s2 => 0b0111011
  | .s3 => 0b1111111
  | .band => 0b1110111
  | .emergency => 0b1100111

/-- The outputs: those of the commanded stage, and the applied state while a reset is asserted. -/
def Part.outputs (p : Part) : Nat := if p.asserted then outputLevels .emergency else outputLevels p.brk.commanded

/-! ### Confirmation (R49, R50) -/

/-- The reduced pattern is in force: the charge wait runs, or the car is STABLED (R50). -/
def Part.reduced (p : Part) : Bool := p.mod.charge != .complete || p.mod.mode == .stabled

/-- The confirming switches of a stage are closed. -/
def confirming (reduced : Bool) (f : Feedback) : Stage → Bool
  | .released => true
  | .s1 => f.ps1
  | .s2 => f.ps2
  | .s3 => f.ps3
  | .band | .emergency => (reduced || f.ps3) && f.band

/-- The switches above a stage are open. -/
def aboveOpen (f : Feedback) : Stage → Bool
  | .released => !f.ps1 && !f.ps2 && !f.ps3 && !f.band
  | .s1 => !f.ps2 && !f.ps3 && !f.band
  | .s2 => !f.ps3 && !f.band
  | .s3 => !f.band
  | .band | .emergency => true

/-- The feedback confirms the target of the operation (Table 3-5). -/
def operationConfirmed (reduced : Bool) (f : Feedback) : BrakeState → Bool
  | .settled => false
  | .applying t _ => t != .released && confirming reduced f t
  | .releasing t _ => confirming reduced f t && aboveOpen f t

/-- The length of a deadline (Table 3-6). -/
def applyingDeadline : Stage → Nat
  | .band => 800
  | .emergency => 1500
  | _ => 2000

/-- The length of every RELEASING deadline. -/
def releasingDeadline : Nat := 3000

/-! ### The state machine -/

/-- The stage of a test step: S1, S2, S3, BAND, EMERGENCY (R63). -/
def stepStage (n : Fin 5) : Stage :=
  match n with
  | 0 => .s1 | 1 => .s2 | 2 => .s3 | 3 => .band | 4 => .emergency

/-- A confirmation time in ms, 0 to 65535; a longer one stays at 65535 (log 27). -/
def stepTime (ms : Nat) : Half := BitVec.ofNat 16 (min ms 65535)

/-- The brake has settled at a stage: a test step that waits for it passes and begins its hold (R63). -/
def stepSettled (s : Stage) (p : Part) : Part :=
  match p.brk.test with
  | some t =>
    if t.hold == none && stepStage t.step == s then
      p.withBrk { p.brk with
        test := some { t with hold := some p.now },
        record := { p.brk.record with
          results := p.brk.record.results.set t.step .pass,
          times := p.brk.record.times.set t.step (stepTime (Word.since p.now t.start)) } }
    else p
  | none => p

/-- The brake enters SETTLED at a stage (R52). -/
def settle (s : Stage) (p : Part) : Part :=
  stepSettled s (post .brakeSettled (BitVec.ofNat 16 s.value) (p.withBrk { p.brk with state := .settled, confirmed := s }))

/-- The operation is judged against the feedback: confirmed, it settles at its target (R51, R52). -/
def judgeOperation (p : Part) : Part :=
  if operationConfirmed p.reduced p.brk.inputs p.brk.state then
    match p.brk.state with
    | .applying t _ => settle t p
    | .releasing t _ => settle t p
    | .settled => p
  else p

/-- The operation R51 starts toward a stage, by the confirmed stage. -/
def operationToward (b : Brk) (now : Word) (target : Stage) : BrakeState :=
  if b.confirmed.value < target.value then .applying target (some now)
  else if target.value < b.confirmed.value then .releasing target (some now)
  else if target == .released || !aboveOpen b.inputs target then .releasing target (some now)
  else .applying target (some now)

/-- A new operation toward a stage replaces the old one and is judged at once (R51). -/
def startOperation (target : Stage) (p : Part) : Part :=
  judgeOperation (p.withBrk { p.brk with state := operationToward p.brk p.now target })

/-- The commanded stage is formed again; a change starts an operation, except while a reset is asserted (R45, R48, R51). -/
def formCommanded (p : Part) : Part :=
  let c := highestStage p.brk.table
  if c == p.brk.commanded then p
  else
    let q := p.withBrk { p.brk with commanded := c }
    if p.asserted then q else startOperation c q

/-- An entry is written and the commanded stage formed again. -/
def writeEntry (d : DemandSource) (e : Entry) (p : Part) : Part :=
  p.withBrk { p.brk with table := p.brk.table.set d.index e }

/-- Post DEMAND_SET with a source, stage and cause and a set position (R46). -/
def postDemandSet (d : DemandSource) (s : Stage) (cause : Nat) (pos : Word) (p : Part) : Part :=
  postAt .demandSet (arg3 d.number s.value cause) pos true p

/-- Post DEMAND_CLEARED with a source, its new stage and its set position (R46). -/
def postDemandCleared (d : DemandSource) (s : Stage) (pos : Word) (p : Part) : Part :=
  postAt .demandCleared (arg2 d.number s.value) pos true p

/-- The cause of a request: 0 when its stage is 0 (R43). -/
def causeByte (s : Stage) (cause : Nat) : Byte := if s == .released then 0 else BitVec.ofNat 8 cause

/-- A following request (R43), before any check of a running brake test. -/
def followEntry (d : DemandSource) (s : Stage) (cause : Nat) (p : Part) : Part :=
  let e := p.entry d
  if e.latched then p
  else if e.stage.value < s.value then
    formCommanded (postDemandSet d s cause p.odo.pos
      (writeEntry d { e with stage := s, cause := causeByte s cause, setTime := p.now, setPos := p.odo.pos } p))
  else if s.value < e.stage.value then
    formCommanded (postDemandCleared d s e.setPos (writeEntry d { e with stage := s, cause := causeByte s cause } p))
  else writeEntry d { e with cause := causeByte s cause } p

/-- A latching request (R44), before any check of a running brake test. -/
def latchEntry (d : DemandSource) (s : Stage) (cause : Nat) (p : Part) : Part :=
  let e := p.entry d
  if e.latched && s.value ≤ e.stage.value then
    postDemandSet d e.stage cause e.setPos p
  else
    formCommanded (postDemandSet d (e.stage.max s) cause p.odo.pos
      (writeEntry d { stage := e.stage.max s, latched := true, cause := BitVec.ofNat 8 cause, setTime := p.now,
                      setPos := p.odo.pos } p))

/-- A latch is cleared: the entry takes the stage and cause the owner's condition calls for (R59, R60). -/
def clearLatch (d : DemandSource) (s : Stage) (cause : Nat) (p : Part) : Part :=
  let e := p.entry d
  formCommanded (postDemandCleared d s e.setPos
    (writeEntry d { e with latched := false, stage := s, cause := causeByte s cause } p))

/-- The confirmation pattern may have changed (R50): `was` is the pattern in force before. Nothing is judged while a reset is
asserted (R48). -/
def patternChanged (was : Bool) (p : Part) : Part :=
  if p.reduced == was || p.asserted then p
  else match p.brk.state with
    | .settled =>
      if confirming p.reduced p.brk.inputs p.brk.confirmed then p
      else judgeOperation (p.withBrk { p.brk with state := .applying p.brk.confirmed (some p.now) })
    | _ => judgeOperation p

end Sys2Proof.Machine
end

