-- ==== Sys2Proof/Machine/Supervision.lean ====
section
/-! DEFINITION. Speed supervision (chapter 4): the car extent and the segments it meets, P, B, E and d (R71 to R73), the curve check,
the overspeed check and the supervision state (R74 to R78), the speed bound (R84), and the restriction list (R79 to R83). -/

namespace Sys2Proof.Machine

/-! ### The car extent and the segments -/

/-- The lower end of the car extent, in counts. -/
def Part.rearCounts (p : Part) : Int := p.odo.pos.toInt - p.prf.settings.carLength * 16

/-- The range from tooth `a` up to, but not including, tooth `b` overlaps the car extent (R71). -/
def Part.overlaps (p : Part) (a b : Nat) : Bool :=
  a < b && (a : Int) * 16 ≤ p.odo.pos.toInt && p.rearCounts < (b : Int) * 16

/-- The range from tooth `a` to tooth `b`, both included, holds the car extent. -/
def Part.holdsExtent (p : Part) (a b : Nat) : Bool :=
  (a : Int) * 16 ≤ p.rearCounts && p.odo.pos.toInt ≤ (b : Int) * 16

/-- The active segments with their ends. -/
def Part.segments (p : Part) : List (SegRec × Nat) := withEnds p.prf.settings.routeEnd p.prf.active

/-- The segment containing route position, none while validity is UNKNOWN or no profile is active. -/
def Part.segmentHere (p : Part) : Option SegRec :=
  match p.odo.segment with
  | some i => p.prf.active[i]?
  | none => none

/-! ### P, B, E and d -/

/-- The supervision direction (R69). -/
def Part.supervisionDir (p : Part) : Dir :=
  match p.aut.current with
  | some a => a.dir
  | none => p.odo.dir

/-- The limit of a segment for a direction of travel. -/
def SegRec.limit (r : SegRec) : Dir → Nat
  | .up => r.limitUp
  | .down => r.limitDown

/-- The limits that apply over the car extent (the table of R71). -/
def Part.limits (p : Part) : List Nat :=
  ((p.segments.filter fun s => p.overlaps s.1.start s.2).map fun s => s.1.limit p.supervisionDir)
  ++ ((p.ssu.restrictions.filter fun r => r.dirs.includes p.supervisionDir && p.overlaps r.start r.stop).map Restriction.limit)
  ++ (match p.aut.current with | some a => [a.cap] | none => [])
  ++ (if p.odo.validity == .provisional || p.odo.validity == .uncertain then [p.prf.settings.uncertaintyCap] else [])

/-- The permitted speed P (R71); with no limit that applies, a free value (log 22). -/
def Part.permittedSpeed (p : Part) : Nat :=
  if p.prf.active.isEmpty || p.odo.validity == .unknown || p.rearCounts < 0
      || (p.prf.settings.routeEnd : Int) * 16 < p.odo.pos.toInt then 0
  else match p.limits with
    | [] => (Config.permittedWithoutLimit p.odo.pos).toNat
    | l :: ls => ls.foldl min l

/-- The gradient class of an effective gradient (Table 4-1). -/
def gradientClass (g : Int) : Nat := if -40 ≤ g then 0 else if -120 ≤ g then 1 else if -200 ≤ g then 2 else 3

/-- The braking distance B in teeth (R72). -/
def Part.brakingDistance (p : Part) : Nat :=
  let cls := match p.segmentHere with
    | some r => gradientClass (match p.supervisionDir with | .up => r.gradient | .down => -r.gradient)
    | none => 3
  p.prf.settings.braking cls (min (p.odo.speed / 128) 7)

/-- The effective end E in teeth (R73). -/
def Aut.effectiveEnd (a : Aut) : Option Nat :=
  match a.next with
  | some n => some n.stop
  | none => match a.current with
    | some c => some c.stop
    | none => none

/-- The distance from the end that leads in a direction to a tooth, in counts, in that direction (R73, R95). -/
def Part.distanceTo (p : Part) (dir : Dir) (tooth : Nat) : Int :=
  match dir with
  | .up => (tooth : Int) * 16 - p.odo.pos.toInt
  | .down => p.rearCounts - (tooth : Int) * 16

/-- What d and dc show when there is none. -/
def noDistance : Int := 2147483647

/-- P, B, E and d are worked out afresh (R69, R70). -/
def ssuNumbers (p : Part) : Part :=
  let e := p.aut.effectiveEnd
  p.withSsu { p.ssu with
    permitted := p.permittedSpeed, braking := p.brakingDistance, effectiveEnd := e,
    distance := match e with | some t => p.distanceTo p.supervisionDir t | none => noDistance }

/-! ### The checks and the supervision state -/

/-- Curve intervention holds (R74). -/
def curveIntervention (p : Part) : Bool :=
  p.ssu.distance ≤ (p.ssu.braking : Int) * 16 && p.prf.settings.releaseSpeed < p.odo.speed

/-- Curve warning holds (R74). -/
def curveWarning (p : Part) : Bool :=
  p.ssu.distance ≤ ((p.ssu.braking + p.prf.settings.warningDistance : Nat) : Int) * 16

/-- The overspeed hold after an evaluation (R75). -/
def overspeedHold (v permitted margin : Nat) (hold : Bool) : Bool :=
  if permitted + margin < v then true else if v ≤ permitted then false else hold

/-- The overspeed level below a trip (R75). -/
def overspeedLevel (v permitted warning : Nat) (hold : Bool) : SupervisionState :=
  if v ≤ permitted then .normal
  else if hold then .intervention
  else if v ≤ permitted + warning then .warning
  else .intervention

/-- The supervision state becomes `s`; a change posts SUPERVISION_STATE (R77). -/
def toSupervision (s : SupervisionState) (p : Part) : Part :=
  if p.ssu.state == s then p
  else postIf .supervisionState (BitVec.ofNat 16 s.code) (s == .tripped) (p.withSsu { p.ssu with state := s })

/-- The following request of SSU; it is made when its stage or cause changes (R77). -/
def requestSupervision (s : Stage) (cause : Nat) (p : Part) : Part :=
  if p.ssu.request == (s, causeByte s cause) then p
  else followEntry .supervision s cause (p.withSsu { p.ssu with request := (s, causeByte s cause) })

/-- The evaluation in RUN, P, B, E and d standing (R74 to R77). -/
def evaluateRun (p : Part) : Part :=
  let v := p.odo.speed
  let pm := p.ssu.permitted
  let set := p.prf.settings
  let hold := overspeedHold v pm set.interventionMargin p.ssu.hold
  let curve := curveIntervention p
  let trips := pm + set.emergencyMargin < v && p.ssu.state != .tripped
  let level := (overspeedLevel v pm set.warningMargin hold).max
    (if curve then .intervention else if curveWarning p then .warning else .normal)
  let q := p.withSsu { p.ssu with hold := hold }
  let q := if p.ssu.state == .tripped then q else toSupervision (if trips then .tripped else level) q
  let q := if trips then latchEntry .supervision .emergency 3 q else q
  if curve then requestSupervision .s3 2 q else if hold then requestSupervision .s2 1 q else requestSupervision .released 0 q

/-- SSU evaluates, except while a reset is asserted (R70); outside RUN it works out P, B, E and d only (R69). -/
def ssuEvaluate (p : Part) : Part :=
  if p.asserted then p
  else
    let q := ssuNumbers p
    if q.mod.mode == .run then evaluateRun q else q

/-- The car leaves RUN (R69): IDLE, or TRIPPED while the entry is latched, the hold cleared, stage 0 requested. -/
def ssuLeaveRun (p : Part) : Part :=
  let q := p.withSsu { p.ssu with hold := false }
  let q := if q.ssu.state == .tripped && (q.entry .supervision).latched then q else toSupervision .idle q
  followEntry .supervision .released 0 (q.withSsu { q.ssu with request := (.released, 0) })

/-- The bound of SPEED guards (R84). -/
def speedBound (p : Part) : Nat := if p.mod.mode == .run && p.brk.commanded == .released then p.ssu.permitted else 0

/-! ### The restriction list (R79 to R83) -/

/-- The list order: by start and then id (R79). -/
def Restriction.before (a b : Restriction) : Bool := a.start < b.start || (a.start == b.start && a.id.toNat < b.id.toNat)

/-- An entry at its place in the order. -/
def insertRestriction (r : Restriction) : List Restriction → List Restriction
  | [] => [r]
  | t :: ts => if r.before t then r :: t :: ts else t :: insertRestriction r ts

/-- The fields of an addition as they arrive, before R80 checks them. -/
structure Addition where
  id     : Nat
  start  : Nat
  stop   : Nat
  limit  : Nat
  dirs   : Nat
deriving DecidableEq, Repr

/-- The directions of a code 1 to 3 (Table 12-11). -/
def Dirs.ofNat? : Nat → Option Dirs
  | 1 => some .up | 2 => some .down | 3 => some .both | _ => none

/-- Two origins of the same kind: the check of R80 is by kind, not by station. -/
def Origin.sameKind : Origin → Origin → Bool
  | .host, .host => true
  | .radio _, .radio _ => true
  | _, _ => false

/-- The entry of an id. -/
def findRestriction (id : Nat) (l : List Restriction) : Option Restriction := l.find? fun r => r.id.toNat == id

/-- The list without an id. -/
def eraseRestriction (id : Nat) (l : List Restriction) : List Restriction := l.filter fun r => r.id.toNat != id

/-- How R80 judges an addition: a refusal, or the entry to place and whether it replaces one. -/
def judgeAddition (a : Addition) (o : Origin) (l : List Restriction) : Except Reason (Restriction × Bool) :=
  match Dirs.ofNat? a.dirs with
  | none => .error .badParam
  | some dirs =>
    if a.id = 0 ∨ 255 < a.id ∨ a.stop ≤ a.start ∨ 1048575 < a.stop ∨ 4095 < a.limit then .error .badParam
    else
      let r : Restriction := ⟨BitVec.ofNat 8 a.id, o, a.start, a.stop, a.limit, dirs⟩
      match findRestriction a.id l with
      | some old => if old.origin.sameKind o then .ok (r, true) else .error .owned
      | none => if 8 ≤ l.length then .error .full else .ok (r, false)

/-- An addition that R80 takes is placed, TSR_CHANGED posted, and SSU evaluates (R83). -/
def placeRestriction (r : Restriction) (replaced : Bool) (p : Part) : Part :=
  ssuEvaluate (post .tsrChanged (arg2 r.id.toNat (if replaced then 2 else 1))
    (p.withSsu { p.ssu with restrictions := insertRestriction r (eraseRestriction r.id.toNat p.ssu.restrictions) }))

/-- An entry is removed, TSR_CHANGED posted, and SSU evaluates (R82, R83). -/
def dropRestriction (id : Nat) (p : Part) : Part :=
  ssuEvaluate (post .tsrChanged (arg2 id 3)
    (p.withSsu { p.ssu with restrictions := eraseRestriction id p.ssu.restrictions }))

end Sys2Proof.Machine
end

