-- ==== Sys2Proof/Machine/Sides.lean ====
section
/-! DEFINITION. The doors below the car mode (chapter 7): a door's change of state, the closing path (R123), the withdrawal of a side
(R125), the DOORS entry (R137), and what the release of a side asks of the profile and the permits (R126). -/

namespace Sys2Proof.Machine

/-! ### Doors and sides -/

/-- The record of a door. -/
def Part.door (p : Part) (d : Fin 8) : Door := p.dor.doors[d]

/-- Change the record of one door. -/
def setDoor (d : Fin 8) (f : Door → Door) (p : Part) : Part :=
  p.withDor { p.dor with doors := p.dor.doors.set d (f (p.door d)) }

/-- A door changes state, its motion timer as given, and DOOR_STATE is posted (R122). -/
def doorTo (d : Fin 8) (s : DoorState) (motion : Option Word) (p : Part) : Part :=
  post .doorState (arg2 d.val s.code) (setDoor d (fun r => { r with state := s, motion := motion }) p)

/-- The side of a door: D0 to D3 left, D4 to D7 right. -/
def doorSide (d : Fin 8) : Side := if d.val < 4 then .left else .right

/-- The doors of a side, in order. -/
def sideDoors : Side → List (Fin 8)
  | .left => [0, 1, 2, 3]
  | .right => [4, 5, 6, 7]

/-- All doors, in order. -/
def allDoors : List (Fin 8) := [0, 1, 2, 3, 4, 5, 6, 7]

/-- The record of a side. -/
def Part.side (p : Part) : Side → SideRec
  | .left => p.dor.left
  | .right => p.dor.right

/-- Replace the record of a side. -/
def setSide (s : Side) (r : SideRec) (p : Part) : Part :=
  match s with
  | .left => p.withDor { p.dor with left := r }
  | .right => p.withDor { p.dor with right := r }

/-- The door counts as shut: LOCKED or ISOLATED. -/
def DoorState.shut (s : DoorState) : Bool := s == .locked || s == .isolated

/-- Every door is LOCKED or ISOLATED. -/
def Part.doorsShut (p : Part) : Bool := allDoors.all fun d => (p.door d).state.shut

/-- The outputs of a door: release lamp, open drive, close drive (Table 7-2). -/
def doorOutputs (s : DoorState) (released : Bool) : Bool × Bool × Bool :=
  match s with
  | .released => (true, false, false)
  | .opening => (released, true, false)
  | .open_ => (released, false, false)
  | .closing => (false, false, true)
  | .reopening => (false, true, false)
  | .locked | .faulted | .isolated => (false, false, false)

/-! ### The closing path (R123) -/

/-- A door in CLOSING meets an obstruction: the retry count rises, or at 7 close-failed is set, and it is REOPENING (R123). -/
def startReopening (d : Fin 8) (p : Part) : Part :=
  doorTo d .reopening (some p.now) (setDoor d (fun r =>
    if r.retries < 7 then { r with retries := r.retries + 1 } else { r with closeFailed := true }) p)

/-- A REOPENING door with FO closed recloses: close-failed is clear and the retry count is no more than the obstruction
retries (R123). -/
def recloses (d : Fin 8) (p : Part) : Bool :=
  !(p.door d).closeFailed && (p.door d).retries ≤ p.prf.settings.obstructionRetries

/-- A door that does not reclose is OPEN with close-failed (R123). -/
def leaveOpen (d : Fin 8) (p : Part) : Part := doorTo d .open_ none (setDoor d (fun r => { r with closeFailed := true }) p)

/-- A door enters CLOSING and is judged on its levels at once: CL closed locks it, OB closed sends it to REOPENING, and there FO
closed judges it for a reclose. Each turn through REOPENING counts a retry or sets close-failed, and 7 is the largest retry
count, so nine turns are the most there can be; `fuel` counts them. -/
def enterClosing : Nat → Fin 8 → Part → Part
  | 0, _, p => p
  | fuel + 1, d, p =>
    let q := doorTo d .closing (some p.now) p
    if (q.door d).cl then doorTo d .locked none q
    else if (q.door d).ob then
      let r := startReopening d q
      if (r.door d).fo then (if recloses d r then enterClosing fuel d r else leaveOpen d r) else r
    else q

/-- Entry to CLOSING (R123). -/
def closeDoor (d : Fin 8) (p : Part) : Part := enterClosing 10 d p

/-- A REOPENING door with FO closed is judged against the obstruction retries (R123). -/
def judgeReopened (d : Fin 8) (p : Part) : Part := if recloses d p then closeDoor d p else leaveOpen d p

/-- OB rises in CLOSING; FO closed at the entry to REOPENING judges the door at once (R123). -/
def obstruct (d : Fin 8) (p : Part) : Part :=
  let q := startReopening d p
  if (q.door d).fo then judgeReopened d q else q

/-- A door enters OPENING; with FO closed it is OPEN at once (R122). -/
def openDoor (d : Fin 8) (p : Part) : Part :=
  let q := doorTo d .opening (some p.now) p
  if (q.door d).fo then doorTo d .open_ none q else q

/-- A door becomes FAULTED (R124): DOOR_STATE, then DOOR_FAULT, an order that is the model's choice (log 13). -/
def faultDoor (d : Fin 8) (c : DoorFault) (p : Part) : Part :=
  post .doorFault (arg2 d.val c.code) (doorTo d .faulted none (setDoor d (fun r => { r with fault := c }) p))

/-! ### Withdrawal and the DOORS entry -/

/-- A RELEASED door closes at a withdrawal, with retry count 0 and close-failed cleared (R125). -/
def withdrawDoor (d : Fin 8) (p : Part) : Part :=
  if (p.door d).state == .released then closeDoor d (setDoor d (fun r => { r with retries := 0, closeFailed := false }) p) else p

/-- A side release is withdrawn; one that does not stand changes nothing (R125). -/
def withdrawSide (s : Side) (c : WithdrawCause) (p : Part) : Part :=
  if (p.side s).released then
    let q := post .sideWithdrawn (arg2 s.code c.code) (setSide s { p.side s with released := false, platform := 0 } p)
    (sideDoors s).foldl (fun q d => withdrawDoor d q) q
  else p

/-- The stage and cause of the DOORS entry (R137). -/
def doorsRequest (p : Part) : Stage × Nat :=
  if p.mod.mode == .run then
    if allDoors.any fun d => (p.door d).state == .faulted then (.s3, 1) else (.released, 0)
  else if p.doorsShut then (.released, 0) else (.s2, 2)

/-- DOR forms the DOORS entry and requests it (R137). -/
def formDoors (p : Part) : Part := followEntry .doors (doorsRequest p).1 (doorsRequest p).2 p

/-! ### The completion of door orders (R128, R129) -/

/-- The slot of the RUNNING OPEN SIDE of a side (R184). -/
def Ord.openSlot (o : Ord) : Side → Option (Fin 16)
  | .left => o.openLeft
  | .right => o.openRight

/-- The slot of the RUNNING CLOSE SIDE of a side (R184). -/
def Ord.closeSlot (o : Ord) : Side → Option (Fin 16)
  | .left => o.closeLeft
  | .right => o.closeRight

/-- Name the slot of the RUNNING OPEN SIDE of a side. -/
def setOpenSlot (s : Side) (x : Option (Fin 16)) (p : Part) : Part :=
  match s with
  | .left => p.withOrd { p.ord with openLeft := x }
  | .right => p.withOrd { p.ord with openRight := x }

/-- Name the slot of the RUNNING CLOSE SIDE of a side. -/
def setCloseSlot (s : Side) (x : Option (Fin 16)) (p : Part) : Part :=
  match s with
  | .left => p.withOrd { p.ord with closeLeft := x }
  | .right => p.withOrd { p.ord with closeRight := x }

/-- The affected doors of the OPEN SIDE of a side (R128). -/
def Dor.openAffected (r : Dor) : Side → BitVec 8
  | .left => r.openAffectedLeft
  | .right => r.openAffectedRight

/-- The affected doors of the CLOSE SIDE of a side (R129). -/
def Dor.closeAffected (r : Dor) : Side → BitVec 8
  | .left => r.closeAffectedLeft
  | .right => r.closeAffectedRight

/-- Set the affected doors of the OPEN SIDE of a side. -/
def setOpenAffected (s : Side) (m : BitVec 8) (p : Part) : Part :=
  match s with
  | .left => p.withDor { p.dor with openAffectedLeft := m }
  | .right => p.withDor { p.dor with openAffectedRight := m }

/-- Set the affected doors of the CLOSE SIDE of a side. -/
def setCloseAffected (s : Side) (m : BitVec 8) (p : Part) : Part :=
  match s with
  | .left => p.withDor { p.dor with closeAffectedLeft := m }
  | .right => p.withDor { p.dor with closeAffectedRight := m }

/-- The mask with bit `d` for each door of a list. -/
def doorMask (l : List (Fin 8)) : BitVec 8 := l.foldl (fun m d => m ||| (1#8 <<< d.val)) 0

/-- The doors of a mask, in order. -/
def doorsOf (m : BitVec 8) : List (Fin 8) := allDoors.filter fun d => m.getLsbD d.val

/-- The result word of a door order: its code in bits 0 to 7 and the mask of doors in bits 8 to 15 (Table 12-4). -/
def doorResult (bad : List (Fin 8)) : Word :=
  BitVec.ofNat 32 ((if bad.isEmpty then 1 else 2) + 256 * (doorMask bad).toNat)

/-- A door has reached a final state of OPEN SIDE (R128). -/
def openFinal (r : Door) : Bool := r.state == .open_ || r.state == .faulted || r.state == .isolated || r.state == .locked

/-- A door has reached a final state of CLOSE SIDE (R129). -/
def closeFinal (r : Door) : Bool :=
  r.state == .locked || r.state == .faulted || r.state == .isolated || (r.state == .open_ && r.closeFailed)

/-- A RUNNING OPEN SIDE completes when every affected door is final (R128). -/
def checkOpen (s : Side) (p : Part) : Part :=
  match p.ord.openSlot s with
  | some i =>
    let ds := doorsOf (p.dor.openAffected s)
    if ds.all fun d => openFinal (p.door d) then
      slotEnd i false (doorResult (ds.filter fun d => (p.door d).state != .open_))
        (setOpenAffected s 0 (setOpenSlot s none p))
    else p
  | none => p

/-- A RUNNING CLOSE SIDE completes when every affected door is final (R129). -/
def checkClose (s : Side) (p : Part) : Part :=
  match p.ord.closeSlot s with
  | some i =>
    let ds := doorsOf (p.dor.closeAffected s)
    if ds.all fun d => closeFinal (p.door d) then
      slotEnd i false (doorResult (ds.filter fun d => (p.door d).state != .locked))
        (setCloseAffected s 0 (setCloseSlot s none p))
    else p
  | none => p

/-- The RUNNING door orders of both sides complete where they can. -/
def checkDoorOrders (p : Part) : Part :=
  checkClose .right (checkClose .left (checkOpen .right (checkOpen .left p)))

/-! ### Platforms and permits -/

/-- A platform part that serves a side (R126). -/
def SegRec.serves (r : SegRec) (s : Side) : Bool :=
  match s with
  | .left => r.sideCode == 1 || r.sideCode == 3
  | .right => r.sideCode == 2 || r.sideCode == 3

/-- The platform parts that serve a side and whose window holds the car extent, in segment order (R126). -/
def platformsHere (s : Side) (p : Part) : List SegRec :=
  p.prf.active.filter fun r => r.serves s && p.holdsExtent r.windowStart r.windowEnd

/-- The mask of a permit covers a side. -/
def Permit.covers (m : Permit) : Side → Bool
  | .left => m.left
  | .right => m.right

/-- A live permit for a platform id covers a side. -/
def permitted (id : Byte) (s : Side) (p : Part) : Bool := p.dor.permits.any fun m => m.platform == id && m.covers s

/-- A platform passes the permit check of R126. -/
def platformPermitted (r : SegRec) (s : Side) (p : Part) : Bool :=
  !r.stationControlled || permitted (BitVec.ofNat 8 r.platformId) s p

/-- The window of the platform recorded in a side record holds the car extent; with several platforms of one id, one of them
does (log 21). -/
def sideHeld (s : Side) (p : Part) : Bool :=
  (platformsHere s p).any fun r => BitVec.ofNat 8 r.platformId == (p.side s).platform

end Sys2Proof.Machine
end

