-- ==== Sys2Proof/Machine/Modes.lean ====
section
/-! DEFINITION. The mode controller (chapter 6): the change of the car mode with what every block does at it (R106), the MODE entry
(R114), the charge wait (R115), the wake (R116), the return to STAND (R109), and host silence (R117). -/

namespace Sys2Proof.Machine

/-- The stage and cause of the MODE entry (Table 6-3). -/
def modeRequest (m : Mode) (charging : Bool) : Stage × Nat :=
  match m with
  | .stand => if charging then (.band, 3) else (.s2, 1)
  | .stabled => if charging then (.band, 3) else (.band, 2)
  | .run | .test => (.released, 0)
  | .lockout => (.emergency, 4)

/-- The charge wait runs. -/
def Part.charging (p : Part) : Bool := p.mod.charge != .complete

/-- MOD requests the MODE entry for the present mode (R114). -/
def requestMode (p : Part) : Part :=
  followEntry .mode (modeRequest p.mod.mode p.charging).1 (modeRequest p.mod.mode p.charging).2 p

/-- Host silence in RUN: the SILENCE entry is latched at S3 and the alarm handed (R117). -/
def silenceActs (p : Part) : Part := handAlarm .hostSilent (latchEntry .silence .s3 1 p)

/-- SSU at a change of mode (R69). -/
def modeSsu (old : Mode) (p : Part) : Part :=
  ssuEvaluate (if old == .run && p.mod.mode != .run then ssuLeaveRun p else p)

/-- AUT at a change of mode: the RUN travel record is NONE, and leaving RUN requests 0 (R102). -/
def modeAut (old : Mode) (p : Part) : Part :=
  let q := p.withAut { p.aut with travel := .none }
  if old == .run then followEntry .authority .released 0 q else q

/-- ODO at a change of mode: every entry zeroes or holds both counters (R16). -/
def modeOdo (p : Part) : Part := p.withOdo { p.odo with creep := 0, reverse := 0 }

/-- DOR at a change of mode: sides are withdrawn in RUN, STABLED and TEST (R127), and the DOORS entry is formed (R137). -/
def modeDor (p : Part) : Part :=
  if p.mod.mode == .run || p.mod.mode == .stabled || p.mod.mode == .test then
    checkDoorOrders (formDoors (withdrawSide .right .mode (withdrawSide .left .mode p)))
  else formDoors p

/-- RLC at a change of mode: the report timer stops at entry to STABLED, and leaving STABLED hands a REPORT (R167). -/
def modeRlc (old : Mode) (p : Part) : Part :=
  if p.mod.mode == .stabled then p.withMsg { p.msg with reportTimer := none }
  else if old == .stabled then handReport p
  else p

/-- A change of car mode, with the events MOD posts after MODE_CHANGED for the same change: the mode, the MODE entry and the
hand-over to every block are one change (R106, R114). -/
def changeMode (new : Mode) (cause : ModeCause) (also : Part → Part) (p : Part) : Part :=
  let old := p.mod.mode
  let was := p.reduced
  let q := also (post .modeChanged (BitVec.ofNat 16 (new.code * 256 + old.code * 16 + cause.code))
    (p.withMod { p.mod with mode := new }))
  let q := modeRlc old (modeDor (modeOdo (modeAut old (modeSsu old (patternChanged was (requestMode q))))))
  if new == .run && q.mod.hostSilent then silenceActs q else q

/-- A change of car mode with no further event of MOD. -/
def toMode (new : Mode) (cause : ModeCause) (p : Part) : Part := changeMode new cause id p

/-- A wake taken in STABLED: the charge wait starts, the reason is recorded, and the mode becomes STAND (R116). -/
def wakeCar (r : WakeReason) (p : Part) : Part :=
  if p.mod.mode == .stabled then
    changeMode .stand .wake (post .wake (BitVec.ofNat 16 r.code))
      (p.withMod { p.mod with wakeReason := r, charge := .timing p.now })
  else p

/-- RUN with standstill and a latched entry: the car returns to STAND (R109). -/
def autoStand (p : Part) : Part :=
  if p.mod.mode == .run && p.odo.standstill && p.anyLatched then toMode .stand .autoStand p else p

/-- The charge wait becomes COMPLETE (R115). -/
def chargeDone (p : Part) : Part :=
  let was := p.reduced
  patternChanged was (requestMode (post .chargeDone 0 (p.withMod { p.mod with charge := .complete })))

/-- The end of TIMING is judged on the reservoir-charged switch (R115). -/
def judgeCharge (p : Part) : Part :=
  match p.mod.charge with
  | .timing start =>
    if p.passed start p.prf.settings.chargeTime then
      if p.brk.inputs.reservoir then chargeDone p else p.withMod { p.mod with charge := .awaitReservoir }
    else p
  | _ => p

/-- The silence timer expires (R117). -/
def silenceExpiry (p : Part) : Part :=
  if p.due p.mod.silence p.prf.settings.silencePeriod && !p.asserted then
    let running := p.mod.mode == .run
    let q := post .hostSilent (BitVec.ofNat 16 (flagNat running))
      (p.withMod { p.mod with silence := none, hostSilent := true, aliveSeen := false })
    if running then silenceActs q else q
  else p

/-- An alive write restarts the silence timer and clears the host-silent flag (R117). -/
def aliveTaken (p : Part) : Part :=
  p.withMod { p.mod with silence := some p.now, hostSilent := false, aliveSeen := true }

end Sys2Proof.Machine
end

