-- ==== Sys2Proof/Machine/BrakeTest.lean ====
section
/-! DEFINITION. The brake test (R62 to R66), and the requests of the demand table as their owners make them: with the override of a
running test (Table 3-8). Also what an expired deadline and a feedback change do (R53 to R56), and RESET DEMAND (R59). -/

namespace Sys2Proof.Machine

/-! ### The end of a test -/

/-- The order of the running test ends: its slot is freed and ORDER_DONE posted (R184). -/
def endTestOrder (aborted : Bool) (result : Word) (p : Part) : Part :=
  match p.ord.brakeTest with
  | some i => slotEnd i aborted result (p.withOrd { p.ord with brakeTest := none })
  | none => p

/-- The result of the present step and its time; the other steps keep theirs. -/
def markStep (n : Fin 5) (r : StepResult) (p : Part) : Part :=
  p.withBrk { p.brk with record := { p.brk.record with
    results := p.brk.record.results.set n r, times := p.brk.record.times.set n 0 } }

/-- A test ends with an outcome (R65): the record, the mode that follows unless it has been handed already, BRAKE_TEST_DONE, the
TEST entry at 0, and the order. -/
def endTest (o : TestOutcome) (a : AbortReason) (result : Word) (p : Part) : Part :=
  let q := p.withBrk { p.brk with test := none, record := { p.brk.record with outcome := o, abort := a } }
  let q := if q.mod.mode == .test then toMode .stand .test q else q
  let q := postIf .brakeTestDone (arg2 o.code a.code) (o == .failed) q
  endTestOrder (o == .aborted) result (followEntry .test .released 0 q)

/-- A running test is aborted: its present step is NOT_RUN (R66). -/
def abortTest (a : AbortReason) (p : Part) : Part :=
  match p.brk.test with
  | some t => endTest .aborted a (BitVec.ofNat 32 a.code) (markStep t.step .notRun p)
  | none => p

/-- A running test fails at its present step (R64). -/
def failTest (p : Part) : Part :=
  match p.brk.test with
  | some t => endTest .failed .none 2 (markStep t.step .fail p)
  | none => p

/-! ### Requests with the override of a running test (R66) -/

/-- The entry of a source overrides the running test after a request: it became latched, or rose above the step's stage. -/
def overrides (before after : Entry) (t : TestRun) : Bool :=
  (after.latched && !before.latched)
  || (before.stage.value < after.stage.value && (stepStage t.step).value < after.stage.value)

/-- A request has been made on the entry of `d`, which stood at `before`: a running test is aborted OVERRIDDEN if it overrides. -/
def afterRequest (d : DemandSource) (before : Entry) (p : Part) : Part :=
  match p.brk.test with
  | some t => if overrides before (p.entry d) t then abortTest .overridden p else p
  | none => p

/-- A following request of an owner (R43, R66). -/
def follow (d : DemandSource) (s : Stage) (cause : Nat) (p : Part) : Part :=
  afterRequest d (p.entry d) (followEntry d s cause p)

/-- A latching request of an owner (R44, R66). -/
def latch (d : DemandSource) (s : Stage) (cause : Nat) (p : Part) : Part :=
  afterRequest d (p.entry d) (latchEntry d s cause p)

/-! ### Deadlines and feedback (R53 to R56) -/

/-- Brake-unconfirmed (R54). The operation goes on without a deadline; in LOCKOUT only the fault is posted. -/
def brakeUnconfirmed (p : Part) : Part :=
  let q := post .brakeFeedbackFault (arg2 1 5) (p.withBrk { p.brk with state := .applying .emergency none })
  if q.mod.mode == .lockout then q
  else failTest (toMode .lockout .lockout (post .lockout 0 (handAlarm .lockout q)))

/-- An APPLYING deadline expires (R53, R54, R64). -/
def applyingExpiry (p : Part) : Part :=
  match p.brk.state with
  | .applying t (some start) =>
    if p.passed start (applyingDeadline t) && !p.asserted then
      if t == .emergency then brakeUnconfirmed p
      else failTest (latchEntry .feedback .emergency 1 (post .brakeFeedbackFault (arg2 1 t.value) p))
    else p
  | _ => p

/-- A RELEASING deadline expires (R56, R64). -/
def releasingExpiry (p : Part) : Part :=
  match p.brk.state with
  | .releasing t (some start) =>
    if p.passed start releasingDeadline && !p.asserted then
      failTest (post .releaseStuck (BitVec.ofNat 16 t.value) (p.withBrk { p.brk with state := .releasing t none }))
    else p
  | _ => p

/-- The confirmed stage is lost while SETTLED (R55, R64). -/
def confirmationLost (p : Part) : Part :=
  let c := p.brk.confirmed
  let q := latchEntry .feedback .emergency 2 (post .brakeFeedbackFault (arg2 2 c.value) p)
  failTest (if p.brk.commanded == .emergency then
      judgeOperation (q.withBrk { q.brk with state := .applying .emergency (some q.now) })
    else q)

/-- The level of a feedback switch. -/
def Feedback.get (f : Feedback) : FeedbackSwitch → Bool
  | .ps1 => f.ps1 | .ps2 => f.ps2 | .ps3 => f.ps3 | .band => f.band

/-- The feedback with one switch at a level. -/
def Feedback.put (f : Feedback) (sw : FeedbackSwitch) (b : Bool) : Feedback :=
  match sw with
  | .ps1 => { f with ps1 := b } | .ps2 => { f with ps2 := b } | .ps3 => { f with ps3 := b } | .band => { f with band := b }

/-- The switch is a confirming switch of a stage under the pattern in force (R49, R50). -/
def isConfirming (reduced : Bool) (s : Stage) (sw : FeedbackSwitch) : Bool :=
  match s, sw with
  | .s1, .ps1 | .s2, .ps2 | .s3, .ps3 | .band, .band | .emergency, .band => true
  | .band, .ps3 | .emergency, .ps3 => !reduced
  | _, _ => false

/-- The switch is above a stage (R49). -/
def isAbove (s : Stage) (sw : FeedbackSwitch) : Bool :=
  match s, sw with
  | .released, _ => true
  | .s1, .ps2 | .s1, .ps3 | .s1, .band | .s2, .ps3 | .s2, .band | .s3, .band => true
  | _, _ => false

/-- A change of a feedback input (R52, R55); while a reset is asserted only the level is kept (R48). -/
def feedbackChange (sw : FeedbackSwitch) (closed : Bool) (p : Part) : Part :=
  if p.brk.inputs.get sw == closed then p
  else
    let q := p.withBrk { p.brk with inputs := p.brk.inputs.put sw closed }
    if q.asserted then q
    else match q.brk.state with
      | .settled =>
        if !closed && isConfirming q.reduced q.brk.confirmed sw then confirmationLost q
        else if closed && isAbove q.brk.confirmed sw then post .brakeFeedbackFault (arg2 3 q.brk.confirmed.value) q
        else q
      | _ => judgeOperation q

/-! ### The steps of a test (R62, R63) -/

/-- A step starts: the TEST entry takes its stage, cause the step's number. -/
def startStep (n : Fin 5) (p : Part) : Part :=
  followEntry .test (stepStage n) (n.val + 1)
    (p.withBrk { p.brk with test := some { step := n, start := p.now, hold := none } })

/-- The hold of a step ends after 500 ms: the next step starts, or the test ends PASSED (R63). -/
def holdEnd (p : Part) : Part :=
  match p.brk.test with
  | some t =>
    if p.due t.hold 500 && !p.asserted then
      if h : t.step.val + 1 < 5 then startStep ⟨t.step.val + 1, h⟩ p else endTest .passed .none 1 p
    else p
  | none => p

/-- A test begins: the record is cleared, step 1 is set, and only then the mode becomes TEST (R62, R111). -/
def beginTest (p : Part) : Part :=
  toMode .test .test (startStep 0 (p.withBrk { p.brk with record :=
    { start := p.now, outcome := .running, abort := .none, results := Vector.replicate 5 .notRun,
      times := Vector.replicate 5 0 } }))

end Sys2Proof.Machine
end

