-- ==== Sys2Proof/Machine/Authority.lean ====
section
/-! DEFINITION. The authority table (chapter 5): dc and the request flag (R95), handover and overrun (R96, R97), GRANT (R93, R94),
REVOKE (R98, R99), RELINQUISH (R100), link loss (R101) and the RUN travel record (R102). -/

namespace Sys2Proof.Machine

/-- dc: the distance from CURRENT's front end to its end, none held or validity UNKNOWN showing 2,147,483,647 (R95). -/
def Part.currentDistance (p : Part) : Int :=
  match p.aut.current with
  | some a => if p.odo.validity == .unknown then noDistance else p.distanceTo a.dir a.stop
  | none => noDistance

/-- dc and the request flag are found afresh (R95). -/
def autNumbers (p : Part) : Part :=
  let dc := p.currentDistance
  p.withAut { p.aut with
    dc := dc,
    request := p.aut.current.isSome && p.aut.next.isNone && dc ≤ (p.prf.settings.requestDistance : Int) * 16 }

/-- The slots have changed: dc and the request flag follow, and SSU evaluates at once (R92, R95). -/
def slotsChanged (p : Part) : Part := ssuEvaluate (autNumbers p)

/-- The id an authority event carries. -/
def currentId (p : Part) : Half := match p.aut.current with | some a => a.id | none => 0

/-- An overrun (R97). -/
def overrun (p : Part) : Part :=
  let q := post .authOverrun (currentId p) (p.withAut { p.aut with overrun := true })
  handAlarm .overrun (if (q.entry .authority).latched then q else latch .authority .emergency 2 q)

/-- A handover (R96). The REPORT is built before SSU evaluates on the new slots, the model's choice (log 36). -/
def handOver (p : Part) : Part :=
  let q := autNumbers (p.withAut { p.aut with current := p.aut.next, next := none })
  ssuEvaluate (handReport (post .authHandover (currentId q) q))

/-- AUT judges its end at the present position (R95 to R97). `travel` says whether a count or a datum correction moved the car:
only then is a crossing an overrun. -/
def autJudge (travel : Bool) (p : Part) : Part :=
  let before := p.aut.dc
  let q := autNumbers p
  if q.aut.dc < 0 then
    if q.aut.next.isSome then
      let r := handOver q
      if travel && r.aut.dc < 0 then overrun r else r
    else if travel && 0 ≤ before then overrun q else q
  else q

/-! ### The RUN travel record (R102) -/

/-- A count of the motion encoder in RUN moves the travel record, and AUTHORITY requests S3 while it is AGAINST. -/
def travelCount (c : Dir) (p : Part) : Part :=
  match p.aut.current with
  | some a =>
    let rec' : TravelRecord := if a.dir == c then .with_ else if p.aut.travel == .none then .against else p.aut.travel
    if rec' == p.aut.travel then p
    else
      let q := p.withAut { p.aut with travel := rec' }
      if rec' == .against then follow .authority .s3 1 q else follow .authority .released 0 q
  | none => p

/-- The following stage and cause AUT's present condition calls for (R102). -/
def authorityFollowing (p : Part) : Stage × Nat :=
  if p.mod.mode == .run && p.aut.travel == .against then (.s3, 1) else (.released, 0)

/-! ### GRANT (R93, R94) -/

/-- The fields of a GRANT as they arrive. -/
structure Grant where
  id    : Half
  start : Nat
  stop  : Nat
  dir   : Nat
  cap   : Nat
deriving DecidableEq, Repr

/-- The record a GRANT asks for, when every field lies in its range and the direction agrees with the order of start and end. -/
def grantRecord (g : Grant) (station : Byte) : Option Authority :=
  if g.id = 0 ∨ 1048575 < g.start ∨ 1048575 < g.stop ∨ 4095 < g.cap then none
  else if g.dir = 1 ∧ g.start < g.stop then some ⟨g.id, station, g.start, g.stop, .up, g.cap⟩
  else if g.dir = 2 ∧ g.stop < g.start then some ⟨g.id, station, g.start, g.stop, .down, g.cap⟩
  else none

/-- The held record of an id. -/
def heldRecord (id : Half) (a : Aut) : Option Authority :=
  match a.current, a.next with
  | some c, some n => if c.id = id then some c else if n.id = id then some n else none
  | some c, none => if c.id = id then some c else none
  | none, some n => if n.id = id then some n else none
  | none, none => none

/-- The range of a record holds the car extent (R91). -/
def recordHoldsExtent (a : Authority) (p : Part) : Bool := p.holdsExtent (min a.start a.stop) (max a.start a.stop)

/-- What AUT does with a GRANT. -/
inductive GrantOutcome where
  | refused (r : Reason)
  | ignored
  | intoCurrent (a : Authority)
  | intoNext (a : Authority)
deriving DecidableEq, Repr

/-- A GRANT is judged in the order of R93, then by R94. -/
def judgeGrant (g : Grant) (station : Byte) (p : Part) : GrantOutcome :=
  if p.mod.mode == .stabled then .refused .stabled
  else match grantRecord g station with
    | none => .refused .badParam
    | some a =>
      if p.odo.validity == .unknown then .refused .noPosition
      else match heldRecord a.id p.aut with
        | some h => if h.start = a.start ∧ h.stop = a.stop ∧ h.dir = a.dir ∧ h.cap = a.cap then .ignored
                    else .refused .conflict
        | none =>
          match p.aut.current, p.aut.next with
          | none, _ => if recordHoldsExtent a p then .intoCurrent a else .refused .notHere
          | some c, none => if a.start = c.stop ∧ a.dir = c.dir then .intoNext a else .refused .notContiguous
          | some _, some _ => .refused .slotsFull

/-- An accepted GRANT: the slot is filled, the relinquished flag cleared, AUTH_GRANTED posted, and SSU evaluates (R94). -/
def acceptGrant (a : Authority) (x : Aut) (p : Part) : Part :=
  slotsChanged (post .authGranted a.id (p.withAut { x with relinquished := false }))

/-- A GRANT delivered (R93, R94): what it does, and its outcome. -/
def grantTaken (g : Grant) (station : Byte) (p : Part) : Part × MessageOutcome :=
  match judgeGrant g station p with
  | .refused r => (handRefusal station 1 g.id.toNat r p, .refused)
  | .ignored => (p, .ignored)
  | .intoCurrent a => (acceptGrant a { p.aut with current := some a } p, .acted)
  | .intoNext a => (autJudge false (acceptGrant a { p.aut with next := some a } p), .acted)

/-! ### REVOKE (R98, R99) -/

/-- The last revoke record is written. -/
def writeRevoke (id : Half) (point : Nat) (o : RevokeOutcome) (p : Part) : Part :=
  p.withAut { p.aut with lastRevoke := ⟨id, point, o⟩ }

/-- AUTH_REVOKED is posted; a LATE outcome sets the fault bit (R99). -/
def postRevoked (id : Half) (late : Bool) (p : Part) : Part := postIf .authRevoked id late p

/-- CURRENT's end becomes `r`. -/
def moveEnd (c : Authority) (r : Nat) (p : Part) : Part := p.withAut { p.aut with current := some { c with stop := r } }

/-- A REVOKE that names CURRENT, NEXT already empty (R99). -/
def revokeCurrent (c : Authority) (point : Nat) (p : Part) : Part :=
  let beyond : Bool := match c.dir with | .up => decide (c.stop < point) | .down => decide (point < c.stop)
  let r := match c.dir with | .up => max point c.start | .down => min point c.start
  if beyond then slotsChanged (postRevoked c.id false (writeRevoke c.id point .beyondEnd p))
  else if p.mod.mode == .run && p.distanceTo c.dir r ≤ (p.ssu.braking : Int) * 16 then
    let q := postRevoked c.id true (writeRevoke c.id point .late (moveEnd c r p))
    let q := latch .authority .emergency 3 (q.withAut { q.aut with lateRevoke := true })
    handAlarm .revokeLate (slotsChanged q)
  else slotsChanged (postRevoked c.id false (writeRevoke c.id point .shortened (moveEnd c r p)))

/-- A REVOKE delivered (R98, R99); a point above 1,048,575 arrives as 1,048,575 (R158, log 26). -/
def revokeTaken (id : Half) (point : Nat) (p : Part) : Part :=
  let point := min point 1048575
  match p.aut.current, p.aut.next with
  | some c, next =>
    if c.id = id then revokeCurrent c point (p.withAut { p.aut with next := none })
    else match next with
      | some n =>
        if n.id = id then
          slotsChanged (postRevoked id false (writeRevoke id point .nextCleared (p.withAut { p.aut with next := none })))
        else postRevoked id false (writeRevoke id point .missed (p.withAut { p.aut with missed := sat8 p.aut.missed }))
      | none => postRevoked id false (writeRevoke id point .missed (p.withAut { p.aut with missed := sat8 p.aut.missed }))
  | none, _ => postRevoked id false (writeRevoke id point .missed (p.withAut { p.aut with missed := sat8 p.aut.missed }))

/-! ### RELINQUISH and link loss (R100, R101) -/

/-- One slot's record is given back: AUTH_REVOKED and the last revoke record with r 0. -/
def giveBack (a : Option Authority) (o : RevokeOutcome) (p : Part) : Part :=
  match a with
  | some r => postRevoked r.id false (writeRevoke r.id 0 o p)
  | none => p

/-- An accepted RELINQUISH: NEXT and then CURRENT become empty, the flag is set and a REPORT handed (R100). -/
def relinquishTaken (p : Part) : Part :=
  let q := giveBack p.aut.next .nextCleared (p.withAut { p.aut with next := none })
  let q := giveBack q.aut.current .shortened (q.withAut { q.aut with current := none })
  handReport (slotsChanged (q.withAut { q.aut with relinquished := true }))

/-- The link is LOST: a held NEXT is emptied (R101). -/
def dropNext (p : Part) : Part :=
  match p.aut.next with
  | some n => slotsChanged (post .nextDropped n.id (p.withAut { p.aut with next := none }))
  | none => p

end Sys2Proof.Machine
end

