-- ==== Sys2Proof/Machine/Odometry.lean ====
section
/-! DEFINITION. Odometry (chapter 1): source and regime (R4, R6), position and crossings (R5, R9 to R13), deviation (R14, R15), creep and
reverse (R16), speed and standstill (R17, R18), datum capture (R19 to R22), and one step of an encoder (R1, R2).
A change first makes ODO's own events and hands on the latching requests it calls for; the requests are made after the events
(R46), and then the blocks that read position and validity act (R5). -/

namespace Sys2Proof.Machine

/-! ### Encoders -/

/-- The record of an encoder. -/
def Odo.enc (o : Odo) : Encoder → Enc
  | .p1 => o.p1 | .p2 => o.p2 | .w => o.w

/-- Replace the record of an encoder. -/
def Odo.setEnc (o : Odo) (e : Encoder) (x : Enc) : Odo :=
  match e with
  | .p1 => { o with p1 := x } | .p2 => { o with p2 := x } | .w => { o with w := x }

/-- What a change of the phase lines is (R1, R2). -/
inductive PhaseStep where
  | none | up | down | illegal
deriving DecidableEq, Repr

/-- The state that follows in the UP sense: 00, 01, 11, 10 and back (R1). -/
def quadNext (q : BitVec 2) : BitVec 2 :=
  if q = 0 then 1 else if q = 1 then 3 else if q = 3 then 2 else 0

/-- A change from one quadrature state to another. -/
def phaseStep (q l : BitVec 2) : PhaseStep :=
  if q = l then .none else if quadNext q = l then .up else if quadNext l = q then .down else .illegal

/-- The count of a direction. -/
def Dir.count : Dir → Int
  | .up => 1 | .down => -1

/-- The encoder of a source. -/
def Source.encoder? : Source → Option Encoder
  | .none => Option.none | .p1 => some .p1 | .p2 => some .p2 | .w => some .w

/-- The motion encoder (R4). -/
def Odo.motion (o : Odo) : Option Encoder :=
  match o.source.encoder? with
  | some e => some e
  | none => if !o.p1.faulted then some .p1 else if !o.p2.faulted then some .p2 else if !o.w.faulted then some .w else none

/-- Both pinions are FAULTED. -/
def Odo.pinionsFaulted (o : Odo) : Bool := o.p1.faulted && o.p2.faulted

/-- Climb supervision is on (R14). -/
def Odo.climbOn (o : Odo) : Bool := o.regime == .rack && !o.p1.faulted && !o.p2.faulted

/-- The pinion fallback stands: RACK with W as the source (R12). -/
def Odo.fallback (o : Odo) : Bool := o.regime == .rack && o.source == .w

/-- The choice of source (Table 1-1), NONE while validity is UNKNOWN (R4). -/
def Odo.chosen (o : Odo) : Source :=
  if o.validity == .unknown then .none
  else if o.regime == .rack && !o.p1.faulted then .p1
  else if o.regime == .rack && !o.p2.faulted then .p2
  else if !o.w.faulted then .w else .none

/-- Deviation is zeroed: the reference tallies are taken afresh (R14). -/
def Odo.zeroDeviation (o : Odo) : Odo := { o with deviation := 0, ref1 := o.p1.tally, ref2 := o.p2.tally }

/-! ### Validity, source, and the loss of the position -/

/-- The latching requests on the ODOMETRY entry that a change calls for: stage and cause, in order. -/
abbrev OdoRequests := List (Stage × Nat)

/-- A validity of PROVISIONAL or CONFIRMED becomes UNCERTAIN, with its event (R7). -/
def makeUncertain (cause : Nat) (p : Part) : Part :=
  if p.odo.validity == .provisional || p.odo.validity == .confirmed then
    post .positionUncertain (BitVec.ofNat 16 cause) (p.withOdo { p.odo with validity := .uncertain })
  else p

/-- The source is chosen again; a change posts SOURCE_CHANGED (R4). -/
def chooseSource (p : Part) : Part :=
  if p.odo.chosen == p.odo.source then p
  else post .sourceChanged (BitVec.ofNat 16 p.odo.chosen.code) (p.withOdo { p.odo with source := p.odo.chosen })

/-- The source has become NONE while validity was not UNKNOWN: the position is lost (R13). -/
def positionLost (p : Part) : Bool := p.odo.source == .none && p.odo.validity != .unknown

/-- The loss of the position: UNKNOWN, no segment, the entry check and the capture abandoned (R13, R22). A capture in AWAIT_INDEX whose
pinion ceases to be the source by the same change is abandoned too, without the mismatch of R20: the model's choice (log 34). -/
def losePosition (p : Part) : Part :=
  post .positionLost 0 (p.withOdo { p.odo with validity := .unknown, segment := none, entry := none, capture := .idle })

/-- The request of a lost position: EMERGENCY, cause LOST, in RUN (R13). -/
def lostRequests (p : Part) : OdoRequests := if p.mod.mode == .run then [(.emergency, 3)] else []

/-- After a change of regime or health, `was` being the state before: the source is chosen again, and a lost position or a new
pinion fallback follows (R4, R12, R13). -/
def settleSource (was : Odo) (p : Part) : Part × OdoRequests :=
  let q := chooseSource p
  if positionLost q then (losePosition q, lostRequests q)
  else if q.odo.fallback && !was.fallback then (makeUncertain 2 q, [(.s3, 2)])
  else (q, [])

/-! ### Datum captures that a change ends (R20, R22) -/

/-- A mismatch: counted, posted, and at the limit validity becomes UNCERTAIN (R22). -/
def mismatch (r : MismatchReason) (p : Part) : Part :=
  let n := sat8 p.odo.mismatches
  let q := post .datumMismatch (BitVec.ofNat 16 r.code) (p.withOdo { p.odo with mismatches := n, capture := .idle })
  if q.prf.settings.mismatchLimit ≤ n.toNat then makeUncertain 1 q else q

/-- A TOOTH ALIGN capture ends when the regime leaves RACK or the source changes from its pinion (R20). R2 and R11 do not place its
DATUM_MISMATCH: behind SOURCE_CHANGED and POSITION_UNCERTAIN of the same change is the model's choice (log 13). -/
def captureWatch (p : Part) : Part :=
  match p.odo.capture with
  | .awaitIndex _ _ _ pinion _ _ =>
    if p.odo.regime != .rack then mismatch .regime p
    else if p.odo.source != (match pinion with | .p1 => Source.p1 | .p2 => Source.p2) then mismatch .source p
    else p
  | _ => p

/-! ### The rack: entry check, exit, direct setting -/

/-- The entry check ends with a pass (R10). -/
def entryPass (p : Part) : Part × OdoRequests :=
  let o := { p.odo with regime := .rack, entry := none }.zeroDeviation
  let q := chooseSource (post .rackEntered (BitVec.ofNat 16 o.chosen.code) (p.withOdo o))
  let off := fun (n : Nat) (r : Part) => post .climbOff (BitVec.ofNat 16 n) r
  (if q.odo.p1.faulted then off 1 q else if q.odo.p2.faulted then off 2 q else q, [])

/-- The entry check fails; `arg` is the largest difference, 65535 when none could be judged (R10). -/
def entryFail (arg : Nat) (p : Part) : Part × OdoRequests :=
  let q := post .rackEntryFailed (argUnsigned arg)
    (p.withOdo { p.odo with regime := .rack, entry := none }.zeroDeviation)
  let q := chooseSource q
  if positionLost q then (losePosition q, (.emergency, 1) :: lostRequests q)
  else (makeUncertain 3 q, (.emergency, 1) :: if q.odo.fallback then [(.s3, 2)] else [])

/-- The differences of the included pinions from W travel. -/
def entryDifferences (c : EntryCheck) : List Nat :=
  (if c.p1Included then [(c.p1Travel - c.wTravel).natAbs] else [])
  ++ (if c.p2Included then [(c.p2Travel - c.wTravel).natAbs] else [])

/-- The entry check is judged when W travel has reached the entry-check length (R10). -/
def entryJudge (p : Part) : Part × OdoRequests :=
  match p.odo.entry with
  | some c =>
    if ((p.prf.settings.entryLength * 16 : Nat) : Int) ≤ c.wTravel then
      let ds := entryDifferences c
      if ds.isEmpty then entryFail 65535 p
      else if ds.all (· ≤ 32) then entryPass p
      else entryFail (ds.foldl max 0) p
    else (p, [])
  | none => (p, [])

/-- Route position has moved from one segment into another of another regime (R9, R11). -/
def crossRegime (intoRack : Bool) (dir : Dir) (p : Part) : Part × OdoRequests :=
  if intoRack then
    if p.odo.regime == .adhesion then
      settleSource p.odo (p.withOdo { p.odo with
        regime := .entering,
        entry := some { dir := dir, wTravel := 0, p1Travel := 0, p2Travel := 0,
                        p1Included := !p.odo.p1.faulted, p2Included := !p.odo.p2.faulted } })
    else (p, [])
  else if p.odo.regime == .rack then
    settleSource p.odo (post .rackLeft 0 (p.withOdo { p.odo with regime := .adhesion }))
  else if p.odo.regime == .entering then
    settleSource p.odo (p.withOdo { p.odo with regime := .adhesion, entry := none })
  else (p, [])

/-- The index of the segment containing a position: below the first start it is 0, beyond the route end the last (R5). -/
def segmentIndex (pos : Int) (l : List SegRec) : Option Nat :=
  if l.isEmpty then none else some ((l.filter fun r => (r.start : Int) * 16 ≤ pos).length - 1)

/-- The regime of a segment index is RACK. -/
def rackAt (p : Part) (i : Nat) : Bool := match p.prf.active[i]? with | some r => r.isRack | none => false

/-- The segment index follows a new position, moved in direction `dir`; a change of regime is a crossing (R5). -/
def followSegment (dir : Dir) (p : Part) : Part × OdoRequests :=
  let new := segmentIndex p.odo.pos.toInt p.prf.active
  let q := p.withOdo { p.odo with segment := new }
  match p.odo.segment, new with
  | some i, some j => if rackAt p i == rackAt p j then (q, []) else crossRegime (rackAt p j) dir q
  | _, _ => (q, [])

/-- The regime is set directly from the segment (R6): `from_` is the validity before the change that calls for it, so that a
validity that stays UNCERTAIN posts nothing (R7). R6 and R39 give its events no order: SOURCE_CHANGED, CLIMB_OFF, POSITION_UNCERTAIN is
the model's choice (log 13). -/
def directRegime (from_ : Validity) (p : Part) : Part × OdoRequests :=
  let seg := segmentIndex p.odo.pos.toInt p.prf.active
  let rack := match seg with | some i => rackAt p i | none => false
  let o := { p.odo with segment := seg, entry := none, regime := if rack then .rack else .adhesion }
  let q := chooseSource (p.withOdo (if rack && !o.p1.faulted && !o.p2.faulted then o.zeroDeviation else o))
  if positionLost q then (losePosition q, lostRequests q)
  else if rack && q.odo.pinionsFaulted then
    let first := Config.climbOffNamesP1 q.freeCount
    let q := post .climbOff (if first then 1 else 2) (q.withFreeCount (q.freeCount + 1))
    (if from_ == .uncertain then q.withOdo { q.odo with validity := .uncertain } else makeUncertain 2 q, [(.s3, 2)])
  else if rack && q.odo.p1.faulted then (post .climbOff 1 q, [])
  else if rack && q.odo.p2.faulted then (post .climbOff 2 q, [])
  else (q, [])

/-! ### What follows a change -/

/-- The latching requests of a change are made, after its events (R46). -/
def odoRequests (rs : OdoRequests) (p : Part) : Part := rs.foldl (fun q r => latch .odometry r.1 r.2 q) p

/-- A release whose platform window no longer holds the car extent, or whose position is not trusted, is withdrawn (R127). -/
def sideCheck (s : Side) (p : Part) : Part :=
  if (p.side s).released
      && (p.odo.validity == .unknown || p.odo.validity == .uncertain || !sideHeld s p) then withdrawSide s .position p
  else p

/-- Both sides are checked, and for the doors that moved the DOORS entry is formed and door orders complete (R127, R128, R137). -/
def sideChecks (p : Part) : Part := checkDoorOrders (formDoors (sideCheck .right (sideCheck .left p)))

/-- A no-stop segment overlaps the car extent; none with no profile or validity UNKNOWN (R135). -/
def noStopHere (p : Part) : Bool :=
  p.odo.validity != .unknown && p.segments.any fun s => s.1.noStop && p.overlaps s.1.start s.2

/-- The release point of a deferred pull is judged (R136). -/
def handleJudge (p : Part) : Part :=
  if p.dor.deferred.isSome && (p.odo.standstill || !noStopHere p) then
    latch .handle .s3 2 (p.withDor { p.dor with deferred := none })
  else p

/-- Validity or regime has changed without a change of position: SSU, AUT and DOR act on it. -/
def spreadValidity (p : Part) : Part := sideChecks (ssuEvaluate (autNumbers p))

/-- Every block's position checks at the present position (R5). -/
def spreadPosition (travel : Bool) (p : Part) : Part :=
  handleJudge (sideChecks (ssuEvaluate (autJudge travel (ssuEvaluate p))))

/-- A change of ODO without a change of position: its requests, the capture it may end, and what follows. -/
def afterChange (r : Part × OdoRequests) : Part := spreadValidity (odoRequests r.2 (captureWatch r.1))

/-- A change of route position by travel: segment, crossing, requests, and every block's checks (R5). -/
def moveTo (dir : Dir) (p : Part) : Part :=
  let r := followSegment dir p
  spreadPosition true (odoRequests r.2 (captureWatch r.1))

/-! ### Datum capture (R19 to R22) -/

/-- A match at a new position (R22). -/
def datumMatch (new : Word) (p : Part) : Part :=
  let correction := new.toInt - p.odo.pos.toInt
  let o := { p.odo with pos := new, validity := .confirmed, mismatches := 0, capture := .idle }
  let q := postAt .datumCaptured (BitVec.ofInt 16 (max (-32768) (min 32767 correction))) new true
    (p.withOdo (if o.regime == .rack then o.zeroDeviation else o))
  moveTo (if correction < 0 then .down else .up) q

/-- A mismatch, and what follows if validity changed (R22). -/
def mismatchTaken (r : MismatchReason) (p : Part) : Part := spreadValidity (mismatch r p)

/-- The distance from route position to the datum of a segment. -/
def datumDistance (p : Part) (r : SegRec) : Nat := (p.odo.pos.toInt - (r.datumPosition : Int) * 16).natAbs

/-- The nearer of two candidates, the earlier at the same distance. -/
def nearer (p : Part) (best : Option SegRec) (r : SegRec) : Option SegRec :=
  match best with
  | none => some r
  | some b => if datumDistance p r < datumDistance p b then some r else best

/-- The candidate datum: within its window, nearest, the lower index of two at one distance (R19). -/
def candidate (p : Part) : Option SegRec :=
  (p.prf.active.filter fun r => r.method != 0 && datumDistance p r ≤ r.datumWindow).foldl (nearer p) none

/-- A rising edge of the datum sensor (R19 to R21). -/
def datumRise (p : Part) : Part :=
  if p.odo.validity == .unknown || p.asserted then p
  else
    let q := p.withOdo { p.odo with capture := .idle }
    match candidate q with
    | none => mismatchTaken .noCandidate q
    | some r =>
      if r.method = 1 then datumMatch (wordOfCount ((r.datumPosition : Int) * 16)) q
      else if r.method = 2 then
        if q.odo.regime != .rack then mismatchTaken .regime q
        else match q.odo.source with
          | .p1 => q.withOdo { q.odo with capture := .awaitIndex r.datumPosition r.datumK q.odo.dir .p1 0 0 }
          | .p2 => q.withOdo { q.odo with capture := .awaitIndex r.datumPosition r.datumK q.odo.dir .p2 0 0 }
          | _ => mismatchTaken .source q
      else q.withOdo { q.odo with capture := .awaitFall r.datumPosition r.datumWindow q.odo.pos 0 }

/-- A falling edge of the datum sensor: a CENTRE capture matches at the midpoint (R21). -/
def datumFall (p : Part) : Part :=
  match p.odo.capture with
  | .awaitFall datum _ rise _ =>
    let mid := rise.toInt + (p.odo.pos.toInt - rise.toInt).tdiv 2
    datumMatch (wordOfCount (p.odo.pos.toInt + ((datum : Int) * 16 - mid))) p
  | _ => p

/-- The encoder of a pinion. -/
def pinionEncoder : Pinion → Encoder
  | .p1 => .p1 | .p2 => .p2

/-- An index pulse of a pinion: pulses of a FAULTED encoder are not counted; the K-th pulse is a match (R1, R20). -/
def indexPulse (x : Pinion) (p : Part) : Part :=
  match p.odo.capture with
  | .awaitIndex datum k dir pinion pulses travel =>
    if pinion != x || (p.odo.enc (pinionEncoder x)).faulted then p
    else if pulses + 1 = k then datumMatch (wordOfCount ((datum : Int) * 16 + dir.count * ((k : Int) * 16))) p
    else p.withOdo { p.odo with capture := .awaitIndex datum k dir pinion (pulses + 1) travel }
  | _ => p

/-- A count of the motion encoder moves the travel of a capture (R20, R21). -/
def captureCount (c : Dir) (p : Part) : Part :=
  match p.odo.capture with
  | .idle => p
  | .awaitIndex datum k dir pinion pulses travel =>
    if dir != c then mismatchTaken .reversed p
    else if (k + 1) * 16 < travel + 1 then mismatchTaken .noIndex p
    else p.withOdo { p.odo with capture := .awaitIndex datum k dir pinion pulses (travel + 1) }
  | .awaitFall datum window rise travel =>
    if 2 * window < travel + 1 then mismatchTaken .noFall p
    else p.withOdo { p.odo with capture := .awaitFall datum window rise (travel + 1) }

/-! ### The counts of one encoder (R1, R2) -/

/-- The alarm and the demand of a climb-out (R15). -/
def climbOut (p : Part) : Part :=
  handAlarm .climbOut (latch .odometry .emergency 4 (post .climbOut (argSigned p.odo.deviation.toInt) p))

/-- Deviation follows a count of a pinion while climb supervision is on; a crossing of the threshold is a climb-out (R14, R15). -/
def deviationCount (p : Part) : Part :=
  if p.odo.climbOn then
    let was := climbing p
    let q := p.withOdo { p.odo with deviation := (p.odo.p1.tally - p.odo.ref1) - (p.odo.p2.tally - p.odo.ref2) }
    if !was && climbing q then climbOut q else q
  else p

/-- A crossing of the rollback allowance by the creep counter (R16). -/
def creepCrossed (p : Part) : Part :=
  let q := latch .rollback .emergency 1 (post .rollback 0 p)
  if p.mod.mode == .stabled then
    wakeCar .rollAway (handAlarm .rollAway (q.withMsg { q.msg with rollAway := true }))
  else q

/-- A crossing of the rollback allowance by the reverse counter (R16). -/
def reverseCrossed (p : Part) : Part := latch .rollback .emergency 2 (post .rollback 1 p)

/-- The creep counter at a count of the motion encoder (R16). -/
def creepCount (p : Part) : Part :=
  if p.mod.mode == .stand || p.mod.mode == .stabled then
    let q := p.withOdo { p.odo with creep := sat16 p.odo.creep }
    if p.odo.creep.toNat ≤ p.prf.settings.rollbackAllowance && p.prf.settings.rollbackAllowance < q.odo.creep.toNat then
      creepCrossed q
    else q
  else p

/-- The reverse counter at a count of the motion encoder (R16). -/
def reverseCount (c : Dir) (p : Part) : Part :=
  match p.mod.mode, p.aut.current with
  | .run, some a =>
    if a.dir == c then p.withOdo { p.odo with reverse := 0 }
    else
      let q := p.withOdo { p.odo with reverse := sat16 p.odo.reverse }
      if p.odo.reverse.toNat ≤ p.prf.settings.rollbackAllowance && p.prf.settings.rollbackAllowance < q.odo.reverse.toNat then
        reverseCrossed q
      else q
  | _, _ => p

/-- A count of an OK encoder restarts the standstill timer and ends standstill; while a reset is asserted standstill is kept
(R18). MOVING carries the direction that ODO shows, also where the count is not of the motion encoder: the model's choice (log 33). -/
def standstillCount (p : Part) : Part :=
  let q := p.withOdo { p.odo with standTimer := some p.now }
  if q.odo.standstill && !q.asserted then
    post .moving (if q.odo.dir == .up then 0 else 1) (q.withOdo { q.odo with standstill := false })
  else q

/-- The travels of a running entry check after a count of an encoder (R9). -/
def EntryCheck.count (x : EntryCheck) (e : Encoder) (c : Dir) : EntryCheck :=
  let n : Int := if x.dir == c then 1 else -1
  match e with
  | .w => { x with wTravel := x.wTravel + n }
  | .p1 => { x with p1Travel := x.p1Travel + n }
  | .p2 => { x with p2Travel := x.p2Travel + n }

/-- A count adds to the travels of an entry check that ran before it and still runs, and judges the check (R9, R10). -/
def entryCount (e : Encoder) (c : Dir) (ran : Bool) (p : Part) : Part :=
  match p.odo.entry with
  | some x => if ran then afterChange (entryJudge (p.withOdo { p.odo with entry := some (x.count e c) })) else p
  | none => p

/-- The tally, and for the motion encoder the speed window and the direction (R1, R17). -/
def tallyCount (e : Encoder) (c : Dir) (moves : Bool) (p : Part) : Part :=
  let x := p.odo.enc e
  let o := p.odo.setEnc e { x with tally := x.tally + BitVec.ofInt 32 c.count }
  p.withOdo (if moves then { o with dir := c, bucket := o.bucket + c.count } else o)

/-- One count of an OK encoder (R1): tally and speed window, standstill, the brake test, position, deviation, the entry check, a
capture, creep and reverse, and the travel record, in this order (log 12). -/
def countTaken (e : Encoder) (c : Dir) (p : Part) : Part :=
  let moves := p.odo.motion == some e
  let isSource := p.odo.source.encoder? == some e && p.odo.validity != .unknown
  let ran := p.odo.entry.isSome
  let q := abortTest .moved (standstillCount (tallyCount e c moves p))
  let q := if isSource then moveTo c (q.withOdo { q.odo with pos := wordOfCount (q.odo.pos.toInt + c.count) }) else q
  let q := if e == .w then q else deviationCount q
  let q := entryCount e c ran q
  let q := if moves then reverseCount c (creepCount (captureCount c q)) else q
  let q := if moves && q.mod.mode == .run then travelCount c q else q
  ssuEvaluate q

/-- An entry check excludes a pinion that faults, without ending (R9). -/
def EntryCheck.exclude (x : EntryCheck) : Encoder → EntryCheck
  | .p1 => { x with p1Included := false }
  | .p2 => { x with p2Included := false }
  | .w => x

/-- An illegal step of an OK encoder: it is FAULTED, and source and regime act on the new health (R2). -/
def encoderFaulted (e : Encoder) (p : Part) : Part :=
  let was := p.odo
  let o := p.odo.setEnc e { p.odo.enc e with faulted := true }
  let q := post .encoderFault (BitVec.ofNat 16 (encoderCode e)) (p.withOdo { o with entry := o.entry.map (·.exclude e) })
  if q.odo.regime == .entering && e == .w && q.odo.validity != .unknown then afterChange (entryFail 65535 q)
  else
    let q := if was.climbOn && !q.odo.climbOn then post .climbOff (BitVec.ofNat 16 (encoderCode e)) q else q
    afterChange (settleSource was q)

/-- A change on the phase lines of an encoder (R1, R2). The quadrature state is tracked always; a FAULTED encoder does not count,
and nothing counts while cold reset is asserted (R24). -/
def encoderLines (e : Encoder) (levels : BitVec 2) (p : Part) : Part :=
  let x := p.odo.enc e
  let q := p.withOdo (p.odo.setEnc e { x with quad := levels })
  if x.faulted || p.coldLine then q
  else match phaseStep x.quad levels with
    | .none => q
    | .up => countTaken e .up q
    | .down => countTaken e .down q
    | .illegal => encoderFaulted e q

/-! ### The speed window and standstill (R17, R18) -/

/-- Measured speed from the nets of a window (R17). -/
def windowSpeed (w : List Int) : Nat := min ((w.foldl (· + ·) 0).natAbs * 10) 4095

/-- One millisecond: the window takes the running bucket, and measured speed is formed afresh; SSU evaluates on a change. -/
def windowTick (p : Part) : Part :=
  let w := (p.odo.bucket :: p.odo.window).take 100
  let q := p.withOdo { p.odo with window := w, bucket := 0, speed := windowSpeed w }
  if q.odo.speed == p.odo.speed then q else ssuEvaluate q

/-- Standstill starts: STANDSTILL, then the release point of a deferred pull and the return to STAND follow (R18, R136, R109). -/
def standstillStarts (p : Part) : Part :=
  handleJudge (post .standstill 0 (p.withOdo { p.odo with standstill := true, standTimer := none }))

/-- The standstill timer expires; not while a reset is asserted (R18). -/
def standstillExpiry (p : Part) : Part :=
  if p.due p.odo.standTimer p.prf.settings.standstillTime && !p.asserted then
    if p.odo.standstill then p.withOdo { p.odo with standTimer := none } else standstillStarts p
  else p

end Sys2Proof.Machine
end

