-- ==== Sys2Proof/Machine/Doors.lean ====
section
/-! DEFINITION. The passenger doors (chapter 7): input edges and their events (R120 to R124, R138), the door orders and their completion
(R126 to R132), the permits (R133, R134), and the emergency handles (R135). -/

namespace Sys2Proof.Machine

/-! ### What follows a change of door states -/

/-- Some door that was LOCKED no longer is. -/
def leftLocked (before after : Part) : Bool :=
  allDoors.any fun d => (before.door d).state == .locked && (after.door d).state != .locked

/-- Door states have changed: the DOORS entry is formed, a door that left LOCKED aborts a running test (R66, R137), and door orders
complete. -/
def afterDoors (before : Part) (p : Part) : Part :=
  let q := formDoors p
  let q := if leftLocked before q then abortTest .doors q else q
  checkDoorOrders q

/-! ### Input edges (R120, R138) -/

/-- The five inputs of a door. -/
inductive DoorInput where
  | cl | fo | ob | pb | eh
deriving DecidableEq, Repr

/-- 1 CL to 5 EH (R138). -/
def DoorInput.code : DoorInput → Nat
  | .cl => 1 | .fo => 2 | .ob => 3 | .pb => 4 | .eh => 5

/-- The level of an input. -/
def Door.level (r : Door) : DoorInput → Bool
  | .cl => r.cl | .fo => r.fo | .ob => r.ob | .pb => r.pb | .eh => r.eh

/-- A door with an input at a level. -/
def Door.setLevel (r : Door) (i : DoorInput) (b : Bool) : Door :=
  match i with
  | .cl => { r with cl := b } | .fo => { r with fo := b } | .ob => { r with ob := b } | .pb => { r with pb := b }
  | .eh => { r with eh := b }

/-- The edge is selected in the mask of its direction (R138, R193). -/
def edgeSelected (r : Dor) (d : Fin 8) (i : DoorInput) (rising : Bool) : Bool :=
  let w := if d.val < 4 then (if rising then r.risingLow else r.fallingLow) else (if rising then r.risingHigh else r.fallingHigh)
  w.getLsbD (d.val % 4 * 5 + (i.code - 1))

/-- A pull of the emergency handle beside a door (R135). -/
def handlePulled (d : Fin 8) (p : Part) : Part :=
  let q := post .handlePulled (BitVec.ofNat 16 d.val) p
  if q.mod.mode == .run && !q.odo.standstill && noStopHere q then
    if q.dor.deferred.isSome then q
    else post .handleDeferred (BitVec.ofNat 16 d.val)
      (handAlarm .handleDeferred (q.withDor { q.dor with deferred := some ⟨d, q.odo.pos, q.now⟩ }))
  else latch .handle .s3 1 q

/-- The state machine at an edge of a door input (R122 to R124, R135). -/
def doorEdge (d : Fin 8) (i : DoorInput) (rising : Bool) (p : Part) : Part :=
  match i, rising, (p.door d).state with
  | .cl, true, .closing => doorTo d .locked none p
  | .cl, false, .locked => faultDoor d .contactLost p
  | .cl, false, .released => faultDoor d .contactLost p
  | .fo, true, .opening => doorTo d .open_ none p
  | .fo, true, .reopening => judgeReopened d p
  | .ob, true, .closing => obstruct d p
  | .pb, true, .released => openDoor d p
  | .eh, true, _ => handlePulled d p
  | _, _, _ => p

/-- A level of a door input: an edge is reported when it is selected, and acts; while cold reset is asserted only the level is kept
(R120, R138). DOOR_INPUT_EDGE before the events of what the edge does is the model's choice (log 13). -/
def doorLevel (d : Fin 8) (i : DoorInput) (closed : Bool) (p : Part) : Part :=
  if (p.door d).level i == closed then p
  else
    let q := setDoor d (·.setLevel i closed) p
    if q.coldLine then q
    else
      let q := if edgeSelected q.dor d i closed then
          post .doorInputEdge (arg3 0 d.val (i.code * 16 + (if closed then 0 else 1))) q
        else q
      afterDoors p (doorEdge d i closed q)

/-- The motion timer of a door expires (R124). -/
def motionExpiry (d : Fin 8) (p : Part) : Part :=
  if p.due (p.door d).motion p.prf.settings.doorMotionTime then afterDoors p (faultDoor d .motionTimeout p) else p

/-! ### Permits (R133, R134) -/

/-- The releases of a side that rest on a permit of this platform id, and that no permit covers any more, are withdrawn. -/
def withdrawPermit (id : Byte) (s : Side) (p : Part) : Part :=
  if (p.side s).released && (p.side s).stationControlled && (p.side s).platform == id && !permitted id s p then
    withdrawSide s .permit p
  else p

/-- Post PERMIT_CHANGED (R139). -/
def postPermit (id : Byte) (action : Nat) (p : Part) : Part := post .permitChanged (arg2 id.toNat action) p

/-- The permit of a platform id leaves the list (R134). -/
def removePermit (id : Byte) (action : Nat) (p : Part) : Part :=
  let q := postPermit id action (p.withDor { p.dor with permits := p.dor.permits.filter fun m => m.platform != id })
  afterDoors p (withdrawPermit id .right (withdrawPermit id .left q))

/-- The permit of a platform id, if the list holds one. -/
def Part.permit? (p : Part) (id : Byte) : Option Permit := p.dor.permits.find? fun m => m.platform == id

/-- The lifetime of a permit passes (R134). -/
def permitExpiry (id : Byte) (p : Part) : Part :=
  match p.permit? id with
  | some m => if p.passed m.granted p.prf.settings.permitLifetime then removePermit id 3 p else p
  | none => p

/-- The link is LOST: every entry leaves the list, oldest first (R134). Each removal is a change of its own, so that a DEMAND_CLEARED of
DOORS can stand before the next PERMIT_CHANGED: the model's choice (log 13). -/
def clearPermits (p : Part) : Part := (p.dor.permits.map Permit.platform).foldl (fun q id => removePermit id 5 q) p

/-- A PERMIT delivered (R133): what it does, and its outcome. -/
def permitTaken (station id mask : Byte) (p : Part) : Part × MessageOutcome :=
  let refuse := fun (r : Reason) => (postPermit id 6 (handRefusal station 5 id.toNat r p), MessageOutcome.refused)
  let m : Permit := ⟨id, mask.getLsbD 0, mask.getLsbD 1, p.now⟩
  if p.mod.mode == .stabled then refuse .stabled
  else if id = 0 ∨ 63 < id.toNat ∨ (m.left = false ∧ m.right = false) then refuse .badParam
  else if (p.permit? id).isSome then
    let q := postPermit id 2 (p.withDor { p.dor with permits := p.dor.permits.map fun x => if x.platform == id then m else x })
    (afterDoors p (withdrawPermit id .right (withdrawPermit id .left q)), .acted)
  else if 4 ≤ p.dor.permits.length then refuse .full
  else (postPermit id 1 (p.withDor { p.dor with permits := p.dor.permits ++ [m] }), .acted)

/-- A WITHDRAW delivered (R134). -/
def withdrawTaken (id : Byte) (p : Part) : Part :=
  if (p.permit? id).isSome then removePermit id 4 p else postPermit id 7 p

/-! ### Door orders -/

/-- The side of a parameter word: 1 left, 2 right. -/
def sideOf? : Nat → Option Side
  | 1 => some .left | 2 => some .right | _ => none

/-- A door number of a parameter word, 0 to 7. -/
def doorOf? (n : Nat) : Option (Fin 8) := if h : n < 8 then some ⟨n, h⟩ else none

/-- The platform a release takes: the first that passes the permit check (R126). -/
def releasePlatform (s : Side) (p : Part) : Option SegRec := (platformsHere s p).find? fun r => platformPermitted r s p

/-- RELEASE SIDE accepted (R126). -/
def releaseSideTaken (s : Side) (r : SegRec) (p : Part) : Part :=
  let q := setSide s { released := true, platform := BitVec.ofNat 8 r.platformId, stationControlled := r.stationControlled,
                       position := p.odo.pos } p
  afterDoors p ((sideDoors s).foldl (fun x d => if (x.door d).state == .locked then doorTo d .released none x else x) q)

/-- RELEASE SIDE (R126). -/
def judgeReleaseSide (work : Vector Word 7) (p : Part) : Part × Judgement :=
  if p.mod.mode == .lockout then (p, .no .lockout)
  else if p.mod.mode != .stand then (p, .no .wrongMode)
  else match sideOf? (param work 0) with
    | none => (p, .no .badParam)
    | some s =>
      if !p.odo.standstill then (p, .no .notStandstill)
      else if p.brk.confirmed.value < 2 then (p, .no .brakeLow)
      else if p.odo.validity == .unknown || p.odo.validity == .uncertain then (p, .no .noPosition)
      else if (platformsHere s p).isEmpty then (p, .no .outsidePlatform)
      else match releasePlatform s p with
        | none => (p, .no .noPermit)
        | some r =>
          if (p.ord.closeSlot s).isSome then (p, .no .busy)
          else (releaseSideTaken s r p, .take (BitVec.ofNat 32 r.platformId))

/-- OPEN SIDE accepted (R128). -/
def openSideTaken (i : Fin 16) (s : Side) (p : Part) : Part :=
  let ds := (sideDoors s).filter fun d =>
    (p.door d).state == .released || (p.door d).state == .opening || (p.door d).state == .open_
  let q := setOpenAffected s (doorMask ds) (setOpenSlot s (some i) (slotRunning i p))
  afterDoors p (ds.foldl (fun x d => if (x.door d).state == .released then openDoor d x else x) q)

/-- OPEN SIDE (R128). -/
def judgeOpenSide (i : Fin 16) (work : Vector Word 7) (p : Part) : Part × Judgement :=
  let busy := match sideOf? (param work 0) with | some s => (p.ord.openSlot s).isSome | none => false
  if busy then (p, .no .busy)
  else if p.mod.mode == .lockout then (p, .no .lockout)
  else match sideOf? (param work 0) with
    | none => (p, .no .badParam)
    | some s =>
      if (p.ord.closeSlot s).isSome then (p, .no .busy)
      else if !(p.side s).released then (p, .no .outsidePlatform)
      else (openSideTaken i s p, .timed)

/-- A CLOSE SIDE overtakes a RUNNING OPEN SIDE of its side (R130): result OVERTAKEN (1) alone, no mask of doors beside it, the model's
reading (log 37). -/
def overtakeOpen (s : Side) (p : Part) : Part :=
  match p.ord.openSlot s with
  | some i => slotEnd i true 1 (setOpenAffected s 0 (setOpenSlot s none p))
  | none => p

/-- An affected door of CLOSE SIDE: retry count 0, close-failed clear; RELEASED, OPENING and OPEN doors enter CLOSING (R129). -/
def closeAffectedDoor (d : Fin 8) (p : Part) : Part :=
  let q := setDoor d (fun r => { r with retries := 0, closeFailed := false }) p
  if (q.door d).state == .released || (q.door d).state == .opening || (q.door d).state == .open_ then closeDoor d q else q

/-- CLOSE SIDE accepted (R129, R130). ORDER_DONE of an overtaken OPEN SIDE before SIDE_WITHDRAWN and the DOOR_STATE events is the model's
choice (log 13). -/
def closeSideTaken (i : Fin 16) (s : Side) (p : Part) : Part :=
  let q := withdrawSide s .close (overtakeOpen s (setCloseSlot s (some i) (slotRunning i p)))
  let ds := (sideDoors s).filter fun d => let st := (q.door d).state
    st == .released || st == .opening || st == .open_ || st == .closing || st == .reopening
  afterDoors p (ds.foldl (fun x d => closeAffectedDoor d x) (setCloseAffected s (doorMask ds) q))

/-- CLOSE SIDE (R129). -/
def judgeCloseSide (i : Fin 16) (work : Vector Word 7) (p : Part) : Part × Judgement :=
  match sideOf? (param work 0) with
  | none => (p, .no .badParam)
  | some s => if (p.ord.closeSlot s).isSome then (p, .no .busy) else (closeSideTaken i s p, .timed)

/-- The result word of ISOLATE DOOR and RESTORE DOOR: the door's state after the order. -/
def doorStateWord (d : Fin 8) (p : Part) : Word := BitVec.ofNat 32 (p.door d).state.code

/-- ISOLATE DOOR (R131). -/
def judgeIsolateDoor (work : Vector Word 7) (p : Part) : Part × Judgement :=
  if p.mod.mode == .lockout then (p, .no .lockout)
  else if p.mod.mode != .stand then (p, .no .wrongMode)
  else match doorOf? (param work 0) with
    | none => (p, .no .badParam)
    | some d =>
      if (p.door d).state == .isolated then (p, .take (doorStateWord d p))
      else if (p.door d).state != .faulted then (p, .no .conditionActive)
      else
        let q := afterDoors p (doorTo d .isolated none p)
        (q, .take (doorStateWord d q))

/-- RESTORE DOOR accepted for a FAULTED or ISOLATED door (R132). -/
def restoreDoorTaken (d : Fin 8) (p : Part) : Part :=
  afterDoors p (doorTo d .locked none (setDoor d (fun r => { r with fault := .none, retries := 0, closeFailed := false }) p))

/-- RESTORE DOOR (R132). -/
def judgeRestoreDoor (work : Vector Word 7) (p : Part) : Part × Judgement :=
  if p.mod.mode == .lockout then (p, .no .lockout)
  else if p.mod.mode != .stand then (p, .no .wrongMode)
  else match doorOf? (param work 0) with
    | none => (p, .no .badParam)
    | some d =>
      if (p.door d).state == .locked then (p, .take (doorStateWord d p))
      else if (p.door d).state != .faulted && (p.door d).state != .isolated then (p, .no .busy)
      else if !(p.door d).cl then (p, .no .conditionActive)
      else
        let q := restoreDoorTaken d p
        (q, .take (doorStateWord d q))

/-- SET DOOR EVENTS (R138). -/
def judgeSetDoorEvents (work : Vector Word 7) (p : Part) : Part × Judgement :=
  if 1048576 ≤ param work 0 ∨ 1048576 ≤ param work 1 ∨ 1048576 ≤ param work 2 ∨ 1048576 ≤ param work 3 then (p, .no .badParam)
  else (p.withDor { p.dor with risingLow := work[0], risingHigh := work[1], fallingLow := work[2], fallingHigh := work[3] },
        .take 0)

end Sys2Proof.Machine
end

