-- ==== Sys2Proof/WellFormed.lean ====
section
/-! DEFINITION. Which commands can arrive: the checks on operands that the constructors' types do not make. -/

namespace Sys2Proof

/-- A delivered frame comes from a station of id 1 to 30 (Table 8-3, check 5). -/
def Sender.wf (f : Sender) : Bool := 1 ≤ f.station.toNat && f.station.toNat ≤ 30

/-- The host addresses words at multiples of 4 (00_scope.md, Memory accesses). -/
def wordAligned (a : BitVec 24) : Bool := a.toNat % 4 == 0

/-- A command that can arrive. -/
def Instr.wf : Instr → Bool
  | .grant f _ _ _ _ _ => f.wf
  | .revoke f _ _ => f.wf
  | .restrict f _ _ _ _ _ => f.wf
  | .lift f _ => f.wf
  | .permit f _ _ => f.wf
  | .withdraw f _ => f.wf
  | .eStop f => f.wf
  | .eRelease f => f.wf
  | .wakeMessage f => f.wf
  | .poll f => f.wf
  | .text f bytes => f.wf && 1 ≤ bytes.length && bytes.length ≤ 48
  | .unknownKindTrigger kind _ => 25 < kind.toNat
  | .orderWordPartialWrite _ d => d.enables != 0xF#4
  | .guardedWrite a _ => wordAligned a
  | .ordinaryWrite a _ => wordAligned a
  | .encoderStep _ _ | .speedWindowTick | .standstillTimerExpiry | .indexPulse _ | .datumRisingEdge
  | .datumFallingEdge | .copyCompletion | .brakeFeedbackChange _ _ | .applyingDeadlineExpiry
  | .releasingDeadlineExpiry | .testHoldEnd | .reservoirSwitchChange _ | .chargeTimingEnd | .crewKeyEdge _
  | .silenceTimerExpiry | .doorClEdge _ _ | .doorFoEdge _ _ | .doorObEdge _ _ | .doorPbEdge _ _
  | .doorEhEdge _ _ | .motionTimerExpiry _ | .permitLifetimeExpiry _ | .rxCharacter _ _ _ | .pause | .resume
  | .cdRise | .cdFall | .gapTimerExpiry | .deferTimerExpiry | .keyUpTimerExpiry | .txCharacterSent
  | .tailTimerExpiry | .pauseTimerExpiry | .linkTimerExpiry | .reportTimerExpiry | .run _ | .stand _ | .stable _
  | .wake _ | .brakeTest _ | .maintenanceRelease _ | .brakeRequest _ | .resetDemand _ | .setPosition _
  | .resetEncoder _ | .activateProfile _ | .addRestriction _ | .removeRestriction _ | .relinquish _
  | .releaseSide _ | .openSide _ | .closeSide _ | .isolateDoor _ | .restoreDoor _ | .setDoorEvents _
  | .setGuard _ | .clearGuard _ | .sendText _ | .takeMessage _ | .pollReport _ | .parameterWordWrite _ _ _
  | .aliveWrite _ | .settingsWrite _ _ | .profileWrite _ _ | .eventHeadPop _ | .faultSummaryRead _
  | .mirrorWrite _ _ | .memoryReady _ | .memoryTimeout | .coldResetAssert | .coldResetRelease _ _
  | .warmResetAssert | .warmResetRelease => true

end Sys2Proof
end

