-- ==== Sys2Proof/Machine/Messages.lean ====
section
/-! DEFINITION. The radio messages (chapter 9) and the receiving half of the link (R142 to R147): what each message does, its delivery
(R146, R158, R171), the receive filter and the frame assembler, and the checks at completion (R145). -/

namespace Sys2Proof.Machine

/-! ### What each message does, with its outcome (Table 9-2) -/

/-- An E_STOP: E_STOP is posted and the RADIO entry latched at EMERGENCY (R161). -/
def eStopTaken (station : Byte) (p : Part) : Part × MessageOutcome :=
  (latch .radio .emergency 1 (post .eStop (BitVec.ofNat 16 station.toNat) p), .acted)

/-- An E_RELEASE (R60, R162). -/
def eReleaseTaken (station : Byte) (p : Part) : Part × MessageOutcome :=
  if p.odo.standstill then
    if (p.entry .radio).latched then (clearLatch .radio .released 0 p, .acted) else (p, .ignored)
  else (post .eReleaseIgnored (BitVec.ofNat 16 station.toNat) p, .ignored)

/-- A RESTRICT (R80, R81). -/
def restrictTaken (station : Byte) (a : Addition) (p : Part) : Part × MessageOutcome :=
  match judgeAddition a (.radio station) p.ssu.restrictions with
  | .ok (r, replaced) => (placeRestriction r replaced p, .acted)
  | .error e => (post .tsrChanged (arg2 a.id 5) (handRefusal station 3 a.id e p), .refused)

/-- A LIFT (R82). -/
def liftTaken (station id : Byte) (p : Part) : Part × MessageOutcome :=
  match findRestriction id.toNat p.ssu.restrictions with
  | some r =>
    match r.origin with
    | .radio _ => (dropRestriction id.toNat p, .acted)
    | .host => (post .tsrChanged (arg2 id.toNat 5) (handRefusal station 4 id.toNat .owned p), .refused)
  | none => (post .tsrChanged (arg2 id.toNat 4) p, .acted)

/-- A WAKE (R116, R163). -/
def wakeTaken (p : Part) : Part × MessageOutcome :=
  if p.mod.mode == .stabled then (wakeCar .radio p, .acted) else (p, .ignored)

/-- The next mailbox serial, 1 to 65535 (R164). -/
def nextSerial (s : Half) : Half := if s = 0xFFFF#16 then 1 else s + 1

/-- A TEXT is dropped: counted (R164). -/
def dropText (p : Part) : Part := p.withMsg { p.msg with textDrops := sat16 p.msg.textDrops }

/-- A TEXT (R164). -/
def textTaken (src : Sender) (bytes : List Byte) (p : Part) : Part × MessageOutcome :=
  if p.mod.mode == .stabled then (dropText p, .dropped)
  else if 8 ≤ p.msg.mailbox.length then
    (handRefusal src.station 11 src.sequence.toNat .full (dropText p), .refused)
  else
    let n := nextSerial p.msg.serial
    (p.withMsg { p.msg with serial := n, mailbox := p.msg.mailbox ++ [⟨src.station, src.sequence, bytes, p.now, n⟩] }, .acted)

/-- A frame of bad format (R159). -/
def badFormatTaken (station : Byte) (kind : Nat) (p : Part) : Part × MessageOutcome :=
  (handRefusal station kind 0 .badParam (p.withMsg { p.msg with badFormat := sat16 p.msg.badFormat }), .badFormat)

/-! ### Delivery (R146, R147, R158) -/

/-- Change the entry of a station, 1 to 30 (R146). -/
def setStation (station : Byte) (f : Station → Station) (p : Part) : Part :=
  if h : station.toNat - 1 < 30 then
    p.withLink { p.link with stations := p.link.stations.set (station.toNat - 1) (f p.link.stations[station.toNat - 1]) }
  else p

/-- The station is on the air: its last-heard time, and the link timer restarts (R145, R146). -/
def heard (station : Byte) (p : Part) : Part :=
  let q := setStation station (fun x => { x with lastHeard := some p.now }) p
  q.withLink { q.link with linkTimer := some q.now }

/-- The receiving part of a delivery: the station table, the link timer, and LINK_RESTORED (R146, R147). -/
def linkHeard (src : Sender) (p : Part) : Part :=
  let q := heard src.station (setStation src.station (fun x => { x with sequence := some src.sequence }) p)
  if q.link.lost then post .linkRestored (BitVec.ofNat 16 src.station.toNat) (q.withLink { q.link with lost := false }) else q

/-- One delivery: the link, the effects of the message, and MESSAGE_ARRIVED last (R146, R158, R171). -/
def deliver (src : Sender) (kind : Nat) (act : Part → Part × MessageOutcome) (p : Part) : Part :=
  let r := act (linkHeard src p)
  postIf .messageArrived (arg2 kind r.2.code) (r.2 == .badFormat) (autoStand r.1)

/-- A message row: a delivery from a station of 1 to 30, none while a reset is asserted (R141, log 10). -/
def messageRow (src : Sender) (kind : Nat) (act : Part → Part × MessageOutcome) (p : Part) : Part :=
  if p.asserted || !src.wf then p else deliver src kind act p

/-- The field of `n` bytes at an offset of a payload (R195). -/
def payloadField (payload : List Byte) (offset n : Nat) : Nat := leNat ((payload.drop offset).take n)

/-- The byte at an offset of a payload. -/
def payloadByte (payload : List Byte) (offset : Nat) : Byte := payload[offset]?.getD 0

/-- The length of the payload of a kind is good (Table 9-1). -/
def goodFormat (kind length : Nat) : Bool :=
  match kind with
  | 1 => length == 11 | 2 => length == 5 | 3 => length == 10 | 4 => length == 1 | 5 => length == 2 | 6 => length == 1
  | 7 => length == 0 | 8 => length == 0 | 9 => length == 0 | 10 => length == 0
  | 11 => 1 ≤ length && length ≤ 48
  | _ => false

/-- The GRANT of a payload (Table 12-9). -/
def grantOf (b : List Byte) : Grant :=
  ⟨BitVec.ofNat 16 (payloadField b 0 2), payloadField b 2 3, payloadField b 5 3, payloadField b 8 1, payloadField b 9 2⟩

/-- The addition of a RESTRICT payload (Table 12-9). -/
def additionOf (b : List Byte) : Addition :=
  ⟨payloadField b 0 1, payloadField b 1 3, payloadField b 4 3, payloadField b 7 2, payloadField b 9 1⟩

/-- The effects of a frame by its kind and payload (Tables 9-1 and 12-9); any other is of bad format. -/
def dispatch (src : Sender) (kind : Nat) (b : List Byte) (p : Part) : Part × MessageOutcome :=
  if !goodFormat kind b.length then badFormatTaken src.station kind p
  else match kind with
    | 1 => grantTaken (grantOf b) src.station p
    | 2 => (revokeTaken (BitVec.ofNat 16 (payloadField b 0 2)) (payloadField b 2 3) p, .acted)
    | 3 => restrictTaken src.station (additionOf b) p
    | 4 => liftTaken src.station (payloadByte b 0) p
    | 5 => permitTaken src.station (payloadByte b 0) (payloadByte b 1) p
    | 6 => (withdrawTaken (payloadByte b 0) p, .acted)
    | 7 => eStopTaken src.station p
    | 8 => eReleaseTaken src.station p
    | 9 => wakeTaken p
    | 10 => (handReport p, .acted)
    | _ => textTaken src b p

/-! ### The frame assembler (R143, R144) and the checks at completion (R145) -/

/-- The noise count rises (R142). -/
def noise (p : Part) : Part := p.withLink { p.link with noise := sat16 p.link.noise }

/-- A receive drop is counted and posted; OTHER is counted only, DUPLICATE sets no fault bit (R144, R145). -/
def rxDrop (r : RxDrop) (p : Part) : Part :=
  let q := p.withLink { p.link with rxDrops := p.link.rxDrops.set r.index (sat16 p.link.rxDrops[r.index]) }
  if r == .other then q else postIf .frameDropped (BitVec.ofNat 16 r.code) (r != .duplicate) q

/-- The assembler is OUTSIDE, and RECEIVING returns to LISTEN (R143, R148). -/
def frameEnds (p : Part) : Part :=
  let q := p.withLink { p.link with assembler := .outside }
  if q.link.state == .receiving then toListen q else q

/-- A frame in assembly is abandoned (R144). -/
def abandonFrame (r : RxDrop) (p : Part) : Part := frameEnds (rxDrop r p)

/-- The assembler enters INSIDE with an empty buffer; LISTEN becomes RECEIVING (R143, R148). -/
def frameStarts (p : Part) : Part :=
  p.withLink { p.link with
    assembler := .inside [] false false p.now, state := if p.link.state == .listen then .receiving else p.link.state }

/-- The last sequence held for a station. -/
def lastSequence (station : Byte) (p : Part) : Option Byte :=
  match p.link.stations[station.toNat - 1]? with
  | some x => x.sequence
  | none => none

/-- A complete, undamaged frame of at least 7 bytes, its length agreeing: the checks 3 to 6, and the delivery (R145, R146). -/
def judgeFrame (dest source kind sequence : Byte) (body payload crc : List Byte) (p : Part) : Part :=
  if crc16 body != BitVec.ofNat 16 (leNat crc.reverse) then rxDrop .crc p
  else if dest.toNat != p.prf.settings.carId && dest != 0xFF#8 then rxDrop .other p
  else if source.toNat < 1 || 30 < source.toNat then rxDrop .badSource p
  else if lastSequence source p == some sequence then heard source (rxDrop .duplicate p)
  else deliver ⟨source, sequence⟩ kind.toNat (dispatch ⟨source, sequence⟩ kind.toNat payload) p

/-- END completes a frame (R145). -/
def completeFrame (buffer : List Byte) (damaged : Bool) (p : Part) : Part :=
  let q := frameEnds p
  if damaged then rxDrop .damaged q
  else match buffer with
    | dest :: source :: kind :: sequence :: len :: rest =>
      if len.toNat ≤ 48 && rest.length == len.toNat + 2 then
        judgeFrame dest source kind sequence (dest :: source :: kind :: sequence :: len :: rest.take len.toNat)
          (rest.take len.toNat) (rest.drop len.toNat) q
      else rxDrop .short q
    | _ => rxDrop .short q

/-- A data byte in a frame: the 56th abandons it LONG (R143, R144). -/
def frameData (c : Byte) (buffer : List Byte) (damaged : Bool) (p : Part) : Part :=
  if 55 ≤ buffer.length then abandonFrame .long p
  else p.withLink { p.link with assembler := .inside (buffer ++ [c]) damaged false p.now }

/-- A character handed to the assembler (Table 8-2). -/
def assemble (c : Byte) (errored : Bool) (p : Part) : Part :=
  match p.link.assembler with
  | .outside => if !errored && c == 0xF1#8 then frameStarts p else noise p
  | .inside buffer damaged esc _ =>
    if errored then frameData c buffer true p
    else if esc then frameData c buffer damaged p
    else if c == 0xF1#8 then frameStarts (rxDrop .restart p)
    else if c == 0xF2#8 then completeFrame buffer damaged p
    else if c == 0xF3#8 then p.withLink { p.link with assembler := .inside buffer damaged true p.now }
    else frameData c buffer damaged p

/-- An ESC is pending inside a frame. -/
def escPending (a : Assembler) : Bool := match a with | .inside _ _ esc _ => esc | .outside => false

/-- A character from the receiver: the receive filter (R142); none is handed on while a reset is asserted (R141). -/
def receive (c : Byte) (errored : Bool) (p : Part) : Part :=
  if p.asserted then p
  else if !errored && (c == 0xF4#8 || c == 0xF5#8) && !escPending p.link.assembler then flowByte (c == 0xF4#8) p
  else if p.link.ptt || !p.link.cd then noise p
  else assemble c errored p

/-- The gap timer of 20 ms expires (R144). -/
def gapExpiry (p : Part) : Part :=
  match p.link.assembler with
  | .inside _ _ _ gap => if p.passed gap 20 then abandonFrame .timeout p else p
  | .outside => p

/-- CD falls: a frame in assembly is abandoned CARRIER, and DEFER starts its timer (R144, R150). -/
def carrierFall (p : Part) : Part :=
  if !p.link.cd then p
  else
    let q := p.withLink { p.link with cd := false }
    if q.asserted then q
    else
      let q := match q.link.assembler with | .inside _ _ _ _ => abandonFrame .carrier q | .outside => q
      if q.link.state == .defer then
        q.withLink { q.link with deferTimer := some ⟨q.now, q.prf.settings.carId * 10⟩ }
      else q

/-- The link timer expires: the link is LOST, NEXT is dropped and the permits cleared (R101, R134, R147). -/
def linkExpiry (p : Part) : Part :=
  if p.due p.link.linkTimer p.prf.settings.linkTimeout then
    let q := p.withLink { p.link with linkTimer := none }
    if q.link.lost then q
    else clearPermits (dropNext (post .linkLost 0 (q.withLink { q.link with lost := true })))
  else p

end Sys2Proof.Machine
end

