-- ==== Sys2Proof/Machine/Profile.lean ====
section
/-! DEFINITION. The profile store (chapter 2): capture of the staged copy (R29, R30), ACTIVATE PROFILE (R31 to R35), its abort (R36), and
the completion with what follows in every block (R38 to R40). -/

namespace Sys2Proof.Machine

/-! ### Validation (R33, R34) -/

/-- The platform part of a segment passes (R33). -/
def platformValid (r : SegRec) (stop : Nat) : Bool :=
  r.sideCode == 0 ||
  (r.sideCode ≤ 3 && 1 ≤ r.platformId && r.platformId ≤ 63 && r.windowStart < r.windowEnd && r.start ≤ r.windowStart
   && r.windowEnd ≤ stop)

/-- The datum part of a segment passes (R33). -/
def datumValid (r : SegRec) (stop : Nat) : Bool :=
  r.method == 0 ||
  (r.method ≤ 3 && 1 ≤ r.datumK && r.datumK ≤ 16 && r.datumWindow ≤ 255 && r.start ≤ r.datumPosition
   && r.datumPosition < stop && !(r.method == 2 && r.regimeCode == 2))

/-- A segment passes, given the start before it and its end (R33). -/
def segmentValid (before : Option Nat) (r : SegRec) (stop : Nat) : Bool :=
  r.start ≤ 1048575 && (match before with | some b => b < r.start | none => true)
  && (r.regimeCode == 1 || r.regimeCode == 2) && -300 ≤ r.gradient && r.gradient ≤ 300 && r.limitUp ≤ 4095
  && r.limitDown ≤ 4095 && r.noStopCode ≤ 1 && platformValid r stop && datumValid r stop

/-- The index of the first segment that fails (R33). -/
def firstBad (i : Nat) (before : Option Nat) : List (SegRec × Nat) → Option Nat
  | [] => none
  | (r, stop) :: rest => if segmentValid before r stop then firstBad (i + 1) (some r.start) rest else some i

/-- A value lies in a range. -/
def inRange (lo hi v : Nat) : Bool := lo ≤ v && v ≤ hi

/-- Every entry of the braking table lies from 1 to 4095. -/
def brakingValid (s : Settings) : Bool :=
  (List.range 4).all fun c => (List.range 8).all fun b => inRange 1 4095 (s.braking c b)

/-- The staged settings pass, the last loaded segment starting at `lastStart` (R34, Table 2-3). -/
def settingsValid (s : Settings) (lastStart : Nat) : Bool :=
  inRange 1 254 s.carId && inRange 10 400 s.carLength && s.routeEnd ≤ 1048575 && inRange 100 5000 s.silencePeriod
  && s.chargeCode ≤ 7 && s.warningMargin ≤ 2048 && s.interventionMargin ≤ 2048 && s.emergencyMargin ≤ 2048
  && s.releaseSpeed ≤ 4095 && s.warningDistance ≤ 1000 && s.requestDistance ≤ 4000 && inRange 1 1024 s.rollbackAllowance
  && inRange 4 64 s.climbThreshold && inRange 200 5000 s.standstillTime && inRange 1000 10000 s.doorMotionTime
  && s.obstructionRetries ≤ 7 && inRange 2000 60000 s.linkTimeout && inRange 1000 30000 s.reportInterval
  && inRange 10000 600000 s.permitLifetime && inRange 1 64 s.entryLength && s.uncertaintyCap ≤ 4095
  && inRange 1 4 s.mismatchLimit && brakingValid s && s.warningMargin ≤ s.interventionMargin
  && s.interventionMargin ≤ s.emergencyMargin && lastStart < s.routeEnd

/-! ### Activation -/

/-- The staged segments 0 to count−1. -/
def stagedSegments (f : Prf) (count : Nat) : List SegRec := f.staged.toList.take count

/-- The CRC over the staged copy (R32). -/
def stagedCrc (f : Prf) (count : Nat) : Half :=
  crc16 (((stagedSegments f count).flatMap fun r => r.words.flatMap wordBytes) ++ f.stagedSettings.toList.flatMap wordBytes)

/-- The start of the last loaded segment. -/
def lastStart (l : List SegRec) : Nat := match l.getLast? with | some r => r.start | none => 0

/-- An activation is taken: its slot RUNNING and named, the copy in the holding store (R35). -/
def activationTaken (i : Fin 16) (count : Nat) (p : Part) : Part :=
  let q := slotRunning i p
  let q := q.withOrd { q.ord with activate := some i }
  q.withPrf { q.prf with copying := some ⟨stagedSegments q.prf count, q.prf.stagedSettings, stagedCrc q.prf count⟩ }

/-- ACTIVATE PROFILE (R31). -/
def judgeActivate (i : Fin 16) (work : Vector Word 7) (p : Part) : Part × Judgement :=
  let count := param work 0
  if p.mod.mode != .stand && p.mod.mode != .stabled then (p, .no .wrongMode)
  else if p.prf.copying.isSome then (p, .no .busy)
  else if count = 0 ∨ 256 < count ∨ 65535 < param work 1 then (p, .no .badParam)
  else if (stagedCrc p.prf count).toNat != param work 1 then
    (p, .refuse .badCrc (BitVec.ofNat 32 (stagedCrc p.prf count).toNat))
  else match firstBad 0 none (withEnds p.prf.stagedSettings.routeEnd (stagedSegments p.prf count)) with
    | some n => (p, .refuse .badSegment (BitVec.ofNat 32 n))
    | none =>
      if settingsValid p.prf.stagedSettings (lastStart (stagedSegments p.prf count)) then (activationTaken i count p, .timed)
      else (p, .refuse .badSegment 256)

/-- The order of the activation ends. -/
def endActivation (aborted : Bool) (result : Word) (p : Part) : Part :=
  match p.ord.activate with
  | some i => slotEnd i aborted result (p.withOrd { p.ord with activate := none })
  | none => p

/-- A write into the staged areas aborts an activation that is COPYING (R36). -/
def abortActivation (p : Part) : Part :=
  if p.prf.copying.isSome then
    endActivation true 1 (post .profileAborted 1 (p.withPrf { p.prf with copying := none }))
  else p

/-- A write to the profile area taken by the bridge: words 0 to 6 of a record are captured (R29). -/
def captureProfile (word : Fin 2048) (d : WriteData) (p : Part) : Part :=
  let i : Fin 256 := ⟨word.val / 8, by omega⟩
  let r := p.prf.staged[i]
  abortActivation (p.withPrf { p.prf with
    staged := p.prf.staged.set i (r.setWord (word.val % 8) (mergeBytes (r.word (word.val % 8)) d.data d.enables)) })

/-- A write to the settings block taken by the bridge: the first 32 words are captured (R30). -/
def captureSettings (word : Fin 256) (d : WriteData) (p : Part) : Part :=
  abortActivation (if h : word.val < 32 then
    p.withPrf { p.prf with
      stagedSettings := p.prf.stagedSettings.set word.val (mergeBytes p.prf.stagedSettings[word.val] d.data d.enables) }
    else p)

/-! ### The completion (R38 to R40) -/

/-- The active profile and settings are replaced as a whole, and the order ends (R38). -/
def replaceActive (h : Holding) (p : Part) : Part :=
  let q := p.withPrf { p.prf with active := h.segs, settings := h.settings, crc := h.crc, copying := none }
  endActivation false (BitVec.ofNat 32 h.segs.length) (post .profileActive (BitVec.ofNat 16 h.segs.length) q)

/-- ODO meets the new bank (R39). -/
def odoMeetsBank (p : Part) : Part :=
  let o := p.odo
  let q := p.withOdo { o with
    validity := if o.validity == .confirmed then .provisional else o.validity, mismatches := 0, capture := .idle }
  if q.odo.validity == .unknown then q
  else
    let r := directRegime q.odo.validity q
    odoRequests r.2 r.1

/-- A release whose position is no longer trusted is withdrawn (R127), cause POSITION, also where the new bank leaves it no platform (R40,
PROFILE): the model's choice (log 35). -/
def sideTrust (s : Side) (p : Part) : Part :=
  if p.odo.validity == .unknown || p.odo.validity == .uncertain then withdrawSide s .position p else p

/-- The platform of the new bank that keeps a side released (R40): of several with the recorded id, the one of the lowest segment index
gives the station-controlled flag, the model's choice (log 35). -/
def keepingPlatform (s : Side) (p : Part) : Option SegRec :=
  (platformsHere s p).find? fun r =>
    BitVec.ofNat 8 r.platformId == (p.side s).platform && platformPermitted r s p

/-- A side release meets the new bank (R40). -/
def sideMeetsBank (s : Side) (p : Part) : Part :=
  if (p.side s).released then
    match keepingPlatform s p with
    | some r => setSide s { p.side s with stationControlled := r.stationControlled } p
    | none => withdrawSide s .profile p
  else p

/-- Every permit whose lifetime has passed expires. -/
def permitsMeet (p : Part) : Part := (p.dor.permits.map Permit.platform).foldl (fun q id => permitExpiry id q) p

/-- Every motion timer that has passed the motion time expires. -/
def motionsMeet (p : Part) : Part := allDoors.foldl (fun q d => motionExpiry d q) p

/-- The running timers are judged against the new settings (R40). -/
def timersMeet (p : Part) : Part :=
  motionsMeet (permitsMeet (reportExpiry (linkExpiry (judgeCharge (silenceExpiry (standstillExpiry p))))))

/-- A counter that stands above a new, lower threshold crosses it at the completion, also one above the old threshold (R40); `old` is the
settings before. -/
def thresholdsMeet (old : Settings) (p : Part) : Part :=
  let p1 := if p.odo.climbOn && climbing p && p.prf.settings.climbThreshold < old.climbThreshold then climbOut p else p
  let lower := p1.prf.settings.rollbackAllowance < old.rollbackAllowance
  let p2 := if lower && p1.prf.settings.rollbackAllowance < p1.odo.creep.toNat then creepCrossed p1 else p1
  if lower && p2.prf.settings.rollbackAllowance < p2.odo.reverse.toNat then reverseCrossed p2 else p2

/-- The blocks meet the new bank and settings (R40). -/
def blocksMeetBank (old : Settings) (p : Part) : Part :=
  let q := ssuEvaluate (autJudge false (ssuEvaluate p))
  let q := checkDoorOrders (formDoors (sideMeetsBank .right (sideMeetsBank .left (sideTrust .right (sideTrust .left q)))))
  thresholdsMeet old (timersMeet (handleJudge q))

/-- The copy completes (R38): nothing without a copy in flight. -/
def copyCompleted (p : Part) : Part :=
  match p.prf.copying with
  | some h => blocksMeetBank p.prf.settings (odoMeetsBank (replaceActive h p))
  | none => p

end Sys2Proof.Machine
end

