-- ==== Sys2Proof/Machine/Orders.lean ====
section
/-! DEFINITION. The orders (chapter 11, R183, and each block's own rule), those of doors and profile apart: what each is refused with and
what it does, and the trigger that judges one. -/

namespace Sys2Proof.Machine

/-! ### Mode orders (R107, R108, R110, R113, R116) -/

/-- RUN (R107). -/
def judgeRun (p : Part) : Part × Judgement :=
  if p.mod.mode != .stand then (p, .no .wrongMode)
  else if p.prf.active.isEmpty then (p, .no .noProfile)
  else if p.odo.validity == .unknown || p.odo.validity == .uncertain then (p, .no .noPosition)
  else if !(match p.aut.current with | some a => recordHoldsExtent a p | none => false) then (p, .no .noAuthority)
  else if !p.doorsShut then (p, .no .doorsOpen)
  else if p.anyLatched then (p, .no .latchedDemand)
  else if p.charging then (p, .no .chargeWait)
  else if p.prf.copying.isSome then (p, .no .profileBusy)
  else (toMode .run .order p, .take 0)

/-- STAND (R108). -/
def judgeStand (p : Part) : Part × Judgement :=
  if p.mod.mode == .lockout || p.mod.mode == .stabled then (p, .no .wrongMode)
  else if !p.odo.standstill then (p, .no .notStandstill)
  else
    let q := if p.mod.mode == .stand then p else abortTest .stopped (toMode .stand .order p)
    (q, .take (BitVec.ofNat 32 q.mod.mode.code))

/-- STABLE (R110). -/
def judgeStable (p : Part) : Part × Judgement :=
  if p.mod.mode != .stand then (p, .no .wrongMode)
  else if !p.doorsShut then (p, .no .doorsOpen)
  else (toMode .stabled .order p, .take 0)

/-- WAKE (R116). -/
def judgeWake (p : Part) : Part × Judgement :=
  if p.mod.mode != .stabled then (p, .no .wrongMode)
  else (wakeCar .order p, .take (BitVec.ofNat 32 WakeReason.order.code))

/-- MAINTENANCE RELEASE (R113). -/
def judgeMaintenance (p : Part) : Part × Judgement :=
  if p.mod.mode != .lockout then (p, .no .wrongMode)
  else if !p.odo.standstill then (p, .no .notStandstill)
  else if p.brk.state != .settled || p.brk.confirmed != .emergency then (p, .no .conditionActive)
  else (toMode .stand .maintenance p, .take 0)

/-! ### Brake orders (R58, R59, R62) -/

/-- Some entry other than MODE requests a stage above 0 (R62). -/
def otherRequests (p : Part) : Bool := (p.brk.table.set 1 Entry.clear).toList.any fun e => e.stage != .released

/-- BRAKE TEST (R62). -/
def judgeBrakeTest (i : Fin 16) (p : Part) : Part × Judgement :=
  if p.ord.brakeTest.isSome then (p, .no .busy)
  else if p.mod.mode == .lockout then (p, .no .lockout)
  else if p.mod.mode != .stand then (p, .no .wrongMode)
  else if !p.odo.standstill then (p, .no .notStandstill)
  else if !p.doorsShut then (p, .no .doorsOpen)
  else if p.anyLatched then (p, .no .latchedDemand)
  else if p.charging then (p, .no .chargeWait)
  else if otherRequests p then (p, .no .conditionActive)
  else
    let q := slotRunning i p
    (beginTest (q.withOrd { q.ord with brakeTest := some i }), .timed)

/-- BRAKE REQUEST (R58). -/
def judgeBrakeRequest (work : Vector Word 7) (p : Part) : Part × Judgement :=
  if p.mod.mode == .lockout then (p, .no .lockout)
  else match Stage.ofNat? (param work 0) with
    | none => (p, .no .badParam)
    | some s =>
      let q := follow .ordered s 1 p
      (q, .take (BitVec.ofNat 32 q.brk.commanded.value))

/-- The sources whose entry can latch: all but ORDERED, MODE, DOORS and TEST (R59). -/
def latchingSource? (n : Nat) : Option DemandSource :=
  match DemandSource.ofNat? n with
  | some .ordered | some .mode | some .doors | some .test | none => none
  | some d => some d

/-- The condition of Table 3-7 that must be gone still stands. -/
def conditionStands (d : DemandSource) (p : Part) : Bool :=
  match d with
  | .odometry => p.odo.validity == .unknown || (p.odo.regime == .rack && (p.odo.p1.faulted || p.odo.p2.faulted))
  | .handle => allDoors.any fun x => (p.door x).eh
  | .radio => !p.link.lost
  | .silence => !p.mod.aliveSeen
  | .feedback => p.brk.state != .settled || p.brk.confirmed != p.brk.commanded
  | _ => false

/-- The latch of a source is cleared by RESET DEMAND, with the owner's action of Table 3-7. -/
def resetLatch (d : DemandSource) (p : Part) : Part :=
  match d with
  | .supervision => clearLatch .supervision .released 0 (toSupervision .idle p)
  | .authority =>
    let f := authorityFollowing p
    clearLatch .authority f.1 f.2 (p.withAut { p.aut with overrun := false, lateRevoke := false })
  | .rollback =>
    let q := clearLatch .rollback .released 0 p
    let q := q.withOdo { q.odo with creep := 0, reverse := 0 }
    q.withMsg { q.msg with rollAway := false }
  | _ => clearLatch d .released 0 p

/-- RESET DEMAND (R59). -/
def judgeResetDemand (work : Vector Word 7) (p : Part) : Part × Judgement :=
  if p.mod.mode == .lockout then (p, .no .lockout)
  else match latchingSource? (param work 0) with
    | none => (p, .no .badParam)
    | some d =>
      if !p.odo.standstill then (p, .no .notStandstill)
      else if !(p.entry d).latched then
        if (p.entry d).stage != .released then (p, .no .conditionActive) else (p, .take 0)
      else if conditionStands d p then (p, .no .conditionActive)
      else
        let q := resetLatch d p
        (q, .take (BitVec.ofNat 32 (q.entry d).stage.value))

/-! ### Odometry orders (R3, R8) -/

/-- The check both odometry orders begin with: LOCKOUT, another mode than STAND, and standstill. -/
def odometryOrderCheck (p : Part) : Option Reason :=
  if p.mod.mode == .lockout then some .lockout
  else if p.mod.mode != .stand then some .wrongMode
  else if !p.odo.standstill then some .notStandstill
  else none

/-- No encoder could be the source at a position (R8). -/
def noSourceAt (pos : Int) (p : Part) : Bool :=
  match segmentIndex pos p.prf.active with
  | some i => if rackAt p i then p.odo.pinionsFaulted && p.odo.w.faulted else p.odo.w.faulted
  | none => false

/-- SET POSITION accepted (R8). -/
def setPositionTaken (teeth : Nat) (p : Part) : Part :=
  let q := p.withOdo { p.odo with pos := wordOfCount ((teeth : Int) * 16), mismatches := 0, capture := .idle,
                                  validity := .provisional }
  let r := directRegime p.odo.validity q
  spreadPosition false (odoRequests r.2 r.1)

/-- SET POSITION (R8). -/
def judgeSetPosition (work : Vector Word 7) (p : Part) : Part × Judgement :=
  let teeth := param work 0
  match odometryOrderCheck p with
  | some r => (p, .no r)
  | none =>
    if p.prf.active.isEmpty then (p, .no .noProfile)
    else if 1048575 < teeth ∨ p.prf.settings.routeEnd < teeth then (p, .no .badParam)
    else if noSourceAt ((teeth : Int) * 16) p then (p, .no .conditionActive)
    else (setPositionTaken teeth p, .take work[0])

/-- The selected encoders become OK; a selection is 1 P1, 2 P2, 3 W, 4 ALL (R3). -/
def healEncoders (sel : Nat) (o : Odo) : Odo :=
  { o with p1 := if sel = 1 ∨ sel = 4 then { o.p1 with faulted := false } else o.p1,
           p2 := if sel = 2 ∨ sel = 4 then { o.p2 with faulted := false } else o.p2,
           w := if sel = 3 ∨ sel = 4 then { o.w with faulted := false } else o.w }

/-- RESET ENCODER accepted (R3). -/
def resetEncoderTaken (sel : Nat) (p : Part) : Part :=
  afterChange (settleSource p.odo (p.withOdo (healEncoders sel p.odo).zeroDeviation))

/-- The health of the encoders as a result word: bit 0 P1, bit 1 P2, bit 2 W, set while OK (R3). -/
def healthWord (o : Odo) : Word :=
  BitVec.ofNat 32 (flagNat (!o.p1.faulted) + 2 * flagNat (!o.p2.faulted) + 4 * flagNat (!o.w.faulted))

/-- RESET ENCODER (R3). -/
def judgeResetEncoder (work : Vector Word 7) (p : Part) : Part × Judgement :=
  match odometryOrderCheck p with
  | some r => (p, .no r)
  | none =>
    if param work 0 < 1 ∨ 4 < param work 0 then (p, .no .badParam)
    else
      let q := resetEncoderTaken (param work 0) p
      (q, .take (healthWord q.odo))

/-! ### Restrictions and authorities (R81, R82, R100) -/

/-- The count of the restriction list as a result word. -/
def restrictionCount (p : Part) : Word := BitVec.ofNat 32 p.ssu.restrictions.length

/-- ADD RESTRICTION (R80, R81). -/
def judgeAddRestriction (work : Vector Word 7) (p : Part) : Part × Judgement :=
  if p.mod.mode == .lockout then (p, .no .lockout)
  else match judgeAddition ⟨param work 0, param work 1, param work 2, param work 3, param work 4⟩ .host p.ssu.restrictions with
    | .error r => (p, .no r)
    | .ok (r, replaced) =>
      let q := placeRestriction r replaced p
      (q, .take (restrictionCount q))

/-- REMOVE RESTRICTION (R82). -/
def judgeRemoveRestriction (work : Vector Word 7) (p : Part) : Part × Judgement :=
  let id := param work 0
  if p.mod.mode == .lockout then (p, .no .lockout)
  else if id = 0 ∨ 255 < id then (p, .no .badParam)
  else match findRestriction id p.ssu.restrictions with
    | none => (p, .no .badParam)
    | some r =>
      match r.origin with
      | .radio _ => (p, .no .owned)
      | .host =>
        let q := dropRestriction id p
        (q, .take (restrictionCount q))

/-- RELINQUISH (R100). -/
def judgeRelinquish (p : Part) : Part × Judgement :=
  if p.mod.mode == .lockout then (p, .no .lockout)
  else if p.mod.mode != .stand then (p, .no .wrongMode)
  else (relinquishTaken p, .take 0)

/-! ### Guard slots (R87, R88) -/

/-- The base of the bridge area: n × 1 MiB (R174). -/
def Part.areaBase (p : Part) : Nat := p.bridge.base.toNat * 0x100000

/-- A byte address lies in the bridge area (R174). -/
def Part.inArea (p : Part) (a : Nat) : Bool := p.areaBase ≤ a && a ≤ p.areaBase + 0xFFFF

/-- The guard slots, numbered. -/
def allGuards : List (Fin 4) := [0, 1, 2, 3]

/-- Change one guard slot. -/
def setGuardSlot (i : Fin 4) (f : Guard → Guard) (p : Part) : Part :=
  p.withBridge { p.bridge with guards := p.bridge.guards.set i (f p.bridge.guards[i]) }

/-- A guard slot number of a parameter word, 0 to 3. -/
def guardOf? (n : Nat) : Option (Fin 4) := if h : n < 4 then some ⟨n, h⟩ else none

/-- The kind of a code, 1 FIXED, 2 SPEED (R87). -/
def guardKind? : Nat → Option GuardKind
  | 1 => some .fixed | 2 => some .speed | _ => none

/-- The action of a code, 1 CLAMP, 2 KEEP, 3 PASS (R87). -/
def guardAction? : Nat → Option GuardAction
  | 1 => some .clamp | 2 => some .keep | 3 => some .pass | _ => none

/-- In RUN an enabled SPEED slot cannot be changed (R87, R88). -/
def speedGuardHeld (i : Fin 4) (p : Part) : Bool :=
  p.mod.mode == .run && p.bridge.guards[i].enabled && p.bridge.guards[i].kind == .speed

/-- Another enabled slot holds an address (R87). -/
def guardDuplicate (i : Fin 4) (a : Word) (p : Part) : Bool :=
  allGuards.any fun j => j != i && p.bridge.guards[j].enabled && p.bridge.guards[j].address == a

/-- SET GUARD (R87). A SPEED slot holds no bounds of its own (log 30). -/
def judgeSetGuard (work : Vector Word 7) (p : Part) : Part × Judgement :=
  let a := work[1]
  if p.mod.mode == .lockout then (p, .no .lockout)
  else match guardOf? (param work 0), guardKind? (byteAt work[2] 0), guardAction? (byteAt work[2] 1) with
    | some i, some k, some act =>
      if k == .fixed && work[4].toNat < work[3].toNat then (p, .no .badParam)
      else if a.toNat % 4 != 0 || 0x1000000 ≤ a.toNat || p.inArea a.toNat then (p, .no .badParam)
      else if speedGuardHeld i p then (p, .no .wrongMode)
      else if guardDuplicate i a p then (p, .no .duplicate)
      else
        (setGuardSlot i (fun _ =>
          { enabled := true, address := a, kind := k, low := if k == .fixed then work[3] else 0,
            high := if k == .fixed then work[4] else 0, action := act, violations := 0, last := 0 }) p,
         .take (BitVec.ofNat 32 i.val))
    | _, _, _ => (p, .no .badParam)

/-- CLEAR GUARD (R88). -/
def judgeClearGuard (work : Vector Word 7) (p : Part) : Part × Judgement :=
  if p.mod.mode == .lockout then (p, .no .lockout)
  else match guardOf? (param work 0) with
    | none => (p, .no .badParam)
    | some i =>
      if speedGuardHeld i p then (p, .no .wrongMode)
      else (setGuardSlot i (fun _ => Guard.off) p, .take (BitVec.ofNat 32 p.bridge.guards[i].violations.toNat))

/-! ### Radio orders (R165, R169, R170) -/

/-- The text bytes of parameter words 2 to 7. -/
def textOf (work : Vector Word 7) (n : Nat) : List Byte := ((work.toList.drop 1).flatMap wordBytes).take n

/-- SEND TEXT (R169). The result is the queue count after the placing (log 25). -/
def judgeSendText (work : Vector Word 7) (p : Part) : Part × Judgement :=
  let st := byteAt work[0] 0
  let n := byteAt work[0] 1
  if st = 0 ∨ (30 < st ∧ st ≠ 255) ∨ n < 1 ∨ 24 < n ∨ halfAt work[0] 1 ≠ 0 then (p, .no .badParam)
  else if offerResult .text p != .placed then (p, .no .full)
  else
    (offer { cls := .text, dest := 0, kind := 19, payload := BitVec.ofNat 8 st :: textOf work n, sequence := none } p,
     .take (BitVec.ofNat 32 (p.link.queue.length + 1)))

/-- TAKE MESSAGE (R165). -/
def judgeTakeMessage (work : Vector Word 7) (p : Part) : Part × Judgement :=
  match p.msg.mailbox with
  | [] => (p, .no .empty)
  | m :: rest =>
    if param work 0 != 0 && param work 0 != m.serial.toNat then (p, .no .badParam)
    else (p.withMsg { p.msg with mailbox := rest }, .take (BitVec.ofNat 32 rest.length))

/-- POLL REPORT (R170). -/
def judgePollReport (p : Part) : Part × Judgement :=
  (handReport p, .take (BitVec.ofNat 32 (offerResult .report p).code))

/-! ### The trigger (R175, R183) -/

/-- How an order is judged: by its slot, its working copy and the part. -/
abbrev Judge := Fin 16 → Vector Word 7 → Part → Part × Judgement

/-- The judge of a kind (Table 11-1); any other kind is UNKNOWN_KIND. -/
def judgeOf (kind : Nat) : Judge :=
  match kind with
  | 1 => fun _ _ => judgeRun
  | 2 => fun _ _ => judgeStand
  | 3 => fun _ _ => judgeStable
  | 4 => fun _ _ => judgeWake
  | 5 => fun i _ => judgeBrakeTest i
  | 6 => fun _ _ => judgeMaintenance
  | 7 => fun _ => judgeBrakeRequest
  | 8 => fun _ => judgeResetDemand
  | 9 => fun _ => judgeSetPosition
  | 10 => fun _ => judgeResetEncoder
  | 11 => judgeActivate
  | 12 => fun _ => judgeAddRestriction
  | 13 => fun _ => judgeRemoveRestriction
  | 14 => fun _ _ => judgeRelinquish
  | 15 => fun _ => judgeReleaseSide
  | 16 => judgeOpenSide
  | 17 => judgeCloseSide
  | 18 => fun _ => judgeIsolateDoor
  | 19 => fun _ => judgeRestoreDoor
  | 20 => fun _ => judgeSetDoorEvents
  | 21 => fun _ => judgeSetGuard
  | 22 => fun _ => judgeClearGuard
  | 23 => fun _ => judgeSendText
  | 24 => fun _ => judgeTakeMessage
  | 25 => fun _ _ => judgePollReport
  | _ => fun _ _ p => (p, .no .unknownKind)

/-- The verdict and the reason the bridge writes into the order word. -/
def Judgement.verdict : Judgement → Verdict × Reason
  | .refuse r _ => (.refused, r)
  | .take _ => (.taken, .ok)
  | .timed => (.taken, .ok)

/-- The slot record after the judging; a timed order's block has set it. -/
def recordJudgement (i : Fin 16) (j : Judgement) (p : Part) : Part :=
  match j with
  | .refuse r w => setSlot i (fun x => { x with state := .refused, verdict := .refused, reason := r, result := w }) p
  | .take w => setSlot i (fun x => { x with state := .done, verdict := .taken, reason := .ok, result := w }) p
  | .timed => p

/-- A trigger is judged (R183): the part after it, and the verdict and reason for the order word. -/
def triggered (kind : Byte) (judge : Judge) (t : Trigger) (p : Part) : Part × (Verdict × Reason) :=
  if p.ord.slots[t.slot].state == .running then (p, (.refused, .busySlot))
  else
    let work := p.ord.shadows[t.slot]
    let r := judge t.slot work (setSlot t.slot (fun x => { x with kind := kind, tag := t.tag, work := work }) p)
    (recordJudgement t.slot r.2 r.1, r.2.verdict)

end Sys2Proof.Machine
end

