-- ==== Sys2Proof/Machine/Mirror.lean ====
section
/-! DEFINITION. The mirror (R191, R193): the words of each section in order after its generation word (Tables 11-6, 12-2, 12-7,
12-11 and 12-12), the word at an offset, and the rise of the generation words. -/

namespace Sys2Proof.Machine

/-! ### Words -/

/-- A number as a word of the mirror. -/
def wNat (n : Nat) : Word := BitVec.ofNat 32 n

/-- A flag as a word of the mirror: 1 when set, 0 when clear. -/
def wFlag (b : Bool) : Word := wNat (flagNat b)

/-- A value of none. -/
def wNone : Word := 0xFFFFFFFF#32

/-- An optional number. -/
def wOpt (o : Option Nat) : Word := match o with | some n => wNat n | none => wNone

/-- The ms left of a timer of a length, 0 when it has passed. -/
def timeLeft (p : Part) (start : Word) (length : Nat) : Nat := length - Word.since p.now start

/-- The words of a list of records, with room for `n` of them; a record above the count reads as 0 in every word. -/
def recordWords {α : Type} (n width : Nat) (f : α → List Word) (l : List α) : List Word :=
  (l.take n).flatMap f ++ List.replicate ((n - l.length) * width) 0

/-! ### The sections (Table 11-6) -/

/-- The CAR section. -/
def carWords (p : Part) : List Word :=
  [wNat p.mod.mode.code, wNat p.odo.speed, wNat p.odo.dir.code, wFlag p.odo.standstill, p.odo.pos, wNat p.odo.validity.code,
   wNat p.odo.regime.code, wNat p.odo.source.code, p.odo.p1.tally, p.odo.p2.tally, p.odo.w.tally, wFlag p.odo.p1.faulted,
   wFlag p.odo.p2.faulted, wFlag p.odo.w.faulted, p.odo.deviation, wFlag p.odo.climbOn, wNat p.odo.creep.toNat,
   wNat p.odo.reverse.toNat, wOpt p.odo.segment,
   (match p.odo.capture with | .idle => 0 | .awaitIndex _ _ _ _ _ _ => 1 | .awaitFall _ _ _ _ => 2),
   wNat p.prf.active.length, wNat p.prf.crc.toNat, wFlag p.prf.copying.isSome,
   (match p.mod.charge with | .timing _ => 1 | .awaitReservoir => 2 | .complete => 3),
   (match p.mod.charge with | .timing start => wNat (timeLeft p start p.prf.settings.chargeTime) | _ => 0),
   wNat p.mod.wakeReason.code,
   (match p.mod.silence with | some start => wNat (timeLeft p start p.prf.settings.silencePeriod) | none => wNone),
   wFlag p.mod.hostSilent, wFlag p.mod.crewKey]

/-- The SUPERVISION section. -/
def supervisionWords (p : Part) : List Word :=
  [wNat p.ssu.state.code, wNat p.ssu.permitted, wNat p.ssu.braking, wOpt p.ssu.effectiveEnd, wordOfCount p.ssu.distance]

/-- A demand entry: stage, latched flag, cause, set time, set position. -/
def entryWords (e : Entry) : List Word := [wNat e.stage.value, wFlag e.latched, wNat e.cause.toNat, e.setTime, e.setPos]

/-- The brake's state, target and time left. -/
def brakeStateWords (p : Part) : List Word :=
  match p.brk.state with
  | .settled => [1, wNone, wNone]
  | .applying t none => [2, wNat t.value, wNone]
  | .applying t (some s) => [2, wNat t.value, wNat (timeLeft p s (applyingDeadline t))]
  | .releasing t none => [3, wNat t.value, wNone]
  | .releasing t (some s) => [3, wNat t.value, wNat (timeLeft p s releasingDeadline)]

/-- The feedback input levels, bit 0 PS1 to bit 4 the reservoir-charged switch. -/
def feedbackBits (f : Feedback) : Nat :=
  flagNat f.ps1 + 2 * flagNat f.ps2 + 4 * flagNat f.ps3 + 8 * flagNat f.band + 16 * flagNat f.reservoir

/-- The last brake test record. -/
def testWords (r : TestRecord) : List Word :=
  [r.start, wNat r.outcome.code, wNat r.abort.code]
  ++ (List.zip r.results.toList r.times.toList).flatMap fun x => [wNat x.1.code, wNat x.2.toNat]

/-- The BRAKE section. -/
def brakeWords (p : Part) : List Word :=
  [wNat p.brk.commanded.value, wNat (lowestSource p.brk), wNat p.brk.confirmed.value] ++ brakeStateWords p
  ++ p.brk.table.toList.flatMap entryWords ++ [wNat p.outputs, wNat (feedbackBits p.brk.inputs)] ++ testWords p.brk.record

/-- An authority slot; an empty one reads as none in every word. -/
def authorityWords (a : Option Authority) : List Word :=
  match a with
  | some r => [wNat r.id.toNat, wNat r.station.toNat, wNat r.start, wNat r.stop, wNat r.dir.code, wNat r.cap]
  | none => List.replicate 6 wNone

/-- The AUTHORITY section. -/
def autWords (p : Part) : List Word :=
  authorityWords p.aut.current ++ authorityWords p.aut.next
  ++ [wordOfCount p.aut.dc, wFlag p.aut.request, wNat p.aut.travel.code, wFlag p.aut.overrun, wFlag p.aut.lateRevoke,
      wFlag p.aut.relinquished, wNat p.aut.lastRevoke.id.toNat, wNat p.aut.lastRevoke.point,
      wNat p.aut.lastRevoke.outcome.code, wNat p.aut.missed.toNat]

/-- A restriction: id, origin, origin station, start, end, limit, directions. -/
def restrictionWords (r : Restriction) : List Word :=
  [wNat r.id.toNat, (match r.origin with | .radio _ => 1 | .host => 2),
   (match r.origin with | .radio s => wNat s.toNat | .host => 0), wNat r.start, wNat r.stop, wNat r.limit, wNat r.dirs.code]

/-- The RESTRICTIONS section. -/
def restrictionsWords (p : Part) : List Word :=
  wNat p.ssu.restrictions.length :: recordWords 8 7 restrictionWords p.ssu.restrictions

/-- A door: state, retry count, close-failed flag, fault cause, levels, motion timer start time. -/
def doorWords (p : Part) (d : Fin 8) : List Word :=
  let r := p.door d
  let o := doorOutputs r.state (p.side (doorSide d)).released
  [wNat r.state.code, wNat r.retries, wFlag r.closeFailed, wNat r.fault.code,
   wNat (flagNat r.cl + 2 * flagNat r.fo + 4 * flagNat r.ob + 8 * flagNat r.pb + 16 * flagNat r.eh
         + 256 * flagNat o.1 + 512 * flagNat o.2.1 + 1024 * flagNat o.2.2),
   (match r.motion with | some s => s | none => wNone)]

/-- A side: released flag, platform id, station-controlled flag, release position. -/
def sideWords (r : SideRec) : List Word := [wFlag r.released, wNat r.platform.toNat, wFlag r.stationControlled, r.position]

/-- A permit: platform id, side mask, granted time. -/
def permitWords (m : Permit) : List Word := [wNat m.platform.toNat, wNat (flagNat m.left + 2 * flagNat m.right), m.granted]

/-- The DOORS section. -/
def doorsWords (p : Part) : List Word :=
  allDoors.flatMap (doorWords p) ++ sideWords p.dor.left ++ sideWords p.dor.right ++ recordWords 4 3 permitWords p.dor.permits
  ++ (match p.dor.deferred with | some r => [wNat r.door.val, r.position, r.time] | none => [wNone, wNone, wNone])
  ++ [p.dor.risingLow, p.dor.risingHigh, p.dor.fallingLow, p.dor.fallingHigh]

/-- The assembler: its state, the number of bytes in the buffer and the damaged flag (R143, log 28). -/
def assemblerWords : Assembler → List Word
  | .outside => [0, 0, 0]
  | .inside b damaged _ _ => [1, wNat b.length, wFlag damaged]

/-- A station: last sequence, last-heard time. -/
def stationWords (x : Station) : List Word :=
  [(match x.sequence with | some n => wNat n.toNat | none => wNone), (match x.lastHeard with | some t => t | none => wNone)]

/-- Word `i` of the text of a message, four bytes from the least significant. -/
def textWord (b : List Byte) (i : Nat) : Word := wNat (leNat ((b.drop (4 * i)).take 4))

/-- The mailbox head: station, sequence, length, 12 words of text, arrival time, serial; empty, 0 in every word. -/
def mailboxWords (l : List Message) : List Word :=
  match l with
  | m :: _ => [wNat m.station.toNat, wNat m.sequence.toNat, wNat m.bytes.length] ++ (List.range 12).map (textWord m.bytes)
              ++ [m.arrival, wNat m.serial.toNat]
  | [] => List.replicate 17 0

/-- The RADIO section. -/
def radioWords (p : Part) : List Word :=
  [wNat p.link.state.code, wFlag p.link.cd, wFlag p.link.ptt, wNat p.link.bitRate.toNat, wFlag p.link.lost,
   wFlag p.link.flowHold] ++ assemblerWords p.link.assembler
  ++ p.link.rxDrops.toList.map (fun c => wNat c.toNat) ++ p.link.txDrops.toList.map (fun c => wNat c.toNat)
  ++ [wNat p.link.noise.toNat, wNat p.msg.badFormat.toNat] ++ p.link.stations.toList.flatMap stationWords
  ++ [wFlag p.msg.rollAway, wNat p.link.queue.length] ++ recordWords 4 1 (fun f => [wNat f.cls.code]) p.link.queue
  ++ [wNat p.msg.mailbox.length, wNat p.msg.textDrops.toNat] ++ mailboxWords p.msg.mailbox

/-- A guard slot. -/
def guardWords (g : Guard) : List Word :=
  [wFlag g.enabled, g.address, wNat g.kind.code, g.low, g.high, wNat g.action.code, wNat g.violations.toNat, g.last]

/-- An order slot: state, kind, tag and reason in one word, the result word, the working copy; 64 bytes apart. -/
def slotWords (r : Slot) : List Word :=
  [wNat (r.state.code + 256 * r.kind.toNat + 65536 * r.tag.toNat + 16777216 * r.reason.code), r.result]
  ++ r.work.toList ++ List.replicate 7 0

/-- The event head: the oldest stored event, or the empty head (R189, Table 12-2). -/
def headWords (q : Evq) : List Word :=
  match q.queue with
  | e :: _ => [wNat (e.sequence.toNat + 65536 * e.kind.code + 16777216 * e.kind.block), e.time, wNat e.argument.toNat, e.position]
  | [] => [wNat q.next.toNat, 0, 0, 0]

/-- The EVENTS section. -/
def eventsWords (q : Evq) : List Word := headWords q ++ [wNat q.queue.length, wNat q.next.toNat, wNat q.lost.toNat]

/-- The words of a section after its generation word. The slots of ORDERS begin at 0x5040. -/
def sectionWords (p : Part) : Section → List Word
  | .car => carWords p
  | .supervision => supervisionWords p
  | .brake => brakeWords p
  | .authority => autWords p
  | .restrictions => restrictionsWords p
  | .doors => doorsWords p
  | .radio => radioWords p
  | .guards => p.bridge.guards.toList.flatMap guardWords
  | .orders => List.replicate 15 0 ++ p.ord.slots.toList.flatMap slotWords
  | .fault => [wNat p.evq.faults.toNat]
  | .bridge => [wNat p.bridge.dropped.toNat]

/-! ### The word at an offset (Table 12-7) -/

/-- The place of a section's generation word in the bridge's list. -/
def Section.index : Section → Fin 11
  | .car => 0 | .supervision => 1 | .brake => 2 | .authority => 3 | .restrictions => 4 | .doors => 5 | .radio => 6
  | .guards => 7 | .orders => 8 | .fault => 9 | .bridge => 10

/-- Every section but EVENTS. -/
def allSections : List Section :=
  [.car, .supervision, .brake, .authority, .restrictions, .doors, .radio, .guards, .orders, .fault, .bridge]

/-- The generation word of a section but EVENTS. -/
def Part.generation (p : Part) (s : Section) : Word := p.bridge.generations[s.index]

/-- The offset of a section's generation word. -/
def Section.offset : Section → Nat
  | .car => 0x4000 | .supervision => 0x4100 | .brake => 0x4200 | .authority => 0x4400 | .restrictions => 0x4500
  | .doors => 0x4600 | .radio => 0x4800 | .guards => 0x4C00 | .orders => 0x5000 | .fault => 0x4F40 | .bridge => 0x4F80

/-- The section of a mirror offset, none for EVENTS. -/
def sectionAt (offset : Nat) : Option Section :=
  if offset < 0x4100 then some .car else if offset < 0x4200 then some .supervision else if offset < 0x4400 then some .brake
  else if offset < 0x4500 then some .authority else if offset < 0x4600 then some .restrictions
  else if offset < 0x4800 then some .doors else if offset < 0x4C00 then some .radio else if offset < 0x4F00 then some .guards
  else if offset < 0x4F40 then none else if offset < 0x4F80 then some .fault else if offset < 0x5000 then some .bridge
  else some .orders

/-- The word a mirror read returns; a word that no section occupies reads as 0 (R177). -/
def mirrorWord (offset : Nat) (p : Part) : Word :=
  match sectionAt offset with
  | some s => ((p.generation s :: sectionWords p s)[(offset - s.offset) / 4]?).getD 0
  | none => ((p.evq.generation :: eventsWords p.evq)[(offset - 0x4F00) / 4]?).getD 0

/-! ### Generation words (R191) -/

/-- One event has changed a section: a word of it differs, or for RADIO any state of chapters 8 and 9 (R141, R164, log 14). -/
def sectionChanged (p q : Part) (s : Section) : Bool :=
  sectionWords p s != sectionWords q s || (s == .radio && (p.link != q.link || p.msg.mailbox != q.msg.mailbox))

/-- The generation word of a section rises by one. -/
def raiseGeneration (s : Section) (p : Part) : Part :=
  p.withBridge { p.bridge with generations := p.bridge.generations.set s.index (p.bridge.generations[s.index] + 1) }

/-- The generation word of each section that differs from `p` rises by one (R191). -/
def raiseChanged (p q : Part) : Part := allSections.foldl (fun x s => if sectionChanged p q s then raiseGeneration s x else x) q

/-- The end of every change: the return to STAND where it is due (R109, log 11), and the generation words. -/
def finish (p q : Part) : Part := raiseChanged p (autoStand q)

end Sys2Proof.Machine
end

