-- ==== Sys2Proof/Machine/Path.lean ====
section
/-! DEFINITION. The memory path (chapter 10): accesses forwarded, dropped and substituted (R173, R177), the order area (R175), the
alive word and the staged areas (R176), guarded writes (R178, R85, R86), memory's answer and its timeout (R179). -/

namespace Sys2Proof.Machine

/-! ### The path -/

/-- A host access while another waits: the earlier one has been completed, its write in memory (R173, log 3). -/
def completeEarlier (x : Path) : Path :=
  match x.access with
  | some a => { x with access := none, mem := if a.isRead then x.mem else Memory.writeWord x.mem a.addr.toNat a.data a.enables }
  | none => x

/-- A write is forwarded and waits for memory's answer (PASS, REWRITE). -/
def forwardWrite (addr : BitVec 24) (data : Word) (enables : BitVec 4) (x : Path) : Path :=
  { completeEarlier x with access := some ⟨false, addr, data, enables⟩ }

/-- A read is forwarded and waits for memory's answer (PASS). -/
def forwardRead (addr : BitVec 24) (enables : BitVec 4) (x : Path) : Path :=
  { completeEarlier x with access := some ⟨true, addr, 0, enables⟩ }

/-- A read is answered by the part (SUBSTITUTE). -/
def substitute (data : Word) (x : Path) : Path := { completeEarlier x with hostData := data }

/-- What a host access does to the part and to the path. -/
abbrev HostEffect := Part → Path → Part × Path

/-- A write that is forwarded, with an effect of its own on the part. -/
def passWrite (addr : BitVec 24) (d : WriteData) (f : Part → Part) : HostEffect :=
  fun p x => (f p, forwardWrite addr d.data d.enables x)

/-- A write that no block takes part in. -/
def plainWrite (addr : BitVec 24) (d : WriteData) : HostEffect := passWrite addr d id

/-- The byte address of an offset in the bridge area. -/
def Part.areaAddr (p : Part) (offset : Nat) : BitVec 24 := BitVec.ofNat 24 (p.areaBase + offset)

/-! ### The order area (R175) -/

/-- The order word as the bridge forwards it: kind and tag as written, verdict and reason ORD's (Table 12-1). -/
def orderWord (kind tag : Byte) (v : Verdict × Reason) : Word :=
  BitVec.ofNat 32 (kind.toNat + 256 * tag.toNat + 65536 * v.1.code + 16777216 * v.2.code)

/-- The order word as the host wrote it. -/
def hostOrderWord (kind : Byte) (t : Trigger) : Word :=
  BitVec.ofNat 32 (kind.toNat + 256 * t.tag.toNat + 65536 * t.upper.toNat)

/-- A trigger: a full write of a non-zero kind to word 0 of a slot (R175); passed unchanged while TRANSPARENT (R180). -/
def triggerWith (kind : Byte) (judge : Judge) (t : Trigger) : HostEffect := fun p x =>
  let addr := p.areaAddr (t.slot.val * 32)
  if p.asserted then (p, forwardWrite addr (hostOrderWord kind t) 0xF#4 x)
  else
    let r := triggered kind judge t p
    (r.1, forwardWrite addr (orderWord kind t.tag r.2) 0xF#4 x)

/-- A write to word `word + 1` of a slot: passed, and the shadow updated (R175). -/
def writeParameter (slot : Fin 16) (word : Fin 7) (d : WriteData) : HostEffect := fun p x =>
  let f := fun (q : Part) => q.withOrd { q.ord with
    shadows := q.ord.shadows.set slot (q.ord.shadows[slot].set word (mergeBytes q.ord.shadows[slot][word] d.data d.enables)) }
  (if p.asserted then p else f p, forwardWrite (p.areaAddr (slot.val * 32 + (word.val + 1) * 4)) d.data d.enables x)

/-- A partial write to word 0 of a slot: passed, with BAD_ACCESS (R175). -/
def writeOrderPartial (slot : Fin 16) (d : WriteData) : HostEffect := fun p x =>
  (if p.asserted then p else post .badAccess (BitVec.ofNat 16 (slot.val * 32)) p,
   forwardWrite (p.areaAddr (slot.val * 32)) d.data d.enables x)

/-- A write to word 0 of a slot, by its enables and its kind byte (R175). -/
def writeOrderWord (slot : Fin 16) (d : WriteData) : HostEffect := fun p x =>
  if !isFull d.enables then writeOrderPartial slot d p x
  else
    let kind := BitVec.ofNat 8 (byteAt d.data 0)
    if kind = 0 then plainWrite (p.areaAddr (slot.val * 32)) d p x
    else triggerWith kind (judgeOf kind.toNat)
      ⟨slot, BitVec.ofNat 8 (byteAt d.data 1), BitVec.ofNat 16 (halfAt d.data 1)⟩ p x

/-! ### The alive word, the staged areas, the mirror (R176, R177) -/

/-- A write to the alive word (R176, R117). -/
def writeAlive (d : WriteData) : HostEffect := fun p x =>
  (if p.asserted then p else aliveTaken p, forwardWrite (p.areaAddr 0x200) d.data d.enables x)

/-- A write to the settings block (R176, R30). -/
def writeSettings (word : Fin 256) (d : WriteData) : HostEffect := fun p x =>
  (if p.asserted then p else captureSettings word d p, forwardWrite (p.areaAddr (0x400 + word.val * 4)) d.data d.enables x)

/-- A write to the profile area (R176, R29). -/
def writeProfile (word : Fin 2048) (d : WriteData) : HostEffect := fun p x =>
  (if p.asserted then p else captureProfile word d p, forwardWrite (p.areaAddr (0x1000 + word.val * 4)) d.data d.enables x)

/-- A write in the mirror area: dropped and counted (R177); passed while TRANSPARENT (R180). -/
def writeMirror (word : Fin 2048) (d : WriteData) : HostEffect := fun p x =>
  if p.asserted then plainWrite (p.areaAddr (0x4000 + word.val * 4)) d p x
  else (p.withBridge { p.bridge with dropped := sat16 p.bridge.dropped }, completeEarlier x)

/-- EVQ pops the head; an empty queue pops nothing (R189). -/
def Evq.popped (q : Evq) : Evq :=
  match q.queue with
  | [] => q
  | _ :: rest => { q with queue := rest, generation := q.generation + 1 }

/-- The side effect of a full read of a mirror word: the fourth head word pops, the fault summary clears (R177). -/
def readEffect (offset : Nat) (p : Part) : Part :=
  if offset = 0x4F10 then p.withEvq p.evq.popped
  else if offset = 0x4F44 then p.withEvq { p.evq with faults := 0 }
  else p

/-- A read in the mirror area: answered by the part, its side effect only when full (R177); passed while TRANSPARENT (R180). -/
def readMirror (offset : Nat) (enables : BitVec 4) : HostEffect := fun p x =>
  if p.asserted then (p, forwardRead (p.areaAddr offset) enables x)
  else (if isFull enables then readEffect offset p else p, substitute (mirrorWord offset p) x)

/-! ### Guarded writes (R85, R86, R178) -/

/-- The enabled guard slot of a word address, if there is one (R178). -/
def guardAt (a : Nat) (p : Part) : Option (Fin 4) :=
  allGuards.find? fun i => p.bridge.guards[i].enabled && p.bridge.guards[i].address.toNat == a

/-- The bounds of a slot as they stand: its own, or 0 and the speed bound (R84). -/
def guardBounds (g : Guard) (p : Part) : Nat × Nat :=
  if g.kind == .speed then (0, speedBound p) else (g.low.toNat, g.high.toNat)

/-- A violation is recorded: counted, its value stored, GUARD_VIOLATION posted (R86). -/
def guardViolation (i : Fin 4) (value : Word) (outcome : Nat) (p : Part) : Part :=
  post .guardViolation (arg2 i.val outcome)
    (setGuardSlot i (fun g => { g with violations := sat8 g.violations, last := value }) p)

/-- A write to a guarded word (R85, R86). -/
def guardedWrite (i : Fin 4) (addr : BitVec 24) (d : WriteData) : HostEffect := fun p x =>
  let g := p.bridge.guards[i]
  let b := guardBounds g p
  if !isFull d.enables then (guardViolation i (d.data &&& enableMask d.enables) 4 p, completeEarlier x)
  else if b.1 ≤ d.data.toNat && d.data.toNat ≤ b.2 then plainWrite addr d p x
  else match g.action with
    | .keep => (guardViolation i d.data 2 p, completeEarlier x)
    | .pass => (guardViolation i d.data 3 p, forwardWrite addr d.data 0xF#4 x)
    | _ => (guardViolation i d.data 1 p,
            forwardWrite addr (BitVec.ofNat 32 (if d.data.toNat < b.1 then b.1 else b.2)) 0xF#4 x)

/-! ### A write by its address (Tables 10-2 and 10-3) -/

/-- A write in the bridge area, by its offset (Table 10-2). -/
def writeArea (offset : Nat) (addr : BitVec 24) (d : WriteData) : HostEffect := fun p x =>
  if h : offset < 0x200 then
    let slot : Fin 16 := ⟨offset / 32, by omega⟩
    if h0 : offset % 32 / 4 = 0 then writeOrderWord slot d p x
    else writeParameter slot ⟨offset % 32 / 4 - 1, by omega⟩ d p x
  else if offset < 0x204 then writeAlive d p x
  else if h1 : 0x400 ≤ offset ∧ offset < 0x800 then writeSettings ⟨(offset - 0x400) / 4, by omega⟩ d p x
  else if h2 : 0x1000 ≤ offset ∧ offset < 0x3000 then writeProfile ⟨(offset - 0x1000) / 4, by omega⟩ d p x
  else if h3 : 0x4000 ≤ offset ∧ offset < 0x6000 then writeMirror ⟨(offset - 0x4000) / 4, by omega⟩ d p x
  else plainWrite addr d p x

/-- A host write of the word at an address, decoded (R174, R178): the bridge area, a guarded word, or ordinary memory. While
TRANSPARENT it is passed (R180). -/
def hostWrite (addr : BitVec 24) (d : WriteData) : HostEffect := fun p x =>
  let a := addr.toNat / 4 * 4
  if p.asserted then plainWrite (BitVec.ofNat 24 a) d p x
  else if p.inArea a then writeArea (a - p.areaBase) (BitVec.ofNat 24 a) d p x
  else match guardAt a p with
    | some i => guardedWrite i (BitVec.ofNat 24 a) d p x
    | none => plainWrite (BitVec.ofNat 24 a) d p x

/-! ### A read by its address (Tables 10-2 and 10-3) -/

/-- A host read of the word at an address, decoded (R174): in the mirror area it is answered by the part (R177), and everywhere else, in
the bridge area or outside it, guarded or not, it is forwarded (R173, R175, R176, R178). While TRANSPARENT it is forwarded (R180). -/
def hostRead (r : HostRead) : HostEffect := fun p x =>
  let a := r.addr.toNat / 4 * 4
  if !p.asserted && p.inArea a && 0x4000 ≤ a - p.areaBase && a - p.areaBase < 0x6000 then
    readMirror (a - p.areaBase) r.enables p x
  else (p, forwardRead (BitVec.ofNat 24 a) r.enables x)

/-! ### Memory's answer (R179) -/

/-- Memory answers the forwarded access; with none waiting a late answer is ignored (R179). -/
def memoryAnswers (data : Word) (x : Path) : Path :=
  match x.access with
  | some a => if a.isRead then { x with access := none, hostData := data } else completeEarlier x
  | none => x

/-- The 50 µs have passed: the bridge completes the access itself; a write may or may not have reached memory (R179, log 5). -/
def memoryTimesOut : HostEffect := fun p x =>
  match x.access with
  | none => (p, x)
  | some a =>
    let q := if p.asserted then p else post .memoryTimeout (if a.isRead then 1 else 2) p
    if a.isRead then (q, { x with access := none, hostData := 0xFFFFFFFF#32 })
    else (q.withFreeCount (q.freeCount + 1),
          if Config.timeoutWriteLands p.freeCount then completeEarlier x else { x with access := none })

end Sys2Proof.Machine
end

