-- ==== Sys2Proof/Machine/Resets.lean ====
section
/-! DEFINITION. The two reset inputs (R180, and the reset rules of each chapter: R24, R37, R41, R48, R57, R68, R90, R105, R119, R140,
R157, R172, R181, R185, R192), and the levels of the reservoir switch and the crew key. -/

namespace Sys2Proof.Machine

/-! ### Rows that only act while no reset, or no cold reset, is asserted -/

/-- A change that cold reset holds off. -/
def live (f : Part → Part) (p : Part) : Part := if p.coldLine then p else f p

/-- A change that either reset holds off. -/
def active (f : Part → Part) (p : Part) : Part := if p.asserted then p else f p

/-- The reservoir-charged switch: its level, and its closing in AWAIT_RESERVOIR (R115). -/
def reservoirLevel (closed : Bool) (p : Part) : Part :=
  let rises := closed && !p.brk.inputs.reservoir
  let q := p.withBrk { p.brk with inputs := { p.brk.inputs with reservoir := closed } }
  if rises && !q.coldLine && q.mod.charge == .awaitReservoir then chargeDone q else q

/-- The crew key: its level, and a wake at a rising edge (R116); an edge while a reset is asserted is not acted on. -/
def crewKeyLevel (level : Bool) (p : Part) : Part :=
  let rises := level && !p.mod.crewKey
  let q := p.withMod { p.mod with crewKey := level }
  if rises && !q.asserted then wakeCar .crewKey q else q

/-! ### Assertion -/

/-- The link at an assertion: LISTEN, no PTT, no frame in assembly, send buffer or queue; the timers stopped (R157, log 18). -/
def quietLink (l : Link) : Link :=
  { l with ptt := false, state := .listen, assembler := .outside, flowHold := false, deferTimer := none, keyUpTimer := none,
           pauseTimer := none, tailTimer := none, sendBuffer := none, queue := [] }

/-- What either assertion does: guards disabled, orders ended without ORDER_DONE, the activation and the capture abandoned, the link
quiet, the mailbox emptied, the brake operation discarded (R24, R37, R57, R90, R157, R172, R180, R185). -/
def abandonAll (p : Part) : Part :=
  let q := p.withBridge { p.bridge with guards := Vector.replicate 4 Guard.off }
  let q := q.withOrd Ord.cold
  let q := q.withPrf { q.prf with copying := none }
  let q := q.withOdo { q.odo with capture := .idle }
  let q := q.withLink (quietLink q.link)
  let q := q.withMsg { q.msg with mailbox := [] }
  let q := q.withDor { q.dor with openAffectedLeft := 0, openAffectedRight := 0, closeAffectedLeft := 0, closeAffectedRight := 0 }
  q.withBrk { q.brk with state := .settled }

/-- A demand entry is written without events and without an operation, as a reset does (log 17). -/
def quietEntry (d : DemandSource) (s : Stage) (cause : Nat) (p : Part) : Part :=
  let e := p.entry d
  let e' := if e.stage.value < s.value then { e with stage := s, cause := causeByte s cause, setTime := p.now, setPos := p.odo.pos }
            else { e with stage := s, cause := causeByte s cause }
  let q := writeEntry d e' p
  q.withBrk { q.brk with commanded := highestStage q.brk.table }

/-- A running test is abandoned: its step in progress NOT_RUN with time 0, also one in its hold, the record ABORTED, RESET; the mode TEST
returns to STAND, with its MODE entry (R66, R119, R185, log 17). -/
def abandonTest (p : Part) : Part :=
  match p.brk.test with
  | some t =>
    let q := markStep t.step .notRun p
    let q := q.withBrk { q.brk with test := none, record := { q.brk.record with outcome := .aborted, abort := .reset } }
    let q := if q.mod.mode == .test then q.withMod { q.mod with mode := .stand } else q
    quietEntry .test .released 0 (quietEntry .mode (modeRequest q.mod.mode q.charging).1 (modeRequest q.mod.mode q.charging).2 q)
  | none => p

/-- Warm reset is asserted; under an asserted cold reset, or when it stands already, only the input is kept (log 16). -/
def assertWarm (p : Part) : Part :=
  if p.coldLine || p.warmLine then p.withWarmLine true else abandonTest (abandonAll (p.withWarmLine true))

/-- Cold reset is asserted. -/
def assertCold (p : Part) : Part := if p.coldLine then p else abandonTest (abandonAll (p.withColdLine true))

/-! ### Release of cold reset -/

/-- A door after cold reset, its inputs sampled (R140). -/
def coldDoor (r : Door) : Door := Door.cold r.cl r.fo r.ob r.pb r.eh

/-- The eight doors after cold reset. -/
def coldDoors (v : Vector Door 8) : Vector Door 8 :=
  #v[coldDoor v[0], coldDoor v[1], coldDoor v[2], coldDoor v[3], coldDoor v[4], coldDoor v[5], coldDoor v[6], coldDoor v[7]]

/-- The part at its defaults, before the changes of the release: the levels of the lines sampled, the straps latched, the event queue
empty, the generation words 0, and no timer of MOD started (Tables 1-5 to 11-7). -/
def coldDefaults (base : BitVec 4) (rate : BitVec 2) (p : Part) : Part :=
  { now := 0, coldLine := false, warmLine := p.warmLine, freeCount := p.freeCount,
    bridge := { base := base, guards := Vector.replicate 4 Guard.off, dropped := 0, generations := Vector.replicate 11 0 },
    ord := Ord.cold,
    evq := { queue := [], next := 0, lost := 0, faults := 0, generation := 0 },
    odo := Odo.cold p.odo.p1.quad p.odo.p2.quad p.odo.w.quad,
    prf := Prf.cold, ssu := Ssu.cold, aut := Aut.cold, brk := Brk.cold p.brk.inputs,
    mod := { Mod.cold p.mod.crewKey with silence := none },
    dor := Dor.cold (coldDoors p.dor.doors),
    link := Link.cold rate p.link.cd, msg := Msg.cold }

/-- DOOR_FAULT for a door found without CL (R140). -/
def coldDoorFault (d : Fin 8) (p : Part) : Part :=
  if (p.door d).state == .faulted then post .doorFault (arg2 d.val (p.door d).fault.code) p else p

/-- The changes of the release: COLD_START, the doors and their entry, the timers, the brake toward the commanded stage, and the
evaluations (R57, R90, R105, R115, R117, R140, R192). -/
def coldStart (p : Part) : Part :=
  let q := postAt .coldStart (arg2 p.bridge.base.toNat p.link.bitRate.toNat) 0 true p
  let q := formDoors (allDoors.foldl (fun x d => coldDoorFault d x) q)
  let q := q.withMod { q.mod with charge := .timing q.now, silence := some q.now }
  let q := if q.asserted then q else startOperation q.brk.commanded q
  ssuEvaluate (autNumbers q)

/-- Cold reset is released (R174, R181, R192); the generation words are those of the changes of the release (log 15). -/
def releaseCold (base : BitVec 4) (rate : BitVec 2) (p : Part) : Part :=
  if p.coldLine then
    let d := coldDefaults base rate p
    raiseChanged d (coldStart d)
  else p

/-! ### Release of warm reset -/

/-- Every generation word is one more than at `p` (R191, log 15). -/
def raiseAll (p q : Part) : Part :=
  let r := allSections.foldl (fun x s => raiseGeneration s x)
    (q.withBridge { q.bridge with generations := p.bridge.generations })
  r.withEvq { r.evq with generation := p.evq.generation + 1 }

/-- The event queue emptied, the fault summary and the dropped count cleared, then WARM_START (R192). -/
def warmEvents (p : Part) : Part :=
  let q := p.withEvq { p.evq with queue := [], lost := 0, faults := 0 }
  let q := q.withBridge { q.bridge with dropped := 0 }
  post .warmStart (BitVec.ofNat 16 q.mod.mode.code) q

/-- The timers that restart at the release of warm reset (R18, R117, R167). -/
def warmTimers (p : Part) : Part :=
  let q := p.withOdo { p.odo with standTimer := some p.now }
  let q := q.withMod { q.mod with silence := some q.now, hostSilent := false }
  q.withMsg { q.msg with reportTimer := if q.mod.mode == .stabled then none else some q.now }

/-- The changes of the release: the order slots and the transmit queue as after the assertion, WARM_START, the timers, the brake
started toward the commanded stage, the end of TIMING judged, and the evaluations (R57, R70, R105, R115, R181, R185). -/
def warmStart (p : Part) : Part :=
  let q := warmEvents ((p.withOrd Ord.cold).withLink { p.link with queue := [] })
  let q := warmTimers q
  autoStand (ssuEvaluate (autNumbers (judgeCharge (startOperation q.brk.commanded q))))

/-- Warm reset is released; under an asserted cold reset only the input is kept (log 16). -/
def releaseWarm (p : Part) : Part :=
  if !p.warmLine then p
  else if p.coldLine then p.withWarmLine false
  else raiseAll p (warmStart (p.withWarmLine false))

end Sys2Proof.Machine
end

