-- ==== Sys2Proof/Machine/Rows.lean ====
section
/-! DEFINITION. The two forms of a row's meaning: a change of the part alone, and a host access, which also moves the memory path. Both end
with what every change ends with (`finish`). -/

namespace Sys2Proof.Machine

/-- What a row answers. -/
abbrev Result := Host.Outcome State Fault Refusal

/-- A row that changes the part and never the memory path. -/
def partRow (f : Part → Part) (s : State) : Result := .next { s with part := finish s.part (f s.part) }

/-- A row that is a host access, or memory's answer to one. -/
def hostRow (f : HostEffect) (s : State) : Result :=
  .next { s with part := finish s.part (f s.part s.path).1, path := (f s.part s.path).2 }

end Sys2Proof.Machine
end

