-- ==== Sys2Proof/Machine/FieldRows.lean ====
section
/-! DEFINITION. Meanings: the rows of the field inputs and of the timers of ODO, PRF, BRK, MOD and DOR. -/

namespace Sys2Proof.Machine

/-- ENCODER_STEP (R1): the phase lines of an encoder. -/
def execEncoderStep (e : Encoder) (levels : BitVec 2) (s : State) : Result := partRow (encoderLines e levels) s

/-- SPEED_WINDOW_TICK (R17): one millisecond of the time base. -/
def execSpeedWindowTick (s : State) : Result := partRow (live fun p => windowTick (p.withNow (p.now + 1))) s

/-- STANDSTILL_TIMER_EXPIRY (R18): the standstill timer. -/
def execStandstillTimerExpiry (s : State) : Result := partRow standstillExpiry s

/-- INDEX_PULSE (R20): an index pulse of a pinion. -/
def execIndexPulse (x : Pinion) (s : State) : Result := partRow (live (indexPulse x)) s

/-- DATUM_RISING_EDGE (R19): the rising edge of the datum sensor. -/
def execDatumRisingEdge (s : State) : Result := partRow datumRise s

/-- DATUM_FALLING_EDGE (R21): the falling edge of the datum sensor. -/
def execDatumFallingEdge (s : State) : Result := partRow (live datumFall) s

/-- COPY_COMPLETION (R38): the activation copy completes. -/
def execCopyCompletion (s : State) : Result := partRow (live copyCompleted) s

/-- BRAKE_FEEDBACK_CHANGE (R52): a feedback input of the brake. -/
def execBrakeFeedbackChange (sw : FeedbackSwitch) (closed : Bool) (s : State) : Result :=
  partRow (feedbackChange sw closed) s

/-- APPLYING_DEADLINE_EXPIRY (R53): an APPLYING deadline. -/
def execApplyingDeadlineExpiry (s : State) : Result := partRow applyingExpiry s

/-- RELEASING_DEADLINE_EXPIRY (R56): a RELEASING deadline. -/
def execReleasingDeadlineExpiry (s : State) : Result := partRow releasingExpiry s

/-- TEST_HOLD_END (R63): the hold of a test step. -/
def execTestHoldEnd (s : State) : Result := partRow holdEnd s

/-- RESERVOIR_SWITCH_CHANGE (R115): the reservoir-charged switch. -/
def execReservoirSwitchChange (closed : Bool) (s : State) : Result := partRow (reservoirLevel closed) s

/-- CHARGE_TIMING_END (R115): the TIMING phase of the charge wait. -/
def execChargeTimingEnd (s : State) : Result := partRow (active judgeCharge) s

/-- CREW_KEY_EDGE (R116): the crew key. -/
def execCrewKeyEdge (level : Bool) (s : State) : Result := partRow (crewKeyLevel level) s

/-- SILENCE_TIMER_EXPIRY (R117): the silence timer. -/
def execSilenceTimerExpiry (s : State) : Result := partRow silenceExpiry s

/-- DOOR_CL_EDGE (R123): the CL input of a door. -/
def execDoorClEdge (d : Fin 8) (closed : Bool) (s : State) : Result := partRow (doorLevel d .cl closed) s

/-- DOOR_FO_EDGE (R122): the FO input of a door. -/
def execDoorFoEdge (d : Fin 8) (closed : Bool) (s : State) : Result := partRow (doorLevel d .fo closed) s

/-- DOOR_OB_EDGE (R123): the OB input of a door. -/
def execDoorObEdge (d : Fin 8) (closed : Bool) (s : State) : Result := partRow (doorLevel d .ob closed) s

/-- DOOR_PB_EDGE (R122): the PB input of a door. -/
def execDoorPbEdge (d : Fin 8) (closed : Bool) (s : State) : Result := partRow (doorLevel d .pb closed) s

/-- DOOR_EH_EDGE (R135): the EH input of a door. -/
def execDoorEhEdge (d : Fin 8) (closed : Bool) (s : State) : Result := partRow (doorLevel d .eh closed) s

/-- MOTION_TIMER_EXPIRY (R124): the motion timer of a door. -/
def execMotionTimerExpiry (d : Fin 8) (s : State) : Result := partRow (live (motionExpiry d)) s

/-- PERMIT_LIFETIME_EXPIRY (R134): the lifetime of a permit. -/
def execPermitLifetimeExpiry (platform : Byte) (s : State) : Result := partRow (live (permitExpiry platform)) s

end Sys2Proof.Machine
end

