-- ==== Sys2Proof/Machine/HostRows.lean ====
section
/-! DEFINITION. Meanings: the rows of the host's other accesses and of memory's answer. -/

namespace Sys2Proof.Machine

/-- PARAMETER_WORD_WRITE (R175): a write to a parameter word. -/
def execParameterWordWrite (slot : Fin 16) (word : Fin 7) (d : WriteData) (s : State) : Result :=
  hostRow (writeParameter slot word d) s

/-- ORDER_WORD_PARTIAL_WRITE (R175): a partial write to an order word. -/
def execOrderWordPartialWrite (slot : Fin 16) (d : WriteData) (s : State) : Result := hostRow (writeOrderPartial slot d) s

/-- ALIVE_WRITE (R176): a write to the alive word. -/
def execAliveWrite (d : WriteData) (s : State) : Result := hostRow (writeAlive d) s

/-- SETTINGS_WRITE (R30): a write to the settings block. -/
def execSettingsWrite (word : Fin 256) (d : WriteData) (s : State) : Result := hostRow (writeSettings word d) s

/-- PROFILE_WRITE (R29): a write to the profile area. -/
def execProfileWrite (word : Fin 2048) (d : WriteData) (s : State) : Result := hostRow (writeProfile word d) s

/-- EVENT_HEAD_POP (R189): a read of the fourth head word. -/
def execEventHeadPop (enables : BitVec 4) (s : State) : Result := hostRow (readMirror 0x4F10 enables) s

/-- FAULT_SUMMARY_READ (R190): a read of the fault summary word. -/
def execFaultSummaryRead (enables : BitVec 4) (s : State) : Result := hostRow (readMirror 0x4F44 enables) s

/-- A host read of any address (R173); the table has no row for it (log 32). -/
def takeRead (r : HostRead) (s : State) : Result := hostRow (hostRead r) s

/-- MIRROR_WRITE (R177): a write in the mirror area. -/
def execMirrorWrite (word : Fin 2048) (d : WriteData) (s : State) : Result := hostRow (writeMirror word d) s

/-- GUARDED_WRITE (R85): a write to a guarded word. -/
def execGuardedWrite (addr : BitVec 24) (d : WriteData) (s : State) : Result := hostRow (hostWrite addr d) s

/-- ORDINARY_WRITE (R173): a write to ordinary memory. -/
def execOrdinaryWrite (addr : BitVec 24) (d : WriteData) (s : State) : Result := hostRow (hostWrite addr d) s

/-- MEMORY_READY (R179): memory's answer. -/
def execMemoryReady (data : Word) (s : State) : Result := hostRow (fun p x => (p, memoryAnswers data x)) s

/-- MEMORY_TIMEOUT (R179): the end of memory's allowance. -/
def execMemoryTimeout (s : State) : Result := hostRow memoryTimesOut s

end Sys2Proof.Machine
end

