-- ==== Sys2Proof/Machine/OrderRows.lean ====
section
/-! DEFINITION. Meanings: the rows of the order triggers. -/

namespace Sys2Proof.Machine

/-- RUN (R107): the trigger of order kind 1. -/
def execRun (t : Trigger) (s : State) : Result := hostRow (triggerWith 1 (fun _ _ => judgeRun) t) s

/-- STAND (R108): the trigger of order kind 2. -/
def execStand (t : Trigger) (s : State) : Result := hostRow (triggerWith 2 (fun _ _ => judgeStand) t) s

/-- STABLE (R110): the trigger of order kind 3. -/
def execStable (t : Trigger) (s : State) : Result := hostRow (triggerWith 3 (fun _ _ => judgeStable) t) s

/-- WAKE (R116): the trigger of order kind 4. -/
def execWake (t : Trigger) (s : State) : Result := hostRow (triggerWith 4 (fun _ _ => judgeWake) t) s

/-- BRAKE_TEST (R62): the trigger of order kind 5. -/
def execBrakeTest (t : Trigger) (s : State) : Result := hostRow (triggerWith 5 (fun i _ => judgeBrakeTest i) t) s

/-- MAINTENANCE_RELEASE (R113): the trigger of order kind 6. -/
def execMaintenanceRelease (t : Trigger) (s : State) : Result := hostRow (triggerWith 6 (fun _ _ => judgeMaintenance) t) s

/-- BRAKE_REQUEST (R58): the trigger of order kind 7. -/
def execBrakeRequest (t : Trigger) (s : State) : Result := hostRow (triggerWith 7 (fun _ => judgeBrakeRequest) t) s

/-- RESET_DEMAND (R59): the trigger of order kind 8. -/
def execResetDemand (t : Trigger) (s : State) : Result := hostRow (triggerWith 8 (fun _ => judgeResetDemand) t) s

/-- SET_POSITION (R8): the trigger of order kind 9. -/
def execSetPosition (t : Trigger) (s : State) : Result := hostRow (triggerWith 9 (fun _ => judgeSetPosition) t) s

/-- RESET_ENCODER (R3): the trigger of order kind 10. -/
def execResetEncoder (t : Trigger) (s : State) : Result := hostRow (triggerWith 10 (fun _ => judgeResetEncoder) t) s

/-- ACTIVATE_PROFILE (R31): the trigger of order kind 11. -/
def execActivateProfile (t : Trigger) (s : State) : Result := hostRow (triggerWith 11 judgeActivate t) s

/-- ADD_RESTRICTION (R81): the trigger of order kind 12. -/
def execAddRestriction (t : Trigger) (s : State) : Result := hostRow (triggerWith 12 (fun _ => judgeAddRestriction) t) s

/-- REMOVE_RESTRICTION (R82): the trigger of order kind 13. -/
def execRemoveRestriction (t : Trigger) (s : State) : Result :=
  hostRow (triggerWith 13 (fun _ => judgeRemoveRestriction) t) s

/-- RELINQUISH (R100): the trigger of order kind 14. -/
def execRelinquish (t : Trigger) (s : State) : Result := hostRow (triggerWith 14 (fun _ _ => judgeRelinquish) t) s

/-- RELEASE_SIDE (R126): the trigger of order kind 15. -/
def execReleaseSide (t : Trigger) (s : State) : Result := hostRow (triggerWith 15 (fun _ => judgeReleaseSide) t) s

/-- OPEN_SIDE (R128): the trigger of order kind 16. -/
def execOpenSide (t : Trigger) (s : State) : Result := hostRow (triggerWith 16 judgeOpenSide t) s

/-- CLOSE_SIDE (R129): the trigger of order kind 17. -/
def execCloseSide (t : Trigger) (s : State) : Result := hostRow (triggerWith 17 judgeCloseSide t) s

/-- ISOLATE_DOOR (R131): the trigger of order kind 18. -/
def execIsolateDoor (t : Trigger) (s : State) : Result := hostRow (triggerWith 18 (fun _ => judgeIsolateDoor) t) s

/-- RESTORE_DOOR (R132): the trigger of order kind 19. -/
def execRestoreDoor (t : Trigger) (s : State) : Result := hostRow (triggerWith 19 (fun _ => judgeRestoreDoor) t) s

/-- SET_DOOR_EVENTS (R138): the trigger of order kind 20. -/
def execSetDoorEvents (t : Trigger) (s : State) : Result := hostRow (triggerWith 20 (fun _ => judgeSetDoorEvents) t) s

/-- SET_GUARD (R87): the trigger of order kind 21. -/
def execSetGuard (t : Trigger) (s : State) : Result := hostRow (triggerWith 21 (fun _ => judgeSetGuard) t) s

/-- CLEAR_GUARD (R88): the trigger of order kind 22. -/
def execClearGuard (t : Trigger) (s : State) : Result := hostRow (triggerWith 22 (fun _ => judgeClearGuard) t) s

/-- SEND_TEXT (R169): the trigger of order kind 23. -/
def execSendText (t : Trigger) (s : State) : Result := hostRow (triggerWith 23 (fun _ => judgeSendText) t) s

/-- TAKE_MESSAGE (R165): the trigger of order kind 24. -/
def execTakeMessage (t : Trigger) (s : State) : Result := hostRow (triggerWith 24 (fun _ => judgeTakeMessage) t) s

/-- POLL_REPORT (R170): the trigger of order kind 25. -/
def execPollReport (t : Trigger) (s : State) : Result := hostRow (triggerWith 25 (fun _ _ => judgePollReport) t) s

/-- UNKNOWN_KIND_TRIGGER (R183): a trigger of a kind that is not 1 to 25. -/
def execUnknownKindTrigger (kind : Byte) (t : Trigger) (s : State) : Result :=
  hostRow (triggerWith kind (fun _ _ p => (p, .no .unknownKind)) t) s

end Sys2Proof.Machine
end

