-- ==== Sys2Proof/Machine/RadioRows.lean ====
section
/-! DEFINITION. Meanings: the rows of the radio line, of its timers, and of the delivered messages. -/

namespace Sys2Proof.Machine

/-- RX_CHARACTER (R143): a character from the receiver. -/
def execRxCharacter (c : Byte) (parity stop : Bool) (s : State) : Result := partRow (receive c (errored c parity stop)) s

/-- PAUSE (R149): an error-free 0xF4 from the modem. -/
def execPause (s : State) : Result := partRow (receive 0xF4 false) s

/-- RESUME (R153): an error-free 0xF5 from the modem. -/
def execResume (s : State) : Result := partRow (receive 0xF5 false) s

/-- CD_RISE (R150): carrier detect rises. -/
def execCdRise (s : State) : Result := partRow carrierRise s

/-- CD_FALL (R144): carrier detect falls. -/
def execCdFall (s : State) : Result := partRow carrierFall s

/-- GAP_TIMER_EXPIRY (R144): the gap timer of a frame. -/
def execGapTimerExpiry (s : State) : Result := partRow (active gapExpiry) s

/-- DEFER_TIMER_EXPIRY (R150): the defer timer. -/
def execDeferTimerExpiry (s : State) : Result := partRow (active deferExpiry) s

/-- KEY_UP_TIMER_EXPIRY (R151): the key-up timer. -/
def execKeyUpTimerExpiry (s : State) : Result := partRow (active keyUpExpiry) s

/-- TX_CHARACTER_SENT (R152): a character has been sent. -/
def execTxCharacterSent (s : State) : Result := partRow (active characterSent) s

/-- TAIL_TIMER_EXPIRY (R152): the end of TAIL. -/
def execTailTimerExpiry (s : State) : Result := partRow (active tailExpiry) s

/-- PAUSE_TIMER_EXPIRY (R153): the pause timer. -/
def execPauseTimerExpiry (s : State) : Result := partRow (active pauseExpiry) s

/-- LINK_TIMER_EXPIRY (R147): the link timer. -/
def execLinkTimerExpiry (s : State) : Result := partRow (live linkExpiry) s

/-- REPORT_TIMER_EXPIRY (R167): the report timer. -/
def execReportTimerExpiry (s : State) : Result := partRow reportExpiry s

/-- GRANT (R93): a delivered GRANT. -/
def execGrant (src : Sender) (id : Half) (start stop : BitVec 24) (dir : Byte) (cap : Half) (s : State) : Result :=
  partRow (messageRow src 1 (grantTaken ⟨id, start.toNat, stop.toNat, dir.toNat, cap.toNat⟩ src.station)) s

/-- REVOKE (R98): a delivered REVOKE. -/
def execRevoke (src : Sender) (id : Half) (point : BitVec 24) (s : State) : Result :=
  partRow (messageRow src 2 fun p => (revokeTaken id point.toNat p, .acted)) s

/-- RESTRICT (R80): a delivered RESTRICT. -/
def execRestrict (src : Sender) (id : Byte) (start stop : BitVec 24) (limit : Half) (dirs : Byte) (s : State) : Result :=
  partRow (messageRow src 3 (restrictTaken src.station ⟨id.toNat, start.toNat, stop.toNat, limit.toNat, dirs.toNat⟩)) s

/-- LIFT (R82): a delivered LIFT. -/
def execLift (src : Sender) (id : Byte) (s : State) : Result := partRow (messageRow src 4 (liftTaken src.station id)) s

/-- PERMIT (R133): a delivered PERMIT. -/
def execPermit (src : Sender) (platform mask : Byte) (s : State) : Result :=
  partRow (messageRow src 5 (permitTaken src.station platform mask)) s

/-- WITHDRAW (R134): a delivered WITHDRAW. -/
def execWithdraw (src : Sender) (platform : Byte) (s : State) : Result :=
  partRow (messageRow src 6 fun p => (withdrawTaken platform p, .acted)) s

/-- E_STOP (R161): a delivered E_STOP. -/
def execEStop (src : Sender) (s : State) : Result := partRow (messageRow src 7 (eStopTaken src.station)) s

/-- E_RELEASE (R162): a delivered E_RELEASE. -/
def execERelease (src : Sender) (s : State) : Result := partRow (messageRow src 8 (eReleaseTaken src.station)) s

/-- WAKE_MESSAGE (R163): a delivered WAKE. -/
def execWakeMessage (src : Sender) (s : State) : Result := partRow (messageRow src 9 wakeTaken) s

/-- POLL (R163): a delivered POLL. -/
def execPoll (src : Sender) (s : State) : Result := partRow (messageRow src 10 fun p => (handReport p, .acted)) s

/-- TEXT (R164): a delivered TEXT. -/
def execText (src : Sender) (bytes : List Byte) (s : State) : Result := partRow (messageRow src 11 (textTaken src bytes)) s

end Sys2Proof.Machine
end

