-- ==== Sys2Proof/Machine/ResetRows.lean ====
section
/-! DEFINITION. Meanings: the rows of the two reset inputs. -/

namespace Sys2Proof.Machine

/-- COLD_RESET_ASSERT (R180): cold reset is asserted. -/
def execColdResetAssert (s : State) : Result := partRow assertCold s

/-- COLD_RESET_RELEASE (R57): cold reset is released; its generation words are its own. -/
def execColdResetRelease (base : BitVec 4) (rate : BitVec 2) (s : State) : Result :=
  .next { s with part := releaseCold base rate s.part }

/-- WARM_RESET_ASSERT (R185): warm reset is asserted. -/
def execWarmResetAssert (s : State) : Result := partRow assertWarm s

/-- WARM_RESET_RELEASE (R192): warm reset is released; its generation words are its own. -/
def execWarmResetRelease (s : State) : Result := .next { s with part := releaseWarm s.part }

end Sys2Proof.Machine
end

