-- ==== Sys2Proof/Machine/Dispatch.lean ====
section
/-! DEFINITION. The meaning of every command, one arm per constructor. -/

namespace Sys2Proof.Machine

open Sys2Proof

def exec (i : Instr) (s : State) : Host.Outcome State Fault Refusal :=
  match i with
  | .encoderStep e levels => Sys2Proof.Machine.execEncoderStep e levels s
  | .speedWindowTick => Sys2Proof.Machine.execSpeedWindowTick s
  | .standstillTimerExpiry => Sys2Proof.Machine.execStandstillTimerExpiry s
  | .indexPulse x => Sys2Proof.Machine.execIndexPulse x s
  | .datumRisingEdge => Sys2Proof.Machine.execDatumRisingEdge s
  | .datumFallingEdge => Sys2Proof.Machine.execDatumFallingEdge s
  | .copyCompletion => Sys2Proof.Machine.execCopyCompletion s
  | .brakeFeedbackChange sw closed => Sys2Proof.Machine.execBrakeFeedbackChange sw closed s
  | .applyingDeadlineExpiry => Sys2Proof.Machine.execApplyingDeadlineExpiry s
  | .releasingDeadlineExpiry => Sys2Proof.Machine.execReleasingDeadlineExpiry s
  | .testHoldEnd => Sys2Proof.Machine.execTestHoldEnd s
  | .reservoirSwitchChange closed => Sys2Proof.Machine.execReservoirSwitchChange closed s
  | .chargeTimingEnd => Sys2Proof.Machine.execChargeTimingEnd s
  | .crewKeyEdge level => Sys2Proof.Machine.execCrewKeyEdge level s
  | .silenceTimerExpiry => Sys2Proof.Machine.execSilenceTimerExpiry s
  | .doorClEdge d closed => Sys2Proof.Machine.execDoorClEdge d closed s
  | .doorFoEdge d closed => Sys2Proof.Machine.execDoorFoEdge d closed s
  | .doorObEdge d closed => Sys2Proof.Machine.execDoorObEdge d closed s
  | .doorPbEdge d closed => Sys2Proof.Machine.execDoorPbEdge d closed s
  | .doorEhEdge d closed => Sys2Proof.Machine.execDoorEhEdge d closed s
  | .motionTimerExpiry d => Sys2Proof.Machine.execMotionTimerExpiry d s
  | .permitLifetimeExpiry platform => Sys2Proof.Machine.execPermitLifetimeExpiry platform s
  | .rxCharacter c parityError framingError => Sys2Proof.Machine.execRxCharacter c parityError framingError s
  | .pause => Sys2Proof.Machine.execPause s
  | .resume => Sys2Proof.Machine.execResume s
  | .cdRise => Sys2Proof.Machine.execCdRise s
  | .cdFall => Sys2Proof.Machine.execCdFall s
  | .gapTimerExpiry => Sys2Proof.Machine.execGapTimerExpiry s
  | .deferTimerExpiry => Sys2Proof.Machine.execDeferTimerExpiry s
  | .keyUpTimerExpiry => Sys2Proof.Machine.execKeyUpTimerExpiry s
  | .txCharacterSent => Sys2Proof.Machine.execTxCharacterSent s
  | .tailTimerExpiry => Sys2Proof.Machine.execTailTimerExpiry s
  | .pauseTimerExpiry => Sys2Proof.Machine.execPauseTimerExpiry s
  | .linkTimerExpiry => Sys2Proof.Machine.execLinkTimerExpiry s
  | .reportTimerExpiry => Sys2Proof.Machine.execReportTimerExpiry s
  | .grant src id start stop dir cap => Sys2Proof.Machine.execGrant src id start stop dir cap s
  | .revoke src id point => Sys2Proof.Machine.execRevoke src id point s
  | .restrict src id start stop limit dirs => Sys2Proof.Machine.execRestrict src id start stop limit dirs s
  | .lift src id => Sys2Proof.Machine.execLift src id s
  | .permit src platform mask => Sys2Proof.Machine.execPermit src platform mask s
  | .withdraw src platform => Sys2Proof.Machine.execWithdraw src platform s
  | .eStop src => Sys2Proof.Machine.execEStop src s
  | .eRelease src => Sys2Proof.Machine.execERelease src s
  | .wakeMessage src => Sys2Proof.Machine.execWakeMessage src s
  | .poll src => Sys2Proof.Machine.execPoll src s
  | .text src bytes => Sys2Proof.Machine.execText src bytes s
  | .run t => Sys2Proof.Machine.execRun t s
  | .stand t => Sys2Proof.Machine.execStand t s
  | .stable t => Sys2Proof.Machine.execStable t s
  | .wake t => Sys2Proof.Machine.execWake t s
  | .brakeTest t => Sys2Proof.Machine.execBrakeTest t s
  | .maintenanceRelease t => Sys2Proof.Machine.execMaintenanceRelease t s
  | .brakeRequest t => Sys2Proof.Machine.execBrakeRequest t s
  | .resetDemand t => Sys2Proof.Machine.execResetDemand t s
  | .setPosition t => Sys2Proof.Machine.execSetPosition t s
  | .resetEncoder t => Sys2Proof.Machine.execResetEncoder t s
  | .activateProfile t => Sys2Proof.Machine.execActivateProfile t s
  | .addRestriction t => Sys2Proof.Machine.execAddRestriction t s
  | .removeRestriction t => Sys2Proof.Machine.execRemoveRestriction t s
  | .relinquish t => Sys2Proof.Machine.execRelinquish t s
  | .releaseSide t => Sys2Proof.Machine.execReleaseSide t s
  | .openSide t => Sys2Proof.Machine.execOpenSide t s
  | .closeSide t => Sys2Proof.Machine.execCloseSide t s
  | .isolateDoor t => Sys2Proof.Machine.execIsolateDoor t s
  | .restoreDoor t => Sys2Proof.Machine.execRestoreDoor t s
  | .setDoorEvents t => Sys2Proof.Machine.execSetDoorEvents t s
  | .setGuard t => Sys2Proof.Machine.execSetGuard t s
  | .clearGuard t => Sys2Proof.Machine.execClearGuard t s
  | .sendText t => Sys2Proof.Machine.execSendText t s
  | .takeMessage t => Sys2Proof.Machine.execTakeMessage t s
  | .pollReport t => Sys2Proof.Machine.execPollReport t s
  | .unknownKindTrigger kind t => Sys2Proof.Machine.execUnknownKindTrigger kind t s
  | .parameterWordWrite slot word d => Sys2Proof.Machine.execParameterWordWrite slot word d s
  | .orderWordPartialWrite slot d => Sys2Proof.Machine.execOrderWordPartialWrite slot d s
  | .aliveWrite d => Sys2Proof.Machine.execAliveWrite d s
  | .settingsWrite word d => Sys2Proof.Machine.execSettingsWrite word d s
  | .profileWrite word d => Sys2Proof.Machine.execProfileWrite word d s
  | .eventHeadPop enables => Sys2Proof.Machine.execEventHeadPop enables s
  | .faultSummaryRead enables => Sys2Proof.Machine.execFaultSummaryRead enables s
  | .mirrorWrite word d => Sys2Proof.Machine.execMirrorWrite word d s
  | .guardedWrite addr d => Sys2Proof.Machine.execGuardedWrite addr d s
  | .ordinaryWrite addr d => Sys2Proof.Machine.execOrdinaryWrite addr d s
  | .memoryReady data => Sys2Proof.Machine.execMemoryReady data s
  | .memoryTimeout => Sys2Proof.Machine.execMemoryTimeout s
  | .coldResetAssert => Sys2Proof.Machine.execColdResetAssert s
  | .coldResetRelease base rate => Sys2Proof.Machine.execColdResetRelease base rate s
  | .warmResetAssert => Sys2Proof.Machine.execWarmResetAssert s
  | .warmResetRelease => Sys2Proof.Machine.execWarmResetRelease s

end Sys2Proof.Machine
end

