-- ==== Sys2Proof/Machine/Step.lean ====
section
/-! DEFINITION. One step: the command at the front of the queue is run with the queue's rest; with no command waiting, the host's next
read is taken, and with none of those the block idles (log 1, log 32). -/

namespace Sys2Proof.Machine

def step (s : State) : Host.Outcome State Fault Refusal :=
  match s.pending with
  | c :: rest => exec c { s with pending := rest }
  | [] =>
    match s.reads with
    | r :: rest => Sys2Proof.Machine.takeRead r { s with reads := rest }
    | [] => .next s

/-- `s` with the command that a table word spells at the front of its queue; no word spells one, so `s` (log 1). -/
def State.withFetchWord (s : State) (nbits w : Nat) : State :=
  match decodeTableWord nbits w with
  | some c => { s with pending := c :: s.pending }
  | none => s

end Sys2Proof.Machine
end

