-- ==== Sys2Proof/Safety.lean ====
section
/-! DEFINITION. What the spec says always holds, as predicates of the part and of the state: the laws printed bold in the chapters, and
the canonical form of memory. -/

namespace Sys2Proof.Safety

open Sys2Proof.Machine

/-- Each stored event's sequence is one more, modulo 65536, than that of the entry before it, and the next sequence is one more than
the last (R188). -/
def sequencesRun (next : Half) : List Event → Prop
  | [] => True
  | [e] => e.sequence + 1 = next
  | e :: f :: rest => e.sequence + 1 = f.sequence ∧ sequencesRun next (f :: rest)

/-- The law of R188: at most 64 entries, their sequences without a gap. -/
def eventQueue (p : Part) : Prop := p.evq.queue.length ≤ 64 ∧ sequencesRun p.evq.next p.evq.queue

/-- The law of R45: the commanded stage is the highest stage any entry requests. -/
def commandedHighest (p : Part) : Prop := p.brk.commanded = highestStage p.brk.table

/-- The link states that assert PTT (R149). -/
def assertsPtt (l : LinkState) : Bool := l == .keyUp || l == .sending || l == .paused || l == .tail

/-- The law of R149: PTT is asserted only in KEY_UP, SENDING, PAUSED and TAIL. -/
def pttStates (p : Part) : Prop := p.link.ptt = true → assertsPtt p.link.state = true

/-- Frames stand in the order of their classes. -/
def classOrdered : List TxFrame → Prop
  | [] => True
  | [_] => True
  | f :: g :: rest => f.cls.code ≤ g.cls.code ∧ classOrdered (g :: rest)

/-- The law of R154: the mailbox holds at most 8 messages, the transmit queue at most 4 frames in priority order with at most one
REPORT. -/
def queues (p : Part) : Prop :=
  p.msg.mailbox.length ≤ 8 ∧ p.link.queue.length ≤ 4 ∧ classOrdered p.link.queue
  ∧ (p.link.queue.filter fun f => f.cls == .report).length ≤ 1

/-- Restrictions stand in the order of start and then id. -/
def listOrdered : List Restriction → Prop
  | [] => True
  | [_] => True
  | r :: t :: rest => r.before t = true ∧ listOrdered (t :: rest)

/-- The law of R79: at most 8 entries, ordered by start and then id, no two of the same id. -/
def restrictions (p : Part) : Prop :=
  p.ssu.restrictions.length ≤ 8 ∧ listOrdered p.ssu.restrictions ∧ (p.ssu.restrictions.map Restriction.id).Nodup

/-- The permit list holds at most 4 entries, no two with the same platform id (R133). -/
def permits (p : Part) : Prop := p.dor.permits.length ≤ 4 ∧ (p.dor.permits.map Permit.platform).Nodup

/-- The law of R114: STABLED holds at least BAND, LOCKOUT holds EMERGENCY. -/
def modeHeld (p : Part) : Prop :=
  (p.mod.mode = .stabled → Stage.value .band ≤ p.brk.commanded.value) ∧ (p.mod.mode = .lockout → p.brk.commanded = .emergency)

/-- The first half of the law of R92: NEXT is held only behind a CURRENT that ends where it starts, in the same direction. -/
def slotsContiguous (p : Part) : Prop :=
  ∀ n, p.aut.next = some n → ∃ c, p.aut.current = some c ∧ n.start = c.stop ∧ n.dir = c.dir

/-- The second half of the law of R92: in RUN an authority is held. -/
def runHeld (p : Part) : Prop := p.mod.mode = .run → p.aut.current.isSome = true

/-- The MODE entry is that of the car mode, and never latched (R114). -/
def modeEntry (p : Part) : Prop :=
  (p.entry .mode).latched = false ∧ (p.entry .mode).stage = (modeRequest p.mod.mode p.charging).1

/-- Outside STAND and LOCKOUT every door is LOCKED, FAULTED or ISOLATED (R122, R137). -/
def doorsQuiet (p : Part) : Prop :=
  p.mod.mode ≠ .stand → p.mod.mode ≠ .lockout →
    ∀ d : Fin 8, (p.door d).state = .locked ∨ (p.door d).state = .faulted ∨ (p.door d).state = .isolated

/-- Every door is LOCKED or ISOLATED. -/
def doorsShut (p : Part) : Prop := ∀ d : Fin 8, (p.door d).state = .locked ∨ (p.door d).state = .isolated

/-- The DOORS entry as the table of R137 forms it from the mode and the door states. -/
def doorsFormed (p : Part) : Prop :=
  (p.mod.mode = .run → (∃ d : Fin 8, (p.door d).state = .faulted) → (p.entry .doors).stage = .s3 ∧ (p.entry .doors).cause = 1)
  ∧ (p.mod.mode = .run → (∀ d : Fin 8, (p.door d).state ≠ .faulted) → (p.entry .doors).stage = .released ∧ (p.entry .doors).cause = 0)
  ∧ (p.mod.mode ≠ .run → ¬ doorsShut p → (p.entry .doors).stage = .s2 ∧ (p.entry .doors).cause = 2)
  ∧ (p.mod.mode ≠ .run → doorsShut p → (p.entry .doors).stage = .released ∧ (p.entry .doors).cause = 0)

/-- The law of R13: in RUN with validity UNKNOWN the ODOMETRY entry is latched at EMERGENCY. -/
def lostHeld (p : Part) : Prop :=
  p.mod.mode = .run → p.odo.validity = .unknown → (p.entry .odometry).latched = true ∧ (p.entry .odometry).stage = .emergency

/-- The return to STAND that R109 calls for has been made: no RUN at standstill with a latched entry. -/
def standDone (p : Part) : Prop := ¬ (p.mod.mode = .run ∧ p.odo.standstill = true ∧ p.anyLatched = true)

/-- The sources whose entry can latch: all but ORDERED, MODE, DOORS and TEST (R59). -/
def latches (d : DemandSource) : Bool := d != .ordered && d != .mode && d != .doors && d != .test

/-- ORDERED, MODE, DOORS and TEST are never latched (R59). -/
def neverLatched (p : Part) : Prop := ∀ d, latches d = false → (p.entry d).latched = false

/-- The bookkeeping names this slot for the order of this kind (R184). -/
def timed (o : Ord) (i : Fin 16) (kind : Nat) : Prop :=
  (o.brakeTest = some i ∧ kind = 5) ∨ (o.activate = some i ∧ kind = 11)
  ∨ ((o.openLeft = some i ∨ o.openRight = some i) ∧ kind = 16) ∨ ((o.closeLeft = some i ∨ o.closeRight = some i) ∧ kind = 17)

/-- The bookkeeping of the timed kinds names RUNNING slots of the kind it stands for, and no slot for both sides (R184). -/
def bookkeeping (o : Ord) : Prop :=
  (∀ i k, timed o i k → (o.slots[i]).state = .running ∧ (o.slots[i]).kind.toNat = k)
  ∧ (∀ i, ¬ (o.openLeft = some i ∧ o.openRight = some i)) ∧ ∀ i, ¬ (o.closeLeft = some i ∧ o.closeRight = some i)

/-- Everything above that the changes of the part keep. -/
def lawful (p : Part) : Prop :=
  eventQueue p ∧ commandedHighest p ∧ modeEntry p ∧ pttStates p ∧ queues p ∧ restrictions p ∧ permits p ∧ slotsContiguous p
  ∧ runHeld p ∧ doorsQuiet p ∧ neverLatched p ∧ bookkeeping p.ord ∧ doorsFormed p ∧ lostHeld p

/-- The canonical form of memory. -/
def memory (s : State) : Prop := Memory.wf s.path.mem = true

/-! ### The vocabulary of the statements -/

/-- Events of these kinds, arguments and positions, in order, with their sequences from `next` on and the time `now`. -/
def stamped (next : Half) (now : Word) : List (EventKind × Half × Word) → List Event
  | [] => []
  | (k, arg, pos) :: rest => ⟨next, now, k, arg, pos⟩ :: stamped (next + 1) now rest

/-- A change posts these events first, in this order: where the queue has room for them, they stand right behind the events stored before
(R188). -/
def posts (p q : Part) (l : List (EventKind × Half × Word)) : Prop :=
  p.evq.queue.length + l.length ≤ 64 → (p.evq.queue ++ stamped p.evq.next p.now l) <+: q.evq.queue

/-- The last event of a change: where the queue still has room, it stands at its end (R188). -/
def postsLast (k : EventKind) (arg : Half) (q : Part) : Prop :=
  q.evq.queue.length < 64 → q.evq.queue.getLast? = some ⟨q.evq.next - 1, q.now, k, arg, q.odo.pos⟩

/-- The bit of a class is set in the fault summary (R190). -/
def flagged (c : FaultClass) (p : Part) : Prop := p.evq.faults.getLsbD c.bit = true

/-- A trigger is judged: no reset is asserted and its slot is not RUNNING (R180, R183). -/
def triggerJudged (u : Trigger) (s : State) : Prop :=
  s.part.asserted = false ∧ (s.part.ord.slots[u.slot]).state ≠ .running

/-- The parameter words 1 to 7 that an order of this trigger works on (R175, R183). -/
def workingCopy (u : Trigger) (s : State) : Vector Word 7 := s.part.ord.shadows[u.slot]

/-- The bridge has forwarded the order word with this verdict and reason (R175). -/
def orderForwarded (kind : Byte) (u : Trigger) (v : Verdict) (r : Reason) (s t : State) : Prop :=
  t.path.access = some ⟨false, s.part.areaAddr (u.slot.val * 32), orderWord kind u.tag (v, r), 0xF#4⟩

/-- An immediate order was taken: its slot is DONE with this result, its order word reads TAKEN (R183). -/
def orderDone (kind : Byte) (u : Trigger) (result : Word) (s t : State) : Prop :=
  (t.part.ord.slots[u.slot]).state = .done ∧ (t.part.ord.slots[u.slot]).verdict = .taken
  ∧ (t.part.ord.slots[u.slot]).reason = .ok ∧ (t.part.ord.slots[u.slot]).result = result
  ∧ orderForwarded kind u .taken .ok s t

/-- An order was refused: its slot is REFUSED with this reason and result, its order word reads REFUSED (R183). -/
def orderRefused (kind : Byte) (u : Trigger) (r : Reason) (result : Word) (s t : State) : Prop :=
  (t.part.ord.slots[u.slot]).state = .refused ∧ (t.part.ord.slots[u.slot]).verdict = .refused
  ∧ (t.part.ord.slots[u.slot]).reason = r ∧ (t.part.ord.slots[u.slot]).result = result
  ∧ orderForwarded kind u .refused r s t

/-- The conditions of an order in the order they are checked: the first that does not hold refuses with its reason, and where all hold the order is
accepted (R183). -/
def checked (refused : Reason → Prop) (accepted : Prop) : List (Prop × Reason) → Prop
  | [] => accepted
  | (c, r) :: rest => (¬ c → refused r) ∧ (c → checked refused accepted rest)

/-- The position is known well enough for service: PROVISIONAL or CONFIRMED. -/
def placeKnown (p : Part) : Prop := p.odo.validity = .provisional ∨ p.odo.validity = .confirmed

/-- The condition of Table 3-7 that must be gone is gone. -/
def conditionGone (p : Part) : DemandSource → Prop
  | .odometry => p.odo.validity ≠ .unknown ∧ (p.odo.regime = .rack → p.odo.p1.faulted = false ∧ p.odo.p2.faulted = false)
  | .handle => ∀ d : Fin 8, (p.door d).eh = false
  | .radio => p.link.lost = true
  | .silence => p.mod.aliveSeen = true
  | .feedback => p.brk.state = .settled ∧ p.brk.confirmed = p.brk.commanded
  | _ => True

/-- The stage that the owner's condition calls for when its latch is cleared (R59, R102): AUTHORITY requests S3 in RUN while the travel record
is AGAINST, the others nothing. -/
def owedStage (p : Part) : DemandSource → Stage
  | .authority => if p.mod.mode = .run ∧ p.aut.travel = .against then .s3 else .released
  | _ => .released

/-- The owner's action of Table 3-7 at the clearing of its latch. -/
def ownerActs (p : Part) : DemandSource → Prop
  | .supervision => p.ssu.state = .idle
  | .authority => p.aut.overrun = false ∧ p.aut.lateRevoke = false
  | .rollback => p.odo.creep = 0 ∧ p.odo.reverse = 0
  | _ => True

/-- A timed order runs in its slot (R183, R184). -/
def orderRuns (kind : Byte) (u : Trigger) (s t : State) : Prop :=
  (t.part.ord.slots[u.slot]).state = .running ∧ (t.part.ord.slots[u.slot]).verdict = .taken
  ∧ (t.part.ord.slots[u.slot]).reason = .ok ∧ (t.part.ord.slots[u.slot]).result = 0 ∧ orderForwarded kind u .taken .ok s t

/-- A delivery is taken: no reset is asserted and the source is a station (R141, R145). -/
def delivered (src : Sender) (s : State) : Prop := s.part.asserted = false ∧ src.wf = true

/-- The levels of the five inputs of a door (R120). -/
def levels (r : Door) : List Bool := [r.cl, r.fo, r.ob, r.pb, r.eh]

/-- The entry of a source is latched at a stage (R44). -/
def latchedAt (d : DemandSource) (st : Stage) (p : Part) : Prop := (p.entry d).latched = true ∧ st.value ≤ (p.entry d).stage.value

/-- The second quadrature state follows the first in a direction: UP is 00, 01, 11, 10 and back (R1). -/
def follows (q l : BitVec 2) : Dir → Prop
  | .up => (q, l) ∈ [(0#2, 1#2), (1#2, 3#2), (3#2, 2#2), (2#2, 0#2)]
  | .down => (l, q) ∈ [(0#2, 1#2), (1#2, 3#2), (3#2, 2#2), (2#2, 0#2)]

/-- A datum capture has matched at a position (R22): route position is the new one, the mismatch count is 0, no capture stands, and
DATUM_CAPTURED comes first with the correction, held to 16 bits. Where the new position lies in the segment the old one lay in,
validity is CONFIRMED. -/
def captured (new : Word) (p q : Part) : Prop :=
  q.odo.pos = new ∧ q.odo.mismatches = 0 ∧ q.odo.capture = .idle
  ∧ posts p q [(.datumCaptured, BitVec.ofInt 16 (max (-32768) (min 32767 (new.toInt - p.odo.pos.toInt))), new)]
  ∧ (p.odo.segment = segmentIndex new.toInt p.prf.active → q.odo.validity = .confirmed)

/-- The car has woken from STABLED (R116): STAND, the reason recorded, and the charge wait started. -/
def woken (r : WakeReason) (p q : Part) : Prop := q.mod.mode = .stand ∧ q.mod.wakeReason = r ∧ q.mod.charge = .timing p.now

/-- The events of a wake: MODE_CHANGED from STABLED to STAND, cause WAKE, and WAKE (R116). -/
def wakeEvents (r : WakeReason) (p : Part) : List (EventKind × Half × Word) :=
  [(.modeChanged, 0x133, p.odo.pos), (.wake, BitVec.ofNat 16 r.code, p.odo.pos)]

/-- The event a delivery posts first where the link was LOST (R147). -/
def linkEvents (src : Sender) (p : Part) : List (EventKind × Half × Word) :=
  if p.link.lost then [(.linkRestored, BitVec.ofNat 16 src.station.toNat, p.odo.pos)] else []

/-- The permit of a platform id is gone, and with it a release that rested on it (R134). -/
def permitGone (id : Byte) (p q : Part) : Prop :=
  q.dor.permits = p.dor.permits.filter (fun m => m.platform != id)
  ∧ ∀ side, (p.side side).released = true → (p.side side).stationControlled = true → (p.side side).platform = id →
      (q.side side).released = false

/-- A GRANT was accepted: AUTH_GRANTED, the relinquished flag clear, the outcome ACTED (R94, R171). -/
def granted (src : Sender) (id : Half) (p q : Part) : Prop :=
  q.aut.relinquished = false ∧ posts p q (linkEvents src p ++ [(.authGranted, id, p.odo.pos)])
  ∧ postsLast .messageArrived (arg2 1 1) q

/-- A revocation point lies beyond the end of a record (R99). -/
def beyondEnd (c : Authority) (point : Nat) : Prop :=
  match c.dir with
  | .up => c.stop < point
  | .down => point < c.stop

/-- The end a revocation point gives a record: no further back than its start (R99). -/
def heldEnd (c : Authority) (point : Nat) : Nat :=
  match c.dir with
  | .up => max point c.start
  | .down => min point c.start

/-- The fields of a restriction lie in their ranges (R80). -/
def goodFields (r : Restriction) : Prop := r.id ≠ 0 ∧ r.start < r.stop ∧ r.stop ≤ 1048575 ∧ r.limit ≤ 4095

/-- No restriction holds an id. -/
def idFree (id : Byte) (p : Part) : Prop := ∀ r ∈ p.ssu.restrictions, r.id ≠ id

/-- A restriction has been added, or has replaced the entry of its id; the others stand (R80). -/
def placed (r : Restriction) (p q : Part) : Prop :=
  ∀ x, x ∈ q.ssu.restrictions ↔ x = r ∨ (x ∈ p.ssu.restrictions ∧ x.id ≠ r.id)

/-- The restriction of an id is gone; the others stand (R82). -/
def removed (id : Byte) (p q : Part) : Prop := ∀ x, x ∈ q.ssu.restrictions ↔ x ∈ p.ssu.restrictions ∧ x.id ≠ id

/-- The parameter words of ADD RESTRICTION (R81). -/
def asksFor (r : Restriction) (work : Vector Word 7) : Prop :=
  param work 0 = r.id.toNat ∧ param work 1 = r.start ∧ param work 2 = r.stop ∧ param work 3 = r.limit ∧ param work 4 = r.dirs.code

/-- A frame with this class, kind and payload stands in the transmit queue or in the send buffer (R151, R154). -/
def transmits (c : TxClass) (kind : Byte) (payload : List Byte) (p : Part) : Prop :=
  (∃ f ∈ p.link.queue, f.cls = c ∧ f.dest = 0 ∧ f.kind = kind ∧ f.payload = payload)
  ∨ ∃ b, p.link.sendBuffer = some b ∧ b.frame.cls = c ∧ b.frame.dest = 0 ∧ b.frame.kind = kind ∧ b.frame.payload = payload

/-- The transmit queue has a place for a REPORT that is not queued yet: room, or a TEXT it displaces (R154). -/
def reportRoom (p : Part) : Prop := p.link.queue.length < 4 ∨ ∃ f, p.link.queue.getLast? = some f ∧ f.cls = .text

/-- A REPORT has been handed outside STABLED: the report timer restarts, and the frame stands where the queue takes it (R154, R166, R167). -/
def reported (p q : Part) : Prop :=
  q.msg.reportTimer = some p.now
  ∧ (txHasReport p.link.queue = true → ∃ f ∈ q.link.queue, f.cls = .report ∧ f.kind = 16 ∧ f.payload = reportPayload p)
  ∧ (txHasReport p.link.queue = false → reportRoom p → transmits .report 16 (reportPayload p) q)

/-- The transmitter has keyed up with the head frame of the queue (R151). -/
def keyed (p q : Part) : Prop :=
  ∃ f rest, p.link.queue = f :: rest ∧
    let seq := f.sequence.getD p.link.sendSequence
    let source := BitVec.ofNat 8 p.prf.settings.carId
    let bytes := frameBytes f source seq
    q.link = { p.link with
      state := .keyUp, queue := rest, flowHold := false, ptt := true, deferTimer := none, keyUpTimer := some p.now
      sendSequence := if f.sequence = none then p.link.sendSequence + 1 else p.link.sendSequence
      sendBuffer := some ⟨{ f with sequence := some seq }, source, crc16 bytes, none, frameStream bytes (crc16 bytes)⟩ }

/-- LISTEN is entered and looks at the queue (R148). -/
def listens (p q : Part) : Prop :=
  (p.link.queue = [] → q.link = { p.link with state := .listen })
  ∧ (p.link.queue ≠ [] → p.link.cd = true → q.link = { p.link with state := .defer, deferTimer := none })
  ∧ (p.link.queue ≠ [] → p.link.cd = false → keyed p q)

/-- SENDING goes on with the next character of the frame (R152). -/
def sendsNext (b : Sending) (p q : Part) : Prop :=
  q.link = { p.link with
    state := .sending, pauseTimer := none, keyUpTimer := none, sendBuffer := some { b with current := b.rest.head?, rest := b.rest.tail } }

/-- PAUSED is entered with the rest of the frame (R153). -/
def pauses (b : Sending) (p q : Part) : Prop :=
  q.link = { p.link with
    state := .paused, pauseTimer := some p.now, keyUpTimer := none, sendBuffer := some { b with current := none } }

/-- A link on which one more transmit drop is counted (R154). -/
def txCounted (r : TxDrop) (l : Link) : Link := { l with txDrops := l.txDrops.set r.index (sat16 l.txDrops[r.index]) }

/-- A link on which one more receive drop is counted (R145). -/
def rxCounted (r : RxDrop) (l : Link) : Link := { l with rxDrops := l.rxDrops.set r.index (sat16 l.rxDrops[r.index]) }

/-- The event of a receive drop, and its fault bit: OTHER posts nothing, DUPLICATE sets no bit (R145). -/
def dropEvents (r : RxDrop) (p : Part) : List (EventKind × Half × Word) :=
  if r = .other then [] else [(.frameDropped, BitVec.ofNat 16 r.code, p.odo.pos)]

/-- A frame has ended with these changes of the link, and nothing has come of it: the assembler is OUTSIDE, RECEIVING returns to LISTEN, and
the drop is reported (R143 to R145, R148). -/
def frameLost (r : RxDrop) (l : Link) (p q : Part) : Prop :=
  (p.link.state = .receiving → listens { p with link := { rxCounted r l with assembler := .outside } } q)
  ∧ (p.link.state ≠ .receiving → q.link = { rxCounted r l with assembler := .outside })
  ∧ posts p q (dropEvents r p) ∧ (r ≠ .other → r ≠ .duplicate → flagged .radio q)

/-- A frame stands in the queue at the head of its class: what ranks higher stands before it, what does not stands behind it (R155). -/
def headOfClass (f : TxFrame) (old new : List TxFrame) : Prop :=
  ∃ a b, old = a ++ b ∧ new = a ++ f :: b ∧ (∀ g ∈ a, g.cls.code < f.cls.code) ∧ ∀ g ∈ b, f.cls.code ≤ g.cls.code

/-- The bytes of a frame in the assembler (Table 12-8), the two bytes of its CRC last. -/
def frameBuffer (dest source kind sequence : Byte) (payload : List Byte) (crc : Half) : List Byte :=
  [dest, source, kind, sequence, BitVec.ofNat 8 payload.length] ++ payload
    ++ [BitVec.ofNat 8 (crc.toNat / 256), BitVec.ofNat 8 crc.toNat]

/-- The edges of the door inputs: the door, the input, and its new level (R120). -/
def doorEdgeOf : Instr → Option (Fin 8 × DoorInput × Bool)
  | .doorClEdge d b => some (d, .cl, b)
  | .doorFoEdge d b => some (d, .fo, b)
  | .doorObEdge d b => some (d, .ob, b)
  | .doorPbEdge d b => some (d, .pb, b)
  | .doorEhEdge d b => some (d, .eh, b)
  | _ => none

/-- The event an edge posts first where its mask selects it (R138). -/
def edgeEvents (d : Fin 8) (i : DoorInput) (closed : Bool) (p : Part) : List (EventKind × Half × Word) :=
  if edgeSelected p.dor d i closed then
    [(.doorInputEdge, arg3 0 d.val (i.code * 16 + (if closed then 0 else 1)), p.odo.pos)] else []

/-- The events of a door that is FAULTED (R124). -/
def doorFaultEvents (d : Fin 8) (c : DoorFault) (p : Part) : List (EventKind × Half × Word) :=
  [(.doorState, arg2 d.val DoorState.faulted.code, p.odo.pos), (.doorFault, arg2 d.val c.code, p.odo.pos)]

/-- The message commands of the radio, with the source and the kind of each (Table 9-1). -/
def messageOf : Instr → Option (Sender × Nat)
  | .grant src _ _ _ _ _ => some (src, 1)
  | .revoke src _ _ => some (src, 2)
  | .restrict src _ _ _ _ _ => some (src, 3)
  | .lift src _ => some (src, 4)
  | .permit src _ _ => some (src, 5)
  | .withdraw src _ => some (src, 6)
  | .eStop src => some (src, 7)
  | .eRelease src => some (src, 8)
  | .wakeMessage src => some (src, 9)
  | .poll src => some (src, 10)
  | .text src _ => some (src, 11)
  | _ => none

/-- The payload of a message (Table 12-9). -/
def payloadOf : Instr → List Byte
  | .grant _ id start stop dir cap =>
    leBytes 2 id.toNat ++ leBytes 3 start.toNat ++ leBytes 3 stop.toNat ++ [dir] ++ leBytes 2 cap.toNat
  | .revoke _ id point => leBytes 2 id.toNat ++ leBytes 3 point.toNat
  | .restrict _ id start stop limit dirs => [id] ++ leBytes 3 start.toNat ++ leBytes 3 stop.toNat ++ leBytes 2 limit.toNat ++ [dirs]
  | .lift _ id => [id]
  | .permit _ platform mask => [platform, mask]
  | .withdraw _ platform => [platform]
  | .text _ bytes => bytes
  | _ => []

/-- A character comes with an error: its eight bits and its parity bit hold an odd number of ones, or its stop bit is not at the idle level (R141). -/
def badCharacter (c : Byte) (parity stop : Bool) : Prop :=
  (((List.range 8).filter fun i => c.getLsbD i).length + (if parity then 1 else 0)) % 2 = 1 ∨ stop = false

/-- Error-free characters arrive one after the other: each with its parity bit and its stop bit right (R141). -/
def receives : List Byte → State → Host.Outcome State Fault Refusal
  | [], s => .next s
  | c :: cs, s =>
    match exec (.rxCharacter c (evenParity c) true) s with
    | .next t => receives cs t
    | o => o

/-- A state with these generation words (R191). -/
def withGenerations (g : Vector Word 11) (s : State) : State :=
  { s with part := { s.part with bridge := { s.part.bridge with generations := g } } }

/-- Table 1-1: the source by the regime and the faults of P1, P2 and W. -/
def tableSource : Regime → Bool → Bool → Bool → Source
  | .rack, false, _, _ => .p1
  | .rack, true, false, _ => .p2
  | _, _, _, false => .w
  | _, _, _, true => .none

/-- Some encoder could be the source at a position (R8). -/
def sourceAt (pos : Int) (p : Part) : Prop :=
  ∀ i, segmentIndex pos p.prf.active = some i →
    (rackAt p i = true → ¬ (p.odo.p1.faulted = true ∧ p.odo.p2.faulted = true ∧ p.odo.w.faulted = true))
    ∧ (rackAt p i = false → p.odo.w.faulted = false)

/-- The regime set directly at a segment index (R6). -/
def regimeAt (i : Nat) (p : Part) : Regime := if rackAt p i then .rack else .adhesion

/-- A platform part that serves a side and whose window holds the car extent (R126). -/
def platformFor (side : Side) (r : SegRec) (p : Part) : Prop :=
  (r.sideCode = side.code ∨ r.sideCode = 3)
  ∧ (r.windowStart : Int) * 16 ≤ p.odo.pos.toInt - (p.prf.settings.carLength : Int) * 16
  ∧ p.odo.pos.toInt ≤ (r.windowEnd : Int) * 16

/-- A platform that is not station-controlled, or has a live permit whose side mask covers the side (R126). -/
def permitFor (side : Side) (r : SegRec) (p : Part) : Prop :=
  r.stationControlled = true →
    ∃ m ∈ p.dor.permits, m.platform.toNat = r.platformId ∧ (match side with | .left => m.left | .right => m.right) = true

/-- The platform a RELEASE SIDE takes: of the lowest segment index among those that pass (R126). -/
def chosenPlatform (side : Side) (r : SegRec) (p : Part) : Prop :=
  ∃ a b, p.prf.active = a ++ r :: b ∧ platformFor side r p ∧ permitFor side r p
    ∧ ∀ x ∈ a, ¬ (platformFor side x p ∧ permitFor side x p)

/-- A door of a side: D0 to D3 left, D4 to D7 right. -/
abbrev ofSide (side : Side) (d : Fin 8) : Prop := d.val < 4 ↔ side = .left

/-- The orders, with the trigger of each (Table 11-1). -/
def triggerOf : Instr → Option Trigger
  | .run u | .stand u | .stable u | .wake u | .brakeTest u | .maintenanceRelease u | .brakeRequest u | .resetDemand u
  | .setPosition u | .resetEncoder u | .activateProfile u | .addRestriction u | .removeRestriction u | .relinquish u
  | .releaseSide u | .openSide u | .closeSide u | .isolateDoor u | .restoreDoor u | .setDoorEvents u | .setGuard u
  | .clearGuard u | .sendText u | .takeMessage u | .pollReport u | .unknownKindTrigger _ u => some u
  | _ => none

/-- Each byte whose enable is set replaces that byte of the old word (R29, R30, R175). -/
def bytesTaken (old : Word) (d : WriteData) (new : Word) : Prop :=
  ∀ b : Fin 32, new.getLsbD b.val = if d.enables.getLsbD (b.val / 8) then d.data.getLsbD b.val else old.getLsbD b.val

/-- An activation that was COPYING has been aborted by a write: PROFILE_ABORTED, and its slot ABORTED with ORDER_DONE (R36). -/
def activationAborted (p q : Part) : Prop :=
  posts p q [(.profileAborted, 1, p.odo.pos)]
    ∧ ∀ i : Fin 16, p.ord.activate = some i →
        q.ord.activate = none ∧ (q.ord.slots[i]).state = .aborted ∧ (q.ord.slots[i]).result = 1
        ∧ posts p q [(.profileAborted, 1, p.odo.pos), (.orderDone, arg3 i.val 2 (p.ord.slots[i]).tag.toNat, 1)]

/-- A write of the host has been forwarded to the memory port as it stands (PASS, R173). -/
def passed (addr : BitVec 24) (d : WriteData) (t : State) : Prop := t.path.access = some ⟨false, addr, d.data, d.enables⟩

/-- A word address lies outside the bridge area: n × 1 MiB to n × 1 MiB + 0xFFFF (R174). -/
def outsideArea (a : Nat) (p : Part) : Prop := a < p.bridge.base.toNat * 1048576 ∨ p.bridge.base.toNat * 1048576 + 65535 < a

/-- Exactly this enabled guard slot holds a word address (R178). -/
def guarded (i : Fin 4) (a : Nat) (p : Part) : Prop :=
  p.bridge.guards[i].enabled = true ∧ p.bridge.guards[i].address.toNat = a
    ∧ ∀ j : Fin 4, j ≠ i → p.bridge.guards[j].enabled = true → p.bridge.guards[j].address.toNat ≠ a

/-- No enabled guard slot holds a word address (R178). -/
def unguarded (a : Nat) (p : Part) : Prop := ∀ j : Fin 4, p.bridge.guards[j].enabled = true → p.bridge.guards[j].address.toNat ≠ a

/-- The bounds of a guard slot: its own, or for SPEED 0 and P, which counts as 0 outside RUN and while the commanded stage is not RELEASED (R84, R85). -/
def guardRange (g : Guard) (p : Part) : Nat × Nat :=
  match g.kind with
  | .speed => (0, if p.mod.mode = .run ∧ p.brk.commanded = .released then p.ssu.permitted else 0)
  | _ => (g.low.toNat, g.high.toNat)

/-- A guard violation is recorded: counted, its value stored, GUARD_VIOLATION with its outcome (R86). -/
def violated (i : Fin 4) (value : Word) (outcome : Nat) (p q : Part) : Prop :=
  q.bridge.guards[i] = { p.bridge.guards[i] with violations := sat8 p.bridge.guards[i].violations, last := value }
    ∧ (∀ j : Fin 4, j ≠ i → q.bridge.guards[j] = p.bridge.guards[j])
    ∧ posts p q [(.guardViolation, arg2 i.val outcome, p.odo.pos)] ∧ flagged .guard q

/-- The code of an order's kind (Table 11-1). -/
def kindOf : Instr → Byte
  | .run _ => 1 | .stand _ => 2 | .stable _ => 3 | .wake _ => 4 | .brakeTest _ => 5 | .maintenanceRelease _ => 6 | .brakeRequest _ => 7
  | .resetDemand _ => 8 | .setPosition _ => 9 | .resetEncoder _ => 10 | .activateProfile _ => 11 | .addRestriction _ => 12
  | .removeRestriction _ => 13 | .relinquish _ => 14 | .releaseSide _ => 15 | .openSide _ => 16 | .closeSide _ => 17 | .isolateDoor _ => 18
  | .restoreDoor _ => 19 | .setDoorEvents _ => 20 | .setGuard _ => 21 | .clearGuard _ => 22 | .sendText _ => 23 | .takeMessage _ => 24
  | .pollReport _ => 25 | .unknownKindTrigger kind _ => kind | _ => 0

/-- The commands that are a host access, or memory's answer to one (R173, R179). -/
def hostAccess (c : Instr) : Bool :=
  (triggerOf c).isSome || match c with
    | .parameterWordWrite _ _ _ | .orderWordPartialWrite _ _ | .aliveWrite _ | .settingsWrite _ _ | .profileWrite _ _
    | .eventHeadPop _ | .faultSummaryRead _ | .mirrorWrite _ _ | .guardedWrite _ _ | .ordinaryWrite _ _ | .memoryReady _
    | .memoryTimeout => true
    | _ => false

/-- The deliveries, the characters and the timers that either reset holds off (R18, R48, R119, R157, R172). -/
def heldByReset (c : Instr) : Bool :=
  (messageOf c).isSome || match c with
    | .standstillTimerExpiry | .applyingDeadlineExpiry | .releasingDeadlineExpiry | .testHoldEnd | .chargeTimingEnd
    | .silenceTimerExpiry | .rxCharacter _ _ _ | .pause | .resume | .gapTimerExpiry | .deferTimerExpiry | .keyUpTimerExpiry
    | .txCharacterSent | .tailTimerExpiry | .pauseTimerExpiry | .reportTimerExpiry => true
    | _ => false

/-- The timers and inputs that cold reset alone holds off besides (R24, R37, R140, R187). -/
def heldByCold : Instr → Bool
  | .speedWindowTick | .indexPulse _ | .datumRisingEdge | .datumFallingEdge | .copyCompletion | .motionTimerExpiry _
  | .permitLifetimeExpiry _ | .linkTimerExpiry => true
  | _ => false

/-- The host reads a word that the part answers itself: no reset is asserted and the word lies in the mirror area, at this offset (R174, R177). -/
def mirrorRead (r : HostRead) (n : Nat) (p : Part) : Prop :=
  p.asserted = false ∧ 0x4000 ≤ n ∧ n < 0x6000 ∧ r.addr.toNat / 4 * 4 = p.bridge.base.toNat * 1048576 + n

/-- The host reads a word that the bridge forwards: outside the mirror area, or any while a reset is asserted (R173, R175, R176, R178, R180). -/
def forwardedRead (r : HostRead) (p : Part) : Prop :=
  p.asserted = true ∨ r.addr.toNat < p.bridge.base.toNat * 1048576 + 0x4000 ∨ p.bridge.base.toNat * 1048576 + 0x6000 ≤ r.addr.toNat

/-- A number as a word of the mirror (R193). -/
def num (n : Nat) : Word := BitVec.ofNat 32 n

/-- A flag as a word of the mirror (R193). -/
def flag (b : Bool) : Word := if b then 1 else 0

/-- A number that may be none as a word of the mirror (R193). -/
def numOr (o : Option Nat) : Word := (o.map num).getD 0xFFFFFFFF#32

/-- The words of the mirror that hold one value each, by their offsets (Tables 11-6, 12-7 and 12-12): of CAR, SUPERVISION, BRAKE. -/
def mirrorCar (p : Part) : List (Nat × Word) :=
  [(0x4004, num p.mod.mode.code), (0x4008, num p.odo.speed), (0x400C, num p.odo.dir.code), (0x4010, flag p.odo.standstill), (0x4014, p.odo.pos),
   (0x4018, num p.odo.validity.code), (0x401C, num p.odo.regime.code), (0x4020, num p.odo.source.code), (0x4024, p.odo.p1.tally),
   (0x4028, p.odo.p2.tally), (0x402C, p.odo.w.tally), (0x4030, flag p.odo.p1.faulted), (0x4034, flag p.odo.p2.faulted),
   (0x4038, flag p.odo.w.faulted), (0x403C, p.odo.deviation), (0x4040, flag p.odo.climbOn), (0x4044, num p.odo.creep.toNat),
   (0x4048, num p.odo.reverse.toNat), (0x404C, numOr p.odo.segment), (0x4054, num p.prf.active.length), (0x4058, num p.prf.crc.toNat),
   (0x405C, flag p.prf.copying.isSome), (0x4068, num p.mod.wakeReason.code), (0x4070, flag p.mod.hostSilent), (0x4074, flag p.mod.crewKey),
   (0x4104, num p.ssu.state.code), (0x4108, num p.ssu.permitted), (0x410C, num p.ssu.braking), (0x4110, numOr p.ssu.effectiveEnd),
   (0x4114, wordOfCount p.ssu.distance),
   (0x4204, num p.brk.commanded.value), (0x420C, num p.brk.confirmed.value), (0x430C, num p.outputs),
   (0x4314, p.brk.record.start), (0x4318, num p.brk.record.outcome.code), (0x431C, num p.brk.record.abort.code)]

/-- The same of AUTHORITY, RESTRICTIONS, DOORS, RADIO, EVENTS, FAULT and BRIDGE. -/
def mirrorOthers (p : Part) : List (Nat × Word) :=
  [(0x4434, wordOfCount p.aut.dc), (0x4438, flag p.aut.request), (0x443C, num p.aut.travel.code), (0x4440, flag p.aut.overrun),
   (0x4444, flag p.aut.lateRevoke), (0x4448, flag p.aut.relinquished), (0x444C, num p.aut.lastRevoke.id.toNat), (0x4450, num p.aut.lastRevoke.point),
   (0x4454, num p.aut.lastRevoke.outcome.code), (0x4458, num p.aut.missed.toNat), (0x4504, num p.ssu.restrictions.length),
   (0x4720, p.dor.risingLow), (0x4724, p.dor.risingHigh), (0x4728, p.dor.fallingLow), (0x472C, p.dor.fallingHigh),
   (0x4804, num p.link.state.code), (0x4808, flag p.link.cd), (0x480C, flag p.link.ptt), (0x4810, num p.link.bitRate.toNat), (0x4814, flag p.link.lost),
   (0x4818, flag p.link.flowHold), (0x4860, num p.link.noise.toNat), (0x4864, num p.msg.badFormat.toNat), (0x4958, flag p.msg.rollAway),
   (0x495C, num p.link.queue.length), (0x4970, num p.msg.mailbox.length), (0x4974, num p.msg.textDrops.toNat),
   (0x4F14, num p.evq.queue.length), (0x4F18, num p.evq.next.toNat), (0x4F1C, num p.evq.lost.toNat),
   (0x4F44, num p.evq.faults.toNat), (0x4F84, num p.bridge.dropped.toNat)]

/-- A record of the mirror: its words stand one behind the other from an offset (Table 12-12). -/
def shownAt (offset : Nat) (words : List Word) (p : Part) : Prop := ∀ k : Nat, k < words.length → some (mirrorWord (offset + 4 * k) p) = words[k]?

/-- The words of an authority slot: id, station, start, end, direction, cap; an empty slot reads as none (Table 12-12). -/
def authorityShown : Option Authority → List Word
  | some a => [num a.id.toNat, num a.station.toNat, num a.start, num a.stop, num a.dir.code, num a.cap]
  | none => List.replicate 6 0xFFFFFFFF#32

/-- The words of a restriction: id, origin (1 radio, 2 host), origin station, start, end, limit, directions (Table 12-12). -/
def restrictionShown (r : Restriction) : List Word :=
  [num r.id.toNat] ++ (match r.origin with | .radio s => [1, num s.toNat] | .host => [2, 0]) ++ [num r.start, num r.stop, num r.limit, num r.dirs.code]

/-- The doors whose CL input is open, in order. -/
def unlocked (p : Part) : List (Fin 8) := (List.finRange 8).filter fun d => !(p.door d).cl

/-- The events behind COLD_START at the release of cold reset: DOOR_FAULT of each door without CL, the DOORS entry, and BRAKE_SETTLED where the
band contact confirms BAND at once (R137, R140, R192). -/
def coldEvents (p : Part) : List (EventKind × Half × Word) :=
  (unlocked p).map (fun d => (.doorFault, arg2 d.val 2, 0))
  ++ (if unlocked p = [] then [] else [(.demandSet, arg3 7 2 2, 0)])
  ++ if p.brk.inputs.band then [(.brakeSettled, 4, 0)] else []

/-! ### The supervision numbers and checks -/

/-- The supervision direction: that of CURRENT, and with none held that of the last count (R69). -/
def direction (p : Part) : Dir :=
  match p.aut.current with
  | some a => a.dir
  | none => p.odo.dir

/-- The range from tooth `a` up to, but not including, tooth `b` has a position in common with the car extent (R71). -/
def overlapsCar (p : Part) (a b : Nat) : Prop :=
  a < b ∧ (a : Int) * 16 ≤ p.odo.pos.toInt ∧ p.odo.pos.toInt - (p.prf.settings.carLength : Int) * 16 < (b : Int) * 16

/-- A segment of the active profile, with its end: the start of the next, or the route end (R25). -/
def segmentEnds (p : Part) (r : SegRec) (stop : Nat) : Prop :=
  ∃ k : Nat, p.prf.active[k]? = some r ∧
    stop = match p.prf.active[k + 1]? with | some n => n.start | none => p.prf.settings.routeEnd

/-- A limit that applies over the car extent (the table of R71). -/
def limitApplies (p : Part) (l : Nat) : Prop :=
  (∃ r stop, segmentEnds p r stop ∧ overlapsCar p r.start stop ∧ l = match direction p with | .up => r.limitUp | .down => r.limitDown)
  ∨ (∃ r ∈ p.ssu.restrictions, (r.dirs = .both ∨ (r.dirs = .up ∧ direction p = .up) ∨ (r.dirs = .down ∧ direction p = .down))
      ∧ overlapsCar p r.start r.stop ∧ l = r.limit)
  ∨ (∃ a, p.aut.current = some a ∧ l = a.cap)
  ∨ ((p.odo.validity = .provisional ∨ p.odo.validity = .uncertain) ∧ l = p.prf.settings.uncertaintyCap)

/-- The car is nowhere that permits a speed: no profile, validity UNKNOWN, or a part of the extent outside the route (R71). -/
def noSpeedHere (p : Part) : Prop :=
  p.prf.active = [] ∨ p.odo.validity = .unknown ∨ p.odo.pos.toInt - (p.prf.settings.carLength : Int) * 16 < 0
  ∨ (p.prf.settings.routeEnd : Int) * 16 < p.odo.pos.toInt

/-- The gradient class of an effective gradient, per mille (Table 4-1). -/
def gradeClass (g : Int) : Nat := if g < -200 then 3 else if g < -120 then 2 else if g < -40 then 1 else 0

/-- The gradient class at route position in the supervision direction, 3 with no segment (R72). -/
def classHere (p : Part) : Nat :=
  match p.odo.segment.bind fun i => p.prf.active[i]? with
  | some r => gradeClass (match direction p with | .up => r.gradient | .down => -r.gradient)
  | none => 3

/-- The effective end: NEXT's end where NEXT is held, else CURRENT's (R73). -/
def endAhead (p : Part) : Option Nat :=
  match p.aut.next, p.aut.current with
  | some n, _ => some n.stop
  | none, some c => some c.stop
  | none, none => none

/-- P, B, E and d stand as R71 to R73 give them. -/
def numbersStand (p : Part) : Prop :=
  (noSpeedHere p → p.ssu.permitted = 0)
  ∧ (¬ noSpeedHere p → (∃ l, limitApplies p l) → limitApplies p p.ssu.permitted ∧ ∀ l, limitApplies p l → p.ssu.permitted ≤ l)
  ∧ p.ssu.braking = p.prf.settings.braking (classHere p) (min (p.odo.speed / 128) 7)
  ∧ p.ssu.effectiveEnd = endAhead p
  ∧ (endAhead p = none → p.ssu.distance = 2147483647)
  ∧ ∀ tooth, endAhead p = some tooth → p.ssu.distance =
      match direction p with
      | .up => (tooth : Int) * 16 - p.odo.pos.toInt
      | .down => p.odo.pos.toInt - (p.prf.settings.carLength : Int) * 16 - (tooth : Int) * 16

/-- Curve intervention holds (R74). -/
def curveHolds (p : Part) : Prop := p.ssu.distance ≤ (p.ssu.braking : Int) * 16 ∧ p.prf.settings.releaseSpeed < p.odo.speed

/-- Curve warning holds (R74). -/
def curveWarns (p : Part) : Prop := p.ssu.distance ≤ ((p.ssu.braking : Int) + p.prf.settings.warningDistance) * 16

/-- The supervision level below a trip: the highest that the overspeed check and the curve check give (R75, R77). -/
def levelHere (p : Part) (s : SupervisionState) : Prop :=
  let above := p.ssu.permitted < p.odo.speed
  let high := (above ∧ (p.ssu.hold = true ∨ p.ssu.permitted + p.prf.settings.warningMargin < p.odo.speed)) ∨ curveHolds p
  (high → s = .intervention) ∧ (¬ high → above ∨ curveWarns p → s = .warning) ∧ (¬ high → ¬ above → ¬ curveWarns p → s = .normal)

/-- SSU has made its checks in RUN (R74 to R77): from the part as it stood to the part as it stands. -/
def checkedInRun (p q : Part) : Prop :=
  let v := q.odo.speed
  let P := q.ssu.permitted
  let set := q.prf.settings
  (P + set.interventionMargin < v → q.ssu.hold = true) ∧ (v ≤ P → q.ssu.hold = false)
  ∧ (P < v → v ≤ P + set.interventionMargin → q.ssu.hold = p.ssu.hold)
  ∧ (p.ssu.state = .tripped → q.ssu.state = .tripped)
  ∧ (p.ssu.state ≠ .tripped → P + set.emergencyMargin < v →
      q.ssu.state = .tripped ∧ latchedAt .supervision .emergency q ∧ flagged .supervision q
      ∧ posts p q [(.supervisionState, 4, q.odo.pos)])
  ∧ (p.ssu.state ≠ .tripped → v ≤ P + set.emergencyMargin → levelHere q q.ssu.state
      ∧ (q.ssu.state ≠ p.ssu.state → posts p q [(.supervisionState, BitVec.ofNat 16 q.ssu.state.code, q.odo.pos)]))
  ∧ (curveHolds q → q.ssu.request = (.s3, 2))
  ∧ (¬ curveHolds q → q.ssu.hold = true → q.ssu.request = (.s2, 1))
  ∧ (¬ curveHolds q → q.ssu.hold = false → q.ssu.request = (.released, 0))
  ∧ (p.ssu.state = .tripped ∨ v ≤ P + set.emergencyMargin →
      ((p.entry .supervision).latched = true ∨ q.ssu.request = p.ssu.request → q.entry .supervision = p.entry .supervision)
      ∧ ((p.entry .supervision).latched = false → q.ssu.request ≠ p.ssu.request →
          (q.entry .supervision).stage = q.ssu.request.1 ∧ (q.entry .supervision).cause = q.ssu.request.2
          ∧ (q.entry .supervision).latched = false))

/-! ### The brake, its feedback and its outputs -/

/-- A switch above a stage is closed: one that belongs to higher stages only (R49). -/
def closedAbove (f : Feedback) : Stage → Prop
  | .released => f.ps1 = true ∨ f.ps2 = true ∨ f.ps3 = true ∨ f.band = true
  | .s1 => f.ps2 = true ∨ f.ps3 = true ∨ f.band = true
  | .s2 => f.ps3 = true ∨ f.band = true
  | .s3 => f.band = true
  | .band | .emergency => False

/-- The confirming switches of a stage are closed: while the charge wait runs and in STABLED, those of BAND and EMERGENCY are the band contact alone
(R49, R50). -/
def confirmingClosed (p : Part) : Stage → Prop
  | .released => True
  | .s1 => p.brk.inputs.ps1 = true
  | .s2 => p.brk.inputs.ps2 = true
  | .s3 => p.brk.inputs.ps3 = true
  | .band | .emergency =>
    p.brk.inputs.band = true ∧ (p.brk.inputs.ps3 = true ∨ p.mod.charge ≠ .complete ∨ p.mod.mode = .stabled)

/-- The feedback confirms the target of an operation (Table 3-5). -/
def patternShown (p : Part) : BrakeState → Prop
  | .settled => False
  | .applying t _ => t ≠ .released ∧ confirmingClosed p t
  | .releasing t _ => confirmingClosed p t ∧ ¬ closedAbove p.brk.inputs t

/-- The operation that a change of the commanded stage starts, by the confirmed stage (R51). -/
def startsToward (p : Part) (c : Stage) (x : BrakeState) : Prop :=
  (p.brk.confirmed.value < c.value → x = .applying c (some p.now))
  ∧ (c.value < p.brk.confirmed.value → x = .releasing c (some p.now))
  ∧ (c = p.brk.confirmed → c = .released ∨ closedAbove p.brk.inputs c → x = .releasing c (some p.now))
  ∧ (c = p.brk.confirmed → c ≠ .released → ¬ closedAbove p.brk.inputs c → x = .applying c (some p.now))

/-- The brake follows its commanded stage (R51, R52): unchanged, it goes on; changed, an operation starts toward it, and settles at once where the
feedback confirms it. -/
def brakeFollows (p q : Part) : Prop :=
  (q.brk.commanded = p.brk.commanded → q.brk.state = p.brk.state ∧ q.brk.confirmed = p.brk.confirmed)
  ∧ (q.brk.commanded ≠ p.brk.commanded → ∃ x, startsToward p q.brk.commanded x
      ∧ (patternShown p x → q.brk.state = .settled ∧ q.brk.confirmed = q.brk.commanded)
      ∧ (¬ patternShown p x → q.brk.state = x ∧ q.brk.confirmed = p.brk.confirmed))

/-- The levels of the seven outputs, from the S1 line to TRAIN BRAKE, by the commanded stage (Table 3-4). -/
def outputBits : Stage → List Bool
  | .released => [false, false, false, true, true, false, false]
  | .s1 => [true, false, false, true, true, true, false]
  | .s2 => [true, true, false, true, true, true, false]
  | .s3 => [true, true, true, true, true, true, true]
  | .band => [true, true, true, false, true, true, true]
  | .emergency => [true, true, true, false, false, true, true]

/-! ### What a count and an encoder fault lead to -/

/-- A change has posted an event of this kind and argument: where the queue has kept room, it stands behind the events stored before (R188). -/
def posted (k : EventKind) (arg : Half) (p q : Part) : Prop :=
  q.evq.queue.length < 64 → ∃ e ∈ q.evq.queue.drop p.evq.queue.length, e.kind = k ∧ e.argument = arg

/-- A count of the source leaves route position in the segment it stood in, as the segment index has it (R5). -/
def staysWithin (p q : Part) : Prop := segmentIndex q.odo.pos.toInt p.prf.active = p.odo.segment

/-- The distance from the end that leads in an authority's direction to the authority's end, in counts (R95). -/
def countsToEnd (a : Authority) (p : Part) : Int :=
  match a.dir with
  | .up => (a.stop : Int) * 16 - p.odo.pos.toInt
  | .down => p.odo.pos.toInt - (p.prf.settings.carLength : Int) * 16 - (a.stop : Int) * 16

/-- An overrun of an authority (R97). -/
def overran (a : Authority) (p q : Part) : Prop :=
  q.aut.overrun = true ∧ posted .authOverrun a.id p q ∧ flagged .authority q
  ∧ (q.entry .authority).latched = true ∧ ((p.entry .authority).latched = false → latchedAt .authority .emergency q)

/-- AUT has judged CURRENT's end at a count of the source (R95 to R97): dc and the request flag follow, NEXT is taken over beyond the end, and with no NEXT
the crossing of the end is an overrun. -/
def endJudged (a : Authority) (p q : Part) : Prop :=
  (∀ b, q.aut.current = some b → q.odo.validity ≠ .unknown → q.aut.dc = countsToEnd b q
    ∧ (q.aut.request = true ↔ q.aut.next = none ∧ countsToEnd b q ≤ (q.prf.settings.requestDistance : Int) * 16))
  ∧ (0 ≤ countsToEnd a q → q.aut.current = some a ∧ q.aut.next = p.aut.next ∧ q.aut.overrun = p.aut.overrun)
  ∧ (countsToEnd a q < 0 → ∀ n, p.aut.next = some n →
      q.aut.current = some n ∧ q.aut.next = none ∧ posted .authHandover n.id p q
      ∧ (0 ≤ countsToEnd n q → q.aut.overrun = p.aut.overrun) ∧ (countsToEnd n q < 0 → overran n p q))
  ∧ (countsToEnd a q < 0 → p.aut.next = none →
      q.aut.current = some a ∧ q.aut.next = none
      ∧ (0 ≤ p.aut.dc → overran a p q) ∧ (p.aut.dc < 0 → q.aut.overrun = p.aut.overrun))

/-- The travel record has followed a count of the motion encoder in RUN, and the AUTHORITY entry the record (R102). -/
def travelRecorded (a : Authority) (c : Dir) (p q : Part) : Prop :=
  q.aut.travel = (if a.dir = c then .with_ else if p.aut.travel = .none then .against else p.aut.travel)
  ∧ ((q.entry .authority).latched = false → q.aut.travel ≠ p.aut.travel →
      (q.entry .authority).stage = if q.aut.travel = .against then .s3 else .released)

/-- The release point of a deferred pull has been judged at a change of route position (R136). -/
def pullJudged (p q : Part) : Prop :=
  ((∀ r stop, segmentEnds q r stop → r.noStop = true → ¬ overlapsCar q r.start stop) →
    q.dor.deferred = none ∧ latchedAt .handle .s3 q)
  ∧ ((∃ r stop, segmentEnds q r stop ∧ r.noStop = true ∧ overlapsCar q r.start stop) → staysWithin p q →
    q.dor.deferred = p.dor.deferred)

/-- The position is lost (R13): no source, validity UNKNOWN, no segment, no entry check; in RUN ODOMETRY is latched at EMERGENCY. -/
def placeLost (p q : Part) : Prop :=
  q.odo.source = .none ∧ q.odo.validity = .unknown ∧ q.odo.segment = none ∧ q.odo.entry = none
  ∧ posted .sourceChanged 0 p q ∧ posted .positionLost 0 p q ∧ (p.mod.mode = .run → latchedAt .odometry .emergency q)

/-- A count of the source has moved route position from segment `i` to segment `j` in direction `c` (R5, R9, R11). -/
def crossed (c : Dir) (i j : Nat) (p q : Part) : Prop :=
  (regimeAt i p = regimeAt j p → p.odo.entry = none →
    q.odo.segment = some j ∧ q.odo.regime = p.odo.regime ∧ q.odo.source = p.odo.source ∧ q.odo.entry = none)
  ∧ (regimeAt i p = .adhesion → regimeAt j p = .rack → p.odo.regime = .adhesion → p.odo.entry = none → p.odo.w.faulted = false →
    q.odo.segment = some j ∧ q.odo.regime = .entering ∧ q.odo.source = .w
    ∧ q.odo.entry = some ⟨c, 0, 0, 0, !p.odo.p1.faulted, !p.odo.p2.faulted⟩)
  ∧ (regimeAt i p = .rack → regimeAt j p = .adhesion → p.odo.regime = .rack → p.odo.entry = none →
    q.odo.regime = .adhesion ∧ q.odo.deviation = p.odo.deviation ∧ posted .rackLeft 0 p q
    ∧ (p.odo.w.faulted = false → q.odo.segment = some j ∧ q.odo.source = .w ∧ (p.odo.source ≠ .w → posted .sourceChanged 3 p q))
    ∧ (p.odo.w.faulted = true → placeLost p q))
  ∧ (regimeAt i p = .rack → regimeAt j p = .adhesion → p.odo.regime = .entering → p.odo.w.faulted = false →
    q.odo.segment = some j ∧ q.odo.regime = .adhesion ∧ q.odo.source = .w ∧ q.odo.entry = none)

/-- An included pinion's difference from W travel. -/
def strays (included : Bool) (travel w : Int) (n : Nat) : Prop := included = true ∧ n = (travel - w).natAbs

/-- The entry check passes: a pinion is included, and none strays by more than 32 counts (R10). -/
def entryPasses (x : EntryCheck) : Prop :=
  (x.p1Included = true ∨ x.p2Included = true)
  ∧ ∀ n, strays x.p1Included x.p1Travel x.wTravel n ∨ strays x.p2Included x.p2Travel x.wTravel n → n ≤ 32

/-- The largest difference of an included pinion, 65535 with none (R10). -/
def largestStray (x : EntryCheck) (n : Nat) : Prop :=
  (x.p1Included = false → x.p2Included = false → n = 65535)
  ∧ (x.p1Included = true ∨ x.p2Included = true → strays x.p1Included x.p1Travel x.wTravel n ∨ strays x.p2Included x.p2Travel x.wTravel n)
  ∧ ∀ m, strays x.p1Included x.p1Travel x.wTravel m ∨ strays x.p2Included x.p2Travel x.wTravel m → m ≤ n

/-- An entry check whose travels now are `x` goes on, passes or fails (R9, R10). -/
def entryJudged (x : EntryCheck) (p q : Part) : Prop :=
  let length : Int := (p.prf.settings.entryLength : Int) * 16
  (x.wTravel < length → q.odo.entry = some x ∧ q.odo.regime = .entering)
  ∧ (length ≤ x.wTravel →
      q.odo.entry = none ∧ q.odo.regime = .rack ∧ q.odo.deviation = 0
      ∧ q.odo.source = tableSource .rack p.odo.p1.faulted p.odo.p2.faulted p.odo.w.faulted
      ∧ (entryPasses x →
          posted .rackEntered (BitVec.ofNat 16 q.odo.source.code) p q
          ∧ (p.odo.p1.faulted = true → posted .climbOff 1 p q)
          ∧ (p.odo.p1.faulted = false → p.odo.p2.faulted = true → posted .climbOff 2 p q))
      ∧ (¬ entryPasses x →
          q.odo.validity = .uncertain ∧ latchedAt .odometry .emergency q
          ∧ ∃ n, largestStray x n ∧ posted .rackEntryFailed (argUnsigned n) p q))

/-- Deviation follows a count of a pinion while climb supervision is on, and a crossing of the climb threshold is a climb-out (R14, R15). -/
def deviates (p q : Part) : Prop :=
  (p.odo.regime = .rack → p.odo.p1.faulted = false → p.odo.p2.faulted = false →
    q.odo.deviation = (q.odo.p1.tally - p.odo.ref1) - (q.odo.p2.tally - p.odo.ref2)
    ∧ (p.odo.deviation.toInt.natAbs ≤ p.prf.settings.climbThreshold → p.prf.settings.climbThreshold < q.odo.deviation.toInt.natAbs →
        latchedAt .odometry .emergency q ∧ posted .climbOut (argSigned q.odo.deviation.toInt) p q))
  ∧ (p.odo.regime ≠ .rack ∨ p.odo.p1.faulted = true ∨ p.odo.p2.faulted = true → q.odo.deviation = p.odo.deviation)

/-- A counter crosses the rollback allowance at its next count (R16). -/
def crossesAllowance (n : Half) (p : Part) : Prop :=
  n.toNat ≤ p.prf.settings.rollbackAllowance ∧ p.prf.settings.rollbackAllowance < min 65535 (n.toNat + 1)

/-- The creep counter has taken a count of the motion encoder in STAND or STABLED (R16). -/
def crept (p q : Part) : Prop :=
  (p.mod.mode = .stand ∨ ¬ crossesAllowance p.odo.creep p → q.odo.creep.toNat = min 65535 (p.odo.creep.toNat + 1))
  ∧ (crossesAllowance p.odo.creep p → latchedAt .rollback .emergency q ∧ posted .rollback 0 p q
      ∧ (p.mod.mode = .stabled → woken .rollAway p q ∧ q.msg.rollAway = true))

/-- The reverse counter has taken a count of the motion encoder in RUN, CURRENT running in a direction (R16). -/
def reversed (d c : Dir) (p q : Part) : Prop :=
  (c = d → q.odo.reverse = 0)
  ∧ (c ≠ d → q.odo.reverse.toNat = min 65535 (p.odo.reverse.toNat + 1)
      ∧ (crossesAllowance p.odo.reverse p → latchedAt .rollback .emergency q ∧ posted .rollback 1 p q))

/-- The events of an encoder's fault, in R2's order: ENCODER_FAULT, CLIMB_OFF, SOURCE_CHANGED, and POSITION_LOST or the fallback's
POSITION_UNCERTAIN (R2, R4, R12, R13). -/
def healthEvents (e : Encoder) (new : Source) (p : Part) : List (EventKind × Half × Word) :=
  let o := p.odo
  [(.encoderFault, BitVec.ofNat 16 (encoderCode e), o.pos)]
  ++ (if o.regime = .rack ∧ o.p1.faulted = false ∧ o.p2.faulted = false ∧ e ≠ .w then [(.climbOff, BitVec.ofNat 16 (encoderCode e), o.pos)] else [])
  ++ (if new ≠ o.source then [(.sourceChanged, BitVec.ofNat 16 new.code, o.pos)] else [])
  ++ (if new = .none then [(.positionLost, 0, o.pos)]
      else if o.regime = .rack ∧ new = .w ∧ o.source ≠ .w ∧ (o.validity = .provisional ∨ o.validity = .confirmed) then [(.positionUncertain, 2, o.pos)] else [])

/-- Source and regime act on the fault of an encoder (R2, R4, R9, R12, R13). -/
def healthTaken (e : Encoder) (p q : Part) : Prop :=
  let new := tableSource p.odo.regime (p.odo.p1.faulted || e == .p1) (p.odo.p2.faulted || e == .p2) (p.odo.w.faulted || e == .w)
  q.odo.regime = p.odo.regime ∧ q.odo.source = new ∧ posts p q (healthEvents e new p)
  ∧ (new = .none → q.odo.validity = .unknown ∧ q.odo.segment = none ∧ q.odo.entry = none
      ∧ (p.mod.mode = .run → latchedAt .odometry .emergency q))
  ∧ (new ≠ .none → q.odo.segment = p.odo.segment ∧ q.odo.entry = p.odo.entry.map (·.exclude e))
  ∧ (p.odo.regime = .rack → new = .w → p.odo.source ≠ .w → q.odo.validity = .uncertain ∧ latchedAt .odometry .s3 q)

/-- W faults during the entry check, which fails (R2, R10). -/
def entryBroken (p q : Part) : Prop :=
  let o := p.odo
  let new := tableSource .rack o.p1.faulted o.p2.faulted true
  q.odo.regime = .rack ∧ q.odo.entry = none ∧ q.odo.deviation = 0 ∧ q.odo.source = new ∧ latchedAt .odometry .emergency q
  ∧ posts p q ([(.encoderFault, 3, o.pos), (.rackEntryFailed, 65535, o.pos)]
      ++ (if new ≠ o.source then [(.sourceChanged, BitVec.ofNat 16 new.code, o.pos)] else [])
      ++ (if new = .none then [(.positionLost, 0, o.pos)]
          else if o.validity = .provisional ∨ o.validity = .confirmed then [(.positionUncertain, 3, o.pos)] else []))
  ∧ (new = .none → q.odo.validity = .unknown ∧ q.odo.segment = none) ∧ (new ≠ .none → q.odo.validity = .uncertain)

/-! ### Frames: what a command may change -/

/-- The changes that only some commands make. -/
inductive Group where
  /-- the time base -/ | now
  /-- the levels of the reset inputs -/ | lines
  /-- a guard slot or the dropped count -/ | guards
  /-- an order slot or a parameter shadow -/ | ord
  /-- a slot takes or refuses an order -/ | take
  /-- a slot becomes RUNNING -/ | start
  /-- a pop, or the clearing of the fault summary -/ | evq
  /-- an encoder, the speed window, standstill or the route position -/ | odo
  /-- the source, the regime, validity, the segment, deviation, or a capture -/ | track
  /-- the profile store -/ | prf
  /-- the restriction list -/ | restr
  /-- an authority slot or the revoke record -/ | slots
  /-- a feedback input, or an input of a door -/ | inputs
  /-- the clearing of a latch -/ | unlatch
  /-- the car mode -/ | mode
  /-- the silence timer and the host-silent flag -/ | silence
  /-- the charge wait, the wake reason or the crew key -/ | charge
  /-- a door or a side -/ | doors
  /-- the permit list -/ | permits
  /-- the event masks -/ | masks
  /-- the receiver, the station table or the link timer -/ | link
  /-- the mailbox and the counts of messages -/ | msg
deriving DecidableEq

/-- Every change by name. -/
def Group.all : List Group :=
  [.now, .lines, .guards, .ord, .take, .start, .evq, .odo, .track, .prf, .restr, .slots, .inputs, .unlatch, .mode, .silence, .charge, .doors, .permits, .masks,
   .link, .msg]

/-- What travel changes. -/
def travelMay : List Group := [.odo, .track, .doors, .mode, .ord, .slots, .charge]

/-- What a delivered frame of any kind changes. -/
def deliveryMay : List Group := [.permits, .doors, .mode, .ord, .slots, .restr, .unlatch, .charge, .link, .msg]

/-- What a host write of any address changes. -/
def writeMay : List Group := travelMay ++ [.take, .start, .prf, .unlatch, .restr, .masks, .guards, .msg, .silence]

/-- The groups that a command may make, before the return to STAND that may end any command (R109). -/
def mayChange : Instr → List Group
  | .encoderStep _ _ | .indexPulse _ | .datumRisingEdge | .datumFallingEdge => travelMay
  | .setPosition _ | .resetEncoder _ => travelMay ++ [.take]
  | .speedWindowTick => [.now, .odo]
  | .standstillTimerExpiry => [.odo, .mode, .ord]
  | .copyCompletion => travelMay ++ [.permits, .link, .prf, .silence]
  | .brakeFeedbackChange _ _ => [.inputs, .mode, .ord]
  | .applyingDeadlineExpiry | .releasingDeadlineExpiry | .testHoldEnd => [.mode, .ord]
  | .reservoirSwitchChange _ => [.inputs, .charge]
  | .chargeTimingEnd => [.charge]
  | .crewKeyEdge _ => [.charge, .mode]
  | .silenceTimerExpiry | .aliveWrite _ => [.silence]
  | .doorClEdge _ _ | .doorFoEdge _ _ | .doorObEdge _ _ | .doorPbEdge _ _ | .doorEhEdge _ _ => [.inputs, .doors, .mode, .ord]
  | .motionTimerExpiry _ => [.doors, .mode, .ord]
  | .permitLifetimeExpiry _ => [.permits, .doors, .mode, .ord]
  | .rxCharacter _ _ _ => deliveryMay
  | .pause | .resume | .cdRise | .cdFall | .gapTimerExpiry => [.link]
  | .deferTimerExpiry | .keyUpTimerExpiry | .txCharacterSent | .tailTimerExpiry | .pauseTimerExpiry | .reportTimerExpiry => []
  | .linkTimerExpiry => [.link, .slots, .permits, .doors, .mode, .ord]
  | .grant _ _ _ _ _ _ | .revoke _ _ _ => [.link, .mode, .slots, .ord]
  | .restrict _ _ _ _ _ _ | .lift _ _ => [.link, .mode, .restr]
  | .permit _ _ _ | .withdraw _ _ => [.link, .mode, .permits, .doors, .ord]
  | .eStop _ => [.link, .mode, .ord]
  | .eRelease _ => [.link, .mode, .unlatch]
  | .wakeMessage _ => [.link, .mode, .charge]
  | .poll _ => [.link, .mode]
  | .text _ _ => [.link, .mode, .msg]
  | .run _ | .stable _ | .releaseSide _ | .isolateDoor _ | .restoreDoor _ => [.doors, .mode, .ord, .take]
  | .brakeTest _ | .openSide _ | .closeSide _ => [.doors, .mode, .ord, .take, .start]
  | .stand _ | .maintenanceRelease _ | .brakeRequest _ => [.mode, .ord, .take]
  | .wake _ => [.mode, .charge, .ord, .take]
  | .resetDemand _ => [.unlatch, .ord, .take]
  | .activateProfile _ => [.prf, .ord, .take, .start]
  | .settingsWrite _ _ | .profileWrite _ _ => [.prf, .ord]
  | .addRestriction _ | .removeRestriction _ => [.restr, .ord, .take]
  | .relinquish _ => [.slots, .ord, .take]
  | .setDoorEvents _ => [.masks, .ord, .take]
  | .setGuard _ | .clearGuard _ => [.guards, .ord, .take]
  | .takeMessage _ => [.msg, .ord, .take]
  | .sendText _ | .pollReport _ | .unknownKindTrigger _ _ => [.ord, .take]
  | .parameterWordWrite _ _ _ => [.ord]
  | .orderWordPartialWrite _ _ | .memoryReady _ | .memoryTimeout => []
  | .eventHeadPop _ | .faultSummaryRead _ => [.evq]
  | .mirrorWrite _ _ => [.guards]
  | .guardedWrite _ _ | .ordinaryWrite _ _ => writeMay
  | .coldResetAssert | .coldResetRelease _ _ | .warmResetAssert | .warmResetRelease => Group.all

end Sys2Proof.Safety
end

