-- ==== Sys2Proof/Certificates/Slice0/Obligations.lean ====
section
/-! DEFINITION. The statements for the provers. Where a statement says what a command does, its conclusion is that `exec` answers a next
state and what that state holds; the return to STAND that may end any command (R109) is part of that next state. -/

open Sys2Proof Sys2Proof.Machine

/-! ### The block and its queue -/

/-- A step runs the command at the front of the queue, with the queue's rest. With no command waiting it takes the front one of the host reads that
wait (the model's choice, log 32), and with none of these either the block idles (the model's choice, log 1). -/
def Obligations.StepRunsFrontCommand : Prop :=
  (∀ (c : Instr) (rest : List Instr) (s : State), step { s with pending := c :: rest } = exec c { s with pending := rest })
  ∧ (∀ (r : HostRead) (rest : List HostRead) (s : State), s.pending = [] → s.reads = r :: rest → step s = takeRead r { s with reads := rest })
  ∧ ∀ s : State, s.pending = [] → s.reads = [] → step s = .next s

/-- Every command completes in every state, and leaves the commands and the host reads that wait as it finds them. That a command whose operands WellFormed
refuses (log 1) and an expiry that is not due (log 2) answer a next state too is the model's choice. -/
def Obligations.EveryCommandCompletes : Prop :=
  ∀ (c : Instr) (s : State), ∃ t, exec c s = .next t ∧ t.pending = s.pending ∧ t.reads = s.reads

/-! ### Reset -/

/-- The values that the reset tables give, at `State.reset`; the doors are LOCKED by the door contacts, which log 9 chooses closed. -/
def Obligations.ResetValues : Prop :=
  let p := State.reset.part
  p.now = 0 ∧ p.coldLine = false ∧ p.warmLine = false
  ∧ p.odo.validity = .unknown ∧ p.odo.regime = .adhesion ∧ p.odo.source = .none ∧ p.odo.pos = 0 ∧ p.odo.standstill = false
  ∧ p.prf.active = [] ∧ p.prf.settings = Settings.default ∧ p.prf.crc = 0 ∧ p.prf.copying = none
  ∧ p.brk.commanded = .band ∧ (p.entry .mode).stage = .band ∧ (p.entry .mode).cause = 3 ∧ p.anyLatched = false
  ∧ p.ssu.state = .idle ∧ p.ssu.restrictions = [] ∧ p.aut.current = none ∧ p.aut.next = none
  ∧ p.mod.mode = .stand ∧ p.mod.charge = .timing 0 ∧ p.mod.hostSilent = false
  ∧ (∀ d, (p.door d).state = .locked) ∧ p.dor.left.released = false ∧ p.dor.right.released = false ∧ p.dor.permits = []
  ∧ p.link.state = .listen ∧ p.link.ptt = false ∧ p.link.lost = true ∧ p.link.queue = [] ∧ p.msg.mailbox = []
  ∧ (∀ i : Fin 16, p.ord.slots[i] = Slot.free) ∧ (∀ i : Fin 4, p.bridge.guards[i] = Guard.off) ∧ p.bridge.dropped = 0
  ∧ p.evq.queue = [⟨0, 0, .coldStart, 0, 0⟩] ∧ p.evq.next = 1 ∧ p.evq.lost = 0 ∧ p.evq.faults = 0
  ∧ State.reset.pending = []

/-- The laws hold at reset. -/
def Obligations.ResetIsLawful : Prop :=
  Safety.lawful State.reset.part ∧ Safety.memory State.reset ∧ Safety.standDone State.reset.part

/-- An assertion and release of cold reset takes its straps, puts every block at its reset values, and changes no memory; while it is asserted the
outputs are those of EMERGENCY and no guard is enabled. Each door is LOCKED or, its CL input open, FAULTED CONTACT_LOST; the MODE entry requests BAND for the charge wait and the DOORS
entry S2 where a door is FAULTED. BRK starts toward BAND, and is settled there at once where the band contact confirms it. The event queue holds COLD_START, the
DOOR_FAULT events, DEMAND_SET of DOORS and, where settled, BRAKE_SETTLED, from sequence 0 on. -/
def Obligations.ColdResetRestores : Prop :=
  ∀ (base : BitVec 4) (rate : BitVec 2) (s : State), s.part.coldLine = false → s.part.warmLine = false →
    ∃ t u, exec .coldResetAssert s = .next t ∧ exec (.coldResetRelease base rate) t = .next u
      ∧ t.part.coldLine = true ∧ t.part.outputs = outputLevels .emergency ∧ t.part.bridge.guards = Vector.replicate 4 Guard.off
      ∧ t.path = s.path ∧ u.path = s.path
      ∧ u.part.coldLine = false ∧ u.part.now = 0 ∧ u.part.bridge.base = base ∧ u.part.link.bitRate = rate
      ∧ u.part.bridge.guards = Vector.replicate 4 Guard.off ∧ u.part.bridge.dropped = 0
      ∧ u.part.ord = Ord.cold ∧ u.part.prf = Prf.cold ∧ u.part.aut = Aut.cold ∧ u.part.mod = Mod.cold s.part.mod.crewKey
      ∧ u.part.odo = Odo.cold s.part.odo.p1.quad s.part.odo.p2.quad s.part.odo.w.quad
      ∧ u.part.msg = Msg.cold ∧ u.part.link = Link.cold rate s.part.link.cd
      ∧ u.part.ssu = { Ssu.cold with braking := 6 }
      ∧ u.part.dor = Dor.cold u.part.dor.doors
      ∧ (∀ d, u.part.door d = { s.part.door d with
            state := if (s.part.door d).cl then .locked else .faulted
            fault := if (s.part.door d).cl then .none else .contactLost
            retries := 0, closeFailed := false, motion := none })
      ∧ (∀ d, u.part.entry d =
          if d = .mode then ⟨.band, false, 3, 0, 0⟩
          else if d = .doors ∧ Safety.unlocked s.part ≠ [] then ⟨.s2, false, 2, 0, 0⟩ else Entry.clear)
      ∧ u.part.brk.commanded = .band ∧ u.part.brk.inputs = s.part.brk.inputs ∧ u.part.brk.test = none
      ∧ u.part.brk.record = ⟨0, .none, .none, Vector.replicate 5 .notRun, Vector.replicate 5 0⟩
      ∧ (s.part.brk.inputs.band = false → u.part.brk.confirmed = .released ∧ u.part.brk.state = .applying .band (some 0))
      ∧ (s.part.brk.inputs.band = true → u.part.brk.confirmed = .band ∧ u.part.brk.state = .settled)
      ∧ u.part.evq.queue = ⟨0, 0, .coldStart, arg2 base.toNat rate.toNat, 0⟩ :: Safety.stamped 1 0 (Safety.coldEvents s.part)
      ∧ u.part.evq.lost = 0 ∧ u.part.evq.faults = if Safety.unlocked s.part = [] then 0 else 0x040

/-- An assertion and release of warm reset ends orders, activation and test, empties the event queue before WARM_START, and keeps the rest; while it is
asserted the outputs are those of EMERGENCY and no guard is enabled. The test ends at the assertion: the step in progress NOT_RUN with time 0, the record ABORTED with
RESET, TEST to STAND and the TEST entry released. WARM_START carries the mode then left, the time and the route position, with the next sequence.
The odometer keeps all but the capture, the standstill timer and the creep and reverse counters; the doors all but the event bookkeeping of side orders; the
authority all but what is judged again; the link its straps, stations, timers and counts, the transmitter in LISTEN with nothing queued; the mailbox is
emptied. These last hold where the return to STAND has been made, as no step leaves it to do. What one change does in which order is the model's choice (log 17). -/
def Obligations.WarmResetKeeps : Prop :=
  ∀ s : State, s.part.coldLine = false → s.part.warmLine = false →
    ∃ t u, exec .warmResetAssert s = .next t ∧ exec .warmResetRelease t = .next u
      ∧ t.part.warmLine = true ∧ t.part.outputs = outputLevels .emergency ∧ t.part.bridge.guards = Vector.replicate 4 Guard.off
      ∧ t.path = s.path ∧ u.path = s.path
      ∧ u.part.warmLine = false ∧ u.part.now = s.part.now ∧ u.part.bridge.base = s.part.bridge.base
      ∧ u.part.bridge.guards = Vector.replicate 4 Guard.off ∧ u.part.bridge.dropped = 0 ∧ u.part.ord = Ord.cold
      ∧ u.part.prf = { s.part.prf with copying := none } ∧ u.part.ssu.restrictions = s.part.ssu.restrictions
      ∧ u.part.aut.current = s.part.aut.current ∧ u.part.aut.next = s.part.aut.next
      ∧ u.part.odo.pos = s.part.odo.pos ∧ u.part.dor.doors = s.part.dor.doors ∧ u.part.dor.permits = s.part.dor.permits
      ∧ (∀ d, d ≠ .mode → d ≠ .test → (s.part.entry d).latched = true →
          Safety.latchedAt d (s.part.entry d).stage u.part)
      ∧ (s.part.mod.mode ≠ .run → s.part.mod.mode ≠ .test → u.part.mod.mode = s.part.mod.mode)
      ∧ u.part.mod.hostSilent = false ∧ u.part.mod.silence = some s.part.now ∧ u.part.msg.mailbox = []
      ∧ (∃ e, u.part.evq.queue.head? = some e ∧ e.kind = .warmStart)
      ∧ (Safety.standDone s.part →
        (s.part.brk.test = none → t.part.brk.record = s.part.brk.record)
        ∧ (∀ r, s.part.brk.test = some r →
            t.part.brk.record = { s.part.brk.record with
              outcome := .aborted, abort := .reset
              results := s.part.brk.record.results.set r.step .notRun, times := s.part.brk.record.times.set r.step 0 }
            ∧ (t.part.entry .test).stage = .released ∧ (s.part.mod.mode = .test → u.part.mod.mode = .stand))
        ∧ u.part.brk.test = none ∧ u.part.brk.record.outcome = t.part.brk.record.outcome ∧ u.part.brk.record.abort = t.part.brk.record.abort
        ∧ u.part.brk.inputs = s.part.brk.inputs
        ∧ (s.part.mod.mode = .run → u.part.mod.mode = .run ∨ u.part.mod.mode = .stand ∧ s.part.odo.standstill = true)
        ∧ u.part.mod = { s.part.mod with
            mode := u.part.mod.mode, charge := u.part.mod.charge, silence := some s.part.now, hostSilent := false }
        ∧ u.part.odo = { s.part.odo with
            capture := .idle, standTimer := some s.part.now, creep := u.part.odo.creep, reverse := u.part.odo.reverse }
        ∧ u.part.dor = { s.part.dor with
            openAffectedLeft := 0, openAffectedRight := 0, closeAffectedLeft := 0, closeAffectedRight := 0 }
        ∧ u.part.aut = { s.part.aut with dc := u.part.aut.dc, request := u.part.aut.request, travel := u.part.aut.travel }
        ∧ u.part.link = { s.part.link with
            ptt := false, state := .listen, assembler := .outside, flowHold := false, deferTimer := none, keyUpTimer := none
            pauseTimer := none, tailTimer := none, sendBuffer := none, queue := [] }
        ∧ u.part.msg = { s.part.msg with
            mailbox := [], reportTimer := if s.part.mod.mode = .stabled then none else some s.part.now }
        ∧ ∃ e, u.part.evq.queue.head? = some e ∧ e.sequence = s.part.evq.next ∧ e.time = s.part.now ∧ e.position = s.part.odo.pos
            ∧ e.argument.toNat = if s.part.mod.mode = .test ∧ s.part.brk.test.isSome then 1 else s.part.mod.mode.code)

/-- While a reset is asserted the deliveries, the characters from the radio and the timers of the blocks that it holds change nothing; while cold reset is
asserted, neither do the tick, the index pulses, the datum edges, the copy, the door motion, permit and link timers. A delivery from a source that is no station
is no delivery (R145). That the row of an event from outside changes nothing under a reset is the model's reading (log 10), and that the time base takes no tick under
cold reset is its choice (log 2). -/
def Obligations.ResetHoldsOff : Prop :=
  ∀ (c : Instr) (s : State), Safety.standDone s.part →
    (s.part.asserted = true → Safety.heldByReset c = true → exec c s = .next s)
    ∧ (s.part.coldLine = true → Safety.heldByCold c = true → exec c s = .next s)
    ∧ ∀ src kind, Safety.messageOf c = some (src, kind) → src.wf = false → exec c s = .next s

/-! ### The laws that every step keeps -/

/-- Every step keeps the laws of the part: the event queue (R188), the commanded stage (R45), the MODE entry (R114), PTT (R149), the mailbox and the
transmit queue (R154), the restriction list (R79), the permit list (R133), the authority slots (R92), the doors outside STAND and LOCKOUT (R122, R137), the entries that never
latch (R59), the bookkeeping of the timed orders (R184), the DOORS entry as its table forms it from the mode and the doors (R137), and the latched
EMERGENCY of ODOMETRY that a lost position holds in RUN (R13). -/
def Obligations.LawfulKept : Prop :=
  ∀ s t : State, Safety.lawful s.part → step s = .next t → Safety.lawful t.part

/-- Every step keeps memory in its one canonical form. That memory is a list in this form is the model's own representation and its choice (log 4), no
rule of the spec. -/
def Obligations.MemoryCanonicalKept : Prop :=
  ∀ s t : State, Safety.memory s → step s = .next t → Safety.memory t

/-- No step leaves the car in RUN at standstill with a latched entry (R109). -/
def Obligations.ReturnToStandDone : Prop :=
  ∀ s t : State, Safety.standDone s.part → step s = .next t → Safety.standDone t.part

/-- A lawful part that is STABLED is braked at BAND at least, one in LOCKOUT at EMERGENCY (R114), and the commanded stage is at
least that of every entry (R45). In RUN a FAULTED door holds it at S3 at least (R137), and validity UNKNOWN at EMERGENCY (R13). A door that is
RELEASED, OPENING, OPEN, CLOSING or REOPENING stands only in STAND or LOCKOUT, and holds it at S2 at least (R122). -/
def Obligations.LawsHoldTheBrake : Prop :=
  ∀ p : Part, Safety.lawful p →
    Safety.modeHeld p ∧ (∀ d, (p.entry d).stage.value ≤ p.brk.commanded.value)
    ∧ (p.mod.mode = .run → ∀ d : Fin 8, (p.door d).state = .faulted → Stage.value .s3 ≤ p.brk.commanded.value)
    ∧ (p.mod.mode = .run → p.odo.validity = .unknown → p.brk.commanded = .emergency)
    ∧ ∀ d : Fin 8, (p.door d).state = .released ∨ (p.door d).state = .opening ∨ (p.door d).state = .open_ ∨ (p.door d).state = .closing
        ∨ (p.door d).state = .reopening →
      (p.mod.mode = .stand ∨ p.mod.mode = .lockout) ∧ Stage.value .s2 ≤ p.brk.commanded.value

/-! ### Frames -/

/-- A command that is no host access leaves the memory path; any command leaves every byte outside the word of the waiting write. -/
def Obligations.MemoryFrame : Prop :=
  ∀ (c : Instr) (s t : State), exec c s = .next t →
    (Safety.hostAccess c = false → t.path = s.path)
    ∧ ∀ a, (∀ x, s.path.access = some x → x.isRead = false → a < x.addr.toNat ∨ x.addr.toNat + 4 ≤ a) →
        Memory.read t.path.mem a = Memory.read s.path.mem a

/-- Time, the reset lines and the straps, the encoders, the speed window, standstill, the route position and the rest of the odometer, the profile
store, the restriction list and the authority slots change by the commands that `mayChange` names for them, and by no other. -/
def Obligations.FrameTravel : Prop :=
  ∀ (c : Instr) (s t : State), exec c s = .next t →
    (.now ∉ Safety.mayChange c → t.part.now = s.part.now)
    ∧ (.lines ∉ Safety.mayChange c → t.part.coldLine = s.part.coldLine ∧ t.part.warmLine = s.part.warmLine)
    ∧ ((∀ b r, c ≠ .coldResetRelease b r) →
        t.part.bridge.base = s.part.bridge.base ∧ t.part.link.bitRate = s.part.link.bitRate)
    ∧ (.odo ∉ Safety.mayChange c →
        t.part.odo.p1 = s.part.odo.p1 ∧ t.part.odo.p2 = s.part.odo.p2 ∧ t.part.odo.w = s.part.odo.w
        ∧ t.part.odo.pos = s.part.odo.pos ∧ t.part.odo.window = s.part.odo.window ∧ t.part.odo.bucket = s.part.odo.bucket
        ∧ t.part.odo.speed = s.part.odo.speed ∧ t.part.odo.dir = s.part.odo.dir
        ∧ t.part.odo.standstill = s.part.odo.standstill ∧ t.part.odo.standTimer = s.part.odo.standTimer
        ∧ (.track ∉ Safety.mayChange c →
            t.part.odo = { s.part.odo with creep := t.part.odo.creep, reverse := t.part.odo.reverse }))
    ∧ (.prf ∉ Safety.mayChange c → t.part.prf = s.part.prf)
    ∧ (.restr ∉ Safety.mayChange c → t.part.ssu.restrictions = s.part.ssu.restrictions)
    ∧ (.slots ∉ Safety.mayChange c →
        t.part.aut.current = s.part.aut.current ∧ t.part.aut.next = s.part.aut.next
        ∧ t.part.aut.lastRevoke = s.part.aut.lastRevoke ∧ t.part.aut.missed = s.part.aut.missed
        ∧ t.part.aut.relinquished = s.part.aut.relinquished)

/-- The doors with their inputs, the sides, the permits and the event masks, and the receiver, the station table, the link timer, the mailbox and the
message counts change by the commands named for them only. -/
def Obligations.FrameDoorsAndRadio : Prop :=
  ∀ (c : Instr) (s t : State), exec c s = .next t →
    (.doors ∉ Safety.mayChange c →
        t.part.dor.doors = s.part.dor.doors ∧ t.part.dor.left = s.part.dor.left ∧ t.part.dor.right = s.part.dor.right)
    ∧ (.inputs ∉ Safety.mayChange c → ∀ d : Fin 8, Safety.levels (t.part.door d) = Safety.levels (s.part.door d))
    ∧ (.permits ∉ Safety.mayChange c → t.part.dor.permits = s.part.dor.permits)
    ∧ (.masks ∉ Safety.mayChange c →
        t.part.dor.risingLow = s.part.dor.risingLow ∧ t.part.dor.risingHigh = s.part.dor.risingHigh
        ∧ t.part.dor.fallingLow = s.part.dor.fallingLow ∧ t.part.dor.fallingHigh = s.part.dor.fallingHigh)
    ∧ (.link ∉ Safety.mayChange c →
        t.part.link.cd = s.part.link.cd ∧ t.part.link.assembler = s.part.link.assembler
        ∧ t.part.link.stations = s.part.link.stations ∧ t.part.link.linkTimer = s.part.link.linkTimer
        ∧ t.part.link.lost = s.part.link.lost ∧ t.part.link.noise = s.part.link.noise
        ∧ t.part.link.rxDrops = s.part.link.rxDrops)
    ∧ (.msg ∉ Safety.mayChange c →
        t.part.msg.mailbox = s.part.msg.mailbox ∧ t.part.msg.serial = s.part.msg.serial
        ∧ t.part.msg.textDrops = s.part.msg.textDrops ∧ t.part.msg.badFormat = s.part.msg.badFormat)

/-- The order slots, the shadows, the guards and the dropped count change by the commands named for them only; a slot that is not RUNNING keeps its
record but by a trigger and the resets; stored events and fault bits are lost by a pop, a read of the summary, and the resets only. -/
def Obligations.FrameBridge : Prop :=
  ∀ (c : Instr) (s t : State), exec c s = .next t →
    (.ord ∉ Safety.mayChange c → t.part.ord = s.part.ord)
    ∧ (.start ∉ Safety.mayChange c → .take ∉ Safety.mayChange c → Safety.bookkeeping s.part.ord →
        ∀ i : Fin 16, (s.part.ord.slots[i]).state ≠ .running → t.part.ord.slots[i] = s.part.ord.slots[i])
    ∧ (.guards ∉ Safety.mayChange c →
        t.part.bridge.guards = s.part.bridge.guards ∧ t.part.bridge.dropped = s.part.bridge.dropped)
    ∧ (.evq ∉ Safety.mayChange c →
        s.part.evq.queue <+: t.part.evq.queue
        ∧ ∀ i : Nat, s.part.evq.faults.getLsbD i = true → t.part.evq.faults.getLsbD i = true)

/-- A latched entry stays latched, at no lower stage, but for RESET DEMAND, E_RELEASE and the resets (R44), or the commands that can
carry one of these; the feedback inputs, the running brake test, the charge wait, the wake reason, the crew key, the silence timer and the host-silent flag
change by the commands named for them only. The mode changes by those named for it, or by the return to STAND (R109). -/
def Obligations.FrameBrakeAndMode : Prop :=
  ∀ (c : Instr) (s t : State), exec c s = .next t →
    (.unlatch ∉ Safety.mayChange c → ∀ d, d ≠ .mode → (s.part.entry d).latched = true →
        Safety.latchedAt d (s.part.entry d).stage t.part)
    ∧ (.inputs ∉ Safety.mayChange c → t.part.brk.inputs = s.part.brk.inputs)
    ∧ (.ord ∉ Safety.mayChange c →
        t.part.brk.test.map TestRun.step = s.part.brk.test.map TestRun.step
        ∧ t.part.brk.record.outcome = s.part.brk.record.outcome ∧ t.part.brk.record.abort = s.part.brk.record.abort)
    ∧ (.charge ∉ Safety.mayChange c →
        t.part.mod.charge = s.part.mod.charge ∧ t.part.mod.wakeReason = s.part.mod.wakeReason
        ∧ t.part.mod.crewKey = s.part.mod.crewKey)
    ∧ (.silence ∉ Safety.mayChange c →
        t.part.mod.silence = s.part.mod.silence ∧ t.part.mod.hostSilent = s.part.mod.hostSilent)
    ∧ (.mode ∉ Safety.mayChange c →
        t.part.mod.mode = s.part.mod.mode ∨ (s.part.mod.mode = .run ∧ t.part.mod.mode = .stand))

/-! ### Odometry and the profile -/

/-- A step of an OK encoder in the quadrature sequence counts one (R1): the tally, and for the motion encoder the running millisecond
and the direction (R17), and for the source, with validity not UNKNOWN, route position (R5). The standstill timer restarts and
standstill ends, but for a reset (R18).
A step of both lines of an OK encoder faults it, counts nothing and posts ENCODER_FAULT (R2); a FAULTED encoder's lines, and any
encoder's while cold reset is asserted, move the quadrature state alone (R1, R24).
With no brake test running, a count also acts: a crossing begins an entry check (R9) or leaves the rack (R11, R13), W travel
judges the check (R10), a pinion moves deviation to a climb-out (R14, R15), and the motion encoder the creep counter, with its roll-away wake, or the
reverse counter to ROLLBACK (R16, R116). A fault makes source and regime act on the new health: CLIMB_OFF, SOURCE_CHANGED,
the pinion fallback (R12), the lost position (R13), and W's fault fails a check (R10). The order of the parts of one count is the model's choice
(log 12); that of a fault's events is the spec's (R2). -/
def Obligations.EncodersCountAndFault : Prop :=
  (∀ (e : Encoder) (levels : BitVec 2) (c : Dir) (s : State),
    s.part.coldLine = false → (s.part.odo.enc e).faulted = false → Safety.follows (s.part.odo.enc e).quad levels c →
    ∃ t, exec (.encoderStep e levels) s = .next t
      ∧ t.part.odo.enc e = ⟨(s.part.odo.enc e).tally + BitVec.ofInt 32 c.count, false, levels⟩
      ∧ (∀ x, x ≠ e → t.part.odo.enc x = s.part.odo.enc x)
      ∧ (s.part.odo.motion = some e → t.part.odo.dir = c ∧ t.part.odo.bucket = s.part.odo.bucket + c.count)
      ∧ (s.part.odo.motion ≠ some e → t.part.odo.dir = s.part.odo.dir ∧ t.part.odo.bucket = s.part.odo.bucket)
      ∧ (s.part.odo.source.encoder? = some e → s.part.odo.validity ≠ .unknown →
          t.part.odo.pos = wordOfCount (s.part.odo.pos.toInt + c.count))
      ∧ (s.part.odo.source.encoder? ≠ some e ∨ s.part.odo.validity = .unknown → t.part.odo.pos = s.part.odo.pos)
      ∧ t.part.odo.standTimer = some s.part.now ∧ (s.part.asserted = false → t.part.odo.standstill = false))
  ∧ (∀ (e : Encoder) (levels : BitVec 2) (s : State),
    (s.part.coldLine = false → (s.part.odo.enc e).faulted = false → levels = ~~~(s.part.odo.enc e).quad →
      ∃ t, exec (.encoderStep e levels) s = .next t
        ∧ t.part.odo.enc e = ⟨(s.part.odo.enc e).tally, true, levels⟩
        ∧ (∀ x, x ≠ e → t.part.odo.enc x = s.part.odo.enc x) ∧ t.part.odo.pos = s.part.odo.pos
        ∧ Safety.posts s.part t.part [(.encoderFault, BitVec.ofNat 16 (encoderCode e), s.part.odo.pos)]
        ∧ Safety.flagged .odometry t.part)
    ∧ ((s.part.odo.enc e).faulted = true ∨ s.part.coldLine = true → Safety.standDone s.part →
      ∃ t, exec (.encoderStep e levels) s = .next t
        ∧ t.part.odo = s.part.odo.setEnc e { s.part.odo.enc e with quad := levels } ∧ t.part.evq = s.part.evq))
  ∧ (∀ (e : Encoder) (levels : BitVec 2) (c : Dir) (s : State),
    s.part.asserted = false → (s.part.odo.enc e).faulted = false → Safety.follows (s.part.odo.enc e).quad levels c →
    s.part.brk.test = none →
    ∃ t, exec (.encoderStep e levels) s = .next t
      ∧ (s.part.odo.source.encoder? = some e → s.part.odo.validity ≠ .unknown → ∀ i j, s.part.odo.segment = some i →
          segmentIndex t.part.odo.pos.toInt s.part.prf.active = some j → Safety.crossed c i j s.part t.part)
      ∧ ((s.part.odo.source.encoder? = some e → Safety.staysWithin s.part t.part) →
          (∀ x, s.part.odo.entry = some x → s.part.odo.regime = .entering → s.part.odo.validity ≠ .unknown →
            s.part.odo.w.faulted = false → Safety.entryJudged (x.count e c) s.part t.part)
          ∧ (e ≠ .w → s.part.odo.entry = none → Safety.deviates s.part t.part))
      ∧ (s.part.odo.motion = some e → s.part.mod.mode = .stand ∨ s.part.mod.mode = .stabled → Safety.crept s.part t.part)
      ∧ (s.part.odo.motion = some e → s.part.mod.mode = .run →
          ∀ a, s.part.aut.current = some a → (∀ n, s.part.aut.next = some n → n.dir = a.dir) →
          Safety.reversed a.dir c s.part t.part))
  ∧ ∀ (e : Encoder) (s : State),
    s.part.coldLine = false → (s.part.odo.enc e).faulted = false → s.part.odo.validity ≠ .unknown →
    ∃ t, exec (.encoderStep e (~~~(s.part.odo.enc e).quad)) s = .next t
      ∧ (s.part.odo.regime ≠ .entering ∨ e ≠ .w → Safety.healthTaken e s.part t.part)
      ∧ (s.part.odo.regime = .entering → e = .w → Safety.entryBroken s.part t.part)

/-- A tick moves the time base by 1 ms and forms measured speed from the last 100 nets (R17, R187); the standstill timer's expiry starts
standstill with its event (R18). A changed speed makes SSU evaluate: permitted speed, braking distance and distance ahead stand as
the rules give them (R71 to R73) in the supervision direction (R69), and in RUN the overspeed hold, the supervision state, the curve check, the following request and the trip
follow (R74 to R77); outside RUN no check is made (R70). That speed is formed at the tick, without the counts of the running millisecond, is the model's reading (log 19), and that the
tick moves the time base its choice (log 2). -/
def Obligations.TickAndStandstill : Prop :=
  ∀ s : State,
    (s.part.coldLine = false →
      ∃ t, exec .speedWindowTick s = .next t
        ∧ t.part.now = s.part.now + 1 ∧ t.part.odo.window = (s.part.odo.bucket :: s.part.odo.window).take 100
        ∧ t.part.odo.bucket = 0 ∧ t.part.odo.speed = min (t.part.odo.window.sum.natAbs * 10) 4095)
    ∧ (s.part.due s.part.odo.standTimer s.part.prf.settings.standstillTime = true → s.part.asserted = false →
      s.part.odo.standstill = false →
      ∃ t, exec .standstillTimerExpiry s = .next t
        ∧ t.part.odo.standstill = true ∧ t.part.odo.standTimer = none
        ∧ Safety.posts s.part t.part [(.standstill, 0, s.part.odo.pos)])
    ∧ (s.part.asserted = false → s.part.mod.mode ≠ .run ∨ s.part.odo.standstill = false →
      ∃ t, exec .speedWindowTick s = .next t
        ∧ (t.part.odo.speed = s.part.odo.speed →
            t.part.ssu = s.part.ssu ∧ t.part.brk = s.part.brk ∧ t.part.evq.queue = s.part.evq.queue)
        ∧ (t.part.odo.speed ≠ s.part.odo.speed → Safety.numbersStand t.part
            ∧ (s.part.mod.mode ≠ .run →
                t.part.ssu.state = s.part.ssu.state ∧ t.part.ssu.hold = s.part.ssu.hold ∧ t.part.brk = s.part.brk)
            ∧ (s.part.mod.mode = .run → Safety.checkedInRun (s.part.withNow t.part.now) t.part)))

/-- A datum edge takes the nearest candidate (R19): AT EDGE matches at once, TOOTH ALIGN waits for the K-th index pulse of the source
pinion (R20), CENTRE for the falling edge, where it matches at the midpoint (R21). With no candidate, or TOOTH ALIGN outside RACK, it is
a mismatch (R22). -/
def Obligations.DatumCaptures : Prop :=
  ∀ s : State,
    (s.part.odo.validity ≠ .unknown → s.part.asserted = false →
      ∃ t, exec .datumRisingEdge s = .next t
        ∧ (candidate s.part = none →
            Safety.posts s.part t.part [(.datumMismatch, 1, s.part.odo.pos)] ∧ t.part.odo.mismatches = sat8 s.part.odo.mismatches
            ∧ t.part.odo.capture = .idle ∧ t.part.odo.pos = s.part.odo.pos ∧ Safety.flagged .datum t.part)
        ∧ ∀ r, candidate s.part = some r →
            (r.method = 1 → Safety.captured (wordOfCount ((r.datumPosition : Int) * 16)) s.part t.part)
            ∧ (r.method = 2 → s.part.odo.regime = .rack → s.part.odo.source = .p1 →
                t.part.odo.capture = .awaitIndex r.datumPosition r.datumK s.part.odo.dir .p1 0 0)
            ∧ (r.method = 2 → s.part.odo.regime = .rack → s.part.odo.source = .p2 →
                t.part.odo.capture = .awaitIndex r.datumPosition r.datumK s.part.odo.dir .p2 0 0)
            ∧ (r.method = 2 → s.part.odo.regime ≠ .rack → Safety.posts s.part t.part [(.datumMismatch, 2, s.part.odo.pos)])
            ∧ (r.method = 3 → t.part.odo.capture = .awaitFall r.datumPosition r.datumWindow s.part.odo.pos 0))
    ∧ (∀ datum window rise travel, s.part.coldLine = false → s.part.odo.capture = .awaitFall datum window rise travel →
      ∃ t, exec .datumFallingEdge s = .next t
        ∧ Safety.captured (wordOfCount (s.part.odo.pos.toInt
            + ((datum : Int) * 16 - (rise.toInt + (s.part.odo.pos.toInt - rise.toInt).tdiv 2)))) s.part t.part)
    ∧ ∀ x datum k dir pulses travel, s.part.coldLine = false → (s.part.odo.enc (pinionEncoder x)).faulted = false →
      s.part.odo.capture = .awaitIndex datum k dir x pulses travel →
      ∃ t, exec (.indexPulse x) s = .next t
        ∧ (pulses + 1 = k → Safety.captured (wordOfCount ((datum : Int) * 16 + dir.count * ((k : Int) * 16))) s.part t.part)
        ∧ (pulses + 1 ≠ k → t.part.odo.capture = .awaitIndex datum k dir x (pulses + 1) travel)

/-- SET POSITION and RESET ENCODER, refused with the reason of the first condition that fails. SET POSITION places the car, with the regime set
directly and the source by Table 1-1 (R4, R6, R8); RESET ENCODER heals the selected encoders, each keeping its tally and quadrature state, and
zeroes deviation (R3). -/
def Obligations.OdometryOrders : Prop :=
  ∀ (u : Trigger) (s : State), Safety.triggerJudged u s →
    let n := param (Safety.workingCopy u s) 0
    (∃ t, exec (.setPosition u) s = .next t ∧ Safety.checked (fun r => Safety.orderRefused 9 u r 0 s t)
      (Safety.orderDone 9 u (BitVec.ofNat 32 n) s t ∧ t.part.odo.pos = BitVec.ofNat 32 (n * 16) ∧ t.part.odo.mismatches = 0
        ∧ t.part.odo.capture = .idle ∧ t.part.odo.entry = none
        ∧ ∃ i, segmentIndex ((n : Int) * 16) s.part.prf.active = some i ∧ t.part.odo.segment = some i
          ∧ t.part.odo.regime = Safety.regimeAt i s.part
          ∧ t.part.odo.source =
              Safety.tableSource (Safety.regimeAt i s.part) s.part.odo.p1.faulted s.part.odo.p2.faulted s.part.odo.w.faulted
          ∧ (rackAt s.part i = true → s.part.odo.p1.faulted = false → s.part.odo.p2.faulted = false → t.part.odo.deviation = 0)
          ∧ t.part.odo.validity =
              (if rackAt s.part i && s.part.odo.p1.faulted && s.part.odo.p2.faulted then .uncertain else .provisional))
      [(s.part.mod.mode ≠ .lockout, .lockout), (s.part.mod.mode = .stand, .wrongMode), (s.part.odo.standstill = true, .notStandstill),
       (s.part.prf.active ≠ [], .noProfile), (n ≤ 1048575 ∧ n ≤ s.part.prf.settings.routeEnd, .badParam),
       (Safety.sourceAt ((n : Int) * 16) s.part, .conditionActive)])
    ∧ ∃ t, exec (.resetEncoder u) s = .next t ∧ Safety.checked (fun r => Safety.orderRefused 10 u r 0 s t)
      (∃ w : Word, Safety.orderDone 10 u w s t
        ∧ w.toNat = (if t.part.odo.p1.faulted then 0 else 1) + (if t.part.odo.p2.faulted then 0 else 2) + (if t.part.odo.w.faulted then 0 else 4)
        ∧ t.part.odo.p1 = { s.part.odo.p1 with faulted := if n = 1 ∨ n = 4 then false else s.part.odo.p1.faulted }
        ∧ t.part.odo.p2 = { s.part.odo.p2 with faulted := if n = 2 ∨ n = 4 then false else s.part.odo.p2.faulted }
        ∧ t.part.odo.w = { s.part.odo.w with faulted := if n = 3 ∨ n = 4 then false else s.part.odo.w.faulted }
        ∧ t.part.odo.deviation = 0 ∧ t.part.odo.pos = s.part.odo.pos ∧ t.part.odo.regime = s.part.odo.regime
        ∧ (s.part.odo.validity = .unknown → t.part.odo.validity = .unknown ∧ t.part.odo.source = .none)
        ∧ (t.part.odo.validity ≠ .unknown → t.part.odo.source =
            Safety.tableSource s.part.odo.regime t.part.odo.p1.faulted t.part.odo.p2.faulted t.part.odo.w.faulted))
      [(s.part.mod.mode ≠ .lockout, .lockout), (s.part.mod.mode = .stand, .wrongMode), (s.part.odo.standstill = true, .notStandstill),
       (1 ≤ n ∧ n ≤ 4, .badParam)]

/-- ACTIVATE PROFILE is refused with the reason and the result word of the first check that fails (R31 to R34); accepted, it runs in its slot and
the copy is in flight, the active bank as before (R35). -/
def Obligations.ActivationBegins : Prop :=
  ∀ (u : Trigger) (s : State), Safety.triggerJudged u s →
    let count := param (Safety.workingCopy u s) 0
    let segs := s.part.prf.staged.toList.take count
    let crc := crc16 ((segs.flatMap fun r => r.words.flatMap wordBytes) ++ s.part.prf.stagedSettings.toList.flatMap wordBytes)
    let bad := firstBad 0 none (withEnds s.part.prf.stagedSettings.routeEnd segs)
    ∃ t, exec (.activateProfile u) s = .next t
      ∧ Safety.checked (fun r => Safety.orderRefused 11 u r (if r = .badCrc then BitVec.ofNat 32 crc.toNat else 0) s t ∧ t.part.prf = s.part.prf)
        ((∀ i, bad = some i → Safety.orderRefused 11 u .badSegment (BitVec.ofNat 32 i) s t ∧ t.part.prf = s.part.prf)
          ∧ (bad = none → settingsValid s.part.prf.stagedSettings (lastStart segs) = false →
              Safety.orderRefused 11 u .badSegment 256 s t ∧ t.part.prf = s.part.prf)
          ∧ (bad = none → settingsValid s.part.prf.stagedSettings (lastStart segs) = true →
              Safety.orderRuns 11 u s t ∧ t.part.ord.activate = some u.slot
              ∧ t.part.prf = { s.part.prf with copying := some ⟨segs, s.part.prf.stagedSettings, crc⟩ }))
        [(s.part.mod.mode = .stand ∨ s.part.mod.mode = .stabled, .wrongMode), (s.part.prf.copying = none, .busy),
         (1 ≤ count ∧ count ≤ 256 ∧ param (Safety.workingCopy u s) 1 ≤ 65535, .badParam),
         (crc.toNat = param (Safety.workingCopy u s) 1, .badCrc)]

/-- The copy completes (R38): the active profile, settings and CRC are the captured copy, PROFILE_ACTIVE comes first, and the slot of the
activation, where one runs, is DONE with the count of segments and ORDER_DONE. That ORDER_DONE stands right behind PROFILE_ACTIVE, before the consequences, is
the model's choice (log 13). -/
def Obligations.CopyCompletes : Prop :=
  ∀ (h : Holding) (s : State), s.part.coldLine = false → s.part.prf.copying = some h →
    ∃ t, exec .copyCompletion s = .next t
      ∧ t.part.prf = { s.part.prf with active := h.segs, settings := h.settings, crc := h.crc, copying := none }
      ∧ Safety.posts s.part t.part [(.profileActive, BitVec.ofNat 16 h.segs.length, s.part.odo.pos)]
      ∧ ∀ i : Fin 16, s.part.ord.activate = some i → Safety.bookkeeping s.part.ord →
          (t.part.ord.slots[i]).state = .done ∧ (t.part.ord.slots[i]).result = BitVec.ofNat 32 h.segs.length
          ∧ Safety.posts s.part t.part [(.profileActive, BitVec.ofNat 16 h.segs.length, s.part.odo.pos),
              (.orderDone, arg3 i.val 1 (s.part.ord.slots[i]).tag.toNat, BitVec.ofNat 32 h.segs.length)]

/-! ### The brake -/

/-- A feedback input keeps its level. Outside a reset its change settles an operation that it confirms (R52); while SETTLED, a confirming
switch that opens is a fault and latches EMERGENCY, one above the stage that closes is a fault (R55). -/
def Obligations.FeedbackInputs : Prop :=
  ∀ (sw : FeedbackSwitch) (closed : Bool) (s : State),
    ∃ t, exec (.brakeFeedbackChange sw closed) s = .next t
      ∧ t.part.brk.inputs = s.part.brk.inputs.put sw closed
      ∧ (s.part.asserted = false → s.part.brk.inputs.get sw ≠ closed →
          (s.part.brk.state = .settled → closed = false → isConfirming s.part.reduced s.part.brk.confirmed sw = true →
            Safety.posts s.part t.part [(.brakeFeedbackFault, arg2 2 s.part.brk.confirmed.value, s.part.odo.pos)]
            ∧ Safety.latchedAt .feedback .emergency t.part ∧ Safety.flagged .brake t.part)
          ∧ (s.part.brk.state = .settled → closed = true → isAbove s.part.brk.confirmed sw = true →
            Safety.posts s.part t.part [(.brakeFeedbackFault, arg2 3 s.part.brk.confirmed.value, s.part.odo.pos)]
            ∧ Safety.flagged .brake t.part)
          ∧ ∀ target deadline, s.part.brk.state = .applying target deadline ∨ s.part.brk.state = .releasing target deadline →
            operationConfirmed s.part.reduced (s.part.brk.inputs.put sw closed) s.part.brk.state = true →
            Safety.posts s.part t.part [(.brakeSettled, BitVec.ofNat 16 target.value, s.part.odo.pos)]
            ∧ (Safety.standDone s.part → t.part.brk.confirmed = target ∧ t.part.brk.state = .settled))

/-- A deadline that passes (R53): APPLYING toward a stage below EMERGENCY is a fault and latches EMERGENCY, toward EMERGENCY it is LOCKOUT
(R54); RELEASING is RELEASE_STUCK (R56). A running brake test fails (R64). -/
def Obligations.BrakeDeadlines : Prop :=
  ∀ (target : Stage) (start : Word) (s : State), s.part.asserted = false →
    (s.part.brk.state = .applying target (some start) → s.part.passed start (applyingDeadline target) = true →
      ∃ t, exec .applyingDeadlineExpiry s = .next t
        ∧ Safety.posts s.part t.part [(.brakeFeedbackFault, arg2 1 target.value, s.part.odo.pos)]
        ∧ (target ≠ .emergency → Safety.latchedAt .feedback .emergency t.part)
        ∧ (target = .emergency → t.part.mod.mode = .lockout)
        ∧ (s.part.brk.test.isSome = true → s.part.mod.mode ≠ .lockout →
            t.part.brk.test = none ∧ t.part.brk.record.outcome = .failed)
        ∧ Safety.flagged .brake t.part)
    ∧ (s.part.brk.state = .releasing target (some start) → s.part.passed start releasingDeadline = true →
      ∃ t, exec .releasingDeadlineExpiry s = .next t
        ∧ Safety.posts s.part t.part [(.releaseStuck, BitVec.ofNat 16 target.value, s.part.odo.pos)]
        ∧ (s.part.brk.test = none → Safety.standDone s.part → t.part.brk.state = .releasing target none)
        ∧ (s.part.brk.test.isSome = true → t.part.brk.test = none ∧ t.part.brk.record.outcome = .failed)
        ∧ Safety.flagged .brake t.part)

/-- A BRAKE TEST begins in its slot: TEST mode, step 1 with the TEST entry at S1 and its DEMAND_SET, the record started; the first of its conditions
that fails refuses it (R62, R63).
The hold of a test step ends (R63): the TEST entry takes the next stage, or after EMERGENCY the test has PASSED and the mode is
STAND. -/
def Obligations.BrakeTests : Prop :=
  (∀ (u : Trigger) (s : State), Safety.triggerJudged u s → Safety.lawful s.part →
    ∃ t, exec (.brakeTest u) s = .next t ∧ Safety.checked (fun r => Safety.orderRefused 5 u r 0 s t)
      (Safety.orderRuns 5 u s t ∧ t.part.ord.brakeTest = some u.slot ∧ t.part.mod.mode = .test
        ∧ (t.part.entry .test).stage = .s1 ∧ t.part.brk.test.map TestRun.step = some 0
        ∧ t.part.brk.record.outcome = .running ∧ t.part.brk.record.abort = .none ∧ t.part.brk.record.start = s.part.now
        ∧ Safety.posts s.part t.part [(.demandSet, arg3 12 1 1, s.part.odo.pos)])
      [(s.part.ord.brakeTest = none, .busy), (s.part.mod.mode ≠ .lockout, .lockout), (s.part.mod.mode = .stand, .wrongMode),
       (s.part.odo.standstill = true, .notStandstill), (Safety.doorsShut s.part, .doorsOpen),
       (∀ d, (s.part.entry d).latched = false, .latchedDemand), (s.part.mod.charge = .complete, .chargeWait),
       (∀ d, d ≠ .mode → (s.part.entry d).stage = .released, .conditionActive)])
  ∧ (∀ (run : TestRun) (hold : Word) (s : State), s.part.asserted = false → s.part.mod.mode = .test → s.part.brk.test = some run →
    run.hold = some hold → s.part.passed hold 500 = true → Safety.lawful s.part →
    ∃ t, exec .testHoldEnd s = .next t
      ∧ (∀ n : Fin 5, n.val = run.step.val + 1 →
          t.part.brk.test.map TestRun.step = some n ∧ (t.part.entry .test).stage = stepStage n
          ∧ (t.part.entry .test).cause = BitVec.ofNat 8 (n.val + 1) ∧ t.part.mod.mode = .test)
      ∧ (run.step = 4 →
          t.part.brk.test = none ∧ t.part.brk.record.outcome = .passed ∧ t.part.brk.record.abort = .none
          ∧ t.part.mod.mode = .stand ∧ (t.part.entry .test).stage = .released
          ∧ Safety.posts s.part t.part [(.modeChanged, 0x144, s.part.odo.pos)]))

/-- BRAKE REQUEST sets the ORDERED entry to the stage of parameter word 1, with DEMAND_SET at a rise and DEMAND_CLEARED at a fall, and gives the
commanded stage (R43, R58). With no test running a changed commanded stage starts an operation toward it, APPLYING or RELEASING by the
confirmed stage and the feedback, and settles at once where the feedback confirms it (R49 to R52). The seven outputs show the commanded
stage in every state, and EMERGENCY while a reset is asserted (R48, R51, Table 3-4). -/
def Obligations.BrakeRequests : Prop :=
  (∀ (u : Trigger) (s : State), Safety.triggerJudged u s → Safety.standDone s.part → (s.part.entry .ordered).latched = false →
    let n := param (Safety.workingCopy u s) 0
    ∃ t, exec (.brakeRequest u) s = .next t ∧ Safety.checked (fun r => Safety.orderRefused 7 u r 0 s t)
      (Safety.orderDone 7 u (BitVec.ofNat 32 t.part.brk.commanded.value) s t
        ∧ (t.part.entry .ordered).stage.value = n ∧ (t.part.entry .ordered).cause = (if n = 0 then 0 else 1)
        ∧ ((s.part.entry .ordered).stage.value < n → Safety.posts s.part t.part [(.demandSet, arg3 1 n 1, s.part.odo.pos)])
        ∧ (n < (s.part.entry .ordered).stage.value →
            Safety.posts s.part t.part [(.demandCleared, arg2 1 n, (s.part.entry .ordered).setPos)])
        ∧ (s.part.brk.test = none → Safety.brakeFollows s.part t.part))
      [(s.part.mod.mode ≠ .lockout, .lockout), (n ≤ 5, .badParam)])
  ∧ ∀ (p : Part) (i : Fin 7),
    p.outputs.testBit i.val = (Safety.outputBits (if p.asserted then .emergency else p.brk.commanded))[i.val]?.getD false

/-- RESET DEMAND clears the latch of a source whose condition of Table 3-7 is gone: the entry takes the stage its owner's condition calls for, with
DEMAND_CLEARED, and the owner acts; an entry not latched at stage 0 is left, one above 0 refuses it (R59). -/
def Obligations.ResetsDemand : Prop :=
  ∀ (u : Trigger) (d : DemandSource) (s : State), Safety.triggerJudged u s → Safety.standDone s.part →
    (param (Safety.workingCopy u s) 0 = 0 ∨ 12 < param (Safety.workingCopy u s) 0 →
      ∃ t, exec (.resetDemand u) s = .next t ∧ Safety.checked (fun r => Safety.orderRefused 8 u r 0 s t)
        (Safety.orderRefused 8 u .badParam 0 s t) [(s.part.mod.mode ≠ .lockout, .lockout)])
    ∧ (param (Safety.workingCopy u s) 0 = d.number →
      ∃ t, exec (.resetDemand u) s = .next t ∧ Safety.checked (fun r => Safety.orderRefused 8 u r 0 s t)
        (((s.part.entry d).latched = false →
            ((s.part.entry d).stage = .released → Safety.orderDone 8 u 0 s t ∧ t.part.entry d = s.part.entry d)
            ∧ ((s.part.entry d).stage ≠ .released → Safety.orderRefused 8 u .conditionActive 0 s t))
          ∧ ((s.part.entry d).latched = true →
            (¬ Safety.conditionGone s.part d → Safety.orderRefused 8 u .conditionActive 0 s t ∧ t.part.entry d = s.part.entry d)
            ∧ (Safety.conditionGone s.part d →
              Safety.orderDone 8 u (BitVec.ofNat 32 (Safety.owedStage s.part d).value) s t
              ∧ (t.part.entry d).latched = false ∧ (t.part.entry d).stage = Safety.owedStage s.part d
              ∧ Safety.ownerActs t.part d
              ∧ (d ≠ .supervision → Safety.posts s.part t.part
                  [(.demandCleared, arg2 d.number (Safety.owedStage s.part d).value, (s.part.entry d).setPos)]))))
        [(s.part.mod.mode ≠ .lockout, .lockout), (Safety.latches d = true, .badParam), (s.part.odo.standstill = true, .notStandstill)])

/-! ### Modes -/

/-- The mode orders, each refused with the reason of the first condition that fails (R107, R108, R110, R113); accepted, the mode changes with
MODE_CHANGED. At standstill RUN stays where neither host silence nor a trip latches an entry at the change (R109, R117); STAND in STAND
changes nothing; STAND in TEST aborts the test STOPPED (R66). -/
def Obligations.ModeOrders : Prop :=
  ∀ (u : Trigger) (s : State), Safety.triggerJudged u s →
    (∃ t, exec (.run u) s = .next t ∧ Safety.checked (fun r => Safety.orderRefused 1 u r 0 s t)
      (Safety.orderDone 1 u 0 s t ∧ Safety.posts s.part t.part [(.modeChanged, 0x211, s.part.odo.pos)]
        ∧ (s.part.odo.standstill = false → t.part.mod.mode = .run)
        ∧ (s.part.mod.hostSilent = false → s.part.odo.speed ≤ s.part.prf.settings.emergencyMargin → t.part.mod.mode = .run))
      [(s.part.mod.mode = .stand, .wrongMode), (s.part.prf.active ≠ [], .noProfile), (Safety.placeKnown s.part, .noPosition),
       (∃ a, s.part.aut.current = some a ∧ recordHoldsExtent a s.part = true, .noAuthority), (Safety.doorsShut s.part, .doorsOpen),
       (∀ d, (s.part.entry d).latched = false, .latchedDemand), (s.part.mod.charge = .complete, .chargeWait),
       (s.part.prf.copying = none, .profileBusy)])
    ∧ (∃ t, exec (.stand u) s = .next t ∧ Safety.checked (fun r => Safety.orderRefused 2 u r 0 s t)
      (Safety.orderDone 2 u 1 s t ∧ t.part.mod.mode = .stand
        ∧ (s.part.mod.mode = .stand → t.part.evq = s.part.evq)
        ∧ (s.part.mod.mode = .run → Safety.posts s.part t.part [(.modeChanged, 0x121, s.part.odo.pos)])
        ∧ (s.part.mod.mode = .test → Safety.posts s.part t.part [(.modeChanged, 0x141, s.part.odo.pos)]
            ∧ (s.part.brk.test.isSome = true → t.part.brk.test = none ∧ t.part.brk.record.outcome = .aborted
                ∧ t.part.brk.record.abort = .stopped)))
      [(s.part.mod.mode ≠ .lockout ∧ s.part.mod.mode ≠ .stabled, .wrongMode), (s.part.odo.standstill = true, .notStandstill)])
    ∧ (∃ t, exec (.stable u) s = .next t ∧ Safety.checked (fun r => Safety.orderRefused 3 u r 0 s t)
      (Safety.orderDone 3 u 0 s t ∧ t.part.mod.mode = .stabled ∧ t.part.msg.reportTimer = none
        ∧ Safety.posts s.part t.part [(.modeChanged, 0x311, s.part.odo.pos)])
      [(s.part.mod.mode = .stand, .wrongMode), (Safety.doorsShut s.part, .doorsOpen)])
    ∧ ∃ t, exec (.maintenanceRelease u) s = .next t ∧ Safety.checked (fun r => Safety.orderRefused 6 u r 0 s t)
      (Safety.orderDone 6 u 0 s t ∧ t.part.mod.mode = .stand ∧ Safety.posts s.part t.part [(.modeChanged, 0x156, s.part.odo.pos)])
      [(s.part.mod.mode = .lockout, .wrongMode), (s.part.odo.standstill = true, .notStandstill),
       (s.part.brk.state = .settled ∧ s.part.brk.confirmed = .emergency, .conditionActive)]

/-- The charge wait ends with CHARGE_DONE when TIMING has passed with the reservoir charged, or when the reservoir is charged later
(R115). A rising crew key, a WAKE message and a WAKE order wake a STABLED car (R116). In any other mode the
order is refused WRONG_MODE. -/
def Obligations.ChargeAndWake : Prop :=
  ∀ s : State,
    (∀ closed, ∃ t, exec (.reservoirSwitchChange closed) s = .next t
      ∧ t.part.brk.inputs = { s.part.brk.inputs with reservoir := closed }
      ∧ (s.part.coldLine = false → closed = true → s.part.brk.inputs.reservoir = false → s.part.mod.charge = .awaitReservoir →
          t.part.mod.charge = .complete ∧ Safety.posts s.part t.part [(.chargeDone, 0, s.part.odo.pos)]))
    ∧ (∀ start, s.part.asserted = false → s.part.mod.charge = .timing start →
        s.part.passed start s.part.prf.settings.chargeTime = true →
        ∃ t, exec .chargeTimingEnd s = .next t
          ∧ (s.part.brk.inputs.reservoir = true →
              t.part.mod.charge = .complete ∧ Safety.posts s.part t.part [(.chargeDone, 0, s.part.odo.pos)])
          ∧ (s.part.brk.inputs.reservoir = false → t.part.mod.charge = .awaitReservoir))
    ∧ (∀ level, ∃ t, exec (.crewKeyEdge level) s = .next t
        ∧ t.part.mod.crewKey = level
        ∧ (s.part.asserted = false → s.part.mod.crewKey = false → level = true → s.part.mod.mode = .stabled →
            Safety.woken .crewKey s.part t.part ∧ Safety.posts s.part t.part (Safety.wakeEvents .crewKey s.part)))
    ∧ (∀ src, Safety.delivered src s → s.part.mod.mode = .stabled →
        ∃ t, exec (.wakeMessage src) s = .next t
          ∧ Safety.woken .radio s.part t.part
          ∧ Safety.posts s.part t.part (Safety.linkEvents src s.part ++ Safety.wakeEvents .radio s.part))
    ∧ ∀ u, Safety.triggerJudged u s →
        ∃ t, exec (.wake u) s = .next t ∧ Safety.checked (fun r => Safety.orderRefused 4 u r 0 s t)
          (Safety.woken .order s.part t.part ∧ Safety.posts s.part t.part (Safety.wakeEvents .order s.part) ∧ Safety.orderDone 4 u 2 s t)
          [(s.part.mod.mode = .stabled, .wrongMode)]

/-- The silence timer's expiry sets host-silent with its event, and in RUN latches S3 (R117). A write to the alive word restarts the timer
and clears the flag, and is forwarded (R117, R176). -/
def Obligations.SilenceAndAlive : Prop :=
  ∀ s : State, s.part.asserted = false →
    (s.part.due s.part.mod.silence s.part.prf.settings.silencePeriod = true →
      ∃ t, exec .silenceTimerExpiry s = .next t
        ∧ t.part.mod.hostSilent = true ∧ t.part.mod.silence = none
        ∧ Safety.posts s.part t.part [(.hostSilent, if s.part.mod.mode = .run then 1 else 0, s.part.odo.pos)]
        ∧ (s.part.mod.mode = .run → Safety.latchedAt .silence .s3 t.part) ∧ Safety.flagged .silence t.part)
    ∧ ∀ d, ∃ t, exec (.aliveWrite d) s = .next t
        ∧ t.part.mod.silence = some s.part.now ∧ t.part.mod.hostSilent = false
        ∧ t.path.access = some ⟨false, s.part.areaAddr 0x200, d.data, d.enables⟩

/-! ### Doors -/

/-- An edge of a door input keeps its level and no other (R120). Outside cold reset a change whose mask selects it posts
DOOR_INPUT_EDGE (R138), and posts it first, which is the model's choice (log 13); the level the input has already is no edge. -/
def Obligations.DoorInputs : Prop :=
  ∀ (c : Instr) (d : Fin 8) (i : DoorInput) (closed : Bool) (s : State), Safety.doorEdgeOf c = some (d, i, closed) →
    ∃ t, exec c s = .next t
      ∧ (t.part.door d).level i = closed
      ∧ (∀ x j, x ≠ d ∨ j ≠ i → (t.part.door x).level j = (s.part.door x).level j)
      ∧ (s.part.coldLine = false → (s.part.door d).level i ≠ closed →
          Safety.posts s.part t.part (Safety.edgeEvents d i closed s.part))
      ∧ ((s.part.door d).level i = closed → Safety.standDone s.part → t.part.dor = s.part.dor ∧ t.part.evq = s.part.evq)

/-- CL closed locks a CLOSING door (R123); CL open faults a LOCKED or RELEASED one, with its events (R124). FO closed opens an OPENING door
(R122), PB a RELEASED one: OPENING, or with FO closed OPEN (R122).
An obstruction sends a CLOSING door to REOPENING, counting a retry up to 7 or then setting close-failed; FO closed recloses it while
the retries stand at or below the setting, and otherwise leaves it OPEN with close-failed (R123). A door whose motion timer runs out is FAULTED (R124).
That the edge event comes first, and DOOR_STATE before DOOR_FAULT, is the model's choice (log 13). -/
def Obligations.DoorsMove : Prop :=
  (∀ (d : Fin 8) (s : State), s.part.coldLine = false →
    ((s.part.door d).cl = false → (s.part.door d).state = .closing →
      ∃ t, exec (.doorClEdge d true) s = .next t ∧ (t.part.door d).state = .locked ∧ (t.part.door d).motion = none)
    ∧ ((s.part.door d).cl = true → (s.part.door d).state = .locked ∨ (s.part.door d).state = .released →
      ∃ t, exec (.doorClEdge d false) s = .next t
        ∧ (t.part.door d).state = .faulted ∧ (t.part.door d).fault = .contactLost ∧ Safety.flagged .door t.part
        ∧ Safety.posts s.part t.part
            (Safety.edgeEvents d .cl false s.part ++ Safety.doorFaultEvents d .contactLost s.part))
    ∧ ((s.part.door d).fo = false → (s.part.door d).state = .opening →
      ∃ t, exec (.doorFoEdge d true) s = .next t ∧ (t.part.door d).state = .open_ ∧ (t.part.door d).motion = none)
    ∧ ((s.part.door d).pb = false → (s.part.door d).state = .released →
      ∃ t, exec (.doorPbEdge d true) s = .next t
        ∧ ((s.part.door d).fo = true → (t.part.door d).state = .open_ ∧ (t.part.door d).motion = none)
        ∧ ((s.part.door d).fo = false → (t.part.door d).state = .opening ∧ (t.part.door d).motion = some s.part.now)))
  ∧ (∀ (d : Fin 8) (s : State), s.part.coldLine = false →
    ((s.part.door d).ob = false → (s.part.door d).state = .closing →
      ∃ t, exec (.doorObEdge d true) s = .next t
        ∧ ((s.part.door d).fo = false →
            (t.part.door d).state = .reopening ∧ (t.part.door d).motion = some s.part.now
            ∧ ((s.part.door d).retries < 7 → (t.part.door d).retries = (s.part.door d).retries + 1
                ∧ (t.part.door d).closeFailed = (s.part.door d).closeFailed)
            ∧ (7 ≤ (s.part.door d).retries → (t.part.door d).retries = (s.part.door d).retries
                ∧ (t.part.door d).closeFailed = true))
        ∧ ((s.part.door d).fo = true → (s.part.door d).cl = false →
            (t.part.door d).state = .open_ ∧ (t.part.door d).closeFailed = true))
    ∧ ((s.part.door d).fo = false → (s.part.door d).state = .reopening →
      ∃ t, exec (.doorFoEdge d true) s = .next t
        ∧ ((s.part.door d).closeFailed = true ∨ s.part.prf.settings.obstructionRetries < (s.part.door d).retries →
            (t.part.door d).state = .open_ ∧ (t.part.door d).closeFailed = true ∧ (t.part.door d).motion = none)
        ∧ ((s.part.door d).closeFailed = false → (s.part.door d).retries ≤ s.part.prf.settings.obstructionRetries →
            ((s.part.door d).cl = true → (t.part.door d).state = .locked ∧ (t.part.door d).motion = none)
            ∧ ((s.part.door d).cl = false → (s.part.door d).ob = false →
                (t.part.door d).state = .closing ∧ (t.part.door d).motion = some s.part.now)
            ∧ ((s.part.door d).cl = false → (s.part.door d).ob = true →
                (t.part.door d).state = .open_ ∧ (t.part.door d).closeFailed = true)))
    ∧ (s.part.due (s.part.door d).motion s.part.prf.settings.doorMotionTime = true →
      ∃ t, exec (.motionTimerExpiry d) s = .next t
        ∧ (t.part.door d).state = .faulted ∧ (t.part.door d).fault = .motionTimeout ∧ (t.part.door d).motion = none
        ∧ Safety.flagged .door t.part ∧ Safety.posts s.part t.part (Safety.doorFaultEvents d .motionTimeout s.part)))

/-- A pulled emergency handle posts HANDLE_PULLED (R135); in RUN, moving, over a no-stop segment, the pull is deferred with its door, position
and time, and otherwise HANDLE is latched at S3. A deferred pull is released, and HANDLE latched at S3, at the count that brings the car clear of
every no-stop segment and at standstill (R136). That the
edge event (R138) stands before HANDLE_PULLED is the model's choice (log 13). -/
def Obligations.HandlePulls : Prop :=
  (∀ (d : Fin 8) (s : State), s.part.coldLine = false → (s.part.door d).eh = false →
    ∃ t, exec (.doorEhEdge d true) s = .next t
      ∧ Safety.posts s.part t.part
          (Safety.edgeEvents d .eh true s.part ++ [(.handlePulled, BitVec.ofNat 16 d.val, s.part.odo.pos)])
      ∧ Safety.flagged .handle t.part
      ∧ (s.part.mod.mode = .run → s.part.odo.standstill = false → noStopHere s.part = true →
          t.part.dor.deferred = if s.part.dor.deferred.isSome then s.part.dor.deferred
            else some ⟨d, s.part.odo.pos, s.part.now⟩)
      ∧ (s.part.mod.mode ≠ .run ∨ s.part.odo.standstill = true ∨ noStopHere s.part = false →
          Safety.latchedAt .handle .s3 t.part))
  ∧ (∀ (e : Encoder) (levels : BitVec 2) (c : Dir) (s : State),
    s.part.asserted = false → (s.part.odo.enc e).faulted = false → Safety.follows (s.part.odo.enc e).quad levels c →
    s.part.brk.test = none → s.part.odo.source.encoder? = some e → s.part.odo.validity ≠ .unknown →
    s.part.dor.deferred.isSome = true →
    ∃ t, exec (.encoderStep e levels) s = .next t ∧ Safety.pullJudged s.part t.part)
  ∧ ∀ s : State, s.part.due s.part.odo.standTimer s.part.prf.settings.standstillTime = true → s.part.asserted = false →
    s.part.odo.standstill = false → s.part.dor.deferred.isSome = true →
    ∃ t, exec .standstillTimerExpiry s = .next t ∧ t.part.dor.deferred = none ∧ Safety.latchedAt .handle .s3 t.part

/-- RELEASE SIDE is refused with the reason of the first check that fails; accepted, the side record takes the chosen platform and the route
position, and every LOCKED door of the side is RELEASED (R126). -/
def Obligations.ReleasesSide : Prop :=
  ∀ (u : Trigger) (s : State), Safety.triggerJudged u s →
    let n := param (Safety.workingCopy u s) 0
    (n ≠ 1 → n ≠ 2 → ∃ t, exec (.releaseSide u) s = .next t ∧ Safety.checked (fun r => Safety.orderRefused 15 u r 0 s t)
      (Safety.orderRefused 15 u .badParam 0 s t) [(s.part.mod.mode ≠ .lockout, .lockout), (s.part.mod.mode = .stand, .wrongMode)])
    ∧ ∀ side : Side, n = side.code →
      ∃ t, exec (.releaseSide u) s = .next t ∧ Safety.checked (fun r => Safety.orderRefused 15 u r 0 s t)
        (∀ r, Safety.chosenPlatform side r s.part →
          Safety.orderDone 15 u (BitVec.ofNat 32 r.platformId) s t
          ∧ t.part.side side = ⟨true, BitVec.ofNat 8 r.platformId, r.stationControlled, s.part.odo.pos⟩
          ∧ ∀ d : Fin 8, t.part.door d =
              if Safety.ofSide side d ∧ (s.part.door d).state = .locked then { s.part.door d with state := .released, motion := none }
              else s.part.door d)
        [(s.part.mod.mode ≠ .lockout, .lockout), (s.part.mod.mode = .stand, .wrongMode), (s.part.odo.standstill = true, .notStandstill),
         (2 ≤ s.part.brk.confirmed.value, .brakeLow), (Safety.placeKnown s.part, .noPosition),
         (∃ r ∈ s.part.prf.active, Safety.platformFor side r s.part, .outsidePlatform),
         (∃ r, Safety.chosenPlatform side r s.part, .noPermit), (s.part.ord.closeSlot side = none, .busy)]

/-- OPEN SIDE: every RELEASED door of the side enters OPENING, and is OPEN at once where FO is closed; the order runs while a door of the side is
OPENING, and is DONE with ALL_OPEN where none is (R122, R128). -/
def Obligations.OpensSide : Prop :=
  ∀ (u : Trigger) (s : State), Safety.triggerJudged u s → Safety.bookkeeping s.part.ord →
    let n := param (Safety.workingCopy u s) 0
    (n ≠ 1 → n ≠ 2 → ∃ t, exec (.openSide u) s = .next t ∧ Safety.checked (fun r => Safety.orderRefused 16 u r 0 s t)
      (Safety.orderRefused 16 u .badParam 0 s t) [(s.part.mod.mode ≠ .lockout, .lockout)])
    ∧ ∀ side : Side, n = side.code →
      ∃ t, exec (.openSide u) s = .next t ∧ Safety.checked (fun r => Safety.orderRefused 16 u r 0 s t)
        ((∀ d : Fin 8, t.part.door d =
            if Safety.ofSide side d ∧ (s.part.door d).state = .released then
              (if (s.part.door d).fo then { s.part.door d with state := .open_, motion := none }
               else { s.part.door d with state := .opening, motion := some s.part.now })
            else s.part.door d)
          ∧ ((∃ d, Safety.ofSide side d ∧ (t.part.door d).state = .opening) →
              Safety.orderRuns 16 u s t ∧ t.part.ord.openSlot side = some u.slot)
          ∧ ((∀ d, Safety.ofSide side d → (t.part.door d).state ≠ .opening) →
              Safety.orderDone 16 u 1 s t ∧ t.part.ord.openSlot side = none))
        [(s.part.ord.openSlot side = none, .busy), (s.part.mod.mode ≠ .lockout, .lockout), (s.part.ord.closeSlot side = none, .busy),
         ((s.part.side side).released = true, .outsidePlatform)]

/-- CLOSE SIDE, in every mode: the release is withdrawn, a RUNNING OPEN SIDE of the side is overtaken, and every RELEASED, OPENING or OPEN door enters
CLOSING with its retry count 0 and close-failed clear, to be LOCKED at once where CL is closed; the order runs while a door of the side is CLOSING
or REOPENING, and is DONE with ALL_LOCKED where all are LOCKED (R123, R125, R129, R130). -/
def Obligations.ClosesSide : Prop :=
  ∀ (u : Trigger) (s : State), Safety.triggerJudged u s → Safety.bookkeeping s.part.ord →
    let n := param (Safety.workingCopy u s) 0
    (n ≠ 1 → n ≠ 2 → ∃ t, exec (.closeSide u) s = .next t ∧ Safety.orderRefused 17 u .badParam 0 s t)
    ∧ ∀ side : Side, n = side.code →
      ∃ t, exec (.closeSide u) s = .next t ∧ Safety.checked (fun r => Safety.orderRefused 17 u r 0 s t)
        ((t.part.side side).released = false
          ∧ (∀ d, ¬ Safety.ofSide side d → t.part.door d = s.part.door d)
          ∧ (∀ d, Safety.ofSide side d →
              let r := s.part.door d
              (r.state = .released ∨ r.state = .opening ∨ r.state = .open_ →
                (r.cl = true → t.part.door d = { r with state := .locked, motion := none, retries := 0, closeFailed := false })
                ∧ (r.cl = false → r.ob = false →
                    t.part.door d = { r with state := .closing, motion := some s.part.now, retries := 0, closeFailed := false }))
              ∧ (r.state = .closing ∨ r.state = .reopening → t.part.door d = { r with retries := 0, closeFailed := false })
              ∧ (r.state = .locked ∨ r.state = .faulted ∨ r.state = .isolated → t.part.door d = r))
          ∧ (∀ i : Fin 16, s.part.ord.openSlot side = some i →
              t.part.ord.openSlot side = none ∧ (t.part.ord.slots[i]).state = .aborted ∧ (t.part.ord.slots[i]).result = 1)
          ∧ ((∃ d, Safety.ofSide side d ∧ ((t.part.door d).state = .closing ∨ (t.part.door d).state = .reopening)) →
              Safety.orderRuns 17 u s t ∧ t.part.ord.closeSlot side = some u.slot)
          ∧ ((∀ d, Safety.ofSide side d → (t.part.door d).state = .locked) →
              Safety.orderDone 17 u 1 s t ∧ t.part.ord.closeSlot side = none))
        [(s.part.ord.closeSlot side = none, .busy)]

/-- ISOLATE DOOR: a FAULTED door is ISOLATED, its fault cause kept; RESTORE DOOR: a FAULTED or ISOLATED door is LOCKED, its fault cause NONE, its retry count
0 and close-failed clear. Each is refused with the reason of the first condition that fails, and changes no other door (R131, R132). -/
def Obligations.DoorsIsolatedAndRestored : Prop :=
  ∀ (u : Trigger) (s : State), Safety.triggerJudged u s →
    let n := param (Safety.workingCopy u s) 0
    (7 < n →
      (∃ t, exec (.isolateDoor u) s = .next t ∧ Safety.checked (fun r => Safety.orderRefused 18 u r 0 s t)
        (Safety.orderRefused 18 u .badParam 0 s t) [(s.part.mod.mode ≠ .lockout, .lockout), (s.part.mod.mode = .stand, .wrongMode)])
      ∧ ∃ t, exec (.restoreDoor u) s = .next t ∧ Safety.checked (fun r => Safety.orderRefused 19 u r 0 s t)
        (Safety.orderRefused 19 u .badParam 0 s t) [(s.part.mod.mode ≠ .lockout, .lockout), (s.part.mod.mode = .stand, .wrongMode)])
    ∧ ∀ d : Fin 8, n = d.val →
      let r := s.part.door d
      (∃ t, exec (.isolateDoor u) s = .next t ∧ Safety.checked (fun r => Safety.orderRefused 18 u r 0 s t)
        (Safety.orderDone 18 u (BitVec.ofNat 32 DoorState.isolated.code) s t
          ∧ (r.state = .isolated → t.part.dor = s.part.dor)
          ∧ (r.state = .faulted → t.part.door d = { r with state := .isolated, motion := none }
              ∧ Safety.posts s.part t.part [(.doorState, arg2 d.val DoorState.isolated.code, s.part.odo.pos)])
          ∧ ∀ x, x ≠ d → t.part.door x = s.part.door x)
        [(s.part.mod.mode ≠ .lockout, .lockout), (s.part.mod.mode = .stand, .wrongMode),
         (r.state = .isolated ∨ r.state = .faulted, .conditionActive)])
      ∧ ∃ t, exec (.restoreDoor u) s = .next t ∧ Safety.checked (fun r => Safety.orderRefused 19 u r 0 s t)
        (Safety.orderDone 19 u (BitVec.ofNat 32 DoorState.locked.code) s t
          ∧ (r.state = .locked → t.part.dor = s.part.dor)
          ∧ (r.state ≠ .locked →
              t.part.door d = { r with state := .locked, motion := none, fault := .none, retries := 0, closeFailed := false }
              ∧ Safety.posts s.part t.part [(.doorState, arg2 d.val DoorState.locked.code, s.part.odo.pos)])
          ∧ ∀ x, x ≠ d → t.part.door x = s.part.door x)
        [(s.part.mod.mode ≠ .lockout, .lockout), (s.part.mod.mode = .stand, .wrongMode),
         (r.state = .locked ∨ r.state = .faulted ∨ r.state = .isolated, .busy), (r.state = .locked ∨ r.cl = true, .conditionActive)]

/-! ### Messages, authority and restrictions -/

/-- Every delivered message enters the station table, restarts the link timer and ends LOST, with LINK_RESTORED first where the link was LOST
(R146, R147), and posts MESSAGE_ARRIVED with its kind and outcome last (R171). -/
def Obligations.MessagesHeard : Prop :=
  ∀ (c : Instr) (src : Sender) (kind : Nat) (s : State), Safety.messageOf c = some (src, kind) → Safety.delivered src s →
    ∃ t, exec c s = .next t
      ∧ t.part.link.stations[src.station.toNat - 1]? = some ⟨some src.sequence, some s.part.now⟩
      ∧ (∀ i, i ≠ src.station.toNat - 1 → t.part.link.stations[i]? = s.part.link.stations[i]?)
      ∧ t.part.link.linkTimer = some s.part.now ∧ t.part.link.lost = false
      ∧ Safety.posts s.part t.part (Safety.linkEvents src s.part)
      ∧ ∃ o : MessageOutcome, Safety.postsLast .messageArrived (arg2 kind o.code) t.part

/-- A good PERMIT replaces the entry of its platform id or, in a list of fewer than 4, joins it as the newest; in STABLED or on a full list it
changes nothing and is refused (R133). WITHDRAW and the end of the lifetime remove the entry, and a release that rests on it is withdrawn (R134). -/
def Obligations.PermitList : Prop :=
  ∀ (src : Sender) (id : Byte) (s : State),
    (∀ mask : Byte, Safety.delivered src s →
      ∃ t, exec (.permit src id mask) s = .next t
        ∧ (s.part.mod.mode = .stabled → t.part.dor.permits = s.part.dor.permits ∧ Safety.postsLast .messageArrived (arg2 5 2) t.part)
        ∧ (s.part.mod.mode ≠ .stabled → 1 ≤ id.toNat → id.toNat ≤ 63 → mask.getLsbD 0 = true ∨ mask.getLsbD 1 = true →
            ((s.part.permit? id).isSome = true →
              t.part.dor.permits = s.part.dor.permits.map (fun x =>
                if x.platform = id then ⟨id, mask.getLsbD 0, mask.getLsbD 1, s.part.now⟩ else x)
              ∧ Safety.posts s.part t.part
                  (Safety.linkEvents src s.part ++ [(.permitChanged, arg2 id.toNat 2, s.part.odo.pos)]))
            ∧ (s.part.permit? id = none → s.part.dor.permits.length < 4 →
              t.part.dor.permits = s.part.dor.permits ++ [⟨id, mask.getLsbD 0, mask.getLsbD 1, s.part.now⟩]
              ∧ Safety.posts s.part t.part
                  (Safety.linkEvents src s.part ++ [(.permitChanged, arg2 id.toNat 1, s.part.odo.pos)]))
            ∧ (s.part.permit? id = none → 4 ≤ s.part.dor.permits.length →
              t.part.dor.permits = s.part.dor.permits ∧ Safety.postsLast .messageArrived (arg2 5 2) t.part)))
    ∧ (Safety.delivered src s →
      ∃ t, exec (.withdraw src id) s = .next t
        ∧ ((s.part.permit? id).isSome = true → Safety.permitGone id s.part t.part
            ∧ Safety.posts s.part t.part
                (Safety.linkEvents src s.part ++ [(.permitChanged, arg2 id.toNat 4, s.part.odo.pos)]))
        ∧ (s.part.permit? id = none → t.part.dor.permits = s.part.dor.permits
            ∧ Safety.posts s.part t.part
                (Safety.linkEvents src s.part ++ [(.permitChanged, arg2 id.toNat 7, s.part.odo.pos)])))
    ∧ ∀ m, s.part.coldLine = false → s.part.permit? id = some m → s.part.passed m.granted s.part.prf.settings.permitLifetime = true →
      ∃ t, exec (.permitLifetimeExpiry id) s = .next t
        ∧ Safety.permitGone id s.part t.part
        ∧ Safety.posts s.part t.part [(.permitChanged, arg2 id.toNat 3, s.part.odo.pos)]

/-- An acceptable GRANT fills CURRENT where none is held, and otherwise NEXT behind it, with AUTH_GRANTED and the relinquished flag
cleared (R94); a CURRENT that the car has passed hands over at once (R96). One of a repeated record is ignored; a refused one changes no slot.
With no brake test running a count of the source within its segment gives the distance to CURRENT's end and the request flag (R95), hands over to NEXT beyond the
end (R96), and without NEXT its crossing is an overrun (R97); a count of the motion encoder in RUN moves the travel record, and the
AUTHORITY entry with it (R102). -/
def Obligations.Grants : Prop :=
  (∀ (src : Sender) (id : Half) (start stop : BitVec 24) (dir : Byte) (cap : Half) (s : State), Safety.delivered src s →
    ∃ t, exec (.grant src id start stop dir cap) s = .next t
      ∧ (s.part.mod.mode = .stabled ∨ s.part.odo.validity = .unknown
          ∨ grantRecord ⟨id, start.toNat, stop.toNat, dir.toNat, cap.toNat⟩ src.station = none →
          t.part.aut.current = s.part.aut.current ∧ t.part.aut.next = s.part.aut.next
          ∧ Safety.postsLast .messageArrived (arg2 1 2) t.part)
      ∧ ∀ a, s.part.mod.mode ≠ .stabled → s.part.odo.validity ≠ .unknown →
          grantRecord ⟨id, start.toNat, stop.toNat, dir.toNat, cap.toNat⟩ src.station = some a →
          (∀ h, heldRecord id s.part.aut = some h →
            t.part.aut.current = s.part.aut.current ∧ t.part.aut.next = s.part.aut.next
            ∧ Safety.postsLast .messageArrived
                (arg2 1 (if h.start = a.start ∧ h.stop = a.stop ∧ h.dir = a.dir ∧ h.cap = a.cap then 3 else 2)) t.part)
          ∧ (heldRecord id s.part.aut = none → s.part.aut.current = none → recordHoldsExtent a s.part = true →
            t.part.aut.current = some a ∧ t.part.aut.next = s.part.aut.next ∧ Safety.granted src id s.part t.part)
          ∧ (∀ c, heldRecord id s.part.aut = none → s.part.aut.current = some c → s.part.aut.next = none →
              a.start = c.stop → a.dir = c.dir →
              (0 ≤ s.part.currentDistance → t.part.aut.current = some c ∧ t.part.aut.next = some a)
              ∧ (s.part.currentDistance < 0 → t.part.aut.current = some a ∧ t.part.aut.next = none)
              ∧ Safety.granted src id s.part t.part)
          ∧ (heldRecord id s.part.aut = none →
              (s.part.aut.current = none ∧ recordHoldsExtent a s.part = false)
              ∨ (∃ c, s.part.aut.current = some c
                  ∧ (s.part.aut.next.isSome = true ∨ ¬ (a.start = c.stop ∧ a.dir = c.dir))) →
              t.part.aut.current = s.part.aut.current ∧ t.part.aut.next = s.part.aut.next
              ∧ Safety.postsLast .messageArrived (arg2 1 2) t.part))
  ∧ ∀ (e : Encoder) (levels : BitVec 2) (c : Dir) (s : State),
    s.part.asserted = false → (s.part.odo.enc e).faulted = false → Safety.follows (s.part.odo.enc e).quad levels c →
    s.part.brk.test = none →
    ∃ t, exec (.encoderStep e levels) s = .next t
      ∧ (s.part.odo.source.encoder? = some e → s.part.odo.validity ≠ .unknown →
          ∀ a, s.part.aut.current = some a → Safety.staysWithin s.part t.part → Safety.endJudged a s.part t.part)
      ∧ (s.part.odo.motion = some e → s.part.mod.mode = .run →
          ∀ a, s.part.aut.current = some a → (∀ n, s.part.aut.next = some n → n.dir = a.dir) →
          Safety.travelRecorded a c s.part t.part)

/-- A REVOKE that names CURRENT empties NEXT and moves CURRENT's end to the point, held to its start; a point beyond the end leaves it; in
RUN, with the new end within the braking distance, it is LATE and latches EMERGENCY (R99). One that names NEXT empties it; one that names
neither is counted as missed (R98). AUTH_REVOKED comes first and the last revoke record is written.
RELINQUISH empties NEXT and then CURRENT, each with AUTH_REVOKED and the last revoke record, sets the relinquished flag and hands a REPORT
(R100).
That the point is first held to 1,048,575 (R158), in the record and for the judging alike, is the model's reading (log 26). -/
def Obligations.AuthorityGivenUp : Prop :=
  (∀ (src : Sender) (id : Half) (point : BitVec 24) (s : State), Safety.delivered src s →
    let r := min point.toNat 1048575
    ∃ t, exec (.revoke src id point) s = .next t
      ∧ Safety.posts s.part t.part (Safety.linkEvents src s.part ++ [(.authRevoked, id, s.part.odo.pos)])
      ∧ (∀ c, s.part.aut.current = some c → c.id = id → t.part.aut.next = none
          ∧ (Safety.beyondEnd c r → t.part.aut.current = some c ∧ t.part.aut.lastRevoke = ⟨id, r, .beyondEnd⟩)
          ∧ (¬ Safety.beyondEnd c r →
              t.part.aut.current = some { c with stop := Safety.heldEnd c r }
              ∧ (s.part.mod.mode = .run →
                  s.part.distanceTo c.dir (Safety.heldEnd c r) ≤ (s.part.ssu.braking : Int) * 16 →
                  t.part.aut.lastRevoke = ⟨id, r, .late⟩ ∧ t.part.aut.lateRevoke = true
                  ∧ Safety.latchedAt .authority .emergency t.part ∧ Safety.flagged .authority t.part)
              ∧ (s.part.mod.mode ≠ .run ∨
                  (s.part.ssu.braking : Int) * 16 < s.part.distanceTo c.dir (Safety.heldEnd c r) →
                  t.part.aut.lastRevoke = ⟨id, r, .shortened⟩ ∧ t.part.aut.lateRevoke = s.part.aut.lateRevoke)))
      ∧ (∀ c n, s.part.aut.current = some c → c.id ≠ id → s.part.aut.next = some n → n.id = id →
          t.part.aut.current = some c ∧ t.part.aut.next = none ∧ t.part.aut.lastRevoke = ⟨id, r, .nextCleared⟩)
      ∧ ((∀ c, s.part.aut.current = some c → c.id ≠ id ∧ ∀ n, s.part.aut.next = some n → n.id ≠ id) →
          t.part.aut.current = s.part.aut.current ∧ t.part.aut.next = s.part.aut.next
          ∧ t.part.aut.missed = sat8 s.part.aut.missed ∧ t.part.aut.lastRevoke = ⟨id, r, .missed⟩))
  ∧ (∀ (u : Trigger) (s : State), Safety.triggerJudged u s →
    ∃ t, exec (.relinquish u) s = .next t ∧ Safety.checked (fun r => Safety.orderRefused 14 u r 0 s t)
      (Safety.orderDone 14 u 0 s t ∧ t.part.aut.current = none ∧ t.part.aut.next = none ∧ t.part.aut.relinquished = true
        ∧ t.part.aut.lastRevoke =
            (match s.part.aut.current, s.part.aut.next with
              | some c, _ => ⟨c.id, 0, .shortened⟩
              | none, some n => ⟨n.id, 0, .nextCleared⟩
              | none, none => s.part.aut.lastRevoke)
        ∧ Safety.posts s.part t.part
            ((s.part.aut.next.toList ++ s.part.aut.current.toList).map fun a => (.authRevoked, a.id, s.part.odo.pos))
        ∧ t.part.msg.reportTimer = some s.part.now
        ∧ (txHasReport s.part.link.queue = true → ∃ f ∈ t.part.link.queue, f.cls = .report ∧ f.kind = 16 ∧ f.payload = reportPayload t.part)
        ∧ (txHasReport s.part.link.queue = false → Safety.reportRoom s.part → Safety.transmits .report 16 (reportPayload t.part) t.part))
      [(s.part.mod.mode ≠ .lockout, .lockout), (s.part.mod.mode = .stand, .wrongMode)])

/-- A RESTRICT with good fields is placed where its id is free on a list of fewer than 8 or held by the radio, with TSR_CHANGED; a host entry, a
full list and bad fields refuse it and leave the list (R80, R81).
A LIFT removes a radio entry whichever station placed it, leaves a host entry, and is missed where no entry holds the id (R82). -/
def Obligations.RestrictionsByRadio : Prop :=
  ((∀ (src : Sender) (r : Restriction) (s : State), Safety.delivered src s → r.origin = .radio src.station → Safety.goodFields r →
    ∃ t, exec (.restrict src r.id (BitVec.ofNat 24 r.start) (BitVec.ofNat 24 r.stop) (BitVec.ofNat 16 r.limit) (BitVec.ofNat 8 r.dirs.code)) s
        = .next t
      ∧ (Safety.idFree r.id s.part → s.part.ssu.restrictions.length < 8 →
          Safety.placed r s.part t.part
          ∧ Safety.posts s.part t.part (Safety.linkEvents src s.part ++ [(.tsrChanged, arg2 r.id.toNat 1, s.part.odo.pos)]))
      ∧ (∀ y x, findRestriction r.id.toNat s.part.ssu.restrictions = some x → x.origin = .radio y →
          Safety.placed r s.part t.part
          ∧ Safety.posts s.part t.part (Safety.linkEvents src s.part ++ [(.tsrChanged, arg2 r.id.toNat 2, s.part.odo.pos)]))
      ∧ ((∃ x, findRestriction r.id.toNat s.part.ssu.restrictions = some x ∧ x.origin = .host)
          ∨ (Safety.idFree r.id s.part ∧ 8 ≤ s.part.ssu.restrictions.length) →
          t.part.ssu.restrictions = s.part.ssu.restrictions ∧ Safety.postsLast .messageArrived (arg2 3 2) t.part))
  ∧ ∀ (src : Sender) (id : Byte) (start stop : BitVec 24) (limit : Half) (dirs : Byte) (s : State), Safety.delivered src s →
      id = 0 ∨ stop.toNat ≤ start.toNat ∨ 1048575 < stop.toNat ∨ 4095 < limit.toNat ∨ dirs = 0 ∨ 3 < dirs.toNat →
      ∃ t, exec (.restrict src id start stop limit dirs) s = .next t
        ∧ t.part.ssu.restrictions = s.part.ssu.restrictions ∧ Safety.postsLast .messageArrived (arg2 3 2) t.part)
  ∧ (∀ (src : Sender) (id : Byte) (s : State), Safety.delivered src s →
    ∃ t, exec (.lift src id) s = .next t
      ∧ (∀ y x, findRestriction id.toNat s.part.ssu.restrictions = some x → x.origin = .radio y →
          Safety.removed id s.part t.part ∧ Safety.postsLast .messageArrived (arg2 4 1) t.part
          ∧ Safety.posts s.part t.part (Safety.linkEvents src s.part ++ [(.tsrChanged, arg2 id.toNat 3, s.part.odo.pos)]))
      ∧ (∀ x, findRestriction id.toNat s.part.ssu.restrictions = some x → x.origin = .host →
          t.part.ssu.restrictions = s.part.ssu.restrictions ∧ Safety.postsLast .messageArrived (arg2 4 2) t.part)
      ∧ (Safety.idFree id s.part →
          t.part.ssu.restrictions = s.part.ssu.restrictions ∧ Safety.postsLast .messageArrived (arg2 4 1) t.part
          ∧ Safety.posts s.part t.part (Safety.linkEvents src s.part ++ [(.tsrChanged, arg2 id.toNat 4, s.part.odo.pos)])))

/-- ADD RESTRICTION places a host entry where its id is free on a list of fewer than 8 or held by the host; a radio entry refuses it OWNED, a full
list FULL (R80, R81). REMOVE RESTRICTION removes a host entry; a radio entry refuses it OWNED, a free id BAD_PARAM (R82). Both give the count. In LOCKOUT
each is refused LOCKOUT; parameters that are no restriction, and an id that is none, are refused BAD_PARAM. -/
def Obligations.RestrictionsByHost : Prop :=
  ∀ (u : Trigger) (s : State), Safety.triggerJudged u s →
    (s.part.mod.mode = .lockout →
      (∃ t, exec (.addRestriction u) s = .next t ∧ t.part.ssu.restrictions = s.part.ssu.restrictions ∧ Safety.orderRefused 12 u .lockout 0 s t)
      ∧ ∃ t, exec (.removeRestriction u) s = .next t ∧ t.part.ssu.restrictions = s.part.ssu.restrictions ∧ Safety.orderRefused 13 u .lockout 0 s t)
    ∧ (s.part.mod.mode ≠ .lockout → (∀ r : Restriction, r.origin = .host → Safety.goodFields r → ¬ Safety.asksFor r (Safety.workingCopy u s)) →
      ∃ t, exec (.addRestriction u) s = .next t ∧ t.part.ssu.restrictions = s.part.ssu.restrictions ∧ Safety.orderRefused 12 u .badParam 0 s t)
    ∧ (s.part.mod.mode ≠ .lockout → param (Safety.workingCopy u s) 0 = 0 ∨ 255 < param (Safety.workingCopy u s) 0 →
      ∃ t, exec (.removeRestriction u) s = .next t ∧ t.part.ssu.restrictions = s.part.ssu.restrictions ∧ Safety.orderRefused 13 u .badParam 0 s t)
    ∧ (∀ r : Restriction, s.part.mod.mode ≠ .lockout → r.origin = .host → Safety.goodFields r → Safety.asksFor r (Safety.workingCopy u s) →
      ∃ t, exec (.addRestriction u) s = .next t
        ∧ (Safety.idFree r.id s.part → s.part.ssu.restrictions.length < 8 →
            Safety.placed r s.part t.part ∧ Safety.orderDone 12 u (BitVec.ofNat 32 t.part.ssu.restrictions.length) s t
            ∧ Safety.posts s.part t.part [(.tsrChanged, arg2 r.id.toNat 1, s.part.odo.pos)])
        ∧ (∀ x, findRestriction r.id.toNat s.part.ssu.restrictions = some x → x.origin = .host →
            Safety.placed r s.part t.part ∧ Safety.orderDone 12 u (BitVec.ofNat 32 t.part.ssu.restrictions.length) s t
            ∧ Safety.posts s.part t.part [(.tsrChanged, arg2 r.id.toNat 2, s.part.odo.pos)])
        ∧ (∀ y x, findRestriction r.id.toNat s.part.ssu.restrictions = some x → x.origin = .radio y →
            t.part.ssu.restrictions = s.part.ssu.restrictions ∧ Safety.orderRefused 12 u .owned 0 s t)
        ∧ (Safety.idFree r.id s.part → 8 ≤ s.part.ssu.restrictions.length →
            t.part.ssu.restrictions = s.part.ssu.restrictions ∧ Safety.orderRefused 12 u .full 0 s t))
    ∧ ∀ id : Byte, s.part.mod.mode ≠ .lockout → id ≠ 0 → param (Safety.workingCopy u s) 0 = id.toNat →
      ∃ t, exec (.removeRestriction u) s = .next t
        ∧ (∀ x, findRestriction id.toNat s.part.ssu.restrictions = some x → x.origin = .host →
            Safety.removed id s.part t.part ∧ Safety.orderDone 13 u (BitVec.ofNat 32 t.part.ssu.restrictions.length) s t
            ∧ Safety.posts s.part t.part [(.tsrChanged, arg2 id.toNat 3, s.part.odo.pos)])
        ∧ (∀ y x, findRestriction id.toNat s.part.ssu.restrictions = some x → x.origin = .radio y →
            t.part.ssu.restrictions = s.part.ssu.restrictions ∧ Safety.orderRefused 13 u .owned 0 s t)
        ∧ (Safety.idFree id s.part →
            t.part.ssu.restrictions = s.part.ssu.restrictions ∧ Safety.orderRefused 13 u .badParam 0 s t)

/-- An E_STOP posts E_STOP and latches RADIO at EMERGENCY (R161). An E_RELEASE at standstill clears a latched RADIO entry with
DEMAND_CLEARED (R60, R162); not at standstill it posts E_RELEASE_IGNORED and leaves the latch. -/
def Obligations.EmergencyStops : Prop :=
  ∀ (src : Sender) (s : State), Safety.delivered src s →
    (∃ t, exec (.eStop src) s = .next t
      ∧ Safety.latchedAt .radio .emergency t.part ∧ Safety.flagged .radio t.part
      ∧ Safety.posts s.part t.part (Safety.linkEvents src s.part ++ [(.eStop, BitVec.ofNat 16 src.station.toNat, s.part.odo.pos)]))
    ∧ (Safety.standDone s.part → ∃ t, exec (.eRelease src) s = .next t
      ∧ (s.part.odo.standstill = true → (s.part.entry .radio).latched = true →
          (t.part.entry .radio).latched = false ∧ (t.part.entry .radio).stage = .released
          ∧ Safety.postsLast .messageArrived (arg2 8 1) t.part
          ∧ Safety.posts s.part t.part
              (Safety.linkEvents src s.part ++ [(.demandCleared, arg2 9 0, (s.part.entry .radio).setPos)]))
      ∧ (s.part.odo.standstill = true → (s.part.entry .radio).latched = false →
          (t.part.entry .radio).latched = false ∧ Safety.postsLast .messageArrived (arg2 8 3) t.part)
      ∧ (s.part.odo.standstill = false →
          t.part.entry .radio = s.part.entry .radio ∧ Safety.postsLast .messageArrived (arg2 8 3) t.part
          ∧ Safety.posts s.part t.part
              (Safety.linkEvents src s.part ++ [(.eReleaseIgnored, BitVec.ofNat 16 src.station.toNat, s.part.odo.pos)])))

/-- A TEXT joins the tail of the mailbox with the next serial; a mailbox of 8 and STABLED drop it, counted (R164).
SEND TEXT places the text bytes behind the addressed station as a TEXT frame, with the queue count as its result; a queue of 4 and STABLED refuse
it FULL, a bad word 1 BAD_PARAM (R169). That the count is taken before LISTEN looks at the queue is the model's reading (log 25), and that
a TEXT of 0 or more than 48 bytes is answered like any other its choice (log 1). -/
def Obligations.TextsReceivedAndSent : Prop :=
  (∀ (src : Sender) (bytes : List Byte) (s : State), Safety.delivered src s →
    ∃ t, exec (.text src bytes) s = .next t
      ∧ (s.part.mod.mode ≠ .stabled → s.part.msg.mailbox.length < 8 →
          t.part.msg.serial = (if s.part.msg.serial = 0xFFFF then 1 else s.part.msg.serial + 1)
          ∧ t.part.msg.mailbox = s.part.msg.mailbox ++ [⟨src.station, src.sequence, bytes, s.part.now, t.part.msg.serial⟩]
          ∧ Safety.postsLast .messageArrived (arg2 11 1) t.part)
      ∧ (s.part.mod.mode = .stabled ∨ 8 ≤ s.part.msg.mailbox.length →
          t.part.msg.mailbox = s.part.msg.mailbox ∧ t.part.msg.serial = s.part.msg.serial
          ∧ t.part.msg.textDrops = sat16 s.part.msg.textDrops
          ∧ Safety.postsLast .messageArrived (arg2 11 (if s.part.mod.mode = .stabled then 4 else 2)) t.part))
  ∧ (∀ (u : Trigger) (s : State), Safety.triggerJudged u s →
    let work := Safety.workingCopy u s
    let station := byteAt work[0] 0
    let length := byteAt work[0] 1
    ∃ t, exec (.sendText u) s = .next t
      ∧ (station = 0 ∨ (30 < station ∧ station ≠ 255) ∨ length = 0 ∨ 24 < length ∨ halfAt work[0] 1 ≠ 0 →
          Safety.orderRefused 23 u .badParam 0 s t)
      ∧ (station ≠ 0 → station ≤ 30 ∨ station = 255 → 1 ≤ length → length ≤ 24 → halfAt work[0] 1 = 0 →
          (s.part.mod.mode ≠ .stabled → s.part.link.queue.length < 4 →
            Safety.orderDone 23 u (BitVec.ofNat 32 (s.part.link.queue.length + 1)) s t
            ∧ Safety.transmits .text 19 (BitVec.ofNat 8 station
                :: ((work.toList.drop 1).flatMap wordBytes).take length) t.part)
          ∧ (s.part.mod.mode = .stabled ∨ 4 ≤ s.part.link.queue.length → Safety.orderRefused 23 u .full 0 s t)))

/-- The link timer stops at its expiry; with the link not LOST it is LOST with LINK_LOST, NEXT is dropped and the permit list emptied (R147, R101,
R134); with the link LOST nothing else happens. -/
def Obligations.LinkLoss : Prop :=
  ∀ s : State, s.part.coldLine = false → s.part.due s.part.link.linkTimer s.part.prf.settings.linkTimeout = true →
    ∃ t, exec .linkTimerExpiry s = .next t
      ∧ t.part.link.linkTimer = none ∧ t.part.link.lost = true
      ∧ t.part.link.assembler = s.part.link.assembler ∧ t.part.link.stations = s.part.link.stations
      ∧ (s.part.link.lost = false →
          t.part.aut.current = s.part.aut.current ∧ t.part.aut.next = none ∧ t.part.dor.permits = []
          ∧ Safety.flagged .radio t.part
          ∧ Safety.posts s.part t.part ((.linkLost, 0, s.part.odo.pos)
              :: (match s.part.aut.next with | some n => [(.nextDropped, n.id, s.part.odo.pos)] | none => [])))
      ∧ (s.part.link.lost = true → Safety.standDone s.part → t.part.evq = s.part.evq ∧ t.part.aut = s.part.aut)

/-- A REPORT is handed at the report timer's expiry and at a POLL (R163, R166, R167): outside STABLED the report timer
restarts, and where the queue takes it the REPORT stands in the transmitter with the contents of Table 9-3. A POLL's outcome is ACTED. -/
def Obligations.Reports : Prop :=
  ∀ s : State,
    (s.part.due s.part.msg.reportTimer s.part.prf.settings.reportInterval = true → s.part.asserted = false → s.part.mod.mode ≠ .stabled →
      ∃ t, exec .reportTimerExpiry s = .next t ∧ Safety.reported s.part t.part)
    ∧ ∀ src, Safety.delivered src s →
      ∃ t, exec (.poll src) s = .next t
        ∧ (s.part.mod.mode ≠ .stabled → Safety.reported s.part t.part)
        ∧ Safety.postsLast .messageArrived (arg2 10 1) t.part

/-- POLL REPORT hands a REPORT to the transmit queue in every car mode: its result is 1 placed, 2 refreshed, 3 dropped FULL, 4 dropped STABLED, and
outside STABLED the report timer restarts (R170). -/
def Obligations.PollReport : Prop :=
  ∀ (u : Trigger) (s : State), Safety.triggerJudged u s →
    ∃ t, exec (.pollReport u) s = .next t
      ∧ (s.part.mod.mode ≠ .stabled → Safety.reported s.part t.part)
      ∧ (s.part.mod.mode = .stabled → Safety.orderDone 25 u 4 s t)
      ∧ (s.part.mod.mode ≠ .stabled → txHasReport s.part.link.queue = true → Safety.orderDone 25 u 2 s t)
      ∧ (s.part.mod.mode ≠ .stabled → txHasReport s.part.link.queue = false → Safety.reportRoom s.part → Safety.orderDone 25 u 1 s t)
      ∧ (s.part.mod.mode ≠ .stabled → txHasReport s.part.link.queue = false → ¬ Safety.reportRoom s.part → Safety.orderDone 25 u 3 s t)

/-! ### The radio link -/

/-- The transmitter's timers (R150 to R153): the defer timer keys up; the key-up timer, and each character sent, go on with the next character,
or pause on a flow hold; after the END comes TAIL, whose end drops PTT and looks at the queue; the pause timer abandons the frame. TXD carries the character being sent as a start
bit, eight data bits, least significant first, even parity and a stop bit, and rests at its idle level otherwise (R141). -/
def Obligations.TransmitterSends : Prop :=
  (∀ s : State, s.part.asserted = false →
    (∀ d, s.part.link.state = .defer → s.part.link.deferTimer = some d → s.part.passed d.start d.length = true → s.part.link.queue ≠ [] →
      ∃ t, exec .deferTimerExpiry s = .next t ∧ Safety.keyed s.part t.part)
    ∧ (∀ b, s.part.link.state = .keyUp → s.part.due s.part.link.keyUpTimer 40 = true → s.part.link.sendBuffer = some b →
      ∃ t, exec .keyUpTimerExpiry s = .next t
        ∧ (s.part.link.flowHold = false → Safety.sendsNext b s.part t.part) ∧ (s.part.link.flowHold = true → Safety.pauses b s.part t.part))
    ∧ (∀ b, s.part.link.state = .sending → s.part.link.sendBuffer = some b →
      ∃ t, exec .txCharacterSent s = .next t
        ∧ (b.rest = [] → t.part.link = { s.part.link with state := .tail, sendBuffer := none, tailTimer := some s.part.now })
        ∧ (b.rest ≠ [] → s.part.link.flowHold = true → Safety.pauses b s.part t.part)
        ∧ (b.rest ≠ [] → s.part.link.flowHold = false → Safety.sendsNext b s.part t.part))
    ∧ (s.part.link.state = .tail → s.part.due s.part.link.tailTimer 20 = true →
      ∃ t, exec .tailTimerExpiry s = .next t
        ∧ Safety.listens { s.part with link := { s.part.link with ptt := false, tailTimer := none } } t.part)
    ∧ ∀ b, s.part.link.state = .paused → s.part.due s.part.link.pauseTimer 500 = true → s.part.link.sendBuffer = some b →
      ∃ t, exec .pauseTimerExpiry s = .next t
        ∧ Safety.listens { s.part with link :=
            { Safety.txCounted .pauseLimit s.part.link with ptt := false, pauseTimer := none, sendBuffer := none } } t.part
        ∧ Safety.posts s.part t.part [(.txDropped, arg2 b.frame.cls.code 3, s.part.odo.pos)] ∧ Safety.flagged .radio t.part)
  ∧ ∀ p : Part,
    (p.asserted = true ∨ p.link.state ≠ .sending → txdBits p = [])
    ∧ ∀ b x, p.asserted = false → p.link.state = .sending → p.link.sendBuffer = some b → b.current = some x →
      ∃ parity, ¬ Safety.badCharacter x parity true
        ∧ txdBits p = [false] ++ (List.range 8).map (fun i => x.getLsbD i) ++ [parity, true]

/-- CD rises: DEFER stops its timer, LISTEN looks, KEY_UP puts its frame back at the head of its class as a queue of four allows, the other states
take the level (R150, R151). CD falls: a frame in assembly is abandoned CARRIER, and DEFER starts its timer of the car id times 10 ms.
PAUSE and RESUME are the characters 0xF4 and 0xF5. With no ESC pending in a frame, PAUSE sets the flow hold flag and RESUME clears it in the
states that assert PTT, and change nothing in the others; RESUME in PAUSED goes on with the frame (R142, R149, R153). -/
def Obligations.CarrierAndFlow : Prop :=
  (∀ s : State, s.part.asserted = false →
    (s.part.link.cd = false → Safety.queues s.part → ∃ t, exec .cdRise s = .next t
      ∧ (s.part.link.state = .defer → t.part.link = { s.part.link with cd := true, deferTimer := none })
      ∧ (s.part.link.state = .listen → Safety.listens { s.part with link := { s.part.link with cd := true } } t.part)
      ∧ (∀ b, s.part.link.state = .keyUp → s.part.link.sendBuffer = some b →
          let l := { s.part.link with
            cd := true, ptt := false, keyUpTimer := none, sendBuffer := none, state := .defer, deferTimer := none }
          (b.frame.cls = .report ∧ txHasReport s.part.link.queue = true → t.part.link = l)
          ∧ (¬ (b.frame.cls = .report ∧ txHasReport s.part.link.queue = true) →
              (s.part.link.queue.length < 4 →
                ∃ q, Safety.headOfClass b.frame s.part.link.queue q ∧ t.part.link = { l with queue := q })
              ∧ (4 ≤ s.part.link.queue.length → ∀ g, s.part.link.queue.getLast? = some g →
                (b.frame.cls.code < g.cls.code →
                  (∃ q, Safety.headOfClass b.frame s.part.link.queue.dropLast q
                    ∧ t.part.link = { Safety.txCounted .displaced l with queue := q })
                  ∧ Safety.posts s.part t.part [(.txDropped, arg2 g.cls.code 2, s.part.odo.pos)] ∧ Safety.flagged .radio t.part)
                ∧ (g.cls.code ≤ b.frame.cls.code →
                  t.part.link = Safety.txCounted .full l
                  ∧ Safety.posts s.part t.part [(.txDropped, arg2 b.frame.cls.code 1, s.part.odo.pos)]
                  ∧ Safety.flagged .radio t.part))))
      ∧ (s.part.link.state ≠ .defer → s.part.link.state ≠ .listen → s.part.link.state ≠ .keyUp →
          t.part.link = { s.part.link with cd := true }))
    ∧ (s.part.link.cd = true → ∃ t, exec .cdFall s = .next t
      ∧ (s.part.link.assembler = .outside → t.part.link = { s.part.link with
            cd := false
            deferTimer := if s.part.link.state = .defer then some ⟨s.part.now, s.part.prf.settings.carId * 10⟩ else s.part.link.deferTimer })
      ∧ (s.part.link.assembler ≠ .outside → Safety.frameLost .carrier
          { s.part.link with
            cd := false
            deferTimer := if s.part.link.state = .defer then some ⟨s.part.now, s.part.prf.settings.carId * 10⟩ else s.part.link.deferTimer }
          s.part t.part)))
  ∧ (∀ s : State,
    (exec .pause s = exec (.rxCharacter 0xF4 (evenParity 0xF4) true) s
      ∧ exec .resume s = exec (.rxCharacter 0xF5 (evenParity 0xF5) true) s)
    ∧ (s.part.asserted = false → (∀ l d g, s.part.link.assembler ≠ .inside l d true g) →
      (∃ t, exec .pause s = .next t
        ∧ (Safety.assertsPtt s.part.link.state = true → t.part.link = { s.part.link with flowHold := true })
        ∧ (Safety.assertsPtt s.part.link.state = false → t.part.link = s.part.link))
      ∧ ∃ t, exec .resume s = .next t
        ∧ (Safety.assertsPtt s.part.link.state = true → s.part.link.state ≠ .paused →
            t.part.link = { s.part.link with flowHold := false })
        ∧ (∀ b, s.part.link.state = .paused → s.part.link.sendBuffer = some b →
            Safety.sendsNext b { s.part with link := { s.part.link with flowHold := false } } t.part)
        ∧ (Safety.assertsPtt s.part.link.state = false → t.part.link = s.part.link)))

/-- What the receiver does with a character that is no error-free flow byte (R141 to R144), an error being nine bits with an odd number of ones or
a stop bit that is not at the idle level: with PTT asserted or CD absent it is noise; OUTSIDE, START begins a
frame and the rest is noise; INSIDE, a data byte joins the buffer, ESC is held, START abandons the frame RESTART and begins another, a 56th byte
abandons it LONG. The gap timer abandons it TIMEOUT. -/
def Obligations.CharactersAssembled : Prop :=
  ∀ s : State, s.part.asserted = false →
    (∀ (c : Byte) (parity stop bad : Bool), (bad = true ↔ Safety.badCharacter c parity stop) →
      bad = true ∨ (c ≠ 0xF4 ∧ c ≠ 0xF5) ∨ escPending s.part.link.assembler = true →
      ∃ t, exec (.rxCharacter c parity stop) s = .next t
        ∧ (s.part.link.ptt = true ∨ s.part.link.cd = false → t.part.link = { s.part.link with noise := sat16 s.part.link.noise })
        ∧ (s.part.link.ptt = false → s.part.link.cd = true →
          (s.part.link.assembler = .outside →
            (bad = false → c = 0xF1 → t.part.link = { s.part.link with
              assembler := .inside [] false false s.part.now
              state := if s.part.link.state = .listen then .receiving else s.part.link.state })
            ∧ (bad = true ∨ c ≠ 0xF1 → t.part.link = { s.part.link with noise := sat16 s.part.link.noise }))
          ∧ ∀ buffer damaged esc gap, s.part.link.assembler = .inside buffer damaged esc gap →
            (bad = true ∨ esc = true ∨ (c ≠ 0xF1 ∧ c ≠ 0xF2 ∧ c ≠ 0xF3) →
              (buffer.length < 55 → t.part.link = { s.part.link with
                assembler := .inside (buffer ++ [c]) (damaged || bad) false s.part.now })
              ∧ (55 ≤ buffer.length → Safety.frameLost .long s.part.link s.part t.part))
            ∧ (bad = false → esc = false → c = 0xF3 →
                t.part.link = { s.part.link with assembler := .inside buffer damaged true s.part.now })
            ∧ (bad = false → esc = false → c = 0xF1 →
                t.part.link = { Safety.rxCounted .restart s.part.link with
                  assembler := .inside [] false false s.part.now
                  state := if s.part.link.state = .listen then .receiving else s.part.link.state }
                ∧ Safety.posts s.part t.part [(.frameDropped, 1, s.part.odo.pos)] ∧ Safety.flagged .radio t.part)))
    ∧ ∀ buffer damaged esc gap, s.part.link.assembler = .inside buffer damaged esc gap → s.part.passed gap 20 = true →
      ∃ t, exec .gapTimerExpiry s = .next t ∧ Safety.frameLost .timeout s.part.link s.part t.part

/-- The checks of Table 8-3, in its order, when END completes a frame (R145): each discards it with its reason; a DUPLICATE is still heard. A frame
that passes them with a kind or length that Table 9-1 does not have is counted, refused and posted BAD_FORMAT (R159). -/
def Obligations.FramesJudged : Prop :=
  ∀ (buffer : List Byte) (damaged : Bool) (gap : Word) (s : State), s.part.asserted = false → s.part.link.ptt = false →
    s.part.link.cd = true → s.part.link.assembler = .inside buffer damaged false gap →
    ∃ t, exec (.rxCharacter 0xF2 (evenParity 0xF2) true) s = .next t
      ∧ (damaged = true → Safety.frameLost .damaged s.part.link s.part t.part)
      ∧ (damaged = false → buffer.length < 7 ∨ (∃ n : Byte, buffer[4]? = some n ∧ (48 < n.toNat ∨ buffer.length ≠ n.toNat + 7)) →
          Safety.frameLost .short s.part.link s.part t.part)
      ∧ ∀ (dest source kind sequence : Byte) (payload : List Byte) (crc : Half), damaged = false → payload.length ≤ 48 →
          buffer = Safety.frameBuffer dest source kind sequence payload crc →
          (crc ≠ crc16 (buffer.take (payload.length + 5)) → Safety.frameLost .crc s.part.link s.part t.part)
          ∧ (crc = crc16 (buffer.take (payload.length + 5)) →
            (dest.toNat ≠ s.part.prf.settings.carId → dest ≠ 0xFF → Safety.frameLost .other s.part.link s.part t.part)
            ∧ (dest.toNat = s.part.prf.settings.carId ∨ dest = 0xFF →
              (source = 0 ∨ 30 < source.toNat → Safety.frameLost .badSource s.part.link s.part t.part)
              ∧ ∀ (i : Fin 30), source.toNat = i.val + 1 →
                ((s.part.link.stations[i]).sequence = some sequence →
                  Safety.frameLost .duplicate
                    { s.part.link with
                      linkTimer := some s.part.now
                      stations := s.part.link.stations.set i { s.part.link.stations[i] with lastHeard := some s.part.now } }
                    s.part t.part)
                ∧ ((s.part.link.stations[i]).sequence ≠ some sequence → goodFormat kind.toNat payload.length = false →
                  t.part.msg.badFormat = sat16 s.part.msg.badFormat
                  ∧ t.part.link.stations[i] = ⟨some sequence, some s.part.now⟩ ∧ t.part.link.linkTimer = some s.part.now
                  ∧ Safety.postsLast .messageArrived (arg2 kind.toNat 5) t.part
                  ∧ (s.part.mod.mode ≠ .stabled → s.part.link.queue.length < 4 →
                      Safety.transmits .refusal 18 [source, kind, 0, 0, 6] t.part))))

/-- A message's frame is that message: a station's START, stuffed bytes with their CRC, and END, received with CD present
from an assembler OUTSIDE, in LISTEN with nothing queued or in DEFER, addressed to the car and no duplicate, do to the part what the message's
command does to it, but for the generation words (R142 to R146, R152, R158, R194, R195). That the
message's row is the whole delivery is the model's reading (log 10), and so is that a generation word rises once for each command (log 14). -/
def Obligations.FrameCarriesMessage : Prop :=
  ∀ (c : Instr) (src : Sender) (kind : Nat) (dest : Byte) (s : State), Safety.messageOf c = some (src, kind) → c.wf = true →
    s.part.asserted = false → s.part.link.ptt = false → s.part.link.cd = true → s.part.link.assembler = .outside →
    (s.part.link.state = .listen ∧ s.part.link.queue = []) ∨ s.part.link.state = .defer → Safety.standDone s.part →
    dest.toNat = s.part.prf.settings.carId ∨ dest = 0xFF →
    (∀ i : Fin 30, src.station.toNat = i.val + 1 → (s.part.link.stations[i]).sequence ≠ some src.sequence) →
    let bytes := [dest, src.station, BitVec.ofNat 8 kind, src.sequence, BitVec.ofNat 8 (Safety.payloadOf c).length] ++ Safety.payloadOf c
    ∃ t u g h, Safety.receives (frameStream bytes (crc16 bytes)) s = .next t ∧ exec c (Safety.withGenerations g s) = .next u
      ∧ t = Safety.withGenerations h u

/-! ### The host interface -/

/-- SET GUARD fills and enables a guard slot (R87), SET DOOR EVENTS replaces both event masks (R138), TAKE MESSAGE removes the mailbox head (R165): each
refused with the reason of the first condition that fails. -/
def Obligations.OtherOrders : Prop :=
  ∀ (u : Trigger) (s : State), Safety.triggerJudged u s →
    let work := Safety.workingCopy u s
    (∃ t, exec (.setGuard u) s = .next t ∧ Safety.checked (fun r => Safety.orderRefused 21 u r 0 s t)
      (∀ i : Fin 4, param work 0 = i.val →
        let a := work[1]
        Safety.checked (fun r => Safety.orderRefused 21 u r 0 s t)
          (Safety.orderDone 21 u (BitVec.ofNat 32 i.val) s t
            ∧ (∀ j : Fin 4, j ≠ i → t.part.bridge.guards[j] = s.part.bridge.guards[j])
            ∧ (t.part.bridge.guards[i]).enabled = true ∧ (t.part.bridge.guards[i]).address = a
            ∧ (t.part.bridge.guards[i]).kind.code = byteAt work[2] 0 ∧ (t.part.bridge.guards[i]).action.code = byteAt work[2] 1
            ∧ (byteAt work[2] 0 = 1 → (t.part.bridge.guards[i]).low = work[3] ∧ (t.part.bridge.guards[i]).high = work[4])
            ∧ (t.part.bridge.guards[i]).violations = 0 ∧ (t.part.bridge.guards[i]).last = 0)
          [((byteAt work[2] 0 = 1 ∨ byteAt work[2] 0 = 2) ∧ 1 ≤ byteAt work[2] 1 ∧ byteAt work[2] 1 ≤ 3
              ∧ (byteAt work[2] 0 = 1 → work[3].toNat ≤ work[4].toNat), .badParam),
           (a.toNat % 4 = 0 ∧ a.toNat < 16777216 ∧ Safety.outsideArea a.toNat s.part, .badParam),
           (¬ (s.part.mod.mode = .run ∧ (s.part.bridge.guards[i]).enabled = true ∧ (s.part.bridge.guards[i]).kind = .speed), .wrongMode),
           (∀ j : Fin 4, j ≠ i → (s.part.bridge.guards[j]).enabled = true → (s.part.bridge.guards[j]).address ≠ a, .duplicate)])
      [(s.part.mod.mode ≠ .lockout, .lockout), (param work 0 ≤ 3, .badParam)])
    ∧ (∃ t, exec (.setDoorEvents u) s = .next t ∧ Safety.checked (fun r => Safety.orderRefused 20 u r 0 s t)
      (Safety.orderDone 20 u 0 s t ∧ t.part.dor.risingLow = work[0] ∧ t.part.dor.risingHigh = work[1]
        ∧ t.part.dor.fallingLow = work[2] ∧ t.part.dor.fallingHigh = work[3])
      [(param work 0 < 2 ^ 20 ∧ param work 1 < 2 ^ 20 ∧ param work 2 < 2 ^ 20 ∧ param work 3 < 2 ^ 20, .badParam)])
    ∧ ∃ t, exec (.takeMessage u) s = .next t ∧ Safety.checked (fun r => Safety.orderRefused 24 u r 0 s t)
      (∀ m rest, s.part.msg.mailbox = m :: rest → Safety.checked (fun r => Safety.orderRefused 24 u r 0 s t)
        (Safety.orderDone 24 u (BitVec.ofNat 32 rest.length) s t ∧ t.part.msg.mailbox = rest)
        [(param work 0 = 0 ∨ param work 0 = m.serial.toNat, .badParam)])
      [(s.part.msg.mailbox ≠ [], .empty)]

/-- CLEAR GUARD disables a guard slot, its fields 0, with the violation count as its result; in LOCKOUT, at a slot number above 3, and in RUN for an
enabled SPEED slot it is refused. A write to the old address is checked before it and passes unchecked after it (R88). -/
def Obligations.ClearsGuard : Prop :=
  ∀ (u : Trigger) (s : State), Safety.triggerJudged u s →
    let n := param (Safety.workingCopy u s) 0
    (3 < n → ∃ t, exec (.clearGuard u) s = .next t ∧ Safety.checked (fun r => Safety.orderRefused 22 u r 0 s t)
      (Safety.orderRefused 22 u .badParam 0 s t) [(s.part.mod.mode ≠ .lockout, .lockout)])
    ∧ ∀ i : Fin 4, n = i.val →
      let g := s.part.bridge.guards[i]
      ∃ t, exec (.clearGuard u) s = .next t ∧ Safety.checked (fun r => Safety.orderRefused 22 u r 0 s t)
        (Safety.orderDone 22 u (BitVec.ofNat 32 g.violations.toNat) s t
          ∧ t.part.bridge.guards[i] = ⟨false, 0, .none, 0, 0, .none, 0, 0⟩
          ∧ (∀ j : Fin 4, j ≠ i → t.part.bridge.guards[j] = s.part.bridge.guards[j])
          ∧ (g = ⟨false, 0, .none, 0, 0, .none, 0, 0⟩ → t.part.bridge.guards = s.part.bridge.guards)
          ∧ ∀ (a : BitVec 24) (d : WriteData), Safety.guarded i a.toNat s.part → a.toNat % 4 = 0 → Safety.outsideArea a.toNat s.part →
              guardAt a.toNat s.part = some i
              ∧ ∃ r, exec (.ordinaryWrite a d) t = .next r ∧ Safety.passed a d r ∧ r.part.bridge.guards = t.part.bridge.guards)
        [(s.part.mod.mode ≠ .lockout, .lockout), (¬ (s.part.mod.mode = .run ∧ g.enabled = true ∧ g.kind = .speed), .wrongMode)]

/-- A trigger of any kind: at a RUNNING slot it is refused BUSY_SLOT in the order word alone, the slots as they were; while a reset is asserted it is
passed as the host wrote it; of a kind that is not 1 to 25 it is refused UNKNOWN_KIND (R180, R183). -/
def Obligations.TriggersTurnedAway : Prop :=
  ∀ (c : Instr) (u : Trigger) (s : State), Safety.triggerOf c = some u → c.wf = true →
    (s.part.asserted = false → (s.part.ord.slots[u.slot]).state = .running →
      ∃ t, exec c s = .next t ∧ Safety.orderForwarded (Safety.kindOf c) u .refused .busySlot s t
        ∧ t.part.ord.slots[u.slot] = s.part.ord.slots[u.slot] ∧ t.part.ord.shadows = s.part.ord.shadows)
    ∧ (s.part.asserted = true →
      ∃ t, exec c s = .next t ∧ t.part.ord.slots[u.slot] = s.part.ord.slots[u.slot]
        ∧ t.path.access = some ⟨false, s.part.areaAddr (u.slot.val * 32),
            BitVec.ofNat 32 ((Safety.kindOf c).toNat + 256 * u.tag.toNat + 65536 * u.upper.toNat), 0xF#4⟩)
    ∧ ∀ kind, c = .unknownKindTrigger kind u → Safety.triggerJudged u s →
      ∃ t, exec c s = .next t ∧ Safety.orderRefused kind u .unknownKind 0 s t
        ∧ (t.part.ord.slots[u.slot]).kind = kind ∧ (t.part.ord.slots[u.slot]).tag = u.tag
        ∧ (t.part.ord.slots[u.slot]).work = s.part.ord.shadows[u.slot]

/-- A host write to a parameter word, the alive word, the settings block or the profile area passes to memory, and its bytes are taken: into the shadow
(R175), the staged settings (R30) or the staged record (R29), the alive word restarts the silence timer (R117); a write into the staged areas aborts
an activation that is COPYING (R36). While a reset is asserted the write only passes (R180).
A partial write to an order word passes with BAD_ACCESS and is no trigger (R175); a write in the mirror area is dropped and counted (R177). While a reset
is asserted each only passes (R180). -/
def Obligations.HostWrites : Prop :=
  (∀ s : State,
    (∀ (i : Fin 16) (w : Fin 7) (d : WriteData), ∃ t, exec (.parameterWordWrite i w d) s = .next t
      ∧ Safety.passed (s.part.areaAddr (i.val * 32 + (w.val + 1) * 4)) d t
      ∧ (s.part.asserted = true → t.part.ord = s.part.ord)
      ∧ (s.part.asserted = false →
          t.part.ord = { s.part.ord with shadows := t.part.ord.shadows }
          ∧ Safety.bytesTaken (s.part.ord.shadows[i])[w] d (t.part.ord.shadows[i])[w]
          ∧ ∀ j v, (j ≠ i ∨ v ≠ w) → (t.part.ord.shadows[j])[v] = (s.part.ord.shadows[j])[v]))
    ∧ (∀ d : WriteData, ∃ t, exec (.aliveWrite d) s = .next t ∧ Safety.passed (s.part.areaAddr 512) d t
      ∧ (s.part.asserted = true → t.part.mod.silence = s.part.mod.silence ∧ t.part.mod.hostSilent = s.part.mod.hostSilent)
      ∧ (s.part.asserted = false → t.part.mod.silence = some s.part.now ∧ t.part.mod.hostSilent = false))
    ∧ (∀ (w : Fin 256) (d : WriteData), ∃ t, exec (.settingsWrite w d) s = .next t ∧ Safety.passed (s.part.areaAddr (1024 + w.val * 4)) d t
      ∧ t.part.prf.active = s.part.prf.active ∧ t.part.prf.settings = s.part.prf.settings ∧ t.part.prf.staged = s.part.prf.staged
      ∧ (s.part.asserted = true → t.part.prf = s.part.prf)
      ∧ (s.part.asserted = false → t.part.prf.copying = none
          ∧ (s.part.prf.copying.isSome = true → Safety.activationAborted s.part t.part)
          ∧ ∀ k : Fin 32, (k.val = w.val → Safety.bytesTaken s.part.prf.stagedSettings[k] d t.part.prf.stagedSettings[k])
              ∧ (k.val ≠ w.val → t.part.prf.stagedSettings[k] = s.part.prf.stagedSettings[k])))
    ∧ ∀ (w : Fin 2048) (d : WriteData), ∃ t, exec (.profileWrite w d) s = .next t ∧ Safety.passed (s.part.areaAddr (4096 + w.val * 4)) d t
      ∧ t.part.prf.active = s.part.prf.active ∧ t.part.prf.settings = s.part.prf.settings
      ∧ t.part.prf.stagedSettings = s.part.prf.stagedSettings
      ∧ (s.part.asserted = true → t.part.prf = s.part.prf)
      ∧ (s.part.asserted = false → t.part.prf.copying = none
          ∧ (s.part.prf.copying.isSome = true → Safety.activationAborted s.part t.part)
          ∧ ∀ (i : Fin 256) (k : Fin 7),
              (i.val * 8 + k.val = w.val → Safety.bytesTaken ((s.part.prf.staged[i]).word k.val) d ((t.part.prf.staged[i]).word k.val))
              ∧ (i.val * 8 + k.val ≠ w.val → (t.part.prf.staged[i]).word k.val = (s.part.prf.staged[i]).word k.val)))
  ∧ (∀ s : State,
    (∀ (i : Fin 16) (d : WriteData), d.enables ≠ 0xF#4 → ∃ t, exec (.orderWordPartialWrite i d) s = .next t
      ∧ Safety.passed (s.part.areaAddr (i.val * 32)) d t ∧ t.part.ord = s.part.ord
      ∧ (s.part.asserted = false →
          Safety.posts s.part t.part [(.badAccess, BitVec.ofNat 16 (i.val * 32), s.part.odo.pos)] ∧ Safety.flagged .bridge t.part))
    ∧ ∀ (w : Fin 2048) (d : WriteData), ∃ t, exec (.mirrorWrite w d) s = .next t
      ∧ (s.part.asserted = true → Safety.passed (s.part.areaAddr (16384 + w.val * 4)) d t ∧ t.part.bridge.dropped = s.part.bridge.dropped)
      ∧ (s.part.asserted = false → t.path.access = none ∧ (s.path.access = none → t.path = s.path)
          ∧ t.part.bridge.dropped.toNat = min 65535 (s.part.bridge.dropped.toNat + 1)))

/-- A host write outside the bridge area: to a word that no enabled guard holds it passes; to a guarded word a full write within the bounds passes,
outside them CLAMP stores the nearer bound, KEEP drops it and PASS stores it as written, and a partial write is dropped, each a violation
(R85, R86, R178). While a reset is asserted it only passes (R180). -/
def Obligations.GuardedWrites : Prop :=
  ∀ (a : BitVec 24) (d : WriteData) (s : State), a.toNat % 4 = 0 →
    (s.part.asserted = true ∨ (Safety.outsideArea a.toNat s.part ∧ Safety.unguarded a.toNat s.part) →
      (∃ t, exec (.ordinaryWrite a d) s = .next t ∧ Safety.passed a d t ∧ t.part.bridge.guards = s.part.bridge.guards)
      ∧ ∃ t, exec (.guardedWrite a d) s = .next t ∧ Safety.passed a d t ∧ t.part.bridge.guards = s.part.bridge.guards)
    ∧ ∀ i : Fin 4, s.part.asserted = false → Safety.outsideArea a.toNat s.part → Safety.guarded i a.toNat s.part →
      let g := s.part.bridge.guards[i]
      let low := (Safety.guardRange g s.part).1
      let high := (Safety.guardRange g s.part).2
      ∃ t, exec (.guardedWrite a d) s = .next t
        ∧ (d.enables ≠ 0xF#4 →
            ∃ v, Safety.bytesTaken 0 d v ∧ Safety.violated i v 4 s.part t.part ∧ t.path.access = none)
        ∧ (d.enables = 0xF#4 → low ≤ d.data.toNat → d.data.toNat ≤ high →
            Safety.passed a d t ∧ t.part.bridge.guards = s.part.bridge.guards)
        ∧ (d.enables = 0xF#4 → d.data.toNat < low ∨ high < d.data.toNat →
            (g.action = .clamp → Safety.violated i d.data 1 s.part t.part
              ∧ t.path.access = some ⟨false, a, BitVec.ofNat 32 (if d.data.toNat < low then low else high), 0xF#4⟩)
            ∧ (g.action = .keep → Safety.violated i d.data 2 s.part t.part ∧ t.path.access = none)
            ∧ (g.action = .pass → Safety.violated i d.data 3 s.part t.part ∧ Safety.passed a d t))

/-- A full read of the fourth head word pops the oldest event and returns its last word, and of an empty queue pops nothing; a read of the other head words
and a partial read have no side effect. The head shows the oldest event, or kind NONE and the next sequence; a posting becomes it in
an empty queue alone (R189). -/
def Obligations.EventHead : Prop :=
  (∀ (s : State) (e : BitVec 4), Safety.standDone s.part → s.part.asserted = false →
    ∃ t, exec (.eventHeadPop e) s = .next t ∧ t.path.hostData = mirrorWord 0x4F10 s.part
      ∧ (e ≠ 0xF#4 → t.part.evq = s.part.evq)
      ∧ (e = 0xF#4 → t.part.evq.queue = s.part.evq.queue.tail ∧ t.part.evq.next = s.part.evq.next ∧ t.part.evq.lost = s.part.evq.lost
          ∧ t.part.evq.faults = s.part.evq.faults))
  ∧ (∀ p : Part, readEffect 0x4F04 p = p ∧ readEffect 0x4F08 p = p ∧ readEffect 0x4F0C p = p)
  ∧ (∀ (p : Part) (e : Event), p.evq.queue.head? = some e →
      mirrorWord 0x4F04 p = BitVec.ofNat 32 (e.sequence.toNat + 65536 * e.kind.code + 16777216 * e.kind.block)
      ∧ mirrorWord 0x4F08 p = e.time ∧ mirrorWord 0x4F0C p = BitVec.ofNat 32 e.argument.toNat ∧ mirrorWord 0x4F10 p = e.position)
  ∧ (∀ p : Part, p.evq.queue = [] →
      mirrorWord 0x4F04 p = BitVec.ofNat 32 p.evq.next.toNat ∧ mirrorWord 0x4F08 p = 0 ∧ mirrorWord 0x4F0C p = 0 ∧ mirrorWord 0x4F10 p = 0)
  ∧ ∀ (p : Part) (k : EventKind) (arg : Half) (pos : Word) (sets : Bool),
      (p.evq.queue = [] → (postAt k arg pos sets p).evq.queue.head? = some ⟨p.evq.next, p.now, k, arg, pos⟩)
      ∧ ∀ e : Event, p.evq.queue.head? = some e → (postAt k arg pos sets p).evq.queue.head? = some e

/-- A full read of the fault summary returns the bits and clears all twelve, a partial read returns them (R177, R190); memory's answer completes the
forwarded access, and the end of its 50 µs completes it with MEMORY_TIMEOUT, a write then in memory or not, which the spec leaves open (R179, log 5).
A host read of any other word (R173, R174): outside the mirror area, and anywhere while a reset is asserted, it is forwarded to memory and changes nothing of the part; in the
mirror area the part answers it with the word shown there, and only a full read of the fourth head word and of the summary has an effect. That reads wait in a queue of their own, and are
taken where no command waits, is the model's choice (logs 1, 32).
The mirror shows the part (R191, R193): the generation word at the head of each section, and behind it the words of Tables 11-6 and 12-12 at their offsets,
the entries, authorities, restrictions, doors, sides, permits, stations, guards and order slots as records. -/
def Obligations.ReadsAndAnswers : Prop :=
  (∀ s : State,
    (∀ e : BitVec 4, s.part.asserted = false → Safety.standDone s.part →
      ∃ t, exec (.faultSummaryRead e) s = .next t ∧ t.path.hostData = BitVec.ofNat 32 s.part.evq.faults.toNat
        ∧ (e = 0xF#4 → t.part.evq.faults = 0) ∧ (e ≠ 0xF#4 → t.part.evq = s.part.evq))
    ∧ (∀ w : Word, ∃ t, exec (.memoryReady w) s = .next t ∧ t.path.access = none
        ∧ (s.path.access = none → t.path = s.path)
        ∧ ∀ x, s.path.access = some x →
            (x.isRead = true → t.path.hostData = w ∧ t.path.mem = s.path.mem)
            ∧ (x.isRead = false → t.path.hostData = s.path.hostData
                ∧ t.path.mem = Memory.writeWord s.path.mem x.addr.toNat x.data x.enables))
    ∧ ∃ t, exec .memoryTimeout s = .next t ∧ t.path.access = none
        ∧ (s.path.access = none → t.path = s.path)
        ∧ ∀ x, s.path.access = some x →
            (x.isRead = true → t.path.hostData = 0xFFFFFFFF#32 ∧ t.path.mem = s.path.mem)
            ∧ (x.isRead = false → t.path.hostData = s.path.hostData
                ∧ (t.path.mem = s.path.mem ∨ t.path.mem = Memory.writeWord s.path.mem x.addr.toNat x.data x.enables))
            ∧ (s.part.asserted = false →
                Safety.posts s.part t.part [(.memoryTimeout, if x.isRead then 1 else 2, s.part.odo.pos)] ∧ Safety.flagged .bridge t.part)
            ∧ (s.part.asserted = true → Safety.standDone s.part → t.part.evq = s.part.evq))
  ∧ (∀ (r : HostRead) (rest : List HostRead) (s : State), s.pending = [] → s.reads = r :: rest → Safety.standDone s.part →
    (Safety.forwardedRead r s.part → ∃ t, step s = .next t ∧ t.reads = rest ∧ t.part = s.part
      ∧ t.path.access = some ⟨true, BitVec.ofNat 24 (r.addr.toNat / 4 * 4), 0, r.enables⟩
      ∧ t.path.hostData = s.path.hostData ∧ (s.path.access = none → t.path.mem = s.path.mem))
    ∧ ∀ n, Safety.mirrorRead r n s.part → ∃ t, step s = .next t ∧ t.reads = rest
      ∧ t.path.hostData = mirrorWord n s.part ∧ t.path.access = none ∧ (s.path.access = none → t.path.mem = s.path.mem)
      ∧ (r.enables ≠ 0xF#4 ∨ (n ≠ 0x4F10 ∧ n ≠ 0x4F44) → t.part = s.part))
  ∧ ∀ p : Part,
    (∀ s : Section, mirrorWord s.offset p = p.generation s) ∧ mirrorWord 0x4F00 p = p.evq.generation
    ∧ (∀ e ∈ Safety.mirrorCar p ++ Safety.mirrorOthers p, mirrorWord e.1 p = e.2)
    ∧ (∀ d : DemandSource, Safety.shownAt (0x421C + d.index.val * 20)
        [Safety.num (p.entry d).stage.value, Safety.flag (p.entry d).latched, Safety.num (p.entry d).cause.toNat, (p.entry d).setTime, (p.entry d).setPos] p)
    ∧ Safety.shownAt 0x4404 (Safety.authorityShown p.aut.current ++ Safety.authorityShown p.aut.next) p
    ∧ (∀ (i : Nat) (r : Restriction), i < 8 → p.ssu.restrictions[i]? = some r → Safety.shownAt (0x4508 + i * 28) (Safety.restrictionShown r) p)
    ∧ (∀ d : Fin 8, Safety.shownAt (0x4604 + d.val * 24)
        [Safety.num (p.door d).state.code, Safety.num (p.door d).retries, Safety.flag (p.door d).closeFailed, Safety.num (p.door d).fault.code] p)
    ∧ (∀ x : Side, Safety.shownAt (match x with | .left => 0x46C4 | .right => 0x46D4)
        [Safety.flag (p.side x).released, Safety.num (p.side x).platform.toNat, Safety.flag (p.side x).stationControlled, (p.side x).position] p)
    ∧ (∀ (i : Nat) (m : Permit), i < 4 → p.dor.permits[i]? = some m → Safety.shownAt (0x46E4 + i * 12)
        [Safety.num m.platform.toNat, Safety.num ((if m.left then 1 else 0) + (if m.right then 2 else 0)), m.granted] p)
    ∧ Safety.shownAt 0x4828 ((p.link.rxDrops.toList ++ p.link.txDrops.toList).map fun n => Safety.num n.toNat) p
    ∧ (∀ i : Fin 30, Safety.shownAt (0x4868 + i.val * 8)
        [Safety.numOr ((p.link.stations[i]).sequence.map BitVec.toNat), ((p.link.stations[i]).lastHeard).getD 0xFFFFFFFF#32] p)
    ∧ (∀ m rest, p.msg.mailbox = m :: rest →
        Safety.shownAt 0x4978 [Safety.num m.station.toNat, Safety.num m.sequence.toNat, Safety.num m.bytes.length] p
        ∧ Safety.shownAt 0x49B4 [m.arrival, Safety.num m.serial.toNat] p)
    ∧ (∀ i : Fin 4, Safety.shownAt (0x4C04 + i.val * 32)
        [Safety.flag (p.bridge.guards[i]).enabled, (p.bridge.guards[i]).address, Safety.num (p.bridge.guards[i]).kind.code, (p.bridge.guards[i]).low,
         (p.bridge.guards[i]).high, Safety.num (p.bridge.guards[i]).action.code, Safety.num (p.bridge.guards[i]).violations.toNat, (p.bridge.guards[i]).last] p)
    ∧ ∀ i : Fin 16, Safety.shownAt (0x5040 + i.val * 64)
        ([Safety.num ((p.ord.slots[i]).state.code + 256 * (p.ord.slots[i]).kind.toNat + 65536 * (p.ord.slots[i]).tag.toNat
            + 16777216 * (p.ord.slots[i]).reason.code), (p.ord.slots[i]).result] ++ (p.ord.slots[i]).work.toList) p
end

