-- ==== Sys2Proof/Laws/Lists.lean ====
section
/-! SUPPORT. The lists that the laws of the spec bound and order: the event queue (R188), the transmit queue (R154), the restriction list
(R79), the permit list (R133) and the demand table (R45), with what each operation on them keeps. -/

namespace Sys2Proof.Machine

/-! ### The event queue (R188) -/

/-- The law of R188 for a queue. -/
def Evq.ok (q : Evq) : Prop := q.queue.length ≤ 64 ∧ Safety.sequencesRun q.next q.queue

theorem sequencesRun_append (l : List Event) (n : Half) (e : Event) (h : Safety.sequencesRun n l) (he : e.sequence = n) :
    Safety.sequencesRun (n + 1) (l ++ [e]) := by
  induction l with
  | nil => simp [Safety.sequencesRun, he]
  | cons a l ih =>
    cases l with
    | nil =>
      simp only [Safety.sequencesRun] at h
      exact ⟨by rw [he]; exact h, by simp [he, Safety.sequencesRun]⟩
    | cons b l =>
      simp only [Safety.sequencesRun] at h
      exact ⟨h.1, ih h.2⟩

theorem sequencesRun_tail (n : Half) (e : Event) (l : List Event) (h : Safety.sequencesRun n (e :: l)) :
    Safety.sequencesRun n l := by
  cases l with
  | nil => trivial
  | cons a l => exact h.2

theorem Evq.posting_ok (q : Evq) (now : Word) (k : EventKind) (arg : Half) (pos : Word) (sets : Bool) (h : q.ok) :
    (q.posting now k arg pos sets).ok := by
  unfold Evq.posting; simp only; split
  · exact ⟨by simp; omega, sequencesRun_append _ _ _ h.2 rfl⟩
  · exact h

theorem Evq.popped_ok (q : Evq) (h : q.ok) : q.popped.ok := by
  unfold Evq.popped; split
  · exact h
  · rename_i e rest heq
    have h1 := h.1; have h2 := h.2
    rw [heq] at h1 h2
    exact ⟨by simp at h1 ⊢; omega, sequencesRun_tail _ _ _ h2⟩

/-- A posting clears no fault bit. -/
theorem Evq.posting_faults (q : Evq) (now : Word) (k : EventKind) (arg : Half) (pos : Word) (sets : Bool) (i : Nat)
    (h : q.faults.getLsbD i = true) : (q.posting now k arg pos sets).faults.getLsbD i = true := by
  unfold Evq.posting; simp only
  have : (match k.faultClass with
      | some c => if sets then q.faults ||| (1#12 <<< c.bit) else q.faults
      | none => q.faults).getLsbD i = true := by
    split
    · split
      · rw [BitVec.getLsbD_or, h]; rfl
      · exact h
    · exact h
  split <;> exact this

/-- A posting only appends. -/
theorem Evq.posting_prefix (q : Evq) (now : Word) (k : EventKind) (arg : Half) (pos : Word) (sets : Bool) :
    q.queue <+: (q.posting now k arg pos sets).queue := by
  unfold Evq.posting; simp only; split
  · exact List.prefix_append _ _
  · exact List.prefix_refl _

/-! ### The transmit queue (R154) -/

/-- The law of R154 for a transmit queue. -/
def txOk (q : List TxFrame) : Prop :=
  q.length ≤ 4 ∧ Safety.classOrdered q ∧ (q.filter fun f => f.cls == .report).length ≤ 1

theorem classOrdered_iff (l : List TxFrame) :
    Safety.classOrdered l ↔ List.Pairwise (fun a b : TxFrame => a.cls.code ≤ b.cls.code) l := by
  induction l with
  | nil => simp [Safety.classOrdered]
  | cons a l ih =>
    cases l with
    | nil => simp [Safety.classOrdered]
    | cons b l =>
      rw [Safety.classOrdered, ih, List.pairwise_cons (a := a)]
      constructor
      · rintro ⟨h1, h2⟩
        refine ⟨fun c hc => ?_, h2⟩
        rcases List.mem_cons.1 hc with rfl | hc
        · exact h1
        · exact Nat.le_trans h1 ((List.pairwise_cons.1 h2).1 c hc)
      · rintro ⟨h1, h2⟩
        exact ⟨h1 b (List.mem_cons_self ..), h2⟩

/-- A split of an ordered list at a class leaves an ordered list with the frame between. -/
theorem pairwise_insert (P : TxFrame → Bool) (f : TxFrame) (q : List TxFrame)
    (ho : List.Pairwise (fun a b : TxFrame => a.cls.code ≤ b.cls.code) q)
    (hb : ∀ g ∈ q.takeWhile P, g.cls.code ≤ f.cls.code) (ha : ∀ g ∈ q.dropWhile P, f.cls.code ≤ g.cls.code) :
    List.Pairwise (fun a b : TxFrame => a.cls.code ≤ b.cls.code) (q.takeWhile P ++ f :: q.dropWhile P) := by
  have hs := List.takeWhile_append_dropWhile (p := P) (l := q)
  rw [← hs, List.pairwise_append] at ho
  rw [List.pairwise_append]
  refine ⟨ho.1, List.pairwise_cons.2 ⟨ha, ho.2.1⟩, fun a h1 b h2 => ?_⟩
  rcases List.mem_cons.1 h2 with rfl | h2
  · exact hb a h1
  · exact ho.2.2 a h1 b h2

theorem mem_takeWhile_imp' {P : TxFrame → Bool} {q : List TxFrame} {g : TxFrame} (h : g ∈ q.takeWhile P) : P g = true := by
  induction q with
  | nil => simp at h
  | cons a q ih =>
    rw [List.takeWhile_cons] at h
    split at h
    · rcases List.mem_cons.1 h with rfl | h
      · assumption
      · exact ih h
    · simp at h

/-- After the first frame that fails the test, every frame of an ordered queue has at least that frame's class. -/
theorem dropWhile_ge (P : TxFrame → Bool) (n : Nat) (hP : ∀ g : TxFrame, P g = false → n ≤ g.cls.code) (q : List TxFrame)
    (ho : List.Pairwise (fun a b : TxFrame => a.cls.code ≤ b.cls.code) q) : ∀ g ∈ q.dropWhile P, n ≤ g.cls.code := by
  induction q with
  | nil => simp
  | cons a q ih =>
    intro g hg
    rw [List.dropWhile_cons] at hg
    split at hg
    · exact ih (List.pairwise_cons.1 ho).2 g hg
    · have hn := hP a (by simpa using ‹¬P a = true›)
      rcases List.mem_cons.1 hg with rfl | hg
      · exact hn
      · exact Nat.le_trans hn ((List.pairwise_cons.1 ho).1 g hg)

theorem txInsertTail_ordered (f : TxFrame) (q : List TxFrame) (h : Safety.classOrdered q) :
    Safety.classOrdered (txInsertTail f q) := by
  rw [classOrdered_iff] at h ⊢
  refine pairwise_insert _ f q h (fun g hg => ?_) (dropWhile_ge _ _ (fun g hg => ?_) q h)
  · simpa using mem_takeWhile_imp' hg
  · simp at hg; omega

theorem txInsertHead_ordered (f : TxFrame) (q : List TxFrame) (h : Safety.classOrdered q) :
    Safety.classOrdered (txInsertHead f q) := by
  rw [classOrdered_iff] at h ⊢
  refine pairwise_insert _ f q h (fun g hg => ?_) (dropWhile_ge _ _ (fun g hg => ?_) q h)
  · have := mem_takeWhile_imp' hg; simp at this; omega
  · simpa using hg

theorem split_length (P : TxFrame → Bool) (f : TxFrame) (q : List TxFrame) :
    (q.takeWhile P ++ f :: q.dropWhile P).length = q.length + 1 := by
  have := congrArg List.length (List.takeWhile_append_dropWhile (p := P) (l := q))
  simp only [List.length_append, List.length_cons] at this ⊢
  omega

theorem split_reports (P : TxFrame → Bool) (f : TxFrame) (q : List TxFrame) :
    ((q.takeWhile P ++ f :: q.dropWhile P).filter fun g => g.cls == .report).length
      = (q.filter fun g => g.cls == .report).length + (if f.cls == .report then 1 else 0) := by
  have := congrArg (fun l => (l.filter fun g : TxFrame => g.cls == .report).length)
    (List.takeWhile_append_dropWhile (p := P) (l := q))
  simp only [List.filter_append, List.length_append] at this
  simp only [List.filter_append, List.length_append, List.filter_cons]
  split
  · simp_all; omega
  · simp_all

theorem reports_none (q : List TxFrame) (h : txHasReport q = false) :
    (q.filter fun g => g.cls == .report).length = 0 := by
  simp only [txHasReport, List.any_eq_false] at h
  simp only [List.length_eq_zero_iff, List.filter_eq_nil_iff]
  exact h

/-- Placing a frame keeps the law when there is room, and no second REPORT comes. -/
theorem split_ok (P : TxFrame → Bool) (f : TxFrame) (q : List TxFrame) (h : txOk q) (hr : q.length < 4)
    (hf : f.cls = .report → txHasReport q = false)
    (ho : Safety.classOrdered (q.takeWhile P ++ f :: q.dropWhile P)) : txOk (q.takeWhile P ++ f :: q.dropWhile P) := by
  refine ⟨by rw [split_length]; omega, ho, ?_⟩
  rw [split_reports]
  by_cases hc : f.cls = .report
  · rw [reports_none q (hf hc)]; simp [hc]
  · have := h.2.2
    simp only [beq_iff_eq, hc, if_false]; exact this

theorem txInsertTail_ok (f : TxFrame) (q : List TxFrame) (h : txOk q) (hr : q.length < 4)
    (hf : f.cls = .report → txHasReport q = false) : txOk (txInsertTail f q) :=
  split_ok _ f q h hr hf (txInsertTail_ordered f q h.2.1)

theorem txInsertHead_ok (f : TxFrame) (q : List TxFrame) (h : txOk q) (hr : q.length < 4)
    (hf : f.cls = .report → txHasReport q = false) : txOk (txInsertHead f q) :=
  split_ok _ f q h hr hf (txInsertHead_ordered f q h.2.1)

theorem txOk_sublist {q r : List TxFrame} (hs : r.Sublist q) (h : txOk q) : txOk r := by
  refine ⟨Nat.le_trans hs.length_le h.1, ?_, Nat.le_trans (hs.filter _).length_le h.2.2⟩
  rw [classOrdered_iff]
  exact ((classOrdered_iff q).1 h.2.1).sublist hs

theorem txOk_nil : txOk [] := ⟨by simp, trivial, by simp⟩

theorem txRefresh_ok (f : TxFrame) (q : List TxFrame) (h : txOk q) : txOk (txRefresh f q) := by
  have hc : ∀ g : TxFrame, (if g.cls == .report then { g with kind := f.kind, payload := f.payload } else g).cls = g.cls := by
    intro g; split <;> rfl
  refine ⟨by simpa [txRefresh] using h.1, ?_, ?_⟩
  · rw [classOrdered_iff, txRefresh, List.pairwise_map]
    simpa only [hc] using (classOrdered_iff q).1 h.2.1
  · rw [txRefresh, List.filter_map, List.length_map]
    simpa only [Function.comp_def, hc] using h.2.2

theorem txHasReport_sublist {q r : List TxFrame} (hs : r.Sublist q) (h : txHasReport q = false) : txHasReport r = false := by
  simp only [txHasReport, List.any_eq_false] at h ⊢
  exact fun x hx => h x (hs.subset hx)

/-! ### The restriction list (R79) -/

/-- The law of R79 for a list. -/
def restrictionsOk (l : List Restriction) : Prop :=
  l.length ≤ 8 ∧ Safety.listOrdered l ∧ (l.map Restriction.id).Nodup

theorem before_trans {a b c : Restriction} (h1 : a.before b = true) (h2 : b.before c = true) : a.before c = true := by
  simp only [Restriction.before, Bool.or_eq_true, Bool.and_eq_true, decide_eq_true_eq, beq_iff_eq] at *
  omega

theorem listOrdered_iff (l : List Restriction) :
    Safety.listOrdered l ↔ List.Pairwise (fun a b : Restriction => a.before b = true) l := by
  induction l with
  | nil => simp [Safety.listOrdered]
  | cons a l ih =>
    cases l with
    | nil => simp [Safety.listOrdered]
    | cons b l =>
      rw [Safety.listOrdered, ih, List.pairwise_cons (a := a)]
      constructor
      · rintro ⟨h1, h2⟩
        refine ⟨fun c hc => ?_, h2⟩
        rcases List.mem_cons.1 hc with rfl | hc
        · exact h1
        · exact before_trans h1 ((List.pairwise_cons.1 h2).1 c hc)
      · rintro ⟨h1, h2⟩
        exact ⟨h1 b (List.mem_cons_self ..), h2⟩

theorem insertRestriction_perm (r : Restriction) (l : List Restriction) : (insertRestriction r l).Perm (r :: l) := by
  induction l with
  | nil => exact List.Perm.refl _
  | cons t ts ih =>
    simp only [insertRestriction]; split
    · exact List.Perm.refl _
    · exact (List.Perm.cons t ih).trans (List.Perm.swap r t ts)

/-- Two restrictions of different ids stand in one order or the other. -/
theorem before_total {r t : Restriction} (hid : r.id ≠ t.id) (h : ¬ r.before t = true) : t.before r = true := by
  have : r.id.toNat ≠ t.id.toNat := fun e => hid (BitVec.eq_of_toNat_eq e)
  simp only [Restriction.before, Bool.or_eq_true, Bool.and_eq_true, decide_eq_true_eq, beq_iff_eq] at *
  omega

theorem insertRestriction_ordered (r : Restriction) (l : List Restriction)
    (h : List.Pairwise (fun a b : Restriction => a.before b = true) l) (hid : ∀ t ∈ l, r.id ≠ t.id) :
    List.Pairwise (fun a b : Restriction => a.before b = true) (insertRestriction r l) := by
  induction l with
  | nil => simp [insertRestriction]
  | cons t ts ih =>
    simp only [insertRestriction]
    have hp := List.pairwise_cons.1 h
    split
    · rename_i hb
      refine List.pairwise_cons.2 ⟨fun c hc => ?_, h⟩
      rcases List.mem_cons.1 hc with rfl | hc
      · exact hb
      · exact before_trans hb (hp.1 c hc)
    · rename_i hb
      refine List.pairwise_cons.2 ⟨fun c hc => ?_, ih hp.2 fun x hx => hid x (List.mem_cons_of_mem _ hx)⟩
      rcases List.mem_cons.1 ((insertRestriction_perm r ts).mem_iff.1 hc) with rfl | hc
      · exact before_total (hid t (List.mem_cons_self ..)) hb
      · exact hp.1 c hc

theorem restrictionsOk_sublist {l m : List Restriction} (hs : m.Sublist l) (h : restrictionsOk l) : restrictionsOk m := by
  refine ⟨Nat.le_trans hs.length_le h.1, ?_, (h.2.2).sublist (hs.map _)⟩
  rw [listOrdered_iff]
  exact ((listOrdered_iff l).1 h.2.1).sublist hs

theorem eraseRestriction_ok (id : Nat) (l : List Restriction) (h : restrictionsOk l) : restrictionsOk (eraseRestriction id l) :=
  restrictionsOk_sublist List.filter_sublist h

theorem insertRestriction_ok (r : Restriction) (l : List Restriction) (h : restrictionsOk l) (hl : l.length < 8)
    (hid : ∀ t ∈ l, r.id ≠ t.id) : restrictionsOk (insertRestriction r l) := by
  refine ⟨?_, ?_, ?_⟩
  · rw [(insertRestriction_perm r l).length_eq, List.length_cons]; omega
  · rw [listOrdered_iff]
    exact insertRestriction_ordered r l ((listOrdered_iff l).1 h.2.1) hid
  · rw [((insertRestriction_perm r l).map Restriction.id).nodup_iff, List.map_cons, List.nodup_cons]
    refine ⟨fun hm => ?_, h.2.2⟩
    obtain ⟨t, ht, e⟩ := List.mem_map.1 hm
    exact hid t ht e.symm

theorem eraseRestriction_id (r : Restriction) (l : List Restriction) :
    ∀ t ∈ eraseRestriction r.id.toNat l, r.id ≠ t.id := by
  intro t ht e
  simp only [eraseRestriction, List.mem_filter, bne_iff_ne, ne_eq] at ht
  exact ht.2 (by rw [e])

/-- An id that is held leaves a list with room. -/
theorem eraseRestriction_length (id : Nat) (l : List Restriction) (h : restrictionsOk l)
    (hf : (findRestriction id l).isSome = true ∨ l.length < 8) : (eraseRestriction id l).length < 8 := by
  rcases hf with hf | hf
  · obtain ⟨r, hr⟩ := Option.isSome_iff_exists.1 hf
    have hm := List.mem_of_find?_eq_some hr
    have hp := List.find?_some hr
    have : (eraseRestriction id l).length < l.length := by
      refine Nat.lt_of_le_of_ne (List.length_filter_le _ _) fun e => ?_
      have hall := List.length_filter_eq_length_iff.1 e r hm
      simp_all
    have := h.1
    omega
  · exact Nat.lt_of_le_of_lt (List.length_filter_le _ _) hf

/-- An addition that R80 takes keeps the law. -/
theorem placed_ok (a : Addition) (o : Origin) (l : List Restriction) (r : Restriction) (b : Bool) (h : restrictionsOk l)
    (hj : judgeAddition a o l = .ok (r, b)) : restrictionsOk (insertRestriction r (eraseRestriction r.id.toNat l)) := by
  refine insertRestriction_ok _ _ (eraseRestriction_ok _ _ h) (eraseRestriction_length _ _ h ?_) (eraseRestriction_id r l)
  unfold judgeAddition at hj
  split at hj
  · cases hj
  · split at hj
    · cases hj
    · rename_i hg
      have hid : (BitVec.ofNat 8 a.id).toNat = a.id := by rw [BitVec.toNat_ofNat]; omega
      simp only at hj
      split at hj
      · rename_i old hold
        split at hj
        · simp only [Except.ok.injEq, Prod.mk.injEq] at hj
          rw [← hj.1]; simp only [hid]; left; rw [hold]; rfl
        · cases hj
      · split at hj
        · cases hj
        · right; omega

/-! ### The permit list (R133) -/

/-- The bounds of R133 for a list. -/
def permitsOk (l : List Permit) : Prop := l.length ≤ 4 ∧ (l.map Permit.platform).Nodup

theorem permitsOk_filter (f : Permit → Bool) (l : List Permit) (h : permitsOk l) : permitsOk (l.filter f) :=
  ⟨Nat.le_trans (List.length_filter_le _ _) h.1, h.2.sublist (List.filter_sublist.map _)⟩

theorem permitsOk_replace (m : Permit) (l : List Permit) (h : permitsOk l) :
    permitsOk (l.map fun x => if x.platform == m.platform then m else x) := by
  have : (l.map fun x => if x.platform == m.platform then m else x).map Permit.platform = l.map Permit.platform := by
    rw [List.map_map]
    refine List.map_congr_left fun x _ => ?_
    simp only [Function.comp_apply]
    split
    · rename_i hc; simpa using (beq_iff_eq.1 hc).symm
    · rfl
  exact ⟨by simpa using h.1, by rw [this]; exact h.2⟩

theorem permitsOk_append (m : Permit) (l : List Permit) (h : permitsOk l) (hl : l.length < 4)
    (hn : l.find? (fun x => x.platform == m.platform) = none) : permitsOk (l ++ [m]) := by
  refine ⟨by simp; omega, ?_⟩
  rw [List.map_append, List.nodup_append]
  refine ⟨h.2, by simp, ?_⟩
  simp only [List.find?_eq_none, beq_iff_eq] at hn
  simp only [List.mem_map, List.map_cons, List.map_nil, List.mem_singleton]
  rintro _ ⟨x, hx, rfl⟩ _ rfl
  exact hn x hx

/-! ### The demand table (R45) -/

theorem Stage.value_max (a b : Stage) : (a.max b).value = if a.value < b.value then b.value else a.value := by
  unfold Stage.max; split <;> rfl

theorem foldl_stage_ge (l : List Entry) (s : Stage) :
    s.value ≤ (l.foldl (fun s e => s.max e.stage) s).value
    ∧ ∀ e ∈ l, e.stage.value ≤ (l.foldl (fun s e => s.max e.stage) s).value := by
  induction l generalizing s with
  | nil => simp
  | cons a l ih =>
    obtain ⟨h1, h2⟩ := ih (s.max a.stage)
    rw [Stage.value_max] at h1
    have h3 : s.value ≤ (if s.value < a.stage.value then a.stage.value else s.value) := by split <;> omega
    have h4 : a.stage.value ≤ (if s.value < a.stage.value then a.stage.value else s.value) := by split <;> omega
    simp only [List.foldl_cons]
    refine ⟨by omega, fun e he => ?_⟩
    rcases List.mem_cons.1 he with rfl | he
    · omega
    · exact h2 e he

/-- No entry stands above the highest stage (R45). -/
theorem entry_le_highest (t : Vector Entry 12) (i : Fin 12) : t[i].stage.value ≤ (highestStage t).value :=
  (foldl_stage_ge t.toList .released).2 _ (by simp)

theorem Stage.value_injective {a b : Stage} (h : a.value = b.value) : a = b := by
  cases a <;> cases b <;> first | rfl | cases h

theorem Stage.value_le (a : Stage) : a.value ≤ 5 := by cases a <;> decide

end Sys2Proof.Machine
end

