-- ==== Sys2Proof/Laws/State.lean ====
section
/-! SUPPORT. One lemma per field of the part for each update of it, true by rfl: reading the replaced block gives the new one, reading any
other gives what was there. -/

namespace Sys2Proof.Machine

/-! ### Replacing now -/

@[simp] theorem Part.withNow_now (p : Part) x : (p.withNow x).now = x := rfl
@[simp] theorem Part.withNow_coldLine (p : Part) x : (p.withNow x).coldLine = p.coldLine := rfl
@[simp] theorem Part.withNow_warmLine (p : Part) x : (p.withNow x).warmLine = p.warmLine := rfl
@[simp] theorem Part.withNow_freeCount (p : Part) x : (p.withNow x).freeCount = p.freeCount := rfl
@[simp] theorem Part.withNow_bridge (p : Part) x : (p.withNow x).bridge = p.bridge := rfl
@[simp] theorem Part.withNow_ord (p : Part) x : (p.withNow x).ord = p.ord := rfl
@[simp] theorem Part.withNow_evq (p : Part) x : (p.withNow x).evq = p.evq := rfl
@[simp] theorem Part.withNow_odo (p : Part) x : (p.withNow x).odo = p.odo := rfl
@[simp] theorem Part.withNow_prf (p : Part) x : (p.withNow x).prf = p.prf := rfl
@[simp] theorem Part.withNow_ssu (p : Part) x : (p.withNow x).ssu = p.ssu := rfl
@[simp] theorem Part.withNow_aut (p : Part) x : (p.withNow x).aut = p.aut := rfl
@[simp] theorem Part.withNow_brk (p : Part) x : (p.withNow x).brk = p.brk := rfl
@[simp] theorem Part.withNow_mod (p : Part) x : (p.withNow x).mod = p.mod := rfl
@[simp] theorem Part.withNow_dor (p : Part) x : (p.withNow x).dor = p.dor := rfl
@[simp] theorem Part.withNow_link (p : Part) x : (p.withNow x).link = p.link := rfl
@[simp] theorem Part.withNow_msg (p : Part) x : (p.withNow x).msg = p.msg := rfl

/-! ### Replacing coldLine -/

@[simp] theorem Part.withColdLine_now (p : Part) x : (p.withColdLine x).now = p.now := rfl
@[simp] theorem Part.withColdLine_coldLine (p : Part) x : (p.withColdLine x).coldLine = x := rfl
@[simp] theorem Part.withColdLine_warmLine (p : Part) x : (p.withColdLine x).warmLine = p.warmLine := rfl
@[simp] theorem Part.withColdLine_freeCount (p : Part) x : (p.withColdLine x).freeCount = p.freeCount := rfl
@[simp] theorem Part.withColdLine_bridge (p : Part) x : (p.withColdLine x).bridge = p.bridge := rfl
@[simp] theorem Part.withColdLine_ord (p : Part) x : (p.withColdLine x).ord = p.ord := rfl
@[simp] theorem Part.withColdLine_evq (p : Part) x : (p.withColdLine x).evq = p.evq := rfl
@[simp] theorem Part.withColdLine_odo (p : Part) x : (p.withColdLine x).odo = p.odo := rfl
@[simp] theorem Part.withColdLine_prf (p : Part) x : (p.withColdLine x).prf = p.prf := rfl
@[simp] theorem Part.withColdLine_ssu (p : Part) x : (p.withColdLine x).ssu = p.ssu := rfl
@[simp] theorem Part.withColdLine_aut (p : Part) x : (p.withColdLine x).aut = p.aut := rfl
@[simp] theorem Part.withColdLine_brk (p : Part) x : (p.withColdLine x).brk = p.brk := rfl
@[simp] theorem Part.withColdLine_mod (p : Part) x : (p.withColdLine x).mod = p.mod := rfl
@[simp] theorem Part.withColdLine_dor (p : Part) x : (p.withColdLine x).dor = p.dor := rfl
@[simp] theorem Part.withColdLine_link (p : Part) x : (p.withColdLine x).link = p.link := rfl
@[simp] theorem Part.withColdLine_msg (p : Part) x : (p.withColdLine x).msg = p.msg := rfl

/-! ### Replacing warmLine -/

@[simp] theorem Part.withWarmLine_now (p : Part) x : (p.withWarmLine x).now = p.now := rfl
@[simp] theorem Part.withWarmLine_coldLine (p : Part) x : (p.withWarmLine x).coldLine = p.coldLine := rfl
@[simp] theorem Part.withWarmLine_warmLine (p : Part) x : (p.withWarmLine x).warmLine = x := rfl
@[simp] theorem Part.withWarmLine_freeCount (p : Part) x : (p.withWarmLine x).freeCount = p.freeCount := rfl
@[simp] theorem Part.withWarmLine_bridge (p : Part) x : (p.withWarmLine x).bridge = p.bridge := rfl
@[simp] theorem Part.withWarmLine_ord (p : Part) x : (p.withWarmLine x).ord = p.ord := rfl
@[simp] theorem Part.withWarmLine_evq (p : Part) x : (p.withWarmLine x).evq = p.evq := rfl
@[simp] theorem Part.withWarmLine_odo (p : Part) x : (p.withWarmLine x).odo = p.odo := rfl
@[simp] theorem Part.withWarmLine_prf (p : Part) x : (p.withWarmLine x).prf = p.prf := rfl
@[simp] theorem Part.withWarmLine_ssu (p : Part) x : (p.withWarmLine x).ssu = p.ssu := rfl
@[simp] theorem Part.withWarmLine_aut (p : Part) x : (p.withWarmLine x).aut = p.aut := rfl
@[simp] theorem Part.withWarmLine_brk (p : Part) x : (p.withWarmLine x).brk = p.brk := rfl
@[simp] theorem Part.withWarmLine_mod (p : Part) x : (p.withWarmLine x).mod = p.mod := rfl
@[simp] theorem Part.withWarmLine_dor (p : Part) x : (p.withWarmLine x).dor = p.dor := rfl
@[simp] theorem Part.withWarmLine_link (p : Part) x : (p.withWarmLine x).link = p.link := rfl
@[simp] theorem Part.withWarmLine_msg (p : Part) x : (p.withWarmLine x).msg = p.msg := rfl

/-! ### Replacing freeCount -/

@[simp] theorem Part.withFreeCount_now (p : Part) x : (p.withFreeCount x).now = p.now := rfl
@[simp] theorem Part.withFreeCount_coldLine (p : Part) x : (p.withFreeCount x).coldLine = p.coldLine := rfl
@[simp] theorem Part.withFreeCount_warmLine (p : Part) x : (p.withFreeCount x).warmLine = p.warmLine := rfl
@[simp] theorem Part.withFreeCount_freeCount (p : Part) x : (p.withFreeCount x).freeCount = x := rfl
@[simp] theorem Part.withFreeCount_bridge (p : Part) x : (p.withFreeCount x).bridge = p.bridge := rfl
@[simp] theorem Part.withFreeCount_ord (p : Part) x : (p.withFreeCount x).ord = p.ord := rfl
@[simp] theorem Part.withFreeCount_evq (p : Part) x : (p.withFreeCount x).evq = p.evq := rfl
@[simp] theorem Part.withFreeCount_odo (p : Part) x : (p.withFreeCount x).odo = p.odo := rfl
@[simp] theorem Part.withFreeCount_prf (p : Part) x : (p.withFreeCount x).prf = p.prf := rfl
@[simp] theorem Part.withFreeCount_ssu (p : Part) x : (p.withFreeCount x).ssu = p.ssu := rfl
@[simp] theorem Part.withFreeCount_aut (p : Part) x : (p.withFreeCount x).aut = p.aut := rfl
@[simp] theorem Part.withFreeCount_brk (p : Part) x : (p.withFreeCount x).brk = p.brk := rfl
@[simp] theorem Part.withFreeCount_mod (p : Part) x : (p.withFreeCount x).mod = p.mod := rfl
@[simp] theorem Part.withFreeCount_dor (p : Part) x : (p.withFreeCount x).dor = p.dor := rfl
@[simp] theorem Part.withFreeCount_link (p : Part) x : (p.withFreeCount x).link = p.link := rfl
@[simp] theorem Part.withFreeCount_msg (p : Part) x : (p.withFreeCount x).msg = p.msg := rfl

/-! ### Replacing bridge -/

@[simp] theorem Part.withBridge_now (p : Part) x : (p.withBridge x).now = p.now := rfl
@[simp] theorem Part.withBridge_coldLine (p : Part) x : (p.withBridge x).coldLine = p.coldLine := rfl
@[simp] theorem Part.withBridge_warmLine (p : Part) x : (p.withBridge x).warmLine = p.warmLine := rfl
@[simp] theorem Part.withBridge_freeCount (p : Part) x : (p.withBridge x).freeCount = p.freeCount := rfl
@[simp] theorem Part.withBridge_bridge (p : Part) x : (p.withBridge x).bridge = x := rfl
@[simp] theorem Part.withBridge_ord (p : Part) x : (p.withBridge x).ord = p.ord := rfl
@[simp] theorem Part.withBridge_evq (p : Part) x : (p.withBridge x).evq = p.evq := rfl
@[simp] theorem Part.withBridge_odo (p : Part) x : (p.withBridge x).odo = p.odo := rfl
@[simp] theorem Part.withBridge_prf (p : Part) x : (p.withBridge x).prf = p.prf := rfl
@[simp] theorem Part.withBridge_ssu (p : Part) x : (p.withBridge x).ssu = p.ssu := rfl
@[simp] theorem Part.withBridge_aut (p : Part) x : (p.withBridge x).aut = p.aut := rfl
@[simp] theorem Part.withBridge_brk (p : Part) x : (p.withBridge x).brk = p.brk := rfl
@[simp] theorem Part.withBridge_mod (p : Part) x : (p.withBridge x).mod = p.mod := rfl
@[simp] theorem Part.withBridge_dor (p : Part) x : (p.withBridge x).dor = p.dor := rfl
@[simp] theorem Part.withBridge_link (p : Part) x : (p.withBridge x).link = p.link := rfl
@[simp] theorem Part.withBridge_msg (p : Part) x : (p.withBridge x).msg = p.msg := rfl

/-! ### Replacing ord -/

@[simp] theorem Part.withOrd_now (p : Part) x : (p.withOrd x).now = p.now := rfl
@[simp] theorem Part.withOrd_coldLine (p : Part) x : (p.withOrd x).coldLine = p.coldLine := rfl
@[simp] theorem Part.withOrd_warmLine (p : Part) x : (p.withOrd x).warmLine = p.warmLine := rfl
@[simp] theorem Part.withOrd_freeCount (p : Part) x : (p.withOrd x).freeCount = p.freeCount := rfl
@[simp] theorem Part.withOrd_bridge (p : Part) x : (p.withOrd x).bridge = p.bridge := rfl
@[simp] theorem Part.withOrd_ord (p : Part) x : (p.withOrd x).ord = x := rfl
@[simp] theorem Part.withOrd_evq (p : Part) x : (p.withOrd x).evq = p.evq := rfl
@[simp] theorem Part.withOrd_odo (p : Part) x : (p.withOrd x).odo = p.odo := rfl
@[simp] theorem Part.withOrd_prf (p : Part) x : (p.withOrd x).prf = p.prf := rfl
@[simp] theorem Part.withOrd_ssu (p : Part) x : (p.withOrd x).ssu = p.ssu := rfl
@[simp] theorem Part.withOrd_aut (p : Part) x : (p.withOrd x).aut = p.aut := rfl
@[simp] theorem Part.withOrd_brk (p : Part) x : (p.withOrd x).brk = p.brk := rfl
@[simp] theorem Part.withOrd_mod (p : Part) x : (p.withOrd x).mod = p.mod := rfl
@[simp] theorem Part.withOrd_dor (p : Part) x : (p.withOrd x).dor = p.dor := rfl
@[simp] theorem Part.withOrd_link (p : Part) x : (p.withOrd x).link = p.link := rfl
@[simp] theorem Part.withOrd_msg (p : Part) x : (p.withOrd x).msg = p.msg := rfl

/-! ### Replacing evq -/

@[simp] theorem Part.withEvq_now (p : Part) x : (p.withEvq x).now = p.now := rfl
@[simp] theorem Part.withEvq_coldLine (p : Part) x : (p.withEvq x).coldLine = p.coldLine := rfl
@[simp] theorem Part.withEvq_warmLine (p : Part) x : (p.withEvq x).warmLine = p.warmLine := rfl
@[simp] theorem Part.withEvq_freeCount (p : Part) x : (p.withEvq x).freeCount = p.freeCount := rfl
@[simp] theorem Part.withEvq_bridge (p : Part) x : (p.withEvq x).bridge = p.bridge := rfl
@[simp] theorem Part.withEvq_ord (p : Part) x : (p.withEvq x).ord = p.ord := rfl
@[simp] theorem Part.withEvq_evq (p : Part) x : (p.withEvq x).evq = x := rfl
@[simp] theorem Part.withEvq_odo (p : Part) x : (p.withEvq x).odo = p.odo := rfl
@[simp] theorem Part.withEvq_prf (p : Part) x : (p.withEvq x).prf = p.prf := rfl
@[simp] theorem Part.withEvq_ssu (p : Part) x : (p.withEvq x).ssu = p.ssu := rfl
@[simp] theorem Part.withEvq_aut (p : Part) x : (p.withEvq x).aut = p.aut := rfl
@[simp] theorem Part.withEvq_brk (p : Part) x : (p.withEvq x).brk = p.brk := rfl
@[simp] theorem Part.withEvq_mod (p : Part) x : (p.withEvq x).mod = p.mod := rfl
@[simp] theorem Part.withEvq_dor (p : Part) x : (p.withEvq x).dor = p.dor := rfl
@[simp] theorem Part.withEvq_link (p : Part) x : (p.withEvq x).link = p.link := rfl
@[simp] theorem Part.withEvq_msg (p : Part) x : (p.withEvq x).msg = p.msg := rfl

/-! ### Replacing odo -/

@[simp] theorem Part.withOdo_now (p : Part) x : (p.withOdo x).now = p.now := rfl
@[simp] theorem Part.withOdo_coldLine (p : Part) x : (p.withOdo x).coldLine = p.coldLine := rfl
@[simp] theorem Part.withOdo_warmLine (p : Part) x : (p.withOdo x).warmLine = p.warmLine := rfl
@[simp] theorem Part.withOdo_freeCount (p : Part) x : (p.withOdo x).freeCount = p.freeCount := rfl
@[simp] theorem Part.withOdo_bridge (p : Part) x : (p.withOdo x).bridge = p.bridge := rfl
@[simp] theorem Part.withOdo_ord (p : Part) x : (p.withOdo x).ord = p.ord := rfl
@[simp] theorem Part.withOdo_evq (p : Part) x : (p.withOdo x).evq = p.evq := rfl
@[simp] theorem Part.withOdo_odo (p : Part) x : (p.withOdo x).odo = x := rfl
@[simp] theorem Part.withOdo_prf (p : Part) x : (p.withOdo x).prf = p.prf := rfl
@[simp] theorem Part.withOdo_ssu (p : Part) x : (p.withOdo x).ssu = p.ssu := rfl
@[simp] theorem Part.withOdo_aut (p : Part) x : (p.withOdo x).aut = p.aut := rfl
@[simp] theorem Part.withOdo_brk (p : Part) x : (p.withOdo x).brk = p.brk := rfl
@[simp] theorem Part.withOdo_mod (p : Part) x : (p.withOdo x).mod = p.mod := rfl
@[simp] theorem Part.withOdo_dor (p : Part) x : (p.withOdo x).dor = p.dor := rfl
@[simp] theorem Part.withOdo_link (p : Part) x : (p.withOdo x).link = p.link := rfl
@[simp] theorem Part.withOdo_msg (p : Part) x : (p.withOdo x).msg = p.msg := rfl

/-! ### Replacing prf -/

@[simp] theorem Part.withPrf_now (p : Part) x : (p.withPrf x).now = p.now := rfl
@[simp] theorem Part.withPrf_coldLine (p : Part) x : (p.withPrf x).coldLine = p.coldLine := rfl
@[simp] theorem Part.withPrf_warmLine (p : Part) x : (p.withPrf x).warmLine = p.warmLine := rfl
@[simp] theorem Part.withPrf_freeCount (p : Part) x : (p.withPrf x).freeCount = p.freeCount := rfl
@[simp] theorem Part.withPrf_bridge (p : Part) x : (p.withPrf x).bridge = p.bridge := rfl
@[simp] theorem Part.withPrf_ord (p : Part) x : (p.withPrf x).ord = p.ord := rfl
@[simp] theorem Part.withPrf_evq (p : Part) x : (p.withPrf x).evq = p.evq := rfl
@[simp] theorem Part.withPrf_odo (p : Part) x : (p.withPrf x).odo = p.odo := rfl
@[simp] theorem Part.withPrf_prf (p : Part) x : (p.withPrf x).prf = x := rfl
@[simp] theorem Part.withPrf_ssu (p : Part) x : (p.withPrf x).ssu = p.ssu := rfl
@[simp] theorem Part.withPrf_aut (p : Part) x : (p.withPrf x).aut = p.aut := rfl
@[simp] theorem Part.withPrf_brk (p : Part) x : (p.withPrf x).brk = p.brk := rfl
@[simp] theorem Part.withPrf_mod (p : Part) x : (p.withPrf x).mod = p.mod := rfl
@[simp] theorem Part.withPrf_dor (p : Part) x : (p.withPrf x).dor = p.dor := rfl
@[simp] theorem Part.withPrf_link (p : Part) x : (p.withPrf x).link = p.link := rfl
@[simp] theorem Part.withPrf_msg (p : Part) x : (p.withPrf x).msg = p.msg := rfl

/-! ### Replacing ssu -/

@[simp] theorem Part.withSsu_now (p : Part) x : (p.withSsu x).now = p.now := rfl
@[simp] theorem Part.withSsu_coldLine (p : Part) x : (p.withSsu x).coldLine = p.coldLine := rfl
@[simp] theorem Part.withSsu_warmLine (p : Part) x : (p.withSsu x).warmLine = p.warmLine := rfl
@[simp] theorem Part.withSsu_freeCount (p : Part) x : (p.withSsu x).freeCount = p.freeCount := rfl
@[simp] theorem Part.withSsu_bridge (p : Part) x : (p.withSsu x).bridge = p.bridge := rfl
@[simp] theorem Part.withSsu_ord (p : Part) x : (p.withSsu x).ord = p.ord := rfl
@[simp] theorem Part.withSsu_evq (p : Part) x : (p.withSsu x).evq = p.evq := rfl
@[simp] theorem Part.withSsu_odo (p : Part) x : (p.withSsu x).odo = p.odo := rfl
@[simp] theorem Part.withSsu_prf (p : Part) x : (p.withSsu x).prf = p.prf := rfl
@[simp] theorem Part.withSsu_ssu (p : Part) x : (p.withSsu x).ssu = x := rfl
@[simp] theorem Part.withSsu_aut (p : Part) x : (p.withSsu x).aut = p.aut := rfl
@[simp] theorem Part.withSsu_brk (p : Part) x : (p.withSsu x).brk = p.brk := rfl
@[simp] theorem Part.withSsu_mod (p : Part) x : (p.withSsu x).mod = p.mod := rfl
@[simp] theorem Part.withSsu_dor (p : Part) x : (p.withSsu x).dor = p.dor := rfl
@[simp] theorem Part.withSsu_link (p : Part) x : (p.withSsu x).link = p.link := rfl
@[simp] theorem Part.withSsu_msg (p : Part) x : (p.withSsu x).msg = p.msg := rfl

/-! ### Replacing aut -/

@[simp] theorem Part.withAut_now (p : Part) x : (p.withAut x).now = p.now := rfl
@[simp] theorem Part.withAut_coldLine (p : Part) x : (p.withAut x).coldLine = p.coldLine := rfl
@[simp] theorem Part.withAut_warmLine (p : Part) x : (p.withAut x).warmLine = p.warmLine := rfl
@[simp] theorem Part.withAut_freeCount (p : Part) x : (p.withAut x).freeCount = p.freeCount := rfl
@[simp] theorem Part.withAut_bridge (p : Part) x : (p.withAut x).bridge = p.bridge := rfl
@[simp] theorem Part.withAut_ord (p : Part) x : (p.withAut x).ord = p.ord := rfl
@[simp] theorem Part.withAut_evq (p : Part) x : (p.withAut x).evq = p.evq := rfl
@[simp] theorem Part.withAut_odo (p : Part) x : (p.withAut x).odo = p.odo := rfl
@[simp] theorem Part.withAut_prf (p : Part) x : (p.withAut x).prf = p.prf := rfl
@[simp] theorem Part.withAut_ssu (p : Part) x : (p.withAut x).ssu = p.ssu := rfl
@[simp] theorem Part.withAut_aut (p : Part) x : (p.withAut x).aut = x := rfl
@[simp] theorem Part.withAut_brk (p : Part) x : (p.withAut x).brk = p.brk := rfl
@[simp] theorem Part.withAut_mod (p : Part) x : (p.withAut x).mod = p.mod := rfl
@[simp] theorem Part.withAut_dor (p : Part) x : (p.withAut x).dor = p.dor := rfl
@[simp] theorem Part.withAut_link (p : Part) x : (p.withAut x).link = p.link := rfl
@[simp] theorem Part.withAut_msg (p : Part) x : (p.withAut x).msg = p.msg := rfl

/-! ### Replacing brk -/

@[simp] theorem Part.withBrk_now (p : Part) x : (p.withBrk x).now = p.now := rfl
@[simp] theorem Part.withBrk_coldLine (p : Part) x : (p.withBrk x).coldLine = p.coldLine := rfl
@[simp] theorem Part.withBrk_warmLine (p : Part) x : (p.withBrk x).warmLine = p.warmLine := rfl
@[simp] theorem Part.withBrk_freeCount (p : Part) x : (p.withBrk x).freeCount = p.freeCount := rfl
@[simp] theorem Part.withBrk_bridge (p : Part) x : (p.withBrk x).bridge = p.bridge := rfl
@[simp] theorem Part.withBrk_ord (p : Part) x : (p.withBrk x).ord = p.ord := rfl
@[simp] theorem Part.withBrk_evq (p : Part) x : (p.withBrk x).evq = p.evq := rfl
@[simp] theorem Part.withBrk_odo (p : Part) x : (p.withBrk x).odo = p.odo := rfl
@[simp] theorem Part.withBrk_prf (p : Part) x : (p.withBrk x).prf = p.prf := rfl
@[simp] theorem Part.withBrk_ssu (p : Part) x : (p.withBrk x).ssu = p.ssu := rfl
@[simp] theorem Part.withBrk_aut (p : Part) x : (p.withBrk x).aut = p.aut := rfl
@[simp] theorem Part.withBrk_brk (p : Part) x : (p.withBrk x).brk = x := rfl
@[simp] theorem Part.withBrk_mod (p : Part) x : (p.withBrk x).mod = p.mod := rfl
@[simp] theorem Part.withBrk_dor (p : Part) x : (p.withBrk x).dor = p.dor := rfl
@[simp] theorem Part.withBrk_link (p : Part) x : (p.withBrk x).link = p.link := rfl
@[simp] theorem Part.withBrk_msg (p : Part) x : (p.withBrk x).msg = p.msg := rfl

/-! ### Replacing mod -/

@[simp] theorem Part.withMod_now (p : Part) x : (p.withMod x).now = p.now := rfl
@[simp] theorem Part.withMod_coldLine (p : Part) x : (p.withMod x).coldLine = p.coldLine := rfl
@[simp] theorem Part.withMod_warmLine (p : Part) x : (p.withMod x).warmLine = p.warmLine := rfl
@[simp] theorem Part.withMod_freeCount (p : Part) x : (p.withMod x).freeCount = p.freeCount := rfl
@[simp] theorem Part.withMod_bridge (p : Part) x : (p.withMod x).bridge = p.bridge := rfl
@[simp] theorem Part.withMod_ord (p : Part) x : (p.withMod x).ord = p.ord := rfl
@[simp] theorem Part.withMod_evq (p : Part) x : (p.withMod x).evq = p.evq := rfl
@[simp] theorem Part.withMod_odo (p : Part) x : (p.withMod x).odo = p.odo := rfl
@[simp] theorem Part.withMod_prf (p : Part) x : (p.withMod x).prf = p.prf := rfl
@[simp] theorem Part.withMod_ssu (p : Part) x : (p.withMod x).ssu = p.ssu := rfl
@[simp] theorem Part.withMod_aut (p : Part) x : (p.withMod x).aut = p.aut := rfl
@[simp] theorem Part.withMod_brk (p : Part) x : (p.withMod x).brk = p.brk := rfl
@[simp] theorem Part.withMod_mod (p : Part) x : (p.withMod x).mod = x := rfl
@[simp] theorem Part.withMod_dor (p : Part) x : (p.withMod x).dor = p.dor := rfl
@[simp] theorem Part.withMod_link (p : Part) x : (p.withMod x).link = p.link := rfl
@[simp] theorem Part.withMod_msg (p : Part) x : (p.withMod x).msg = p.msg := rfl

/-! ### Replacing dor -/

@[simp] theorem Part.withDor_now (p : Part) x : (p.withDor x).now = p.now := rfl
@[simp] theorem Part.withDor_coldLine (p : Part) x : (p.withDor x).coldLine = p.coldLine := rfl
@[simp] theorem Part.withDor_warmLine (p : Part) x : (p.withDor x).warmLine = p.warmLine := rfl
@[simp] theorem Part.withDor_freeCount (p : Part) x : (p.withDor x).freeCount = p.freeCount := rfl
@[simp] theorem Part.withDor_bridge (p : Part) x : (p.withDor x).bridge = p.bridge := rfl
@[simp] theorem Part.withDor_ord (p : Part) x : (p.withDor x).ord = p.ord := rfl
@[simp] theorem Part.withDor_evq (p : Part) x : (p.withDor x).evq = p.evq := rfl
@[simp] theorem Part.withDor_odo (p : Part) x : (p.withDor x).odo = p.odo := rfl
@[simp] theorem Part.withDor_prf (p : Part) x : (p.withDor x).prf = p.prf := rfl
@[simp] theorem Part.withDor_ssu (p : Part) x : (p.withDor x).ssu = p.ssu := rfl
@[simp] theorem Part.withDor_aut (p : Part) x : (p.withDor x).aut = p.aut := rfl
@[simp] theorem Part.withDor_brk (p : Part) x : (p.withDor x).brk = p.brk := rfl
@[simp] theorem Part.withDor_mod (p : Part) x : (p.withDor x).mod = p.mod := rfl
@[simp] theorem Part.withDor_dor (p : Part) x : (p.withDor x).dor = x := rfl
@[simp] theorem Part.withDor_link (p : Part) x : (p.withDor x).link = p.link := rfl
@[simp] theorem Part.withDor_msg (p : Part) x : (p.withDor x).msg = p.msg := rfl

/-! ### Replacing link -/

@[simp] theorem Part.withLink_now (p : Part) x : (p.withLink x).now = p.now := rfl
@[simp] theorem Part.withLink_coldLine (p : Part) x : (p.withLink x).coldLine = p.coldLine := rfl
@[simp] theorem Part.withLink_warmLine (p : Part) x : (p.withLink x).warmLine = p.warmLine := rfl
@[simp] theorem Part.withLink_freeCount (p : Part) x : (p.withLink x).freeCount = p.freeCount := rfl
@[simp] theorem Part.withLink_bridge (p : Part) x : (p.withLink x).bridge = p.bridge := rfl
@[simp] theorem Part.withLink_ord (p : Part) x : (p.withLink x).ord = p.ord := rfl
@[simp] theorem Part.withLink_evq (p : Part) x : (p.withLink x).evq = p.evq := rfl
@[simp] theorem Part.withLink_odo (p : Part) x : (p.withLink x).odo = p.odo := rfl
@[simp] theorem Part.withLink_prf (p : Part) x : (p.withLink x).prf = p.prf := rfl
@[simp] theorem Part.withLink_ssu (p : Part) x : (p.withLink x).ssu = p.ssu := rfl
@[simp] theorem Part.withLink_aut (p : Part) x : (p.withLink x).aut = p.aut := rfl
@[simp] theorem Part.withLink_brk (p : Part) x : (p.withLink x).brk = p.brk := rfl
@[simp] theorem Part.withLink_mod (p : Part) x : (p.withLink x).mod = p.mod := rfl
@[simp] theorem Part.withLink_dor (p : Part) x : (p.withLink x).dor = p.dor := rfl
@[simp] theorem Part.withLink_link (p : Part) x : (p.withLink x).link = x := rfl
@[simp] theorem Part.withLink_msg (p : Part) x : (p.withLink x).msg = p.msg := rfl

/-! ### Replacing msg -/

@[simp] theorem Part.withMsg_now (p : Part) x : (p.withMsg x).now = p.now := rfl
@[simp] theorem Part.withMsg_coldLine (p : Part) x : (p.withMsg x).coldLine = p.coldLine := rfl
@[simp] theorem Part.withMsg_warmLine (p : Part) x : (p.withMsg x).warmLine = p.warmLine := rfl
@[simp] theorem Part.withMsg_freeCount (p : Part) x : (p.withMsg x).freeCount = p.freeCount := rfl
@[simp] theorem Part.withMsg_bridge (p : Part) x : (p.withMsg x).bridge = p.bridge := rfl
@[simp] theorem Part.withMsg_ord (p : Part) x : (p.withMsg x).ord = p.ord := rfl
@[simp] theorem Part.withMsg_evq (p : Part) x : (p.withMsg x).evq = p.evq := rfl
@[simp] theorem Part.withMsg_odo (p : Part) x : (p.withMsg x).odo = p.odo := rfl
@[simp] theorem Part.withMsg_prf (p : Part) x : (p.withMsg x).prf = p.prf := rfl
@[simp] theorem Part.withMsg_ssu (p : Part) x : (p.withMsg x).ssu = p.ssu := rfl
@[simp] theorem Part.withMsg_aut (p : Part) x : (p.withMsg x).aut = p.aut := rfl
@[simp] theorem Part.withMsg_brk (p : Part) x : (p.withMsg x).brk = p.brk := rfl
@[simp] theorem Part.withMsg_mod (p : Part) x : (p.withMsg x).mod = p.mod := rfl
@[simp] theorem Part.withMsg_dor (p : Part) x : (p.withMsg x).dor = p.dor := rfl
@[simp] theorem Part.withMsg_link (p : Part) x : (p.withMsg x).link = p.link := rfl
@[simp] theorem Part.withMsg_msg (p : Part) x : (p.withMsg x).msg = x := rfl

end Sys2Proof.Machine
end

