-- ==== Sys2Proof/Laws/Moves.lean ====
section
/-! SUPPORT. What one change of the part can do, said once. `Move H` is one atomic change: the changes every command may make (a posting, a
request on the demand table, the workings of a block) and those that only some commands make, each under a name of `Group` that
must stand in `H`. `Moves H` is any number of them. `Good` is what the spec says always holds; every move keeps it. -/

namespace Sys2Proof.Machine

open Sys2Proof.Safety (Group)

/-! ### What always holds -/

/-- The law of the transmitter: PTT only in the states that assert it (R149), and the queue's law (R154). -/
def Link.ok (l : Link) : Prop := (l.ptt = true → Safety.assertsPtt l.state = true) ∧ txOk l.queue

/-- The first half of the law of R92. -/
def Aut.ok (a : Aut) : Prop := ∀ n, a.next = some n → ∃ c, a.current = some c ∧ n.start = c.stop ∧ n.dir = c.dir

/-- The doors are LOCKED, FAULTED or ISOLATED. -/
def DoorState.quiet (s : DoorState) : Bool := s == .locked || s == .faulted || s == .isolated

/-- Outside STAND and LOCKOUT every door is quiet (R122, R137). -/
def doorsOk (m : Mode) (v : Vector Door 8) : Prop := m ≠ .stand → m ≠ .lockout → ∀ d : Fin 8, (v[d]).state.quiet = true

/-- The MODE entry is that of the mode, never latched (R114). -/
def modeEntryOk (p : Part) : Prop :=
  (p.entry .mode).latched = false ∧ (p.entry .mode).stage = (modeRequest p.mod.mode p.charging).1

/-- The DOORS entry as R137 forms it. -/
def formedEntry (p : Part) (e : Entry) : Prop :=
  e.stage = (doorsRequest p).1 ∧ e.cause = causeByte (doorsRequest p).1 (doorsRequest p).2

/-- What the spec says always holds of the part. -/
structure Good (p : Part) : Prop where
  evq : p.evq.ok
  brk : p.brk.commanded = highestStage p.brk.table
  mode : modeEntryOk p
  link : p.link.ok
  msg : p.msg.mailbox.length ≤ 8
  ssu : restrictionsOk p.ssu.restrictions
  permits : permitsOk p.dor.permits
  aut : p.aut.ok
  run : p.mod.mode = .run → p.aut.current.isSome = true
  doors : doorsOk p.mod.mode p.dor.doors
  never : Safety.neverLatched p
  ord : Safety.bookkeeping p.ord

/-! ### One change -/

/-- What every command may do to ODO: the encoders, the speed, standstill and the position stay. -/
def OdoSoft (a b : Odo) : Prop :=
  b.p1 = a.p1 ∧ b.p2 = a.p2 ∧ b.w = a.w ∧ b.pos = a.pos ∧ b.window = a.window ∧ b.bucket = a.bucket ∧ b.speed = a.speed
  ∧ b.dir = a.dir ∧ b.standstill = a.standstill ∧ b.standTimer = a.standTimer

/-- ODO stands but for the creep and reverse counters. -/
def OdoKept (a b : Odo) : Prop := b = { a with creep := b.creep, reverse := b.reverse }

def AutSoft (a b : Aut) : Prop :=
  b.current = a.current ∧ b.next = a.next ∧ b.lastRevoke = a.lastRevoke ∧ b.missed = a.missed ∧ b.relinquished = a.relinquished

def BrkSoft (a b : Brk) : Prop := b.table = a.table ∧ b.commanded = a.commanded ∧ b.inputs = a.inputs

def ModSoft (a b : Mod) : Prop :=
  b.mode = a.mode ∧ b.charge = a.charge ∧ b.wakeReason = a.wakeReason ∧ b.crewKey = a.crewKey

/-- The silence timer and the host-silent flag stand. -/
def SameSilence (a b : Mod) : Prop := b.silence = a.silence ∧ b.hostSilent = a.hostSilent ∧ b.aliveSeen = a.aliveSeen

def SameMasks (a b : Dor) : Prop :=
  b.risingLow = a.risingLow ∧ b.risingHigh = a.risingHigh ∧ b.fallingLow = a.fallingLow ∧ b.fallingHigh = a.fallingHigh

def DorSoft (a b : Dor) : Prop :=
  b.doors = a.doors ∧ b.permits = a.permits ∧ b.left = a.left ∧ b.right = a.right ∧ SameMasks a b

def SameReceiver (a b : Link) : Prop :=
  b.cd = a.cd ∧ b.assembler = a.assembler ∧ b.stations = a.stations ∧ b.linkTimer = a.linkTimer ∧ b.lost = a.lost
  ∧ b.noise = a.noise ∧ b.rxDrops = a.rxDrops

def LinkSoft (a b : Link) : Prop := (a.ok → b.ok) ∧ b.bitRate = a.bitRate ∧ SameReceiver a b

def MsgSoft (a b : Msg) : Prop :=
  b.mailbox = a.mailbox ∧ b.serial = a.serial ∧ b.textDrops = a.textDrops ∧ b.badFormat = a.badFormat

/-- Events of one block, posted in order. -/
def postAll : List (EventKind × Half) → Part → Part
  | [], p => p
  | e :: es, p => postAll es (post e.1 e.2 p)

/-- The step of a running brake test and the outcome of the record stand. -/
structure TestKept (a b : Brk) : Prop where
  step : b.test.map TestRun.step = a.test.map TestRun.step
  outcome : b.record.outcome = a.record.outcome
  abort : b.record.abort = a.record.abort
  start : b.record.start = a.record.start

theorem TestKept.refl (a : Brk) : TestKept a a := ⟨rfl, rfl, rfl, rfl⟩

theorem TestKept.trans {a b c : Brk} (h1 : TestKept a b) (h2 : TestKept b c) : TestKept a c :=
  ⟨h2.step.trans h1.step, h2.outcome.trans h1.outcome, h2.abort.trans h1.abort, h2.start.trans h1.start⟩

/-- One atomic change. -/
inductive Move (H : List Group) : Part → Part → Prop
  | post (p : Part) (k : EventKind) (arg : Half) (pos : Word) (sets : Bool) : Move H p (postAt k arg pos sets p)
  | free (p : Part) (n : Nat) : Move H p (p.withFreeCount n)
  | generations (p : Part) (g : Vector Word 11) : Move H p (p.withBridge { p.bridge with generations := g })
  | odo (p : Part) (x : Odo) (h : OdoSoft p.odo x) (ht : .track ∉ H → OdoKept p.odo x) : Move H p (p.withOdo x)
  | ssu (p : Part) (x : Ssu) (h : x.restrictions = p.ssu.restrictions) : Move H p (p.withSsu x)
  | aut (p : Part) (x : Aut) (h : AutSoft p.aut x) : Move H p (p.withAut x)
  | brk (p : Part) (x : Brk) (h : BrkSoft p.brk x) (ht : .ord ∉ H → TestKept p.brk x) : Move H p (p.withBrk x)
  | cause (p : Part) (d : DemandSource) (e : Entry) (h : e.stage = (p.entry d).stage ∧ e.latched = (p.entry d).latched)
      (hf : d ≠ .doors ∨ formedEntry p e) : Move H p (writeEntry d e p)
  | demand (p : Part) (d : DemandSource) (e : Entry) (k : EventKind) (arg : Half) (pos : Word) (hd : d ≠ .mode)
      (hl : Safety.latches d = false → e.latched = false) (h : (p.entry d).latched = true → e.latched = true ∧ (p.entry d).stage.value ≤ e.stage.value)
      (hf : d ≠ .doors ∨ formedEntry p e) :
      Move H p (formCommanded (postAt k arg pos true (writeEntry d e p)))
  | dor (p : Part) (x : Dor) (h : DorSoft p.dor x) : Move H p (p.withDor x)
  | link (p : Part) (x : Link) (h : LinkSoft p.link x) : Move H p (p.withLink x)
  | msg (p : Part) (x : Msg) (h : MsgSoft p.msg x) : Move H p (p.withMsg x)
  | now (p : Part) (x : Word) (hh : .now ∈ H) : Move H p (p.withNow x)
  | cold (p : Part) (x : Bool) (hh : .lines ∈ H) : Move H p (p.withColdLine x)
  | warm (p : Part) (x : Bool) (hh : .lines ∈ H) : Move H p (p.withWarmLine x)
  | guards (p : Part) (x : Bridge) (hh : .guards ∈ H) (h : x.base = p.bridge.base) : Move H p (p.withBridge x)
  | ord (p : Part) (x : Ord) (hh : .ord ∈ H) (h : Safety.bookkeeping p.ord → Safety.bookkeeping x)
      (hr : .start ∉ H → ∀ i : Fin 16, (x.slots[i]).state = .running → (p.ord.slots[i]).state = .running)
      (hk : .start ∉ H → .take ∉ H → Safety.bookkeeping p.ord →
        ∀ i : Fin 16, (p.ord.slots[i]).state ≠ .running → x.slots[i] = p.ord.slots[i]) : Move H p (p.withOrd x)
  | evq (p : Part) (x : Evq) (hh : .evq ∈ H) (h : p.evq.ok → x.ok) : Move H p (p.withEvq x)
  | odoHard (p : Part) (x : Odo) (hh : .odo ∈ H) : Move H p (p.withOdo x)
  | prf (p : Part) (x : Prf) (hh : .prf ∈ H) : Move H p (p.withPrf x)
  | restr (p : Part) (x : Ssu) (hh : .restr ∈ H) (h : restrictionsOk p.ssu.restrictions → restrictionsOk x.restrictions) :
      Move H p (p.withSsu x)
  | slots (p : Part) (x : Aut) (hh : .slots ∈ H) (h : p.aut.ok → x.ok)
      (hr : p.mod.mode = .run → p.aut.current.isSome = true → x.current.isSome = true) : Move H p (p.withAut x)
  | inputs (p : Part) (x : Brk) (hh : .inputs ∈ H) (h : x.table = p.brk.table ∧ x.commanded = p.brk.commanded)
      (ht : TestKept p.brk x) :
      Move H p (p.withBrk x)
  | unlatch (p : Part) (d : DemandSource) (e : Entry) (k : EventKind) (arg : Half) (pos : Word) (hh : .unlatch ∈ H)
      (hd : d ≠ .mode ∧ d ≠ .doors) (hl : Safety.latches d = false → e.latched = false) :
      Move H p (formCommanded (postAt k arg pos true (writeEntry d e p)))
  | silence (p : Part) (x : Mod) (hh : .silence ∈ H) (h : ModSoft p.mod x) : Move H p (p.withMod x)
  | charge (p : Part) (x : Mod) (hh : .charge ∈ H) (hm : x.mode = p.mod.mode)
      (hs : .silence ∉ H → SameSilence p.mod x) (h : (modeRequest x.mode (x.charge != .complete)).1 = (modeRequest p.mod.mode p.charging).1) : Move H p (p.withMod x)
  | chargeDone (p : Part) (x : Mod) (evs : List (EventKind × Half)) (hh : .charge ∈ H) (hm : x.mode = p.mod.mode)
      (hs : SameSilence p.mod x) :
      Move H p (requestMode (postAll evs (p.withMod x)))
  | mode (p : Part) (x : Mod) (evs : List (EventKind × Half)) (hh : .mode ∈ H)
      (hs : SameSilence p.mod x)
      (hc : x.charge = p.mod.charge ∧ x.wakeReason = p.mod.wakeReason ∧ x.crewKey = p.mod.crewKey)
      (hr : x.mode = .run → p.mod.mode ≠ .run → p.aut.current.isSome = true)
      (hd : doorsOk p.mod.mode p.dor.doors → doorsOk x.mode p.dor.doors) :
      Move H p (requestMode (postAll evs (p.withMod x)))
  | doors (p : Part) (x : Dor) (hh : .doors ∈ H) (hp : x.permits = p.dor.permits) (hm : SameMasks p.dor x)
      (h : doorsOk p.mod.mode p.dor.doors → doorsOk p.mod.mode x.doors)
      (hl : .inputs ∉ H → ∀ d : Fin 8, Safety.levels x.doors[d] = Safety.levels p.dor.doors[d]) : Move H p (p.withDor x)
  | permits (p : Part) (x : Dor) (hh : .permits ∈ H) (hd : x.doors = p.dor.doors ∧ x.left = p.dor.left ∧ x.right = p.dor.right)
      (hm : SameMasks p.dor x) (h : permitsOk p.dor.permits → permitsOk x.permits) : Move H p (p.withDor x)
  | masks (p : Part) (x : Dor) (hh : .masks ∈ H) (hd : x.doors = p.dor.doors ∧ x.left = p.dor.left ∧ x.right = p.dor.right)
      (hp : x.permits = p.dor.permits) : Move H p (p.withDor x)
  | linkHard (p : Part) (x : Link) (hh : .link ∈ H) (h : p.link.ok → x.ok) (hb : x.bitRate = p.link.bitRate) :
      Move H p (p.withLink x)
  | msgHard (p : Part) (x : Msg) (hh : .msg ∈ H) (h : p.msg.mailbox.length ≤ 8 → x.mailbox.length ≤ 8) :
      Move H p (p.withMsg x)

/-- Any number of changes. -/
def Moves (H : List Group) (p q : Part) : Prop := Relation.ReflTransGen (Move H) p q

theorem Moves.refl {H} (p : Part) : Moves H p p := Relation.ReflTransGen.refl

theorem Moves.trans {H} {p q r : Part} (h1 : Moves H p q) (h2 : Moves H q r) : Moves H p r := Relation.ReflTransGen.trans h1 h2

theorem Moves.then {H} {p q r : Part} (h1 : Moves H p q) (h2 : Move H q r) : Moves H p r := Relation.ReflTransGen.tail h1 h2

theorem Move.mono {H K : List Group} (hs : H ⊆ K) {p q : Part} (h : Move H p q) : Move K p q :=
  match h with
  | .post _ k arg pos sets => .post _ k arg pos sets
  | .free _ n => .free _ n
  | .generations _ g => .generations _ g
  | .odo _ x h ht => .odo _ x h fun hn => ht fun hx => hn (hs hx)
  | .ssu _ x h => .ssu _ x h
  | .aut _ x h => .aut _ x h
  | .brk _ x h ht => .brk _ x h fun hn => ht fun hx => hn (hs hx)
  | .cause _ d e h hf => .cause _ d e h hf
  | .demand _ d e k arg pos hd hl h hf => .demand _ d e k arg pos hd hl h hf
  | .dor _ x h => .dor _ x h
  | .link _ x h => .link _ x h
  | .msg _ x h => .msg _ x h
  | .now _ x hh => .now _ x (hs hh)
  | .cold _ x hh => .cold _ x (hs hh)
  | .warm _ x hh => .warm _ x (hs hh)
  | .guards _ x hh h => .guards _ x (hs hh) h
  | .ord _ x hh h hr hk => .ord _ x (hs hh) h (fun hn => hr fun hx => hn (hs hx))
    fun hn ht => hk (fun hx => hn (hs hx)) fun hx => ht (hs hx)
  | .evq _ x hh h => .evq _ x (hs hh) h
  | .odoHard _ x hh => .odoHard _ x (hs hh)
  | .prf _ x hh => .prf _ x (hs hh)
  | .restr _ x hh h => .restr _ x (hs hh) h
  | .slots _ x hh h hr => .slots _ x (hs hh) h hr
  | .inputs _ x hh h ht => .inputs _ x (hs hh) h ht
  | .unlatch _ d e k arg pos hh hd hl => .unlatch _ d e k arg pos (hs hh) hd hl
  | .silence _ x hh h => .silence _ x (hs hh) h
  | .charge _ x hh hm hk h => .charge _ x (hs hh) hm (fun hn => hk fun hx => hn (hs hx)) h
  | .chargeDone _ x evs hh hm hk => .chargeDone _ x evs (hs hh) hm hk
  | .mode _ x evs hh hk hc hr hd => .mode _ x evs (hs hh) hk hc hr hd
  | .doors _ x hh hp hm h hl => .doors _ x (hs hh) hp hm h fun hn => hl fun hx => hn (hs hx)
  | .permits _ x hh hd hm h => .permits _ x (hs hh) hd hm h
  | .masks _ x hh hd hp => .masks _ x (hs hh) hd hp
  | .linkHard _ x hh h hb => .linkHard _ x (hs hh) h hb
  | .msgHard _ x hh h => .msgHard _ x (hs hh) h

theorem Moves.mono {H K : List Group} (hs : H ⊆ K) {p q : Part} (h : Moves H p q) : Moves K p q := by
  induction h with
  | refl => exact Moves.refl _
  | tail _ h ih => exact ih.then (Move.mono hs h)

/-- A relation that every change keeps is kept by any number of them. -/
theorem Moves.keeps {H} {p q : Part} (h : Moves H p q) (R : Part → Part → Prop) (hr : ∀ p, R p p)
    (ht : ∀ p q r, R p q → R q r → R p r) (hm : ∀ p q, Move H p q → R p q) : R p q := by
  induction h with
  | refl => exact hr _
  | tail _ h ih => exact ht _ _ _ ih (hm _ _ h)

end Sys2Proof.Machine
end

