-- ==== Sys2Proof/Laws/Brake.lean ====
section
/-! SUPPORT. The brake state machine and the demand table: what an operation and the forming of the commanded stage leave alone, and
that every atomic change keeps what always holds (`Move.good`). -/

namespace Sys2Proof.Machine

open Sys2Proof.Safety (Group)

/-! ### Postings -/

theorem postAt_evq (k : EventKind) (arg : Half) (pos : Word) (sets : Bool) (p : Part) :
    (postAt k arg pos sets p).evq = p.evq.posting p.now k arg pos sets := rfl

theorem post_eq (k : EventKind) (arg : Half) (p : Part) : post k arg p = postAt k arg p.odo.pos true p := rfl

theorem postIf_eq (k : EventKind) (arg : Half) (sets : Bool) (p : Part) : postIf k arg sets p = postAt k arg p.odo.pos sets p := rfl

theorem postAt_eq (k : EventKind) (arg : Half) (pos : Word) (sets : Bool) (p : Part) :
    postAt k arg pos sets p = p.withEvq (postAt k arg pos sets p).evq := rfl

/-! ### An operation (R51 to R53) -/

/-- Only events were posted and the brake's operation moved: the table, the commanded stage and the inputs stand. -/
structure OpOnly (p q : Part) : Prop where
  rest : q = (p.withEvq q.evq).withBrk q.brk
  evq : p.evq.ok → q.evq.ok
  pre : p.evq.queue <+: q.evq.queue
  faults : ∀ i : Nat, p.evq.faults.getLsbD i = true → q.evq.faults.getLsbD i = true
  soft : BrkSoft p.brk q.brk
  test : TestKept p.brk q.brk

theorem OpOnly.refl (p : Part) : OpOnly p p := ⟨rfl, id, List.prefix_refl _, fun _ h => h, ⟨rfl, rfl, rfl⟩, ⟨rfl, rfl, rfl, rfl⟩⟩

theorem OpOnly.trans {p q r : Part} (h1 : OpOnly p q) (h2 : OpOnly q r) : OpOnly p r where
  rest := by rw [h2.rest, h1.rest]; rfl
  evq := h2.evq ∘ h1.evq
  pre := h1.pre.trans h2.pre
  faults i hi := h2.faults i (h1.faults i hi)
  soft := ⟨h2.soft.1.trans h1.soft.1, h2.soft.2.1.trans h1.soft.2.1, h2.soft.2.2.trans h1.soft.2.2⟩
  test := h1.test.trans h2.test

theorem OpOnly.post (p : Part) (k : EventKind) (arg : Half) (pos : Word) (sets : Bool) : OpOnly p (postAt k arg pos sets p) :=
  ⟨rfl, Evq.posting_ok _ _ _ _ _ _, Evq.posting_prefix _ _ _ _ _ _, Evq.posting_faults _ _ _ _ _ _, ⟨rfl, rfl, rfl⟩, ⟨rfl, rfl, rfl, rfl⟩⟩

theorem OpOnly.withBrk (p : Part) (x : Brk) (h : BrkSoft p.brk x) (ht : TestKept p.brk x) : OpOnly p (p.withBrk x) :=
  ⟨rfl, id, List.prefix_refl _, fun _ h => h, h, ht⟩

theorem stepSettled_only (s : Stage) (p : Part) : OpOnly p (stepSettled s p) := by
  unfold stepSettled; split
  · rename_i t ht
    split
    · exact OpOnly.withBrk _ _ ⟨rfl, rfl, rfl⟩ ⟨by rw [ht]; rfl, rfl, rfl, rfl⟩
    · exact OpOnly.refl _
  · exact OpOnly.refl _

theorem settle_only (s : Stage) (p : Part) : OpOnly p (settle s p) :=
  ((OpOnly.withBrk p { p.brk with state := .settled, confirmed := s } ⟨rfl, rfl, rfl⟩ ⟨rfl, rfl, rfl, rfl⟩).trans (OpOnly.post _ _ _ _ _)).trans
    (stepSettled_only _ _)

theorem judgeOperation_only (p : Part) : OpOnly p (judgeOperation p) := by
  unfold judgeOperation; split
  · split
    · exact settle_only _ _
    · exact settle_only _ _
    · exact OpOnly.refl _
  · exact OpOnly.refl _

theorem startOperation_only (s : Stage) (p : Part) : OpOnly p (startOperation s p) :=
  (OpOnly.withBrk p { p.brk with state := operationToward p.brk p.now s } ⟨rfl, rfl, rfl⟩ ⟨rfl, rfl, rfl, rfl⟩).trans (judgeOperation_only _)

theorem patternChanged_only (was : Bool) (p : Part) : OpOnly p (patternChanged was p) := by
  unfold patternChanged; split
  · exact OpOnly.refl _
  · split
    · split
      · exact OpOnly.refl _
      · exact (OpOnly.withBrk p { p.brk with state := .applying p.brk.confirmed (some p.now) } ⟨rfl, rfl, rfl⟩ ⟨rfl, rfl, rfl, rfl⟩).trans
          (judgeOperation_only _)
    · exact judgeOperation_only _

/-! ### The commanded stage (R45) -/

/-- The commanded stage is formed from the table; nothing but the brake's operation and events follows. -/
structure Formed (p q : Part) : Prop where
  rest : q = (p.withEvq q.evq).withBrk q.brk
  evq : p.evq.ok → q.evq.ok
  pre : p.evq.queue <+: q.evq.queue
  faults : ∀ i : Nat, p.evq.faults.getLsbD i = true → q.evq.faults.getLsbD i = true
  table : q.brk.table = p.brk.table
  inputs : q.brk.inputs = p.brk.inputs
  commanded : q.brk.commanded = highestStage p.brk.table
  test : TestKept p.brk q.brk

theorem formCommanded_formed (p : Part) : Formed p (formCommanded p) := by
  unfold formCommanded; simp only; split
  · exact ⟨rfl, id, List.prefix_refl _, fun _ h => h, rfl, rfl, (beq_iff_eq.1 ‹_›).symm, ⟨rfl, rfl, rfl, rfl⟩⟩
  · split
    · exact ⟨rfl, id, List.prefix_refl _, fun _ h => h, rfl, rfl, rfl, ⟨rfl, rfl, rfl, rfl⟩⟩
    · have h := startOperation_only (highestStage p.brk.table) (p.withBrk { p.brk with commanded := highestStage p.brk.table })
      exact ⟨by rw [h.rest]; rfl, h.evq, h.pre, h.faults, h.soft.1, h.soft.2.2, h.soft.2.1,
        ⟨h.test.step, h.test.outcome, h.test.abort, h.test.start⟩⟩

/-! ### A request -/

/-- One entry was written and the commanded stage formed again, or only the entry's cause changed. -/
structure Requested (d : DemandSource) (p q : Part) : Prop where
  rest : q = (p.withEvq q.evq).withBrk q.brk
  evq : p.evq.ok → q.evq.ok
  pre : p.evq.queue <+: q.evq.queue
  faults : ∀ i : Nat, p.evq.faults.getLsbD i = true → q.evq.faults.getLsbD i = true
  inputs : q.brk.inputs = p.brk.inputs
  other : ∀ c, c ≠ d → q.entry c = p.entry c
  commanded : p.brk.commanded = highestStage p.brk.table → q.brk.commanded = highestStage q.brk.table
  test : TestKept p.brk q.brk

theorem index_injective {c d : DemandSource} (h : c.index = d.index) : c = d := by
  revert h; cases c <;> cases d <;> decide

theorem entry_set (p : Part) (d c : DemandSource) (e : Entry) :
    (writeEntry d e p).entry c = if c = d then e else p.entry c := by
  unfold Part.entry writeEntry
  simp only [Part.withBrk_brk]
  split
  · subst_vars; simp
  · rename_i h
    have : d.index.val ≠ c.index.val := fun e => h (index_injective (Fin.ext e.symm))
    simp [this]

theorem writeEntry_self (d : DemandSource) (e : Entry) (p : Part) : (writeEntry d e p).entry d = e := by
  rw [entry_set]; simp

theorem Formed.entry {p q : Part} (h : Formed p q) (c : DemandSource) : q.entry c = p.entry c := by
  unfold Part.entry; rw [h.table]

theorem request_formed (d : DemandSource) (e : Entry) (k : EventKind) (arg : Half) (pos : Word) (p : Part) :
    Requested d p (formCommanded (postAt k arg pos true (writeEntry d e p))) := by
  have h := formCommanded_formed (postAt k arg pos true (writeEntry d e p))
  exact ⟨by rw [h.rest]; rfl, fun hk => h.evq (Evq.posting_ok _ _ _ _ _ _ hk),
    (Evq.posting_prefix _ _ _ _ _ _).trans h.pre,
    fun i hi => h.faults i (Evq.posting_faults _ _ _ _ _ _ i hi), h.inputs,
    fun c hc => (h.entry c).trans ((entry_set p d c e).trans (if_neg hc)), fun _ => by rw [h.commanded, h.table],
    ⟨h.test.step, h.test.outcome, h.test.abort, h.test.start⟩⟩

theorem request_entry (d : DemandSource) (e : Entry) (k : EventKind) (arg : Half) (pos : Word) (p : Part) :
    (formCommanded (postAt k arg pos true (writeEntry d e p))).entry d = e :=
  ((formCommanded_formed _).entry d).trans (writeEntry_self d e p)

/-- Writing the same stage leaves the highest stage. -/
theorem writeEntry_highest (d : DemandSource) (e : Entry) (p : Part) (h : e.stage = (p.entry d).stage) :
    highestStage (writeEntry d e p).brk.table = highestStage p.brk.table := by
  have hm : ∀ (l : List Entry) (s : Stage), l.foldl (fun s e => s.max e.stage) s
      = (l.map Entry.stage).foldl Stage.max s := by
    intro l; induction l with
    | nil => intro s; rfl
    | cons a l ih => intro s; exact ih _
  unfold highestStage writeEntry
  rw [hm, hm]
  congr 1
  simp only [Part.withBrk_brk, Vector.toList_set, List.map_set]
  rw [h]
  refine List.ext_getElem? fun i => ?_
  rw [List.getElem?_set]
  split
  · subst_vars
    unfold Part.entry
    simp
  · rfl

theorem cause_requested (d : DemandSource) (e : Entry) (p : Part) (h : e.stage = (p.entry d).stage) :
    Requested d p (writeEntry d e p) :=
  ⟨rfl, id, List.prefix_refl _, fun _ h => h, rfl, fun c hc => (entry_set p d c e).trans (if_neg hc),
    fun hc => (writeEntry_highest d e p h).symm ▸ hc, ⟨rfl, rfl, rfl, rfl⟩⟩

/-- A following request, said once (R43): nothing while the entry is latched; else the entry takes the stage, unlatched. -/
theorem followEntry_cases (d : DemandSource) (s : Stage) (cause : Nat) (p : Part) :
    ((p.entry d).latched = true ∧ followEntry d s cause p = p)
    ∨ ((p.entry d).latched = false ∧ ∃ e, e.stage = s ∧ e.latched = false ∧ e.cause = causeByte s cause
        ∧ ((e.stage = (p.entry d).stage ∧ followEntry d s cause p = writeEntry d e p)
          ∨ ∃ k arg pos, followEntry d s cause p = formCommanded (postAt k arg pos true (writeEntry d e p)))) := by
  unfold followEntry; simp only
  by_cases hl : (p.entry d).latched = true
  · exact Or.inl ⟨hl, by rw [if_pos hl]⟩
  · rw [if_neg hl]
    refine Or.inr ⟨by simpa using hl, ?_⟩
    split
    · exact ⟨_, rfl, by simpa using hl, rfl, Or.inr ⟨_, _, _, rfl⟩⟩
    · split
      · exact ⟨_, rfl, by simpa using hl, rfl, Or.inr ⟨_, _, _, rfl⟩⟩
      · have hs : (p.entry d).stage = s := Stage.value_injective (by omega)
        exact ⟨{ p.entry d with cause := causeByte s cause }, hs, by simpa using hl, rfl, Or.inl ⟨rfl, rfl⟩⟩

theorem followEntry_requested (d : DemandSource) (s : Stage) (cause : Nat) (p : Part) :
    Requested d p (followEntry d s cause p) := by
  rcases followEntry_cases d s cause p with ⟨_, h⟩ | ⟨_, e, _, _, _, ⟨he, h⟩ | ⟨k, arg, pos, h⟩⟩ <;> rw [h]
  · exact ⟨rfl, id, List.prefix_refl _, fun _ h => h, rfl, fun _ _ => rfl, id, ⟨rfl, rfl, rfl, rfl⟩⟩
  · exact cause_requested d e p he
  · exact request_formed d e k arg pos p

/-- The entry after a following request. -/
theorem followEntry_entry (d : DemandSource) (s : Stage) (cause : Nat) (p : Part) (h : (p.entry d).latched = false) :
    ((followEntry d s cause p).entry d).stage = s ∧ ((followEntry d s cause p).entry d).latched = false
    ∧ ((followEntry d s cause p).entry d).cause = causeByte s cause := by
  rcases followEntry_cases d s cause p with ⟨hl, _⟩ | ⟨_, e, h1, h2, h3, ⟨_, h⟩ | ⟨k, arg, pos, h⟩⟩
  · rw [hl] at h; cases h
  · rw [h, writeEntry_self]; exact ⟨h1, h2, h3⟩
  · rw [h, request_entry]; exact ⟨h1, h2, h3⟩

theorem followEntry_latched (d : DemandSource) (s : Stage) (cause : Nat) (p : Part) (h : (p.entry d).latched = true) :
    followEntry d s cause p = p := by unfold followEntry; simp only; rw [if_pos h]

/-- A latching request, said once (R44): a latched entry at least as high only posts; else the entry is latched at the higher stage. -/
theorem latchEntry_cases (d : DemandSource) (s : Stage) (cause : Nat) (p : Part) :
    (((p.entry d).latched = true ∧ s.value ≤ (p.entry d).stage.value)
      ∧ latchEntry d s cause p = postDemandSet d (p.entry d).stage cause (p.entry d).setPos p)
    ∨ (¬ ((p.entry d).latched = true ∧ s.value ≤ (p.entry d).stage.value)
      ∧ ∃ e k arg pos, e.stage = (p.entry d).stage.max s ∧ e.latched = true ∧ e.cause = BitVec.ofNat 8 cause
        ∧ e.setTime = p.now ∧ e.setPos = p.odo.pos
        ∧ latchEntry d s cause p = formCommanded (postAt k arg pos true (writeEntry d e p))) := by
  unfold latchEntry; simp only
  by_cases h : (p.entry d).latched = true ∧ s.value ≤ (p.entry d).stage.value
  · exact Or.inl ⟨h, by rw [if_pos (by simpa using h)]⟩
  · exact Or.inr ⟨h, _, _, _, _, rfl, rfl, rfl, rfl, rfl, by rw [if_neg (by simpa using h)]; rfl⟩

theorem latchEntry_requested (d : DemandSource) (s : Stage) (cause : Nat) (p : Part) :
    Requested d p (latchEntry d s cause p) := by
  rcases latchEntry_cases d s cause p with ⟨_, h⟩ | ⟨_, e, k, arg, pos, _, _, _, _, _, h⟩ <;> rw [h]
  · exact ⟨rfl, Evq.posting_ok _ _ _ _ _ _, Evq.posting_prefix _ _ _ _ _ _, Evq.posting_faults _ _ _ _ _ _, rfl, fun _ _ => rfl, id, ⟨rfl, rfl, rfl, rfl⟩⟩
  · exact request_formed d e k arg pos p

/-- The entry after a latching request: latched, and at least at the requested stage. -/
theorem latchEntry_entry (d : DemandSource) (s : Stage) (cause : Nat) (p : Part) :
    ((latchEntry d s cause p).entry d).latched = true
    ∧ ((latchEntry d s cause p).entry d).stage = (p.entry d).stage.max s := by
  rcases latchEntry_cases d s cause p with ⟨hl, h⟩ | ⟨_, e, k, arg, pos, h1, h2, _, _, _, h⟩
  · rw [h]
    refine ⟨hl.1, ?_⟩
    change (p.entry d).stage = _
    apply Stage.value_injective; rw [Stage.value_max]; split <;> omega
  · rw [h, request_entry]; exact ⟨h2, h1⟩

theorem requestMode_requested (p : Part) : Requested .mode p (requestMode p) := followEntry_requested _ _ _ _

theorem Requested.mod {d : DemandSource} {p q : Part} (h : Requested d p q) : q.mod = p.mod := by rw [h.rest]; rfl

/-! ### Every change keeps what always holds -/

theorem Good.of_requested {d : DemandSource} {p q : Part} (h : Requested d p q) (hd : d ≠ .mode) (g : Good p)
    (hl : Safety.latches d = false → (q.entry d).latched = false) : Good q := by
  have hr := h.rest
  have hp : q.mod = p.mod ∧ q.link = p.link ∧ q.msg = p.msg ∧ q.ssu = p.ssu ∧ q.dor = p.dor ∧ q.aut = p.aut ∧ q.ord = p.ord := by
    rw [hr]; exact ⟨rfl, rfl, rfl, rfl, rfl, rfl, rfl⟩
  obtain ⟨h1, h2, h3, h4, h5, h6, h7⟩ := hp
  refine ⟨h.evq g.evq, h.commanded g.brk, ?_, h2 ▸ g.link, h3 ▸ g.msg, h4 ▸ g.ssu, h5 ▸ g.permits, h6 ▸ g.aut, ?_, ?_, ?_, h7 ▸ g.ord⟩
  · unfold modeEntryOk Part.charging; rw [h.other _ (Ne.symm hd), h1]; exact g.mode
  · rw [h1, h6]; exact g.run
  · rw [h1, h5]; exact g.doors
  · intro c hc
    by_cases e : c = d
    · subst e; exact hl hc
    · rw [h.other c e]; exact g.never c hc

theorem postAll_evq (es : List (EventKind × Half)) (p : Part) :
    ∃ x, postAll es p = p.withEvq x ∧ (p.evq.ok → x.ok) ∧ p.evq.queue <+: x.queue
      ∧ ∀ i : Nat, p.evq.faults.getLsbD i = true → x.faults.getLsbD i = true := by
  induction es generalizing p with
  | nil => exact ⟨p.evq, rfl, id, List.prefix_refl _, fun _ h => h⟩
  | cons e es ih =>
    obtain ⟨x, h1, h2, h3, h4⟩ := ih (post e.1 e.2 p)
    exact ⟨x, h1, fun hk => h2 (Evq.posting_ok _ _ _ _ _ _ hk), (Evq.posting_prefix _ _ _ _ _ _).trans h3,
      fun i hi => h4 i (Evq.posting_faults _ _ _ _ _ _ i hi)⟩

/-- The MODE entry after MOD's request is that of the mode. -/
theorem requestMode_ok (p : Part) (h : (p.entry .mode).latched = false) : modeEntryOk (requestMode p) := by
  have he := followEntry_entry .mode (modeRequest p.mod.mode p.charging).1 (modeRequest p.mod.mode p.charging).2 p h
  have hm := (requestMode_requested p).mod
  refine ⟨he.2.1, ?_⟩
  rw [show (requestMode p).charging = p.charging by unfold Part.charging; rw [hm], hm]
  exact he.1

theorem Good.of_modeRequest {p : Part} (g : Good p) (x : Mod) (evs : List (EventKind × Half))
    (hr : x.mode = .run → p.mod.mode ≠ .run → p.aut.current.isSome = true)
    (hd : doorsOk p.mod.mode p.dor.doors → doorsOk x.mode p.dor.doors) : Good (requestMode (postAll evs (p.withMod x))) := by
  obtain ⟨y, e, hy, _⟩ := postAll_evq evs (p.withMod x)
  rw [e]
  have hq := requestMode_requested ((p.withMod x).withEvq y)
  have hk : (((p.withMod x).withEvq y).entry .mode).latched = false := g.mode.1
  have hf := requestMode_ok _ hk
  have hrest := hq.rest
  have hp : (requestMode ((p.withMod x).withEvq y)).mod = x ∧ (requestMode ((p.withMod x).withEvq y)).link = p.link
      ∧ (requestMode ((p.withMod x).withEvq y)).msg = p.msg ∧ (requestMode ((p.withMod x).withEvq y)).ssu = p.ssu
      ∧ (requestMode ((p.withMod x).withEvq y)).dor = p.dor ∧ (requestMode ((p.withMod x).withEvq y)).aut = p.aut
      ∧ (requestMode ((p.withMod x).withEvq y)).ord = p.ord := by
    rw [hrest]; exact ⟨rfl, rfl, rfl, rfl, rfl, rfl, rfl⟩
  obtain ⟨h1, h2, h3, h4, h5, h6, h7⟩ := hp
  refine ⟨hq.evq (hy g.evq), hq.commanded g.brk, hf, h2 ▸ g.link, h3 ▸ g.msg, h4 ▸ g.ssu, h5 ▸ g.permits, h6 ▸ g.aut, ?_, ?_, ?_,
    h7 ▸ g.ord⟩
  · rw [h1, h6]; intro hm
    by_cases ho : p.mod.mode = .run
    · exact g.run ho
    · exact hr hm ho
  · rw [h1, h5]; exact hd g.doors
  · intro c hc
    by_cases e : c = .mode
    · subst e; exact hf.1
    · rw [hq.other c e]; exact g.never c hc

theorem Move.good {H : List Group} {p q : Part} (h : Move H p q) (g : Good p) : Good q := by
  have brake : ∀ x : Brk, x.table = p.brk.table → modeEntryOk (p.withBrk x) ∧ Safety.neverLatched (p.withBrk x) := by
    intro x hx
    have ht : ∀ d, (p.withBrk x).entry d = p.entry d := fun d => by unfold Part.entry; simp only [Part.withBrk_brk, hx]
    exact ⟨by have := g.mode; unfold modeEntryOk at this ⊢; rw [ht]; exact this, fun d hd => by rw [ht]; exact g.never d hd⟩
  cases h with
  | post k arg pos sets => exact { g with evq := Evq.posting_ok _ _ _ _ _ _ g.evq }
  | free n => exact { g with }
  | generations x => exact { g with }
  | odo x h ht => exact { g with }
  | ssu x h => exact { g with ssu := h.symm ▸ g.ssu }
  | aut x h =>
    refine { g with aut := fun n hn => ?_, run := fun hm => ?_ }
    · have := g.aut n (h.2.1 ▸ hn); simpa only [Part.withAut_aut, h.1] using this
    · have := g.run hm; simpa only [Part.withAut_aut, h.1] using this
  | brk x h ht =>
    refine { g with brk := ?_, mode := (brake x h.1).1, never := (brake x h.1).2 }
    simp only [Part.withBrk_brk, h.1, h.2.1]; exact g.brk
  | cause d e h _ =>
    by_cases hd : d = .mode
    · subst hd
      have hq := cause_requested .mode e p h.1
      refine { g with brk := hq.commanded g.brk, mode := ?_, never := fun c hc => ?_ }
      · unfold modeEntryOk; rw [writeEntry_self, h.1, h.2]; exact g.mode
      · by_cases e' : c = .mode
        · subst e'; rw [writeEntry_self, h.2]; exact g.mode.1
        · rw [hq.other c e']; exact g.never c hc
    · exact g.of_requested (cause_requested d e p h.1) hd fun hl => by rw [writeEntry_self, h.2]; exact g.never d hl
  | demand d e k arg pos hd hl h _ =>
    exact g.of_requested (request_formed d e k arg pos p) hd fun hn => by rw [request_entry]; exact hl hn
  | silence x hh h =>
    refine { g with mode := ?_, run := ?_, doors := ?_ }
    · have := g.mode; unfold modeEntryOk Part.charging at this ⊢
      simp only [Part.withMod_mod, h.1, h.2.1]; exact this
    · simp only [Part.withMod_mod, h.1]; exact g.run
    · simp only [Part.withMod_mod, h.1]; exact g.doors
  | dor x h =>
    exact { g with permits := by simp only [Part.withDor_dor, h.2.1]; exact g.permits,
                   doors := by simp only [Part.withDor_dor, h.1]; exact g.doors }
  | link x h => exact { g with link := h.1 g.link }
  | msg x h => exact { g with msg := by simp only [Part.withMsg_msg, h.1]; exact g.msg }
  | now x hh => exact { g with }
  | cold x hh => exact { g with }
  | warm x hh => exact { g with }
  | guards x hh h => exact { g with }
  | ord x hh h hr hk => exact { g with ord := h g.ord }
  | evq x hh h => exact { g with evq := h g.evq }
  | odoHard x hh => exact { g with }
  | prf x hh => exact { g with }
  | restr x hh h => exact { g with ssu := h g.ssu }
  | slots x hh h hr => exact { g with aut := h g.aut, run := fun hm => hr hm (g.run hm) }
  | inputs x hh h ht =>
    refine { g with brk := ?_, mode := (brake x h.1).1, never := (brake x h.1).2 }
    simp only [Part.withBrk_brk, h.1, h.2]; exact g.brk
  | unlatch d e k arg pos hh hd hl =>
    exact g.of_requested (request_formed d e k arg pos p) hd.1 fun hn => by rw [request_entry]; exact hl hn
  | charge x hh hm hs h =>
    refine { g with mode := ⟨g.mode.1, g.mode.2.trans h.symm⟩, run := ?_, doors := ?_ }
    · simp only [Part.withMod_mod, hm]; exact g.run
    · simp only [Part.withMod_mod, hm]; exact g.doors
  | chargeDone x evs hh hm hs =>
    exact g.of_modeRequest x evs (fun hr ho => absurd (hm ▸ hr) ho) (fun h => hm ▸ h)
  | mode x evs hh hs hc hr hd => exact g.of_modeRequest x evs hr hd
  | doors x hh hp hm h hl => exact { g with permits := by simp only [Part.withDor_dor, hp]; exact g.permits, doors := h g.doors }
  | permits x hh hd hm h =>
    exact { g with permits := h g.permits, doors := by simp only [Part.withDor_dor, hd.1]; exact g.doors }
  | masks x hh hd hp =>
    exact { g with permits := by simp only [Part.withDor_dor, hp]; exact g.permits,
                   doors := by simp only [Part.withDor_dor, hd.1]; exact g.doors }
  | linkHard x hh h hb => exact { g with link := h g.link }
  | msgHard x hh h => exact { g with msg := h g.msg }

theorem Moves.good {H : List Group} {p q : Part} (h : Moves H p q) (g : Good p) : Good q := by
  induction h with
  | refl => exact g
  | tail _ h ih => exact h.good ih

/-- Without a start, no slot becomes RUNNING. -/
theorem Moves.idle {H : List Group} {p q : Part} (h : Moves H p q) (hs : .start ∉ H) (i : Fin 16)
    (hi : (q.ord.slots[i]).state = .running) : (p.ord.slots[i]).state = .running := by
  refine Moves.keeps h (fun p q => (q.ord.slots[i]).state = .running → (p.ord.slots[i]).state = .running) (fun _ => id)
    (fun _ _ _ h1 h2 => h1 ∘ h2) (fun p q hm => ?_) hi
  cases hm with
  | ord x hh h hr hk => exact hr hs i
  | cause d e h _ => exact id
  | demand d e k arg pos hd hl h _ => rw [(request_formed d e k arg pos p).rest]; exact id
  | unlatch d e k arg pos hh hd hl => rw [(request_formed d e k arg pos p).rest]; exact id
  | chargeDone x evs hh hm hs =>
    obtain ⟨y, e, _⟩ := postAll_evq evs (p.withMod x); rw [e, (requestMode_requested _).rest]; exact id
  | mode x evs hh hs hc hr hd =>
    obtain ⟨y, e, _⟩ := postAll_evq evs (p.withMod x); rw [e, (requestMode_requested _).rest]; exact id
  | _ => exact id

/-! ### What a number of changes leaves alone -/

/-- What stays where `H` does not name its change. -/
structure Frame (H : List Group) (p q : Part) : Prop where
  pre : .evq ∉ H → p.evq.queue <+: q.evq.queue
  faults : .evq ∉ H → ∀ i : Nat, p.evq.faults.getLsbD i = true → q.evq.faults.getLsbD i = true
  now : .now ∉ H → q.now = p.now
  lines : .lines ∉ H → q.coldLine = p.coldLine ∧ q.warmLine = p.warmLine
  base : q.bridge.base = p.bridge.base
  guards : .guards ∉ H → q.bridge.guards = p.bridge.guards ∧ q.bridge.dropped = p.bridge.dropped
  ord : .ord ∉ H → q.ord = p.ord
  odo : .odo ∉ H → OdoSoft p.odo q.odo
  track : .odo ∉ H → .track ∉ H → OdoKept p.odo q.odo
  prf : .prf ∉ H → q.prf = p.prf
  restr : .restr ∉ H → q.ssu.restrictions = p.ssu.restrictions
  slots : .slots ∉ H → AutSoft p.aut q.aut
  test : .ord ∉ H → TestKept p.brk q.brk
  inputs : .inputs ∉ H → q.brk.inputs = p.brk.inputs
  latched : .unlatch ∉ H → ∀ d, d ≠ .mode → (p.entry d).latched = true →
    (q.entry d).latched = true ∧ (p.entry d).stage.value ≤ (q.entry d).stage.value
  mode : .mode ∉ H → q.mod.mode = p.mod.mode
  silence : .silence ∉ H →
    q.mod.silence = p.mod.silence ∧ q.mod.hostSilent = p.mod.hostSilent ∧ q.mod.aliveSeen = p.mod.aliveSeen
  charge : .charge ∉ H →
    q.mod.charge = p.mod.charge ∧ q.mod.wakeReason = p.mod.wakeReason ∧ q.mod.crewKey = p.mod.crewKey
  kept : .start ∉ H → .take ∉ H → Safety.bookkeeping p.ord →
    Safety.bookkeeping q.ord ∧ ∀ i : Fin 16, (p.ord.slots[i]).state ≠ .running → q.ord.slots[i] = p.ord.slots[i]
  levels : .inputs ∉ H → ∀ d : Fin 8, Safety.levels q.dor.doors[d] = Safety.levels p.dor.doors[d]
  doors : .doors ∉ H → q.dor.doors = p.dor.doors ∧ q.dor.left = p.dor.left ∧ q.dor.right = p.dor.right
  permits : .permits ∉ H → q.dor.permits = p.dor.permits
  masks : .masks ∉ H → SameMasks p.dor q.dor
  bitRate : q.link.bitRate = p.link.bitRate
  link : .link ∉ H → SameReceiver p.link q.link
  msg : .msg ∉ H → MsgSoft p.msg q.msg

theorem Frame.refl {H : List Group} (p : Part) : Frame H p p where
  pre _ := List.prefix_refl _
  faults _ _ h := h
  now _ := rfl
  lines _ := ⟨rfl, rfl⟩
  base := rfl
  guards _ := ⟨rfl, rfl⟩
  ord _ := rfl
  odo _ := ⟨rfl, rfl, rfl, rfl, rfl, rfl, rfl, rfl, rfl, rfl⟩
  track _ _ := rfl
  prf _ := rfl
  restr _ := rfl
  slots _ := ⟨rfl, rfl, rfl, rfl, rfl⟩
  test _ := TestKept.refl _
  inputs _ := rfl
  latched _ _ _ h := ⟨h, Nat.le_refl _⟩
  mode _ := rfl
  silence _ := ⟨rfl, rfl, rfl⟩
  charge _ := ⟨rfl, rfl, rfl⟩
  kept _ _ hb := ⟨hb, fun _ _ => rfl⟩
  levels _ _ := rfl
  doors _ := ⟨rfl, rfl, rfl⟩
  permits _ := rfl
  masks _ := ⟨rfl, rfl, rfl, rfl⟩
  bitRate := rfl
  link _ := ⟨rfl, rfl, rfl, rfl, rfl, rfl, rfl⟩
  msg _ := ⟨rfl, rfl, rfl, rfl⟩

theorem OdoSoft.trans {a b c : Odo} (h1 : OdoSoft a b) (h2 : OdoSoft b c) : OdoSoft a c := by
  obtain ⟨a1, a2, a3, a4, a5, a6, a7, a8, a9, a10⟩ := h1
  obtain ⟨b1, b2, b3, b4, b5, b6, b7, b8, b9, b10⟩ := h2
  exact ⟨b1.trans a1, b2.trans a2, b3.trans a3, b4.trans a4, b5.trans a5, b6.trans a6, b7.trans a7, b8.trans a8, b9.trans a9,
    b10.trans a10⟩

theorem AutSoft.trans {a b c : Aut} (h1 : AutSoft a b) (h2 : AutSoft b c) : AutSoft a c := by
  obtain ⟨a1, a2, a3, a4, a5⟩ := h1
  obtain ⟨b1, b2, b3, b4, b5⟩ := h2
  exact ⟨b1.trans a1, b2.trans a2, b3.trans a3, b4.trans a4, b5.trans a5⟩

theorem SameMasks.trans {a b c : Dor} (h1 : SameMasks a b) (h2 : SameMasks b c) : SameMasks a c := by
  obtain ⟨a1, a2, a3, a4⟩ := h1
  obtain ⟨b1, b2, b3, b4⟩ := h2
  exact ⟨b1.trans a1, b2.trans a2, b3.trans a3, b4.trans a4⟩

theorem SameReceiver.trans {a b c : Link} (h1 : SameReceiver a b) (h2 : SameReceiver b c) : SameReceiver a c := by
  obtain ⟨a1, a2, a3, a4, a5, a6, a7⟩ := h1
  obtain ⟨b1, b2, b3, b4, b5, b6, b7⟩ := h2
  exact ⟨b1.trans a1, b2.trans a2, b3.trans a3, b4.trans a4, b5.trans a5, b6.trans a6, b7.trans a7⟩

theorem MsgSoft.trans {a b c : Msg} (h1 : MsgSoft a b) (h2 : MsgSoft b c) : MsgSoft a c := by
  obtain ⟨a1, a2, a3, a4⟩ := h1
  obtain ⟨b1, b2, b3, b4⟩ := h2
  exact ⟨b1.trans a1, b2.trans a2, b3.trans a3, b4.trans a4⟩

theorem Frame.trans {H : List Group} {p q r : Part} (h1 : Frame H p q) (h2 : Frame H q r) : Frame H p r where
  pre h := (h1.pre h).trans (h2.pre h)
  faults h i hi := h2.faults h i (h1.faults h i hi)
  now h := (h2.now h).trans (h1.now h)
  lines h := ⟨(h2.lines h).1.trans (h1.lines h).1, (h2.lines h).2.trans (h1.lines h).2⟩
  base := h2.base.trans h1.base
  guards h := ⟨(h2.guards h).1.trans (h1.guards h).1, (h2.guards h).2.trans (h1.guards h).2⟩
  ord h := (h2.ord h).trans (h1.ord h)
  odo h := (h1.odo h).trans (h2.odo h)
  track h ht := by have a := h1.track h ht; have b := h2.track h ht; unfold OdoKept at *; rw [b, a]
  prf h := (h2.prf h).trans (h1.prf h)
  restr h := (h2.restr h).trans (h1.restr h)
  slots h := (h1.slots h).trans (h2.slots h)
  test h := (h1.test h).trans (h2.test h)
  inputs h := (h2.inputs h).trans (h1.inputs h)
  latched h d hd hl :=
    let a := h1.latched h d hd hl
    let b := h2.latched h d hd a.1
    ⟨b.1, Nat.le_trans a.2 b.2⟩
  mode h := (h2.mode h).trans (h1.mode h)
  silence h := ⟨(h2.silence h).1.trans (h1.silence h).1, (h2.silence h).2.1.trans (h1.silence h).2.1,
    (h2.silence h).2.2.trans (h1.silence h).2.2⟩
  charge h := ⟨(h2.charge h).1.trans (h1.charge h).1, (h2.charge h).2.1.trans (h1.charge h).2.1,
    (h2.charge h).2.2.trans (h1.charge h).2.2⟩
  kept hs ht hb := by
    obtain ⟨b1, a1⟩ := h1.kept hs ht hb
    obtain ⟨b2, a2⟩ := h2.kept hs ht b1
    exact ⟨b2, fun i hi => (a2 i (by rw [a1 i hi]; exact hi)).trans (a1 i hi)⟩
  levels h d := (h2.levels h d).trans (h1.levels h d)
  doors h := ⟨(h2.doors h).1.trans (h1.doors h).1, (h2.doors h).2.1.trans (h1.doors h).2.1,
    (h2.doors h).2.2.trans (h1.doors h).2.2⟩
  permits h := (h2.permits h).trans (h1.permits h)
  masks h := (h1.masks h).trans (h2.masks h)
  bitRate := h2.bitRate.trans h1.bitRate
  link h := (h1.link h).trans (h2.link h)
  msg h := (h1.msg h).trans (h2.msg h)

/-- A request leaves everything but its entry and events. -/
theorem Requested.frame {H : List Group} {d : DemandSource} {p q : Part} (h : Requested d p q)
    (hl : .unlatch ∉ H → d ≠ .mode → (p.entry d).latched = true →
      (q.entry d).latched = true ∧ (p.entry d).stage.value ≤ (q.entry d).stage.value) : Frame H p q := by
  have f : Frame H p ((p.withEvq q.evq).withBrk { q.brk with table := p.brk.table }) :=
    { Frame.refl p with pre := fun _ => h.pre, faults := fun _ => h.faults, inputs := fun _ => h.inputs, test := fun _ => ⟨h.test.1, h.test.2, h.test.3, h.test.4⟩ }
  rw [h.rest]
  refine { f with test := fun _ => ⟨h.test.1, h.test.2, h.test.3, h.test.4⟩, latched := fun hh c hc hk => ?_ }
  by_cases e : c = d
  · subst e; have := hl hh hc hk; rw [h.rest] at this; exact this
  · have := h.other c e; rw [h.rest] at this; rw [this]; exact ⟨hk, Nat.le_refl _⟩

theorem requestMode_frame {H : List Group} (p : Part) (x : Mod) (evs : List (EventKind × Half))
    (hm : .mode ∉ H → x.mode = p.mod.mode)
    (hs : .silence ∉ H → SameSilence p.mod x)
    (hc : .charge ∉ H → x.charge = p.mod.charge ∧ x.wakeReason = p.mod.wakeReason ∧ x.crewKey = p.mod.crewKey) :
    Frame H p (requestMode (postAll evs (p.withMod x))) := by
  obtain ⟨y, e, _, hp, hf⟩ := postAll_evq evs (p.withMod x)
  rw [e]
  have f : Frame H p ((p.withMod x).withEvq y) :=
    { Frame.refl p with pre := fun _ => hp, faults := fun _ => hf, mode := hm, silence := hs, charge := hc }
  exact f.trans ((requestMode_requested _).frame fun _ h => absurd rfl h)

theorem Move.frame {H : List Group} {p q : Part} (h : Move H p q) : Frame H p q := by
  cases h with
  | post k arg pos sets =>
    exact { Frame.refl p with pre := fun _ => Evq.posting_prefix _ _ _ _ _ _, faults := fun _ => Evq.posting_faults _ _ _ _ _ _ }
  | free n => exact { Frame.refl p with }
  | generations x => exact { Frame.refl p with }
  | odo x h ht => exact { Frame.refl p with odo := fun _ => h, track := fun _ => ht }
  | ssu x h => exact { Frame.refl p with restr := fun _ => h }
  | aut x h => exact { Frame.refl p with slots := fun _ => h }
  | brk x h ht =>
    exact { Frame.refl p with
      test := ht
      inputs := fun _ => h.2.2
      latched := fun _ d _ hl => by
        unfold Part.entry at hl ⊢; simp only [Part.withBrk_brk, h.1]; exact ⟨hl, Nat.le_refl _⟩ }
  | cause d e h _ =>
    exact (cause_requested d e p h.1).frame fun _ _ hl => by rw [writeEntry_self, h.1, h.2]; exact ⟨hl, Nat.le_refl _⟩
  | demand d e k arg pos hd hl h _ => exact (request_formed d e k arg pos p).frame fun _ _ hl => by rw [request_entry]; exact h hl
  | silence x hh h => exact { Frame.refl p with silence := fun hn => absurd hh hn, mode := fun _ => h.1, charge := fun _ => h.2 }
  | dor x h =>
    exact { Frame.refl p with
      levels := fun _ d => by simp only [Part.withDor_dor, h.1]
      doors := fun _ => ⟨h.1, h.2.2.1, h.2.2.2.1⟩, permits := fun _ => h.2.1, masks := fun _ => h.2.2.2.2 }
  | link x h => exact { Frame.refl p with bitRate := h.2.1, link := fun _ => h.2.2 }
  | msg x h => exact { Frame.refl p with msg := fun _ => h }
  | now x hh => exact { Frame.refl p with now := fun hn => absurd hh hn }
  | cold x hh => exact { Frame.refl p with lines := fun hn => absurd hh hn }
  | warm x hh => exact { Frame.refl p with lines := fun hn => absurd hh hn }
  | guards x hh h => exact { Frame.refl p with base := h, guards := fun hn => absurd hh hn }
  | ord x hh h hr hk => exact { Frame.refl p with ord := fun hn => absurd hh hn, kept := fun hs ht hb => ⟨h hb, hk hs ht hb⟩ }
  | evq x hh h => exact { Frame.refl p with pre := fun hn => absurd hh hn, faults := fun hn => absurd hh hn }
  | odoHard x hh => exact { Frame.refl p with odo := fun hn => absurd hh hn, track := fun hn => absurd hh hn }
  | prf x hh => exact { Frame.refl p with prf := fun hn => absurd hh hn }
  | restr x hh h => exact { Frame.refl p with restr := fun hn => absurd hh hn }
  | slots x hh h hr => exact { Frame.refl p with slots := fun hn => absurd hh hn }
  | inputs x hh h ht =>
    exact { Frame.refl p with
      test := fun _ => ht
      inputs := fun hn => absurd hh hn
      latched := fun _ d _ hl => by
        unfold Part.entry at hl ⊢; simp only [Part.withBrk_brk, h.1]; exact ⟨hl, Nat.le_refl _⟩ }
  | unlatch d e k arg pos hh hd hl => exact (request_formed d e k arg pos p).frame fun hn => absurd hh hn
  | charge x hh hm hs h => exact { Frame.refl p with silence := hs, mode := fun _ => hm, charge := fun hn => absurd hh hn }
  | chargeDone x evs hh hm hs => exact requestMode_frame p x evs (fun _ => hm) (fun _ => hs) (fun hn => absurd hh hn)
  | mode x evs hh hs hc hr hd => exact requestMode_frame p x evs (fun hn => absurd hh hn) (fun _ => hs) (fun _ => hc)
  | doors x hh hp hm h hl =>
    exact { Frame.refl p with doors := fun hn => absurd hh hn, levels := hl, permits := fun _ => hp, masks := fun _ => hm }
  | permits x hh hd hm h =>
    exact { Frame.refl p with levels := fun _ d => by simp only [Part.withDor_dor, hd.1], doors := fun _ => hd, permits := fun hn => absurd hh hn, masks := fun _ => hm }
  | masks x hh hd hp => exact { Frame.refl p with levels := fun _ d => by simp only [Part.withDor_dor, hd.1], doors := fun _ => hd, permits := fun _ => hp, masks := fun hn => absurd hh hn }
  | linkHard x hh h hb => exact { Frame.refl p with bitRate := hb, link := fun hn => absurd hh hn }
  | msgHard x hh h => exact { Frame.refl p with msg := fun hn => absurd hh hn }

theorem Moves.frame {H : List Group} {p q : Part} (h : Moves H p q) : Frame H p q :=
  h.keeps (Frame H) Frame.refl (fun _ _ _ => Frame.trans) (fun _ _ => Move.frame)

end Sys2Proof.Machine
end

