-- ==== Sys2Proof/Laws/Radio.lean ====
section
/-! SUPPORT. The moves of the sending half of the radio link (R148 to R155): every operation is soft but the levels of CD. -/

namespace Sys2Proof.Machine

open Sys2Proof.Safety (Group)

variable {H : List Group} {p q : Part}

/-- A character with its parity bit and its stop bit right has no error (R141). -/
@[simp] theorem errored_even (c : Byte) : errored c (evenParity c) true = false := by simp [errored, parityError, framingError]

set_option maxRecDepth 100000 in
/-- The part's check of a character is that of R141. -/
theorem errored_iff (c : Byte) (parity stop : Bool) : errored c parity stop = true ↔ Safety.badCharacter c parity stop := by
  have h : ∀ c : Byte, ∀ b : Bool, parityError c b = true ↔
      (((List.range 8).filter fun i => c.getLsbD i).length + (if b then 1 else 0)) % 2 = 1 := by decide
  unfold errored Safety.badCharacter framingError
  rw [Bool.or_eq_true, h c parity, Bool.not_eq_true']

/-! ### Single moves, in the form the proofs chain -/

theorem postAt_moves (k : EventKind) (arg : Half) (pos : Word) (sets : Bool) (h : Moves H p q) :
    Moves H p (postAt k arg pos sets q) := h.then (.post _ _ _ _ _)

theorem post_moves (k : EventKind) (arg : Half) (h : Moves H p q) : Moves H p (post k arg q) := h.then (.post _ _ _ _ _)

theorem postIf_moves (k : EventKind) (arg : Half) (sets : Bool) (h : Moves H p q) : Moves H p (postIf k arg sets q) :=
  h.then (.post _ _ _ _ _)

theorem odo_moves (x : Odo) (hx : OdoSoft q.odo x) (ht : .track ∉ H → OdoKept q.odo x) (h : Moves H p q) : Moves H p (q.withOdo x) :=
  h.then (.odo _ _ hx ht)
theorem ssu_moves (x : Ssu) (hx : x.restrictions = q.ssu.restrictions) (h : Moves H p q) : Moves H p (q.withSsu x) :=
  h.then (.ssu _ _ hx)
theorem aut_moves (x : Aut) (hx : AutSoft q.aut x) (h : Moves H p q) : Moves H p (q.withAut x) := h.then (.aut _ _ hx)
theorem brk_moves (x : Brk) (hx : BrkSoft q.brk x) (ht : .ord ∉ H → TestKept q.brk x) (h : Moves H p q) : Moves H p (q.withBrk x) :=
  h.then (.brk _ _ hx ht)
theorem silence_moves (x : Mod) (hh : .silence ∈ H) (hx : ModSoft q.mod x) (h : Moves H p q) : Moves H p (q.withMod x) :=
  h.then (.silence _ _ hh hx)
theorem dor_moves (x : Dor) (hx : DorSoft q.dor x) (h : Moves H p q) : Moves H p (q.withDor x) := h.then (.dor _ _ hx)
theorem link_moves (x : Link) (hx : LinkSoft q.link x) (h : Moves H p q) : Moves H p (q.withLink x) := h.then (.link _ _ hx)
theorem msg_moves (x : Msg) (hx : MsgSoft q.msg x) (h : Moves H p q) : Moves H p (q.withMsg x) := h.then (.msg _ _ hx)
theorem ord_moves (x : Ord) (hh : .ord ∈ H) (hk : Safety.bookkeeping q.ord → Safety.bookkeeping x)
    (hr : .start ∉ H → ∀ i : Fin 16, (x.slots[i]).state = .running → (q.ord.slots[i]).state = .running)
    (hs : .start ∉ H → .take ∉ H → Safety.bookkeeping q.ord → ∀ i : Fin 16, (q.ord.slots[i]).state ≠ .running → x.slots[i] = q.ord.slots[i])
    (h : Moves H p q) : Moves H p (q.withOrd x) := h.then (.ord _ _ hh hk hr hs)

/-! ### The link state machine -/

theorem txDrop_moves (c : TxClass) (r : TxDrop) (h : Moves H p q) : Moves H p (txDrop c r q) :=
  post_moves _ _ (link_moves _ ⟨id, rfl, rfl, rfl, rfl, rfl, rfl, rfl, rfl⟩ h)

theorem keyUp_moves (h : Moves H p q) : Moves H p (keyUp q) := by
  unfold keyUp; split
  · exact h
  · rename_i f rest hq
    exact link_moves _ ⟨fun hk => ⟨fun _ => rfl, txOk_sublist (by rw [hq]; exact List.sublist_cons_self _ _) hk.2⟩,
      rfl, rfl, rfl, rfl, rfl, rfl, rfl, rfl⟩ h

/-- A state that asserts no PTT is left for any state. -/
theorem link_ok_of_state {l x : Link} (hk : l.ok) (hs : Safety.assertsPtt l.state = false) (hp : x.ptt = l.ptt)
    (hq : x.queue = l.queue) : x.ok :=
  ⟨fun ht => absurd (hk.1 (hp ▸ ht)) (by rw [hs]; exact Bool.false_ne_true), hq ▸ hk.2⟩

theorem listenLook_moves (h : Moves H p q) : Moves H p (listenLook q) := by
  unfold listenLook; split
  · rename_i hc
    simp only [Bool.and_eq_true, beq_iff_eq] at hc
    split
    · exact link_moves _ ⟨fun hk => link_ok_of_state hk (by rw [hc.1.1]; rfl) rfl rfl, rfl, rfl, rfl, rfl, rfl, rfl, rfl, rfl⟩ h
    · exact keyUp_moves h
  · exact h

theorem toListen_moves (hs : q.link.ok → q.link.ptt = false) (h : Moves H p q) : Moves H p (toListen q) :=
  listenLook_moves (link_moves _ ⟨fun hk => ⟨fun ht => by rw [hs hk] at ht; exact absurd ht Bool.false_ne_true, hk.2⟩,
    rfl, rfl, rfl, rfl, rfl, rfl, rfl, rfl⟩ h)

/-! ### The queue (R154, R155) -/

/-- Placing a frame after making room is one change of the link, and at most one event. -/
theorem txPlace_moves (c : TxClass) (ins : List TxFrame → List TxFrame)
    (hq : q.link.queue.length < 4 ∨ (txDisplaced c q.link.queue).isSome = true)
    (hi : ∀ l : List TxFrame, l.Sublist q.link.queue → txOk l → l.length < 4 → txOk (ins l)) (h : Moves H p q) :
    Moves H p ((txMakeRoom c q).withLink { (txMakeRoom c q).link with queue := ins (txMakeRoom c q).link.queue }) := by
  unfold txMakeRoom
  by_cases hl : q.link.queue.length < 4
  · rw [if_pos hl]
    exact link_moves _ ⟨fun hk => ⟨hk.1, hi _ (List.Sublist.refl _) hk.2 hl⟩, rfl, rfl, rfl, rfl, rfl, rfl, rfl, rfl⟩ h
  · rw [if_neg hl]
    obtain ⟨g, hg⟩ := Option.isSome_iff_exists.1 (hq.resolve_left hl)
    rw [hg]
    have hs : q.link.queue.dropLast.Sublist q.link.queue := List.dropLast_sublist _
    exact post_moves (q := q.withLink { q.link with
        queue := ins q.link.queue.dropLast,
        txDrops := q.link.txDrops.set TxDrop.displaced.index (sat16 q.link.txDrops[TxDrop.displaced.index]) })
      .txDropped (arg2 g.cls.code TxDrop.displaced.code)
      (link_moves _ ⟨fun hk => ⟨hk.1, hi _ hs (txOk_sublist hs hk.2)
        (by rw [List.length_dropLast]; have := hk.2.1; omega)⟩, rfl, rfl, rfl, rfl, rfl, rfl, rfl, rfl⟩ h)

theorem offer_moves (f : TxFrame) (h : Moves H p q) : Moves H p (offer f q) := by
  unfold offer
  cases hr : offerResult f.cls q with
  | placed =>
    have hp : (q.link.queue.length < 4 ∨ (txDisplaced f.cls q.link.queue).isSome = true)
        ∧ (f.cls = .report → txHasReport q.link.queue = false) := by
      unfold offerResult at hr
      split at hr
      · cases hr
      · split at hr
        · cases hr
        · rename_i _ hn
          split at hr
          · rename_i hc
            refine ⟨by simpa using hc, fun e => ?_⟩
            simpa [e] using hn
          · cases hr
    exact listenLook_moves (txPlace_moves f.cls (txInsertTail f) hp.1
      (fun l hs hk hl => txInsertTail_ok f l hk hl fun e => txHasReport_sublist hs (hp.2 e)) h)
  | refreshed =>
    exact link_moves _ ⟨fun hk => ⟨hk.1, txRefresh_ok f _ hk.2⟩, rfl, rfl, rfl, rfl, rfl, rfl, rfl, rfl⟩ h
  | full => simp only; split; exacts [h, txDrop_moves _ _ h]
  | stabled => simp only; split; exacts [h, txDrop_moves _ _ h]

theorem putBack_moves (f : TxFrame) (h : Moves H p q) : Moves H p (putBack f q) := by
  unfold putBack; split
  · exact h
  · rename_i hn
    split
    · rename_i hc
      exact txPlace_moves f.cls (txInsertHead f) (by simpa using hc)
        (fun l hs hk hl => txInsertHead_ok f l hk hl fun e => txHasReport_sublist hs (by simpa [e] using hn)) h
    · exact txDrop_moves _ _ h

/-! ### The frames the car builds -/

theorem handReport_moves (h : Moves H p q) : Moves H p (handReport q) := by
  unfold handReport; simp only; split
  · exact offer_moves _ h
  · exact msg_moves _ ⟨rfl, rfl, rfl, rfl⟩ (offer_moves _ h)

theorem handAlarm_moves (k : AlarmKind) (h : Moves H p q) : Moves H p (handAlarm k q) := offer_moves _ h

theorem handRefusal_moves (s : Byte) (k i : Nat) (r : Reason) (h : Moves H p q) : Moves H p (handRefusal s k i r q) :=
  offer_moves _ h

/-! ### The rows of the transmitter -/

theorem sendNext_moves (h : Moves H p q) : Moves H p (sendNext q) := by
  unfold sendNext; split
  · exact link_moves _ ⟨fun hk => ⟨fun _ => rfl, hk.2⟩, rfl, rfl, rfl, rfl, rfl, rfl, rfl, rfl⟩ h
  · exact h

theorem toPaused_moves (h : Moves H p q) : Moves H p (toPaused q) := by
  unfold toPaused; split
  · exact link_moves _ ⟨fun hk => ⟨fun _ => rfl, hk.2⟩, rfl, rfl, rfl, rfl, rfl, rfl, rfl, rfl⟩ h
  · exact h

theorem flowByte_moves (b : Bool) (h : Moves H p q) : Moves H p (flowByte b q) := by
  unfold flowByte; split
  iterate 3 exact h
  iterate 3 exact link_moves _ ⟨id, rfl, rfl, rfl, rfl, rfl, rfl, rfl, rfl⟩ h
  simp only
  split
  · exact link_moves _ ⟨id, rfl, rfl, rfl, rfl, rfl, rfl, rfl, rfl⟩ h
  · exact sendNext_moves (link_moves _ ⟨id, rfl, rfl, rfl, rfl, rfl, rfl, rfl, rfl⟩ h)

theorem keyUpExpiry_moves (h : Moves H p q) : Moves H p (keyUpExpiry q) := by
  unfold keyUpExpiry; split
  · split; exacts [toPaused_moves h, sendNext_moves h]
  · exact h

theorem deferExpiry_moves (h : Moves H p q) : Moves H p (deferExpiry q) := by
  unfold deferExpiry; split
  · split; exacts [keyUp_moves h, h]
  · exact h

theorem characterSent_moves (h : Moves H p q) : Moves H p (characterSent q) := by
  unfold characterSent; split
  · split
    · exact link_moves _ ⟨fun hk => ⟨fun _ => rfl, hk.2⟩, rfl, rfl, rfl, rfl, rfl, rfl, rfl, rfl⟩ h
    · split; exacts [toPaused_moves h, sendNext_moves h]
  · exact h

theorem tailExpiry_moves (h : Moves H p q) : Moves H p (tailExpiry q) := by
  unfold tailExpiry; split
  · exact toListen_moves (fun _ => rfl) (link_moves _ ⟨fun hk => ⟨fun ht => absurd ht Bool.false_ne_true, hk.2⟩,
      rfl, rfl, rfl, rfl, rfl, rfl, rfl, rfl⟩ h)
  · exact h

theorem pauseExpiry_moves (h : Moves H p q) : Moves H p (pauseExpiry q) := by
  unfold pauseExpiry; split
  · split
    · exact toListen_moves (fun _ => rfl) (txDrop_moves _ _ (link_moves _
        ⟨fun hk => ⟨fun ht => absurd ht Bool.false_ne_true, hk.2⟩, rfl, rfl, rfl, rfl, rfl, rfl, rfl, rfl⟩ h))
    · exact h
  · exact h

theorem reportExpiry_moves (h : Moves H p q) : Moves H p (reportExpiry q) := by
  unfold reportExpiry; split; exacts [handReport_moves h, h]

theorem linkHard_moves (x : Link) (hh : .link ∈ H) (hx : q.link.ok → x.ok) (hb : x.bitRate = q.link.bitRate)
    (h : Moves H p q) : Moves H p (q.withLink x) := h.then (.linkHard _ _ hh hx hb)

theorem carrierRise_moves (hh : .link ∈ H) (h : Moves H p q) : Moves H p (carrierRise q) := by
  unfold carrierRise; split
  · exact h
  · have h1 : Moves H p (q.withLink { q.link with cd := true }) := linkHard_moves _ hh id rfl h
    simp only; split
    · exact h1
    · split
      · exact link_moves _ ⟨id, rfl, rfl, rfl, rfl, rfl, rfl, rfl, rfl⟩ h1
      · have h2 := link_moves (q := q.withLink { q.link with cd := true })
          { (q.withLink { q.link with cd := true }).link with
            ptt := false, keyUpTimer := none, sendBuffer := none, state := .defer, deferTimer := none }
          ⟨fun hk => ⟨fun ht => absurd ht Bool.false_ne_true, hk.2⟩, rfl, rfl, rfl, rfl, rfl, rfl, rfl, rfl⟩ h1
        split
        · exact putBack_moves _ h2
        · exact h2
      · exact listenLook_moves h1
      · exact h1

end Sys2Proof.Machine
end

