-- ==== Sys2Proof/Laws/Blocks.lean ====
section
/-! SUPPORT. The moves of supervision, the sides, the modes, the brake test, the authority table and odometry. -/

namespace Sys2Proof.Machine

open Sys2Proof.Safety (Group)

variable {H : List Group} {p q : Part}

/-! ### The demand table and the brake's operation -/

theorem stepSettled_moves (s : Stage) (h : Moves H p q) : Moves H p (stepSettled s q) := by
  unfold stepSettled; split
  · split; exacts [brk_moves _ ⟨rfl, rfl, rfl⟩ (fun _ => ⟨by rw [‹q.brk.test = _›]; rfl, rfl, rfl, rfl⟩) h, h]
  · exact h

theorem settle_moves (s : Stage) (h : Moves H p q) : Moves H p (settle s q) :=
  stepSettled_moves _ (post_moves _ _ (brk_moves { q.brk with state := .settled, confirmed := s } ⟨rfl, rfl, rfl⟩ (fun _ => ⟨rfl, rfl, rfl, rfl⟩) h))

theorem judgeOperation_moves (h : Moves H p q) : Moves H p (judgeOperation q) := by
  unfold judgeOperation; split
  · split; exacts [settle_moves _ h, settle_moves _ h, h]
  · exact h

theorem startOperation_moves (s : Stage) (h : Moves H p q) : Moves H p (startOperation s q) :=
  judgeOperation_moves (brk_moves { q.brk with state := operationToward q.brk q.now s } ⟨rfl, rfl, rfl⟩ (fun _ => ⟨rfl, rfl, rfl, rfl⟩) h)

theorem patternChanged_moves (b : Bool) (h : Moves H p q) : Moves H p (patternChanged b q) := by
  unfold patternChanged; split
  · exact h
  · split
    · split
      · exact h
      · exact judgeOperation_moves (brk_moves { q.brk with state := .applying q.brk.confirmed (some q.now) } ⟨rfl, rfl, rfl⟩ (fun _ => ⟨rfl, rfl, rfl, rfl⟩) h)
    · exact judgeOperation_moves h

/-- A following request; one of DOORS is the request R137 calls for. -/
theorem followEntry_moves (d : DemandSource) (s : Stage) (c : Nat) (hd : d ≠ .mode) (h : Moves H p q)
    (hf : d ≠ .doors ∨ (s, c) = doorsRequest q := by exact .inl (by decide)) : Moves H p (followEntry d s c q) := by
  rcases followEntry_cases d s c q with ⟨_, e⟩ | ⟨hl, x, h1, h2, h3, ⟨he, e⟩ | ⟨k, arg, pos, e⟩⟩ <;> rw [e]
  · exact h
  · exact h.then (.cause _ _ _ ⟨he, h2.trans hl.symm⟩ (hf.imp_right fun e => by unfold formedEntry; rw [← e]; exact ⟨h1, h3⟩))
  · exact h.then (.demand _ _ _ _ _ _ hd (fun _ => h2) (fun hk => by rw [hl] at hk; cases hk)
      (hf.imp_right fun e => by unfold formedEntry; rw [← e]; exact ⟨h1, h3⟩))

theorem latches_ne {d : DemandSource} (h : Safety.latches d = true) : d ≠ .mode ∧ d ≠ .doors :=
  ⟨(by rintro rfl; cases h), (by rintro rfl; cases h)⟩

theorem latchEntry_moves (d : DemandSource) (s : Stage) (c : Nat) (hd : Safety.latches d = true) (h : Moves H p q) :
    Moves H p (latchEntry d s c q) := by
  rcases latchEntry_cases d s c q with ⟨_, e⟩ | ⟨_, x, k, arg, pos, h1, h2, _, _, _, e⟩ <;> rw [e]
  · exact postAt_moves _ _ _ _ h
  · refine h.then (.demand _ _ _ _ _ _ (latches_ne hd).1 (fun hn => by rw [hd] at hn; cases hn) (fun _ => ⟨h2, ?_⟩)
      (.inl (latches_ne hd).2))
    rw [h1, Stage.value_max]; split <;> omega

theorem clearLatch_moves (d : DemandSource) (s : Stage) (c : Nat) (hd : d ≠ .mode ∧ d ≠ .doors) (hh : .unlatch ∈ H) (h : Moves H p q) :
    Moves H p (clearLatch d s c q) := h.then (.unlatch _ _ _ _ _ _ hh hd fun _ => rfl)

/-! ### Supervision (chapter 4) -/

theorem ssuNumbers_moves (h : Moves H p q) : Moves H p (ssuNumbers q) := h.then (.ssu _ _ rfl)

theorem toSupervision_moves (s : SupervisionState) (h : Moves H p q) : Moves H p (toSupervision s q) := by
  unfold toSupervision; split; exacts [h, postIf_moves _ _ _ (ssu_moves _ rfl h)]

theorem requestSupervision_moves (s : Stage) (c : Nat) (h : Moves H p q) : Moves H p (requestSupervision s c q) := by
  unfold requestSupervision; split; exacts [h, followEntry_moves _ _ _ (by decide) (ssu_moves _ rfl h)]

theorem evaluateRun_moves (h : Moves H p q) : Moves H p (evaluateRun q) := by
  unfold evaluateRun
  extract_lets v pm set hold curve trips level _ q1 q2 q3
  have h1 : Moves H p q1 := ssu_moves _ rfl h
  have h2 : Moves H p q2 := by
    simp only [q2]; split; exacts [h1, toSupervision_moves _ h1]
  have h3 : Moves H p q3 := by
    simp only [q3]; split; exacts [latchEntry_moves _ _ _ (by decide) h2, h2]
  split
  · exact requestSupervision_moves _ _ h3
  · split; exacts [requestSupervision_moves _ _ h3, requestSupervision_moves _ _ h3]

theorem ssuEvaluate_moves (h : Moves H p q) : Moves H p (ssuEvaluate q) := by
  unfold ssuEvaluate; split
  · exact h
  · simp only; split; exacts [evaluateRun_moves (ssuNumbers_moves h), ssuNumbers_moves h]

theorem ssuLeaveRun_moves (h : Moves H p q) : Moves H p (ssuLeaveRun q) := by
  have h1 : Moves H p (q.withSsu { q.ssu with hold := false }) := ssu_moves _ rfl h
  unfold ssuLeaveRun
  simp only
  refine followEntry_moves _ _ _ (by decide) (ssu_moves _ rfl ?_)
  split; exacts [h1, toSupervision_moves _ h1]

theorem placeRestriction_moves (a : Addition) (o : Origin) (r : Restriction) (b : Bool) (hh : .restr ∈ H)
    (hj : judgeAddition a o q.ssu.restrictions = .ok (r, b)) (h : Moves H p q) : Moves H p (placeRestriction r b q) :=
  ssuEvaluate_moves (post_moves _ _ (h.then (.restr _ _ hh fun hk => placed_ok a o _ r b hk hj)))

theorem dropRestriction_moves (id : Nat) (hh : .restr ∈ H) (h : Moves H p q) : Moves H p (dropRestriction id q) :=
  ssuEvaluate_moves (post_moves _ _ (h.then (.restr _ _ hh fun hk => eraseRestriction_ok id _ hk)))

/-! ### Doors and sides (chapter 7) -/

/-- A door that may take any state: it is not quiet now, or the car is in STAND or LOCKOUT (R122). -/
def FreeDoor (d : Fin 8) (q : Part) : Prop :=
  (q.door d).state.quiet = false ∨ q.mod.mode = .stand ∨ q.mod.mode = .lockout

theorem doorsOk_set (m : Mode) (v : Vector Door 8) (d : Fin 8) (x : Door)
    (hx : x.state.quiet = true ∨ (v[d]).state.quiet = false ∨ m = .stand ∨ m = .lockout) (h : doorsOk m v) :
    doorsOk m (v.set d x) := by
  intro h1 h2 c
  by_cases e : c = d
  · subst e
    have : (v.set c x)[c] = x := by simp
    rw [this]
    rcases hx with hx | hx | hx | hx
    · exact hx
    · rw [h h1 h2 c] at hx; cases hx
    · exact absurd hx h1
    · exact absurd hx h2
  · have : (v.set d x)[c] = v[c] := by
      have : d.val ≠ c.val := fun h => e (Fin.ext h.symm)
      simp [this]
    rw [this]; exact h h1 h2 c

theorem levels_set {v : Vector Door 8} (d : Fin 8) (x : Door) (hx : Safety.levels x = Safety.levels v[d]) (c : Fin 8) :
    Safety.levels (v.set d x)[c] = Safety.levels v[c] := by
  by_cases e : d.val = c.val
  · have : d = c := Fin.ext e
    subst this; simpa using hx
  · simp [e]

theorem setDoor_moves (d : Fin 8) (f : Door → Door) (hh : .doors ∈ H)
    (hf : (f (q.door d)).state.quiet = true ∨ FreeDoor d q)
    (hl : .inputs ∉ H → Safety.levels (f (q.door d)) = Safety.levels (q.door d)) (h : Moves H p q) : Moves H p (setDoor d f q) :=
  h.then (.doors _ _ hh rfl ⟨rfl, rfl, rfl, rfl⟩ (fun hk => doorsOk_set _ _ _ _ hf hk) fun hn => levels_set d _ (hl hn))

/-- A change of a door's record that keeps its state. -/
theorem setDoor_same_moves (d : Fin 8) (f : Door → Door) (hh : .doors ∈ H) (hf : (f (q.door d)).state = (q.door d).state)
    (hl : .inputs ∉ H → Safety.levels (f (q.door d)) = Safety.levels (q.door d)) (h : Moves H p q) : Moves H p (setDoor d f q) := by
  by_cases hq : (q.door d).state.quiet = true
  · exact setDoor_moves d f hh (Or.inl (by rw [hf]; exact hq)) hl h
  · exact setDoor_moves d f hh (Or.inr (Or.inl (by simpa using hq))) hl h

theorem doorTo_moves (d : Fin 8) (s : DoorState) (m : Option Word) (hh : .doors ∈ H) (hs : s.quiet = true ∨ FreeDoor d q)
    (h : Moves H p q) : Moves H p (doorTo d s m q) := post_moves _ _ (setDoor_moves d _ hh hs (fun _ => rfl) h)

theorem setDoor_door (d c : Fin 8) (f : Door → Door) (q : Part) :
    (setDoor d f q).door c = if c = d then f (q.door d) else q.door c := by
  change (q.dor.doors.set d.val (f (q.door d)))[c] = _
  split
  · subst_vars; simp
  · rename_i h
    have : d.val ≠ c.val := fun e => h (Fin.ext e.symm)
    simp [this, Part.door]

theorem doorTo_door (d c : Fin 8) (s : DoorState) (m : Option Word) (q : Part) :
    (doorTo d s m q).door c = if c = d then { q.door d with state := s, motion := m } else q.door c := by
  change (setDoor d (fun r => { r with state := s, motion := m }) q).door c = _
  exact setDoor_door _ _ _ _

theorem doorTo_free (d : Fin 8) (s : DoorState) (m : Option Word) (q : Part) (hs : s.quiet = false) : FreeDoor d (doorTo d s m q) :=
  Or.inl (by rw [doorTo_door, if_pos rfl]; exact hs)

theorem startReopening_moves (d : Fin 8) (hh : .doors ∈ H) (hf : FreeDoor d q) (h : Moves H p q) :
    Moves H p (startReopening d q) := by
  refine doorTo_moves d _ _ hh (Or.inr ?_) (setDoor_same_moves d _ hh ?_ ?_ h)
  · rcases hf with hf | hf
    · refine Or.inl ?_
      rw [setDoor_door, if_pos rfl]
      split <;> exact hf
    · exact Or.inr hf
  · split <;> rfl
  · intro _; split <;> rfl

theorem leaveOpen_moves (d : Fin 8) (hh : .doors ∈ H) (hf : FreeDoor d q) (h : Moves H p q) : Moves H p (leaveOpen d q) := by
  refine doorTo_moves d _ _ hh (Or.inr ?_) (setDoor_same_moves d _ hh rfl (fun _ => rfl) h)
  rcases hf with hf | hf
  · exact Or.inl (by rw [setDoor_door, if_pos rfl]; exact hf)
  · exact Or.inr hf

theorem enterClosing_moves (n : Nat) (d : Fin 8) (hh : .doors ∈ H) (hf : FreeDoor d q) (h : Moves H p q) :
    Moves H p (enterClosing n d q) := by
  induction n generalizing q with
  | zero => exact h
  | succ n ih =>
    have h1 : Moves H p (doorTo d .closing (some q.now) q) := doorTo_moves d _ _ hh (Or.inr hf) h
    have f1 : FreeDoor d (doorTo d .closing (some q.now) q) := doorTo_free _ _ _ _ rfl
    unfold enterClosing
    simp only
    split
    · exact doorTo_moves d _ _ hh (Or.inl rfl) h1
    · split
      · have h2 := startReopening_moves d hh f1 h1
        have f2 : FreeDoor d (startReopening d (doorTo d .closing (some q.now) q)) := doorTo_free _ _ _ _ rfl
        split
        · split; exacts [ih f2 h2, leaveOpen_moves d hh f2 h2]
        · exact h2
      · exact h1

theorem closeDoor_moves (d : Fin 8) (hh : .doors ∈ H) (hf : FreeDoor d q) (h : Moves H p q) : Moves H p (closeDoor d q) :=
  enterClosing_moves 10 d hh hf h

theorem judgeReopened_moves (d : Fin 8) (hh : .doors ∈ H) (hf : FreeDoor d q) (h : Moves H p q) :
    Moves H p (judgeReopened d q) := by
  unfold judgeReopened; split; exacts [closeDoor_moves d hh hf h, leaveOpen_moves d hh hf h]

theorem obstruct_moves (d : Fin 8) (hh : .doors ∈ H) (hf : FreeDoor d q) (h : Moves H p q) : Moves H p (obstruct d q) := by
  unfold obstruct
  simp only
  split
  · exact judgeReopened_moves d hh (doorTo_free _ _ _ _ rfl) (startReopening_moves d hh hf h)
  · exact startReopening_moves d hh hf h

theorem openDoor_moves (d : Fin 8) (hh : .doors ∈ H) (hf : FreeDoor d q) (h : Moves H p q) : Moves H p (openDoor d q) := by
  have h1 : Moves H p (doorTo d .opening (some q.now) q) := doorTo_moves d _ _ hh (Or.inr hf) h
  unfold openDoor
  simp only
  split; exacts [doorTo_moves d _ _ hh (Or.inr (doorTo_free _ _ _ _ rfl)) h1, h1]

theorem faultDoor_moves (d : Fin 8) (c : DoorFault) (hh : .doors ∈ H) (h : Moves H p q) : Moves H p (faultDoor d c q) :=
  post_moves _ _ (doorTo_moves d _ _ hh (Or.inl rfl) (setDoor_same_moves d _ hh rfl (fun _ => rfl) h))

theorem setSide_moves (s : Side) (r : SideRec) (hh : .doors ∈ H) (h : Moves H p q) : Moves H p (setSide s r q) := by
  cases s <;> exact h.then (.doors _ _ hh rfl ⟨rfl, rfl, rfl, rfl⟩ id fun _ _ => rfl)

theorem withdrawDoor_moves (d : Fin 8) (hh : .doors ∈ H) (h : Moves H p q) : Moves H p (withdrawDoor d q) := by
  unfold withdrawDoor; split
  · rename_i hc
    refine closeDoor_moves d hh (Or.inl ?_) (setDoor_same_moves d _ hh rfl (fun _ => rfl) h)
    rw [setDoor_door, if_pos rfl]
    simp only [beq_iff_eq] at hc
    simp only [hc]; rfl
  · exact h

/-- A fold of changes over a list. -/
theorem foldl_moves {α : Type} (f : Part → α → Part) (hf : ∀ r a, Moves H p r → Moves H p (f r a)) (l : List α)
    (h : Moves H p q) : Moves H p (l.foldl f q) := by
  induction l generalizing q with
  | nil => exact h
  | cons a l ih => exact ih (hf _ _ h)

theorem withdrawSide_moves (s : Side) (c : WithdrawCause) (hh : .doors ∈ H) (h : Moves H p q) :
    Moves H p (withdrawSide s c q) := by
  unfold withdrawSide; split
  · exact foldl_moves _ (fun r d => withdrawDoor_moves d hh) _ (post_moves _ _ (setSide_moves s _ hh h))
  · exact h

theorem formDoors_moves (h : Moves H p q) : Moves H p (formDoors q) := followEntry_moves _ _ _ (by decide) h (.inr rfl)

/-- The record of a slot after a change of that of slot `i`. -/
theorem slots_set (v : Vector Slot 16) (i j : Fin 16) (r : Slot) : (v.set i r)[j] = if j = i then r else v[j] := by
  split
  · subst_vars; simp
  · rename_i h
    have : i.val ≠ j.val := fun e => h (Fin.ext e.symm)
    simp [this]

/-- Slot `i` has left the bookkeeping, and its record is replaced. -/
theorem bookkeeping_end {o x : Ord} (i : Fin 16) (r : Slot) (hs : x.slots = o.slots.set i r)
    (ht : ∀ j k, Safety.timed x j k → Safety.timed o j k ∧ j ≠ i)
    (hd : ∀ j, (x.openLeft = some j ∧ x.openRight = some j → o.openLeft = some j ∧ o.openRight = some j)
      ∧ (x.closeLeft = some j ∧ x.closeRight = some j → o.closeLeft = some j ∧ o.closeRight = some j))
    (hk : Safety.bookkeeping o) : Safety.bookkeeping x := by
  refine ⟨fun j k h => ?_, fun j h => hk.2.1 j ((hd j).1 h), fun j h => hk.2.2 j ((hd j).2 h)⟩
  obtain ⟨h1, h2⟩ := ht j k h
  rw [hs, slots_set, if_neg h2]; exact hk.1 j k h1

/-- One order leaves the bookkeeping and ends. -/
structure Ends (i : Fin 16) (o x : Ord) : Prop where
  keeps : Safety.bookkeeping o → Safety.bookkeeping x
  idle : ∀ j : Fin 16, (x.slots[j]).state = .running → (o.slots[j]).state = .running
  same : Safety.bookkeeping o → ∀ j : Fin 16, (o.slots[j]).state ≠ .running → x.slots[j] = o.slots[j]

/-- The record of slot `i` at the end of its order. -/
def endRecord (a : Bool) (w : Word) (r : Slot) : Slot := { r with state := if a then .aborted else .done, result := w }

theorem endRecord_state (a : Bool) (w : Word) (r : Slot) : (endRecord a w r).state ≠ .running := by
  cases a <;> exact SlotState.noConfusion

theorem idle_set {v : Vector Slot 16} {i : Fin 16} {r : Slot} (hr : r.state = .running → (v[i]).state = .running) (j : Fin 16)
    (h : ((v.set i r)[j]).state = .running) : (v[j]).state = .running := by
  rw [slots_set] at h
  by_cases e : j = i
  · subst e; rw [if_pos rfl] at h; exact hr h
  · rw [if_neg e] at h; exact h

theorem same_set {v : Vector Slot 16} {i j : Fin 16} {r : Slot} (h : j ≠ i) : (v.set i r)[j] = v[j] := by
  rw [slots_set, if_neg h]

/-- Two names of one slot are of one kind. -/
theorem timed_kind {o : Ord} (hk : Safety.bookkeeping o) {i : Fin 16} {k l : Nat} (h1 : Safety.timed o i k) (h2 : Safety.timed o i l) :
    k = l := (hk.1 i k h1).2.symm.trans (hk.1 i l h2).2

theorem ends_brakeTest (a : Bool) (w : Word) (o : Ord) (i : Fin 16) (hi : o.brakeTest = some i) :
    Ends i o { o with brakeTest := none, slots := o.slots.set i (endRecord a w o.slots[i]) } := by
  have t : Safety.timed o i 5 := Or.inl ⟨hi, rfl⟩
  refine ⟨fun hk => bookkeeping_end i _ rfl (fun j k h => ?_) (fun j => ⟨id, id⟩) hk,
    fun j => idle_set (fun h => absurd h (endRecord_state _ _ _)) j, fun hk j hj => same_set (fun e => hj (e ▸ (hk.1 i _ t).1))⟩
  have h' : Safety.timed o j k := by
    rcases h with h | h
    · cases h.1
    · exact Or.inr h
  refine ⟨h', fun e => ?_⟩
  subst e
  have e := timed_kind hk t h'
  rcases h with h | h | h | h
  · cases h.1
  · omega
  · omega
  · omega

theorem ends_activate (a : Bool) (w : Word) (o : Ord) (i : Fin 16) (hi : o.activate = some i) :
    Ends i o { o with activate := none, slots := o.slots.set i (endRecord a w o.slots[i]) } := by
  have t : Safety.timed o i 11 := Or.inr (Or.inl ⟨hi, rfl⟩)
  refine ⟨fun hk => bookkeeping_end i _ rfl (fun j k h => ?_) (fun j => ⟨id, id⟩) hk,
    fun j => idle_set (fun h => absurd h (endRecord_state _ _ _)) j, fun hk j hj => same_set (fun e => hj (e ▸ (hk.1 i _ t).1))⟩
  have h' : Safety.timed o j k := by
    rcases h with h | h | h
    · exact Or.inl h
    · cases h.1
    · exact Or.inr (Or.inr h)
  refine ⟨h', fun e => ?_⟩
  subst e
  have e := timed_kind hk t h'
  rcases h with h | h | h | h
  · omega
  · cases h.1
  · omega
  · omega

theorem ends_openLeft (a : Bool) (w : Word) (o : Ord) (i : Fin 16) (hi : o.openLeft = some i) :
    Ends i o { o with openLeft := none, slots := o.slots.set i (endRecord a w o.slots[i]) } := by
  have t : Safety.timed o i 16 := Or.inr (Or.inr (Or.inl ⟨Or.inl hi, rfl⟩))
  refine ⟨fun hk => bookkeeping_end i _ rfl (fun j k h => ?_) (fun j => ⟨fun h => (by cases h.1), id⟩) hk,
    fun j => idle_set (fun h => absurd h (endRecord_state _ _ _)) j, fun hk j hj => same_set (fun e => hj (e ▸ (hk.1 i _ t).1))⟩
  have h' : Safety.timed o j k := by
    rcases h with h | h | ⟨h | h, e⟩ | h
    · exact Or.inl h
    · exact Or.inr (Or.inl h)
    · cases h
    · exact Or.inr (Or.inr (Or.inl ⟨Or.inr h, e⟩))
    · exact Or.inr (Or.inr (Or.inr h))
  refine ⟨h', fun e => ?_⟩
  subst e
  have e := timed_kind hk t h'
  rcases h with h | h | ⟨h | h, _⟩ | h
  · omega
  · omega
  · cases h
  · exact hk.2.1 _ ⟨hi, h⟩
  · omega

theorem ends_openRight (a : Bool) (w : Word) (o : Ord) (i : Fin 16) (hi : o.openRight = some i) :
    Ends i o { o with openRight := none, slots := o.slots.set i (endRecord a w o.slots[i]) } := by
  have t : Safety.timed o i 16 := Or.inr (Or.inr (Or.inl ⟨Or.inr hi, rfl⟩))
  refine ⟨fun hk => bookkeeping_end i _ rfl (fun j k h => ?_) (fun j => ⟨fun h => (by cases h.2), id⟩) hk,
    fun j => idle_set (fun h => absurd h (endRecord_state _ _ _)) j, fun hk j hj => same_set (fun e => hj (e ▸ (hk.1 i _ t).1))⟩
  have h' : Safety.timed o j k := by
    rcases h with h | h | ⟨h | h, e⟩ | h
    · exact Or.inl h
    · exact Or.inr (Or.inl h)
    · exact Or.inr (Or.inr (Or.inl ⟨Or.inl h, e⟩))
    · cases h
    · exact Or.inr (Or.inr (Or.inr h))
  refine ⟨h', fun e => ?_⟩
  subst e
  have e := timed_kind hk t h'
  rcases h with h | h | ⟨h | h, _⟩ | h
  · omega
  · omega
  · exact hk.2.1 _ ⟨h, hi⟩
  · cases h
  · omega

theorem ends_closeLeft (a : Bool) (w : Word) (o : Ord) (i : Fin 16) (hi : o.closeLeft = some i) :
    Ends i o { o with closeLeft := none, slots := o.slots.set i (endRecord a w o.slots[i]) } := by
  have t : Safety.timed o i 17 := Or.inr (Or.inr (Or.inr ⟨Or.inl hi, rfl⟩))
  refine ⟨fun hk => bookkeeping_end i _ rfl (fun j k h => ?_) (fun j => ⟨id, fun h => (by cases h.1)⟩) hk,
    fun j => idle_set (fun h => absurd h (endRecord_state _ _ _)) j, fun hk j hj => same_set (fun e => hj (e ▸ (hk.1 i _ t).1))⟩
  have h' : Safety.timed o j k := by
    rcases h with h | h | h | ⟨h | h, e⟩
    · exact Or.inl h
    · exact Or.inr (Or.inl h)
    · exact Or.inr (Or.inr (Or.inl h))
    · cases h
    · exact Or.inr (Or.inr (Or.inr ⟨Or.inr h, e⟩))
  refine ⟨h', fun e => ?_⟩
  subst e
  have e := timed_kind hk t h'
  rcases h with h | h | h | ⟨h | h, _⟩
  · omega
  · omega
  · omega
  · cases h
  · exact hk.2.2 _ ⟨hi, h⟩

theorem ends_closeRight (a : Bool) (w : Word) (o : Ord) (i : Fin 16) (hi : o.closeRight = some i) :
    Ends i o { o with closeRight := none, slots := o.slots.set i (endRecord a w o.slots[i]) } := by
  have t : Safety.timed o i 17 := Or.inr (Or.inr (Or.inr ⟨Or.inr hi, rfl⟩))
  refine ⟨fun hk => bookkeeping_end i _ rfl (fun j k h => ?_) (fun j => ⟨id, fun h => (by cases h.2)⟩) hk,
    fun j => idle_set (fun h => absurd h (endRecord_state _ _ _)) j, fun hk j hj => same_set (fun e => hj (e ▸ (hk.1 i _ t).1))⟩
  have h' : Safety.timed o j k := by
    rcases h with h | h | h | ⟨h | h, e⟩
    · exact Or.inl h
    · exact Or.inr (Or.inl h)
    · exact Or.inr (Or.inr (Or.inl h))
    · exact Or.inr (Or.inr (Or.inr ⟨Or.inl h, e⟩))
    · cases h
  refine ⟨h', fun e => ?_⟩
  subst e
  have e := timed_kind hk t h'
  rcases h with h | h | h | ⟨h | h, _⟩
  · omega
  · omega
  · omega
  · exact hk.2.2 _ ⟨h, hi⟩
  · cases h

theorem end_moves {i : Fin 16} (x : Ord) (hh : .ord ∈ H) (he : Ends i q.ord x) (h : Moves H p q) : Moves H p (q.withOrd x) :=
  ord_moves _ hh he.keeps (fun _ => he.idle) (fun _ _ => he.same) h

theorem endOpen_moves (s : Side) (i : Fin 16) (a : Bool) (w : Word) (hi : q.ord.openSlot s = some i) (hh : .ord ∈ H)
    (h : Moves H p q) : Moves H p (slotEnd i a w (setOpenAffected s 0 (setOpenSlot s none q))) := by
  cases s
  · exact postAt_moves _ _ _ _ (dor_moves (q := q.withOrd _) _ ⟨rfl, rfl, rfl, rfl, rfl, rfl, rfl, rfl⟩
      (end_moves _ hh (ends_openLeft a w q.ord i hi) h))
  · exact postAt_moves _ _ _ _ (dor_moves (q := q.withOrd _) _ ⟨rfl, rfl, rfl, rfl, rfl, rfl, rfl, rfl⟩
      (end_moves _ hh (ends_openRight a w q.ord i hi) h))

theorem endClose_moves (s : Side) (i : Fin 16) (a : Bool) (w : Word) (hi : q.ord.closeSlot s = some i) (hh : .ord ∈ H)
    (h : Moves H p q) : Moves H p (slotEnd i a w (setCloseAffected s 0 (setCloseSlot s none q))) := by
  cases s
  · exact postAt_moves _ _ _ _ (dor_moves (q := q.withOrd _) _ ⟨rfl, rfl, rfl, rfl, rfl, rfl, rfl, rfl⟩
      (end_moves _ hh (ends_closeLeft a w q.ord i hi) h))
  · exact postAt_moves _ _ _ _ (dor_moves (q := q.withOrd _) _ ⟨rfl, rfl, rfl, rfl, rfl, rfl, rfl, rfl⟩
      (end_moves _ hh (ends_closeRight a w q.ord i hi) h))

theorem setOpenAffected_moves (s : Side) (m : BitVec 8) (h : Moves H p q) : Moves H p (setOpenAffected s m q) := by
  cases s <;> exact dor_moves _ ⟨rfl, rfl, rfl, rfl, rfl, rfl, rfl, rfl⟩ h

theorem setCloseAffected_moves (s : Side) (m : BitVec 8) (h : Moves H p q) : Moves H p (setCloseAffected s m q) := by
  cases s <;> exact dor_moves _ ⟨rfl, rfl, rfl, rfl, rfl, rfl, rfl, rfl⟩ h

theorem checkOpen_moves (s : Side) (hh : .ord ∈ H) (h : Moves H p q) : Moves H p (checkOpen s q) := by
  unfold checkOpen; split
  · rename_i i hi
    simp only; split
    · exact endOpen_moves s i _ _ hi hh h
    · exact h
  · exact h

theorem checkClose_moves (s : Side) (hh : .ord ∈ H) (h : Moves H p q) : Moves H p (checkClose s q) := by
  unfold checkClose; split
  · rename_i i hi
    simp only; split
    · exact endClose_moves s i _ _ hi hh h
    · exact h
  · exact h

theorem checkDoorOrders_moves (hh : .ord ∈ H) (h : Moves H p q) : Moves H p (checkDoorOrders q) :=
  checkClose_moves _ hh (checkClose_moves _ hh (checkOpen_moves _ hh (checkOpen_moves _ hh h)))

/-! ### Modes (chapter 6) -/

theorem modeSsu_moves (old : Mode) (h : Moves H p q) : Moves H p (modeSsu old q) := by
  unfold modeSsu; refine ssuEvaluate_moves ?_; split; exacts [ssuLeaveRun_moves h, h]

theorem modeAut_moves (old : Mode) (h : Moves H p q) : Moves H p (modeAut old q) := by
  have h1 : Moves H p (q.withAut { q.aut with travel := .none }) := aut_moves _ ⟨rfl, rfl, rfl, rfl, rfl⟩ h
  unfold modeAut; simp only; split; exacts [followEntry_moves _ _ _ (by decide) h1, h1]

theorem modeOdo_moves (h : Moves H p q) : Moves H p (modeOdo q) :=
  odo_moves _ ⟨rfl, rfl, rfl, rfl, rfl, rfl, rfl, rfl, rfl, rfl⟩ (fun _ => rfl) h

theorem modeRlc_moves (old : Mode) (h : Moves H p q) : Moves H p (modeRlc old q) := by
  unfold modeRlc; split
  · exact msg_moves _ ⟨rfl, rfl, rfl, rfl⟩ h
  · split; exacts [handReport_moves h, h]

theorem silenceActs_moves (h : Moves H p q) : Moves H p (silenceActs q) :=
  handAlarm_moves _ (latchEntry_moves _ _ _ (by decide) h)

/-- The doors' part of a change to STAND or LOCKOUT is soft. -/
theorem modeDor_moves (hm : q.mod.mode = .stand ∨ q.mod.mode = .lockout ∨ (.doors ∈ H ∧ .ord ∈ H)) (h : Moves H p q) :
    Moves H p (modeDor q) := by
  unfold modeDor; split
  · rename_i hc
    have hb : .doors ∈ H ∧ .ord ∈ H := by
      rcases hm with hm | hm | hm
      · rw [hm] at hc; cases hc
      · rw [hm] at hc; cases hc
      · exact hm
    exact checkDoorOrders_moves hb.2 (formDoors_moves (withdrawSide_moves _ _ hb.1 (withdrawSide_moves _ _ hb.1 h)))
  · exact formDoors_moves h

/-- The mode is that of the change once MOD has requested its entry. -/
theorem requestMode_mode (p : Part) (x : Mod) (evs : List (EventKind × Half)) :
    (requestMode (postAll evs (p.withMod x))).mod = x := by
  obtain ⟨y, e, _⟩ := postAll_evq evs (p.withMod x)
  rw [e, (requestMode_requested _).mod]; rfl

theorem changeMode_moves (new : Mode) (cause : ModeCause) (also : Part → Part) (evs : List (EventKind × Half)) (hh : .mode ∈ H)
    (ha : ∀ r, also r = postAll evs r) (hr : new = .run → q.aut.current.isSome = true)
    (hd : new ≠ .stand → new ≠ .lockout → ∀ d : Fin 8, (q.dor.doors[d]).state.quiet = true)
    (hm : new = .stand ∨ new = .lockout ∨ (.doors ∈ H ∧ .ord ∈ H)) (h : Moves H p q) :
    Moves H p (changeMode new cause also q) := by
  have h1 : Moves H p (requestMode (postAll ((.modeChanged, BitVec.ofNat 16 (new.code * 256 + q.mod.mode.code * 16 + cause.code))
      :: evs) (q.withMod { q.mod with mode := new }))) :=
    h.then (.mode _ _ _ hh ⟨rfl, rfl, rfl⟩ ⟨rfl, rfl, rfl⟩ (fun e _ => hr e) fun _ a b => hd a b)
  have e1 := congrArg Mod.mode (requestMode_mode q { q.mod with mode := new }
    ((.modeChanged, BitVec.ofNat 16 (new.code * 256 + q.mod.mode.code * 16 + cause.code)) :: evs))
  rw [show postAll ((.modeChanged, BitVec.ofNat 16 (new.code * 256 + q.mod.mode.code * 16 + cause.code)) :: evs)
      (q.withMod { q.mod with mode := new })
    = also (post .modeChanged (BitVec.ofNat 16 (new.code * 256 + q.mod.mode.code * 16 + cause.code))
        (q.withMod { q.mod with mode := new })) from (ha _).symm] at h1 e1
  unfold changeMode
  extract_lets old was _ q1 q2
  have e2 : (modeOdo (modeAut old (modeSsu old (patternChanged was (requestMode q1))))).mod.mode = new := by
    have hs : Moves [] (requestMode q1) (modeOdo (modeAut old (modeSsu old (patternChanged was (requestMode q1))))) :=
      modeOdo_moves (modeAut_moves _ (modeSsu_moves _ (patternChanged_moves _ (Moves.refl _))))
    exact (hs.frame.mode (by simp)).trans e1
  have h2 : Moves H p q2 := modeRlc_moves _ (modeDor_moves (by rw [e2]; exact hm)
    (modeOdo_moves (modeAut_moves _ (modeSsu_moves _ (patternChanged_moves _ h1)))))
  split; exacts [silenceActs_moves h2, h2]

theorem toMode_moves (new : Mode) (cause : ModeCause) (hh : .mode ∈ H) (hr : new = .run → q.aut.current.isSome = true)
    (hd : new ≠ .stand → new ≠ .lockout → ∀ d : Fin 8, (q.dor.doors[d]).state.quiet = true)
    (hm : new = .stand ∨ new = .lockout ∨ (.doors ∈ H ∧ .ord ∈ H)) (h : Moves H p q) : Moves H p (toMode new cause q) :=
  changeMode_moves new cause id [] hh (fun _ => rfl) hr hd hm h

theorem toStand_moves (cause : ModeCause) (hh : .mode ∈ H) (h : Moves H p q) : Moves H p (toMode .stand cause q) :=
  toMode_moves _ _ hh (fun e => by cases e) (fun e => absurd rfl e) (Or.inl rfl) h

theorem toLockout_moves (cause : ModeCause) (hh : .mode ∈ H) (h : Moves H p q) : Moves H p (toMode .lockout cause q) :=
  toMode_moves _ _ hh (fun e => by cases e) (fun _ e => absurd rfl e) (Or.inr (Or.inl rfl)) h

theorem wakeCar_moves (r : WakeReason) (hh : .mode ∈ H) (hc : .charge ∈ H) (h : Moves H p q) : Moves H p (wakeCar r q) := by
  unfold wakeCar; split
  · rename_i hm
    simp only [beq_iff_eq] at hm
    refine changeMode_moves _ _ _ [(.wake, BitVec.ofNat 16 r.code)] hh (fun _ => rfl) (fun e => by cases e) (fun e => absurd rfl e)
      (Or.inl rfl) (h.then (.charge _ _ hc rfl (fun _ => ⟨rfl, rfl, rfl⟩) ?_))
    simp only [hm]
    unfold modeRequest
    cases q.charging <;> rfl
  · exact h

theorem autoStand_moves (hh : .mode ∈ H) (h : Moves H p q) : Moves H p (autoStand q) := by
  unfold autoStand; split; exacts [toStand_moves _ hh h, h]

theorem chargeDone_moves (hh : .charge ∈ H) (h : Moves H p q) : Moves H p (chargeDone q) :=
  patternChanged_moves _ (h.then (.chargeDone q { q.mod with charge := .complete } [(.chargeDone, 0)] hh rfl ⟨rfl, rfl, rfl⟩))

theorem judgeCharge_moves (hh : .charge ∈ H) (h : Moves H p q) : Moves H p (judgeCharge q) := by
  unfold judgeCharge; split
  · rename_i start hc
    split
    · split
      · exact chargeDone_moves hh h
      · refine h.then (.charge _ _ hh rfl (fun _ => ⟨rfl, rfl, rfl⟩) ?_)
        unfold Part.charging; rw [hc]; rfl
    · exact h
  · exact h

theorem silenceExpiry_moves (hh : .silence ∈ H) (h : Moves H p q) : Moves H p (silenceExpiry q) := by
  unfold silenceExpiry; split
  · have h1 : Moves H p (post .hostSilent (BitVec.ofNat 16 (flagNat (q.mod.mode == .run)))
        (q.withMod { q.mod with silence := none, hostSilent := true, aliveSeen := false })) :=
      post_moves _ _ (silence_moves _ hh ⟨rfl, rfl, rfl, rfl⟩ h)
    simp only; split; exacts [silenceActs_moves h1, h1]
  · exact h

theorem aliveTaken_moves (hh : .silence ∈ H) (h : Moves H p q) : Moves H p (aliveTaken q) := silence_moves _ hh ⟨rfl, rfl, rfl, rfl⟩ h

/-! ### The brake test (R62 to R66) and the requests of the owners -/

theorem endTestOrder_moves (a : Bool) (w : Word) (hh : .ord ∈ H) (h : Moves H p q) : Moves H p (endTestOrder a w q) := by
  unfold endTestOrder; split
  · rename_i i hi
    have e := end_moves _ hh (ends_brakeTest a w q.ord i hi) h
    exact postAt_moves _ _ _ _ e
  · exact h

theorem markStep_moves (n : Fin 5) (r : StepResult) (ho : .ord ∈ H) (h : Moves H p q) : Moves H p (markStep n r q) :=
  brk_moves _ ⟨rfl, rfl, rfl⟩ (fun hn => absurd ho hn) h

theorem endTest_moves (o : TestOutcome) (a : AbortReason) (w : Word) (hm : .mode ∈ H) (ho : .ord ∈ H) (h : Moves H p q) :
    Moves H p (endTest o a w q) := by
  unfold endTest
  extract_lets _ _ q1 q2 q3
  have h1 : Moves H p q1 := brk_moves _ ⟨rfl, rfl, rfl⟩ (fun hn => absurd ho hn) h
  have h2 : Moves H p q2 := by simp only [q2]; split; exacts [toStand_moves _ hm h1, h1]
  exact endTestOrder_moves _ _ ho (followEntry_moves _ _ _ (by decide) (postIf_moves _ _ _ h2))

theorem abortTest_moves (a : AbortReason) (hm : .mode ∈ H) (ho : .ord ∈ H) (h : Moves H p q) : Moves H p (abortTest a q) := by
  unfold abortTest; split; exacts [endTest_moves _ _ _ hm ho (markStep_moves _ _ ho h), h]

theorem failTest_moves (hm : .mode ∈ H) (ho : .ord ∈ H) (h : Moves H p q) : Moves H p (failTest q) := by
  unfold failTest; split; exacts [endTest_moves _ _ _ hm ho (markStep_moves _ _ ho h), h]

theorem afterRequest_moves (d : DemandSource) (e : Entry) (hm : .mode ∈ H) (ho : .ord ∈ H) (h : Moves H p q) :
    Moves H p (afterRequest d e q) := by
  unfold afterRequest; split
  · split; exacts [abortTest_moves _ hm ho h, h]
  · exact h

theorem follow_moves (d : DemandSource) (s : Stage) (c : Nat) (hd : d ≠ .mode) (hm : .mode ∈ H) (ho : .ord ∈ H)
    (h : Moves H p q) (hf : d ≠ .doors ∨ (s, c) = doorsRequest q := by exact .inl (by decide)) : Moves H p (follow d s c q) :=
  afterRequest_moves _ _ hm ho (followEntry_moves _ _ _ hd h hf)

theorem latch_moves (d : DemandSource) (s : Stage) (c : Nat) (hd : Safety.latches d = true) (hm : .mode ∈ H) (ho : .ord ∈ H)
    (h : Moves H p q) : Moves H p (latch d s c q) := afterRequest_moves _ _ hm ho (latchEntry_moves _ _ _ hd h)

theorem brakeUnconfirmed_moves (hm : .mode ∈ H) (ho : .ord ∈ H) (h : Moves H p q) : Moves H p (brakeUnconfirmed q) := by
  have h1 : Moves H p (post .brakeFeedbackFault (arg2 1 5) (q.withBrk { q.brk with state := .applying .emergency none })) :=
    post_moves _ _ (brk_moves _ ⟨rfl, rfl, rfl⟩ (fun _ => ⟨rfl, rfl, rfl, rfl⟩) h)
  unfold brakeUnconfirmed; simp only; split
  · exact h1
  · exact failTest_moves hm ho (toLockout_moves _ hm (post_moves _ _ (handAlarm_moves _ h1)))

theorem applyingExpiry_moves (hm : .mode ∈ H) (ho : .ord ∈ H) (h : Moves H p q) : Moves H p (applyingExpiry q) := by
  unfold applyingExpiry; split
  · split
    · split
      · exact brakeUnconfirmed_moves hm ho h
      · exact failTest_moves hm ho (latchEntry_moves _ _ _ (by decide) (post_moves _ _ h))
    · exact h
  · exact h

theorem releasingExpiry_moves (hm : .mode ∈ H) (ho : .ord ∈ H) (h : Moves H p q) : Moves H p (releasingExpiry q) := by
  unfold releasingExpiry; split
  · split
    · exact failTest_moves hm ho (post_moves _ _ (brk_moves _ ⟨rfl, rfl, rfl⟩ (fun _ => ⟨rfl, rfl, rfl, rfl⟩) h))
    · exact h
  · exact h

theorem confirmationLost_moves (hm : .mode ∈ H) (ho : .ord ∈ H) (h : Moves H p q) : Moves H p (confirmationLost q) := by
  have h1 : Moves H p (latchEntry .feedback .emergency 2 (post .brakeFeedbackFault (arg2 2 q.brk.confirmed.value) q)) :=
    latchEntry_moves _ _ _ (by decide) (post_moves _ _ h)
  unfold confirmationLost
  simp only
  refine failTest_moves hm ho ?_
  split; exacts [judgeOperation_moves (brk_moves _ ⟨rfl, rfl, rfl⟩ (fun _ => ⟨rfl, rfl, rfl, rfl⟩) h1), h1]

theorem feedbackChange_moves (sw : FeedbackSwitch) (c : Bool) (hi : .inputs ∈ H) (hm : .mode ∈ H) (ho : .ord ∈ H)
    (h : Moves H p q) : Moves H p (feedbackChange sw c q) := by
  have h1 : Moves H p (q.withBrk { q.brk with inputs := q.brk.inputs.put sw c }) := h.then (.inputs _ _ hi ⟨rfl, rfl⟩ ⟨rfl, rfl, rfl, rfl⟩)
  unfold feedbackChange; split
  · exact h
  · simp only; split
    · exact h1
    · split
      · split
        · exact confirmationLost_moves hm ho h1
        · split; exacts [post_moves _ _ h1, h1]
      · exact judgeOperation_moves h1

theorem startStep_moves (n : Fin 5) (ho : .ord ∈ H) (h : Moves H p q) : Moves H p (startStep n q) :=
  followEntry_moves _ _ _ (by decide) (brk_moves _ ⟨rfl, rfl, rfl⟩ (fun hn => absurd ho hn) h)

theorem holdEnd_moves (hm : .mode ∈ H) (ho : .ord ∈ H) (h : Moves H p q) : Moves H p (holdEnd q) := by
  unfold holdEnd; split
  · split
    · split; exacts [startStep_moves _ ho h, endTest_moves _ _ _ hm ho h]
    · exact h
  · exact h

theorem shut_quiet {s : DoorState} (h : s.shut = true) : s.quiet = true := by revert h; cases s <;> decide

theorem mem_allDoors (d : Fin 8) : d ∈ allDoors := by revert d; decide

/-- Doors that are all shut are quiet. -/
theorem doorsShut_quiet (h : q.doorsShut = true) : ∀ d : Fin 8, (q.dor.doors[d]).state.quiet = true := fun d =>
  shut_quiet (List.all_eq_true.1 h d (mem_allDoors d))

theorem beginTest_moves (hm : .mode ∈ H) (ho : .ord ∈ H) (hd : .doors ∈ H) (hs : q.doorsShut = true) (h : Moves H p q) :
    Moves H p (beginTest q) := by
  have h1 : Moves H p (startStep 0 (q.withBrk { q.brk with record :=
    { start := q.now, outcome := .running, abort := .none, results := Vector.replicate 5 .notRun,
      times := Vector.replicate 5 0 } })) := startStep_moves _ ho (brk_moves _ ⟨rfl, rfl, rfl⟩ (fun hn => absurd ho hn) h)
  refine toMode_moves _ _ hm (fun e => by cases e) (fun _ _ d => ?_) (Or.inr (Or.inr ⟨hd, ho⟩)) h1
  have hs0 : Moves [.ord] (q.withBrk { q.brk with record :=
    { start := q.now, outcome := .running, abort := .none, results := Vector.replicate 5 .notRun,
      times := Vector.replicate 5 0 } }) (startStep 0 (q.withBrk { q.brk with record :=
    { start := q.now, outcome := .running, abort := .none, results := Vector.replicate 5 .notRun,
      times := Vector.replicate 5 0 } })) := startStep_moves _ (by decide) (Moves.refl _)
  rw [(hs0.frame.doors (by simp)).1]
  exact doorsShut_quiet hs d

/-! ### The authority table (chapter 5) -/

theorem autNumbers_moves (h : Moves H p q) : Moves H p (autNumbers q) := aut_moves _ ⟨rfl, rfl, rfl, rfl, rfl⟩ h

theorem slotsChanged_moves (h : Moves H p q) : Moves H p (slotsChanged q) := ssuEvaluate_moves (autNumbers_moves h)

theorem overrun_moves (hm : .mode ∈ H) (ho : .ord ∈ H) (h : Moves H p q) : Moves H p (overrun q) := by
  have h1 : Moves H p (post .authOverrun (currentId q) (q.withAut { q.aut with overrun := true })) :=
    post_moves _ _ (aut_moves _ ⟨rfl, rfl, rfl, rfl, rfl⟩ h)
  unfold overrun
  simp only
  refine handAlarm_moves _ ?_
  split; exacts [h1, latch_moves _ _ _ (by decide) hm ho h1]

theorem handOver_moves (hs : .slots ∈ H) (hn : q.aut.next.isSome = true) (h : Moves H p q) : Moves H p (handOver q) := by
  have h1 : Moves H p (q.withAut { q.aut with current := q.aut.next, next := none }) :=
    h.then (.slots _ _ hs (fun _ n e => by cases e) fun _ _ => hn)
  exact ssuEvaluate_moves (handReport_moves (post_moves _ _ (autNumbers_moves h1)))

theorem autJudge_moves (t : Bool) (hs : .slots ∈ H) (hm : .mode ∈ H) (ho : .ord ∈ H) (h : Moves H p q) :
    Moves H p (autJudge t q) := by
  have h1 := autNumbers_moves h
  unfold autJudge
  extract_lets b q1 r
  split
  · split
    · have h2 : Moves H p (handOver q1) := handOver_moves hs ‹_› h1
      split; exacts [overrun_moves hm ho h2, h2]
    · split; exacts [overrun_moves hm ho h1, h1]
  · exact h1

theorem travelCount_moves (c : Dir) (hm : .mode ∈ H) (ho : .ord ∈ H) (h : Moves H p q) : Moves H p (travelCount c q) := by
  unfold travelCount; split
  · extract_lets rec' _ q1
    have h1 : Moves H p q1 := aut_moves _ ⟨rfl, rfl, rfl, rfl, rfl⟩ h
    split
    · exact h
    · split; exacts [follow_moves _ _ _ (by decide) hm ho h1, follow_moves _ _ _ (by decide) hm ho h1]
  · exact h

theorem slots_moves (x : Aut) (hs : .slots ∈ H) (hx : q.aut.ok → x.ok)
    (hr : q.mod.mode = .run → q.aut.current.isSome = true → x.current.isSome = true) (h : Moves H p q) :
    Moves H p (q.withAut x) := h.then (.slots _ _ hs hx hr)

theorem acceptGrant_moves (a : Authority) (x : Aut) (hs : .slots ∈ H) (hx : q.aut.ok → x.ok)
    (hr : q.mod.mode = .run → q.aut.current.isSome = true → x.current.isSome = true) (h : Moves H p q) :
    Moves H p (acceptGrant a x q) := slotsChanged_moves (post_moves _ _ (slots_moves _ hs hx hr h))

theorem grantTaken_moves (g : Grant) (s : Byte) (hs : .slots ∈ H) (hm : .mode ∈ H) (ho : .ord ∈ H) (h : Moves H p q) :
    Moves H p (grantTaken g s q).1 := by
  unfold grantTaken
  cases hj : judgeGrant g s q with
  | refused r => exact handRefusal_moves _ _ _ _ h
  | ignored => exact h
  | intoCurrent a =>
    refine acceptGrant_moves _ _ hs (fun hk n e => ?_) (fun _ _ => rfl) h
    have hc : q.aut.current = none := by
      unfold judgeGrant at hj
      split at hj
      · cases hj
      · split at hj
        · cases hj
        · split at hj
          · cases hj
          · split at hj
            · split at hj <;> cases hj
            · split at hj
              · assumption
              · split at hj <;> cases hj
              · cases hj
    obtain ⟨c, hc', _⟩ := hk n e
    rw [hc] at hc'; cases hc'
  | intoNext a =>
    refine autJudge_moves _ hs hm ho (acceptGrant_moves _ _ hs (fun hk n e => ?_) (fun _ hc => hc) h)
    unfold judgeGrant at hj
    split at hj
    · cases hj
    · split at hj
      · cases hj
      · split at hj
        · cases hj
        · split at hj
          · split at hj <;> cases hj
          · split at hj
            · split at hj <;> cases hj
            · rename_i c hc _
              split at hj
              · rename_i ha
                cases hj; cases e
                exact ⟨c, hc, ha.1, ha.2⟩
              · cases hj
            · cases hj

theorem writeRevoke_moves (id : Half) (r : Nat) (o : RevokeOutcome) (hs : .slots ∈ H) (h : Moves H p q) :
    Moves H p (writeRevoke id r o q) := slots_moves _ hs (fun hk => hk) (fun _ e => e) h

theorem postRevoked_moves (id : Half) (b : Bool) (h : Moves H p q) : Moves H p (postRevoked id b q) := postIf_moves _ _ _ h

theorem moveEnd_moves (c : Authority) (r : Nat) (hs : .slots ∈ H) (hn : q.aut.next = none) (h : Moves H p q) :
    Moves H p (moveEnd c r q) :=
  slots_moves _ hs (fun _ n e => by rw [show ({ q.aut with current := some { c with stop := r } } : Aut).next = q.aut.next from rfl, hn] at e; cases e)
    (fun _ _ => rfl) h

theorem revokeCurrent_moves (c : Authority) (r : Nat) (hs : .slots ∈ H) (hm : .mode ∈ H) (ho : .ord ∈ H)
    (hn : q.aut.next = none) (h : Moves H p q) : Moves H p (revokeCurrent c r q) := by
  unfold revokeCurrent
  extract_lets beyond r'
  split
  · exact slotsChanged_moves (postRevoked_moves _ _ (writeRevoke_moves _ _ _ hs h))
  · split
    · exact handAlarm_moves _ (slotsChanged_moves (latch_moves _ _ _ (by decide) hm ho (aut_moves _ ⟨rfl, rfl, rfl, rfl, rfl⟩
        (postRevoked_moves _ _ (writeRevoke_moves _ _ _ hs (moveEnd_moves c _ hs hn h))))))
    · exact slotsChanged_moves (postRevoked_moves _ _ (writeRevoke_moves _ _ _ hs (moveEnd_moves c _ hs hn h)))

/-- Emptying NEXT keeps the law of the slots. -/
theorem clearNext_moves (hs : .slots ∈ H) (h : Moves H p q) : Moves H p (q.withAut { q.aut with next := none }) :=
  slots_moves _ hs (fun _ n e => by cases e) (fun _ e => e) h

theorem revokeTaken_moves (id : Half) (r : Nat) (hs : .slots ∈ H) (hm : .mode ∈ H) (ho : .ord ∈ H) (h : Moves H p q) :
    Moves H p (revokeTaken id r q) := by
  have missed : Moves H p (postRevoked id false (writeRevoke id (min r 1048575) .missed
      (q.withAut { q.aut with missed := sat8 q.aut.missed }))) :=
    postRevoked_moves _ _ (writeRevoke_moves _ _ _ hs (slots_moves _ hs (fun hk => hk) (fun _ e => e) h))
  unfold revokeTaken
  extract_lets point
  split
  · split
    · exact revokeCurrent_moves _ _ hs hm ho rfl (clearNext_moves hs h)
    · split
      · split
        · exact slotsChanged_moves (postRevoked_moves _ _ (writeRevoke_moves _ _ _ hs (clearNext_moves hs h)))
        · exact missed
      · exact missed
  · exact missed

theorem giveBack_moves (a : Option Authority) (o : RevokeOutcome) (hs : .slots ∈ H) (h : Moves H p q) :
    Moves H p (giveBack a o q) := by
  unfold giveBack; split; exacts [postRevoked_moves _ _ (writeRevoke_moves _ _ _ hs h), h]

theorem giveBack_kept (a : Option Authority) (o : RevokeOutcome) (q : Part) :
    (giveBack a o q).aut.next = q.aut.next ∧ (giveBack a o q).mod = q.mod := by
  unfold giveBack; split <;> exact ⟨rfl, rfl⟩

theorem relinquishTaken_moves (hs : .slots ∈ H) (hm : q.mod.mode ≠ .run) (h : Moves H p q) : Moves H p (relinquishTaken q) := by
  unfold relinquishTaken
  extract_lets _ q1 _ q2 _
  have k1 : q1.aut.next = none ∧ q1.mod = q.mod := giveBack_kept _ _ _
  have h1 : Moves H p q1 := giveBack_moves _ _ hs (clearNext_moves hs h)
  have h2 : Moves H p q2 := by
    refine giveBack_moves _ _ hs (slots_moves _ hs (fun _ n e => ?_) (fun hr _ => ?_) h1)
    · rw [show ({ q1.aut with current := none } : Aut).next = q1.aut.next from rfl, k1.1] at e; cases e
    · rw [k1.2] at hr; exact absurd hr hm
  exact handReport_moves (slotsChanged_moves (slots_moves _ hs (fun hk => hk) (fun _ e => e) h2))

theorem dropNext_moves (hs : .slots ∈ H) (h : Moves H p q) : Moves H p (dropNext q) := by
  unfold dropNext; split; exacts [slotsChanged_moves (post_moves _ _ (clearNext_moves hs h)), h]

end Sys2Proof.Machine
end

