-- ==== Sys2Proof/Laws/Motion.lean ====
section
/-! SUPPORT. The moves of odometry (chapter 1) and of what it hands on to the other blocks. -/

namespace Sys2Proof.Machine

open Sys2Proof.Safety (Group)

variable {H : List Group} {p q : Part}

/-- What the other blocks may do when the car has moved. -/
structure Travel (H : List Group) : Prop where
  doors : .doors ∈ H
  mode : .mode ∈ H
  ord : .ord ∈ H
  slots : .slots ∈ H
  charge : .charge ∈ H

theorem odoHard_moves (x : Odo) (hh : .odo ∈ H) (h : Moves H p q) : Moves H p (q.withOdo x) := h.then (.odoHard _ _ hh)

/-! ### Validity, source and position -/

theorem makeUncertain_moves (ht : .track ∈ H) (c : Nat) (h : Moves H p q) : Moves H p (makeUncertain c q) := by
  unfold makeUncertain; split
  exacts [post_moves _ _ (odo_moves _ ⟨rfl, rfl, rfl, rfl, rfl, rfl, rfl, rfl, rfl, rfl⟩ (fun hn => absurd ht hn) h), h]

theorem chooseSource_moves (ht : .track ∈ H) (h : Moves H p q) : Moves H p (chooseSource q) := by
  unfold chooseSource; split
  exacts [h, post_moves _ _ (odo_moves _ ⟨rfl, rfl, rfl, rfl, rfl, rfl, rfl, rfl, rfl, rfl⟩ (fun hn => absurd ht hn) h)]

theorem losePosition_moves (ht : .track ∈ H) (h : Moves H p q) : Moves H p (losePosition q) :=
  post_moves _ _ (odo_moves _ ⟨rfl, rfl, rfl, rfl, rfl, rfl, rfl, rfl, rfl, rfl⟩ (fun hn => absurd ht hn) h)

theorem settleSource_moves (ht : .track ∈ H) (w : Odo) (h : Moves H p q) : Moves H p (settleSource w q).1 := by
  have h1 := chooseSource_moves ht h
  unfold settleSource; simp only; split
  · exact losePosition_moves ht h1
  · split; exacts [makeUncertain_moves ht _ h1, h1]

theorem mismatch_moves (ht : .track ∈ H) (r : MismatchReason) (h : Moves H p q) : Moves H p (mismatch r q) := by
  have h1 : Moves H p (post .datumMismatch (BitVec.ofNat 16 r.code)
      (q.withOdo { q.odo with mismatches := sat8 q.odo.mismatches, capture := .idle })) :=
    post_moves _ _ (odo_moves _ ⟨rfl, rfl, rfl, rfl, rfl, rfl, rfl, rfl, rfl, rfl⟩ (fun hn => absurd ht hn) h)
  unfold mismatch; simp only; split; exacts [makeUncertain_moves ht _ h1, h1]

theorem captureWatch_moves (ht : .track ∈ H) (h : Moves H p q) : Moves H p (captureWatch q) := by
  unfold captureWatch; split
  · split
    · exact mismatch_moves ht _ h
    · split <;> (split; exacts [mismatch_moves ht _ h, h])
  · exact h

theorem zeroDeviation_soft (o : Odo) : OdoSoft o o.zeroDeviation := ⟨rfl, rfl, rfl, rfl, rfl, rfl, rfl, rfl, rfl, rfl⟩

theorem entryPass_moves (ht : .track ∈ H) (h : Moves H p q) : Moves H p (entryPass q).1 := by
  unfold entryPass
  extract_lets _ o q1 off
  have h1 : Moves H p q1 :=
    chooseSource_moves ht (post_moves _ _ (odo_moves o ⟨rfl, rfl, rfl, rfl, rfl, rfl, rfl, rfl, rfl, rfl⟩ (fun hn => absurd ht hn) h))
  simp only [off]; split
  · exact post_moves _ _ h1
  · split; exacts [post_moves _ _ h1, h1]

theorem entryFail_moves (ht : .track ∈ H) (n : Nat) (h : Moves H p q) : Moves H p (entryFail n q).1 := by
  have h1 : Moves H p (chooseSource (post .rackEntryFailed (argUnsigned n)
      (q.withOdo { q.odo with regime := .rack, entry := none }.zeroDeviation))) :=
    chooseSource_moves ht (post_moves _ _ (odo_moves _ ⟨rfl, rfl, rfl, rfl, rfl, rfl, rfl, rfl, rfl, rfl⟩ (fun hn => absurd ht hn) h))
  unfold entryFail; simp only; split; exacts [losePosition_moves ht h1, makeUncertain_moves ht _ h1]

theorem entryJudge_moves (ht : .track ∈ H) (h : Moves H p q) : Moves H p (entryJudge q).1 := by
  unfold entryJudge; split
  · split
    · simp only; split
      · exact entryFail_moves ht _ h
      · split; exacts [entryPass_moves ht h, entryFail_moves ht _ h]
    · exact h
  · exact h

theorem crossRegime_moves (ht : .track ∈ H) (b : Bool) (d : Dir) (h : Moves H p q) : Moves H p (crossRegime b d q).1 := by
  unfold crossRegime; split
  · split
    · exact settleSource_moves ht _ (odo_moves _ ⟨rfl, rfl, rfl, rfl, rfl, rfl, rfl, rfl, rfl, rfl⟩ (fun hn => absurd ht hn) h)
    · exact h
  · split
    · exact settleSource_moves ht _ (post_moves _ _ (odo_moves _ ⟨rfl, rfl, rfl, rfl, rfl, rfl, rfl, rfl, rfl, rfl⟩ (fun hn => absurd ht hn) h))
    · split
      · exact settleSource_moves ht _ (odo_moves _ ⟨rfl, rfl, rfl, rfl, rfl, rfl, rfl, rfl, rfl, rfl⟩ (fun hn => absurd ht hn) h)
      · exact h

theorem followSegment_moves (ht : .track ∈ H) (d : Dir) (h : Moves H p q) : Moves H p (followSegment d q).1 := by
  have h1 : Moves H p (q.withOdo { q.odo with segment := segmentIndex q.odo.pos.toInt q.prf.active }) :=
    odo_moves _ ⟨rfl, rfl, rfl, rfl, rfl, rfl, rfl, rfl, rfl, rfl⟩ (fun hn => absurd ht hn) h
  unfold followSegment; simp only; split
  · split; exacts [h1, crossRegime_moves ht _ _ h1]
  · exact h1

theorem directRegime_moves (ht : .track ∈ H) (v : Validity) (h : Moves H p q) : Moves H p (directRegime v q).1 := by
  unfold directRegime
  extract_lets seg rack _ o q1 first q3
  have h1 : Moves H p q1 := by
    refine chooseSource_moves ht (odo_moves _ ?_ (fun hn => absurd ht hn) h)
    split <;> exact ⟨rfl, rfl, rfl, rfl, rfl, rfl, rfl, rfl, rfl, rfl⟩
  have h3 : Moves H p q3 := Moves.then (post_moves .climbOff (if first then 1 else 2) h1) (.free _ _)
  split
  · exact losePosition_moves ht h1
  · split
    · simp only; split
      exacts [odo_moves _ ⟨rfl, rfl, rfl, rfl, rfl, rfl, rfl, rfl, rfl, rfl⟩ (fun hn => absurd ht hn) h3, makeUncertain_moves ht _ h3]
    · split
      · exact post_moves _ _ h1
      · split; exacts [post_moves _ _ h1, h1]

/-! ### What follows a change -/

theorem odoRequests_moves (rs : OdoRequests) (hm : .mode ∈ H) (ho : .ord ∈ H) (h : Moves H p q) :
    Moves H p (odoRequests rs q) :=
  foldl_moves _ (fun _ r hk => latch_moves _ _ _ (by decide) hm ho hk) rs h

theorem sideCheck_moves (s : Side) (hd : .doors ∈ H) (h : Moves H p q) : Moves H p (sideCheck s q) := by
  unfold sideCheck; split; exacts [withdrawSide_moves _ _ hd h, h]

theorem sideChecks_moves (hd : .doors ∈ H) (ho : .ord ∈ H) (h : Moves H p q) : Moves H p (sideChecks q) :=
  checkDoorOrders_moves ho (formDoors_moves (sideCheck_moves _ hd (sideCheck_moves _ hd h)))

theorem handleJudge_moves (hm : .mode ∈ H) (ho : .ord ∈ H) (h : Moves H p q) : Moves H p (handleJudge q) := by
  unfold handleJudge; split
  exacts [latch_moves _ _ _ (by decide) hm ho (dor_moves _ ⟨rfl, rfl, rfl, rfl, rfl, rfl, rfl, rfl⟩ h), h]

theorem spreadValidity_moves (hd : .doors ∈ H) (ho : .ord ∈ H) (h : Moves H p q) : Moves H p (spreadValidity q) :=
  sideChecks_moves hd ho (ssuEvaluate_moves (autNumbers_moves h))

theorem spreadPosition_moves (t : Bool) (k : Travel H) (h : Moves H p q) : Moves H p (spreadPosition t q) :=
  handleJudge_moves k.mode k.ord (sideChecks_moves k.doors k.ord (ssuEvaluate_moves
    (autJudge_moves _ k.slots k.mode k.ord (ssuEvaluate_moves h))))

theorem afterChange_moves (ht : .track ∈ H) (r : Part × OdoRequests) (k : Travel H) (h : Moves H p r.1) : Moves H p (afterChange r) :=
  spreadValidity_moves k.doors k.ord (odoRequests_moves _ k.mode k.ord (captureWatch_moves ht h))

theorem moveTo_moves (ht : .track ∈ H) (d : Dir) (k : Travel H) (h : Moves H p q) : Moves H p (moveTo d q) :=
  spreadPosition_moves _ k (odoRequests_moves _ k.mode k.ord (captureWatch_moves ht (followSegment_moves ht _ h)))

/-! ### Datum capture -/

theorem mismatchTaken_moves (ht : .track ∈ H) (r : MismatchReason) (k : Travel H) (h : Moves H p q) : Moves H p (mismatchTaken r q) :=
  spreadValidity_moves k.doors k.ord (mismatch_moves ht _ h)

theorem datumMatch_moves (ht : .track ∈ H) (w : Word) (hh : .odo ∈ H) (k : Travel H) (h : Moves H p q) : Moves H p (datumMatch w q) :=
  moveTo_moves ht _ k (postAt_moves _ _ _ _ (odoHard_moves _ hh h))

theorem datumRise_moves (ht : .track ∈ H) (hh : .odo ∈ H) (k : Travel H) (h : Moves H p q) : Moves H p (datumRise q) := by
  have h1 : Moves H p (q.withOdo { q.odo with capture := .idle }) :=
    odo_moves _ ⟨rfl, rfl, rfl, rfl, rfl, rfl, rfl, rfl, rfl, rfl⟩ (fun hn => absurd ht hn) h
  unfold datumRise; split
  · exact h
  · simp only; split
    · exact mismatchTaken_moves ht _ k h1
    · split
      · exact datumMatch_moves ht _ hh k h1
      · split
        · split
          · exact mismatchTaken_moves ht _ k h1
          · split
            · exact odo_moves _ ⟨rfl, rfl, rfl, rfl, rfl, rfl, rfl, rfl, rfl, rfl⟩ (fun hn => absurd ht hn) h1
            · exact odo_moves _ ⟨rfl, rfl, rfl, rfl, rfl, rfl, rfl, rfl, rfl, rfl⟩ (fun hn => absurd ht hn) h1
            · exact mismatchTaken_moves ht _ k h1
        · exact odo_moves _ ⟨rfl, rfl, rfl, rfl, rfl, rfl, rfl, rfl, rfl, rfl⟩ (fun hn => absurd ht hn) h1

theorem datumFall_moves (ht : .track ∈ H) (hh : .odo ∈ H) (k : Travel H) (h : Moves H p q) : Moves H p (datumFall q) := by
  unfold datumFall; split; exacts [datumMatch_moves ht _ hh k h, h]

theorem indexPulse_moves (ht : .track ∈ H) (x : Pinion) (hh : .odo ∈ H) (k : Travel H) (h : Moves H p q) : Moves H p (indexPulse x q) := by
  unfold indexPulse; split
  · split
    · exact h
    · split
      · exact datumMatch_moves ht _ hh k h
      · exact odo_moves _ ⟨rfl, rfl, rfl, rfl, rfl, rfl, rfl, rfl, rfl, rfl⟩ (fun hn => absurd ht hn) h
  · exact h

theorem captureCount_moves (ht : .track ∈ H) (c : Dir) (k : Travel H) (h : Moves H p q) : Moves H p (captureCount c q) := by
  unfold captureCount; split
  · exact h
  · split
    · exact mismatchTaken_moves ht _ k h
    · split
      · exact mismatchTaken_moves ht _ k h
      · exact odo_moves _ ⟨rfl, rfl, rfl, rfl, rfl, rfl, rfl, rfl, rfl, rfl⟩ (fun hn => absurd ht hn) h
  · split
    · exact mismatchTaken_moves ht _ k h
    · exact odo_moves _ ⟨rfl, rfl, rfl, rfl, rfl, rfl, rfl, rfl, rfl, rfl⟩ (fun hn => absurd ht hn) h

/-! ### One count of an encoder -/

theorem climbOut_moves (k : Travel H) (h : Moves H p q) : Moves H p (climbOut q) :=
  handAlarm_moves _ (latch_moves _ _ _ (by decide) k.mode k.ord (post_moves _ _ h))

theorem deviationCount_moves (ht : .track ∈ H) (k : Travel H) (h : Moves H p q) : Moves H p (deviationCount q) := by
  have h1 : Moves H p (q.withOdo { q.odo with deviation := (q.odo.p1.tally - q.odo.ref1) - (q.odo.p2.tally - q.odo.ref2) }) :=
    odo_moves _ ⟨rfl, rfl, rfl, rfl, rfl, rfl, rfl, rfl, rfl, rfl⟩ (fun hn => absurd ht hn) h
  unfold deviationCount; split
  · simp only; split; exacts [climbOut_moves k h1, h1]
  · exact h

theorem creepCrossed_moves (k : Travel H) (h : Moves H p q) : Moves H p (creepCrossed q) := by
  have h1 : Moves H p (latch .rollback .emergency 1 (post .rollback 0 q)) :=
    latch_moves _ _ _ (by decide) k.mode k.ord (post_moves _ _ h)
  unfold creepCrossed; simp only; split
  · exact wakeCar_moves _ k.mode k.charge (handAlarm_moves _ (msg_moves _ ⟨rfl, rfl, rfl, rfl⟩ h1))
  · exact h1

theorem reverseCrossed_moves (k : Travel H) (h : Moves H p q) : Moves H p (reverseCrossed q) :=
  latch_moves _ _ _ (by decide) k.mode k.ord (post_moves _ _ h)

theorem creepCount_moves (k : Travel H) (h : Moves H p q) : Moves H p (creepCount q) := by
  have h1 : Moves H p (q.withOdo { q.odo with creep := sat16 q.odo.creep }) :=
    odo_moves _ ⟨rfl, rfl, rfl, rfl, rfl, rfl, rfl, rfl, rfl, rfl⟩ (fun _ => rfl) h
  unfold creepCount; split
  · simp only; split; exacts [creepCrossed_moves k h1, h1]
  · exact h

theorem reverseCount_moves (c : Dir) (k : Travel H) (h : Moves H p q) : Moves H p (reverseCount c q) := by
  have h1 : Moves H p (q.withOdo { q.odo with reverse := sat16 q.odo.reverse }) :=
    odo_moves _ ⟨rfl, rfl, rfl, rfl, rfl, rfl, rfl, rfl, rfl, rfl⟩ (fun _ => rfl) h
  unfold reverseCount; split
  · split
    · exact odo_moves _ ⟨rfl, rfl, rfl, rfl, rfl, rfl, rfl, rfl, rfl, rfl⟩ (fun _ => rfl) h
    · simp only; split; exacts [reverseCrossed_moves k h1, h1]
  · exact h

theorem standstillCount_moves (hh : .odo ∈ H) (h : Moves H p q) : Moves H p (standstillCount q) := by
  have h1 : Moves H p (q.withOdo { q.odo with standTimer := some q.now }) := odoHard_moves _ hh h
  unfold standstillCount; simp only; split; exacts [post_moves _ _ (odoHard_moves _ hh h1), h1]

theorem entryCount_moves (ht : .track ∈ H) (e : Encoder) (c : Dir) (r : Bool) (k : Travel H) (h : Moves H p q) :
    Moves H p (entryCount e c r q) := by
  unfold entryCount; split
  · split
    · exact afterChange_moves ht _ k (entryJudge_moves ht (odo_moves _ ⟨rfl, rfl, rfl, rfl, rfl, rfl, rfl, rfl, rfl, rfl⟩ (fun hn => absurd ht hn) h))
    · exact h
  · exact h

theorem countTaken_moves (ht : .track ∈ H) (e : Encoder) (c : Dir) (hh : .odo ∈ H) (k : Travel H) (h : Moves H p q) : Moves H p (countTaken e c q) := by
  unfold countTaken
  extract_lets moves isSource ran q1 _ q2 q3 q4 q5 q6
  have h1 : Moves H p q1 := abortTest_moves _ k.mode k.ord (standstillCount_moves hh (odoHard_moves _ hh h))
  have h2 : Moves H p q2 := by simp only [q2]; split; exacts [moveTo_moves ht _ k (odoHard_moves _ hh h1), h1]
  have h3 : Moves H p q3 := by simp only [q3]; split; exacts [h2, deviationCount_moves ht k h2]
  have h4 : Moves H p q4 := entryCount_moves ht _ _ _ k h3
  have h5 : Moves H p q5 := by
    simp only [q5]; split; exacts [reverseCount_moves _ k (creepCount_moves k (captureCount_moves ht _ k h4)), h4]
  have h6 : Moves H p q6 := by simp only [q6]; split; exacts [travelCount_moves _ k.mode k.ord h5, h5]
  exact ssuEvaluate_moves h6

theorem encoderFaulted_moves (ht : .track ∈ H) (e : Encoder) (hh : .odo ∈ H) (k : Travel H) (h : Moves H p q) : Moves H p (encoderFaulted e q) := by
  unfold encoderFaulted
  extract_lets was o _ q1 q2
  have h1 : Moves H p q1 := post_moves _ _ (odoHard_moves _ hh h)
  have h2 : Moves H p q2 := by simp only [q2]; split; exacts [post_moves _ _ h1, h1]
  split
  · exact afterChange_moves ht _ k (entryFail_moves ht _ h1)
  · exact afterChange_moves ht _ k (settleSource_moves ht _ h2)

theorem encoderLines_moves (ht : .track ∈ H) (e : Encoder) (l : BitVec 2) (hh : .odo ∈ H) (k : Travel H) (h : Moves H p q) : Moves H p (encoderLines e l q) := by
  have h1 : Moves H p (q.withOdo (q.odo.setEnc e { q.odo.enc e with quad := l })) := odoHard_moves _ hh h
  unfold encoderLines; simp only; split
  · exact h1
  · split
    exacts [h1, countTaken_moves ht _ _ hh k h1, countTaken_moves ht _ _ hh k h1, encoderFaulted_moves ht _ hh k h1]

/-! ### Speed and standstill -/

theorem windowTick_moves (hh : .odo ∈ H) (h : Moves H p q) : Moves H p (windowTick q) := by
  unfold windowTick; simp only; split; exacts [odoHard_moves _ hh h, ssuEvaluate_moves (odoHard_moves _ hh h)]

theorem standstillStarts_moves (hh : .odo ∈ H) (hm : .mode ∈ H) (ho : .ord ∈ H) (h : Moves H p q) :
    Moves H p (standstillStarts q) := handleJudge_moves hm ho (post_moves _ _ (odoHard_moves _ hh h))

theorem standstillExpiry_moves (hh : .odo ∈ H) (hm : .mode ∈ H) (ho : .ord ∈ H) (h : Moves H p q) :
    Moves H p (standstillExpiry q) := by
  unfold standstillExpiry; split
  · split; exacts [odoHard_moves _ hh h, standstillStarts_moves hh hm ho h]
  · exact h

end Sys2Proof.Machine
end

