-- ==== Sys2Proof/Laws/Deliveries.lean ====
section
/-! SUPPORT. The moves of the passenger doors (chapter 7), and of the radio's receiver and its messages (chapters 8 and 9). -/

namespace Sys2Proof.Machine

open Sys2Proof.Safety (Group)

variable {H : List Group} {p q : Part}

/-! ### Door inputs, timers and handles -/

theorem afterDoors_moves (b : Part) (hm : .mode ∈ H) (ho : .ord ∈ H) (h : Moves H p q) : Moves H p (afterDoors b q) := by
  unfold afterDoors; simp only
  refine checkDoorOrders_moves ho ?_
  split; exacts [abortTest_moves _ hm ho (formDoors_moves h), formDoors_moves h]

theorem handlePulled_moves (d : Fin 8) (hm : .mode ∈ H) (ho : .ord ∈ H) (h : Moves H p q) : Moves H p (handlePulled d q) := by
  have h1 : Moves H p (post .handlePulled (BitVec.ofNat 16 d.val) q) := post_moves _ _ h
  unfold handlePulled; simp only; split
  · split
    · exact h1
    · exact post_moves _ _ (handAlarm_moves _ (dor_moves _ ⟨rfl, rfl, rfl, rfl, rfl, rfl, rfl, rfl⟩ h1))
  · exact latch_moves _ _ _ (by decide) hm ho h1

theorem freeDoor_of (d : Fin 8) {s : DoorState} (hs : s.quiet = false) (h : (q.door d).state = s) : FreeDoor d q :=
  Or.inl (by rw [h]; exact hs)

theorem doorEdge_moves (d : Fin 8) (i : DoorInput) (r : Bool) (hd : .doors ∈ H) (hm : .mode ∈ H) (ho : .ord ∈ H)
    (h : Moves H p q) : Moves H p (doorEdge d i r q) := by
  unfold doorEdge; split
  · exact doorTo_moves d _ _ hd (Or.inl rfl) h
  · exact faultDoor_moves d _ hd h
  · exact faultDoor_moves d _ hd h
  · rename_i hs; exact doorTo_moves d _ _ hd (Or.inr (freeDoor_of d rfl hs)) h
  · rename_i hs; exact judgeReopened_moves d hd (freeDoor_of d rfl hs) h
  · rename_i hs; exact obstruct_moves d hd (freeDoor_of d rfl hs) h
  · rename_i hs; exact openDoor_moves d hd (freeDoor_of d rfl hs) h
  · exact handlePulled_moves d hm ho h
  · exact h

theorem setLevel_state (r : Door) (i : DoorInput) (b : Bool) : (r.setLevel i b).state = r.state := by cases i <;> rfl

theorem doorLevel_moves (d : Fin 8) (i : DoorInput) (c : Bool) (hi : .inputs ∈ H) (hd : .doors ∈ H) (hm : .mode ∈ H) (ho : .ord ∈ H)
    (h : Moves H p q) : Moves H p (doorLevel d i c q) := by
  have h1 : Moves H p (setDoor d (·.setLevel i c) q) := setDoor_same_moves d _ hd (setLevel_state _ _ _) (fun hn => absurd hi hn) h
  unfold doorLevel; split
  · exact h
  · simp only; split
    · exact h1
    · refine afterDoors_moves _ hm ho (doorEdge_moves d i c hd hm ho ?_)
      split; exacts [post_moves _ _ h1, h1]

theorem motionExpiry_moves (d : Fin 8) (hd : .doors ∈ H) (hm : .mode ∈ H) (ho : .ord ∈ H) (h : Moves H p q) :
    Moves H p (motionExpiry d q) := by
  unfold motionExpiry; split; exacts [afterDoors_moves _ hm ho (faultDoor_moves d _ hd h), h]

/-! ### Permits -/

/-- What a change of the permit list may do. -/
structure Permitting (H : List Group) : Prop where
  permits : .permits ∈ H
  doors : .doors ∈ H
  mode : .mode ∈ H
  ord : .ord ∈ H

theorem permits_moves (x : List Permit) (k : Permitting H) (hx : permitsOk q.dor.permits → permitsOk x) (h : Moves H p q) :
    Moves H p (q.withDor { q.dor with permits := x }) :=
  h.then (.permits _ _ k.permits ⟨rfl, rfl, rfl⟩ ⟨rfl, rfl, rfl, rfl⟩ hx)

theorem withdrawPermit_moves (id : Byte) (s : Side) (k : Permitting H) (h : Moves H p q) :
    Moves H p (withdrawPermit id s q) := by
  unfold withdrawPermit; split; exacts [withdrawSide_moves _ _ k.doors h, h]

theorem postPermit_moves (id : Byte) (a : Nat) (h : Moves H p q) : Moves H p (postPermit id a q) := post_moves _ _ h

theorem removePermit_moves (id : Byte) (a : Nat) (k : Permitting H) (h : Moves H p q) : Moves H p (removePermit id a q) :=
  afterDoors_moves _ k.mode k.ord (withdrawPermit_moves _ _ k (withdrawPermit_moves _ _ k (postPermit_moves _ _
    (permits_moves _ k (permitsOk_filter _ _) h))))

theorem permitExpiry_moves (id : Byte) (k : Permitting H) (h : Moves H p q) : Moves H p (permitExpiry id q) := by
  unfold permitExpiry; split
  · split; exacts [removePermit_moves _ _ k h, h]
  · exact h

theorem clearPermits_moves (k : Permitting H) (h : Moves H p q) : Moves H p (clearPermits q) :=
  foldl_moves _ (fun _ _ hr => removePermit_moves _ _ k hr) _ h

theorem permitTaken_moves (st id m : Byte) (k : Permitting H) (h : Moves H p q) : Moves H p (permitTaken st id m q).1 := by
  unfold permitTaken
  extract_lets refuse rec' _ q1
  have hr : ∀ r, Moves H p (refuse r).1 := fun r => postPermit_moves _ _ (handRefusal_moves _ _ _ _ h)
  split
  · exact hr _
  · split
    · exact hr _
    · split
      · exact afterDoors_moves _ k.mode k.ord (withdrawPermit_moves _ _ k (withdrawPermit_moves _ _ k (postPermit_moves _ _
          (permits_moves _ k (permitsOk_replace rec' _) h))))
      · rename_i hn
        split
        · exact hr _
        · rename_i hl
          refine postPermit_moves _ _ (permits_moves _ k (fun hk => permitsOk_append rec' _ hk (by omega) ?_) h)
          simpa [Part.permit?] using hn

theorem withdrawTaken_moves (id : Byte) (k : Permitting H) (h : Moves H p q) : Moves H p (withdrawTaken id q) := by
  unfold withdrawTaken; split; exacts [removePermit_moves _ _ k h, postPermit_moves _ _ h]

/-! ### The messages -/

/-- What a delivery may do. -/
structure Delivering (H : List Group) : Prop where
  permits : .permits ∈ H
  doors : .doors ∈ H
  mode : .mode ∈ H
  ord : .ord ∈ H
  slots : .slots ∈ H
  restr : .restr ∈ H
  unlatch : .unlatch ∈ H
  charge : .charge ∈ H
  link : .link ∈ H
  msg : .msg ∈ H

theorem Delivering.permitting (k : Delivering H) : Permitting H := ⟨k.permits, k.doors, k.mode, k.ord⟩

theorem msgHard_moves (x : Msg) (hh : .msg ∈ H) (hx : q.msg.mailbox.length ≤ 8 → x.mailbox.length ≤ 8) (h : Moves H p q) :
    Moves H p (q.withMsg x) := h.then (.msgHard _ _ hh hx)

theorem eStopTaken_moves (st : Byte) (hm : .mode ∈ H) (ho : .ord ∈ H) (h : Moves H p q) : Moves H p (eStopTaken st q).1 :=
  latch_moves _ _ _ (by decide) hm ho (post_moves _ _ h)

theorem eReleaseTaken_moves (st : Byte) (hu : .unlatch ∈ H) (h : Moves H p q) : Moves H p (eReleaseTaken st q).1 := by
  unfold eReleaseTaken; split
  · split; exacts [clearLatch_moves _ _ _ (by decide) hu h, h]
  · exact post_moves _ _ h

theorem restrictTaken_moves (st : Byte) (a : Addition) (hr : .restr ∈ H) (h : Moves H p q) :
    Moves H p (restrictTaken st a q).1 := by
  unfold restrictTaken; split
  · rename_i hj; exact placeRestriction_moves a _ _ _ hr hj h
  · exact post_moves _ _ (handRefusal_moves _ _ _ _ h)

theorem liftTaken_moves (st id : Byte) (hr : .restr ∈ H) (h : Moves H p q) : Moves H p (liftTaken st id q).1 := by
  unfold liftTaken; split
  · split; exacts [dropRestriction_moves _ hr h, post_moves _ _ (handRefusal_moves _ _ _ _ h)]
  · exact post_moves _ _ h

theorem wakeTaken_moves (hm : .mode ∈ H) (hc : .charge ∈ H) (h : Moves H p q) : Moves H p (wakeTaken q).1 := by
  unfold wakeTaken; split; exacts [wakeCar_moves _ hm hc h, h]

theorem dropText_moves (hh : .msg ∈ H) (h : Moves H p q) : Moves H p (dropText q) := msgHard_moves _ hh id h

theorem textTaken_moves (src : Sender) (b : List Byte) (hh : .msg ∈ H) (h : Moves H p q) :
    Moves H p (textTaken src b q).1 := by
  unfold textTaken; split
  · exact dropText_moves hh h
  · split
    · exact handRefusal_moves _ _ _ _ (dropText_moves hh h)
    · exact msgHard_moves _ hh (fun _ => by simp; omega) h

theorem badFormatTaken_moves (st : Byte) (n : Nat) (hh : .msg ∈ H) (h : Moves H p q) :
    Moves H p (badFormatTaken st n q).1 := handRefusal_moves _ _ _ _ (msgHard_moves _ hh id h)

theorem dispatch_moves (src : Sender) (n : Nat) (b : List Byte) (k : Delivering H) (h : Moves H p q) :
    Moves H p (dispatch src n b q).1 := by
  unfold dispatch; split
  · exact badFormatTaken_moves _ _ k.msg h
  · split
    · exact grantTaken_moves _ _ k.slots k.mode k.ord h
    · exact revokeTaken_moves _ _ k.slots k.mode k.ord h
    · exact restrictTaken_moves _ _ k.restr h
    · exact liftTaken_moves _ _ k.restr h
    · exact permitTaken_moves _ _ _ k.permitting h
    · exact withdrawTaken_moves _ k.permitting h
    · exact eStopTaken_moves _ k.mode k.ord h
    · exact eReleaseTaken_moves _ k.unlatch h
    · exact wakeTaken_moves k.mode k.charge h
    · exact handReport_moves h
    · exact textTaken_moves _ _ k.msg h

/-! ### Delivery -/

theorem setStation_moves (st : Byte) (f : Station → Station) (hh : .link ∈ H) (h : Moves H p q) :
    Moves H p (setStation st f q) := by
  unfold setStation; split; exacts [linkHard_moves _ hh id rfl h, h]

theorem heard_moves (st : Byte) (hh : .link ∈ H) (h : Moves H p q) : Moves H p (heard st q) :=
  linkHard_moves _ hh id rfl (setStation_moves _ _ hh h)

theorem linkHeard_moves (src : Sender) (hh : .link ∈ H) (h : Moves H p q) : Moves H p (linkHeard src q) := by
  have h1 := heard_moves src.station hh (setStation_moves src.station (fun x => { x with sequence := some src.sequence }) hh h)
  unfold linkHeard; simp only; split; exacts [post_moves _ _ (linkHard_moves _ hh id rfl h1), h1]

theorem deliver_moves (src : Sender) (n : Nat) (act : Part → Part × MessageOutcome) (hl : .link ∈ H) (hm : .mode ∈ H)
    (ha : ∀ r, Moves H p r → Moves H p (act r).1) (h : Moves H p q) : Moves H p (deliver src n act q) :=
  postIf_moves _ _ _ (autoStand_moves hm (ha _ (linkHeard_moves src hl h)))

theorem messageRow_moves (src : Sender) (n : Nat) (act : Part → Part × MessageOutcome) (hl : .link ∈ H) (hm : .mode ∈ H)
    (ha : ∀ r, Moves H p r → Moves H p (act r).1) (h : Moves H p q) : Moves H p (messageRow src n act q) := by
  unfold messageRow; split; exacts [h, deliver_moves src n act hl hm ha h]

/-! ### The receiver -/

theorem noise_moves (hh : .link ∈ H) (h : Moves H p q) : Moves H p (noise q) := linkHard_moves _ hh id rfl h

theorem rxDrop_moves (r : RxDrop) (hh : .link ∈ H) (h : Moves H p q) : Moves H p (rxDrop r q) := by
  have h1 : Moves H p (q.withLink { q.link with rxDrops := q.link.rxDrops.set r.index (sat16 q.link.rxDrops[r.index]) }) :=
    linkHard_moves _ hh id rfl h
  unfold rxDrop; simp only; split; exacts [h1, postIf_moves _ _ _ h1]

theorem frameEnds_moves (hh : .link ∈ H) (h : Moves H p q) : Moves H p (frameEnds q) := by
  have h1 : Moves H p (q.withLink { q.link with assembler := .outside }) := linkHard_moves _ hh id rfl h
  unfold frameEnds; simp only; split
  · rename_i hs
    refine toListen_moves (fun hk => ?_) h1
    cases hp : (q.withLink { q.link with assembler := .outside }).link.ptt with
    | false => rfl
    | true =>
      have := hk.1 hp
      simp only [beq_iff_eq] at hs
      rw [hs] at this; cases this
  · exact h1

theorem abandonFrame_moves (r : RxDrop) (hh : .link ∈ H) (h : Moves H p q) : Moves H p (abandonFrame r q) :=
  frameEnds_moves hh (rxDrop_moves r hh h)

theorem frameStarts_moves (hh : .link ∈ H) (h : Moves H p q) : Moves H p (frameStarts q) := by
  refine linkHard_moves _ hh (fun hk => ?_) rfl h
  by_cases hs : q.link.state = .listen
  · exact link_ok_of_state hk (by rw [hs]; rfl) rfl rfl
  · refine ⟨fun ht => ?_, hk.2⟩
    have hn : (q.link.state == LinkState.listen) = false := by simpa using hs
    simp only [hn]; exact hk.1 ht

theorem judgeFrame_moves (d s n x : Byte) (body pl crc : List Byte) (k : Delivering H) (h : Moves H p q) :
    Moves H p (judgeFrame d s n x body pl crc q) := by
  unfold judgeFrame; split
  · exact rxDrop_moves _ k.link h
  · split
    · exact rxDrop_moves _ k.link h
    · split
      · exact rxDrop_moves _ k.link h
      · split
        · exact heard_moves _ k.link (rxDrop_moves _ k.link h)
        · exact deliver_moves _ _ _ k.link k.mode (fun _ hr => dispatch_moves _ _ _ k hr) h

theorem completeFrame_moves (b : List Byte) (dmg : Bool) (k : Delivering H) (h : Moves H p q) :
    Moves H p (completeFrame b dmg q) := by
  have h1 := frameEnds_moves k.link h
  unfold completeFrame; simp only; split
  · exact rxDrop_moves _ k.link h1
  · split
    · split; exacts [judgeFrame_moves _ _ _ _ _ _ _ k h1, rxDrop_moves _ k.link h1]
    · exact rxDrop_moves _ k.link h1

theorem frameData_moves (c : Byte) (b : List Byte) (dmg : Bool) (hh : .link ∈ H) (h : Moves H p q) :
    Moves H p (frameData c b dmg q) := by
  unfold frameData; split; exacts [abandonFrame_moves _ hh h, linkHard_moves _ hh id rfl h]

theorem assemble_moves (c : Byte) (e : Bool) (k : Delivering H) (h : Moves H p q) : Moves H p (assemble c e q) := by
  unfold assemble; split
  · split; exacts [frameStarts_moves k.link h, noise_moves k.link h]
  · split
    · exact frameData_moves _ _ _ k.link h
    · split
      · exact frameData_moves _ _ _ k.link h
      · split
        · exact frameStarts_moves k.link (rxDrop_moves _ k.link h)
        · split
          · exact completeFrame_moves _ _ k h
          · split; exacts [linkHard_moves _ k.link id rfl h, frameData_moves _ _ _ k.link h]

theorem receive_moves (c : Byte) (e : Bool) (k : Delivering H) (h : Moves H p q) : Moves H p (receive c e q) := by
  unfold receive; split
  · exact h
  · split
    · exact flowByte_moves _ h
    · split; exacts [noise_moves k.link h, assemble_moves _ _ k h]

theorem gapExpiry_moves (hh : .link ∈ H) (h : Moves H p q) : Moves H p (gapExpiry q) := by
  unfold gapExpiry; split
  · split; exacts [abandonFrame_moves _ hh h, h]
  · exact h

theorem carrierFall_moves (hh : .link ∈ H) (h : Moves H p q) : Moves H p (carrierFall q) := by
  have h1 : Moves H p (q.withLink { q.link with cd := false }) := linkHard_moves _ hh id rfl h
  unfold carrierFall; split
  · exact h
  · extract_lets _ q1 q2
    split
    · exact h1
    · have h2 : Moves H p q2 := by simp only [q2]; split; exacts [abandonFrame_moves _ hh h1, h1]
      split; exacts [linkHard_moves _ hh id rfl h2, h2]

theorem linkExpiry_moves (hl : .link ∈ H) (hs : .slots ∈ H) (k : Permitting H) (h : Moves H p q) :
    Moves H p (linkExpiry q) := by
  have h1 : Moves H p (q.withLink { q.link with linkTimer := none }) := linkHard_moves _ hl id rfl h
  unfold linkExpiry; split
  · simp only; split
    · exact h1
    · exact clearPermits_moves k (dropNext_moves hs (post_moves _ _ (linkHard_moves _ hl id rfl h1)))
  · exact h

end Sys2Proof.Machine
end

