-- ==== Sys2Proof/Laws/Judgements.lean ====
section
/-! SUPPORT. The moves of the profile store (chapter 2) and of every order (chapter 11). -/

namespace Sys2Proof.Machine

open Sys2Proof.Safety (Group)

variable {H : List Group} {p q : Part}

/-- What the blocks may do when they meet a new bank. -/
structure Everything (H : List Group) : Prop where
  odo : .odo ∈ H
  doors : .doors ∈ H
  mode : .mode ∈ H
  ord : .ord ∈ H
  slots : .slots ∈ H
  charge : .charge ∈ H
  permits : .permits ∈ H
  link : .link ∈ H
  silence : .silence ∈ H

theorem Everything.travel (k : Everything H) : Travel H := ⟨k.doors, k.mode, k.ord, k.slots, k.charge⟩
theorem Everything.permitting (k : Everything H) : Permitting H := ⟨k.permits, k.doors, k.mode, k.ord⟩

theorem prf_moves (x : Prf) (hh : .prf ∈ H) (h : Moves H p q) : Moves H p (q.withPrf x) := h.then (.prf _ _ hh)

/-- A slot that is not RUNNING is not in the bookkeeping. -/
theorem not_timed {o : Ord} (hk : Safety.bookkeeping o) {i : Fin 16} (hi : (o.slots[i]).state ≠ .running) (k : Nat) :
    ¬ Safety.timed o i k := fun h => hi (hk.1 i k h).1

/-- The record of a slot that is not RUNNING takes a new state that is not RUNNING either, or another kind and tag. -/
theorem setSlot_moves (i : Fin 16) (f : Slot → Slot) (hi : (q.ord.slots[i]).state ≠ .running)
    (hf : (f q.ord.slots[i]).state ≠ .running) (hh : .ord ∈ H) (ht : .take ∈ H) (h : Moves H p q) : Moves H p (setSlot i f q) :=
  ord_moves _ hh (fun hk => ⟨fun j k ht => by
      have e : j ≠ i := by rintro rfl; exact not_timed hk hi k ht
      have := hk.1 j k ht
      simp only [slots_set, if_neg e]; exact this, hk.2.1, hk.2.2⟩)
    (fun _ => idle_set fun hr => absurd hr hf) (fun _ hn => absurd ht hn) h

/-- What a slot is when a timed order of a kind is judged in it. -/
structure Waiting (i : Fin 16) (k : Nat) (q : Part) : Prop where
  idle : (q.ord.slots[i]).state ≠ .running
  kind : (q.ord.slots[i]).kind.toNat = k

/-- The record of a slot when its timed order is taken. -/
def startRecord (r : Slot) : Slot := { r with state := .running, verdict := .taken, reason := .ok, result := 0 }

/-- An order enters the bookkeeping under a kind that names no other slot. -/
theorem bookkeeping_start {o x : Ord} {i : Fin 16} {k : Nat} (hi : (o.slots[i]).state ≠ .running) (hk : (o.slots[i]).kind.toNat = k)
    (hs : x.slots = o.slots.set i (startRecord o.slots[i]))
    (ht : ∀ j l, Safety.timed x j l → (j = i ∧ l = k) ∨ Safety.timed o j l)
    (hd : ∀ j, (x.openLeft = some j ∧ x.openRight = some j → (o.openLeft = some j ∧ o.openRight = some j) ∨ Safety.timed o i 16)
      ∧ (x.closeLeft = some j ∧ x.closeRight = some j → (o.closeLeft = some j ∧ o.closeRight = some j) ∨ Safety.timed o i 17))
    (hb : Safety.bookkeeping o) : Safety.bookkeeping x := by
  refine ⟨fun j l h => ?_, fun j h => ?_, fun j h => ?_⟩
  · rw [hs, slots_set]
    rcases ht j l h with ⟨rfl, rfl⟩ | h'
    · rw [if_pos rfl]; exact ⟨rfl, hk⟩
    · have e : j ≠ i := by rintro rfl; exact not_timed hb hi l h'
      rw [if_neg e]; exact hb.1 j l h'
  · rcases (hd j).1 h with h' | h'
    · exact hb.2.1 j h'
    · exact not_timed hb hi 16 h'
  · rcases (hd j).2 h with h' | h'
    · exact hb.2.2 j h'
    · exact not_timed hb hi 17 h'

theorem start_moves (x : Ord) (hh : .ord ∈ H) (hs : .start ∈ H) (hb : Safety.bookkeeping q.ord → Safety.bookkeeping x)
    (h : Moves H p q) : Moves H p (q.withOrd x) := ord_moves _ hh hb (fun hn => absurd hs hn) (fun hn => absurd hs hn) h

theorem startTest_moves (i : Fin 16) (w : Waiting i 5 q) (hh : .ord ∈ H) (hs : .start ∈ H) (h : Moves H p q) :
    Moves H p ((slotRunning i q).withOrd { (slotRunning i q).ord with brakeTest := some i }) := by
  have e := start_moves { q.ord with slots := q.ord.slots.set i (startRecord q.ord.slots[i]), brakeTest := some i } hh hs
    (bookkeeping_start w.idle w.kind rfl (fun j l ht => by
      rcases ht with ⟨a, b⟩ | ht
      · exact Or.inl ⟨(Option.some.inj a).symm, b⟩
      · exact Or.inr (Or.inr ht)) (fun j => ⟨Or.inl, Or.inl⟩)) h
  exact e

theorem startActivate_moves (i : Fin 16) (w : Waiting i 11 q) (hh : .ord ∈ H) (hs : .start ∈ H) (h : Moves H p q) :
    Moves H p ((slotRunning i q).withOrd { (slotRunning i q).ord with activate := some i }) := by
  have e := start_moves { q.ord with slots := q.ord.slots.set i (startRecord q.ord.slots[i]), activate := some i } hh hs
    (bookkeeping_start w.idle w.kind rfl (fun j l ht => by
      rcases ht with ht | ⟨a, b⟩ | ht
      · exact Or.inr (Or.inl ht)
      · exact Or.inl ⟨(Option.some.inj a).symm, b⟩
      · exact Or.inr (Or.inr (Or.inr ht))) (fun j => ⟨Or.inl, Or.inl⟩)) h
  exact e

theorem startOpen_moves (s : Side) (i : Fin 16) (w : Waiting i 16 q) (hh : .ord ∈ H) (hs : .start ∈ H) (h : Moves H p q) :
    Moves H p (setOpenSlot s (some i) (slotRunning i q)) := by
  cases s
  · have e := start_moves { q.ord with slots := q.ord.slots.set i (startRecord q.ord.slots[i]), openLeft := some i } hh hs
      (bookkeeping_start w.idle w.kind rfl (fun j l ht => by
        rcases ht with ht | ht | ⟨a | a, b⟩ | ht
        · exact Or.inr (Or.inl ht)
        · exact Or.inr (Or.inr (Or.inl ht))
        · exact Or.inl ⟨(Option.some.inj a).symm, b⟩
        · exact Or.inr (Or.inr (Or.inr (Or.inl ⟨Or.inr a, b⟩)))
        · exact Or.inr (Or.inr (Or.inr (Or.inr ht))))
        (fun j => ⟨fun hx => Or.inr (Or.inr (Or.inr (Or.inl ⟨Or.inr ((Option.some.inj hx.1).symm ▸ hx.2), rfl⟩))), Or.inl⟩)) h
    exact e
  · have e := start_moves { q.ord with slots := q.ord.slots.set i (startRecord q.ord.slots[i]), openRight := some i } hh hs
      (bookkeeping_start w.idle w.kind rfl (fun j l ht => by
        rcases ht with ht | ht | ⟨a | a, b⟩ | ht
        · exact Or.inr (Or.inl ht)
        · exact Or.inr (Or.inr (Or.inl ht))
        · exact Or.inr (Or.inr (Or.inr (Or.inl ⟨Or.inl a, b⟩)))
        · exact Or.inl ⟨(Option.some.inj a).symm, b⟩
        · exact Or.inr (Or.inr (Or.inr (Or.inr ht))))
        (fun j => ⟨fun hx => Or.inr (Or.inr (Or.inr (Or.inl ⟨Or.inl ((Option.some.inj hx.2).symm ▸ hx.1), rfl⟩))), Or.inl⟩)) h
    exact e

theorem startClose_moves (s : Side) (i : Fin 16) (w : Waiting i 17 q) (hh : .ord ∈ H) (hs : .start ∈ H) (h : Moves H p q) :
    Moves H p (setCloseSlot s (some i) (slotRunning i q)) := by
  cases s
  · have e := start_moves { q.ord with slots := q.ord.slots.set i (startRecord q.ord.slots[i]), closeLeft := some i } hh hs
      (bookkeeping_start w.idle w.kind rfl (fun j l ht => by
        rcases ht with ht | ht | ht | ⟨a | a, b⟩
        · exact Or.inr (Or.inl ht)
        · exact Or.inr (Or.inr (Or.inl ht))
        · exact Or.inr (Or.inr (Or.inr (Or.inl ht)))
        · exact Or.inl ⟨(Option.some.inj a).symm, b⟩
        · exact Or.inr (Or.inr (Or.inr (Or.inr ⟨Or.inr a, b⟩))))
        (fun j => ⟨Or.inl, fun hx => Or.inr (Or.inr (Or.inr (Or.inr ⟨Or.inr ((Option.some.inj hx.1).symm ▸ hx.2), rfl⟩)))⟩)) h
    exact e
  · have e := start_moves { q.ord with slots := q.ord.slots.set i (startRecord q.ord.slots[i]), closeRight := some i } hh hs
      (bookkeeping_start w.idle w.kind rfl (fun j l ht => by
        rcases ht with ht | ht | ht | ⟨a | a, b⟩
        · exact Or.inr (Or.inl ht)
        · exact Or.inr (Or.inr (Or.inl ht))
        · exact Or.inr (Or.inr (Or.inr (Or.inl ht)))
        · exact Or.inr (Or.inr (Or.inr (Or.inr ⟨Or.inl a, b⟩)))
        · exact Or.inl ⟨(Option.some.inj a).symm, b⟩)
        (fun j => ⟨Or.inl, fun hx => Or.inr (Or.inr (Or.inr (Or.inr ⟨Or.inl ((Option.some.inj hx.2).symm ▸ hx.1), rfl⟩)))⟩)) h
    exact e

/-! ### The profile store -/

theorem endActivation_moves (a : Bool) (w : Word) (ho : .ord ∈ H) (h : Moves H p q) : Moves H p (endActivation a w q) := by
  unfold endActivation; split
  · rename_i i hi
    have e := end_moves _ ho (ends_activate a w q.ord i hi) h
    exact postAt_moves _ _ _ _ e
  · exact h

theorem abortActivation_moves (hp : .prf ∈ H) (ho : .ord ∈ H) (h : Moves H p q) : Moves H p (abortActivation q) := by
  unfold abortActivation; split; exacts [endActivation_moves _ _ ho (post_moves _ _ (prf_moves _ hp h)), h]

theorem captureProfile_moves (w : Fin 2048) (d : WriteData) (hp : .prf ∈ H) (ho : .ord ∈ H) (h : Moves H p q) :
    Moves H p (captureProfile w d q) := abortActivation_moves hp ho (prf_moves _ hp h)

theorem captureSettings_moves (w : Fin 256) (d : WriteData) (hp : .prf ∈ H) (ho : .ord ∈ H) (h : Moves H p q) :
    Moves H p (captureSettings w d q) := by
  unfold captureSettings; refine abortActivation_moves hp ho ?_; split; exacts [prf_moves _ hp h, h]

theorem judgeActivate_moves (i : Fin 16) (w : Vector Word 7) (hw : Waiting i 11 q) (hp : .prf ∈ H) (ho : .ord ∈ H) (hs : .start ∈ H) (h : Moves H p q) :
    Moves H p (judgeActivate i w q).1 := by
  unfold judgeActivate; simp only; split
  · exact h
  · split
    · exact h
    · split
      · exact h
      · split
        · exact h
        · split
          · exact h
          · split
            · exact prf_moves _ hp (startActivate_moves i hw ho hs h)
            · exact h

theorem replaceActive_moves (x : Holding) (hp : .prf ∈ H) (ho : .ord ∈ H) (h : Moves H p q) :
    Moves H p (replaceActive x q) := endActivation_moves _ _ ho (post_moves _ _ (prf_moves _ hp h))

theorem odoMeetsBank_moves (ht : .track ∈ H) (hm : .mode ∈ H) (ho : .ord ∈ H) (h : Moves H p q) : Moves H p (odoMeetsBank q) := by
  unfold odoMeetsBank
  extract_lets o q1 r
  have h1 : Moves H p q1 := odo_moves _ ⟨rfl, rfl, rfl, rfl, rfl, rfl, rfl, rfl, rfl, rfl⟩ (fun hn => absurd ht hn) h
  split
  · exact h1
  · exact odoRequests_moves _ hm ho (directRegime_moves ht _ h1)

theorem sideTrust_moves (s : Side) (hd : .doors ∈ H) (h : Moves H p q) : Moves H p (sideTrust s q) := by
  unfold sideTrust; split; exacts [withdrawSide_moves _ _ hd h, h]

theorem sideMeetsBank_moves (s : Side) (hd : .doors ∈ H) (h : Moves H p q) : Moves H p (sideMeetsBank s q) := by
  unfold sideMeetsBank; split
  · split; exacts [setSide_moves _ _ hd h, withdrawSide_moves _ _ hd h]
  · exact h

theorem permitsMeet_moves (k : Permitting H) (h : Moves H p q) : Moves H p (permitsMeet q) :=
  foldl_moves _ (fun _ _ hr => permitExpiry_moves _ k hr) _ h

theorem motionsMeet_moves (hd : .doors ∈ H) (hm : .mode ∈ H) (ho : .ord ∈ H) (h : Moves H p q) :
    Moves H p (motionsMeet q) := foldl_moves _ (fun _ d hr => motionExpiry_moves d hd hm ho hr) _ h

theorem timersMeet_moves (k : Everything H) (h : Moves H p q) : Moves H p (timersMeet q) :=
  motionsMeet_moves k.doors k.mode k.ord (permitsMeet_moves k.permitting (reportExpiry_moves (linkExpiry_moves k.link k.slots
    k.permitting (judgeCharge_moves k.charge (silenceExpiry_moves k.silence (standstillExpiry_moves k.odo k.mode k.ord h))))))

theorem thresholdsMeet_moves (old : Settings) (k : Travel H) (h : Moves H p q) : Moves H p (thresholdsMeet old q) := by
  unfold thresholdsMeet
  extract_lets p1 lower p2
  have h1 : Moves H p p1 := by simp only [p1]; split; exacts [climbOut_moves k h, h]
  have h2 : Moves H p p2 := by simp only [p2]; split; exacts [creepCrossed_moves k h1, h1]
  split; exacts [reverseCrossed_moves k h2, h2]

theorem blocksMeetBank_moves (old : Settings) (k : Everything H) (h : Moves H p q) : Moves H p (blocksMeetBank old q) := by
  have h1 : Moves H p (ssuEvaluate (autJudge false (ssuEvaluate q))) :=
    ssuEvaluate_moves (autJudge_moves _ k.slots k.mode k.ord (ssuEvaluate_moves h))
  have h2 := sideTrust_moves .right k.doors (sideTrust_moves .left k.doors h1)
  have h3 := sideMeetsBank_moves .right k.doors (sideMeetsBank_moves .left k.doors h2)
  have h4 := checkDoorOrders_moves k.ord (formDoors_moves h3)
  unfold blocksMeetBank
  exact thresholdsMeet_moves _ k.travel (timersMeet_moves k (handleJudge_moves k.mode k.ord h4))

theorem copyCompleted_moves (ht : .track ∈ H) (hp : .prf ∈ H) (k : Everything H) (h : Moves H p q) : Moves H p (copyCompleted q) := by
  unfold copyCompleted; split
  · exact blocksMeetBank_moves _ k (odoMeetsBank_moves ht k.mode k.ord (replaceActive_moves _ hp k.ord h))
  · exact h

/-! ### Mode orders -/

theorem judgeRun_moves (hm : .mode ∈ H) (hd : .doors ∈ H) (ho : .ord ∈ H) (h : Moves H p q) : Moves H p (judgeRun q).1 := by
  unfold judgeRun
  cases hc : q.aut.current with
  | none => simp only [Bool.not_false, if_true]; split_ifs <;> exact h
  | some a =>
    by_cases hs : q.doorsShut = true
    · have h1 : Moves H p (toMode .run .order q) :=
        toMode_moves _ _ hm (fun _ => by rw [hc]; rfl) (fun _ _ => doorsShut_quiet hs) (Or.inr (Or.inr ⟨hd, ho⟩)) h
      simp only; split_ifs <;> first | exact h | exact h1
    · simp only [hs, Bool.not_false, if_true]; split_ifs <;> exact h

theorem judgeStand_moves (hm : .mode ∈ H) (ho : .ord ∈ H) (h : Moves H p q) : Moves H p (judgeStand q).1 := by
  unfold judgeStand; split
  · exact h
  · split
    · exact h
    · simp only; split; exacts [h, abortTest_moves _ hm ho (toStand_moves _ hm h)]

theorem judgeStable_moves (hm : .mode ∈ H) (hd : .doors ∈ H) (ho : .ord ∈ H) (h : Moves H p q) :
    Moves H p (judgeStable q).1 := by
  unfold judgeStable; split
  · exact h
  · split
    · exact h
    · rename_i hs
      exact toMode_moves .stabled _ hm (fun e => by cases e) (fun _ _ => doorsShut_quiet (by simpa using hs))
        (Or.inr (Or.inr ⟨hd, ho⟩)) h

theorem judgeWake_moves (hm : .mode ∈ H) (hc : .charge ∈ H) (h : Moves H p q) : Moves H p (judgeWake q).1 := by
  unfold judgeWake; split; exacts [h, wakeCar_moves _ hm hc h]

theorem judgeMaintenance_moves (hm : .mode ∈ H) (h : Moves H p q) : Moves H p (judgeMaintenance q).1 := by
  unfold judgeMaintenance; split
  · exact h
  · split
    · exact h
    · split; exacts [h, toStand_moves _ hm h]

/-! ### Brake orders -/

theorem judgeBrakeTest_moves (i : Fin 16) (hw : Waiting i 5 q) (hm : .mode ∈ H) (hd : .doors ∈ H) (ho : .ord ∈ H) (ht : .start ∈ H)
    (h : Moves H p q) :
    Moves H p (judgeBrakeTest i q).1 := by
  unfold judgeBrakeTest; split
  · exact h
  · split
    · exact h
    · split
      · exact h
      · split
        · exact h
        · split
          · exact h
          · rename_i hs
            split
            · exact h
            · split
              · exact h
              · split
                · exact h
                · exact beginTest_moves hm ho hd (show q.doorsShut = true by simpa using hs) (startTest_moves i hw ho ht h)

theorem judgeBrakeRequest_moves (w : Vector Word 7) (hm : .mode ∈ H) (ho : .ord ∈ H) (h : Moves H p q) :
    Moves H p (judgeBrakeRequest w q).1 := by
  unfold judgeBrakeRequest; split
  · exact h
  · split
    · exact h
    · exact follow_moves _ _ _ (by decide) hm ho h

theorem latchingSource_ne {n : Nat} {d : DemandSource} (h : latchingSource? n = some d) : d ≠ .mode ∧ d ≠ .doors := by
  constructor <;>
  · intro e; subst e
    unfold latchingSource? at h
    split at h
    iterate 5 cases h
    · cases h; simp_all

theorem resetLatch_moves (d : DemandSource) (hd : d ≠ .mode ∧ d ≠ .doors) (hu : .unlatch ∈ H) (h : Moves H p q) :
    Moves H p (resetLatch d q) := by
  unfold resetLatch; split
  · exact clearLatch_moves _ _ _ (by decide) hu (toSupervision_moves _ h)
  · exact clearLatch_moves _ _ _ (by decide) hu (aut_moves _ ⟨rfl, rfl, rfl, rfl, rfl⟩ h)
  · exact msg_moves _ ⟨rfl, rfl, rfl, rfl⟩ (odo_moves _ ⟨rfl, rfl, rfl, rfl, rfl, rfl, rfl, rfl, rfl, rfl⟩ (fun _ => rfl)
      (clearLatch_moves _ _ _ (by decide) hu h))
  · exact clearLatch_moves _ _ _ hd hu h

theorem judgeResetDemand_moves (w : Vector Word 7) (hu : .unlatch ∈ H) (h : Moves H p q) :
    Moves H p (judgeResetDemand w q).1 := by
  unfold judgeResetDemand; split
  · exact h
  · split
    · exact h
    · rename_i d hs
      split
      · exact h
      · split
        · split <;> exact h
        · split
          · exact h
          · exact resetLatch_moves d (latchingSource_ne hs) hu h

/-! ### Odometry orders -/

theorem setPositionTaken_moves (ht : .track ∈ H) (n : Nat) (hh : .odo ∈ H) (k : Travel H) (h : Moves H p q) : Moves H p (setPositionTaken n q) :=
  spreadPosition_moves _ k (odoRequests_moves _ k.mode k.ord (directRegime_moves ht _ (odoHard_moves _ hh h)))

theorem judgeSetPosition_moves (ht : .track ∈ H) (w : Vector Word 7) (hh : .odo ∈ H) (k : Travel H) (h : Moves H p q) :
    Moves H p (judgeSetPosition w q).1 := by
  unfold judgeSetPosition; simp only; split
  · exact h
  · split
    · exact h
    · split
      · exact h
      · split; exacts [h, setPositionTaken_moves ht _ hh k h]

theorem resetEncoderTaken_moves (ht : .track ∈ H) (n : Nat) (hh : .odo ∈ H) (k : Travel H) (h : Moves H p q) : Moves H p (resetEncoderTaken n q) :=
  afterChange_moves ht _ k (settleSource_moves ht _ (odoHard_moves _ hh h))

theorem judgeResetEncoder_moves (ht : .track ∈ H) (w : Vector Word 7) (hh : .odo ∈ H) (k : Travel H) (h : Moves H p q) :
    Moves H p (judgeResetEncoder w q).1 := by
  unfold judgeResetEncoder; split
  · exact h
  · split
    · exact h
    · exact resetEncoderTaken_moves ht _ hh k h

/-! ### Restrictions and authorities -/

theorem judgeAddRestriction_moves (w : Vector Word 7) (hr : .restr ∈ H) (h : Moves H p q) :
    Moves H p (judgeAddRestriction w q).1 := by
  unfold judgeAddRestriction; split
  · exact h
  · split
    · exact h
    · rename_i hj; exact placeRestriction_moves _ _ _ _ hr hj h

theorem judgeRemoveRestriction_moves (w : Vector Word 7) (hr : .restr ∈ H) (h : Moves H p q) :
    Moves H p (judgeRemoveRestriction w q).1 := by
  unfold judgeRemoveRestriction; simp only; split
  · exact h
  · split
    · exact h
    · split
      · exact h
      · split
        · exact h
        · exact dropRestriction_moves _ hr h

theorem judgeRelinquish_moves (hs : .slots ∈ H) (h : Moves H p q) : Moves H p (judgeRelinquish q).1 := by
  unfold judgeRelinquish; split
  · exact h
  · split
    · exact h
    · rename_i hm
      refine relinquishTaken_moves hs ?_ h
      intro e; rw [e] at hm; exact hm rfl

/-! ### Door orders -/

/-- A fold of changes that keep a condition. -/
theorem foldl_keeps_moves {α : Type} (f : Part → α → Part) (I : Part → Prop) (hI : ∀ r a, I r → I (f r a))
    (hf : ∀ r a, I r → Moves H p r → Moves H p (f r a)) (l : List α) (hq : I q) (h : Moves H p q) :
    Moves H p (l.foldl f q) := by
  induction l generalizing q with
  | nil => exact h
  | cons a l ih => exact ih (hI _ _ hq) (hf _ _ hq h)

theorem setSide_mod (s : Side) (x : SideRec) (r : Part) : (setSide s x r).mod = r.mod := by cases s <;> rfl

theorem releaseSideTaken_moves (s : Side) (x : SegRec) (hst : q.mod.mode = .stand) (hd : .doors ∈ H) (hm : .mode ∈ H)
    (ho : .ord ∈ H) (h : Moves H p q) : Moves H p (releaseSideTaken s x q) := by
  refine afterDoors_moves _ hm ho (foldl_keeps_moves _ (fun r => r.mod.mode = .stand) (fun r d hr => ?_) (fun r d hr hk => ?_) _
    ((congrArg Mod.mode (setSide_mod _ _ _)).trans hst) (setSide_moves s _ hd h))
  · split; exacts [hr, hr]
  · split; exacts [doorTo_moves d _ _ hd (Or.inr (Or.inr (Or.inl hr))) hk, hk]

theorem judgeReleaseSide_moves (w : Vector Word 7) (hd : .doors ∈ H) (hm : .mode ∈ H) (ho : .ord ∈ H) (h : Moves H p q) :
    Moves H p (judgeReleaseSide w q).1 := by
  unfold judgeReleaseSide; split
  · exact h
  · split
    · exact h
    · rename_i hst
      have hst : q.mod.mode = .stand := by simpa using hst
      split
      · exact h
      · split
        · exact h
        · split
          · exact h
          · split
            · exact h
            · split
              · exact h
              · split
                · exact h
                · split; exacts [h, releaseSideTaken_moves _ _ hst hd hm ho h]

theorem freeDoor_released {d : Fin 8} (h : ((q.door d).state == .released) = true) : FreeDoor d q :=
  freeDoor_of d (s := .released) rfl (by simpa using h)

theorem openSideTaken_moves (i : Fin 16) (s : Side) (hw : Waiting i 16 q) (ht : .start ∈ H) (hd : .doors ∈ H) (hm : .mode ∈ H) (ho : .ord ∈ H) (h : Moves H p q) :
    Moves H p (openSideTaken i s q) := by
  refine afterDoors_moves _ hm ho (foldl_moves _ (fun r d hr => ?_) _
    (setOpenAffected_moves _ _ (startOpen_moves s i hw ho ht h)))
  split
  · rename_i hc; exact openDoor_moves d hd (freeDoor_released hc) hr
  · exact hr

theorem judgeOpenSide_moves (i : Fin 16) (w : Vector Word 7) (hw : Waiting i 16 q) (ht : .start ∈ H) (hd : .doors ∈ H) (hm : .mode ∈ H) (ho : .ord ∈ H)
    (h : Moves H p q) : Moves H p (judgeOpenSide i w q).1 := by
  unfold judgeOpenSide; extract_lets busy; split
  · exact h
  · split
    · exact h
    · split
      · exact h
      · split
        · exact h
        · split; exacts [h, openSideTaken_moves i _ hw ht hd hm ho h]

theorem overtakeOpen_moves (s : Side) (ho : .ord ∈ H) (h : Moves H p q) : Moves H p (overtakeOpen s q) := by
  unfold overtakeOpen; split
  · rename_i i hi
    exact endOpen_moves s i _ _ hi ho h
  · exact h

theorem closeAffectedDoor_moves (d : Fin 8) (hd : .doors ∈ H) (h : Moves H p q) : Moves H p (closeAffectedDoor d q) := by
  have h1 : Moves H p (setDoor d (fun r => { r with retries := 0, closeFailed := false }) q) := setDoor_same_moves d _ hd rfl (fun _ => rfl) h
  unfold closeAffectedDoor; simp only; split
  · rename_i hc
    refine closeDoor_moves d hd (Or.inl ?_) h1
    simp only [Bool.or_eq_true, beq_iff_eq] at hc
    rcases hc with (hc | hc) | hc <;> rw [hc] <;> rfl
  · exact h1

theorem closeSideTaken_moves (i : Fin 16) (s : Side) (hw : Waiting i 17 q) (ht : .start ∈ H) (hd : .doors ∈ H) (hm : .mode ∈ H) (ho : .ord ∈ H) (h : Moves H p q) :
    Moves H p (closeSideTaken i s q) :=
  afterDoors_moves _ hm ho (foldl_moves _ (fun _ d hr => closeAffectedDoor_moves d hd hr) _ (setCloseAffected_moves _ _
    (withdrawSide_moves _ _ hd (overtakeOpen_moves _ ho (startClose_moves s i hw ho ht h)))))

theorem judgeCloseSide_moves (i : Fin 16) (w : Vector Word 7) (hw : Waiting i 17 q) (ht : .start ∈ H) (hd : .doors ∈ H) (hm : .mode ∈ H) (ho : .ord ∈ H)
    (h : Moves H p q) : Moves H p (judgeCloseSide i w q).1 := by
  unfold judgeCloseSide; split
  · exact h
  · split; exacts [h, closeSideTaken_moves i _ hw ht hd hm ho h]

theorem judgeIsolateDoor_moves (w : Vector Word 7) (hd : .doors ∈ H) (hm : .mode ∈ H) (ho : .ord ∈ H) (h : Moves H p q) :
    Moves H p (judgeIsolateDoor w q).1 := by
  unfold judgeIsolateDoor; split
  · exact h
  · split
    · exact h
    · split
      · exact h
      · split
        · exact h
        · split
          · exact h
          · exact afterDoors_moves _ hm ho (doorTo_moves _ _ _ hd (Or.inl rfl) h)

theorem judgeRestoreDoor_moves (w : Vector Word 7) (hd : .doors ∈ H) (hm : .mode ∈ H) (ho : .ord ∈ H) (h : Moves H p q) :
    Moves H p (judgeRestoreDoor w q).1 := by
  unfold judgeRestoreDoor; split
  · exact h
  · split
    · exact h
    · split
      · exact h
      · split
        · exact h
        · split
          · exact h
          · split
            · exact h
            · exact afterDoors_moves _ hm ho (doorTo_moves _ _ _ hd (Or.inl rfl) (setDoor_same_moves _ _ hd rfl (fun _ => rfl) h))

theorem judgeSetDoorEvents_moves (w : Vector Word 7) (hk : .masks ∈ H) (h : Moves H p q) :
    Moves H p (judgeSetDoorEvents w q).1 := by
  unfold judgeSetDoorEvents; split; exacts [h, h.then (.masks _ _ hk ⟨rfl, rfl, rfl⟩ rfl)]

/-! ### Guards and radio orders -/

theorem setGuardSlot_moves (i : Fin 4) (f : Guard → Guard) (hg : .guards ∈ H) (h : Moves H p q) :
    Moves H p (setGuardSlot i f q) := h.then (.guards _ _ hg rfl)

theorem judgeSetGuard_moves (w : Vector Word 7) (hg : .guards ∈ H) (h : Moves H p q) : Moves H p (judgeSetGuard w q).1 := by
  unfold judgeSetGuard; simp only; split
  · exact h
  · split
    · split
      · exact h
      · split
        · exact h
        · split_ifs <;> simp only <;> first | exact h | exact setGuardSlot_moves _ _ hg h
    · exact h

theorem judgeClearGuard_moves (w : Vector Word 7) (hg : .guards ∈ H) (h : Moves H p q) :
    Moves H p (judgeClearGuard w q).1 := by
  unfold judgeClearGuard; split
  · exact h
  · split
    · exact h
    · split_ifs <;> simp only <;> first | exact h | exact setGuardSlot_moves _ _ hg h

theorem judgeSendText_moves (w : Vector Word 7) (h : Moves H p q) : Moves H p (judgeSendText w q).1 := by
  unfold judgeSendText; simp only; split
  · exact h
  · split; exacts [h, offer_moves _ h]

theorem judgeTakeMessage_moves (w : Vector Word 7) (hh : .msg ∈ H) (h : Moves H p q) :
    Moves H p (judgeTakeMessage w q).1 := by
  unfold judgeTakeMessage; split
  · exact h
  · rename_i m rest hm
    split
    · exact h
    · exact msgHard_moves _ hh (fun hk => by rw [hm] at hk; simp at hk ⊢; omega) h

theorem judgePollReport_moves (h : Moves H p q) : Moves H p (judgePollReport q).1 := handReport_moves h

/-! ### The trigger -/

theorem recordJudgement_moves (i : Fin 16) (j : Judgement) (hj : j ≠ .timed → (q.ord.slots[i]).state ≠ .running) (ho : .ord ∈ H)
    (ht : .take ∈ H) (h : Moves H p q) : Moves H p (recordJudgement i j q) := by
  unfold recordJudgement; split
  · exact setSlot_moves _ _ (hj Judgement.noConfusion) SlotState.noConfusion ho ht h
  · exact setSlot_moves _ _ (hj Judgement.noConfusion) SlotState.noConfusion ho ht h
  · exact h

/-- An order that is not a timed order taken leaves its slot as it finds it, not RUNNING. -/
def Calm (j : Judge) : Prop :=
  ∀ (i : Fin 16) (w : Vector Word 7) (r : Part), (r.ord.slots[i]).state ≠ .running → (j i w r).2 ≠ .timed →
    ((j i w r).1.ord.slots[i]).state ≠ .running

theorem triggered_moves (n : Byte) (j : Judge) (t : Trigger) (ho : .ord ∈ H) (ht : .take ∈ H) (hc : Calm j)
    (hj : ∀ r w, Waiting t.slot n.toNat r → Moves H p r → Moves H p (j t.slot w r).1) (h : Moves H p q) :
    Moves H p (triggered n j t q).1 := by
  unfold triggered; split
  · exact h
  · rename_i hb
    have hi : (q.ord.slots[t.slot]).state ≠ .running := by simpa using hb
    have hw : Waiting t.slot n.toNat (setSlot t.slot (fun x => { x with kind := n, tag := t.tag, work := q.ord.shadows[t.slot] }) q) := by
      constructor
      · unfold setSlot; simp only [Part.withOrd_ord, slots_set, if_true]; exact hi
      · unfold setSlot; simp only [Part.withOrd_ord, slots_set, if_true]
    exact recordJudgement_moves _ _ (hc _ _ _ hw.idle) ho ht (hj _ _ hw (setSlot_moves _ _ hi hi ho ht h))

/-- Every change but the start of a timed order. -/
def calmMay : List Group := Group.all.filter (· ≠ .start)

theorem calm_of (j : Judge) (hj : ∀ i w r, Moves calmMay r (j i w r).1) : Calm j :=
  fun i w r hr _ hx => hr ((hj i w r).idle (by decide) i hx)

theorem calm_travel : Travel calmMay := by constructor <;> decide

theorem judgeBrakeTest_calm : Calm fun i _ => judgeBrakeTest i := by
  intro i w r hr
  unfold judgeBrakeTest
  beta_reduce
  repeat' first | (split; exact fun _ => hr) | fail
  exact fun h => absurd rfl h

theorem judgeActivate_calm : Calm judgeActivate := by
  intro i w r hr
  unfold judgeActivate
  simp only
  repeat' first | (split; exact fun _ => hr) | fail
  all_goals first
    | exact fun h => absurd rfl h
    | exact fun _ => hr
    | (split <;> first | exact fun h => absurd rfl h | exact fun _ => hr)

theorem judgeOpenSide_calm : Calm judgeOpenSide := by
  intro i w r hr
  unfold judgeOpenSide
  extract_lets busy
  repeat' first | (split; exact fun _ => hr) | fail
  exact fun h => absurd rfl h

theorem judgeCloseSide_calm : Calm judgeCloseSide := by
  intro i w r hr
  unfold judgeCloseSide
  repeat' first | (split; exact fun _ => hr) | fail
  exact fun h => absurd rfl h

theorem judgeOf_calm (n : Nat) : Calm (judgeOf n) := by
  have k := calm_travel
  have r := fun q => Moves.refl (H := calmMay) q
  unfold judgeOf; split
  · exact calm_of _ fun _ _ q => judgeRun_moves k.mode k.doors k.ord (r q)
  · exact calm_of _ fun _ _ q => judgeStand_moves k.mode k.ord (r q)
  · exact calm_of _ fun _ _ q => judgeStable_moves k.mode k.doors k.ord (r q)
  · exact calm_of _ fun _ _ q => judgeWake_moves k.mode k.charge (r q)
  · exact judgeBrakeTest_calm
  · exact calm_of _ fun _ _ q => judgeMaintenance_moves k.mode (r q)
  · exact calm_of _ fun _ w q => judgeBrakeRequest_moves w k.mode k.ord (r q)
  · exact calm_of _ fun _ w q => judgeResetDemand_moves w (by decide) (r q)
  · exact calm_of _ fun _ w q => judgeSetPosition_moves (by decide) w (by decide) k (r q)
  · exact calm_of _ fun _ w q => judgeResetEncoder_moves (by decide) w (by decide) k (r q)
  · exact judgeActivate_calm
  · exact calm_of _ fun _ w q => judgeAddRestriction_moves w (by decide) (r q)
  · exact calm_of _ fun _ w q => judgeRemoveRestriction_moves w (by decide) (r q)
  · exact calm_of _ fun _ _ q => judgeRelinquish_moves k.slots (r q)
  · exact calm_of _ fun _ w q => judgeReleaseSide_moves w k.doors k.mode k.ord (r q)
  · exact judgeOpenSide_calm
  · exact judgeCloseSide_calm
  · exact calm_of _ fun _ w q => judgeIsolateDoor_moves w k.doors k.mode k.ord (r q)
  · exact calm_of _ fun _ w q => judgeRestoreDoor_moves w k.doors k.mode k.ord (r q)
  · exact calm_of _ fun _ w q => judgeSetDoorEvents_moves w (by decide) (r q)
  · exact calm_of _ fun _ w q => judgeSetGuard_moves w (by decide) (r q)
  · exact calm_of _ fun _ w q => judgeClearGuard_moves w (by decide) (r q)
  · exact calm_of _ fun _ w q => judgeSendText_moves w (r q)
  · exact calm_of _ fun _ w q => judgeTakeMessage_moves w (by decide) (r q)
  · exact calm_of _ fun _ _ q => judgePollReport_moves (r q)
  · exact calm_of _ fun _ _ q => r q

/-- What any order may do. -/
structure Ordering (H : List Group) : Prop extends Travel H where
  take : .take ∈ H
  start : .start ∈ H
  odo : .odo ∈ H
  track : .track ∈ H
  prf : .prf ∈ H
  unlatch : .unlatch ∈ H
  restr : .restr ∈ H
  masks : .masks ∈ H
  guards : .guards ∈ H
  msg : .msg ∈ H
  silence : .silence ∈ H

theorem judgeOf_moves (n : Nat) (i : Fin 16) (w : Vector Word 7) (hw : Waiting i n q) (k : Ordering H) (h : Moves H p q) :
    Moves H p (judgeOf n i w q).1 := by
  unfold judgeOf; split
  · exact judgeRun_moves k.mode k.doors k.ord h
  · exact judgeStand_moves k.mode k.ord h
  · exact judgeStable_moves k.mode k.doors k.ord h
  · exact judgeWake_moves k.mode k.charge h
  · exact judgeBrakeTest_moves i hw k.mode k.doors k.ord k.start h
  · exact judgeMaintenance_moves k.mode h
  · exact judgeBrakeRequest_moves w k.mode k.ord h
  · exact judgeResetDemand_moves w k.unlatch h
  · exact judgeSetPosition_moves k.track w k.odo k.toTravel h
  · exact judgeResetEncoder_moves k.track w k.odo k.toTravel h
  · exact judgeActivate_moves i w hw k.prf k.ord k.start h
  · exact judgeAddRestriction_moves w k.restr h
  · exact judgeRemoveRestriction_moves w k.restr h
  · exact judgeRelinquish_moves k.slots h
  · exact judgeReleaseSide_moves w k.doors k.mode k.ord h
  · exact judgeOpenSide_moves i w hw k.start k.doors k.mode k.ord h
  · exact judgeCloseSide_moves i w hw k.start k.doors k.mode k.ord h
  · exact judgeIsolateDoor_moves w k.doors k.mode k.ord h
  · exact judgeRestoreDoor_moves w k.doors k.mode k.ord h
  · exact judgeSetDoorEvents_moves w k.masks h
  · exact judgeSetGuard_moves w k.guards h
  · exact judgeClearGuard_moves w k.guards h
  · exact judgeSendText_moves w h
  · exact judgeTakeMessage_moves w k.msg h
  · exact judgePollReport_moves h
  · exact h

end Sys2Proof.Machine
end

