-- ==== Sys2Proof/Laws/Memory.lean ====
section
/-! SUPPORT. Memory as a list of cells: every write keeps the canonical form, and what a byte reads as after a write. -/

namespace Sys2Proof.Machine

/-! ### One byte -/

theorem Memory.write_rises (m : List Host.Cell) (low a : Nat) (b : Byte) (h : memRises low m = true) (ha : low ≤ a) :
    memRises low (Memory.write m a b) = true := by
  induction m generalizing low with
  | nil => simp [Memory.write, memRises, ha]
  | cons c cs ih =>
    simp only [memRises, Bool.and_eq_true, decide_eq_true_eq] at h
    simp only [Memory.write]
    split
    · simp only [memRises, Bool.and_eq_true, decide_eq_true_eq]; exact ⟨ha, by omega, h.2⟩
    · split
      · subst_vars; simp only [memRises, Bool.and_eq_true, decide_eq_true_eq]; exact ⟨h.1, h.2⟩
      · simp only [memRises, Bool.and_eq_true, decide_eq_true_eq]; exact ⟨h.1, ih _ h.2 (by omega)⟩

theorem Memory.write_wf (m : List Host.Cell) (a : Nat) (b : Byte) (h : Memory.wf m = true) :
    Memory.wf (Memory.write m a b) = true := Memory.write_rises m 0 a b h (Nat.zero_le a)

theorem Memory.read_none_of_rises (m : List Host.Cell) (low a : Nat) (h : memRises low m = true) (ha : a < low) :
    Memory.read m a = none := by
  induction m generalizing low with
  | nil => rfl
  | cons c cs ih =>
    simp only [memRises, Bool.and_eq_true, decide_eq_true_eq] at h
    rw [Memory.read, if_neg (by omega)]
    exact ih _ h.2 (by omega)

theorem Memory.read_write_self (m : List Host.Cell) (a : Nat) (b : Byte) : Memory.read (Memory.write m a b) a = some b := by
  induction m with
  | nil => simp [Memory.write, Memory.read]
  | cons c cs ih =>
    simp only [Memory.write]
    split
    · simp [Memory.read]
    · split
      · simp [Memory.read]
      · rw [Memory.read, if_neg (by omega)]; exact ih

theorem Memory.read_write_other (m : List Host.Cell) (a x : Nat) (b : Byte) (h : x ≠ a) :
    Memory.read (Memory.write m a b) x = Memory.read m x := by
  induction m with
  | nil => simp [Memory.write, Memory.read, Ne.symm h]
  | cons c cs ih =>
    simp only [Memory.write]
    split
    · simp [Memory.read, Ne.symm h]
    · split
      · subst_vars; simp [Memory.read, Ne.symm h]
      · simp only [Memory.read, ih]

theorem Memory.read_write (m : List Host.Cell) (a x : Nat) (b : Byte) :
    Memory.read (Memory.write m a b) x = if x = a then some b else Memory.read m x := by
  split
  · subst_vars; exact Memory.read_write_self m _ b
  · exact Memory.read_write_other m a x b ‹_›

/-! ### One word -/

theorem Memory.writeLane_wf (m : List Host.Cell) (a : Nat) (d : Word) (e : BitVec 4) (i : Nat) (h : Memory.wf m = true) :
    Memory.wf (Memory.writeLane m a d e i) = true := by
  unfold Memory.writeLane; split
  · exact Memory.write_wf _ _ _ h
  · exact h

theorem Memory.writeWord_wf (m : List Host.Cell) (a : Nat) (d : Word) (e : BitVec 4) (h : Memory.wf m = true) :
    Memory.wf (Memory.writeWord m a d e) = true :=
  Memory.writeLane_wf _ _ _ _ _ (Memory.writeLane_wf _ _ _ _ _ (Memory.writeLane_wf _ _ _ _ _ (Memory.writeLane_wf _ _ _ _ _ h)))

theorem Memory.read_writeLane (m : List Host.Cell) (a x : Nat) (d : Word) (e : BitVec 4) (i : Nat) :
    Memory.read (Memory.writeLane m a d e i) x
      = if e.getLsbD i = true ∧ x = a + i then some (BitVec.ofNat 8 (byteAt d i)) else Memory.read m x := by
  unfold Memory.writeLane; split
  · rw [Memory.read_write]; simp [*]
  · simp [*]

/-- A byte outside the word reads as before. -/
theorem Memory.read_writeWord_other (m : List Host.Cell) (a x : Nat) (d : Word) (e : BitVec 4) (h : x < a ∨ a + 4 ≤ x) :
    Memory.read (Memory.writeWord m a d e) x = Memory.read m x := by
  unfold Memory.writeWord
  simp only [Memory.read_writeLane]
  rw [if_neg (by omega), if_neg (by omega), if_neg (by omega), if_neg (by omega)]

/-- A byte of the word reads as written when its enable is set, and as before when it is clear. -/
theorem Memory.read_writeWord_lane (m : List Host.Cell) (a i : Nat) (d : Word) (e : BitVec 4) (h : i < 4) :
    Memory.read (Memory.writeWord m a d e) (a + i)
      = if e.getLsbD i = true then some (BitVec.ofNat 8 (byteAt d i)) else Memory.read m (a + i) := by
  unfold Memory.writeWord
  simp only [Memory.read_writeLane]
  match i, h with
  | 0, _ => simp
  | 1, _ => simp
  | 2, _ => simp
  | 3, _ => simp

theorem Memory.reset_wf : Memory.wf State.reset.path.mem = true := rfl

/-! ### The path -/

/-- An earlier access is over, its write in memory. -/
theorem completeEarlier_access (x : Path) : (completeEarlier x).access = none := by
  unfold completeEarlier; split
  · rfl
  · assumption

theorem completeEarlier_hostData (x : Path) : (completeEarlier x).hostData = x.hostData := by
  unfold completeEarlier; split <;> rfl

theorem completeEarlier_none (x : Path) (h : x.access = none) : completeEarlier x = x := by unfold completeEarlier; rw [h]

theorem completeEarlier_mem (x : Path) :
    (completeEarlier x).mem = x.mem
    ∨ ∃ a, x.access = some a ∧ (completeEarlier x).mem = Memory.writeWord x.mem a.addr.toNat a.data a.enables := by
  unfold completeEarlier; split
  · rename_i a ha
    cases hr : a.isRead
    · exact Or.inr ⟨a, ha, by simp⟩
    · exact Or.inl (by simp)
  · exact Or.inl rfl

theorem completeEarlier_wf (x : Path) (h : Memory.wf x.mem = true) : Memory.wf (completeEarlier x).mem = true := by
  rcases completeEarlier_mem x with e | ⟨a, _, e⟩ <;> rw [e]
  · exact h
  · exact Memory.writeWord_wf _ _ _ _ h

end Sys2Proof.Machine
end

