-- ==== Sys2Proof/Laws/Rows.lean ====
section
/-! SUPPORT. What every command keeps: every row but the two releases and the assertion of warm reset is a chain of moves, and those three
keep what always holds too (`exec_good`). Memory keeps its canonical form (`exec_memory`). -/

namespace Sys2Proof.Machine

open Sys2Proof.Safety (Group)

variable {H : List Group} {p q : Part}

theorem Group.mem_all (h : Group) : h ∈ Group.all := by cases h <;> decide

theorem everything : Everything Group.all := by constructor <;> exact Group.mem_all _
theorem travelling : Travel Group.all := by constructor <;> exact Group.mem_all _
theorem delivering : Delivering Group.all := by constructor <;> exact Group.mem_all _
theorem ordering : Ordering Group.all := { travelling with
  take := Group.mem_all _, start := Group.mem_all _,
  odo := Group.mem_all _, track := Group.mem_all _, prf := Group.mem_all _, unlatch := Group.mem_all _, restr := Group.mem_all _, masks := Group.mem_all _, guards := Group.mem_all _,
  msg := Group.mem_all _, silence := Group.mem_all _ }

/-! ### The end of every change -/

theorem raiseGeneration_moves (s : Section) (h : Moves H p q) : Moves H p (raiseGeneration s q) := h.then (.generations _ _)

theorem raiseChanged_moves (b : Part) (h : Moves H p q) : Moves H p (raiseChanged b q) :=
  foldl_moves _ (fun _ s hr => by split; exacts [raiseGeneration_moves s hr, hr]) _ h

theorem finish_moves (b : Part) (hm : .mode ∈ H) (h : Moves H p q) : Moves H p (finish b q) :=
  raiseChanged_moves _ (autoStand_moves hm h)

theorem raiseGeneration_fold (b r : Part) (l : List Section) : ∃ g,
    l.foldl (fun x s => if sectionChanged b r s then raiseGeneration s x else x) q
      = q.withBridge { q.bridge with generations := g } := by
  induction l generalizing q with
  | nil => exact ⟨q.bridge.generations, rfl⟩
  | cons s l ih =>
    rw [List.foldl_cons]
    split
    · obtain ⟨g, e⟩ := ih (q := raiseGeneration s q); exact ⟨g, e⟩
    · exact ih

/-- Only generation words rise. -/
theorem raiseChanged_eq (b q : Part) : ∃ g, raiseChanged b q = q.withBridge { q.bridge with generations := g } :=
  raiseGeneration_fold b q allSections

theorem autoStand_of (h : (q.mod.mode == .run && q.odo.standstill && q.anyLatched) = false) : autoStand q = q := by
  unfold autoStand; rw [h]; rfl

/-- The end of a change that calls for no return to STAND raises generation words only. -/
theorem finish_eq (b : Part) (h : (q.mod.mode == .run && q.odo.standstill && q.anyLatched) = false) :
    ∃ g, finish b q = q.withBridge { q.bridge with generations := g } := by
  unfold finish; rw [autoStand_of h]; exact raiseChanged_eq b q

/-- Outside RUN the end of a change raises generation words only. -/
theorem finish_outside_run (b : Part) (h : q.mod.mode ≠ .run) :
    ∃ g, finish b q = q.withBridge { q.bridge with generations := g } :=
  finish_eq b (by have : (q.mod.mode == .run) = false := by simpa using h
                  rw [this]; rfl)

/-- What the end of any change leaves alone. -/
theorem finish_frame (b q : Part) : Frame [.mode] q (finish b q) := (finish_moves b (by decide) (Moves.refl q)).frame

/-! ### Changes that only some commands make -/

theorem live_moves (f : Part → Part) (hf : ∀ r, Moves H p r → Moves H p (f r)) (h : Moves H p q) : Moves H p (live f q) := by
  unfold live; split; exacts [h, hf _ h]

theorem active_moves (f : Part → Part) (hf : ∀ r, Moves H p r → Moves H p (f r)) (h : Moves H p q) : Moves H p (active f q) := by
  unfold active; split; exacts [h, hf _ h]

theorem reservoirLevel_moves (c : Bool) (hi : .inputs ∈ H) (hc : .charge ∈ H) (h : Moves H p q) :
    Moves H p (reservoirLevel c q) := by
  have h1 : Moves H p (q.withBrk { q.brk with inputs := { q.brk.inputs with reservoir := c } }) :=
    h.then (.inputs _ _ hi ⟨rfl, rfl⟩ ⟨rfl, rfl, rfl, rfl⟩)
  unfold reservoirLevel; simp only; split; exacts [chargeDone_moves hc h1, h1]

theorem crewKeyLevel_moves (l : Bool) (hc : .charge ∈ H) (hm : .mode ∈ H) (h : Moves H p q) :
    Moves H p (crewKeyLevel l q) := by
  have h1 : Moves H p (q.withMod { q.mod with crewKey := l }) := h.then (.charge _ _ hc rfl (fun _ => ⟨rfl, rfl, rfl⟩) rfl)
  unfold crewKeyLevel; simp only; split; exacts [wakeCar_moves _ hm hc h1, h1]

theorem readEffect_moves (n : Nat) (hh : .evq ∈ H) (h : Moves H p q) : Moves H p (readEffect n q) := by
  unfold readEffect; split
  · exact h.then (.evq _ _ hh (Evq.popped_ok _))
  · split; exacts [h.then (.evq _ _ hh id), h]

theorem aliveTaken_row (hh : .silence ∈ H) (h : Moves H p q) : Moves H p (if q.asserted then q else aliveTaken q) := by
  split; exacts [h, aliveTaken_moves hh h]

theorem guardViolation_moves (i : Fin 4) (v : Word) (n : Nat) (hg : .guards ∈ H) (h : Moves H p q) :
    Moves H p (guardViolation i v n q) := post_moves _ _ (setGuardSlot_moves _ _ hg h)

/-! ### The host's accesses -/

theorem triggerWith_moves (n : Byte) (j : Judge) (t : Trigger) (x : Path) (ho : .ord ∈ H) (ht : .take ∈ H) (hc : Calm j)
    (hj : ∀ r w, Waiting t.slot n.toNat r → Moves H p r → Moves H p (j t.slot w r).1) (h : Moves H p q) : Moves H p (triggerWith n j t q x).1 := by
  unfold triggerWith; simp only; split; exacts [h, triggered_moves n j t ho ht hc hj h]

theorem writeParameter_moves (i : Fin 16) (w : Fin 7) (d : WriteData) (x : Path) (ho : .ord ∈ H) (h : Moves H p q) :
    Moves H p (writeParameter i w d q x).1 := by
  unfold writeParameter; simp only; split; exacts [h, ord_moves _ ho id (fun _ _ => id) (fun _ _ _ _ _ => rfl) h]

theorem writeOrderPartial_moves (i : Fin 16) (d : WriteData) (x : Path) (h : Moves H p q) :
    Moves H p (writeOrderPartial i d q x).1 := by
  unfold writeOrderPartial; simp only; split; exacts [h, post_moves _ _ h]

theorem writeAlive_moves (d : WriteData) (x : Path) (hh : .silence ∈ H) (h : Moves H p q) : Moves H p (writeAlive d q x).1 :=
  aliveTaken_row hh h

theorem writeSettings_moves (w : Fin 256) (d : WriteData) (x : Path) (hp : .prf ∈ H) (ho : .ord ∈ H) (h : Moves H p q) :
    Moves H p (writeSettings w d q x).1 := by
  unfold writeSettings; simp only; split; exacts [h, captureSettings_moves _ _ hp ho h]

theorem writeProfile_moves (w : Fin 2048) (d : WriteData) (x : Path) (hp : .prf ∈ H) (ho : .ord ∈ H) (h : Moves H p q) :
    Moves H p (writeProfile w d q x).1 := by
  unfold writeProfile; simp only; split; exacts [h, captureProfile_moves _ _ hp ho h]

theorem writeMirror_moves (w : Fin 2048) (d : WriteData) (x : Path) (hg : .guards ∈ H) (h : Moves H p q) :
    Moves H p (writeMirror w d q x).1 := by
  unfold writeMirror; split; exacts [h, h.then (.guards _ _ hg rfl)]

theorem readMirror_moves (n : Nat) (e : BitVec 4) (x : Path) (hh : .evq ∈ H) (h : Moves H p q) :
    Moves H p (readMirror n e q x).1 := by
  unfold readMirror; split
  · exact h
  · simp only; split; exacts [readEffect_moves n hh h, h]

theorem hostRead_moves (r : HostRead) (x : Path) (hh : .evq ∈ H) (h : Moves H p q) : Moves H p (hostRead r q x).1 := by
  unfold hostRead; simp only; split; exacts [readMirror_moves _ _ _ hh h, h]

theorem guardedWrite_moves (i : Fin 4) (a : BitVec 24) (d : WriteData) (x : Path) (hg : .guards ∈ H) (h : Moves H p q) :
    Moves H p (guardedWrite i a d q x).1 := by
  unfold guardedWrite; simp only; split
  · exact guardViolation_moves _ _ _ hg h
  · split
    · exact h
    · split <;> exact guardViolation_moves _ _ _ hg h

theorem writeOrderWord_moves (i : Fin 16) (d : WriteData) (x : Path) (k : Ordering H) (h : Moves H p q) :
    Moves H p (writeOrderWord i d q x).1 := by
  unfold writeOrderWord; split
  · exact writeOrderPartial_moves _ _ _ h
  · simp only; split
    · exact h
    · exact triggerWith_moves _ _ _ _ k.ord k.take (judgeOf_calm _) (fun _ w hw hr => judgeOf_moves _ _ w hw k hr) h

theorem writeArea_moves (n : Nat) (a : BitVec 24) (d : WriteData) (x : Path) (k : Ordering H) (h : Moves H p q) :
    Moves H p (writeArea n a d q x).1 := by
  unfold writeArea; split
  · simp only; split
    · exact writeOrderWord_moves _ _ _ k h
    · exact writeParameter_moves _ _ _ _ k.ord h
  · split
    · exact writeAlive_moves _ _ k.silence h
    · split
      · exact writeSettings_moves _ _ _ k.prf k.ord h
      · split
        · exact writeProfile_moves _ _ _ k.prf k.ord h
        · split
          · exact writeMirror_moves _ _ _ k.guards h
          · exact h

theorem hostWrite_moves (a : BitVec 24) (d : WriteData) (x : Path) (k : Ordering H) (h : Moves H p q) :
    Moves H p (hostWrite a d q x).1 := by
  unfold hostWrite; simp only; split
  · exact h
  · split
    · exact writeArea_moves _ _ _ _ k h
    · split; exacts [guardedWrite_moves _ _ _ _ k.guards h, h]

theorem memoryTimesOut_moves (x : Path) (h : Moves H p q) : Moves H p (memoryTimesOut q x).1 := by
  unfold memoryTimesOut; split
  · exact h
  · rename_i a _
    have h1 : ∀ arg, Moves H p (if q.asserted then q else post .memoryTimeout arg q) := by
      intro arg; split; exacts [h, post_moves _ _ h]
    cases a.isRead
    · exact (h1 _).then (.free _ _)
    · exact h1 _

/-! ### The resets -/

theorem cold_bookkeeping : Safety.bookkeeping Ord.cold := by
  refine ⟨fun i k h => ?_, fun i h => (nomatch h.1), fun i h => (nomatch h.1)⟩
  rcases h with h | h | ⟨h | h, _⟩ | ⟨h | h, _⟩ <;> first | cases h.1 | cases h

theorem cold_idle {o : Ord} (i : Fin 16) (h : (Ord.cold.slots[i]).state = .running) : (o.slots[i]).state = .running := by
  unfold Ord.cold at h; simp [Slot.free] at h

theorem abandonAll_moves (hk : .track ∈ H) (hg : .guards ∈ H) (ho : .ord ∈ H) (ht : .take ∈ H) (hp : .prf ∈ H) (hl : .link ∈ H) (hm : .msg ∈ H)
    (h : Moves H p q) : Moves H p (abandonAll q) := by
  unfold abandonAll
  refine brk_moves _ ⟨rfl, rfl, rfl⟩ (fun _ => ⟨rfl, rfl, rfl, rfl⟩) (dor_moves _ ⟨rfl, rfl, rfl, rfl, rfl, rfl, rfl, rfl⟩ (msgHard_moves _ hm (fun _ => by simp) ?_))
  refine linkHard_moves _ hl (fun _ => ⟨fun ht => absurd ht Bool.false_ne_true, txOk_nil⟩) rfl ?_
  exact odo_moves _ ⟨rfl, rfl, rfl, rfl, rfl, rfl, rfl, rfl, rfl, rfl⟩ (fun hn => absurd hk hn) (prf_moves _ hp (ord_moves _ ho (fun _ => cold_bookkeeping) (fun _ => cold_idle) (fun _ hn => absurd ht hn) (h.then (.guards _ _ hg rfl))))

theorem abandonAll_moves_all (h : Moves Group.all p q) : Moves Group.all p (abandonAll q) :=
  abandonAll_moves (Group.mem_all _) (Group.mem_all _) (Group.mem_all _) (Group.mem_all _) (Group.mem_all _) (Group.mem_all _) (Group.mem_all _) h

/-- A quiet entry forms the commanded stage and sets the stage of its entry alone. -/
theorem quietEntry_commanded (d : DemandSource) (s : Stage) (c : Nat) (r : Part) :
    (quietEntry d s c r).brk.commanded = highestStage (quietEntry d s c r).brk.table := rfl

theorem quietEntry_self (d : DemandSource) (s : Stage) (c : Nat) (r : Part) :
    ((quietEntry d s c r).entry d).stage = s ∧ ((quietEntry d s c r).entry d).latched = (r.entry d).latched := by
  unfold quietEntry Part.entry writeEntry
  simp only [Part.withBrk_brk, Fin.getElem_fin, Vector.getElem_set_self]
  split <;> exact ⟨rfl, rfl⟩

theorem quietEntry_other (d c : DemandSource) (s : Stage) (n : Nat) (r : Part) (h : c ≠ d) :
    (quietEntry d s n r).entry c = r.entry c := by
  have : d.index.val ≠ c.index.val := by revert h; cases c <;> cases d <;> decide
  unfold quietEntry Part.entry writeEntry
  simp only [Part.withBrk_brk, Fin.getElem_fin, ne_eq, this, not_false_eq_true, Vector.getElem_set_ne]

theorem quietEntry_latched (d x : DemandSource) (s : Stage) (n : Nat) (r : Part) :
    ((quietEntry d s n r).entry x).latched = (r.entry x).latched := by
  by_cases h : x = d
  · subst h; exact (quietEntry_self x s n r).2
  · rw [quietEntry_other d x s n r h]

theorem quietEntry_rest (d : DemandSource) (s : Stage) (c : Nat) (r : Part) :
    quietEntry d s c r = r.withBrk (quietEntry d s c r).brk := rfl

/-- The mode and the brake's record have changed, and the MODE and TEST entries are written quietly. -/
theorem requiet_good (q : Part) (g : Good p) (hr : q = (p.withBrk q.brk).withMod q.mod) (ht : q.brk.table = p.brk.table)
    (hm : q.mod.mode = p.mod.mode ∨ q.mod.mode = .stand) :
    Good (quietEntry .test .released 0
      (quietEntry .mode (modeRequest q.mod.mode q.charging).1 (modeRequest q.mod.mode q.charging).2 q)) := by
  obtain ⟨a, b⟩ := quietEntry_self .mode (modeRequest q.mod.mode q.charging).1 (modeRequest q.mod.mode q.charging).2 q
  have hc := quietEntry_commanded .test .released 0
    (quietEntry .mode (modeRequest q.mod.mode q.charging).1 (modeRequest q.mod.mode q.charging).2 q)
  have ho := quietEntry_other .test .mode .released 0
    (quietEntry .mode (modeRequest q.mod.mode q.charging).1 (modeRequest q.mod.mode q.charging).2 q) (by decide)
  have hl : (q.entry .mode).latched = false := by unfold Part.entry; rw [ht]; exact g.mode.1
  have hv : ∀ d, ((quietEntry .test .released 0
      (quietEntry .mode (modeRequest q.mod.mode q.charging).1 (modeRequest q.mod.mode q.charging).2 q)).entry d).latched
        = (p.entry d).latched := by
    intro d; rw [quietEntry_latched, quietEntry_latched]; unfold Part.entry; rw [ht]
  have e : quietEntry .test .released 0
      (quietEntry .mode (modeRequest q.mod.mode q.charging).1 (modeRequest q.mod.mode q.charging).2 q)
    = q.withBrk (quietEntry .test .released 0
      (quietEntry .mode (modeRequest q.mod.mode q.charging).1 (modeRequest q.mod.mode q.charging).2 q)).brk := rfl
  rw [← ho] at a b
  generalize quietEntry .test .released 0
    (quietEntry .mode (modeRequest q.mod.mode q.charging).1 (modeRequest q.mod.mode q.charging).2 q) = r at a b hc e hv ⊢
  have em : r.mod = q.mod := by rw [e]; rfl
  have ec : r.charging = q.charging := by unfold Part.charging; rw [em]
  have e1 : r.evq = p.evq := by rw [e, hr]; rfl
  have e2 : r.link = p.link := by rw [e, hr]; rfl
  have e3 : r.msg = p.msg := by rw [e, hr]; rfl
  have e4 : r.ssu = p.ssu := by rw [e, hr]; rfl
  have e5 : r.dor = p.dor := by rw [e, hr]; rfl
  have e6 : r.aut = p.aut := by rw [e, hr]; rfl
  have e7 : r.ord = p.ord := by rw [e, hr]; rfl
  refine ⟨e1 ▸ g.evq, hc, ⟨b.trans hl, by rw [a, em, ec]⟩, e2 ▸ g.link, e3 ▸ g.msg, e4 ▸ g.ssu, by rw [e5]; exact g.permits,
    e6 ▸ g.aut, ?_, ?_, fun d hd => (hv d).trans (g.never d hd), e7 ▸ g.ord⟩
  · rw [em, e6]; intro hx
    rcases hm with hm | hm
    · exact g.run (hm ▸ hx)
    · rw [hm] at hx; cases hx
  · rw [em, e5]
    rcases hm with hm | hm
    · rw [hm]; exact g.doors
    · rw [hm]; intro hx; exact absurd rfl hx

theorem abandonTest_good (g : Good p) : Good (abandonTest p) := by
  unfold abandonTest
  split
  · simp only
    split
    · exact requiet_good _ g rfl rfl (Or.inr rfl)
    · exact requiet_good _ g rfl rfl (Or.inl rfl)
  · exact g

theorem assertWarm_good (g : Good p) : Good (assertWarm p) := by
  unfold assertWarm; split
  · exact (Move.warm p true (Group.mem_all _) : Move Group.all p _).good g
  · exact abandonTest_good ((abandonAll_moves_all ((Moves.refl p).then (.warm _ _ (Group.mem_all _)))).good g)

theorem assertCold_good (g : Good p) : Good (assertCold p) := by
  unfold assertCold; split
  · exact g
  · exact abandonTest_good ((abandonAll_moves_all ((Moves.refl p).then (.cold _ _ (Group.mem_all _)))).good g)

theorem coldDefaults_good (b : BitVec 4) (r : BitVec 2) (p : Part) : Good (coldDefaults b r p) := by
  refine ⟨⟨Nat.zero_le _, trivial⟩, ?_, ⟨rfl, rfl⟩, ⟨fun h => absurd h Bool.false_ne_true, txOk_nil⟩, Nat.zero_le _,
    ⟨Nat.zero_le _, trivial, List.nodup_nil⟩, ⟨Nat.zero_le _, List.nodup_nil⟩, (fun _ h => by cases h), (fun h => by cases h),
    fun h => absurd rfl h, fun d hd => ?_, cold_bookkeeping⟩
  · show Stage.band = highestStage _
    rfl
  · cases d <;> rfl

/-- The events of the release, the doors and their entry: soft. -/
theorem coldEvents_moves (h : Moves H p q) : Moves H p (formDoors (allDoors.foldl (fun x d => coldDoorFault d x)
    (postAt .coldStart (arg2 q.bridge.base.toNat q.link.bitRate.toNat) 0 true q))) :=
  formDoors_moves (foldl_moves _ (fun _ d hr => by unfold coldDoorFault; split; exacts [post_moves _ _ hr, hr]) _
    (postAt_moves _ _ _ _ h))

theorem startTimers_moves (hs : .silence ∈ H) (hc : .charge ∈ H) (hq : q.charging = true) (h : Moves H p q) :
    Moves H p (q.withMod { q.mod with charge := .timing q.now, silence := some q.now }) := by
  refine h.then (.charge _ _ hc rfl (fun hn => absurd hs hn) ?_)
  rw [hq]; rfl

theorem coldStart_moves (hs : .silence ∈ H) (hc : .charge ∈ H) (hq : q.charging = true) (h : Moves H p q) : Moves H p (coldStart q) := by
  have s : Moves [] q _ := coldEvents_moves (Moves.refl q)
  have h1 := coldEvents_moves h
  have c := (s.frame.charge (by simp)).1
  unfold coldStart
  simp only
  generalize formDoors (allDoors.foldl (fun x d => coldDoorFault d x)
    (postAt .coldStart (arg2 q.bridge.base.toNat q.link.bitRate.toNat) 0 true q)) = r at h1 c ⊢
  have h2 := startTimers_moves hs hc (by unfold Part.charging at hq ⊢; rw [c]; exact hq) h1
  refine ssuEvaluate_moves (autNumbers_moves ?_)
  split; exacts [h2, startOperation_moves _ h2]

theorem releaseCold_good (b : BitVec 4) (r : BitVec 2) (g : Good p) : Good (releaseCold b r p) := by
  unfold releaseCold; split
  · exact (raiseChanged_moves _ (coldStart_moves (H := Group.all) (Group.mem_all _) (Group.mem_all _) rfl (Moves.refl _))).good (coldDefaults_good b r p)
  · exact g

theorem raiseAll_moves (b : Part) (hh : .evq ∈ H) (h : Moves H p q) : Moves H p (raiseAll b q) := by
  unfold raiseAll
  refine Moves.then (foldl_moves _ (fun _ s hr => raiseGeneration_moves s hr) _ (h.then (.generations _ _))) (.evq _ _ hh ?_)
  exact id

/-- What the release of warm reset changes. -/
def warmMay : List Group := [.ord, .take, .link, .evq, .guards, .odo, .silence, .charge, .mode]

theorem warmStart_moves (m : ∀ x ∈ warmMay, x ∈ H) (h : Moves H p q) : Moves H p (warmStart q) := by
  unfold warmStart
  have h1 : Moves H p ((q.withOrd Ord.cold).withLink { q.link with queue := [] }) :=
    linkHard_moves (q := q.withOrd Ord.cold) _ (m _ (by decide)) (fun hk => ⟨hk.1, txOk_nil⟩) rfl
      (ord_moves _ (m _ (by decide)) (fun _ => cold_bookkeeping) (fun _ => cold_idle) (fun _ hn => absurd (m _ (by decide)) hn) h)
  have h2 : Moves H p (warmEvents ((q.withOrd Ord.cold).withLink { q.link with queue := [] })) := by
    unfold warmEvents
    exact post_moves _ _ (Moves.then (h1.then (.evq _ { q.evq with queue := [], lost := 0, faults := 0 } (m _ (by decide))
      fun _ => ⟨Nat.zero_le _, trivial⟩)) (.guards _ _ (m _ (by decide)) rfl))
  have h3 : Moves H p (warmTimers (warmEvents ((q.withOrd Ord.cold).withLink { q.link with queue := [] }))) := by
    unfold warmTimers
    exact msg_moves _ ⟨rfl, rfl, rfl, rfl⟩ (silence_moves _ (m _ (by decide)) ⟨rfl, rfl, rfl, rfl⟩
      (odoHard_moves _ (m _ (by decide)) h2))
  exact autoStand_moves (m _ (by decide)) (ssuEvaluate_moves (autNumbers_moves
    (judgeCharge_moves (m _ (by decide)) (startOperation_moves _ h3))))

theorem releaseWarm_moves (h : Moves Group.all p q) : Moves Group.all p (releaseWarm q) := by
  unfold releaseWarm; split
  · exact h
  · split
    · exact h.then (.warm _ _ (Group.mem_all _))
    · exact raiseAll_moves _ (Group.mem_all _) (warmStart_moves (fun _ _ => Group.mem_all _) (h.then (.warm _ _ (Group.mem_all _))))

end Sys2Proof.Machine
end

