-- ==== Sys2Proof/Laws/Returns.lean ====
section
/-! SUPPORT. What the return to STAND (R109), which may end any command, leaves alone: everything but the mode, the events, the brake, the
supervision state, the authority table's numbers, the creep and reverse counters, and generation words. -/

namespace Sys2Proof.Machine

variable {p q r : Part}

/-- Nothing has changed but what a change of mode to STAND touches. -/
structure Returned (p q : Part) : Prop where
  link : q.link = p.link
  msg : q.msg = p.msg
  dor : q.dor = p.dor
  ord : q.ord = p.ord
  prf : q.prf = p.prf
  now : q.now = p.now
  cold : q.coldLine = p.coldLine
  warm : q.warmLine = p.warmLine
  free : q.freeCount = p.freeCount
  base : q.bridge.base = p.bridge.base
  guards : q.bridge.guards = p.bridge.guards
  dropped : q.bridge.dropped = p.bridge.dropped
  odo : q.odo = { p.odo with creep := q.odo.creep, reverse := q.odo.reverse }
  mod : q.mod = { p.mod with mode := q.mod.mode }
  slots : AutSoft p.aut q.aut
  flags : q.aut.overrun = p.aut.overrun ∧ q.aut.lateRevoke = p.aut.lateRevoke
  test : TestKept p.brk q.brk
  inputs : q.brk.inputs = p.brk.inputs

theorem Returned.refl (p : Part) : Returned p p where
  link := rfl
  msg := rfl
  dor := rfl
  ord := rfl
  prf := rfl
  now := rfl
  cold := rfl
  warm := rfl
  free := rfl
  base := rfl
  guards := rfl
  dropped := rfl
  odo := rfl
  mod := rfl
  slots := ⟨rfl, rfl, rfl, rfl, rfl⟩
  flags := ⟨rfl, rfl⟩
  test := TestKept.refl _
  inputs := rfl

theorem Returned.trans (h1 : Returned p q) (h2 : Returned q r) : Returned p r where
  link := h2.link.trans h1.link
  msg := h2.msg.trans h1.msg
  dor := h2.dor.trans h1.dor
  ord := h2.ord.trans h1.ord
  prf := h2.prf.trans h1.prf
  now := h2.now.trans h1.now
  cold := h2.cold.trans h1.cold
  warm := h2.warm.trans h1.warm
  free := h2.free.trans h1.free
  base := h2.base.trans h1.base
  guards := h2.guards.trans h1.guards
  dropped := h2.dropped.trans h1.dropped
  odo := by rw [h2.odo, h1.odo]
  mod := by rw [h2.mod, h1.mod]
  slots := h1.slots.trans h2.slots
  flags := ⟨h2.flags.1.trans h1.flags.1, h2.flags.2.trans h1.flags.2⟩
  test := h1.test.trans h2.test
  inputs := h2.inputs.trans h1.inputs

theorem Returned.of_brake (rest : q = (p.withEvq q.evq).withBrk q.brk) (ht : TestKept p.brk q.brk)
    (hi : q.brk.inputs = p.brk.inputs) : Returned p q where
  link := by rw [rest]; rfl
  msg := by rw [rest]; rfl
  dor := by rw [rest]; rfl
  ord := by rw [rest]; rfl
  prf := by rw [rest]; rfl
  now := by rw [rest]; rfl
  cold := by rw [rest]; rfl
  warm := by rw [rest]; rfl
  free := by rw [rest]; rfl
  base := by rw [rest]; rfl
  guards := by rw [rest]; rfl
  dropped := by rw [rest]; rfl
  odo := by rw [rest]; rfl
  mod := by rw [rest]; rfl
  slots := by rw [rest]; exact ⟨rfl, rfl, rfl, rfl, rfl⟩
  flags := by rw [rest]; exact ⟨rfl, rfl⟩
  test := ht
  inputs := hi

theorem Requested.returned {d : DemandSource} (h : Requested d p q) : Returned p q := .of_brake h.rest h.test h.inputs
theorem OpOnly.returned (h : OpOnly p q) : Returned p q := .of_brake h.rest h.test h.soft.2.2

theorem followEntry_returned (d : DemandSource) (s : Stage) (c : Nat) (p : Part) : Returned p (followEntry d s c p) :=
  (followEntry_requested d s c p).returned
theorem latchEntry_returned (d : DemandSource) (s : Stage) (c : Nat) (p : Part) : Returned p (latchEntry d s c p) :=
  (latchEntry_requested d s c p).returned
theorem post_returned (k : EventKind) (arg : Half) (pos : Word) (sets : Bool) (p : Part) : Returned p (postAt k arg pos sets p) :=
  { Returned.refl p with }
theorem withSsu_returned (x : Ssu) (p : Part) : Returned p (p.withSsu x) := { Returned.refl p with }

theorem toSupervision_returned (s : SupervisionState) (p : Part) : Returned p (toSupervision s p) := by
  unfold toSupervision; split
  · exact Returned.refl _
  · exact (withSsu_returned _ _).trans (post_returned _ _ _ _ _)

theorem requestSupervision_returned (s : Stage) (c : Nat) (p : Part) : Returned p (requestSupervision s c p) := by
  unfold requestSupervision; split
  · exact Returned.refl _
  · exact (withSsu_returned _ _).trans (followEntry_returned _ _ _ _)

theorem evaluateRun_returned (p : Part) : Returned p (evaluateRun p) := by
  unfold evaluateRun
  extract_lets v pm set hold curve trips level _ q1 q2 q3
  have h1 : Returned p q1 := withSsu_returned _ _
  have h2 : Returned p q2 := by
    simp only [q2]; split; exacts [h1, h1.trans (toSupervision_returned _ _)]
  have h3 : Returned p q3 := by
    simp only [q3]; split; exacts [h2.trans (latchEntry_returned _ _ _ _), h2]
  split
  · exact h3.trans (requestSupervision_returned _ _ _)
  · split
    · exact h3.trans (requestSupervision_returned _ _ _)
    · exact h3.trans (requestSupervision_returned _ _ _)

theorem ssuEvaluate_returned (p : Part) : Returned p (ssuEvaluate p) := by
  unfold ssuEvaluate; split
  · exact Returned.refl _
  · simp only; split
    · exact (withSsu_returned _ _).trans (evaluateRun_returned _)
    · exact withSsu_returned _ _

theorem ssuLeaveRun_returned (p : Part) : Returned p (ssuLeaveRun p) := by
  have h1 : Returned p (p.withSsu { p.ssu with hold := false }) := withSsu_returned _ _
  unfold ssuLeaveRun
  simp only
  refine Returned.trans (Returned.trans ?_ (withSsu_returned _ _)) (followEntry_returned _ _ _ _)
  split
  · exact h1
  · exact h1.trans (toSupervision_returned _ _)

theorem modeSsu_returned (old : Mode) (p : Part) : Returned p (modeSsu old p) := by
  unfold modeSsu
  refine Returned.trans ?_ (ssuEvaluate_returned _)
  split; exacts [ssuLeaveRun_returned _, Returned.refl _]

theorem modeAut_returned (old : Mode) (p : Part) : Returned p (modeAut old p) := by
  have h1 : Returned p (p.withAut { p.aut with travel := .none }) :=
    { Returned.refl p with slots := ⟨rfl, rfl, rfl, rfl, rfl⟩, flags := ⟨rfl, rfl⟩ }
  unfold modeAut; simp only; split
  · exact h1.trans (followEntry_returned _ _ _ _)
  · exact h1

theorem modeOdo_returned (p : Part) : Returned p (modeOdo p) := { Returned.refl p with odo := rfl }

theorem formDoors_returned (p : Part) : Returned p (formDoors p) := followEntry_returned _ _ _ _

/-- The blocks' parts of a change to STAND from another mode than STABLED. -/
theorem standParts_returned (old : Mode) (was : Bool) (y : Part) (ho : old ≠ .stabled) (hy : y.mod.mode = .stand) :
    Returned y (modeRlc old (modeDor (modeOdo (modeAut old (modeSsu old (patternChanged was (requestMode y))))))) := by
  have h1 : Returned y (modeOdo (modeAut old (modeSsu old (patternChanged was (requestMode y))))) :=
    ((((requestMode_requested y).returned.trans (patternChanged_only was _).returned).trans (modeSsu_returned old _)).trans
      (modeAut_returned old _)).trans (modeOdo_returned _)
  have hs : Moves [] (requestMode y) (modeOdo (modeAut old (modeSsu old (patternChanged was (requestMode y))))) :=
    modeOdo_moves (modeAut_moves _ (modeSsu_moves _ (patternChanged_moves _ (Moves.refl _))))
  have hm := (hs.frame.mode (by simp)).trans ((congrArg Mod.mode (requestMode_requested y).mod).trans hy)
  generalize modeOdo (modeAut old (modeSsu old (patternChanged was (requestMode y)))) = x at h1 hm ⊢
  have hd : modeDor x = formDoors x := by unfold modeDor; rw [hm]; rfl
  have hf : (formDoors x).mod.mode = .stand := (congrArg Mod.mode (followEntry_requested _ _ _ _).mod).trans hm
  have hr : modeRlc old (modeDor x) = formDoors x := by
    unfold modeRlc; rw [hd, hf, if_neg (by decide), if_neg (by simpa using ho)]
  rw [hr]
  exact h1.trans (formDoors_returned x)

/-- A change to STAND from another mode than STABLED. -/
theorem toStand_returned (cause : ModeCause) (p : Part) (h : p.mod.mode ≠ .stabled) : Returned p (toMode .stand cause p) := by
  have h0 : Returned p (post .modeChanged (BitVec.ofNat 16 (Mode.stand.code * 256 + p.mod.mode.code * 16 + cause.code))
      (p.withMod { p.mod with mode := .stand })) := { Returned.refl p with mod := rfl }
  exact h0.trans (standParts_returned p.mod.mode p.reduced _ h rfl)

/-- The end of a brake test leaves the radio alone. -/
theorem endTest_radio (o : TestOutcome) (a : AbortReason) (w : Word) (p : Part) :
    (endTest o a w p).link = p.link ∧ (endTest o a w p).msg = p.msg := by
  have ho : ∀ (b : Bool) (q : Part), (endTestOrder b w q).link = q.link ∧ (endTestOrder b w q).msg = q.msg := by
    intro b q; unfold endTestOrder; split <;> exact ⟨rfl, rfl⟩
  unfold endTest
  extract_lets _ _ q1 q2 q3
  have h2 : Returned q1 q2 := by
    simp only [q2]; split
    · rename_i h
      exact toStand_returned _ _ (by rw [beq_iff_eq] at h; rw [h]; decide)
    · exact Returned.refl _
  have h3 : Returned q1 (followEntry .test .released 0 q3) :=
    (h2.trans (post_returned _ _ _ _ q2)).trans (followEntry_returned _ _ _ _)
  rw [(ho _ _).1, (ho _ _).2, h3.link, h3.msg]; exact ⟨rfl, rfl⟩

/-- The abort of a brake test leaves the radio alone. -/
theorem abortTest_radio (a : AbortReason) (p : Part) : (abortTest a p).link = p.link ∧ (abortTest a p).msg = p.msg := by
  unfold abortTest; split
  · exact endTest_radio _ _ _ _
  · exact ⟨rfl, rfl⟩

/-- A request of an owner leaves the radio alone. -/
theorem latch_radio (d : DemandSource) (s : Stage) (c : Nat) (p : Part) : (latch d s c p).link = p.link ∧ (latch d s c p).msg = p.msg := by
  have r := latchEntry_returned d s c p
  unfold latch afterRequest; split
  · split
    · rw [(abortTest_radio _ _).1, (abortTest_radio _ _).2]; exact ⟨r.link, r.msg⟩
    · exact ⟨r.link, r.msg⟩
  · exact ⟨r.link, r.msg⟩

theorem autoStand_returned (p : Part) : Returned p (autoStand p) := by
  unfold autoStand; split
  · rename_i h
    simp only [Bool.and_eq_true, beq_iff_eq] at h
    exact toStand_returned _ _ (by rw [h.1.1]; decide)
  · exact Returned.refl _

/-- What the end of any change leaves alone. -/
theorem finish_returned (b q : Part) : Returned q (finish b q) := by
  obtain ⟨g, e⟩ := raiseChanged_eq b (autoStand q)
  unfold finish; rw [e]
  exact (autoStand_returned q).trans { Returned.refl (autoStand q) with }

end Sys2Proof.Machine
end

