-- ==== Sys2Proof/Laws/Steps.lean ====
section
/-! SUPPORT. What one command can do, said once: `mayChange` names the changes that only some commands make, for each command, and
`exec_moves` says that its row is a chain of moves of that kind, closed by `finish`. -/

namespace Sys2Proof.Machine

open Sys2Proof.Safety (Group mayChange travelMay deliveryMay writeMay)

variable {H : List Group} {p q : Part}

/-- A flow byte reaches the assembler only as escaped data. -/
theorem receive_flow_moves (c : Byte) (hc : (c == 0xF4#8 || c == 0xF5#8) = true) (hh : .link ∈ H) (h : Moves H p q) :
    Moves H p (receive c false q) := by
  unfold receive; split
  · exact h
  · by_cases he : escPending q.link.assembler = true
    · simp only [he, Bool.not_true, Bool.and_false, Bool.false_eq_true, if_false]
      split
      · exact noise_moves hh h
      · cases ha : q.link.assembler with
        | outside => rw [ha] at he; cases he
        | inside b d e g =>
          rw [ha] at he
          have he : e = true := he
          subst he
          unfold assemble; rw [ha]
          exact frameData_moves _ _ _ hh h
    · simp only [he, hc, Bool.not_false, Bool.and_self, if_true]
      exact flowByte_moves _ h

/-- A command that moves no reset input. -/
def chained : Instr → Bool
  | .coldResetAssert | .coldResetRelease _ _ | .warmResetAssert | .warmResetRelease => false
  | _ => true

/-- The part of a command before `finish`. -/
structure Chain (H : List Group) (s t : State) : Prop where
  moved : ∃ q, Moves H s.part q ∧ t.part = finish s.part q
  pending : t.pending = s.pending

theorem partRow_chain (f : Part → Part) (s t : State) (h : partRow f s = .next t) (hf : Moves H s.part (f s.part)) :
    Chain H s t := by
  unfold partRow at h; cases h; exact ⟨⟨_, hf, rfl⟩, rfl⟩

theorem hostRow_chain (f : HostEffect) (s t : State) (h : hostRow f s = .next t) (hf : Moves H s.part (f s.part s.path).1) :
    Chain H s t := by
  unfold hostRow at h; cases h; exact ⟨⟨_, hf, rfl⟩, rfl⟩

theorem trigger_chain (n : Byte) (j : Judge) (u : Trigger) (s t : State) (h : hostRow (triggerWith n j u) s = .next t)
    (ho : .ord ∈ H) (ht : .take ∈ H) (hc : Calm j) (hj : ∀ r w, Waiting u.slot n.toNat r → Moves H s.part r → Moves H s.part (j u.slot w r).1) :
    Chain H s t := hostRow_chain _ s t h (triggerWith_moves n j u _ ho ht hc hj (Moves.refl _))

theorem message_chain (src : Sender) (n : Nat) (act : Part → Part × MessageOutcome) (s t : State)
    (h : partRow (messageRow src n act) s = .next t) (hl : .link ∈ H) (hm : .mode ∈ H)
    (ha : ∀ r, Moves H s.part r → Moves H s.part (act r).1) : Chain H s t :=
  partRow_chain _ s t h (messageRow_moves src n act hl hm ha (Moves.refl _))

theorem travel_may : Travel travelMay := by constructor <;> decide
theorem delivery_may : Delivering deliveryMay := by constructor <;> decide
theorem write_may : Ordering writeMay := by
  exact { take := by decide, start := by decide, odo := by decide, track := by decide, doors := by decide, mode := by decide, ord := by decide, slots := by decide, charge := by decide,
          prf := by decide, unlatch := by decide, restr := by decide, masks := by decide, guards := by decide, msg := by decide, silence := by decide }

set_option maxHeartbeats 1000000 in
/-- What a command does to the part. -/
theorem exec_moves (c : Instr) (s t : State) (hc : chained c = true) (h : exec c s = .next t) : Chain (mayChange c) s t := by
  have k := Moves.refl (H := mayChange c) s.part
  cases c <;> dsimp only [mayChange] at k ⊢
  case encoderStep e levels => exact partRow_chain _ s t h (encoderLines_moves (by decide) e levels (by decide) travel_may k)
  case speedWindowTick =>
    exact partRow_chain _ s t h (live_moves _ (fun _ hr => windowTick_moves (by decide) (hr.then (.now _ _ (by decide)))) k)
  case standstillTimerExpiry => exact partRow_chain _ s t h (standstillExpiry_moves (by decide) (by decide) (by decide) k)
  case indexPulse x => exact partRow_chain _ s t h (live_moves _ (fun _ hr => indexPulse_moves (by decide) x (by decide) travel_may hr) k)
  case datumRisingEdge => exact partRow_chain _ s t h (datumRise_moves (by decide) (by decide) travel_may k)
  case datumFallingEdge => exact partRow_chain _ s t h (live_moves _ (fun _ hr => datumFall_moves (by decide) (by decide) travel_may hr) k)
  case copyCompletion =>
    exact partRow_chain _ s t h (live_moves _ (fun _ hr => copyCompleted_moves (by decide) (by decide) (by constructor <;> decide) hr) k)
  case brakeFeedbackChange sw closed =>
    exact partRow_chain _ s t h (feedbackChange_moves sw closed (List.mem_cons_self ..)
      (List.mem_cons_of_mem _ (List.mem_cons_self ..)) (by decide) k)
  case applyingDeadlineExpiry => exact partRow_chain _ s t h (applyingExpiry_moves (by decide) (by decide) k)
  case releasingDeadlineExpiry => exact partRow_chain _ s t h (releasingExpiry_moves (by decide) (by decide) k)
  case testHoldEnd => exact partRow_chain _ s t h (holdEnd_moves (by decide) (by decide) k)
  case reservoirSwitchChange closed => exact partRow_chain _ s t h (reservoirLevel_moves closed (by decide) (by decide) k)
  case chargeTimingEnd => exact partRow_chain _ s t h (active_moves _ (fun _ hr => judgeCharge_moves (by decide) hr) k)
  case crewKeyEdge level => exact partRow_chain _ s t h (crewKeyLevel_moves level (by decide) (by decide) k)
  case silenceTimerExpiry => exact partRow_chain _ s t h (silenceExpiry_moves (by decide) k)
  case doorClEdge d closed => exact partRow_chain _ s t h (doorLevel_moves d _ closed (by decide) (by decide) (by decide) (by decide) k)
  case doorFoEdge d closed => exact partRow_chain _ s t h (doorLevel_moves d _ closed (by decide) (by decide) (by decide) (by decide) k)
  case doorObEdge d closed => exact partRow_chain _ s t h (doorLevel_moves d _ closed (by decide) (by decide) (by decide) (by decide) k)
  case doorPbEdge d closed => exact partRow_chain _ s t h (doorLevel_moves d _ closed (by decide) (by decide) (by decide) (by decide) k)
  case doorEhEdge d closed => exact partRow_chain _ s t h (doorLevel_moves d _ closed (by decide) (by decide) (by decide) (by decide) k)
  case motionTimerExpiry d =>
    exact partRow_chain _ s t h (live_moves _ (fun _ hr => motionExpiry_moves d (by decide) (by decide) (by decide) hr) k)
  case permitLifetimeExpiry platform =>
    exact partRow_chain _ s t h (live_moves _ (fun _ hr => permitExpiry_moves _ (by constructor <;> decide) hr) k)
  case rxCharacter c pe fe => exact partRow_chain _ s t h (receive_moves _ _ delivery_may k)
  case pause => exact partRow_chain _ s t h (receive_flow_moves _ (by decide) (by decide) k)
  case resume => exact partRow_chain _ s t h (receive_flow_moves _ (by decide) (by decide) k)
  case cdRise => exact partRow_chain _ s t h (carrierRise_moves (by decide) k)
  case cdFall => exact partRow_chain _ s t h (carrierFall_moves (by decide) k)
  case gapTimerExpiry => exact partRow_chain _ s t h (active_moves _ (fun _ hr => gapExpiry_moves (by decide) hr) k)
  case deferTimerExpiry => exact partRow_chain _ s t h (active_moves _ (fun _ hr => deferExpiry_moves hr) k)
  case keyUpTimerExpiry => exact partRow_chain _ s t h (active_moves _ (fun _ hr => keyUpExpiry_moves hr) k)
  case txCharacterSent => exact partRow_chain _ s t h (active_moves _ (fun _ hr => characterSent_moves hr) k)
  case tailTimerExpiry => exact partRow_chain _ s t h (active_moves _ (fun _ hr => tailExpiry_moves hr) k)
  case pauseTimerExpiry => exact partRow_chain _ s t h (active_moves _ (fun _ hr => pauseExpiry_moves hr) k)
  case linkTimerExpiry =>
    exact partRow_chain _ s t h (live_moves _ (fun _ hr =>
      linkExpiry_moves (by decide) (by decide) (by constructor <;> decide) hr) k)
  case reportTimerExpiry => exact partRow_chain _ s t h (reportExpiry_moves k)
  case grant src id start stop dir cap =>
    exact message_chain _ _ _ s t h (by decide) (by decide) fun _ hr => grantTaken_moves _ _ (by decide) (by decide) (by decide) hr
  case revoke src id point =>
    exact message_chain _ _ _ s t h (by decide) (by decide) fun _ hr => revokeTaken_moves _ _ (by decide) (by decide) (by decide) hr
  case restrict src id start stop limit dirs =>
    exact message_chain _ _ _ s t h (by decide) (by decide) fun _ hr => restrictTaken_moves _ _ (by decide) hr
  case lift src id => exact message_chain _ _ _ s t h (by decide) (by decide) fun _ hr => liftTaken_moves _ _ (by decide) hr
  case permit src platform mask =>
    exact message_chain _ _ _ s t h (by decide) (by decide) fun _ hr => permitTaken_moves _ _ _ (by constructor <;> decide) hr
  case withdraw src platform =>
    exact message_chain _ _ _ s t h (by decide) (by decide) fun _ hr => withdrawTaken_moves _ (by constructor <;> decide) hr
  case eStop src => exact message_chain _ _ _ s t h (by decide) (by decide) fun _ hr => eStopTaken_moves _ (by decide) (by decide) hr
  case eRelease src => exact message_chain _ _ _ s t h (by decide) (by decide) fun _ hr => eReleaseTaken_moves _ (by decide) hr
  case wakeMessage src => exact message_chain _ _ _ s t h (by decide) (by decide) fun _ hr => wakeTaken_moves (by decide) (by decide) hr
  case poll src => exact message_chain _ _ _ s t h (by decide) (by decide) fun _ hr => handReport_moves hr
  case text src bytes => exact message_chain _ _ _ s t h (by decide) (by decide) fun _ hr => textTaken_moves _ _ (by decide) hr
  case run u => exact trigger_chain _ _ _ s t h (by decide) (by decide) (judgeOf_calm 1) fun _ _ _ hr => judgeRun_moves (by decide) (by decide) (by decide) hr
  case stand u => exact trigger_chain _ _ _ s t h (by decide) (by decide) (judgeOf_calm 2) fun _ _ _ hr => judgeStand_moves (by decide) (by decide) hr
  case stable u => exact trigger_chain _ _ _ s t h (by decide) (by decide) (judgeOf_calm 3) fun _ _ _ hr => judgeStable_moves (by decide) (by decide) (by decide) hr
  case wake u => exact trigger_chain _ _ _ s t h (by decide) (by decide) (judgeOf_calm 4) fun _ _ _ hr => judgeWake_moves (by decide) (by decide) hr
  case brakeTest u =>
    exact trigger_chain _ _ _ s t h (by decide) (by decide) (judgeOf_calm 5) fun _ _ hw hr => judgeBrakeTest_moves _ hw (by decide) (by decide) (by decide) (by decide) hr
  case maintenanceRelease u => exact trigger_chain _ _ _ s t h (by decide) (by decide) (judgeOf_calm 6) fun _ _ _ hr => judgeMaintenance_moves (by decide) hr
  case brakeRequest u =>
    exact trigger_chain _ _ _ s t h (by decide) (by decide) (judgeOf_calm 7) fun _ w _ hr => judgeBrakeRequest_moves w (by decide) (by decide) hr
  case resetDemand u => exact trigger_chain _ _ _ s t h (by decide) (by decide) (judgeOf_calm 8) fun _ w _ hr => judgeResetDemand_moves w (by decide) hr
  case setPosition u =>
    exact trigger_chain _ _ _ s t h (by decide) (by decide) (judgeOf_calm 9) fun _ w _ hr => judgeSetPosition_moves (by decide) w (by decide) (by constructor <;> decide) hr
  case resetEncoder u =>
    exact trigger_chain _ _ _ s t h (by decide) (by decide) (judgeOf_calm 10) fun _ w _ hr => judgeResetEncoder_moves (by decide) w (by decide) (by constructor <;> decide) hr
  case activateProfile u =>
    exact trigger_chain _ _ _ s t h (by decide) (by decide) (judgeOf_calm 11) fun _ w hw hr => judgeActivate_moves _ w hw (by decide) (by decide) (by decide) hr
  case addRestriction u => exact trigger_chain _ _ _ s t h (by decide) (by decide) (judgeOf_calm 12) fun _ w _ hr => judgeAddRestriction_moves w (by decide) hr
  case removeRestriction u => exact trigger_chain _ _ _ s t h (by decide) (by decide) (judgeOf_calm 13) fun _ w _ hr => judgeRemoveRestriction_moves w (by decide) hr
  case relinquish u => exact trigger_chain _ _ _ s t h (by decide) (by decide) (judgeOf_calm 14) fun _ _ _ hr => judgeRelinquish_moves (by decide) hr
  case releaseSide u =>
    exact trigger_chain _ _ _ s t h (by decide) (by decide) (judgeOf_calm 15) fun _ w _ hr => judgeReleaseSide_moves w (by decide) (by decide) (by decide) hr
  case openSide u =>
    exact trigger_chain _ _ _ s t h (by decide) (by decide) (judgeOf_calm 16) fun _ w hw hr => judgeOpenSide_moves _ w hw (by decide) (by decide) (by decide) (by decide) hr
  case closeSide u =>
    exact trigger_chain _ _ _ s t h (by decide) (by decide) (judgeOf_calm 17) fun _ w hw hr => judgeCloseSide_moves _ w hw (by decide) (by decide) (by decide) (by decide) hr
  case isolateDoor u =>
    exact trigger_chain _ _ _ s t h (by decide) (by decide) (judgeOf_calm 18) fun _ w _ hr => judgeIsolateDoor_moves w (by decide) (by decide) (by decide) hr
  case restoreDoor u =>
    exact trigger_chain _ _ _ s t h (by decide) (by decide) (judgeOf_calm 19) fun _ w _ hr => judgeRestoreDoor_moves w (by decide) (by decide) (by decide) hr
  case setDoorEvents u => exact trigger_chain _ _ _ s t h (by decide) (by decide) (judgeOf_calm 20) fun _ w _ hr => judgeSetDoorEvents_moves w (by decide) hr
  case setGuard u => exact trigger_chain _ _ _ s t h (by decide) (by decide) (judgeOf_calm 21) fun _ w _ hr => judgeSetGuard_moves w (by decide) hr
  case clearGuard u => exact trigger_chain _ _ _ s t h (by decide) (by decide) (judgeOf_calm 22) fun _ w _ hr => judgeClearGuard_moves w (by decide) hr
  case sendText u => exact trigger_chain _ _ _ s t h (by decide) (by decide) (judgeOf_calm 23) fun _ w _ hr => judgeSendText_moves w hr
  case takeMessage u => exact trigger_chain _ _ _ s t h (by decide) (by decide) (judgeOf_calm 24) fun _ w _ hr => judgeTakeMessage_moves w (by decide) hr
  case pollReport u => exact trigger_chain _ _ _ s t h (by decide) (by decide) (judgeOf_calm 25) fun _ _ _ hr => judgePollReport_moves hr
  case unknownKindTrigger kind u => exact trigger_chain _ _ _ s t h (by decide) (by decide) (fun _ _ _ hr _ => hr) fun _ _ _ hr => hr
  case parameterWordWrite slot word d => exact hostRow_chain _ s t h (writeParameter_moves _ _ _ _ (by decide) k)
  case orderWordPartialWrite slot d => exact hostRow_chain _ s t h (writeOrderPartial_moves _ _ _ k)
  case aliveWrite d => exact hostRow_chain _ s t h (writeAlive_moves _ _ (by decide) k)
  case settingsWrite word d => exact hostRow_chain _ s t h (writeSettings_moves _ _ _ (by decide) (by decide) k)
  case profileWrite word d => exact hostRow_chain _ s t h (writeProfile_moves _ _ _ (by decide) (by decide) k)
  case eventHeadPop enables => exact hostRow_chain _ s t h (readMirror_moves _ _ _ (by decide) k)
  case faultSummaryRead enables => exact hostRow_chain _ s t h (readMirror_moves _ _ _ (by decide) k)
  case mirrorWrite word d => exact hostRow_chain _ s t h (writeMirror_moves _ _ _ (by decide) k)
  case guardedWrite addr d => exact hostRow_chain _ s t h (hostWrite_moves _ _ _ write_may k)
  case ordinaryWrite addr d => exact hostRow_chain _ s t h (hostWrite_moves _ _ _ write_may k)
  case memoryReady data => exact hostRow_chain (fun p x => (p, memoryAnswers data x)) s t h k
  case memoryTimeout => exact hostRow_chain _ s t h (memoryTimesOut_moves _ k)
  case coldResetAssert => cases hc
  case coldResetRelease b r => cases hc
  case warmResetAssert => cases hc
  case warmResetRelease => cases hc

/-- What every atomic change keeps, the two assertions and the defaults of cold reset keep, every command keeps. -/
theorem exec_keeps (I : Part → Prop) (hm : ∀ H p q, Move H p q → I p → I q) (hw : ∀ p, I p → I (abandonTest p))
    (hd : ∀ b r p, I p → I (coldDefaults b r p)) (c : Instr) (s t : State) (h : exec c s = .next t) (hs : I s.part) :
    I t.part := by
  have hms : ∀ {H p q}, Moves H p q → I p → I q := by
    intro H p q hk hp
    induction hk with
    | refl => exact hp
    | tail _ hx ih => exact hm _ _ _ hx ih
  have hf : ∀ b q, I q → I (finish b q) := fun b q hq =>
    hms (finish_moves (H := Group.all) b (Group.mem_all _) (Moves.refl q)) hq
  by_cases hc : chained c = true
  · obtain ⟨⟨q, hq, e⟩, _⟩ := exec_moves c s t hc h
    rw [e]; exact hf _ _ (hms hq hs)
  · cases c <;> first | exact absurd rfl hc | skip
    case coldResetAssert =>
      cases h
      refine hf _ _ ?_
      unfold assertCold; split
      · exact hs
      · exact hw _ (hms (abandonAll_moves_all ((Moves.refl _).then (.cold _ _ (Group.mem_all _)))) hs)
    case coldResetRelease b r =>
      cases h
      show I (releaseCold b r s.part)
      unfold releaseCold; split
      · exact hms (raiseChanged_moves (H := Group.all) _ (coldStart_moves (Group.mem_all _) (Group.mem_all _) rfl (Moves.refl _))) (hd b r _ hs)
      · exact hs
    case warmResetAssert =>
      cases h
      refine hf _ _ ?_
      unfold assertWarm; split
      · exact hms ((Moves.refl (H := Group.all) _).then (.warm _ _ (Group.mem_all _))) hs
      · exact hw _ (hms (abandonAll_moves_all ((Moves.refl _).then (.warm _ _ (Group.mem_all _)))) hs)
    case warmResetRelease =>
      cases h
      exact hms (releaseWarm_moves (Moves.refl _)) hs

/-- What a host read does to the part: a pop or the clearing of the fault summary at the most. -/
theorem takeRead_moves (r : HostRead) (s t : State) (h : takeRead r s = .next t) : Chain [.evq] s t :=
  hostRow_chain _ s t h (hostRead_moves r _ (List.mem_cons_self ..) (Moves.refl _))

/-- What always holds, every host read keeps. -/
theorem takeRead_good (r : HostRead) (s t : State) (h : takeRead r s = .next t) (g : Good s.part) : Good t.part := by
  obtain ⟨⟨q, hq, e⟩, _⟩ := takeRead_moves r s t h
  rw [e]
  exact (finish_moves (H := Group.all) s.part (Group.mem_all _) (Moves.refl q)).good (hq.good g)

/-- What always holds, every command keeps. -/
theorem exec_good (c : Instr) (s t : State) (h : exec c s = .next t) (g : Good s.part) : Good t.part :=
  exec_keeps Good (fun _ _ _ hk hp => hk.good hp) (fun _ hp => abandonTest_good hp) (fun b r p _ => coldDefaults_good b r p)
    c s t h g

end Sys2Proof.Machine
end

