-- ==== Sys2Proof/Laws/Effects.lean ====
section
/-! SUPPORT. How the effect of a command is read off: a row's own change first, then moves that leave it alone, then `finish`. The events a
change posts first (`posts`), the fault bits it sets, and what `finish` and a demand leave alone. -/

namespace Sys2Proof.Machine

open Sys2Proof.Safety (Group)

variable {H : List Group} {p q r : Part}

/-! ### Events -/

theorem posts_nil (h : p.evq.queue <+: q.evq.queue) : Safety.posts p q [] := fun _ => by simpa [Safety.stamped] using h

theorem postAt_queue (k : EventKind) (arg : Half) (pos : Word) (sets : Bool) (p : Part) (h : p.evq.queue.length < 64) :
    (postAt k arg pos sets p).evq.queue = p.evq.queue ++ [⟨p.evq.next, p.now, k, arg, pos⟩]
    ∧ (postAt k arg pos sets p).evq.next = p.evq.next + 1 := by
  rw [postAt_evq]; unfold Evq.posting; simp [h]

/-- A posting, and what is posted after it. -/
theorem posts_cons {k : EventKind} {arg : Half} {pos : Word} {sets : Bool} {l : List (EventKind × Half × Word)}
    (h : Safety.posts (postAt k arg pos sets p) q l) : Safety.posts p q ((k, arg, pos) :: l) := by
  intro hl
  simp only [List.length_cons] at hl
  obtain ⟨h1, h2⟩ := postAt_queue k arg pos sets p (by omega)
  have := h (by rw [h1]; simp; omega)
  rw [h1, h2, show (postAt k arg pos sets p).now = p.now from rfl] at this
  simpa [Safety.stamped] using this

/-- A change of another block before the first event. -/
theorem posts_of_evq (h : Safety.posts r q l) (he : r.evq = p.evq) (hn : r.now = p.now) : Safety.posts p q l := by
  unfold Safety.posts at h ⊢; rw [he, hn] at h; exact h

theorem posts_more (h : Safety.posts p q l) (hp : q.evq.queue <+: r.evq.queue) : Safety.posts p r l :=
  fun hl => (h hl).trans hp

theorem posts_one (k : EventKind) (arg : Half) (pos : Word) (sets : Bool) (h : (postAt k arg pos sets p).evq.queue <+: q.evq.queue) :
    Safety.posts p q [(k, arg, pos)] := posts_cons (posts_nil h)

/-- Events posted in order come first. -/
theorem posts_all (evs : List (EventKind × Half)) (h : (postAll evs p).evq.queue <+: q.evq.queue) :
    Safety.posts p q (evs.map fun e => (e.1, e.2, p.odo.pos)) := by
  induction evs generalizing p with
  | nil => exact posts_nil h
  | cons e es ih => exact posts_cons (ih (p := post e.1 e.2 p) h)

/-! ### Fault bits -/

/-- A posting that sets the bit of its class. -/
theorem flagged_post (k : EventKind) (arg : Half) (pos : Word) (p : Part) {c : FaultClass} (h : k.faultClass = some c) :
    Safety.flagged c (postAt k arg pos true p) := by
  unfold Safety.flagged; rw [postAt_evq]; unfold Evq.posting; rw [h]
  have : (p.evq.faults ||| (1#12 <<< c.bit)).getLsbD c.bit = true := by
    rw [BitVec.getLsbD_or]
    have : (1#12 <<< c.bit).getLsbD c.bit = true := by cases c <;> decide
    rw [this, Bool.or_true]
  dsimp only; split <;> exact this

theorem flagged_moves (h : Safety.flagged c p) (hm : Moves H p q) (he : .evq ∉ H) : Safety.flagged c q := hm.frame.faults he _ h

/-! ### The end of every change -/

/-- What `finish` leaves alone, and what it adds to the events. -/
theorem finish_all (b q : Part) : Returned q (finish b q) ∧ q.evq.queue <+: (finish b q).evq.queue
    ∧ ∀ i : Nat, q.evq.faults.getLsbD i = true → (finish b q).evq.faults.getLsbD i = true :=
  ⟨finish_returned b q, (finish_frame b q).pre (by decide), (finish_frame b q).faults (by decide)⟩

/-- A change of the part alone: the row's change, then `finish`. -/
theorem partRow_ends (f : Part → Part) (s : State) (P : State → Prop)
    (h : ∀ t : State, t.part = finish s.part (f s.part) → t.path = s.path → t.pending = s.pending → P t) :
    ∃ t, partRow f s = .next t ∧ P t := ⟨_, rfl, h _ rfl rfl rfl⟩

/-- A host access: the row's change of the part, then `finish`, and its change of the path. -/
theorem hostRow_ends (f : HostEffect) (s : State) (P : State → Prop)
    (h : ∀ t : State, t.part = finish s.part (f s.part s.path).1 → t.path = (f s.part s.path).2 → t.pending = s.pending → P t) :
    ∃ t, hostRow f s = .next t ∧ P t := ⟨_, rfl, h _ rfl rfl rfl⟩

/-! ### Orders -/

/-- The part a judge sees: the slot holds kind, tag and working copy of the order. -/
def received (kind : Byte) (u : Trigger) (s : State) : Part :=
  setSlot u.slot (fun x => { x with kind := kind, tag := u.tag, work := Safety.workingCopy u s }) s.part

/-- A trigger that is judged: the judge's answer, recorded, then `finish`. -/
theorem order_ends {kind : Byte} {judge : Judge} {u : Trigger} {s : State} {q : Part} {j : Judgement} (h : Safety.triggerJudged u s)
    (hj : judge u.slot (Safety.workingCopy u s) (received kind u s) = (q, j)) (P : State → Prop)
    (hP : ∀ t : State, t.part = finish s.part (recordJudgement u.slot j q) →
      Safety.orderForwarded kind u j.verdict.1 j.verdict.2 s t → t.pending = s.pending → P t) :
    ∃ t, hostRow (triggerWith kind judge u) s = .next t ∧ P t := by
  have e : (triggered kind judge u s.part) = (recordJudgement u.slot j q, j.verdict) := by
    unfold triggered
    rw [if_neg (by simpa using h.2)]
    simp only
    have e : judge u.slot s.part.ord.shadows[u.slot] (setSlot u.slot (fun x => { x with
        kind := kind, tag := u.tag, work := s.part.ord.shadows[u.slot] }) s.part) = (q, j) := hj
    rw [e]
  refine hostRow_ends _ s P fun t h1 h2 h3 => hP t ?_ ?_ h3
  · rw [h1]; unfold triggerWith; simp only [h.1, Bool.false_eq_true, if_false, e]
  · unfold Safety.orderForwarded; rw [h2]; unfold triggerWith; simp only [h.1, Bool.false_eq_true, if_false, e]; rfl

theorem finish_ord (b q : Part) : (finish b q).ord = q.ord := (finish_returned b q).ord

theorem setSlot_same (i : Fin 16) (f : Slot → Slot) (q : Part) : (setSlot i f q).ord.slots[i] = f q.ord.slots[i] := by
  show (q.ord.slots.set i (f q.ord.slots[i]))[i] = _
  rw [slots_set, if_pos rfl]

/-- An immediate order is taken. -/
theorem order_take {kind : Byte} {judge : Judge} {u : Trigger} {s : State} {q : Part} {w : Word} (h : Safety.triggerJudged u s)
    (hj : judge u.slot (Safety.workingCopy u s) (received kind u s) = (q, .take w)) (P : State → Prop)
    (hP : ∀ t : State, (∃ o, t.part = finish s.part (q.withOrd o)) → Safety.orderDone kind u w s t → t.pending = s.pending → P t) :
    ∃ t, hostRow (triggerWith kind judge u) s = .next t ∧ P t := by
  refine order_ends h hj P fun t h1 h2 h3 => hP t ⟨_, h1⟩ ?_ h3
  have e : t.part.ord.slots[u.slot] = { q.ord.slots[u.slot] with state := .done, verdict := .taken, reason := .ok, result := w } := by
    rw [h1, finish_ord]; exact setSlot_same _ _ _
  exact ⟨by rw [e], by rw [e], by rw [e], by rw [e], h2⟩

/-- An order is refused. -/
theorem order_refuse {kind : Byte} {judge : Judge} {u : Trigger} {s : State} {q : Part} {r : Reason} {w : Word}
    (h : Safety.triggerJudged u s)
    (hj : judge u.slot (Safety.workingCopy u s) (received kind u s) = (q, .refuse r w)) (P : State → Prop)
    (hP : ∀ t : State, (∃ o, t.part = finish s.part (q.withOrd o)) → Safety.orderRefused kind u r w s t → t.pending = s.pending → P t) :
    ∃ t, hostRow (triggerWith kind judge u) s = .next t ∧ P t := by
  refine order_ends h hj P fun t h1 h2 h3 => hP t ⟨_, h1⟩ ?_ h3
  have e : t.part.ord.slots[u.slot] = { q.ord.slots[u.slot] with state := .refused, verdict := .refused, reason := r, result := w } := by
    rw [h1, finish_ord]; exact setSlot_same _ _ _
  exact ⟨by rw [e], by rw [e], by rw [e], by rw [e], h2⟩

/-- A timed order is taken: its block has set the slot. -/
theorem order_timed {kind : Byte} {judge : Judge} {u : Trigger} {s : State} {q : Part} (h : Safety.triggerJudged u s)
    (hj : judge u.slot (Safety.workingCopy u s) (received kind u s) = (q, .timed)) (P : State → Prop)
    (hP : ∀ t : State, t.part = finish s.part q → Safety.orderForwarded kind u .taken .ok s t → t.pending = s.pending → P t) :
    ∃ t, hostRow (triggerWith kind judge u) s = .next t ∧ P t := order_ends h hj P hP

/-! ### A change of mode -/

/-- The events of MOD at a change of mode. -/
def modeEvents (old new : Mode) (cause : ModeCause) (evs : List (EventKind × Half)) : List (EventKind × Half) :=
  (.modeChanged, BitVec.ofNat 16 (new.code * 256 + old.code * 16 + cause.code)) :: evs

/-- A change of mode: MOD's events and its entry first, then the other blocks, which leave the mode. -/
theorem changeMode_spec (new : Mode) (cause : ModeCause) (also : Part → Part) (evs : List (EventKind × Half))
    (ha : ∀ r, also r = postAll evs r) (p : Part) :
    ∃ y, Requested .mode (postAll (modeEvents p.mod.mode new cause evs) (p.withMod { p.mod with mode := new })) y
      ∧ y.mod = { p.mod with mode := new } ∧ y.odo.pos = p.odo.pos
      ∧ (new = .stand ∨ new = .lockout ∨ (.doors ∈ H ∧ .ord ∈ H) → Moves H y (changeMode new cause also p)) := by
  refine ⟨requestMode (postAll (modeEvents p.mod.mode new cause evs) (p.withMod { p.mod with mode := new })), requestMode_requested _,
    requestMode_mode _ _ _, ?_, fun hm => ?_⟩
  · obtain ⟨y, e, _⟩ := postAll_evq (modeEvents p.mod.mode new cause evs) (p.withMod { p.mod with mode := new })
    rw [e, (requestMode_requested _).rest]; rfl
  · have e1 := congrArg Mod.mode (requestMode_mode p { p.mod with mode := new } (modeEvents p.mod.mode new cause evs))
    rw [show postAll (modeEvents p.mod.mode new cause evs) (p.withMod { p.mod with mode := new })
      = also (post .modeChanged (BitVec.ofNat 16 (new.code * 256 + p.mod.mode.code * 16 + cause.code))
          (p.withMod { p.mod with mode := new })) from (ha _).symm] at e1 ⊢
    unfold changeMode
    extract_lets _ old was q1 q2
    have e2 : (modeOdo (modeAut old (modeSsu old (patternChanged was (requestMode q1))))).mod.mode = new := by
      have hs : Moves [] (requestMode q1) (modeOdo (modeAut old (modeSsu old (patternChanged was (requestMode q1))))) :=
        modeOdo_moves (modeAut_moves _ (modeSsu_moves _ (patternChanged_moves _ (Moves.refl _))))
      exact (hs.frame.mode (by simp)).trans e1
    have h2 : Moves H (requestMode q1) q2 := modeRlc_moves _ (modeDor_moves (by rw [e2]; exact hm)
      (modeOdo_moves (modeAut_moves _ (modeSsu_moves _ (patternChanged_moves _ (Moves.refl _))))))
    split; exacts [silenceActs_moves h2, h2]

theorem Requested.pos {d : DemandSource} (h : Requested d p q) : q.odo = p.odo := by rw [h.rest]; rfl

/-- What a change of mode posts first, and the mode after it. -/
theorem changeMode_posts (new : Mode) (cause : ModeCause) (also : Part → Part) (evs : List (EventKind × Half))
    (ha : ∀ r, also r = postAll evs r) (p : Part) :
    (changeMode new cause also p).mod = { p.mod with mode := new }
    ∧ (postAll (modeEvents p.mod.mode new cause evs) (p.withMod { p.mod with mode := new })).evq.queue
        <+: (changeMode new cause also p).evq.queue := by
  obtain ⟨y, h1, h2, _, h3⟩ := changeMode_spec (H := [.doors, .ord]) new cause also evs ha p
  have m := (h3 (Or.inr (Or.inr ⟨by decide, by decide⟩))).frame
  refine ⟨?_, h1.pre.trans (m.pre (by decide))⟩
  have a := m.mode (by decide); have b := m.charge (by decide); have c := m.silence (by decide)
  rw [h2] at a b c
  cases hx : (changeMode new cause also p).mod
  rw [hx] at a b c
  simp_all

/-! ### Deliveries -/

/-- The link when a delivery has been heard: the station's entry, the link timer, and no longer LOST. -/
def heardLink (src : Sender) (p : Part) : Link :=
  { p.link with
    stations := if h : src.station.toNat - 1 < 30 then
      p.link.stations.set (src.station.toNat - 1) ⟨some src.sequence, some p.now⟩ else p.link.stations,
    linkTimer := some p.now, lost := false }

theorem linkHeard_cases (src : Sender) (p : Part) :
    (p.link.lost = false ∧ linkHeard src p = p.withLink (heardLink src p))
    ∨ (p.link.lost = true ∧ linkHeard src p
        = postAt .linkRestored (BitVec.ofNat 16 src.station.toNat) p.odo.pos true (p.withLink (heardLink src p))) := by
  have hs : heard src.station (setStation src.station (fun x => { x with sequence := some src.sequence }) p)
      = p.withLink { heardLink src p with lost := p.link.lost } := by
    unfold heard setStation heardLink
    by_cases h : src.station.toNat - 1 < 30 <;> simp [h, Part.withLink]
  unfold linkHeard
  rw [hs]
  cases hl : p.link.lost
  · exact Or.inl ⟨rfl, rfl⟩
  · exact Or.inr ⟨rfl, rfl⟩

/-- What hearing a delivery does to the part. -/
theorem linkHeard_spec (src : Sender) (p : Part) : ∃ e, linkHeard src p = (p.withEvq e).withLink (heardLink src p) := by
  rcases linkHeard_cases src p with ⟨_, h⟩ | ⟨_, h⟩
  · exact ⟨p.evq, h⟩
  · exact ⟨_, h⟩

/-- What hearing a delivery posts comes first. -/
theorem posts_heard (src : Sender) {p q : Part} {l : List (EventKind × Half × Word)} (h : Safety.posts (linkHeard src p) q l) :
    Safety.posts p q (Safety.linkEvents src p ++ l) := by
  rcases linkHeard_cases src p with ⟨hl, e⟩ | ⟨hl, e⟩ <;> rw [e] at h <;> unfold Safety.linkEvents <;> rw [hl]
  · exact posts_of_evq h rfl rfl
  · exact posts_of_evq (r := p.withLink (heardLink src p)) (posts_cons h) rfl rfl

theorem autoStand_mode (q : Part) (h : (q.mod.mode == .run && q.odo.standstill && q.anyLatched) = true) :
    (autoStand q).mod.mode = .stand := by
  unfold autoStand; rw [if_pos h]; unfold toMode; rw [(changeMode_posts .stand .autoStand id [] (fun _ => rfl) q).1]

/-- The return to STAND that R109 calls for is made. -/
theorem autoStand_idle (q : Part) :
    ((autoStand q).mod.mode == .run && (autoStand q).odo.standstill && (autoStand q).anyLatched) = false := by
  by_cases h : (q.mod.mode == .run && q.odo.standstill && q.anyLatched) = true
  · rw [autoStand_mode q h]; rfl
  · rw [Bool.not_eq_true] at h; rw [autoStand_of h]; exact h

/-- A delivered message: the link has heard it, then its effects, the return to STAND, MESSAGE_ARRIVED, and generations only. -/
theorem message_ends {src : Sender} {kind : Nat} {act : Part → Part × MessageOutcome} {s : State} {q : Part} {o : MessageOutcome}
    (h : Safety.delivered src s) (ha : act (linkHeard src s.part) = (q, o)) (P : State → Prop)
    (hP : ∀ t : State, (∃ g, t.part = (postIf .messageArrived (arg2 kind o.code) (o == .badFormat) (autoStand q)).withBridge
        { (autoStand q).bridge with generations := g }) → t.path = s.path → t.pending = s.pending → P t) :
    ∃ t, partRow (messageRow src kind act) s = .next t ∧ P t := by
  refine partRow_ends _ s P fun t h1 h2 h3 => hP t ?_ h2 h3
  have e : messageRow src kind act s.part = postIf .messageArrived (arg2 kind o.code) (o == .badFormat) (autoStand q) := by
    unfold messageRow deliver
    rw [if_neg (by rw [h.1, h.2]; decide)]
    simp only [ha]
  rw [e] at h1
  obtain ⟨g, eg⟩ := finish_eq s.part
    (q := postIf .messageArrived (arg2 kind o.code) (o == .badFormat) (autoStand q)) (autoStand_idle q)
  exact ⟨g, h1.trans eg⟩

/-- What follows the effects of a message. -/
theorem message_rest {k : EventKind} {arg : Half} {b : Bool} {q r : Part} {g : Vector Word 11}
    (h : r = (postIf k arg b (autoStand q)).withBridge { (autoStand q).bridge with generations := g }) :
    Moves [.mode] q r ∧ Returned q r ∧ Safety.postsLast k arg r := by
  refine ⟨?_, ?_, ?_⟩
  · rw [h]; exact (postIf_moves _ _ _ (autoStand_moves (by decide) (Moves.refl _))).then (.generations _ _)
  · rw [h]
    have a := (autoStand_returned q).trans (post_returned k arg (autoStand q).odo.pos b (autoStand q))
    exact ⟨a.link, a.msg, a.dor, a.ord, a.prf, a.now, a.cold, a.warm, a.free, a.base, a.guards, a.dropped, a.odo, a.mod, a.slots, a.flags,
      a.test, a.inputs⟩
  · intro hl
    rw [h] at hl ⊢
    have hl' : (autoStand q).evq.queue.length < 64 := by
      have : (autoStand q).evq.queue.length ≤ (postIf k arg b (autoStand q)).evq.queue.length := by
        rw [postIf_eq, postAt_evq]; exact (Evq.posting_prefix _ _ _ _ _ _).length_le
      exact lt_of_le_of_lt this hl
    obtain ⟨h1, h2⟩ := postAt_queue k arg (autoStand q).odo.pos b (autoStand q) hl'
    show (postAt k arg (autoStand q).odo.pos b (autoStand q)).evq.queue.getLast? = some ⟨(postAt k arg (autoStand q).odo.pos b
      (autoStand q)).evq.next - 1, (autoStand q).now, k, arg, (autoStand q).odo.pos⟩
    rw [h1, h2, List.getLast?_append]
    simp

/-! ### A wake -/

/-- A wake in STABLED: the mode and the charge wait, and its two events first. -/
theorem wakeCar_wakes (r : WakeReason) (p : Part) (h : p.mod.mode = .stabled) :
    (wakeCar r p).mod = { p.mod with wakeReason := r, charge := .timing p.now, mode := .stand }
    ∧ Safety.posts p (wakeCar r p) (Safety.wakeEvents r p) := by
  unfold wakeCar
  rw [if_pos (by rw [h]; rfl)]
  obtain ⟨h1, h2⟩ := changeMode_posts .stand .wake (post .wake (BitVec.ofNat 16 r.code)) [(.wake, BitVec.ofNat 16 r.code)] (fun _ => rfl)
    (p.withMod { p.mod with wakeReason := r, charge := .timing p.now })
  refine ⟨h1, ?_⟩
  have e : Safety.wakeEvents r p = [(EventKind.modeChanged, BitVec.ofNat 16 (Mode.stand.code * 256 + p.mod.mode.code * 16 + ModeCause.wake.code)),
      (EventKind.wake, BitVec.ofNat 16 r.code)].map fun e => (e.1, e.2, p.odo.pos) := by rw [h]; rfl
  rw [e]
  exact posts_of_evq (posts_all (p := (p.withMod { p.mod with wakeReason := r, charge := .timing p.now }).withMod
    { p.mod with wakeReason := r, charge := .timing p.now, mode := .stand }) _ h2) rfl rfl

/-! ### The table of demands -/

/-- The entry of a source stands. -/
def SameEntry (d : DemandSource) (p q : Part) : Prop := q.entry d = p.entry d

theorem Requested.same {c d : DemandSource} (h : Requested c p q) (hd : d ≠ c) : SameEntry d p q := h.other d hd

theorem OpOnly.same {d : DemandSource} (h : OpOnly p q) : SameEntry d p q := by unfold SameEntry Part.entry; rw [h.soft.1]

end Sys2Proof.Machine
end

