-- ==== Sys2Proof/Laws/Paths.lean ====
section
/-! SUPPORT. What one command, or one host read, does to memory: it stands, or the write of the access that waited is in it
(`exec_path`, `takeRead_path`). What a step can be (`step_cases`). -/

namespace Sys2Proof.Machine

/-- Memory stands, or the access that waited is completed. -/
def PathKept (x y : Path) : Prop := y.mem = x.mem ∨ y.mem = (completeEarlier x).mem

theorem forwardWrite_kept (a : BitVec 24) (d : Word) (e : BitVec 4) (x : Path) : PathKept x (forwardWrite a d e x) := Or.inr rfl
theorem forwardRead_kept (a : BitVec 24) (e : BitVec 4) (x : Path) : PathKept x (forwardRead a e x) := Or.inr rfl
theorem substitute_kept (d : Word) (x : Path) : PathKept x (substitute d x) := Or.inr rfl

theorem triggerWith_kept (n : Byte) (j : Judge) (t : Trigger) (p : Part) (x : Path) : PathKept x (triggerWith n j t p x).2 := by
  unfold triggerWith; simp only; split <;> exact forwardWrite_kept _ _ _ _

theorem writeOrderWord_kept (i : Fin 16) (d : WriteData) (p : Part) (x : Path) : PathKept x (writeOrderWord i d p x).2 := by
  unfold writeOrderWord; split
  · exact forwardWrite_kept _ _ _ _
  · simp only; split
    · exact forwardWrite_kept _ _ _ _
    · exact triggerWith_kept _ _ _ _ _

theorem writeMirror_kept (w : Fin 2048) (d : WriteData) (p : Part) (x : Path) : PathKept x (writeMirror w d p x).2 := by
  unfold writeMirror; split; exacts [forwardWrite_kept _ _ _ _, Or.inr rfl]

theorem readMirror_kept (n : Nat) (e : BitVec 4) (p : Part) (x : Path) : PathKept x (readMirror n e p x).2 := by
  unfold readMirror; split; exacts [forwardRead_kept _ _ _, substitute_kept _ _]

theorem hostRead_kept (r : HostRead) (p : Part) (x : Path) : PathKept x (hostRead r p x).2 := by
  unfold hostRead; simp only; split; exacts [readMirror_kept _ _ _ _, forwardRead_kept _ _ _]

theorem guardedWrite_kept (i : Fin 4) (a : BitVec 24) (d : WriteData) (p : Part) (x : Path) :
    PathKept x (guardedWrite i a d p x).2 := by
  unfold guardedWrite; simp only; split
  · exact Or.inr rfl
  · split
    · exact forwardWrite_kept _ _ _ _
    · split; exacts [Or.inr rfl, forwardWrite_kept _ _ _ _, forwardWrite_kept _ _ _ _]

theorem writeArea_kept (n : Nat) (a : BitVec 24) (d : WriteData) (p : Part) (x : Path) : PathKept x (writeArea n a d p x).2 := by
  unfold writeArea; split
  · simp only; split
    · exact writeOrderWord_kept _ _ _ _
    · exact forwardWrite_kept _ _ _ _
  · split
    · exact forwardWrite_kept _ _ _ _
    · split
      · exact forwardWrite_kept _ _ _ _
      · split
        · exact forwardWrite_kept _ _ _ _
        · split
          · exact writeMirror_kept _ _ _ _
          · exact forwardWrite_kept _ _ _ _

theorem hostWrite_kept (a : BitVec 24) (d : WriteData) (p : Part) (x : Path) : PathKept x (hostWrite a d p x).2 := by
  unfold hostWrite; simp only; split
  · exact forwardWrite_kept _ _ _ _
  · split
    · exact writeArea_kept _ _ _ _ _
    · split; exacts [guardedWrite_kept _ _ _ _ _, forwardWrite_kept _ _ _ _]

theorem memoryAnswers_kept (d : Word) (x : Path) : PathKept x (memoryAnswers d x) := by
  unfold memoryAnswers; split
  · split; exacts [Or.inl rfl, Or.inr rfl]
  · exact Or.inl rfl

theorem memoryTimesOut_kept (p : Part) (x : Path) : PathKept x (memoryTimesOut p x).2 := by
  unfold memoryTimesOut; split
  · exact Or.inl rfl
  · simp only; split
    · exact Or.inl rfl
    · simp only; split; exacts [Or.inr rfl, Or.inl rfl]

theorem partRow_path (f : Part → Part) (s t : State) (h : partRow f s = .next t) : t.path = s.path := by
  unfold partRow at h; cases h; rfl

theorem hostRow_kept (f : HostEffect) (s t : State) (h : hostRow f s = .next t)
    (hf : PathKept s.path (f s.part s.path).2) : PathKept s.path t.path := by
  unfold hostRow at h; cases h; exact hf

/-- What a command does to memory. -/
theorem exec_path (c : Instr) (s t : State) (h : exec c s = .next t) : PathKept s.path t.path := by
  cases c
  case encoderStep | speedWindowTick | standstillTimerExpiry | indexPulse | datumRisingEdge | datumFallingEdge
      | copyCompletion | brakeFeedbackChange | applyingDeadlineExpiry | releasingDeadlineExpiry | testHoldEnd
      | reservoirSwitchChange | chargeTimingEnd | crewKeyEdge | silenceTimerExpiry | doorClEdge | doorFoEdge | doorObEdge
      | doorPbEdge | doorEhEdge | motionTimerExpiry | permitLifetimeExpiry | rxCharacter | pause | resume | cdRise
      | cdFall | gapTimerExpiry | deferTimerExpiry | keyUpTimerExpiry | txCharacterSent | tailTimerExpiry
      | pauseTimerExpiry | linkTimerExpiry | reportTimerExpiry | grant | revoke | restrict | lift | permit | withdraw
      | eStop | eRelease | wakeMessage | poll | text | coldResetAssert | warmResetAssert =>
    exact Or.inl (congrArg Path.mem (partRow_path _ s t h))
  case run | stand | stable | wake | brakeTest | maintenanceRelease | brakeRequest | resetDemand | setPosition
      | resetEncoder | activateProfile | addRestriction | removeRestriction | relinquish | releaseSide | openSide
      | closeSide | isolateDoor | restoreDoor | setDoorEvents | setGuard | clearGuard | sendText | takeMessage
      | pollReport | unknownKindTrigger =>
    exact hostRow_kept _ s t h (triggerWith_kept _ _ _ _ _)
  case parameterWordWrite | orderWordPartialWrite | aliveWrite | settingsWrite | profileWrite =>
    exact hostRow_kept _ s t h (forwardWrite_kept _ _ _ _)
  case eventHeadPop | faultSummaryRead =>
    exact hostRow_kept _ s t h (readMirror_kept _ _ _ _)
  case mirrorWrite =>
    exact hostRow_kept _ s t h (writeMirror_kept _ _ _ _)
  case guardedWrite | ordinaryWrite =>
    exact hostRow_kept _ s t h (hostWrite_kept _ _ _ _)
  case memoryReady =>
    exact hostRow_kept (fun p x => (p, memoryAnswers _ x)) s t h (memoryAnswers_kept _ _)
  case memoryTimeout =>
    exact hostRow_kept _ s t h (memoryTimesOut_kept _ _)
  case coldResetRelease | warmResetRelease =>
    cases h; exact Or.inl rfl

/-- What a host read does to memory. -/
theorem takeRead_path (r : HostRead) (s t : State) (h : takeRead r s = .next t) : PathKept s.path t.path :=
  hostRow_kept _ s t h (hostRead_kept _ _ _)

/-- Every host read keeps the canonical form of memory. -/
theorem takeRead_memory (r : HostRead) (s t : State) (h : takeRead r s = .next t) (hm : Memory.wf s.path.mem = true) :
    Memory.wf t.path.mem = true := by
  rcases takeRead_path r s t h with e | e <;> rw [e]
  · exact hm
  · exact completeEarlier_wf _ hm

/-- Every command keeps the canonical form of memory. -/
theorem exec_memory (c : Instr) (s t : State) (h : exec c s = .next t) (hm : Memory.wf s.path.mem = true) :
    Memory.wf t.path.mem = true := by
  rcases exec_path c s t h with e | e <;> rw [e]
  · exact hm
  · exact completeEarlier_wf _ hm

/-- Every command answers a next state. -/
theorem exec_next (c : Instr) (s : State) : ∃ t, exec c s = .next t := by cases c <;> exact ⟨_, rfl⟩

/-- No command touches the host's reads that wait. -/
theorem exec_reads (c : Instr) (s t : State) (h : exec c s = .next t) : t.reads = s.reads := by
  cases c <;> (cases h; rfl)

/-- A step runs the command at the front, or with none waiting takes the host's next read, or idles. -/
theorem step_cases (s t : State) (h : step s = .next t) :
    (∃ c rest, s.pending = c :: rest ∧ exec c { s with pending := rest } = .next t)
    ∨ (∃ r rest, s.pending = [] ∧ s.reads = r :: rest ∧ takeRead r { s with reads := rest } = .next t)
    ∨ (s.pending = [] ∧ s.reads = [] ∧ t = s) := by
  unfold step at h
  cases hp : s.pending with
  | cons c rest => rw [hp] at h; exact .inl ⟨c, rest, rfl, h⟩
  | nil =>
    rw [hp] at h
    cases hr : s.reads with
    | cons r rest => rw [hr] at h; exact .inr (.inl ⟨r, rest, rfl, rfl, h⟩)
    | nil => rw [hr] at h; cases h; exact .inr (.inr ⟨rfl, rfl, rfl⟩)

end Sys2Proof.Machine
end

