-- ==== Sys2Proof/Laws/Orders.lean ====
section
/-! SUPPORT. What the ends of changes, the judging of an order, and the REPORT do, each said once: the lemmas that the statements about orders rest on. -/

namespace Sys2Proof.Machine

open Sys2Proof.Safety (Group)

theorem toEnd {H : List Group} {x q : Part} (b : Part) (hm : .mode ∈ H) (h : Moves H x q) : Moves H x (finish b q) := finish_moves b hm h

abbrev afterMay : List Group := [.track, .doors, .mode, .ord, .slots, .charge, .permits, .restr, .msg, .link, .unlatch, .silence]

theorem afterTravel : Travel afterMay := by constructor <;> decide

abbrev spreadMay : List Group := [.doors, .mode, .ord, .slots, .charge, .permits, .restr, .msg, .link, .unlatch, .silence]

theorem spreadTravel : Travel spreadMay := by constructor <;> decide

theorem standDone_iff (p : Part) : Safety.standDone p ↔ (p.mod.mode == .run && p.odo.standstill && p.anyLatched) = false := by
  unfold Safety.standDone; rw [Bool.eq_false_iff]; simp [and_assoc]

theorem latched_after {H : List Group} {p q : Part} {d : DemandSource} {s : Stage} (h : Safety.latchedAt d s p) (hd : d ≠ .mode) (hm : Moves H p q) (hu : .unlatch ∉ H) : Safety.latchedAt d s q :=
  let a := hm.frame.latched hu d hd h.1
  ⟨a.1, Nat.le_trans h.2 a.2⟩

theorem latchEntry_latched (d : DemandSource) (s : Stage) (c : Nat) (p : Part) : Safety.latchedAt d s (latchEntry d s c p) := by
  have := latchEntry_entry d s c p
  refine ⟨this.1, ?_⟩
  rw [this.2, Stage.value_max]; split <;> omega

abbrev testMay : List Group := [.mode, .ord]

theorem endTest_ends (o : TestOutcome) (a : AbortReason) (w : Word) (p : Part) :
    (endTest o a w p).brk.test = none ∧ (endTest o a w p).brk.record.outcome = o ∧ (endTest o a w p).brk.record.abort = a := by
  unfold endTest
  extract_lets _ _ q1 q2 q3
  have h2 : Moves [.mode] q1 q2 := by
    simp only [q2]; split
    · exact toStand_moves _ (by decide) (Moves.refl _)
    · exact Moves.refl _
  have h3 : Moves [.mode] q1 (followEntry .test .released 0 q3) := followEntry_moves _ _ _ (by decide) (postIf_moves _ _ _ h2)
  have k := h3.frame.test (by decide)
  have e : (endTestOrder (o == .aborted) w (followEntry .test .released 0 q3)).brk = (followEntry .test .released 0 q3).brk := by
    unfold endTestOrder; split <;> rfl
  rw [e]
  have s1 := k.step
  refine ⟨?_, k.outcome, k.abort⟩
  have : q1.brk.test = none := rfl
  rw [this] at s1
  cases hx : (followEntry .test .released 0 q3).brk.test with
  | none => rfl
  | some v => rw [hx] at s1; cases s1

theorem failTest_ends (p : Part) (h : p.brk.test.isSome = true) : (failTest p).brk.test = none ∧ (failTest p).brk.record.outcome = .failed := by
  unfold failTest
  cases hx : p.brk.test with
  | none => rw [hx] at h; cases h
  | some r => have := endTest_ends .failed .none 2 (markStep r.step .fail p); exact ⟨this.1, this.2.1⟩

theorem postAt_evq_pre (k : EventKind) (arg : Half) (pos : Word) (b : Bool) (p : Part) : p.evq.queue <+: (postAt k arg pos b p).evq.queue := by
  rw [postAt_evq]; exact Evq.posting_prefix _ _ _ _ _ _

theorem endTestOrder_entry (a : Bool) (w : Word) (q : Part) (d : DemandSource) : (endTestOrder a w q).entry d = q.entry d := by
  unfold endTestOrder; split <;> rfl

theorem finish_mod_charge (b q : Part) : (finish b q).mod.charge = q.mod.charge ∧ (finish b q).mod.crewKey = q.mod.crewKey := by
  rw [(finish_returned b q).mod]; exact ⟨rfl, rfl⟩

theorem finish_pre (b q : Part) : q.evq.queue <+: (finish b q).evq.queue := (finish_frame b q).pre (by decide)

theorem finish_silence (b q : Part) : (finish b q).mod.silence = q.mod.silence ∧ (finish b q).mod.hostSilent = q.mod.hostSilent := by
  rw [(finish_returned b q).mod]; exact ⟨rfl, rfl⟩

theorem offer_moves0 (f : TxFrame) (p : Part) : Moves [] p (offer f p) := offer_moves f (Moves.refl _)

theorem chargeDone_spec (p : Part) : (chargeDone p).mod = { p.mod with charge := .complete } ∧ Safety.posts p (chargeDone p) [(.chargeDone, 0, p.odo.pos)] := by
  unfold chargeDone
  simp only
  have r := requestMode_requested (post .chargeDone 0 (p.withMod { p.mod with charge := .complete }))
  have o := patternChanged_only p.reduced (requestMode (post .chargeDone 0 (p.withMod { p.mod with charge := .complete })))
  refine ⟨?_, posts_of_evq (posts_one _ _ _ true (r.pre.trans o.pre)) rfl rfl⟩
  rw [o.rest]; exact r.mod

theorem txMakeRoom_dor (c : TxClass) (q : Part) : (txMakeRoom c q).dor = q.dor := by
  unfold txMakeRoom; split
  · rfl
  · split <;> rfl

theorem listenLook_dor (q : Part) : (listenLook q).dor = q.dor := by
  unfold listenLook; split
  · split
    · rfl
    · unfold keyUp; split <;> rfl
  · rfl

theorem offer_dor (f : TxFrame) (q : Part) : (offer f q).dor = q.dor := by
  unfold offer; split
  · simp only; rw [listenLook_dor]; exact txMakeRoom_dor _ _
  · rfl
  · split <;> rfl
  · split <;> rfl

theorem handAlarm_dor (k : AlarmKind) (q : Part) : (handAlarm k q).dor = q.dor := offer_dor _ _

abbrev doorMay' : List Group := [.doors, .mode, .ord]

theorem withdrawPermit_moves' {p q : Part} {id : Byte} {s : Side} (h : Moves doorMay' p q) : Moves doorMay' p (withdrawPermit id s q) := by
  unfold withdrawPermit; split
  · exact withdrawSide_moves _ _ (by decide) h
  · exact h

theorem slotsChanged_aut' (p : Part) : (slotsChanged p).aut.current = p.aut.current ∧ (slotsChanged p).aut.next = p.aut.next :=
  let m : Moves [] p (slotsChanged p) := slotsChanged_moves (Moves.refl _)
  ⟨(m.frame.slots (by decide)).1, (m.frame.slots (by decide)).2.1⟩

theorem order_rest {q : Part} {t : State} {b : Part} {o : Ord} (h : t.part = finish b (q.withOrd o)) :
    Returned (q.withOrd o) t.part ∧ Frame [.mode] (q.withOrd o) t.part := by
  rw [h]; exact ⟨finish_returned _ _, finish_frame _ _⟩

theorem check_step {E : State → Prop} {no : State → Reason → Prop} {acc : State → Prop} {rest : State → List (Prop × Reason)} {c : Prop} {r : Reason}
    (h0 : ¬ c → ∃ t, E t ∧ no t r) (h1 : c → ∃ t, E t ∧ Safety.checked (no t) (acc t) (rest t)) :
    ∃ t, E t ∧ Safety.checked (no t) (acc t) ((c, r) :: rest t) := by
  by_cases h : c
  · obtain ⟨t, a, b⟩ := h1 h; exact ⟨t, a, fun hn => absurd h hn, fun _ => b⟩
  · obtain ⟨t, a, b⟩ := h0 h; exact ⟨t, a, fun _ => b, fun hc => absurd hc h⟩

theorem check_end {E : State → Prop} {no : State → Reason → Prop} {acc : State → Prop} (h : ∃ t, E t ∧ acc t) :
    ∃ t, E t ∧ Safety.checked (no t) (acc t) [] := h

theorem refuse_of {kind : Byte} {judge : Judge} {u : Trigger} {s : State} {r : Reason} (h : Safety.triggerJudged u s)
    (hj : judge u.slot (Safety.workingCopy u s) (received kind u s) = (received kind u s, .no r)) :
    ∃ t, hostRow (triggerWith kind judge u) s = .next t ∧ Safety.orderRefused kind u r 0 s t :=
  order_refuse h (r := r) (w := 0) hj _ fun t _ hr _ => hr

/-- as above, with the part unchanged -/
theorem refuse_keep {kind : Byte} {judge : Judge} {u : Trigger} {s : State} {r : Reason} (h : Safety.triggerJudged u s) (hs : Safety.standDone s.part)
    (hj : judge u.slot (Safety.workingCopy u s) (received kind u s) = (received kind u s, .no r)) :
    ∃ t, hostRow (triggerWith kind judge u) s = .next t ∧ Safety.orderRefused kind u r 0 s t ∧ ∀ d, t.part.entry d = s.part.entry d := by
  refine order_refuse h (r := r) (w := 0) hj _ fun t ht hr _ => ⟨hr, fun d => ?_⟩
  obtain ⟨o, ht⟩ := ht
  obtain ⟨g, eg⟩ := finish_eq s.part (q := (received kind u s).withOrd o) ((standDone_iff s.part).1 hs)
  rw [ht, eg]; rfl

theorem shut_iff (p : Part) : Safety.doorsShut p ↔ p.doorsShut = true := by
  unfold Safety.doorsShut Part.doorsShut
  rw [List.all_eq_true]
  constructor
  · intro h d _; rcases h d with h | h <;> rw [h] <;> rfl
  · intro h d
    have := h d (by fin_cases d <;> decide)
    unfold DoorState.shut at this; simpa using this

theorem anyLatched_iff (p : Part) : (∀ d, (p.entry d).latched = false) ↔ p.anyLatched = false := by
  unfold Part.anyLatched
  constructor
  · intro h
    rw [List.any_eq_false]
    intro e he
    obtain ⟨i, hi, rfl⟩ := List.mem_iff_getElem.1 he
    simp only [Vector.length_toList] at hi
    rw [Vector.getElem_toList]
    have k : ∀ d : DemandSource, ¬ (p.entry d).latched = true := fun d => by simp [h d]
    match i, hi with
    | 0, _ => exact k .ordered
    | 1, _ => exact k .mode
    | 2, _ => exact k .supervision
    | 3, _ => exact k .authority
    | 4, _ => exact k .odometry
    | 5, _ => exact k .rollback
    | 6, _ => exact k .doors
    | 7, _ => exact k .handle
    | 8, _ => exact k .radio
    | 9, _ => exact k .silence
    | 10, _ => exact k .feedback
    | 11, _ => exact k .test
  · intro h d
    rw [List.any_eq_false] at h
    have := h (p.entry d) (by unfold Part.entry; simp)
    simpa using this

/-- a RUNNING slot that the door orders do not name stands -/
theorem checkDoor_slot (i : Fin 16) (p : Part) (h : p.ord.openLeft ≠ some i ∧ p.ord.openRight ≠ some i ∧ p.ord.closeLeft ≠ some i ∧ p.ord.closeRight ≠ some i) :
    (checkDoorOrders p).ord.slots[i] = p.ord.slots[i] ∧ (checkDoorOrders p).ord.brakeTest = p.ord.brakeTest := by
  have ho : ∀ s (q : Part), (q.ord.openLeft ≠ some i ∧ q.ord.openRight ≠ some i ∧ q.ord.closeLeft ≠ some i ∧ q.ord.closeRight ≠ some i) →
      ((checkOpen s q).ord.openLeft ≠ some i ∧ (checkOpen s q).ord.openRight ≠ some i ∧ (checkOpen s q).ord.closeLeft ≠ some i ∧ (checkOpen s q).ord.closeRight ≠ some i)
      ∧ (checkOpen s q).ord.slots[i] = q.ord.slots[i] ∧ (checkOpen s q).ord.brakeTest = q.ord.brakeTest := by
    intro s q ⟨h1, h2, h3, h4⟩
    unfold checkOpen; split
    · rename_i j hj
      have hji : j ≠ i := by rintro rfl; cases s; exacts [h1 hj, h2 hj]
      simp only; split
      · cases s
        · refine ⟨⟨fun hh => absurd (show (none : Option (Fin 16)) = some i from hh) (by simp), h2, h3, h4⟩, ?_, rfl⟩
          show (q.ord.slots.set j _)[i] = _; rw [slots_set, if_neg (Ne.symm hji)]
        · refine ⟨⟨h1, fun hh => absurd (show (none : Option (Fin 16)) = some i from hh) (by simp), h3, h4⟩, ?_, rfl⟩
          show (q.ord.slots.set j _)[i] = _; rw [slots_set, if_neg (Ne.symm hji)]
      · exact ⟨⟨h1, h2, h3, h4⟩, rfl, rfl⟩
    · exact ⟨⟨h1, h2, h3, h4⟩, rfl, rfl⟩
  have hc : ∀ s (q : Part), (q.ord.openLeft ≠ some i ∧ q.ord.openRight ≠ some i ∧ q.ord.closeLeft ≠ some i ∧ q.ord.closeRight ≠ some i) →
      ((checkClose s q).ord.openLeft ≠ some i ∧ (checkClose s q).ord.openRight ≠ some i ∧ (checkClose s q).ord.closeLeft ≠ some i ∧ (checkClose s q).ord.closeRight ≠ some i)
      ∧ (checkClose s q).ord.slots[i] = q.ord.slots[i] ∧ (checkClose s q).ord.brakeTest = q.ord.brakeTest := by
    intro s q ⟨h1, h2, h3, h4⟩
    unfold checkClose; split
    · rename_i j hj
      have hji : j ≠ i := by rintro rfl; cases s; exacts [h3 hj, h4 hj]
      simp only; split
      · cases s
        · refine ⟨⟨h1, h2, fun hh => absurd (show (none : Option (Fin 16)) = some i from hh) (by simp), h4⟩, ?_, rfl⟩
          show (q.ord.slots.set j _)[i] = _; rw [slots_set, if_neg (Ne.symm hji)]
        · refine ⟨⟨h1, h2, h3, fun hh => absurd (show (none : Option (Fin 16)) = some i from hh) (by simp)⟩, ?_, rfl⟩
          show (q.ord.slots.set j _)[i] = _; rw [slots_set, if_neg (Ne.symm hji)]
      · exact ⟨⟨h1, h2, h3, h4⟩, rfl, rfl⟩
    · exact ⟨⟨h1, h2, h3, h4⟩, rfl, rfl⟩
  unfold checkDoorOrders
  obtain ⟨a1, a2, a3⟩ := ho .left p h
  obtain ⟨b1, b2, b3⟩ := ho .right _ a1
  obtain ⟨c1, c2, c3⟩ := hc .left _ b1
  obtain ⟨_, d2, d3⟩ := hc .right _ c1
  exact ⟨d2.trans (c2.trans (b2.trans a2)), d3.trans (c3.trans (b3.trans a3))⟩

theorem unnamed (o : Ord) (h : Safety.bookkeeping o) (i : Fin 16) (hi : (o.slots[i]).state ≠ .running) :
    o.openLeft ≠ some i ∧ o.openRight ≠ some i ∧ o.closeLeft ≠ some i ∧ o.closeRight ≠ some i :=
  ⟨fun e => hi (h.1 i 16 (Or.inr (Or.inr (Or.inl ⟨Or.inl e, rfl⟩)))).1, fun e => hi (h.1 i 16 (Or.inr (Or.inr (Or.inl ⟨Or.inr e, rfl⟩)))).1,
   fun e => hi (h.1 i 17 (Or.inr (Or.inr (Or.inr ⟨Or.inl e, rfl⟩)))).1, fun e => hi (h.1 i 17 (Or.inr (Or.inr (Or.inr ⟨Or.inr e, rfl⟩)))).1⟩

theorem captureWatch_idle {p : Part} (h : p.odo.capture = .idle) : captureWatch p = p := by
  unfold captureWatch; rw [h]

theorem captureAfter {H} {p q : Part} (h : Moves H p q) (h1 : .odo ∉ H) (h2 : .track ∉ H) :
   q.odo.capture = p.odo.capture ∧ q.odo.validity = p.odo.validity ∧ q.odo.mismatches = p.odo.mismatches ∧ q.odo.pos = p.odo.pos := by
  have := h.frame.track h1 h2
  unfold OdoKept at this
  rw [this]; exact ⟨rfl, rfl, rfl, rfl⟩

theorem chooseSource_odo (p : Part) : (chooseSource p).odo = { p.odo with source := p.odo.chosen } := by
  unfold chooseSource; split
  · rename_i h; rw [beq_iff_eq] at h; rw [h]
  · rfl

theorem makeUncertain_cap (n : Nat) (p : Part) : (makeUncertain n p).odo.capture = p.odo.capture ∧ (makeUncertain n p).odo.mismatches = p.odo.mismatches := by
  unfold makeUncertain; split <;> exact ⟨rfl, rfl⟩

theorem listenLook_transmits {c k l} {p : Part} (h : ∃ f ∈ p.link.queue, f.cls = c ∧ f.dest = 0 ∧ f.kind = k ∧ f.payload = l) :
    Safety.transmits c k l (listenLook p) := by
  unfold listenLook
  split
  · split
    · exact Or.inl h
    · unfold keyUp
      cases hq : p.link.queue with
      | nil => rw [hq] at h; obtain ⟨f, hf, _⟩ := h; simp at hf
      | cons g rest =>
        rw [hq] at h
        obtain ⟨f, hf, h1, h2, h3, h4⟩ := h
        rcases List.mem_cons.1 hf with rfl | hf
        · exact Or.inr ⟨_, rfl, h1, h2, h3, h4⟩
        · exact Or.inl ⟨f, hf, h1, h2, h3, h4⟩
  · exact Or.inl h

theorem offer_placed (f : TxFrame) (p : Part) (hd : f.dest = 0) (h : offerResult f.cls p = .placed) :
    Safety.transmits f.cls f.kind f.payload (offer f p) := by
  unfold offer; rw [h]
  refine listenLook_transmits ⟨f, ?_, rfl, hd, rfl, rfl⟩
  show f ∈ txInsertTail f (txMakeRoom f.cls p).link.queue
  unfold txInsertTail; simp

theorem offer_refreshed (f : TxFrame) (p : Part) (h : offerResult f.cls p = .refreshed) :
    (offer f p).link.queue = txRefresh f p.link.queue := by unfold offer; rw [h]; rfl

theorem refresh_mem (f : TxFrame) (l : List TxFrame) (h : txHasReport l = true) :
    ∃ g ∈ txRefresh f l, g.cls = .report ∧ g.kind = f.kind ∧ g.payload = f.payload := by
  unfold txHasReport at h; rw [List.any_eq_true] at h
  obtain ⟨g, hg, hc⟩ := h
  have : g.cls = .report := by simpa using hc
  refine ⟨{ g with kind := f.kind, payload := f.payload }, ?_, this, rfl, rfl⟩
  unfold txRefresh; rw [List.mem_map]; exact ⟨g, hg, by rw [if_pos hc]⟩

theorem report_room (p : Part) (hm : p.mod.mode ≠ .stabled) (hr : txHasReport p.link.queue = false) :
    offerResult .report p = if p.link.queue.length < 4 ∨ (∃ f, p.link.queue.getLast? = some f ∧ f.cls = .text) then .placed else .full := by
  have hd : (txDisplaced .report p.link.queue).isSome = true ↔ ∃ f, p.link.queue.getLast? = some f ∧ f.cls = .text := by
    unfold txDisplaced
    cases p.link.queue.getLast? with
    | none => simp
    | some f => cases hf : f.cls <;> simp [hf, TxClass.code]
  unfold offerResult
  rw [hr]
  simp only [← hd]
  by_cases h1 : p.link.queue.length < 4 <;> cases h2 : (txDisplaced .report p.link.queue).isSome <;> simp [h1, hm]

theorem handReport_reported (p : Part) (hm : p.mod.mode ≠ .stabled) {q : Part} (hl : q.link = (handReport p).link) (hq : q.msg = (handReport p).msg) :
    Safety.reported p q := by
  have e : handReport p = (offer { cls := .report, dest := 0, kind := 16, payload := reportPayload p, sequence := none } p).withMsg
      { (offer { cls := .report, dest := 0, kind := 16, payload := reportPayload p, sequence := none } p).msg with reportTimer := some p.now } := by
    unfold handReport; simp only; rw [if_neg (by simpa using hm)]
  rw [e] at hl hq
  refine ⟨by rw [hq]; rfl, fun hr => ?_, fun hr hroom => ?_⟩
  · have h1 : offerResult .report p = .refreshed := by unfold offerResult; rw [hr]; simp [hm]
    obtain ⟨g, h2, h3, h4, h5⟩ := refresh_mem { cls := .report, dest := 0, kind := 16, payload := reportPayload p, sequence := none } _ hr
    refine ⟨g, ?_, h3, h4, h5⟩
    rw [hl]; simp only [Part.withMsg_link]; rw [offer_refreshed _ _ h1]; exact h2
  · have h1 : offerResult .report p = .placed := by rw [report_room p hm hr]; exact if_pos hroom
    have := offer_placed { cls := .report, dest := 0, kind := 16, payload := reportPayload p, sequence := none } p rfl h1
    unfold Safety.transmits at this ⊢
    rw [hl]; exact this

theorem reported_of {p x q : Part} (h : Safety.reported x q) (h1 : x.now = p.now) (h2 : x.link.queue = p.link.queue) (h3 : reportPayload x = reportPayload p) :
    Safety.reported p q := by
  unfold Safety.reported Safety.reportRoom at h ⊢
  rw [h1, h2, h3] at h; exact h

theorem pollReport_ends (u : Trigger) (s : State) (h : Safety.triggerJudged u s) :
    ∃ t, exec (.pollReport u) s = .next t ∧ (s.part.mod.mode ≠ .stabled → Safety.reported s.part t.part)
      ∧ Safety.orderDone 25 u (BitVec.ofNat 32 (offerResult .report s.part).code) s t := by
  refine order_take h (q := handReport (received 25 u s)) (w := BitVec.ofNat 32 (offerResult .report s.part).code) rfl _ fun t ht hr _ => ?_
  refine ⟨fun hm => ?_, hr⟩
  obtain ⟨o, ht⟩ := ht
  have r := (order_rest ht).1
  exact reported_of (handReport_reported (received 25 u s) hm r.link r.msg) rfl rfl rfl

end Sys2Proof.Machine
end

