-- ==== Sys2Proof/Laws/Authority.lean ====
section
/-! SUPPORT. Deliveries, the permit list, and what a GRANT and a REVOKE do to the slots, said once. -/

namespace Sys2Proof.Machine

open Sys2Proof.Safety (Group)

abbrev actMay : List Group := [.permits, .doors, .mode, .ord, .slots, .restr, .unlatch, .charge, .msg]

theorem actPermitting : Permitting actMay := by constructor <;> decide

theorem heard_ends {src : Sender} {kind : Nat} {act : Part → Part × MessageOutcome} {s : State} (h : Safety.delivered src s)
    (ha : ∀ p, Moves actMay p (act p).1) :
    ∃ t, partRow (messageRow src kind act) s = .next t
      ∧ t.part.link.stations[src.station.toNat - 1]? = some ⟨some src.sequence, some s.part.now⟩
      ∧ (∀ i, i ≠ src.station.toNat - 1 → t.part.link.stations[i]? = s.part.link.stations[i]?)
      ∧ t.part.link.linkTimer = some s.part.now ∧ t.part.link.lost = false
      ∧ Safety.posts s.part t.part (Safety.linkEvents src s.part)
      ∧ ∃ o : MessageOutcome, Safety.postsLast .messageArrived (arg2 kind o.code) t.part := by
  refine message_ends (act := act) h (q := (act (linkHeard src s.part)).1) (o := (act (linkHeard src s.part)).2) rfl _ fun t ht _ _ => ?_
  obtain ⟨g, ht⟩ := ht
  obtain ⟨m1, r, pl⟩ := message_rest ht
  have m : Moves actMay (linkHeard src s.part) t.part := (ha _).trans (m1.mono (by decide))
  obtain ⟨e, he⟩ := linkHeard_spec src s.part
  obtain ⟨-, -, f3, f4, f5, -, -⟩ := m.frame.link (by decide)
  have hl : (linkHeard src s.part).link = heardLink src s.part := by rw [he]; rfl
  have hw : src.station.toNat - 1 < 30 := by
    have := h.2; unfold Sender.wf at this; simp at this; omega
  refine ⟨?_, fun i hi => ?_, ?_, ?_, ?_, _, pl⟩
  · rw [f3, hl]; unfold heardLink; simp [hw]
  · rw [f3, hl]; unfold heardLink; simp only [hw, dite_true]
    rw [Vector.getElem?_set]; rw [if_neg (Ne.symm hi)]
  · rw [f4, hl]; rfl
  · rw [f5, hl]; rfl
  · have := posts_heard src (posts_nil (m.frame.pre (by decide)))
    simpa using this

theorem not_platform (b : Part) (id : Byte) (s : Side) : (withdrawPermit id s b).dor.permits = b.dor.permits := by
  have : Moves doorMay' b (withdrawPermit id s b) := by
    unfold withdrawPermit; split
    · exact withdrawSide_moves _ _ (by decide) (Moves.refl _)
    · exact Moves.refl _
  exact this.frame.permits (by decide)

theorem permitMask (x : Byte) (h : x.getLsbD 0 = true ∨ x.getLsbD 1 = true) : ¬ (x.getLsbD 0 = false ∧ x.getLsbD 1 = false) := by
  rintro ⟨a, b⟩; rcases h with h | h <;> simp_all

theorem setDoor_side (d : Fin 8) (f : Door → Door) (p : Part) (s : Side) : (setDoor d f p).side s = p.side s := by cases s <;> rfl

theorem doorTo_side (d : Fin 8) (x : DoorState) (m : Option Word) (p : Part) (s : Side) : (doorTo d x m p).side s = p.side s := by cases s <;> rfl

theorem startReopening_side (d : Fin 8) (p : Part) (s : Side) : (startReopening d p).side s = p.side s := by cases s <;> rfl

theorem leaveOpen_side (d : Fin 8) (p : Part) (s : Side) : (leaveOpen d p).side s = p.side s := by cases s <;> rfl

theorem enterClosing_side (n : Nat) (d : Fin 8) (p : Part) (s : Side) : (enterClosing n d p).side s = p.side s := by
  induction n generalizing p with
  | zero => rfl
  | succ n ih =>
    unfold enterClosing; simp only
    split
    · rw [doorTo_side, doorTo_side]
    · split
      · split
        · split
          · rw [ih, startReopening_side, doorTo_side]
          · rw [leaveOpen_side, startReopening_side, doorTo_side]
        · rw [startReopening_side, doorTo_side]
      · rw [doorTo_side]

theorem withdrawDoor_side (d : Fin 8) (p : Part) (s : Side) : (withdrawDoor d p).side s = p.side s := by
  unfold withdrawDoor; split
  · unfold closeDoor; rw [enterClosing_side, setDoor_side]
  · rfl

theorem foldl_side (f : Part → Fin 8 → Part) (s : Side) (hf : ∀ q d, (f q d).side s = q.side s) (l : List (Fin 8)) (p : Part) : (l.foldl f p).side s = p.side s := by
  induction l generalizing p with
  | nil => rfl
  | cons d l ih => rw [List.foldl_cons, ih, hf]

theorem withdrawSide_side (s x : Side) (c : WithdrawCause) (p : Part) :
    ((withdrawSide s c p).side x) = if x = s ∧ (p.side s).released = true then { p.side s with released := false, platform := 0 } else p.side x := by
  unfold withdrawSide
  by_cases h : (p.side s).released = true
  · rw [if_pos h]; simp only
    rw [foldl_side _ _ fun q d => withdrawDoor_side d q x]
    by_cases hx : x = s
    · subst hx; rw [if_pos ⟨rfl, h⟩]; cases x <;> rfl
    · rw [if_neg fun hh => hx hh.1]
      cases x <;> cases s <;> first | rfl | exact absurd rfl hx
  · rw [if_neg h, if_neg fun hh => h hh.2]

theorem removePermit_spec (id : Byte) (a : Nat) (p q : Part) (hq : Moves [.mode, .ord] (removePermit id a p) q) :
    Safety.permitGone id p q ∧ Safety.posts p q [(.permitChanged, arg2 id.toNat a, p.odo.pos)] := by
  set y := postPermit id a (p.withDor { p.dor with permits := p.dor.permits.filter fun m => m.platform != id }) with hy
  have m2 : Moves doorMay' y q := by
    refine Moves.trans ?_ (hq.mono (by decide))
    exact afterDoors_moves _ (by decide) (by decide) (withdrawPermit_moves' (withdrawPermit_moves' (Moves.refl _)))
  have m3 : Moves [.mode, .ord] (withdrawPermit id .right (withdrawPermit id .left y)) q :=
    (afterDoors_moves p (by decide) (by decide) (Moves.refl _)).trans hq
  have hperm : ∀ s z, z.dor.permits = y.dor.permits → permitted id s z = false := by
    intro s z hz; unfold permitted; rw [hz]
    show (p.dor.permits.filter fun m => m.platform != id).any _ = false
    rw [Bool.eq_false_iff]; intro h
    rw [List.any_eq_true] at h
    obtain ⟨m, hm, hh⟩ := h
    rw [List.mem_filter] at hm
    simp at hm hh
    exact hm.2 hh.1
  have hside : ∀ s, y.side s = p.side s := fun s => by cases s <;> rfl
  have hw : ∀ s z, z.dor.permits = y.dor.permits → ∀ x, (withdrawPermit id s z).side x
      = if x = s ∧ (z.side s).released = true ∧ (z.side s).stationControlled = true ∧ (z.side s).platform = id then { z.side s with released := false, platform := 0 } else z.side x := by
    intro s z hz x; unfold withdrawPermit
    rw [hperm s z hz]
    by_cases h : (z.side s).released = true ∧ (z.side s).stationControlled = true ∧ (z.side s).platform = id
    · rw [if_pos (by simp [h]), withdrawSide_side]; simp [h]
    · rw [if_neg (by simpa using h), if_neg fun hh => h hh.2]
  refine ⟨⟨m2.frame.permits (by decide), fun s h1 h2 h3 => ?_⟩, ?_⟩
  · have hd := m3.frame.doors (by decide)
    have : q.side s = (withdrawPermit id .right (withdrawPermit id .left y)).side s := by cases s; exacts [hd.2.1, hd.2.2]
    rw [this, hw _ _ (not_platform _ _ _)]
    cases s
    · rw [if_neg (by simp), hw _ _ rfl, hside, if_pos ⟨rfl, h1, h2, h3⟩]
    · have e : (withdrawPermit id .left y).side .right = p.side .right := by rw [hw _ _ rfl, if_neg (by simp), hside]
      rw [e, if_pos ⟨rfl, h1, h2, h3⟩]
  · exact posts_of_evq (posts_one _ _ _ true (m2.frame.pre (by decide))) rfl rfl

theorem ssuEvaluate_aut (p : Part) : (ssuEvaluate p).aut = p.aut ∧ (ssuEvaluate p).odo = p.odo := by
  have hf : ∀ d s c (q : Part), (followEntry d s c q).aut = q.aut ∧ (followEntry d s c q).odo = q.odo := by
    intro d s c q; rw [(followEntry_requested d s c q).rest]; exact ⟨rfl, rfl⟩
  have hl : ∀ d s c (q : Part), (latchEntry d s c q).aut = q.aut ∧ (latchEntry d s c q).odo = q.odo := by
    intro d s c q; rw [(latchEntry_requested d s c q).rest]; exact ⟨rfl, rfl⟩
  have ht : ∀ s (q : Part), (toSupervision s q).aut = q.aut ∧ (toSupervision s q).odo = q.odo := by
    intro s q; unfold toSupervision; split <;> exact ⟨rfl, rfl⟩
  have hr : ∀ s c (q : Part), (requestSupervision s c q).aut = q.aut ∧ (requestSupervision s c q).odo = q.odo := by
    intro s c q; unfold requestSupervision; split
    · exact ⟨rfl, rfl⟩
    · exact hf _ _ _ _
  have he : ∀ q : Part, (evaluateRun q).aut = q.aut ∧ (evaluateRun q).odo = q.odo := by
    intro q
    unfold evaluateRun
    extract_lets v pm set hold curve trips level _ a b c
    have ha : a.aut = q.aut ∧ a.odo = q.odo := ⟨rfl, rfl⟩
    have hb : b.aut = q.aut ∧ b.odo = q.odo := by
      simp only [b]; split
      · exact ha
      · rw [(ht _ a).1, (ht _ a).2]; exact ha
    have hc : c.aut = q.aut ∧ c.odo = q.odo := by
      simp only [c]; split
      · rw [(hl _ _ _ b).1, (hl _ _ _ b).2]; exact hb
      · exact hb
    split
    · rw [(hr _ _ c).1, (hr _ _ c).2]; exact hc
    · split
      · rw [(hr _ _ c).1, (hr _ _ c).2]; exact hc
      · rw [(hr _ _ c).1, (hr _ _ c).2]; exact hc
  unfold ssuEvaluate; split
  · exact ⟨rfl, rfl⟩
  · simp only; split
    · rw [(he _).1, (he _).2]; exact ⟨rfl, rfl⟩
    · exact ⟨rfl, rfl⟩

theorem accept_spec (a : Authority) (x : Aut) (p : Part) :
    (acceptGrant a x p).aut.current = x.current ∧ (acceptGrant a x p).aut.next = x.next ∧ (acceptGrant a x p).aut.relinquished = false
    ∧ (acceptGrant a x p).odo = p.odo
    ∧ ∀ q, (acceptGrant a x p).evq.queue <+: q.evq.queue → Safety.posts p q [(.authGranted, a.id, p.odo.pos)] := by
  unfold acceptGrant slotsChanged
  have h := ssuEvaluate_aut (autNumbers (post .authGranted a.id (p.withAut { x with relinquished := false })))
  refine ⟨by rw [h.1]; rfl, by rw [h.1]; rfl, by rw [h.1]; rfl, by rw [h.2]; rfl, fun q hq => ?_⟩
  have m : Moves [] (post .authGranted a.id (p.withAut { x with relinquished := false })) (ssuEvaluate (autNumbers (post .authGranted a.id (p.withAut { x with relinquished := false })))) :=
    ssuEvaluate_moves (autNumbers_moves (Moves.refl _))
  exact posts_of_evq (posts_one _ _ _ true ((m.frame.pre (by decide)).trans hq)) rfl rfl

theorem handReport_aut (q : Part) : (handReport q).aut = q.aut := by
  have mr : ∀ c (q : Part), (txMakeRoom c q).aut = q.aut := by
    intro c q; unfold txMakeRoom; split
    · rfl
    · split <;> rfl
  have ll : ∀ q : Part, (listenLook q).aut = q.aut := by
    intro q; unfold listenLook; split
    · split
      · rfl
      · unfold keyUp; split <;> rfl
    · rfl
  have of : ∀ f (q : Part), (offer f q).aut = q.aut := by
    intro f q; unfold offer; split
    · simp only; rw [ll]; exact mr _ _
    · rfl
    · split <;> rfl
    · split <;> rfl
  unfold handReport; simp only; split
  · exact of _ _
  · exact of _ _

theorem autJudge_spec (p : Part) :
    (p.currentDistance < 0 → p.aut.next.isSome = true → (autJudge false p).aut.current = p.aut.next ∧ (autJudge false p).aut.next = none
        ∧ (autJudge false p).aut.relinquished = p.aut.relinquished)
    ∧ (0 ≤ p.currentDistance → (autJudge false p).aut.current = p.aut.current ∧ (autJudge false p).aut.next = p.aut.next
        ∧ (autJudge false p).aut.relinquished = p.aut.relinquished) := by
  have hdc : (autNumbers p).aut.dc = p.currentDistance := rfl
  have hn : (autNumbers p).aut.next = p.aut.next := rfl
  refine ⟨fun h1 h2 => ?_, fun h1 => ?_⟩
  · have e : autJudge false p = handOver (autNumbers p) := by
      unfold autJudge; simp only [hdc, hn, h1, h2, if_true, Bool.false_and]
      simp
    rw [e]
    unfold handOver
    have := (ssuEvaluate_aut (handReport (post .authHandover (currentId (autNumbers ((autNumbers p).withAut { (autNumbers p).aut with current := (autNumbers p).aut.next, next := none }))) (autNumbers ((autNumbers p).withAut { (autNumbers p).aut with current := (autNumbers p).aut.next, next := none }))))).1
    simp only
    rw [this, handReport_aut]; exact ⟨rfl, rfl, rfl⟩
  · have e : autJudge false p = autNumbers p := by
      unfold autJudge; simp only [hdc]; rw [if_neg (by omega)]
    rw [e]; exact ⟨rfl, rfl, rfl⟩

theorem distance_congr (p q : Part) (h1 : q.aut.current = p.aut.current) (h2 : q.odo = p.odo) (h3 : q.prf = p.prf) : q.currentDistance = p.currentDistance := by
  unfold Part.currentDistance Part.distanceTo Part.rearCounts; rw [h1, h2, h3]

theorem offer_aut (f : TxFrame) (q : Part) : (offer f q).aut = q.aut := by
  have mr : ∀ c (q : Part), (txMakeRoom c q).aut = q.aut := by
    intro c q; unfold txMakeRoom; split
    · rfl
    · split <;> rfl
  have ll : ∀ q : Part, (listenLook q).aut = q.aut := by
    intro q; unfold listenLook; split
    · split
      · rfl
      · unfold keyUp; split <;> rfl
    · rfl
  unfold offer; split
  · simp only; rw [ll]; exact mr _ _
  · rfl
  · split <;> rfl
  · split <;> rfl

theorem abortTest_aut (a : AbortReason) (p : Part) (h : p.mod.mode = .run) : (abortTest a p).aut = p.aut := by
  unfold abortTest; split
  · rename_i t _
    unfold endTest
    simp only
    rw [if_neg (by show ¬ (p.mod.mode == .test) = true; rw [h]; decide)]
    have : ∀ q : Part, (endTestOrder (TestOutcome.aborted == .aborted) (BitVec.ofNat 32 a.code) q).aut = q.aut := by
      intro q; unfold endTestOrder; split <;> rfl
    rw [this, (followEntry_requested _ _ _ _).rest]; rfl
  · rfl

theorem latch_aut (d : DemandSource) (s : Stage) (c : Nat) (p : Part) (h : p.mod.mode = .run) : (latch d s c p).aut = p.aut := by
  have r := latchEntry_requested d s c p
  have ha : (latchEntry d s c p).aut = p.aut := by rw [r.rest]; rfl
  unfold latch afterRequest; split
  · split
    · rw [abortTest_aut _ _ (by rw [r.mod]; exact h), ha]
    · exact ha
  · exact ha

theorem slotsChanged_aut (p : Part) : (slotsChanged p).aut.current = p.aut.current ∧ (slotsChanged p).aut.next = p.aut.next
    ∧ (slotsChanged p).aut.lastRevoke = p.aut.lastRevoke ∧ (slotsChanged p).aut.missed = p.aut.missed ∧ (slotsChanged p).aut.lateRevoke = p.aut.lateRevoke := by
  unfold slotsChanged; rw [(ssuEvaluate_aut _).1]; exact ⟨rfl, rfl, rfl, rfl, rfl⟩

/-- AUTH_REVOKED first, over changes of the authority table -/
theorem revoke_posts {H : List Group} (id : Half) (late : Bool) (p : Part) (x : Aut) (q : Part) (m : Moves H (postRevoked id late (p.withAut x)) q) (he : .evq ∉ H) :
    Safety.posts p q [(.authRevoked, id, p.odo.pos)] :=
  posts_of_evq (posts_one _ _ _ late (m.frame.pre he)) rfl rfl

end Sys2Proof.Machine
end

