-- ==== Sys2Proof/Laws/BrakeSteps.lean ====
section
/-! SUPPORT. The steps of the brake, of the brake test and of the mode changes, said once. -/

namespace Sys2Proof.Machine

open Sys2Proof.Safety (Group)

abbrev bankMay : List Group := [.odo, .track, .doors, .mode, .ord, .slots, .charge, .permits, .link, .silence]

theorem bankEvery : Everything bankMay := by constructor <;> decide

theorem endActivation_spec (ab : Bool) (w : Word) (p : Part) (i : Fin 16) (h : p.ord.activate = some i) :
    endActivation ab w p = slotEnd i ab w (p.withOrd { p.ord with activate := none }) := by
  unfold endActivation; rw [h]

theorem put_same (f : Feedback) (sw : FeedbackSwitch) (b : Bool) (h : f.get sw = b) : f.put sw b = f := by
  subst h; cases sw <;> rfl

theorem settle_state (x : Stage) (p : Part) : (settle x p).brk.state = .settled ∧ (settle x p).brk.confirmed = x := by
  unfold settle stepSettled
  split
  · split <;> exact ⟨rfl, rfl⟩
  · exact ⟨rfl, rfl⟩

theorem finish_test (b p : Part) : TestKept p.brk (finish b p).brk := (finish_frame b p).test (by decide)

theorem test_none {a b : Brk} (h : TestKept a b) (ha : a.test = none) : b.test = none := by
  have := h.step; rw [ha] at this
  cases hb : b.test with
  | none => rfl
  | some v => rw [hb] at this; cases this

theorem test_some {a b : Brk} (h : TestKept a b) (ha : a.test.isSome = true) : b.test.isSome = true := by
  have := congrArg Option.isSome h.step; simpa [ha] using this

/-- no entry becomes latched -/
def NoLatch (p q : Part) : Prop := ∀ d, (q.entry d).latched = (p.entry d).latched

theorem NoLatch.refl (p : Part) : NoLatch p p := fun _ => rfl

theorem NoLatch.trans {p q r : Part} (a : NoLatch p q) (b : NoLatch q r) : NoLatch p r := fun d => (b d).trans (a d)

theorem NoLatch.of_table {p q : Part} (h : q.brk.table = p.brk.table) : NoLatch p q := fun d => by unfold Part.entry; rw [h]

theorem NoLatch.of_brk {p q : Part} (h : q.brk = p.brk) : NoLatch p q := .of_table (by rw [h])

theorem NoLatch.only {p q : Part} (h : OpOnly p q) : NoLatch p q := .of_table h.soft.1

theorem NoLatch.any {p q : Part} (h : NoLatch p q) (hp : p.anyLatched = false) : q.anyLatched = false :=
  (anyLatched_iff q).1 fun d => (h d).trans ((anyLatched_iff p).2 hp d)

theorem followEntry_noLatch (d : DemandSource) (s : Stage) (c : Nat) (p : Part) : NoLatch p (followEntry d s c p) := by
  intro x
  by_cases hx : x = d
  · subst hx
    cases hl : (p.entry x).latched with
    | false => exact (followEntry_entry x s c p hl).2.1
    | true => unfold followEntry; simp only; rw [if_pos hl, hl]
  · rw [(followEntry_requested d s c p).other x hx]

theorem toSupervision_brk (s : SupervisionState) (p : Part) : (toSupervision s p).brk = p.brk := by unfold toSupervision; split <;> rfl

theorem requestSupervision_noLatch (s : Stage) (c : Nat) (p : Part) : NoLatch p (requestSupervision s c p) := by
  unfold requestSupervision; split
  · exact NoLatch.refl _
  · exact fun d => (followEntry_noLatch _ _ _ _ d)

theorem ssuEvaluate_noLatch (p : Part) (h : p.odo.speed ≤ p.prf.settings.emergencyMargin) : NoLatch p (ssuEvaluate p) := by
  unfold ssuEvaluate; split
  · exact NoLatch.refl _
  · have hn : NoLatch p (ssuNumbers p) := .of_brk rfl
    simp only; split
    · refine hn.trans ?_
      unfold evaluateRun
      extract_lets v pm set hold curve trips level _ q1 q2 q3
      have ht : trips = false := by
        have : ¬ pm + set.emergencyMargin < v := by
          have : v = p.odo.speed := rfl
          have : set = p.prf.settings := rfl
          simp only [*]; omega
        simp [trips, this]
      have h2 : NoLatch (ssuNumbers p) q2 := by
        simp only [q2]; split; exacts [.of_brk rfl, .of_brk (toSupervision_brk _ _)]
      have h3 : NoLatch (ssuNumbers p) q3 := by
        simp only [q3, ht]; exact h2
      split
      · exact h3.trans (requestSupervision_noLatch _ _ _)
      · split <;> exact h3.trans (requestSupervision_noLatch _ _ _)
    · exact hn

theorem doorTo_brk (d : Fin 8) (s : DoorState) (m : Option Word) (p : Part) : (doorTo d s m p).brk = p.brk := rfl

theorem startReopening_brk (d : Fin 8) (p : Part) : (startReopening d p).brk = p.brk := rfl

theorem leaveOpen_brk (d : Fin 8) (p : Part) : (leaveOpen d p).brk = p.brk := rfl

theorem enterClosing_brk (n : Nat) (d : Fin 8) (p : Part) : (enterClosing n d p).brk = p.brk := by
  induction n generalizing p with
  | zero => rfl
  | succ n ih =>
    unfold enterClosing
    extract_lets q r
    have hq : q.brk = p.brk := doorTo_brk _ _ _ _
    have hr : r.brk = p.brk := (startReopening_brk d q).trans hq
    clear_value r q
    split
    · exact (doorTo_brk _ _ _ _).trans hq
    · split
      · split
        · split
          · rw [ih, hr]
          · exact (leaveOpen_brk _ _).trans hr
        · exact hr
      · exact hq

theorem withdrawSide_brk (s : Side) (c : WithdrawCause) (p : Part) : (withdrawSide s c p).brk = p.brk := by
  have hw : ∀ d q, (withdrawDoor d q).brk = q.brk := by
    intro d q; unfold withdrawDoor closeDoor; split
    · rw [enterClosing_brk]; rfl
    · rfl
  have hf : ∀ (l : List (Fin 8)) q, (l.foldl (fun q d => withdrawDoor d q) q).brk = q.brk := by
    intro l; induction l with
    | nil => intro q; rfl
    | cons d l ih => intro q; rw [List.foldl_cons, ih, hw]
  unfold withdrawSide; split
  · simp only; rw [hf]; cases s <;> rfl
  · rfl

theorem checkDoorOrders_brk (p : Part) : (checkDoorOrders p).brk = p.brk := by
  have ho : ∀ s q, (checkOpen s q).brk = q.brk := by
    intro s q; unfold checkOpen; split
    · simp only; split
      · cases s <;> rfl
      · rfl
    · rfl
  have hc : ∀ s q, (checkClose s q).brk = q.brk := by
    intro s q; unfold checkClose; split
    · simp only; split
      · cases s <;> rfl
      · rfl
    · rfl
  unfold checkDoorOrders; rw [hc, hc, ho, ho]

theorem modeDor_noLatch (p : Part) : NoLatch p (modeDor p) := by
  unfold modeDor; split
  · have h1 : NoLatch p (withdrawSide .right .mode (withdrawSide .left .mode p)) := .of_brk (by rw [withdrawSide_brk, withdrawSide_brk])
    exact (h1.trans (followEntry_noLatch _ _ _ _)).trans (.of_brk (checkDoorOrders_brk _))
  · exact followEntry_noLatch _ _ _ _

/-- the entry to RUN from STAND latches nothing when the host is not silent and the car is no faster than the emergency margin -/
theorem toRun_noLatch (p : Part) (hm : p.mod.mode = .stand) (hh : p.mod.hostSilent = false) (hv : p.odo.speed ≤ p.prf.settings.emergencyMargin) :
    NoLatch p (toMode .run .order p) ∧ (toMode .run .order p).mod.mode = .run := by
  have hmod := (changeMode_posts .run .order id [] (fun _ => rfl) p).1
  refine ⟨?_, by unfold toMode; rw [hmod]⟩
  unfold toMode changeMode
  extract_lets old was _ q1 q2
  have n1 : NoLatch p q1 := .of_brk rfl
  have n2 : NoLatch p (patternChanged was (requestMode q1)) := (n1.trans (followEntry_noLatch _ _ _ _)).trans (.only (patternChanged_only was _))
  have r2 : Returned q1 (patternChanged was (requestMode q1)) := (requestMode_requested q1).returned.trans (patternChanged_only was _).returned
  have hold : old = .stand := hm
  have n3 : NoLatch p (modeSsu old (patternChanged was (requestMode q1))) := by
    refine n2.trans ?_
    unfold modeSsu; rw [hold]
    refine ssuEvaluate_noLatch _ ?_
    show (patternChanged was (requestMode q1)).odo.speed ≤ (patternChanged was (requestMode q1)).prf.settings.emergencyMargin
    rw [r2.prf, r2.odo]; exact hv
  have n4 : NoLatch p (modeAut old (modeSsu old (patternChanged was (requestMode q1)))) := by
    rw [hold] at n3 ⊢; exact n3
  have n5 := n4.trans (modeDor_noLatch (modeOdo (modeAut old (modeSsu old (patternChanged was (requestMode q1))))))
  have e6 : ∀ z : Part, z.mod.mode ≠ .stabled → modeRlc old z = z := by
    intro z hz; unfold modeRlc; rw [if_neg (by simpa using hz), if_neg (by rw [hold]; decide)]
  have hs : q2.mod.hostSilent = false ∧ NoLatch p q2 := by
    have m : Moves [.doors, .ord] (requestMode q1) (modeDor (modeOdo (modeAut old (modeSsu old (patternChanged was (requestMode q1)))))) :=
      modeDor_moves (Or.inr (Or.inr ⟨by decide, by decide⟩)) (modeOdo_moves (modeAut_moves _ (modeSsu_moves _ (patternChanged_moves _ (Moves.refl _)))))
    have hmm : (modeDor (modeOdo (modeAut old (modeSsu old (patternChanged was (requestMode q1)))))).mod.mode = .run :=
      (m.frame.mode (by decide)).trans (congrArg Mod.mode (requestMode_requested q1).mod)
    simp only [q2]; rw [e6 _ (by rw [hmm]; decide)]
    refine ⟨(m.frame.silence (by decide)).2.1.trans ((congrArg Mod.hostSilent (requestMode_requested q1).mod).trans hh), n5⟩
  rw [hs.1]; exact hs.2

theorem endTestOrder_mod (a : Bool) (w : Word) (q : Part) : (endTestOrder a w q).mod = q.mod := by
  unfold endTestOrder; split <;> rfl

theorem abort_stand (a : AbortReason) (x : Part) (xm : x.mod.mode = .stand) : (abortTest a x).mod.mode = .stand := by
  unfold abortTest
  split
  · unfold endTest
    extract_lets _ _ a1 a2 a3
    have e1 : a1.mod = x.mod := rfl
    have e2 : a2 = a1 := by simp only [a2]; rw [if_neg (by rw [e1, xm]; decide)]
    have e3 : a3.mod = a2.mod := rfl
    rw [endTestOrder_mod, (followEntry_requested _ _ _ _).mod, e3, e2, e1, xm]
  · exact xm

theorem SameEntry.trans {d : DemandSource} {p q r : Part} (a : SameEntry d p q) (b : SameEntry d q r) : SameEntry d p r := Eq.trans b a

theorem SameEntry.of_brk {d : DemandSource} {p q : Part} (h : q.brk = p.brk) : SameEntry d p q := by unfold SameEntry Part.entry; rw [h]

theorem ssuEvaluate_stand (x : Part) (h : x.mod.mode ≠ .run) : (ssuEvaluate x).brk = x.brk ∧ (ssuEvaluate x).mod = x.mod := by
  unfold ssuEvaluate; split
  · exact ⟨rfl, rfl⟩
  · simp only
    rw [if_neg (by show ¬ (x.mod.mode == .run) = true; simpa using h)]
    exact ⟨rfl, rfl⟩

theorem testEnds_same (d : DemandSource) (h1 : d ≠ .mode) (h2 : d ≠ .doors) (c : ModeCause) (p : Part) (hp : p.mod.mode = .test) : SameEntry d p (toMode .stand c p) := by
  unfold toMode changeMode
  extract_lets old was _ q1 q2
  have hold : old = .test := hp
  have a1 : SameEntry d p q1 := .of_brk rfl
  have a2 : SameEntry d p (patternChanged was (requestMode q1)) := (a1.trans ((requestMode_requested q1).same h1)).trans (OpOnly.same (patternChanged_only was _))
  have m2 : (patternChanged was (requestMode q1)).mod.mode = .stand := by
    have r : Returned q1 (patternChanged was (requestMode q1)) := (requestMode_requested q1).returned.trans (patternChanged_only was _).returned
    have m : Moves [] (requestMode q1) (patternChanged was (requestMode q1)) := patternChanged_moves _ (Moves.refl _)
    exact (m.frame.mode (by simp)).trans (congrArg Mod.mode (requestMode_requested q1).mod)
  obtain ⟨y, hy⟩ : ∃ y, y = patternChanged was (requestMode q1) := ⟨_, rfl⟩
  rw [← hy] at a2 m2
  obtain ⟨s1, s2⟩ := ssuEvaluate_stand y (by rw [m2]; decide)
  have e3 : modeSsu old y = ssuEvaluate y := by unfold modeSsu; rw [hold]; rfl
  have e4 : modeAut old (modeSsu old y) = (ssuEvaluate y).withAut { (ssuEvaluate y).aut with travel := .none } := by rw [e3]; unfold modeAut; rw [hold]; rfl
  have a5 : SameEntry d p (modeOdo (modeAut old (modeSsu old y))) := a2.trans (.of_brk (by rw [e4]; exact s1))
  have m5 : (modeOdo (modeAut old (modeSsu old y))).mod.mode = .stand := by rw [e4]; show (ssuEvaluate y).mod.mode = _; rw [s2, m2]
  have e6 : modeDor (modeOdo (modeAut old (modeSsu old y))) = formDoors (modeOdo (modeAut old (modeSsu old y))) := by unfold modeDor; rw [m5]; rfl
  have a6 : SameEntry d p (modeDor (modeOdo (modeAut old (modeSsu old y)))) := by rw [e6]; exact a5.trans ((followEntry_requested _ _ _ _).same h2)
  have m6 : (modeDor (modeOdo (modeAut old (modeSsu old y)))).mod.mode = .stand := by rw [e6]; exact (congrArg Mod.mode (followEntry_requested _ _ _ _).mod).trans m5
  have e7 : q2 = modeDor (modeOdo (modeAut old (modeSsu old y))) := by
    simp only [q2]; rw [← hy]; unfold modeRlc; rw [m6, hold]; rfl
  rw [if_neg (by simp), e7]; exact a6

theorem abortTest_same (d : DemandSource) (h1 : d ≠ .mode) (h2 : d ≠ .doors) (h3 : d ≠ .test) (a : AbortReason) (p : Part) : SameEntry d p (abortTest a p) := by
  unfold abortTest; split
  · unfold endTest
    extract_lets _ _ a1 a2 a3
    have b1 : SameEntry d p a1 := rfl
    have b2 : SameEntry d p a2 := by
      simp only [a2]; split
      · rename_i h; exact b1.trans (testEnds_same d h1 h2 _ _ (by simpa using h))
      · exact b1
    have b3 : SameEntry d p a3 := b2.trans (.of_brk rfl)
    exact (b3.trans ((followEntry_requested _ _ _ _).same h3)).trans (endTestOrder_entry _ _ _ _)
  · rfl

theorem stage_of (n : Nat) (s : Stage) (h : Stage.ofNat? n = some s) : s.value = n := by
  unfold Stage.ofNat? at h; split at h <;> first | (cases h; rfl) | cases h

theorem stage_ok (n : Nat) (h : n ≤ 5) : ∃ s, Stage.ofNat? n = some s := by
  match n, h with
  | 0, _ => exact ⟨_, rfl⟩ | 1, _ => exact ⟨_, rfl⟩ | 2, _ => exact ⟨_, rfl⟩ | 3, _ => exact ⟨_, rfl⟩ | 4, _ => exact ⟨_, rfl⟩ | 5, _ => exact ⟨_, rfl⟩

theorem stage_bad (n : Nat) (h : ¬ n ≤ 5) : Stage.ofNat? n = none := by
  unfold Stage.ofNat?; split <;> first | omega | rfl

theorem follow_events (d : DemandSource) (s : Stage) (c : Nat) (p : Part) (hl : (p.entry d).latched = false) {q : Part} (h : (followEntry d s c p).evq.queue <+: q.evq.queue) :
    ((p.entry d).stage.value < s.value → Safety.posts p q [(.demandSet, arg3 d.number s.value c, p.odo.pos)])
    ∧ (s.value < (p.entry d).stage.value → Safety.posts p q [(.demandCleared, arg2 d.number s.value, (p.entry d).setPos)]) := by
  unfold followEntry at h
  simp only at h
  rw [if_neg (by rw [hl]; decide)] at h
  refine ⟨fun hlt => ?_, fun hlt => ?_⟩
  · rw [if_pos hlt] at h
    unfold postDemandSet at h
    exact posts_of_evq (posts_one (p := writeEntry d { p.entry d with stage := s, cause := causeByte s c, setTime := p.now, setPos := p.odo.pos } p) _ _ _ true ((formCommanded_formed _).pre.trans h)) rfl rfl
  · rw [if_neg (by omega), if_pos hlt] at h
    unfold postDemandCleared at h
    exact posts_of_evq (posts_one (p := writeEntry d { p.entry d with stage := s, cause := causeByte s c } p) _ _ _ true ((formCommanded_formed _).pre.trans h)) rfl rfl

theorem follow_idle (s : Stage) (c : Nat) (p : Part) (h : (p.mod.mode == .run && p.odo.standstill && p.anyLatched) = false) (hl : (p.entry .ordered).latched = false) :
    ((follow .ordered s c p).mod.mode == .run && (follow .ordered s c p).odo.standstill && (follow .ordered s c p).anyLatched) = false := by
  have r := followEntry_requested .ordered s c p
  have h1 : ((followEntry .ordered s c p).mod.mode == .run && (followEntry .ordered s c p).odo.standstill && (followEntry .ordered s c p).anyLatched) = false := by
    rw [congrArg Mod.mode r.mod, r.pos]
    by_cases ha : p.anyLatched = true
    · rw [ha] at h
      cases h2 : (p.mod.mode == .run && p.odo.standstill) with
      | false => rw [Bool.false_and]
      | true => rw [h2] at h; exact absurd h (by decide)
    · rw [(followEntry_noLatch .ordered s c p).any (by simpa using ha), Bool.and_false]
  unfold follow afterRequest
  split
  · split
    · unfold abortTest
      split
      · unfold endTest
        extract_lets _ _ a1 a2 a3
        by_cases ht : (followEntry .ordered s c p).mod.mode = .test
        · have e2 : a2.mod.mode = .stand := by
            simp only [a2]; rw [if_pos (by simp only [a1]; show ((followEntry .ordered s c p).mod.mode == .test) = true; rw [ht]; rfl)]
            unfold toMode; rw [(changeMode_posts .stand .test id [] (fun _ => rfl) a1).1]
          have : (endTestOrder (TestOutcome.aborted == .aborted) (BitVec.ofNat 32 AbortReason.overridden.code) (followEntry .test .released 0 a3)).mod.mode = .stand := by
            rw [endTestOrder_mod, (followEntry_requested _ _ _ _).mod]; exact e2
          rw [this]; rfl
        · have e2 : a2 = a1 := by simp only [a2]; rw [if_neg (by simp only [a1]; show ¬ ((followEntry .ordered s c p).mod.mode == .test) = true; simpa using ht)]
          have x1 : (endTestOrder (TestOutcome.aborted == .aborted) (BitVec.ofNat 32 AbortReason.overridden.code) (followEntry .test .released 0 a3)).mod = (followEntry .ordered s c p).mod := by
            rw [endTestOrder_mod, (followEntry_requested _ _ _ _).mod]; show a2.mod = _; rw [e2]; rfl
          have x2 : (endTestOrder (TestOutcome.aborted == .aborted) (BitVec.ofNat 32 AbortReason.overridden.code) (followEntry .test .released 0 a3)).odo = (followEntry .ordered s c p).odo := by
            have : ∀ (w : Bool) (v : Word) (z : Part), (endTestOrder w v z).odo = z.odo := by intro w v z; unfold endTestOrder; split <;> rfl
            rw [this, (followEntry_requested _ _ _ _).pos]; show a2.odo = _; rw [e2]; rfl
          have x3 : NoLatch (followEntry .ordered s c p) (endTestOrder (TestOutcome.aborted == .aborted) (BitVec.ofNat 32 AbortReason.overridden.code) (followEntry .test .released 0 a3)) := by
            have y1 : NoLatch (followEntry .ordered s c p) a3 := by
              have : NoLatch a2 a3 := .of_brk rfl
              rw [e2] at this; exact NoLatch.trans (.of_table rfl) this
            refine (y1.trans (followEntry_noLatch .test .released 0 a3)).trans fun d => ?_
            rw [endTestOrder_entry]
          rw [x1, x2]
          by_cases ha : (followEntry .ordered s c p).anyLatched = true
          · rw [ha] at h1
            cases h2 : ((followEntry .ordered s c p).mod.mode == .run && (followEntry .ordered s c p).odo.standstill) with
            | false => rw [Bool.false_and]
            | true => rw [h2] at h1; exact absurd h1 (by decide)
          · rw [x3.any (by simpa using ha), Bool.and_false]
      · exact h1
    · exact h1
  · exact h1

theorem latching_iff (d : DemandSource) : latchingSource? d.number = if Safety.latches d then some d else none := by cases d <;> decide

theorem latching_bad (n : Nat) (h : n = 0 ∨ 12 < n) : latchingSource? n = none := by
  unfold latchingSource?
  have : DemandSource.ofNat? n = none := by unfold DemandSource.ofNat?; split <;> first | omega | rfl
  rw [this]

theorem gone_iff (d : DemandSource) (p : Part) (hd : Safety.latches d = true) : Safety.conditionGone p d ↔ conditionStands d p = false := by
  cases d <;> first | (exact absurd hd (by decide)) | skip
  case odometry =>
    unfold Safety.conditionGone conditionStands
    cases p.odo.validity <;> cases p.odo.regime <;> cases p.odo.p1.faulted <;> cases p.odo.p2.faulted <;> simp
  case handle =>
    unfold Safety.conditionGone conditionStands
    rw [List.any_eq_false]
    exact ⟨fun h d _ => by simp [h d], fun h d => by have := h d (by fin_cases d <;> decide); simpa using this⟩
  case radio => unfold Safety.conditionGone conditionStands; simp
  case silence => unfold Safety.conditionGone conditionStands; simp
  case feedback =>
    unfold Safety.conditionGone conditionStands
    by_cases h1 : p.brk.state = .settled <;> by_cases h2 : p.brk.confirmed = p.brk.commanded <;> simp [h1, h2]
  all_goals (unfold Safety.conditionGone conditionStands; simp)

theorem clear_entry (d : DemandSource) (s : Stage) (c : Nat) (p : Part) : ((clearLatch d s c p).entry d).stage = s ∧ ((clearLatch d s c p).entry d).latched = false := by
  unfold clearLatch postDemandCleared; simp only; rw [request_entry]; exact ⟨rfl, rfl⟩

theorem clear_requested (d : DemandSource) (s : Stage) (c : Nat) (p : Part) : Requested d p (clearLatch d s c p) := by
  unfold clearLatch postDemandCleared; simp only; exact request_formed _ _ _ _ _ _

theorem clear_events (d : DemandSource) (s : Stage) (c : Nat) (p : Part) {q : Part} (h : (clearLatch d s c p).evq.queue <+: q.evq.queue) :
    Safety.posts p q [(.demandCleared, arg2 d.number s.value, (p.entry d).setPos)] := by
  unfold clearLatch postDemandCleared at h
  simp only at h
  exact posts_of_evq (posts_one (p := writeEntry d { p.entry d with latched := false, stage := s, cause := causeByte s c } p) _ _ _ true ((formCommanded_formed _).pre.trans h)) rfl rfl

/-- what RESET DEMAND leaves -/
theorem resetLatch_spec (d : DemandSource) (hd : Safety.latches d = true) (p : Part) (hrun : p.mod.mode ≠ .run) :
    ((resetLatch d p).entry d).stage = Safety.owedStage p d ∧ ((resetLatch d p).entry d).latched = false ∧ Safety.ownerActs (resetLatch d p) d
    ∧ (resetLatch d p).mod = p.mod
    ∧ (d ≠ .supervision → ∀ q : Part, (resetLatch d p).evq.queue <+: q.evq.queue →
        Safety.posts p q [(.demandCleared, arg2 d.number (Safety.owedStage p d).value, (p.entry d).setPos)]) := by
  have ho : Safety.owedStage p d = .released := by
    cases d <;> first | rfl | (unfold Safety.owedStage; rw [if_neg (by simp [hrun])])
  rw [ho]
  have gen : ∀ (x : Part), x.mod = p.mod → x.evq = p.evq → x.now = p.now → x.entry d = p.entry d →
      ((clearLatch d .released 0 x).entry d).stage = .released ∧ ((clearLatch d .released 0 x).entry d).latched = false ∧ (clearLatch d .released 0 x).mod = p.mod
      ∧ ∀ q : Part, (clearLatch d .released 0 x).evq.queue <+: q.evq.queue → Safety.posts p q [(.demandCleared, arg2 d.number 0, (p.entry d).setPos)] := by
    intro x h1 h2 h3 h4
    refine ⟨(clear_entry _ _ _ _).1, (clear_entry _ _ _ _).2, (clear_requested _ _ _ _).mod.trans h1, fun q hq => ?_⟩
    have := clear_events d .released 0 x hq
    rw [h4] at this; exact posts_of_evq this h2 h3
  cases d <;> first | (exact absurd hd (by decide)) | skip
  case supervision =>
    have e : resetLatch .supervision p = clearLatch .supervision .released 0 (toSupervision .idle p) := rfl
    rw [e]
    refine ⟨(clear_entry _ _ _ _).1, (clear_entry _ _ _ _).2, ?_, ?_, fun h => absurd rfl h⟩
    · show (clearLatch .supervision .released 0 (toSupervision .idle p)).ssu.state = .idle
      rw [(clear_requested _ _ _ _).rest]; show (toSupervision .idle p).ssu.state = .idle
      unfold toSupervision; split
      · rename_i h; simpa using h
      · rfl
    · rw [(clear_requested _ _ _ _).mod]; unfold toSupervision; split <;> rfl
  case authority =>
    have hf : authorityFollowing p = (.released, 0) := by unfold authorityFollowing; rw [if_neg (by simp [hrun])]
    have e : resetLatch .authority p = clearLatch .authority .released 0 (p.withAut { p.aut with overrun := false, lateRevoke := false }) := by
      unfold resetLatch; simp only; rw [hf]
    rw [e]
    obtain ⟨a, b, c, f⟩ := gen (p.withAut { p.aut with overrun := false, lateRevoke := false }) rfl rfl rfl rfl
    refine ⟨a, b, ?_, c, fun _ => f⟩
    show (clearLatch .authority .released 0 _).aut.overrun = false ∧ _
    rw [(clear_requested _ _ _ _).rest]; exact ⟨rfl, rfl⟩
  case rollback =>
    obtain ⟨a, b, c, f⟩ := gen p rfl rfl rfl rfl
    exact ⟨a, b, ⟨rfl, rfl⟩, c, fun _ => f⟩
  all_goals
    obtain ⟨a, b, c, f⟩ := gen p rfl rfl rfl rfl
    exact ⟨a, b, trivial, c, fun _ => f⟩

/-- the change to TEST from STAND leaves a slot that no door order names -/
theorem toTest_slot (i : Fin 16) (p : Part) (hm : p.mod.mode = .stand)
    (h : p.ord.openLeft ≠ some i ∧ p.ord.openRight ≠ some i ∧ p.ord.closeLeft ≠ some i ∧ p.ord.closeRight ≠ some i) :
    (toMode .test .test p).ord.slots[i] = p.ord.slots[i] ∧ (toMode .test .test p).ord.brakeTest = p.ord.brakeTest
    ∧ SameEntry .test p (toMode .test .test p) ∧ TestKept p.brk (toMode .test .test p).brk := by
  unfold toMode changeMode
  extract_lets old was _ q1 q2
  have hold : old = .stand := hm
  have a1 : SameEntry .test p q1 := .of_brk rfl
  have r : Returned q1 (patternChanged was (requestMode q1)) := (requestMode_requested q1).returned.trans (patternChanged_only was _).returned
  have a2 : SameEntry .test p (patternChanged was (requestMode q1)) := (a1.trans ((requestMode_requested q1).same (by decide))).trans (OpOnly.same (patternChanged_only was _))
  have m2 : (patternChanged was (requestMode q1)).mod.mode = .test := by
    have m : Moves [] (requestMode q1) (patternChanged was (requestMode q1)) := patternChanged_moves _ (Moves.refl _)
    exact (m.frame.mode (by simp)).trans (congrArg Mod.mode (requestMode_requested q1).mod)
  obtain ⟨y, hy⟩ : ∃ y, y = patternChanged was (requestMode q1) := ⟨_, rfl⟩
  rw [← hy] at a2 m2 r
  obtain ⟨s1, s2⟩ := ssuEvaluate_stand y (by rw [m2]; decide)
  have e3 : modeSsu old y = ssuEvaluate y := by unfold modeSsu; rw [hold]; rfl
  have e4 : modeAut old (modeSsu old y) = (ssuEvaluate y).withAut { (ssuEvaluate y).aut with travel := .none } := by rw [e3]; unfold modeAut; rw [hold]; rfl
  have b5 : (modeOdo (modeAut old (modeSsu old y))).brk = y.brk := by rw [e4]; exact s1
  have o5 : (modeOdo (modeAut old (modeSsu old y))).ord = p.ord := by
    rw [e4]; show (ssuEvaluate y).ord = _; rw [(ssuEvaluate_returned y).ord, r.ord]; rfl
  have m5 : (modeOdo (modeAut old (modeSsu old y))).mod.mode = .test := by rw [e4]; show (ssuEvaluate y).mod.mode = _; rw [s2, m2]
  obtain ⟨z, hz⟩ : ∃ z, z = modeOdo (modeAut old (modeSsu old y)) := ⟨_, rfl⟩
  rw [← hz] at b5 o5 m5
  have e6 : modeDor z = checkDoorOrders (formDoors (withdrawSide .right .mode (withdrawSide .left .mode z))) := by unfold modeDor; rw [m5]; rfl
  have mw : Moves [.doors] z (withdrawSide .right .mode (withdrawSide .left .mode z)) := withdrawSide_moves _ _ (by decide) (withdrawSide_moves _ _ (by decide) (Moves.refl _))
  obtain ⟨w, hw⟩ : ∃ w, w = withdrawSide .right .mode (withdrawSide .left .mode z) := ⟨_, rfl⟩
  have bw : w.brk = y.brk := by rw [hw, withdrawSide_brk, withdrawSide_brk, b5]
  rw [← hw] at e6 mw
  have ow : w.ord = p.ord := (mw.frame.ord (by decide)).trans o5
  have of' : (formDoors w).ord = p.ord := (followEntry_returned _ _ _ _).ord.trans ow
  obtain ⟨c1, c2⟩ := checkDoor_slot i (formDoors w) (by rw [of']; exact h)
  have md : Moves [.doors, .ord] z (modeDor z) := modeDor_moves (Or.inr (Or.inr ⟨by decide, by decide⟩)) (Moves.refl _)
  have m6 : (modeDor z).mod.mode = .test := (md.frame.mode (by decide)).trans m5
  have e7 : q2 = modeDor z := by
    simp only [q2]; rw [← hy, ← hz]; unfold modeRlc; rw [m6, hold]; rfl
  rw [if_neg (by simp), e7, e6]
  refine ⟨by rw [c1, of'], by rw [c2, of'], ?_, ?_⟩
  · have : SameEntry .test (formDoors w) (checkDoorOrders (formDoors w)) := .of_brk (checkDoorOrders_brk _)
    exact ((a2.trans (.of_brk bw)).trans ((followEntry_requested _ _ _ _).same (by decide))).trans this
  · rw [checkDoorOrders_brk]
    have k1 : TestKept p.brk w.brk := by rw [bw]; exact r.test
    exact k1.trans (followEntry_requested _ _ _ _).test

theorem other_released (p : Part) : otherRequests p = false ↔ ∀ d, d ≠ .mode → (p.entry d).stage = .released := by
  unfold otherRequests
  rw [List.any_eq_false]
  constructor
  · intro h d hd
    have hne : d.index ≠ 1 := by revert hd; cases d <;> decide
    have := h (p.entry d) (by
      rw [List.mem_iff_getElem]
      refine ⟨d.index.val, by simp, ?_⟩
      rw [Vector.getElem_toList, Vector.getElem_set_ne (by simp) (by simp) (by intro hh; exact hne (Fin.ext hh.symm))]
      rfl)
    simpa using this
  · intro h e he
    obtain ⟨i, hi, rfl⟩ := List.mem_iff_getElem.1 he
    simp only [Vector.length_toList] at hi
    rw [Vector.getElem_toList]
    have k : ∀ d : DemandSource, d ≠ .mode → ¬ ((p.entry d).stage != .released) = true := fun d hd => by simp [h d hd]
    rw [Vector.getElem_set]
    match i, hi with
    | 0, _ => rw [if_neg (by decide)]; exact k .ordered (by decide)
    | 1, _ => rw [if_pos rfl]; decide
    | 2, _ => rw [if_neg (by decide)]; exact k .supervision (by decide)
    | 3, _ => rw [if_neg (by decide)]; exact k .authority (by decide)
    | 4, _ => rw [if_neg (by decide)]; exact k .odometry (by decide)
    | 5, _ => rw [if_neg (by decide)]; exact k .rollback (by decide)
    | 6, _ => rw [if_neg (by decide)]; exact k .doors (by decide)
    | 7, _ => rw [if_neg (by decide)]; exact k .handle (by decide)
    | 8, _ => rw [if_neg (by decide)]; exact k .radio (by decide)
    | 9, _ => rw [if_neg (by decide)]; exact k .silence (by decide)
    | 10, _ => rw [if_neg (by decide)]; exact k .feedback (by decide)
    | 11, _ => rw [if_neg (by decide)]; exact k .test (by decide)

theorem testBegins (u : Trigger) (s : State) (hu : Safety.triggerJudged u s) (book : Safety.bookkeeping s.part.ord) (h2 : s.part.mod.mode = .stand)
    (h6 : ∀ d, (s.part.entry d).latched = false) (h8 : ∀ d, d ≠ .mode → (s.part.entry d).stage = .released) (x : Part)
    (hx : x = (slotRunning u.slot (received 5 u s)).withOrd { (slotRunning u.slot (received 5 u s)).ord with brakeTest := some u.slot })
    (t : State) (ht : t.part = finish s.part (beginTest x)) (hf : Safety.orderForwarded 5 u .taken .ok s t) :
    Safety.orderRuns 5 u s t ∧ t.part.ord.brakeTest = some u.slot ∧ t.part.mod.mode = .test
        ∧ (t.part.entry .test).stage = .s1 ∧ t.part.brk.test.map TestRun.step = some 0
        ∧ t.part.brk.record.outcome = .running ∧ t.part.brk.record.abort = .none ∧ t.part.brk.record.start = s.part.now
        ∧ Safety.posts s.part t.part [(.demandSet, arg3 12 1 1, s.part.odo.pos)] := by
  have xmod : x.mod = s.part.mod := by rw [hx]; rfl
  have xnow : x.now = s.part.now := by rw [hx]; rfl
  have xodo : x.odo = s.part.odo := by rw [hx]; rfl
  have xevq : x.evq = s.part.evq := by rw [hx]; rfl
  have xent : ∀ d, x.entry d = s.part.entry d := by intro d; rw [hx]; rfl
  have xslot : x.ord.slots[u.slot] = { (received 5 u s).ord.slots[u.slot] with state := .running, verdict := .taken, reason := .ok, result := 0 } := by
    rw [hx]; exact setSlot_same u.slot (fun r => { r with state := .running, verdict := .taken, reason := .ok, result := 0 }) (received 5 u s)
  have xbt : x.ord.brakeTest = some u.slot := by rw [hx]; rfl
  have hnamed : x.ord.openLeft ≠ some u.slot ∧ x.ord.openRight ≠ some u.slot ∧ x.ord.closeLeft ≠ some u.slot ∧ x.ord.closeRight ≠ some u.slot := by
    rw [hx]; exact unnamed s.part.ord book u.slot hu.2
  clear hx
  obtain ⟨v, hv⟩ : ∃ v, v = x.withBrk { x.brk with record := { start := x.now, outcome := .running, abort := .none, results := Vector.replicate 5 .notRun, times := Vector.replicate 5 0 }, test := some { step := 0, start := x.now, hold := none } } := ⟨_, rfl⟩
  obtain ⟨w, hw⟩ : ∃ w, w = followEntry .test .s1 1 v := ⟨_, rfl⟩
  have ebt : beginTest x = toMode .test .test w := by rw [hw, hv]; rfl
  rw [ebt] at ht
  have wr : Requested .test v w := by rw [hw]; exact followEntry_requested _ _ _ _
  have vent : v.entry .test = s.part.entry .test := by rw [hv]; exact xent .test
  have fe := followEntry_entry .test .s1 1 v (by rw [vent]; exact h6 .test)
  have fev := fun (q : Part) => follow_events .test .s1 1 v (by rw [vent]; exact h6 .test) (q := q)
  rw [← hw] at fe fev
  have wm : w.mod = s.part.mod := by rw [wr.mod, hv]; exact xmod
  have wo : w.ord = x.ord := by rw [wr.rest, hv]; rfl
  obtain ⟨k1, k2, k3, k4⟩ := toTest_slot u.slot w (by rw [wm]; exact h2) (by rw [wo]; exact hnamed)
  have cp := changeMode_posts .test .test id [] (fun _ => rfl) w
  have xm : (toMode .test .test w).mod.mode = .test := by unfold toMode; rw [cp.1]
  have pre0 : w.evq.queue <+: (toMode .test .test w).evq.queue := by
    obtain ⟨y, r1, _, _, r4⟩ := changeMode_spec (H := [.doors, .ord]) .test .test id [] (fun _ => rfl) w
    obtain ⟨z, ez, _, hp, _⟩ := postAll_evq (modeEvents w.mod.mode .test .test []) (w.withMod { w.mod with mode := .test })
    exact (hp.trans (by have := r1.pre; rw [ez] at this; exact this)).trans ((r4 (Or.inr (Or.inr ⟨by decide, by decide⟩))).frame.pre (by decide))
  obtain ⟨g, eg⟩ := finish_outside_run (q := toMode .test .test w) s.part (by rw [xm]; decide)
  rw [eg] at ht
  generalize toMode .test .test w = f at *
  have tord : t.part.ord = f.ord := by rw [ht]; rfl
  have tb : t.part.brk = f.brk := by rw [ht]; rfl
  have te : t.part.entry .test = w.entry .test := by
    have : t.part.entry .test = f.entry .test := by unfold Part.entry; rw [tb]
    rw [this]; exact k3
  have slot : t.part.ord.slots[u.slot] = { (received 5 u s).ord.slots[u.slot] with state := .running, verdict := .taken, reason := .ok, result := 0 } := by
    rw [tord, k1, wo, xslot]
  refine ⟨⟨by rw [slot], by rw [slot], by rw [slot], by rw [slot], hf⟩, by rw [tord, k2, wo, xbt], ?_, ?_, ?_, ?_, ?_, ?_, ?_⟩
  · rw [ht]; exact xm
  · rw [te]; exact fe.1
  · rw [tb, k4.step, wr.test.step, hv]; rfl
  · rw [tb, k4.outcome, wr.test.outcome, hv]; rfl
  · rw [tb, k4.abort, wr.test.abort, hv]; rfl
  · rw [tb, k4.start, wr.test.start, hv]; exact xnow
  · have h := (fev t.part (by rw [show t.part.evq = f.evq by rw [ht]; rfl]; exact pre0)).1 (by rw [vent, h8 .test (by decide)]; decide)
    have hvp : v.odo.pos = s.part.odo.pos := by rw [hv]; exact congrArg Odo.pos xodo
    rw [hvp] at h
    exact posts_of_evq h (by rw [hv]; exact xevq) (by rw [hv]; exact xnow)

end Sys2Proof.Machine
end

