-- ==== Sys2Proof/Laws/Bridge.lean ====
section
/-! SUPPORT. The guards, the merging of bytes, and the abort of an activation, said once. -/

namespace Sys2Proof.Machine

open Sys2Proof.Safety (Group)

theorem outside_iff (a : Nat) (p : Part) : Safety.outsideArea a p ↔ p.inArea a = false := by
  unfold Safety.outsideArea Part.inArea Part.areaBase
  rw [Bool.and_eq_false_iff]
  constructor
  · rintro (h | h)
    · exact Or.inl (by simpa using h)
    · exact Or.inr (by simpa using h)
  · rintro (h | h)
    · exact Or.inl (by simpa using h)
    · exact Or.inr (by simpa using h)

theorem guardAt_none (a : Nat) (p : Part) : Safety.unguarded a p → guardAt a p = none := by
  intro h
  unfold guardAt
  rw [List.find?_eq_none]
  intro j _; simp only [Bool.and_eq_true, beq_iff_eq, not_and]
  exact h j

theorem guardAt_some (i : Fin 4) (a : Nat) (p : Part) (h : Safety.guarded i a p) : guardAt a p = some i := by
  unfold guardAt
  obtain ⟨h1, h2, h3⟩ := h
  have hi : (fun j : Fin 4 => p.bridge.guards[j].enabled && p.bridge.guards[j].address.toNat == a) i = true := by simp only [h1, h2]; simp
  have hj : ∀ j, j ≠ i → (fun j : Fin 4 => p.bridge.guards[j].enabled && p.bridge.guards[j].address.toNat == a) j = false := by
    intro j hj
    have := h3 j hj
    simp only [Bool.and_eq_false_iff, beq_eq_false_iff_ne]
    by_cases he : p.bridge.guards[j].enabled = true
    · exact Or.inr (this he)
    · exact Or.inl (by simpa using he)
  unfold allGuards
  generalize (fun j : Fin 4 => p.bridge.guards[j].enabled && p.bridge.guards[j].address.toNat == a) = f at hi hj
  match i, hi, hj with
  | 0, hi, hj => simp [List.find?, hi]
  | 1, hi, hj => simp [List.find?, hi, hj 0 (by decide)]
  | 2, hi, hj => simp [List.find?, hi, hj 0 (by decide), hj 1 (by decide)]
  | 3, hi, hj => simp [List.find?, hi, hj 0 (by decide), hj 1 (by decide), hj 2 (by decide)]

theorem ordinary_passes (a : BitVec 24) (d : WriteData) (t : State) (h4 : a.toNat % 4 = 0) (h : t.part.asserted = true ∨ (t.part.inArea a.toNat = false ∧ guardAt a.toNat t.part = none)) :
    ∃ r, hostRow (hostWrite a d) t = .next r ∧ Safety.passed a d r ∧ r.part.bridge.guards = t.part.bridge.guards := by
  refine hostRow_ends _ t _ fun r h1 h2 _ => ?_
  have e4 : a.toNat / 4 * 4 = a.toNat := by omega
  have ea : BitVec.ofNat 24 a.toNat = a := by simp
  have : hostWrite a d t.part t.path = plainWrite a d t.part t.path := by
    unfold hostWrite
    simp only [e4, ea]
    rcases h with h | ⟨h, h'⟩
    · rw [if_pos h]
    · split
      · rfl
      · rw [if_neg (by simp [h]), h']
  rw [this] at h1 h2
  refine ⟨?_, ?_⟩
  · unfold Safety.passed; rw [h2]; rfl
  · rw [h1]; exact ((finish_frame _ _).guards (by decide)).1

theorem mask_bit : ∀ (e : BitVec 4) (b : Fin 32), (enableMask e).getLsbD b.val = e.getLsbD (b.val / 8) := by decide

theorem merge_taken (old : Word) (d : WriteData) : Safety.bytesTaken old d (mergeBytes old d.data d.enables) := by
  intro b
  unfold mergeBytes
  rw [BitVec.getLsbD_or, BitVec.getLsbD_and, BitVec.getLsbD_and, BitVec.getLsbD_not, mask_bit]
  have : (decide (b.val < 32)) = true := by simp
  rw [this]
  cases d.enables.getLsbD (b.val / 8) <;> simp

theorem finish_at (b q : Part) (h : (q.mod.mode == .run && q.odo.standstill && q.anyLatched) = false) : (finish b q).evq = q.evq := by
  obtain ⟨g, e⟩ := finish_eq b h; rw [e]; rfl

theorem abort_spec (p : Part) :
    (abortActivation p).prf = { p.prf with copying := none }
    ∧ (p.prf.copying.isSome = true → ∀ t : Part, (abortActivation p).evq.queue <+: t.evq.queue → t.ord = (abortActivation p).ord → Safety.activationAborted p t) := by
  unfold abortActivation
  cases hc : p.prf.copying with
  | none => simp only [Option.isSome_none, Bool.false_eq_true, if_false]; exact ⟨by cases hp : p.prf; rw [hp] at hc; simp_all, fun h => by cases h⟩
  | some hld =>
    simp only [Option.isSome_some, if_true]
    obtain ⟨y, hy⟩ : ∃ y, y = post .profileAborted 1 (p.withPrf { p.prf with copying := none }) := ⟨_, rfl⟩
    have m : Moves [.ord] y (endActivation true 1 y) := endActivation_moves _ _ (by decide) (Moves.refl _)
    have ey : { staged := p.prf.staged, stagedSettings := p.prf.stagedSettings, active := p.prf.active, settings := p.prf.settings, crc := p.prf.crc, copying := none : Prf } = { p.prf with copying := none } := rfl
    rw [← hy]
    refine ⟨?_, fun _ t hpre hord => ⟨?_, fun i hi => ?_⟩⟩
    · rw [m.frame.prf (by decide), hy]; rfl
    · have := (m.frame.pre (by decide)).trans hpre
      rw [hy] at this
      exact posts_of_evq (r := p.withPrf { p.prf with copying := none }) (posts_one _ _ _ true this) rfl rfl
    · have hyi : y.ord.activate = some i := by rw [hy]; exact hi
      have es : endActivation true 1 y = slotEnd i true 1 (y.withOrd { y.ord with activate := none }) := by unfold endActivation; rw [hyi]
      rw [es] at hord hpre
      have slot : t.ord.slots[i] = { p.ord.slots[i] with state := .aborted, result := 1 } := by
        rw [hord]
        refine (setSlot_same i (fun r => { r with state := .aborted, result := 1 }) (y.withOrd { y.ord with activate := none })).trans ?_
        rw [hy]; rfl
      refine ⟨by rw [hord]; rfl, by rw [slot], by rw [slot], ?_⟩
      refine posts_of_evq (r := p.withPrf { p.prf with copying := none }) (posts_cons (sets := true) ?_) rfl rfl
      have : Safety.posts (setSlot i (fun r => { r with state := .aborted, result := 1 }) (y.withOrd { y.ord with activate := none })) t [(.orderDone, arg3 i.val 2 (p.ord.slots[i]).tag.toNat, 1)] := by
        refine posts_one (sets := true) _ _ _ ?_
        have e2 : (p.ord.slots[i]).tag = ((y.withOrd { y.ord with activate := none }).ord.slots[i]).tag := by rw [hy]; rfl
        rw [e2]; exact hpre
      exact posts_of_evq this (by rw [hy]; rfl) (by rw [hy]; rfl)

theorem word_setWord (r : SegRec) (j k : Fin 7) (w : Word) : (r.setWord j.val w).word k.val = if k = j then w else r.word k.val := by
  fin_cases j <;> fin_cases k <;> rfl

theorem word_setWord7 (r : SegRec) (w : Word) : r.setWord 7 w = r := rfl

theorem range_eq (g : Guard) (p : Part) : guardBounds g p = Safety.guardRange g p := by
  unfold guardBounds Safety.guardRange speedBound
  cases g.kind <;> simp

theorem violation_spec (i : Fin 4) (v : Word) (n : Nat) (p : Part) (t : State) (ht : t.part = finish p (guardViolation i v n p)) :
    Safety.violated i v n p t.part := by
  have F := finish_frame p (guardViolation i v n p)
  have fl := flagged_moves (flagged_post .guardViolation (arg2 i.val n) p.odo.pos (setGuardSlot i (fun g => { g with violations := sat8 g.violations, last := v }) p) (c := .guard) rfl) (finish_moves (H := [.mode]) p (by decide) (Moves.refl _)) (by decide)
  have G := (F.guards (by decide)).1
  have P := F.pre (by decide)
  rw [← ht] at G P
  refine ⟨?_, fun j hj => ?_, ?_, ?_⟩
  · rw [G]
    show (p.bridge.guards.set i.val _)[i.val] = _
    rw [Vector.getElem_set_self]
  · rw [G]
    show (p.bridge.guards.set i.val _)[j.val] = _
    rw [Vector.getElem_set, if_neg (fun h => hj (Fin.ext h.symm))]; rfl
  · exact posts_of_evq (r := setGuardSlot i (fun g => { g with violations := sat8 g.violations, last := v }) p) (posts_one _ _ _ true P) rfl rfl
  · rw [ht]; exact fl

theorem standDone_eq {p : Part} (h : Safety.standDone p) : (p.mod.mode == .run && p.odo.standstill && p.anyLatched) = false := (standDone_iff p).1 h

end Sys2Proof.Machine
end

