-- ==== Sys2Proof/Laws/Doors.lean ====
section
/-! SUPPORT. The edges of a door input, the door states, and the door orders, said once. -/

namespace Sys2Proof.Machine

open Sys2Proof.Safety (Group)

abbrev doorMay : List Group := [.doors, .mode, .ord]

/-- the row as the state machine of one input edge -/
theorem doorLevel_spec (d : Fin 8) (i : DoorInput) (closed : Bool) (p : Part) (hc : p.coldLine = false) (hl : (p.door d).level i ≠ closed) :
    ∃ e, (∀ H, Moves H (setDoor d (·.setLevel i closed) p) ((setDoor d (·.setLevel i closed) p).withEvq e)) ∧ doorLevel d i closed p = afterDoors p (doorEdge d i closed ((setDoor d (·.setLevel i closed) p).withEvq e))
      ∧ ∀ q l, Safety.posts ((setDoor d (·.setLevel i closed) p).withEvq e) q l → Safety.posts p q (Safety.edgeEvents d i closed p ++ l) := by
  unfold doorLevel
  rw [if_neg (by simpa using hl)]
  simp only
  rw [if_neg (by show ¬ p.coldLine = true; rw [hc]; decide)]
  unfold Safety.edgeEvents
  have he : edgeSelected (setDoor d (·.setLevel i closed) p).dor d i closed = edgeSelected p.dor d i closed := rfl
  rw [he]
  cases edgeSelected p.dor d i closed
  · exact ⟨p.evq, fun _ => Moves.refl _, rfl, fun q l h => h⟩
  · exact ⟨_, fun _ => post_moves _ _ (Moves.refl _), rfl, fun q l h => posts_of_evq (r := setDoor d (·.setLevel i closed) p) (posts_cons h) rfl rfl⟩

theorem level_of_levels {a b : Door} (h : Safety.levels a = Safety.levels b) (i : DoorInput) : a.level i = b.level i := by
  unfold Safety.levels at h; simp only [List.cons.injEq] at h
  cases i <;> simp_all [Door.level]

theorem setLevel_level (r : Door) (i j : DoorInput) (b : Bool) : (r.setLevel i b).level j = if j = i then b else r.level j := by
  cases i <;> cases j <;> rfl

theorem setLevel_self (r : Door) (i : DoorInput) (b : Bool) (h : r.level i = b) : r.setLevel i b = r := by
  subst h; cases i <;> rfl

theorem edge_moves (d : Fin 8) (i : DoorInput) (closed : Bool) (p : Part) (hl : (p.door d).level i ≠ closed) :
    Moves doorMay (setDoor d (·.setLevel i closed) p) (doorLevel d i closed p) := by
  cases hc : p.coldLine
  · obtain ⟨e, hm, h2, -⟩ := doorLevel_spec d i closed p hc hl
    rw [h2]
    exact afterDoors_moves _ (by decide) (by decide) (doorEdge_moves d i closed (by decide) (by decide) (by decide) (hm _))
  · unfold doorLevel
    rw [if_neg (by simpa using hl)]
    simp only
    rw [if_pos (show (setDoor d (·.setLevel i closed) p).coldLine = true from hc)]
    exact Moves.refl _

theorem door_row (c : Instr) (d : Fin 8) (i : DoorInput) (closed : Bool) (s : State) (h : Safety.doorEdgeOf c = some (d, i, closed)) :
    exec c s = partRow (doorLevel d i closed) s := by
  cases c <;> simp only [Safety.doorEdgeOf, Option.some.injEq, Prod.mk.injEq, reduceCtorEq] at h <;> obtain ⟨rfl, rfl, rfl⟩ := h <;> rfl

/-- after the state machine, the door records and the deferred pull stand -/
theorem slotEnd_dor (i : Fin 16) (a : Bool) (w : Word) (p : Part) : (slotEnd i a w p).dor = p.dor := rfl

theorem checkDoorOrders_deferred (p : Part) : (checkDoorOrders p).dor.deferred = p.dor.deferred := by
  have ho : ∀ s q, (checkOpen s q).dor.deferred = q.dor.deferred := by
    intro s q; unfold checkOpen; split
    · simp only; split
      · rw [slotEnd_dor]; cases s <;> rfl
      · rfl
    · rfl
  have hc : ∀ s q, (checkClose s q).dor.deferred = q.dor.deferred := by
    intro s q; unfold checkClose; split
    · simp only; split
      · rw [slotEnd_dor]; cases s <;> rfl
      · rfl
    · rfl
  unfold checkDoorOrders; rw [hc, hc, ho, ho]

theorem door_end (b q : Part) (s : State) (t : State) (ht : t.part = finish s.part (afterDoors b q)) (x : Fin 8) : t.part.door x = q.door x := by
  have m : Moves testMay q t.part := by rw [ht]; exact toEnd _ (by decide) (afterDoors_moves _ (by decide) (by decide) (Moves.refl _))
  unfold Part.door; rw [(m.frame.doors (by decide)).1]

theorem edge_ends (d : Fin 8) (i : DoorInput) (closed : Bool) (s : State) (f : Part → Part) (P : State → Prop) (hc : s.part.coldLine = false)
    (hl : (s.part.door d).level i ≠ closed)
    (hf : ∀ q, (q.door d).state = (s.part.door d).state → doorEdge d i closed q = f q)
    (hP : ∀ t e, t.part = finish s.part (afterDoors s.part (f ((setDoor d (·.setLevel i closed) s.part).withEvq e))) →
      (∀ l, Safety.posts ((setDoor d (·.setLevel i closed) s.part).withEvq e) t.part l → Safety.posts s.part t.part (Safety.edgeEvents d i closed s.part ++ l)) → P t) :
    ∃ t, partRow (doorLevel d i closed) s = .next t ∧ P t := by
  refine partRow_ends _ s _ fun t ht _ _ => ?_
  obtain ⟨e, -, h2, h3⟩ := doorLevel_spec d i closed s.part hc hl
  rw [h2, hf _ (by
    show ((setDoor d (·.setLevel i closed) s.part).door d).state = _
    rw [setDoor_door, if_pos rfl]; cases i <;> rfl)] at ht
  exact hP t e ht (h3 t.part)

theorem level_door (d : Fin 8) (i : DoorInput) (b : Bool) (p : Part) (e : Evq) : ((setDoor d (·.setLevel i b) p).withEvq e).door d = (p.door d).setLevel i b := by
  show (setDoor d (·.setLevel i b) p).door d = _; rw [setDoor_door, if_pos rfl]

theorem state_of (d : Fin 8) (i : DoorInput) (b : Bool) (p : Part) : (((setDoor d (·.setLevel i b) p).door d)).state = (p.door d).state := by
  rw [setDoor_door, if_pos rfl]; cases i <;> rfl

theorem faultDoor_spec (d : Fin 8) (c : DoorFault) (p : Part) :
    (faultDoor d c p).door d = { p.door d with fault := c, state := .faulted, motion := none }
    ∧ (∀ q, (faultDoor d c p).evq.queue <+: q.evq.queue → Safety.posts p q (Safety.doorFaultEvents d c p))
    ∧ Safety.flagged .door (faultDoor d c p) := by
  refine ⟨?_, fun q h => ?_, flagged_post _ _ _ _ rfl⟩
  · show (doorTo d .faulted none (setDoor d (fun r => { r with fault := c }) p)).door d = _
    rw [doorTo_door, if_pos rfl, setDoor_door, if_pos rfl]
  · unfold Safety.doorFaultEvents
    refine posts_of_evq (r := setDoor d (fun r => { r with state := .faulted, motion := none }) (setDoor d (fun r => { r with fault := c }) p)) (posts_cons (sets := true) (posts_one _ _ _ true ?_)) rfl rfl
    exact h

theorem open_spec (d : Fin 8) (p : Part) :
    ((p.door d).fo = true → ((openDoor d p).door d).state = .open_ ∧ ((openDoor d p).door d).motion = none)
    ∧ ((p.door d).fo = false → ((openDoor d p).door d).state = .opening ∧ ((openDoor d p).door d).motion = some p.now) := by
  have hd : (doorTo d .opening (some p.now) p).door d = { p.door d with state := .opening, motion := some p.now } := by rw [doorTo_door, if_pos rfl]
  unfold openDoor
  simp only [hd]
  refine ⟨fun h => ?_, fun h => ?_⟩
  · rw [if_pos h, doorTo_door, if_pos rfl]; exact ⟨rfl, rfl⟩
  · rw [if_neg (by rw [h]; decide), hd]; exact ⟨rfl, rfl⟩

/-- a door that CL leaves open and OB holds, with FO closed, ends OPEN -/
theorem enterClosing_blocked (n : Nat) (d : Fin 8) (p : Part) (hcl : (p.door d).cl = false) (hob : (p.door d).ob = true) (hfo : (p.door d).fo = true)
    (hn : 8 ≤ n + (p.door d).retries ∨ 8 ≤ n) (h0 : 1 ≤ n) : ((enterClosing n d p).door d).state = .open_ ∧ ((enterClosing n d p).door d).closeFailed = true := by
  induction n generalizing p with
  | zero => omega
  | succ n ih =>
    unfold enterClosing
    simp only
    have hd : (doorTo d .closing (some p.now) p).door d = { p.door d with state := .closing, motion := some p.now } := by rw [doorTo_door, if_pos rfl]
    simp only [hd, hcl, hob, Bool.false_eq_true, if_false, if_true]
    have hr : (startReopening d (doorTo d .closing (some p.now) p)).door d =
        { (if (p.door d).retries < 7 then { (doorTo d .closing (some p.now) p).door d with retries := (p.door d).retries + 1 } else { (doorTo d .closing (some p.now) p).door d with closeFailed := true }) with state := .reopening, motion := some p.now } := by
      unfold startReopening; rw [doorTo_door, if_pos rfl, setDoor_door, if_pos rfl, hd]; rfl
    by_cases h7 : (p.door d).retries < 7
    · rw [if_pos h7] at hr
      rw [hr]; simp only [hd, hfo, if_true]
      split
      · refine ih _ ?_ ?_ ?_ ?_ ?_
        · rw [hr]; simp [hd, hcl]
        · rw [hr]; simp [hd, hob]
        · rw [hr]; simp [hd, hfo]
        · rw [hr]; simp only; omega
        · omega
      · unfold leaveOpen; rw [doorTo_door, if_pos rfl, setDoor_door, if_pos rfl]; exact ⟨rfl, rfl⟩
    · rw [if_neg h7] at hr
      rw [hr]; simp only [hd, hfo, if_true]
      rw [if_neg (by unfold recloses; rw [hr]; simp)]
      unfold leaveOpen; rw [doorTo_door, if_pos rfl, setDoor_door, if_pos rfl]; exact ⟨rfl, rfl⟩

theorem close_spec (d : Fin 8) (p : Part) :
    ((p.door d).cl = true → ((closeDoor d p).door d).state = .locked ∧ ((closeDoor d p).door d).motion = none)
    ∧ ((p.door d).cl = false → (p.door d).ob = false → ((closeDoor d p).door d).state = .closing ∧ ((closeDoor d p).door d).motion = some p.now) := by
  have hd : (doorTo d .closing (some p.now) p).door d = { p.door d with state := .closing, motion := some p.now } := by rw [doorTo_door, if_pos rfl]
  unfold closeDoor enterClosing
  simp only [hd]
  refine ⟨fun h => ?_, fun h h2 => ?_⟩
  · rw [if_pos h, doorTo_door, if_pos rfl]; exact ⟨rfl, rfl⟩
  · rw [if_neg (by rw [h]; decide), if_neg (by rw [h2]; decide), hd]; exact ⟨rfl, rfl⟩

theorem side_of (n : Nat) (side : Side) (h : n = side.code) : sideOf? n = some side := by subst h; cases side <;> rfl

theorem side_bad (n : Nat) (h1 : n ≠ 1) (h2 : n ≠ 2) : sideOf? n = none := by
  unfold sideOf?; split
  · exact absurd rfl h1
  · exact absurd rfl h2
  · rfl

theorem mem_side (side : Side) (d : Fin 8) : d ∈ sideDoors side ↔ Safety.ofSide side d := by
  revert d; cases side <;> decide

theorem holds_iff (p : Part) (a b : Nat) : p.holdsExtent a b = true ↔ (a : Int) * 16 ≤ p.odo.pos.toInt - (p.prf.settings.carLength : Int) * 16 ∧ p.odo.pos.toInt ≤ (b : Int) * 16 := by
  unfold Part.holdsExtent Part.rearCounts
  rw [Bool.and_eq_true]
  exact and_congr decide_eq_true_iff decide_eq_true_iff

theorem here_iff (side : Side) (r : SegRec) (p : Part) : r ∈ platformsHere side p ↔ r ∈ p.prf.active ∧ Safety.platformFor side r p := by
  unfold platformsHere Safety.platformFor
  rw [List.mem_filter]
  have : r.serves side = true ↔ (r.sideCode = side.code ∨ r.sideCode = 3) := by cases side <;> simp [SegRec.serves, Side.code]
  simp only [Bool.and_eq_true, this, holds_iff]

theorem permit_iff (side : Side) (r : SegRec) (p : Part) : Safety.permitFor side r p ↔ platformPermitted r side p = true := by
  unfold Safety.permitFor platformPermitted permitted
  have hid : r.platformId < 256 := by unfold SegRec.platformId byteAt; omega
  have he : ∀ m : Permit, (m.platform == BitVec.ofNat 8 r.platformId) = true ↔ m.platform.toNat = r.platformId := by
    intro m; rw [beq_iff_eq]
    constructor
    · intro h; rw [h, BitVec.toNat_ofNat]; omega
    · intro h; apply BitVec.eq_of_toNat_eq; rw [BitVec.toNat_ofNat, h]; omega
  have hc : ∀ m : Permit, (match side with | .left => m.left | .right => m.right) = m.covers side := by intro m; cases side <;> rfl
  cases hs : r.stationControlled
  · simp
  · cases side <;> simp only [Permit.covers, Bool.not_true, Bool.false_or, List.any_eq_true, Bool.and_eq_true, he, forall_const]

theorem chosen_iff (side : Side) (r : SegRec) (p : Part) : Safety.chosenPlatform side r p ↔ releasePlatform side p = some r := by
  unfold releasePlatform platformsHere Safety.chosenPlatform
  rw [List.find?_filter, List.find?_eq_some_iff_append]
  have hx : ∀ x, Safety.platformFor side x p ↔ (x.serves side && p.holdsExtent x.windowStart x.windowEnd) = true := by
    intro x
    unfold Safety.platformFor
    have : x.serves side = true ↔ (x.sideCode = side.code ∨ x.sideCode = 3) := by cases side <;> simp [SegRec.serves, Side.code]
    simp only [Bool.and_eq_true, this, holds_iff]
  simp only [hx, permit_iff]
  constructor
  · rintro ⟨a, b, h1, h2, h3, h4⟩
    refine ⟨by simp_all, a, b, h1, fun x hm => ?_⟩
    have := h4 x hm; simp only [Bool.and_eq_true, Bool.not_eq_true', decide_eq_true_eq] at *
    rw [Bool.eq_false_iff]; simpa using this
  · rintro ⟨h, a, b, h1, h2⟩
    refine ⟨a, b, h1, by simp_all, by simp_all, fun x hm => ?_⟩
    have := h2 x hm
    intro hh
    simp_all

theorem doors_end {b y q : Part} {t : State} {o : Ord} (ht : t.part = finish b ((afterDoors y q).withOrd o)) :
    (∀ x, t.part.door x = q.door x) ∧ ∀ side, t.part.side side = q.side side := by
  have m : Moves [.mode, .ord] q (afterDoors y q) := afterDoors_moves _ (by decide) (by decide) (Moves.refl _)
  have a := m.frame.doors (by decide)
  have c := (order_rest ht).2.doors (by decide)
  rw [Part.withOrd_dor] at c
  refine ⟨fun x => ?_, fun side => ?_⟩
  · unfold Part.door; rw [c.1, a.1]
  · cases side
    · show t.part.dor.left = _; rw [c.2.1, a.2.1]; rfl
    · show t.part.dor.right = _; rw [c.2.2, a.2.2]; rfl

/-- what a fold over doors leaves of each door, where one turn changes its own door by a function of the record and what `K` keeps -/
theorem fold_doors (f : Part → Fin 8 → Part) (K : Part → Prop) (G : Door → Door) (hK : ∀ q d, K q → K (f q d))
    (hf : ∀ q d x, K q → (f q d).door x = if x = d then G (q.door d) else q.door x) :
    ∀ (l : List (Fin 8)), l.Nodup → ∀ q, K q → (∀ x, (l.foldl f q).door x = if x ∈ l then G (q.door x) else q.door x) ∧ K (l.foldl f q) := by
  intro l
  induction l with
  | nil => intro _ q h; exact ⟨fun x => by simp, h⟩
  | cons d l ih =>
    intro hn q h
    rw [List.nodup_cons] at hn
    obtain ⟨a, b⟩ := ih hn.2 (f q d) (hK q d h)
    refine ⟨fun x => ?_, b⟩
    rw [List.foldl_cons, a x, hf q d x h]
    by_cases hx : x = d
    · subst hx; simp [hn.1]
    · simp [hx]

theorem sideDoors_nodup (side : Side) : (sideDoors side).Nodup := by cases side <;> decide

theorem door_of (n : Nat) (d : Fin 8) (h : n = d.val) : doorOf? n = some d := by
  subst h; unfold doorOf?; rw [dif_pos d.isLt]

theorem door_bad (n : Nat) (h : 7 < n) : doorOf? n = none := by unfold doorOf?; rw [dif_neg (by omega)]

theorem posts_after {b y q : Part} {t : State} {o : Ord} (ht : t.part = finish b ((afterDoors y q).withOrd o)) {p : Part} {l} (h : Safety.posts p q l) : Safety.posts p t.part l := by
  have m : Moves [.mode, .ord] q (afterDoors y q) := afterDoors_moves _ (by decide) (by decide) (Moves.refl _)
  exact posts_more h ((m.frame.pre (by decide)).trans ((order_rest ht).2.pre (by decide)))

theorem co_spec (sd : Side) (i : Fin 16) (q : Part) (h : q.ord.openSlot sd ≠ some i) :
    let r := checkOpen sd q
    r.ord.slots[i] = q.ord.slots[i] ∧ (∀ x, x ≠ sd → r.ord.openSlot x = q.ord.openSlot x ∧ r.dor.openAffected x = q.dor.openAffected x)
    ∧ (∀ x, r.ord.closeSlot x = q.ord.closeSlot x ∧ r.dor.closeAffected x = q.dor.closeAffected x) ∧ (∀ d, r.door d = q.door d)
    ∧ (r.ord.openSlot sd = none ∨ r.ord.openSlot sd = q.ord.openSlot sd) := by
  intro r
  have hr : r = checkOpen sd q := rfl
  clear_value r
  unfold checkOpen at hr
  split at hr
  · rename_i j hj
    have hji : j ≠ i := by rintro rfl; exact h hj
    simp only at hr
    split at hr
    · rw [hr]
      cases sd
      · refine ⟨?_, fun x hx => by cases x; exacts [absurd rfl hx, ⟨rfl, rfl⟩], fun x => by cases x <;> exact ⟨rfl, rfl⟩, fun _ => rfl, Or.inl rfl⟩
        show (q.ord.slots.set j _)[i] = _; rw [slots_set, if_neg (Ne.symm hji)]
      · refine ⟨?_, fun x hx => by cases x; exacts [⟨rfl, rfl⟩, absurd rfl hx], fun x => by cases x <;> exact ⟨rfl, rfl⟩, fun _ => rfl, Or.inl rfl⟩
        show (q.ord.slots.set j _)[i] = _; rw [slots_set, if_neg (Ne.symm hji)]
    · rw [hr]; exact ⟨rfl, fun _ _ => ⟨rfl, rfl⟩, fun _ => ⟨rfl, rfl⟩, fun _ => rfl, Or.inr rfl⟩
  · rw [hr]; exact ⟨rfl, fun _ _ => ⟨rfl, rfl⟩, fun _ => ⟨rfl, rfl⟩, fun _ => rfl, Or.inr rfl⟩

theorem cc_spec (sd : Side) (i : Fin 16) (q : Part) (h : q.ord.closeSlot sd ≠ some i) :
    let r := checkClose sd q
    r.ord.slots[i] = q.ord.slots[i] ∧ (∀ x, x ≠ sd → r.ord.closeSlot x = q.ord.closeSlot x ∧ r.dor.closeAffected x = q.dor.closeAffected x)
    ∧ (∀ x, r.ord.openSlot x = q.ord.openSlot x ∧ r.dor.openAffected x = q.dor.openAffected x) ∧ (∀ d, r.door d = q.door d)
    ∧ (r.ord.closeSlot sd = none ∨ r.ord.closeSlot sd = q.ord.closeSlot sd) := by
  intro r
  have hr : r = checkClose sd q := rfl
  clear_value r
  unfold checkClose at hr
  split at hr
  · rename_i j hj
    have hji : j ≠ i := by rintro rfl; exact h hj
    simp only at hr
    split at hr
    · rw [hr]
      cases sd
      · refine ⟨?_, fun x hx => by cases x; exacts [absurd rfl hx, ⟨rfl, rfl⟩], fun x => by cases x <;> exact ⟨rfl, rfl⟩, fun _ => rfl, Or.inl rfl⟩
        show (q.ord.slots.set j _)[i] = _; rw [slots_set, if_neg (Ne.symm hji)]
      · refine ⟨?_, fun x hx => by cases x; exacts [⟨rfl, rfl⟩, absurd rfl hx], fun x => by cases x <;> exact ⟨rfl, rfl⟩, fun _ => rfl, Or.inl rfl⟩
        show (q.ord.slots.set j _)[i] = _; rw [slots_set, if_neg (Ne.symm hji)]
    · rw [hr]; exact ⟨rfl, fun _ _ => ⟨rfl, rfl⟩, fun _ => ⟨rfl, rfl⟩, fun _ => rfl, Or.inr rfl⟩
  · rw [hr]; exact ⟨rfl, fun _ _ => ⟨rfl, rfl⟩, fun _ => ⟨rfl, rfl⟩, fun _ => rfl, Or.inr rfl⟩

/-- an OPEN SIDE of its own side, checked -/
theorem co_self (sd : Side) (i : Fin 16) (q : Part) (h : q.ord.openSlot sd = some i) :
    let r := checkOpen sd q
    let ds := doorsOf (q.dor.openAffected sd)
    ((ds.all fun d => openFinal (q.door d)) = true → r.ord.slots[i] = { q.ord.slots[i] with state := .done, result := doorResult (ds.filter fun d => (q.door d).state != .open_) } ∧ r.ord.openSlot sd = none)
    ∧ ((ds.all fun d => openFinal (q.door d)) = false → r = q)
    ∧ (∀ x, r.ord.closeSlot x = q.ord.closeSlot x) ∧ (∀ x, x ≠ sd → r.ord.openSlot x = q.ord.openSlot x) := by
  intro r ds
  have hr : r = checkOpen sd q := rfl
  clear_value r
  unfold checkOpen at hr
  rw [h] at hr
  simp only at hr
  change r = if (ds.all fun d => openFinal (q.door d)) = true then slotEnd i false (doorResult (ds.filter fun d => (q.door d).state != .open_)) (setOpenAffected sd 0 (setOpenSlot sd none q)) else q at hr
  split at hr
  · rename_i hc
    rw [hr]
    refine ⟨fun _ => ⟨?_, ?_⟩, fun h => absurd hc (by simp [h]), fun x => by cases sd <;> cases x <;> rfl, fun x hx => by cases sd <;> cases x <;> first | rfl | exact absurd rfl hx⟩
    · cases sd <;> (show (q.ord.slots.set i _)[i] = _; rw [slots_set, if_pos rfl]; rfl)
    · cases sd <;> rfl
  · rename_i hc; exact ⟨fun h => absurd h hc, fun _ => hr, fun x => by rw [hr], fun x _ => by rw [hr]⟩

theorem cc_self (sd : Side) (i : Fin 16) (q : Part) (h : q.ord.closeSlot sd = some i) :
    let r := checkClose sd q
    let ds := doorsOf (q.dor.closeAffected sd)
    ((ds.all fun d => closeFinal (q.door d)) = true → r.ord.slots[i] = { q.ord.slots[i] with state := .done, result := doorResult (ds.filter fun d => (q.door d).state != .locked) } ∧ r.ord.closeSlot sd = none)
    ∧ ((ds.all fun d => closeFinal (q.door d)) = false → r = q)
    ∧ (∀ x, r.ord.openSlot x = q.ord.openSlot x) ∧ (∀ x, x ≠ sd → r.ord.closeSlot x = q.ord.closeSlot x) := by
  intro r ds
  have hr : r = checkClose sd q := rfl
  clear_value r
  unfold checkClose at hr
  rw [h] at hr
  simp only at hr
  change r = if (ds.all fun d => closeFinal (q.door d)) = true then slotEnd i false (doorResult (ds.filter fun d => (q.door d).state != .locked)) (setCloseAffected sd 0 (setCloseSlot sd none q)) else q at hr
  split at hr
  · rename_i hc
    rw [hr]
    refine ⟨fun _ => ⟨?_, ?_⟩, fun h => absurd hc (by simp [h]), fun x => by cases sd <;> cases x <;> rfl, fun x hx => by cases sd <;> cases x <;> first | rfl | exact absurd rfl hx⟩
    · cases sd <;> (show (q.ord.slots.set i _)[i] = _; rw [slots_set, if_pos rfl]; rfl)
    · cases sd <;> rfl
  · rename_i hc; exact ⟨fun h => absurd h hc, fun _ => hr, fun x => by rw [hr], fun x _ => by rw [hr]⟩

theorem mask_foldl (l : List (Fin 8)) (m : BitVec 8) (d : Fin 8) : (l.foldl (fun m d => m ||| (1#8 <<< d.val)) m).getLsbD d.val = (m.getLsbD d.val || decide (d ∈ l)) := by
  induction l generalizing m with
  | nil => simp
  | cons x l ih =>
    rw [List.foldl_cons, ih]
    have : (1#8 <<< x.val).getLsbD d.val = decide (d = x) := by clear ih; revert x d; decide
    rw [BitVec.getLsbD_or, this]
    by_cases h : d = x <;> simp [h, Bool.or_assoc]

theorem mem_doorsOf (l : List (Fin 8)) (d : Fin 8) : d ∈ doorsOf (doorMask l) ↔ d ∈ l := by
  unfold doorsOf doorMask
  rw [List.mem_filter, mask_foldl]
  have : d ∈ allDoors := by revert d; decide
  simp [this]

def otherSide : Side → Side | .left => .right | .right => .left

theorem other_ne (sd : Side) : sd ≠ otherSide sd := by cases sd <;> decide

theorem other_all {P : Side → Prop} (sd : Side) (h1 : P sd) (h2 : P (otherSide sd)) : ∀ x, P x := by intro x; cases sd <;> cases x <;> assumption

/-- the slot of an OPEN SIDE when the door orders are checked -/
theorem checkOrders_open (sd : Side) (i : Fin 16) (q : Part) (h : q.ord.openSlot sd = some i) (h1 : q.ord.openSlot (otherSide sd) ≠ some i) (h2 : ∀ x, q.ord.closeSlot x ≠ some i) :
    let r := checkDoorOrders q
    let ds := doorsOf (q.dor.openAffected sd)
    ((ds.all fun d => openFinal (q.door d)) = true → r.ord.slots[i] = { q.ord.slots[i] with state := .done, result := doorResult (ds.filter fun d => (q.door d).state != .open_) } ∧ r.ord.openSlot sd = none)
    ∧ ((ds.all fun d => openFinal (q.door d)) = false → r.ord.slots[i] = q.ord.slots[i] ∧ r.ord.openSlot sd = some i) := by
  intro r ds
  have hr : r = checkClose .right (checkClose .left (checkOpen .right (checkOpen .left q))) := rfl
  clear_value r
  -- the closes leave the slot
  have closes : ∀ z : Part, (∀ x, z.ord.closeSlot x ≠ some i) → (checkClose .right (checkClose .left z)).ord.slots[i] = z.ord.slots[i] ∧ ∀ x, (checkClose .right (checkClose .left z)).ord.openSlot x = z.ord.openSlot x := by
    intro z hz
    obtain ⟨a1, a2, a3, a4, a5⟩ := cc_spec .left i z (hz _)
    obtain ⟨b1, b2, b3, b4, b5⟩ := cc_spec .right i (checkClose .left z) (by rw [(a2 .right (by decide)).1]; exact hz _)
    exact ⟨b1.trans a1, fun x => (b3 x).1.trans (a3 x).1⟩
  cases sd with
  | left =>
    obtain ⟨a1, a2, a3, a4⟩ := co_self .left i q h
    have n1 : (checkOpen .left q).ord.openSlot .right ≠ some i := by rw [a4 .right (by decide)]; exact h1
    obtain ⟨b1, b2, b3, b4, b5⟩ := co_spec .right i (checkOpen .left q) n1
    obtain ⟨c1, c2⟩ := closes (checkOpen .right (checkOpen .left q)) (fun x => by rw [(b3 x).1, a3]; exact h2 x)
    have e1 : r.ord.slots[i] = (checkOpen .left q).ord.slots[i] := by rw [hr, c1, b1]
    have e2 : r.ord.openSlot .left = (checkOpen .left q).ord.openSlot .left := by rw [hr, c2, (b2 .left (by decide)).1]
    refine ⟨fun hf => ?_, fun hf => ?_⟩
    · rw [e1, e2]; exact a1 hf
    · rw [e1, e2, a2 hf]; exact ⟨rfl, h⟩
  | right =>
    obtain ⟨b1, b2, b3, b4, b5⟩ := co_spec .left i q h1
    obtain ⟨a1, a2, a3, a4⟩ := co_self .right i (checkOpen .left q) (by rw [(b2 .right (by decide)).1]; exact h)
    obtain ⟨c1, c2⟩ := closes (checkOpen .right (checkOpen .left q)) (fun x => by rw [a3, (b3 x).1]; exact h2 x)
    have e1 : r.ord.slots[i] = (checkOpen .right (checkOpen .left q)).ord.slots[i] := by rw [hr, c1]
    have e2 : r.ord.openSlot .right = (checkOpen .right (checkOpen .left q)).ord.openSlot .right := by rw [hr, c2]
    rw [(b2 .right (by decide)).2] at a1 a2
    simp only [b4] at a1 a2
    refine ⟨fun hf => ?_, fun hf => ?_⟩
    · rw [e1, e2, ← b1]; exact a1 hf
    · rw [e1, e2, a2 hf]; exact ⟨b1, by rw [(b2 .right (by decide)).1]; exact h⟩

theorem checkOrders_close (sd : Side) (i : Fin 16) (q : Part) (h : q.ord.closeSlot sd = some i) (h1 : q.ord.closeSlot (otherSide sd) ≠ some i) (h2 : ∀ x, q.ord.openSlot x ≠ some i) :
    let r := checkDoorOrders q
    let ds := doorsOf (q.dor.closeAffected sd)
    ((ds.all fun d => closeFinal (q.door d)) = true → r.ord.slots[i] = { q.ord.slots[i] with state := .done, result := doorResult (ds.filter fun d => (q.door d).state != .locked) } ∧ r.ord.closeSlot sd = none)
    ∧ ((ds.all fun d => closeFinal (q.door d)) = false → r.ord.slots[i] = q.ord.slots[i] ∧ r.ord.closeSlot sd = some i) := by
  intro r ds
  have hr : r = checkClose .right (checkClose .left (checkOpen .right (checkOpen .left q))) := rfl
  clear_value r
  obtain ⟨p1, p2, p3, p4, p5⟩ := co_spec .left i q (h2 _)
  obtain ⟨q1, q2, q3, q4, q5⟩ := co_spec .right i (checkOpen .left q) (by rw [(p2 .right (by decide)).1]; exact h2 _)
  obtain ⟨z, hz⟩ : ∃ z, z = checkOpen .right (checkOpen .left q) := ⟨_, rfl⟩
  rw [← hz] at hr q1 q2 q3 q4 q5
  have zs : z.ord.slots[i] = q.ord.slots[i] := q1.trans p1
  have zc : ∀ x, z.ord.closeSlot x = q.ord.closeSlot x ∧ z.dor.closeAffected x = q.dor.closeAffected x := fun x => ⟨(q3 x).1.trans (p3 x).1, (q3 x).2.trans (p3 x).2⟩
  have zd : ∀ d, z.door d = q.door d := fun d => (q4 d).trans (p4 d)
  clear hz
  cases sd with
  | left =>
    obtain ⟨a1, a2, a3, a4⟩ := cc_self .left i z (by rw [(zc _).1]; exact h)
    have n1 : (checkClose .left z).ord.closeSlot .right ≠ some i := by rw [a4 .right (by decide), (zc _).1]; exact h1
    obtain ⟨b1, b2, b3, b4, b5⟩ := cc_spec .right i (checkClose .left z) n1
    have e1 : r.ord.slots[i] = (checkClose .left z).ord.slots[i] := by rw [hr, b1]
    have e2 : r.ord.closeSlot .left = (checkClose .left z).ord.closeSlot .left := by rw [hr, (b2 .left (by decide)).1]
    rw [(zc _).2] at a1 a2
    simp only [zd] at a1 a2
    refine ⟨fun hf => ?_, fun hf => ?_⟩
    · rw [e1, e2, ← zs]; exact a1 hf
    · rw [e1, e2, a2 hf]; exact ⟨zs, by rw [(zc _).1]; exact h⟩
  | right =>
    obtain ⟨b1, b2, b3, b4, b5⟩ := cc_spec .left i z (by rw [(zc _).1]; exact h1)
    obtain ⟨a1, a2, a3, a4⟩ := cc_self .right i (checkClose .left z) (by rw [(b2 .right (by decide)).1, (zc _).1]; exact h)
    rw [(b2 .right (by decide)).2, (zc _).2] at a1 a2
    simp only [b4, zd] at a1 a2
    refine ⟨fun hf => ?_, fun hf => ?_⟩
    · rw [hr, ← zs, ← b1]; exact a1 hf
    · rw [hr, a2 hf]; exact ⟨b1.trans zs, by rw [(b2 .right (by decide)).1, (zc _).1]; exact h⟩

theorem formDoors_keeps (q : Part) : (formDoors q).ord = q.ord ∧ (formDoors q).dor = q.dor := by
  unfold formDoors
  have r := followEntry_requested .doors (doorsRequest q).1 (doorsRequest q).2 q
  rw [r.rest]; exact ⟨rfl, rfl⟩

theorem afterDoors_plain {b q : Part} (h : ∀ d, (b.door d).state = .locked → (q.door d).state = .locked) : afterDoors b q = checkDoorOrders (formDoors q) := by
  unfold afterDoors
  have : leftLocked b (formDoors q) = false := by
    unfold leftLocked
    rw [List.any_eq_false]
    intro d _
    have e : (formDoors q).door d = q.door d := by unfold Part.door; rw [(formDoors_keeps q).2]
    rw [e]
    by_cases hl : (b.door d).state = .locked
    · simp [hl, h d hl]
    · simp [hl]
  simp only [this, Bool.false_eq_true, if_false]

theorem openDoor_door (d x : Fin 8) (p : Part) : (openDoor d p).door x = if x = d then (if (p.door d).fo then { p.door d with state := .open_, motion := none } else { p.door d with state := .opening, motion := some p.now }) else p.door x := by
  have hd : ∀ x, (doorTo d .opening (some p.now) p).door x = if x = d then { p.door d with state := .opening, motion := some p.now } else p.door x := fun x => doorTo_door _ _ _ _ _
  unfold openDoor
  simp only [hd d, if_true]
  cases hf : (p.door d).fo
  · rw [if_neg (by decide), hd]; simp [hf]
  · rw [if_pos rfl, doorTo_door, hd, hd]; split <;> simp [hf]

def closeRec (now : Word) (limit : Nat) : Nat → Door → Door
  | 0, r => r
  | n + 1, r =>
    let q := { r with state := .closing, motion := some now }
    if q.cl then { q with state := .locked, motion := none }
    else if q.ob then
      let x := { (if q.retries < 7 then { q with retries := q.retries + 1 } else { q with closeFailed := true }) with state := .reopening, motion := some now }
      if x.fo then (if !x.closeFailed && x.retries ≤ limit then closeRec now limit n x else { x with closeFailed := true, state := .open_, motion := none }) else x
    else q

def SameButDoors (p q : Part) : Prop := q = (p.withDor { p.dor with doors := q.dor.doors }).withEvq q.evq

theorem SameButDoors.refl (p : Part) : SameButDoors p p := rfl

theorem SameButDoors.trans {p q r : Part} (a : SameButDoors p q) (b : SameButDoors q r) : SameButDoors p r := by
  unfold SameButDoors at *; rw [b, a]; rfl

theorem doorTo_sbd (d : Fin 8) (x : DoorState) (m : Option Word) (p : Part) : SameButDoors p (doorTo d x m p) := rfl

theorem setDoor_sbd (d : Fin 8) (f : Door → Door) (p : Part) : SameButDoors p (setDoor d f p) := rfl

theorem enterClosing_door (n : Nat) (d : Fin 8) (p : Part) :
    SameButDoors p (enterClosing n d p) ∧ ∀ x, (enterClosing n d p).door x = if x = d then closeRec p.now p.prf.settings.obstructionRetries n (p.door d) else p.door x := by
  induction n generalizing p with
  | zero => refine ⟨rfl, fun x => ?_⟩; by_cases h : x = d <;> simp [enterClosing, closeRec, h]
  | succ n ih =>
    have h1 : ∀ x, (doorTo d .closing (some p.now) p).door x = if x = d then { p.door d with state := .closing, motion := some p.now } else p.door x := fun x => doorTo_door _ _ _ _ _
    obtain ⟨q, hq⟩ : ∃ q, q = doorTo d .closing (some p.now) p := ⟨_, rfl⟩
    rw [← hq] at h1
    have q1 : SameButDoors p q := by rw [hq]; rfl
    have qn : q.now = p.now := by rw [hq]; rfl
    have qp : q.prf = p.prf := by rw [hq]; rfl
    have hqd : q.door d = { p.door d with state := .closing, motion := some p.now } := by rw [h1, if_pos rfl]
    obtain ⟨r, hr⟩ : ∃ r, r = startReopening d q := ⟨_, rfl⟩
    have r1 : SameButDoors p r := q1.trans (by rw [hr]; rfl)
    have rn : r.now = p.now := by rw [hr, ← qn]; rfl
    have rp : r.prf = p.prf := by rw [hr, ← qp]; rfl
    have hrd : ∀ x, r.door x = if x = d then { (if (q.door d).retries < 7 then { q.door d with retries := (q.door d).retries + 1 } else { q.door d with closeFailed := true }) with state := .reopening, motion := some p.now } else p.door x := by
      intro x; rw [hr]; unfold startReopening; rw [doorTo_door, setDoor_door, setDoor_door, qn]
      by_cases hx : x = d
      · rw [if_pos hx, if_pos rfl, if_pos hx]
      · rw [if_neg hx, if_neg hx, if_neg hx, h1, if_neg hx]
    have e : enterClosing (n + 1) d p = if (q.door d).cl then doorTo d .locked none q else if (q.door d).ob then (if (r.door d).fo then (if recloses d r then enterClosing n d r else leaveOpen d r) else r) else q := by
      rw [hr, hq]; rfl
    have c : closeRec p.now p.prf.settings.obstructionRetries (n + 1) (p.door d) = if (q.door d).cl then { q.door d with state := .locked, motion := none } else if (q.door d).ob then
        (if (r.door d).fo then (if !(r.door d).closeFailed && (r.door d).retries ≤ p.prf.settings.obstructionRetries then closeRec p.now p.prf.settings.obstructionRetries n (r.door d) else { r.door d with closeFailed := true, state := .open_, motion := none }) else r.door d) else q.door d := by
      rw [hrd, if_pos rfl, hqd]; rfl
    rw [e, c]
    by_cases b1 : (q.door d).cl = true
    · rw [if_pos b1, if_pos b1]
      refine ⟨q1.trans rfl, fun x => ?_⟩
      rw [doorTo_door]; by_cases hx : x = d
      · rw [if_pos hx, if_pos hx]
      · rw [if_neg hx, if_neg hx, h1, if_neg hx]
    · rw [if_neg b1, if_neg b1]
      by_cases b2 : (q.door d).ob = true
      · rw [if_pos b2, if_pos b2]
        by_cases b3 : (r.door d).fo = true
        · rw [if_pos b3, if_pos b3]
          have hrec : recloses d r = (!(r.door d).closeFailed && decide ((r.door d).retries ≤ p.prf.settings.obstructionRetries)) := by unfold recloses; rw [rp]
          rw [hrec]
          split
          · obtain ⟨i1, i2⟩ := ih r
            refine ⟨r1.trans i1, fun x => ?_⟩
            rw [i2, rn, rp]; by_cases hx : x = d
            · rw [if_pos hx, if_pos hx]
            · rw [if_neg hx, if_neg hx, hrd, if_neg hx]
          · refine ⟨r1.trans rfl, fun x => ?_⟩
            unfold leaveOpen; rw [doorTo_door, setDoor_door, setDoor_door]; by_cases hx : x = d
            · rw [if_pos hx, if_pos hx, if_pos rfl]
            · rw [if_neg hx, if_neg hx, if_neg hx, hrd, if_neg hx]
        · rw [if_neg b3, if_neg b3]
          refine ⟨r1, fun x => ?_⟩
          by_cases hx : x = d
          · rw [if_pos hx, hx]
          · rw [if_neg hx, hrd, if_neg hx]
      · rw [if_neg b2, if_neg b2]
        refine ⟨q1, fun x => ?_⟩
        by_cases hx : x = d
        · rw [if_pos hx, hx]
        · rw [if_neg hx, h1, if_neg hx]

theorem close_cl (now : Word) (lim n : Nat) (r : Door) (h : r.cl = true) : closeRec now lim (n + 1) r = { r with state := .locked, motion := none } := by
  unfold closeRec; simp only [h, if_true]

theorem close_clear (now : Word) (lim n : Nat) (r : Door) (h : r.cl = false) (h2 : r.ob = false) : closeRec now lim (n + 1) r = { r with state := .closing, motion := some now } := by
  unfold closeRec; simp only [h, h2, Bool.false_eq_true, if_false]

def zeroed (r : Door) : Door := { r with retries := 0, closeFailed := false }

theorem withdrawDoor_door (d : Fin 8) (p : Part) :
    SameButDoors p (withdrawDoor d p) ∧ ∀ x, (withdrawDoor d p).door x = if x = d then (if (p.door d).state = .released then closeRec p.now p.prf.settings.obstructionRetries 10 (zeroed (p.door d)) else p.door d) else p.door x := by
  unfold withdrawDoor
  by_cases h : (p.door d).state = .released
  · rw [if_pos (by simpa using h)]
    obtain ⟨a, b⟩ := enterClosing_door 10 d (setDoor d (fun r => { r with retries := 0, closeFailed := false }) p)
    refine ⟨(setDoor_sbd d _ p).trans a, fun x => ?_⟩
    refine (b x).trans ?_
    rw [setDoor_door, setDoor_door, if_pos rfl, if_pos h]
    by_cases hx : x = d
    · rw [if_pos hx, if_pos hx]; rfl
    · rw [if_neg hx, if_neg hx, if_neg hx]
  · rw [if_neg (by simpa using h)]
    refine ⟨rfl, fun x => ?_⟩
    rw [if_neg h]; split <;> simp_all

theorem closeAffected_door (d : Fin 8) (p : Part) :
    SameButDoors p (closeAffectedDoor d p) ∧ ∀ x, (closeAffectedDoor d p).door x = if x = d then (if (p.door d).state = .released ∨ (p.door d).state = .opening ∨ (p.door d).state = .open_ then closeRec p.now p.prf.settings.obstructionRetries 10 (zeroed (p.door d)) else zeroed (p.door d)) else p.door x := by
  unfold closeAffectedDoor
  have hz : ∀ x, (setDoor d (fun r => { r with retries := 0, closeFailed := false }) p).door x = if x = d then zeroed (p.door d) else p.door x := fun x => setDoor_door _ _ _ _
  obtain ⟨z, ez⟩ : ∃ z, z = setDoor d (fun r => { r with retries := 0, closeFailed := false }) p := ⟨_, rfl⟩
  rw [← ez] at hz ⊢
  have z1 : SameButDoors p z := by rw [ez]; rfl
  have zn : z.now = p.now := by rw [ez]; rfl
  have zp : z.prf = p.prf := by rw [ez]; rfl
  have hst : (z.door d).state = (p.door d).state := by rw [hz, if_pos rfl]; rfl
  simp only [hst]
  by_cases h : (p.door d).state = .released ∨ (p.door d).state = .opening ∨ (p.door d).state = .open_
  · rw [if_pos (by rcases h with h | h | h <;> simp [h])]
    obtain ⟨a, b⟩ := enterClosing_door 10 d z
    refine ⟨z1.trans a, fun x => ?_⟩
    refine (b x).trans ?_
    rw [zn, zp, hz, if_pos rfl, hz, if_pos h]
    by_cases hx : x = d
    · rw [if_pos hx, if_pos hx]
    · rw [if_neg hx, if_neg hx, if_neg hx]
  · rw [if_neg (by cases hs : (p.door d).state <;> simp_all)]
    refine ⟨z1, fun x => ?_⟩
    rw [hz, if_neg h]

theorem withdrawSide_door (sd : Side) (c : WithdrawCause) (p : Part) :
    (∀ x, (withdrawSide sd c p).door x = if x ∈ sideDoors sd ∧ (p.side sd).released = true ∧ (p.door x).state = .released then closeRec p.now p.prf.settings.obstructionRetries 10 (zeroed (p.door x)) else p.door x)
    ∧ ((withdrawSide sd c p).side sd).released = false
    ∧ (withdrawSide sd c p).now = p.now ∧ (withdrawSide sd c p).prf = p.prf ∧ (withdrawSide sd c p).ord = p.ord := by
  unfold withdrawSide
  by_cases h : (p.side sd).released = true
  · rw [if_pos h]
    simp only
    obtain ⟨z, ez⟩ : ∃ z, z = post .sideWithdrawn (arg2 sd.code c.code) (setSide sd { p.side sd with released := false, platform := 0 } p) := ⟨_, rfl⟩
    rw [← ez]
    have zd : ∀ x, z.door x = p.door x := by intro x; rw [ez]; cases sd <;> rfl
    have zn : z.now = p.now := by rw [ez]; cases sd <;> rfl
    have zp : z.prf = p.prf := by rw [ez]; cases sd <;> rfl
    have zo : z.ord = p.ord := by rw [ez]; cases sd <;> rfl
    have zs : (z.side sd).released = false := by rw [ez]; cases sd <;> rfl
    obtain ⟨F, K⟩ := fold_doors (fun q d => withdrawDoor d q) (fun q => SameButDoors z q)
      (fun r => if r.state = .released then closeRec p.now p.prf.settings.obstructionRetries 10 (zeroed r) else r)
      (fun q d k => k.trans (withdrawDoor_door d q).1)
      (fun q d x k => by
        have qn : q.now = p.now := by rw [k]; exact zn
        have qp : q.prf = p.prf := by rw [k]; exact zp
        show (withdrawDoor d q).door x = _
        rw [(withdrawDoor_door d q).2, qn, qp])
      (sideDoors sd) (sideDoors_nodup sd) z rfl
    generalize (sideDoors sd).foldl (fun q d => withdrawDoor d q) z = v at F K
    refine ⟨fun x => ?_, ?_, ?_, ?_, ?_⟩
    · rw [F, zd]
      by_cases hx : x ∈ sideDoors sd
      · rw [if_pos hx]
        by_cases hs : (p.door x).state = .released
        · rw [if_pos hs]; exact (if_pos ⟨hx, h, hs⟩).symm
        · rw [if_neg hs]; exact (if_neg (fun hh => hs hh.2.2)).symm
      · rw [if_neg hx]; exact (if_neg (fun hh => hx hh.1)).symm
    · rw [K]; cases sd <;> exact zs
    · rw [K]; exact zn
    · rw [K]; exact zp
    · rw [K]; exact zo
  · rw [if_neg h]
    exact ⟨fun x => by rw [if_neg (fun hh => h hh.2.1)], by simpa using h, rfl, rfl, rfl⟩

theorem overtake_spec (sd : Side) (p : Part) :
    (∀ x, (overtakeOpen sd p).door x = p.door x) ∧ (overtakeOpen sd p).now = p.now ∧ (overtakeOpen sd p).prf = p.prf ∧ (∀ x, (overtakeOpen sd p).side x = p.side x)
    ∧ (∀ x, (overtakeOpen sd p).ord.closeSlot x = p.ord.closeSlot x) ∧ (∀ x, x ≠ sd → (overtakeOpen sd p).ord.openSlot x = p.ord.openSlot x)
    ∧ (overtakeOpen sd p).ord.openSlot sd = none
    ∧ (∀ j, p.ord.openSlot sd ≠ some j → (overtakeOpen sd p).ord.slots[j] = p.ord.slots[j])
    ∧ (∀ j, p.ord.openSlot sd = some j → (overtakeOpen sd p).ord.slots[j] = { p.ord.slots[j] with state := .aborted, result := 1 }) := by
  unfold overtakeOpen
  split
  · rename_i i hi
    refine ⟨fun x => by cases sd <;> rfl, by cases sd <;> rfl, by cases sd <;> rfl, fun x => by cases sd <;> cases x <;> rfl, fun x => by cases sd <;> cases x <;> rfl,
      fun x hx => by cases sd <;> cases x <;> first | rfl | exact absurd rfl hx, by cases sd <;> rfl, fun j hj => ?_, fun j hj => ?_⟩
    · have : i ≠ j := by rintro rfl; exact hj hi
      cases sd <;> (show (p.ord.slots.set i _)[j] = _; rw [slots_set, if_neg (Ne.symm this)])
    · have : i = j := by rw [hi] at hj; exact Option.some.inj hj
      subst this
      cases sd <;> (show (p.ord.slots.set i _)[i] = _; rw [slots_set, if_pos rfl]; rfl)
  · rename_i hi
    exact ⟨fun _ => rfl, rfl, rfl, fun _ => rfl, fun _ => rfl, fun _ _ => rfl, hi, fun _ _ => rfl, fun j hj => by rw [hi] at hj; cases hj⟩

theorem open_none (sd : Side) (q : Part) (h : q.ord.openSlot sd = none) : (checkDoorOrders q).ord.openSlot sd = none := by
  have ho : ∀ x (z : Part), z.ord.openSlot sd = none → (checkOpen x z).ord.openSlot sd = none := by
    intro x z hz
    unfold checkOpen; split
    · simp only; split
      · cases x <;> cases sd <;> first | rfl | exact hz
      · exact hz
    · exact hz
  have hc : ∀ x (z : Part), z.ord.openSlot sd = none → (checkClose x z).ord.openSlot sd = none := by
    intro x z hz
    unfold checkClose; split
    · simp only; split
      · cases x <;> cases sd <;> exact hz
      · exact hz
    · exact hz
  unfold checkDoorOrders; exact hc _ _ (hc _ _ (ho _ _ (ho _ _ h)))

theorem closeDoors_spec (now : Word) (lim : Nat) (rel : Bool) (r : Door) :
    let w := if rel = true ∧ r.state = .released then closeRec now lim 10 (zeroed r) else r
    let aff := w.state = .released ∨ w.state = .opening ∨ w.state = .open_ ∨ w.state = .closing ∨ w.state = .reopening
    let v := if aff then (if w.state = .released ∨ w.state = .opening ∨ w.state = .open_ then closeRec now lim 10 (zeroed w) else zeroed w) else w
    (r.state = .released ∨ r.state = .opening ∨ r.state = .open_ →
      (r.cl = true → v = { r with state := .locked, motion := none, retries := 0, closeFailed := false })
      ∧ (r.cl = false → r.ob = false → v = { r with state := .closing, motion := some now, retries := 0, closeFailed := false }))
    ∧ (r.state = .closing ∨ r.state = .reopening → v = { r with retries := 0, closeFailed := false })
    ∧ (r.state = .locked ∨ r.state = .faulted ∨ r.state = .isolated → v = r)
    ∧ (v.state = .closing ∨ v.state = .reopening → aff) := by
  intro w aff v
  refine ⟨fun hs => ⟨fun hc => ?_, fun hc ho => ?_⟩, fun hs => ?_, fun hs => ?_, fun hv => ?_⟩
  · by_cases hr : rel = true ∧ r.state = .released
    · have ew : w = { r with state := .locked, motion := none, retries := 0, closeFailed := false } := by
        simp only [w]; rw [if_pos hr, close_cl _ _ 9 _ (by exact hc)]; rfl
      have : ¬ aff := by simp only [aff, ew]; simp
      simp only [v]; rw [if_neg this, ew]
    · have ew : w = r := by simp only [w]; rw [if_neg hr]
      have h1 : aff := by simp only [aff, ew]; rcases hs with h | h | h <;> simp [h]
      simp only [v]; rw [if_pos h1, ew, if_pos hs, close_cl _ _ 9 _ (by exact hc)]; rfl
  · by_cases hr : rel = true ∧ r.state = .released
    · have ew : w = { r with state := .closing, motion := some now, retries := 0, closeFailed := false } := by
        simp only [w]; rw [if_pos hr, close_clear _ _ 9 _ (by exact hc) (by exact ho)]; rfl
      have h1 : aff := by simp only [aff, ew]; simp
      simp only [v]; rw [if_pos h1, ew, if_neg (by simp)]; rfl
    · have ew : w = r := by simp only [w]; rw [if_neg hr]
      have h1 : aff := by simp only [aff, ew]; rcases hs with h | h | h <;> simp [h]
      simp only [v]; rw [if_pos h1, ew, if_pos hs, close_clear _ _ 9 _ (by exact hc) (by exact ho)]; rfl
  · have ew : w = r := by simp only [w]; rw [if_neg (fun h => by rcases hs with k | k <;> rw [k] at h <;> exact absurd h.2 (by decide))]
    have h1 : aff := by simp only [aff, ew]; rcases hs with h | h <;> simp [h]
    simp only [v]; rw [if_pos h1, ew, if_neg (by rcases hs with k | k <;> simp [k])]; rfl
  · have ew : w = r := by simp only [w]; rw [if_neg (fun h => by rcases hs with k | k | k <;> rw [k] at h <;> exact absurd h.2 (by decide))]
    have h1 : ¬ aff := by simp only [aff, ew]; rcases hs with h | h | h <;> simp [h]
    simp only [v]; rw [if_neg h1, ew]
  · by_contra h1
    simp only [v] at hv; rw [if_neg h1] at hv
    apply h1; simp only [aff]; rcases hv with h | h <;> simp [h]

end Sys2Proof.Machine
end

