-- ==== Sys2Proof/Laws/Odometry.lean ====
section
/-! SUPPORT. One count, one datum match, the direct setting of position and regime, and what an odometry order does, said once. -/

namespace Sys2Proof.Machine

open Sys2Proof.Safety (Group)

theorem enc_setEnc (o : Odo) (e x : Encoder) (v : Enc) : (o.setEnc e v).enc x = if x = e then v else o.enc x := by
  cases e <;> cases x <;> rfl

theorem phase_follows {q l : BitVec 2} {c : Dir} (h : Safety.follows q l c) : phaseStep q l = (match c with | .up => .up | .down => .down) := by
  revert h; unfold Safety.follows; revert q l; cases c <;> decide

theorem soft_enc {a b : Odo} (h : OdoSoft a b) (x : Encoder) : b.enc x = a.enc x := by
  cases x <;> simp [Odo.enc, h.1, h.2.1, h.2.2.1]

theorem setEnc_rest (o : Odo) (e : Encoder) (v : Enc) : (o.setEnc e v).source = o.source ∧ (o.setEnc e v).validity = o.validity ∧ (o.setEnc e v).pos = o.pos
  ∧ (o.setEnc e v).dir = o.dir ∧ (o.setEnc e v).bucket = o.bucket ∧ (o.setEnc e v).standstill = o.standstill ∧ (o.setEnc e v).segment = o.segment := by cases e <;> exact ⟨rfl,rfl,rfl,rfl,rfl,rfl,rfl⟩

theorem faulted_same (o : Odo) (e x : Encoder) (l : BitVec 2) : ((o.setEnc e { o.enc e with quad := l }).enc x).faulted = (o.enc x).faulted := by
  rw [enc_setEnc]; split <;> simp_all

theorem motion_same (o : Odo) (e : Encoder) (l : BitVec 2) : (o.setEnc e { o.enc e with quad := l }).motion = o.motion := by
  cases e <;> rfl

theorem standstillCount_spec (p : Part) : (standstillCount p).odo = { p.odo with standTimer := some p.now, standstill := p.odo.standstill && p.asserted } := by
  unfold standstillCount; simp only
  cases h1 : p.odo.standstill <;> cases h2 : p.asserted <;>
    simp [h1, h2, post, postAt, show ∀ x, (p.withOdo x).asserted = p.asserted from fun _ => rfl]

theorem countTaken_spec (e : Encoder) (c : Dir) (p : Part) : ∃ z : Part, Moves afterMay z (countTaken e c p)
   ∧ (∀ x, z.odo.enc x = if x = e then { p.odo.enc e with tally := (p.odo.enc e).tally + BitVec.ofInt 32 c.count } else p.odo.enc x)
   ∧ z.odo.standTimer = some p.now ∧ z.odo.standstill = (p.odo.standstill && p.asserted)
   ∧ (p.odo.motion = some e → z.odo.dir = c ∧ z.odo.bucket = p.odo.bucket + c.count)
   ∧ (p.odo.motion ≠ some e → z.odo.dir = p.odo.dir ∧ z.odo.bucket = p.odo.bucket)
   ∧ (p.odo.source.encoder? = some e → p.odo.validity ≠ .unknown → z.odo.pos = wordOfCount (p.odo.pos.toInt + c.count))
   ∧ (p.odo.source.encoder? ≠ some e ∨ p.odo.validity = .unknown → z.odo.pos = p.odo.pos) := by
  unfold countTaken
  extract_lets moves isSource ran q1 _ q2 q3 q4 q5 q6
  have ht : Group.track ∈ afterMay := by decide
  have k := afterTravel
  -- the odo after tally and standstill
  have hb : ∀ x : Part, x = standstillCount (tallyCount e c moves p) →
     (∀ y, x.odo.enc y = if y = e then { p.odo.enc e with tally := (p.odo.enc e).tally + BitVec.ofInt 32 c.count } else p.odo.enc y)
     ∧ x.odo.standTimer = some p.now ∧ x.odo.standstill = (p.odo.standstill && p.asserted)
     ∧ (p.odo.motion = some e → x.odo.dir = c ∧ x.odo.bucket = p.odo.bucket + c.count)
     ∧ (p.odo.motion ≠ some e → x.odo.dir = p.odo.dir ∧ x.odo.bucket = p.odo.bucket) ∧ x.odo.pos = p.odo.pos := by
    intro x hx
    subst hx
    rw [standstillCount_spec]
    have hr := setEnc_rest p.odo e { p.odo.enc e with tally := (p.odo.enc e).tally + BitVec.ofInt 32 c.count }
    have he : ∀ y, (tallyCount e c moves p).odo.enc y = if y = e then { p.odo.enc e with tally := (p.odo.enc e).tally + BitVec.ofInt 32 c.count } else p.odo.enc y := by
      intro y
      rw [← enc_setEnc]; unfold tallyCount; simp only; split <;> cases y <;> rfl
    refine ⟨fun y => ?_, rfl, ?_, fun h => ?_, fun h => ?_, ?_⟩
    · rw [← he]; cases y <;> rfl
    · show ((tallyCount e c moves p).odo.standstill && p.asserted) = _
      unfold tallyCount; simp only; split <;> simp [hr]
    · have : moves = true := by simp only [moves, h]; simp
      unfold tallyCount; simp [this, hr]
    · have : moves = false := by simp only [moves]; simpa using h
      unfold tallyCount; simp [this, hr]
    · show (tallyCount e c moves p).odo.pos = _
      unfold tallyCount; simp only; split <;> simp [hr]
  obtain ⟨b1, b2, b3, b4, b5, b6⟩ := hb _ rfl
  have m1 : Moves afterMay (standstillCount (tallyCount e c moves p)) q1 := abortTest_moves _ k.mode k.ord (Moves.refl _)
  have f1 := m1.frame.odo (by decide)
  have rest : ∀ z : Part, Moves afterMay z q2 → Moves afterMay z (ssuEvaluate q6) := by
    intro z h2
    have h3 : Moves afterMay z q3 := by simp only [q3]; split; exacts [h2, deviationCount_moves ht k h2]
    have h4 : Moves afterMay z q4 := entryCount_moves ht _ _ _ k h3
    have h5 : Moves afterMay z q5 := by
      simp only [q5]; split; exacts [reverseCount_moves _ k (creepCount_moves k (captureCount_moves ht _ k h4)), h4]
    have h6 : Moves afterMay z q6 := by simp only [q6]; split; exacts [travelCount_moves _ k.mode k.ord h5, h5]
    exact ssuEvaluate_moves h6
  obtain ⟨a1,a2,a3,a4,a5,a6,a7,a8,a9,a10⟩ := f1
  by_cases hs : isSource = true
  · refine ⟨q1.withOdo { q1.odo with pos := wordOfCount (q1.odo.pos.toInt + c.count) }, rest _ ?_, ?_, ?_, ?_, ?_, ?_, ?_, ?_⟩
    · simp only [q2, hs, if_true]; exact moveTo_moves ht _ k (Moves.refl _)
    · intro y; rw [← b1 y, ← soft_enc (m1.frame.odo (by decide)) y]; cases y <;> rfl
    · exact a10.trans b2
    · exact a9.trans b3
    · intro h; exact ⟨a8.trans (b4 h).1, a6.trans (b4 h).2⟩
    · intro h; exact ⟨a8.trans (b5 h).1, a6.trans (b5 h).2⟩
    · intro _ _; simp only [Part.withOdo_odo, a4, b6]
    · intro h; simp only [isSource, Bool.and_eq_true, beq_iff_eq, bne_iff_ne] at hs
      rcases h with h | h
      · exact absurd hs.1 h
      · exact absurd h hs.2
  · refine ⟨q1, rest _ ?_, ?_, ?_, ?_, ?_, ?_, ?_, ?_⟩
    · simp only [q2, hs]; exact Moves.refl _
    · intro y; rw [← b1 y, ← soft_enc (m1.frame.odo (by decide)) y]
    · exact a10.trans b2
    · exact a9.trans b3
    · intro h; exact ⟨a8.trans (b4 h).1, a6.trans (b4 h).2⟩
    · intro h; exact ⟨a8.trans (b5 h).1, a6.trans (b5 h).2⟩
    · intro h1 h2; exact absurd (by simp only [isSource, Bool.and_eq_true, beq_iff_eq, bne_iff_ne]; exact ⟨h1, h2⟩) hs
    · intro _; rw [a4, b6]

theorem phase_illegal {q l : BitVec 2} (h : l = ~~~q) : phaseStep q l = .illegal := by
  subst h; revert q; decide

theorem sum_foldl (l : List Int) : l.foldl (· + ·) 0 = l.sum := by
  have : ∀ (l : List Int) (a : Int), l.foldl (· + ·) a = a + l.sum := by
    intro l; induction l with
    | nil => intro a; simp
    | cons x l ih => intro a; simp [ih]; omega
  simpa using this l 0

theorem segSame {p : Part} {d : Dir} (h : p.odo.segment = segmentIndex p.odo.pos.toInt p.prf.active) :
    followSegment d p = (p.withOdo { p.odo with segment := segmentIndex p.odo.pos.toInt p.prf.active }, []) := by
  unfold followSegment; simp only
  rw [h]
  cases hx : segmentIndex p.odo.pos.toInt p.prf.active with
  | none => rfl
  | some i => simp

theorem settleSource_cap (o : Odo) (p : Part) (h : p.odo.capture = .idle) : (settleSource o p).1.odo.capture = .idle ∧ (settleSource o p).1.odo.mismatches = p.odo.mismatches := by
  unfold settleSource; simp only
  split
  · refine ⟨rfl, ?_⟩
    show (chooseSource p).odo.mismatches = _
    rw [chooseSource_odo]
  · split
    · have := makeUncertain_cap 2 (chooseSource p); rw [this.1, this.2, chooseSource_odo]; exact ⟨h, rfl⟩
    · rw [chooseSource_odo]; exact ⟨h, rfl⟩

theorem followSegment_cap (d : Dir) (p : Part) (h : p.odo.capture = .idle) : (followSegment d p).1.odo.capture = .idle ∧ (followSegment d p).1.odo.mismatches = p.odo.mismatches := by
  unfold followSegment; simp only
  split
  · split
    · exact ⟨h, rfl⟩
    · unfold crossRegime
      split
      · split
        · exact settleSource_cap _ _ h
        · exact ⟨h, rfl⟩
      · split
        · exact settleSource_cap _ _ h
        · split
          · exact settleSource_cap _ _ h
          · exact ⟨h, rfl⟩
  · exact ⟨h, rfl⟩

theorem captured_of (b p q : Part) (new : Word) (h1 : q.evq = p.evq) (h2 : q.now = p.now) (h3 : q.odo.pos = p.odo.pos)
   (h4 : q.odo.segment = p.odo.segment) (h5 : q.prf = p.prf) : Safety.captured new p (finish b (datumMatch new q)) := by
  unfold datumMatch
  extract_lets corr _ o x
  have hx : x.odo.pos = new ∧ x.odo.capture = .idle ∧ x.odo.mismatches = 0 ∧ x.odo.validity = .confirmed ∧ x.odo.segment = p.odo.segment ∧ x.prf = p.prf := by
    simp only [x, o, postAt]
    refine ⟨?_, ?_, ?_, ?_, ?_, h5⟩ <;> simp only [Part.withEvq_odo, Part.withOdo_odo] <;> split <;> first | rfl | exact h4
  generalize hd : (if corr < 0 then Dir.down else Dir.up) = d
  have hf := followSegment_cap d x hx.2.1
  have hw := captureWatch_idle hf.1
  have hm1 : Moves [.track] x (followSegment d x).1 := followSegment_moves (by decide) _ (Moves.refl _)
  have e : moveTo d x = spreadPosition true (odoRequests (followSegment d x).2 (followSegment d x).1) := by
    unfold moveTo; simp only; rw [hw]
  have hm2 : Moves spreadMay (followSegment d x).1 (finish b (moveTo d x)) := by
    rw [e]
    exact finish_moves b (by decide) (spreadPosition_moves _ spreadTravel (odoRequests_moves _ (by decide) (by decide) (Moves.refl _)))
  have c := captureAfter hm2 (by decide) (by decide)
  have hp : ((followSegment d x).1).odo.pos = x.odo.pos := (hm1.frame.odo (by decide)).2.2.2.1
  refine ⟨?_, ?_, ?_, ?_, ?_⟩
  · rw [c.2.2.2, hp, hx.1]
  · rw [c.2.2.1, hf.2, hx.2.2.1]
  · rw [c.1, hf.1]
  · have : Safety.posts q (finish b (moveTo d x)) [(.datumCaptured, BitVec.ofInt 16 (max (-32768) (min 32767 corr)), new)] :=
      posts_of_evq (posts_one _ _ _ true ((hm1.frame.pre (by decide)).trans (hm2.frame.pre (by decide)))) rfl rfl
    unfold Safety.posts at this ⊢
    rw [h1, h2] at this
    simp only [corr, h3] at this
    exact this
  · intro hs
    have hs' : x.odo.segment = segmentIndex x.odo.pos.toInt x.prf.active := by rw [hx.2.2.2.2.1, hx.2.2.2.2.2, hx.1]; exact hs
    rw [c.2.1, segSame hs']; exact hx.2.2.2.1

theorem mismatch_spec (r : MismatchReason) (b p q : Part) (h1 : q.evq = p.evq) (h2 : q.now = p.now) (h3 : q.odo.pos = p.odo.pos) (h4 : q.odo.mismatches = p.odo.mismatches) :
   Safety.posts p (finish b (mismatchTaken r q)) [(.datumMismatch, BitVec.ofNat 16 r.code, p.odo.pos)] ∧ (finish b (mismatchTaken r q)).odo.mismatches = sat8 p.odo.mismatches
   ∧ (finish b (mismatchTaken r q)).odo.capture = .idle ∧ (finish b (mismatchTaken r q)).odo.pos = p.odo.pos ∧ Safety.flagged .datum (finish b (mismatchTaken r q)) := by
  have hm : Moves spreadMay (mismatch r q) (finish b (mismatchTaken r q)) := finish_moves b (by decide) (spreadValidity_moves (by decide) (by decide) (Moves.refl _))
  have hx : Moves [.track] (postAt .datumMismatch (BitVec.ofNat 16 r.code) q.odo.pos true (q.withOdo { q.odo with mismatches := sat8 q.odo.mismatches, capture := .idle })) (mismatch r q) := by
    unfold mismatch; simp only; split
    · exact makeUncertain_moves (by decide) _ (Moves.refl _)
    · exact Moves.refl _
  have hc : (mismatch r q).odo.capture = .idle ∧ (mismatch r q).odo.mismatches = sat8 q.odo.mismatches := by
    unfold mismatch; simp only; split
    · exact makeUncertain_cap _ _
    · exact ⟨rfl, rfl⟩
  have c := captureAfter hm (by decide) (by decide)
  refine ⟨?_, ?_, ?_, ?_, ?_⟩
  · rw [← h3]; exact posts_of_evq (posts_one _ _ _ true ((hx.frame.pre (by decide)).trans (hm.frame.pre (by decide)))) h1 h2
  · rw [c.2.2.1, hc.2, h4]
  · rw [c.1, hc.1]
  · rw [c.2.2.2, (hx.frame.odo (by decide)).2.2.2.1]; exact h3
  · exact flagged_moves (flagged_moves (flagged_post _ _ _ _ rfl) hx (by decide)) hm (by decide)

theorem finish_capture (b p : Part) : (finish b p).odo.capture = p.odo.capture := (captureAfter (finish_moves (H := [.mode]) b (by decide) (Moves.refl p)) (by decide) (by decide)).1

theorem rackAt_eq (p q : Part) (h : q.prf = p.prf) (i : Nat) : rackAt q i = rackAt p i := by unfold rackAt; rw [h]

theorem segmentIndex_some (pos : Int) {l : List SegRec} (h : l ≠ []) : ∃ i, segmentIndex pos l = some i := by
  unfold segmentIndex; rw [if_neg (by simpa using h)]; exact ⟨_, rfl⟩

theorem sourceAt_iff (pos : Int) (p : Part) : Safety.sourceAt pos p ↔ noSourceAt pos p = false := by
  unfold Safety.sourceAt noSourceAt
  cases segmentIndex pos p.prf.active with
  | none => simp
  | some i =>
    cases hr : rackAt p i <;> cases h1 : p.odo.p1.faulted <;> cases h2 : p.odo.p2.faulted <;> cases h3 : p.odo.w.faulted <;>
      simp [hr, h1, h2, h3, Odo.pinionsFaulted]

theorem chosen_table (o : Odo) (h : o.validity ≠ .unknown) : o.chosen = Safety.tableSource o.regime o.p1.faulted o.p2.faulted o.w.faulted := by
  unfold Odo.chosen Safety.tableSource
  rw [if_neg (by simpa using h)]
  cases o.regime <;> cases o.p1.faulted <;> cases o.p2.faulted <;> cases o.w.faulted <;> rfl

theorem wordOfNat (n : Nat) (h : n ≤ 1048575) : wordOfCount ((n : Int) * 16) = BitVec.ofNat 32 (n * 16) := by
  unfold wordOfCount
  rw [if_pos (by omega)]
  show BitVec.ofInt 32 ((n * 16 : Nat) : Int) = _
  exact BitVec.ofInt_natCast 32 (n * 16)

theorem toInt_small (n : Nat) (h : n ≤ 1048575) : (BitVec.ofNat 32 (n * 16)).toInt = (n : Int) * 16 := by
  rw [BitVec.toInt_eq_toNat_of_lt (by rw [BitVec.toNat_ofNat]; omega), BitVec.toNat_ofNat]; omega

theorem post_odo' (k : EventKind) (a : Half) (b : Bool) (pos : Word) (p : Part) : (postAt k a pos b p).odo = p.odo := rfl

theorem post_odo (k : EventKind) (a : Half) (p : Part) : (post k a p).odo = p.odo := rfl

theorem free_odo (n : Nat) (p : Part) : (p.withFreeCount n).odo = p.odo := rfl

theorem uncertain_odo (c : Nat) (p : Part) : (makeUncertain c p).odo = { p.odo with validity := if p.odo.validity == .provisional || p.odo.validity == .confirmed then .uncertain else p.odo.validity } := by
  unfold makeUncertain; split <;> rfl

/-- what ODO holds after a direct setting from PROVISIONAL with a source -/
theorem direct_spec (f : Validity) (p : Part) (i : Nat) (hi : segmentIndex p.odo.pos.toInt p.prf.active = some i) (hv : p.odo.validity = .provisional)
    (hs : if rackAt p i then ¬ (p.odo.p1.faulted = true ∧ p.odo.p2.faulted = true ∧ p.odo.w.faulted = true) else p.odo.w.faulted = false) :
    let o := (directRegime f p).1.odo
    o.segment = some i ∧ o.regime = Safety.regimeAt i p ∧ o.entry = none ∧ o.mismatches = p.odo.mismatches ∧ o.capture = p.odo.capture ∧ o.pos = p.odo.pos
    ∧ o.source = Safety.tableSource (Safety.regimeAt i p) p.odo.p1.faulted p.odo.p2.faulted p.odo.w.faulted
    ∧ (rackAt p i = true → p.odo.p1.faulted = false → p.odo.p2.faulted = false → o.deviation = 0)
    ∧ o.validity = (if rackAt p i && p.odo.p1.faulted && p.odo.p2.faulted then .uncertain else .provisional) := by
  unfold directRegime Safety.regimeAt
  simp only [hi]
  cases hr : rackAt p i <;> cases h1 : p.odo.p1.faulted <;> cases h2 : p.odo.p2.faulted <;> cases h3 : p.odo.w.faulted <;>
    simp [hr, h1, h2, h3] at hs <;>
    simp [hr, h1, h2, h3, positionLost, chooseSource_odo, Odo.chosen, hv, Safety.tableSource, Odo.pinionsFaulted, Odo.zeroDeviation, post_odo, uncertain_odo, free_odo] <;>
    (try (cases f <;> simp [chooseSource_odo, Odo.chosen, hv, h1, h2, h3, post_odo, uncertain_odo, free_odo]))

theorem odoCheck (p : Part) : odometryOrderCheck p = if p.mod.mode = .lockout then some .lockout else if p.mod.mode ≠ .stand then some .wrongMode
    else if p.odo.standstill = false then some .notStandstill else none := by
  unfold odometryOrderCheck; simp [bne]

theorem refuse0 {kind : Byte} {judge : Judge} {u : Trigger} {s : State} {r : Reason} (h : Safety.triggerJudged u s)
    (hj : judge u.slot (Safety.workingCopy u s) (received kind u s) = (received kind u s, .no r)) :
    ∃ t, hostRow (triggerWith kind judge u) s = .next t ∧ Safety.orderRefused kind u r 0 s t := refuse_of h hj

theorem settle_spec (w : Odo) (p : Part) :
    let o := (settleSource w p).1.odo
    o.p1 = p.odo.p1 ∧ o.p2 = p.odo.p2 ∧ o.w = p.odo.w ∧ o.regime = p.odo.regime ∧ o.deviation = p.odo.deviation ∧ o.pos = p.odo.pos
    ∧ (p.odo.validity = .unknown → o.validity = .unknown ∧ o.source = .none)
    ∧ (o.validity ≠ .unknown → o.source = Safety.tableSource p.odo.regime p.odo.p1.faulted p.odo.p2.faulted p.odo.w.faulted) := by
  intro o
  have ho : o = (settleSource w p).1.odo := rfl
  have hs : ∀ q : Part, (losePosition q).odo = { q.odo with validity := .unknown, segment := none, entry := none, capture := .idle } := fun _ => rfl
  have hc : p.odo.validity ≠ .unknown → (chooseSource p).odo.source = Safety.tableSource p.odo.regime p.odo.p1.faulted p.odo.p2.faulted p.odo.w.faulted := by
    intro h; rw [chooseSource_odo]; exact chosen_table _ h
  have hn : p.odo.validity = .unknown → (chooseSource p).odo.source = .none := by
    intro h; rw [chooseSource_odo]; show p.odo.chosen = _; unfold Odo.chosen; simp [h]
  have hl : p.odo.validity = .unknown → positionLost (chooseSource p) = false := by
    intro h; unfold positionLost; rw [chooseSource_odo]; simp [h]
  unfold settleSource at ho
  simp only at ho
  clear_value o
  split at ho
  · rename_i hlost
    rw [hs, chooseSource_odo] at ho
    rw [ho]
    exact ⟨rfl, rfl, rfl, rfl, rfl, rfl, fun h => absurd (hl h) (by simp [hlost]), fun h => absurd rfl h⟩
  · split at ho
    · rw [uncertain_odo, chooseSource_odo] at ho
      rw [ho]
      refine ⟨rfl, rfl, rfl, rfl, rfl, rfl, fun h => ⟨by simp [h], ?_⟩, fun h => ?_⟩
      · have := hn h; rwa [chooseSource_odo] at this
      · have : p.odo.validity ≠ .unknown := by intro hu; apply h; simp [hu]
        have := hc this; rwa [chooseSource_odo] at this
    · rw [chooseSource_odo] at ho
      rw [ho]
      refine ⟨rfl, rfl, rfl, rfl, rfl, rfl, fun h => ⟨h, ?_⟩, fun h => ?_⟩
      · have := hn h; rwa [chooseSource_odo] at this
      · have := hc h; rwa [chooseSource_odo] at this

theorem mismatch_odo (r : MismatchReason) (p : Part) : ∃ v, (mismatch r p).odo = { p.odo with mismatches := sat8 p.odo.mismatches, capture := .idle, validity := v } ∧ (v = .unknown ↔ p.odo.validity = .unknown) := by
  unfold mismatch; simp only
  split
  · rw [uncertain_odo]
    refine ⟨_, rfl, ?_⟩
    show (if (p.odo.validity == .provisional || p.odo.validity == .confirmed) = true then Validity.uncertain else p.odo.validity) = .unknown ↔ _
    cases p.odo.validity <;> decide
  · exact ⟨p.odo.validity, rfl, Iff.rfl⟩

theorem watch_odo (p : Part) : ∃ v n c, (captureWatch p).odo = { p.odo with mismatches := n, capture := c, validity := v } ∧ (v = .unknown ↔ p.odo.validity = .unknown) := by
  unfold captureWatch
  have h : ∀ r, ∃ v n c, (mismatch r p).odo = { p.odo with mismatches := n, capture := c, validity := v } ∧ (v = .unknown ↔ p.odo.validity = .unknown) := fun r => by
    obtain ⟨v, a, b⟩ := mismatch_odo r p; exact ⟨v, _, _, a, b⟩
  split
  · split
    · exact h _
    · split <;> split <;> first | exact h _ | exact ⟨_, _, _, rfl, Iff.rfl⟩
  · exact ⟨_, _, _, rfl, Iff.rfl⟩

theorem OdoKept.trans' {a b c : Odo} (h : OdoKept a b) (k : OdoKept b c) : OdoKept a c := by
  unfold OdoKept at *; rw [k, h]

theorem kept_end {z y x : Part} {t : State} {b : Part} {o : Ord} (M : Moves spreadMay z y) (e : x = y) (ht : t.part = finish b (x.withOrd o)) :
    OdoKept z.odo t.part.odo := by
  have a := M.frame.track (by decide) (by decide)
  have c := (order_rest ht).2.track (by decide) (by decide)
  rw [Part.withOrd_odo, e] at c
  exact OdoKept.trans' a c

theorem resetEncoder_spec (n : Nat) (p : Part) :
    let o := (resetEncoderTaken n p).odo
    o.p1 = (if n = 1 ∨ n = 4 then { p.odo.p1 with faulted := false } else p.odo.p1)
    ∧ o.p2 = (if n = 2 ∨ n = 4 then { p.odo.p2 with faulted := false } else p.odo.p2)
    ∧ o.w = (if n = 3 ∨ n = 4 then { p.odo.w with faulted := false } else p.odo.w)
    ∧ o.deviation = 0 ∧ o.pos = p.odo.pos ∧ o.regime = p.odo.regime
    ∧ (p.odo.validity = .unknown → o.validity = .unknown ∧ o.source = .none)
    ∧ (o.validity ≠ .unknown → o.source = Safety.tableSource p.odo.regime o.p1.faulted o.p2.faulted o.w.faulted) := by
  intro o
  have ho : o = (resetEncoderTaken n p).odo := rfl
  obtain ⟨x, hx⟩ : ∃ x, x = p.withOdo (healEncoders n p.odo).zeroDeviation := ⟨_, rfl⟩
  have S := settle_spec p.odo x
  have M : Moves spreadMay (captureWatch (settleSource p.odo x).1) (resetEncoderTaken n p) := by
    unfold resetEncoderTaken afterChange; rw [← hx]
    exact spreadValidity_moves (by decide) (by decide) (odoRequests_moves _ (by decide) (by decide) (Moves.refl _))
  have k := M.frame.track (by decide) (by decide)
  obtain ⟨v, m, c, hw, hv⟩ := watch_odo (settleSource p.odo x).1
  unfold OdoKept at k
  rw [hw, ← ho] at k
  generalize (settleSource p.odo x).1.odo = z at S k hv
  obtain ⟨s1, s2, s3, s4, s5, s6, s7, s8⟩ := S
  have xo : x.odo = (healEncoders n p.odo).zeroDeviation := by rw [hx]; rfl
  rw [xo] at s1 s2 s3 s4 s5 s6 s7 s8
  have o1 : o.p1 = z.p1 := by rw [k]
  have o2 : o.p2 = z.p2 := by rw [k]
  have o3 : o.w = z.w := by rw [k]
  have o4 : o.validity = v := by rw [k]
  have o5 : o.source = z.source := by rw [k]
  refine ⟨o1.trans s1, o2.trans s2, o3.trans s3, ?_, ?_, ?_, fun h => ?_, fun h => ?_⟩
  · rw [k]; exact s5
  · rw [k]; exact s6
  · rw [k]; exact s4
  · have := s7 h; rw [o4, o5]; exact ⟨hv.2 this.1, this.2⟩
  · rw [o5, o1, o2, o3, s1, s2, s3]
    exact s8 (fun hz => h (by rw [o4]; exact hv.2 hz))

theorem refuse_prf {kind : Byte} {judge : Judge} {u : Trigger} {s : State} {r : Reason} {w : Word} (h : Safety.triggerJudged u s)
    (hj : judge u.slot (Safety.workingCopy u s) (received kind u s) = (received kind u s, .refuse r w)) :
    ∃ t, hostRow (triggerWith kind judge u) s = .next t ∧ Safety.orderRefused kind u r w s t ∧ t.part.prf = s.part.prf := by
  refine order_refuse h hj _ fun t ht hr _ => ⟨hr, ?_⟩
  obtain ⟨o, ht⟩ := ht
  exact (order_rest ht).2.prf (by decide)

theorem listenLook_radio (q : Part) : listenLook q = q.withLink (listenLook q).link := by
  unfold listenLook; split
  · split
    · rfl
    · unfold keyUp; split <;> rfl
  · rfl

theorem makeRoom_radio (c : TxClass) (q : Part) : txMakeRoom c q = (q.withEvq (txMakeRoom c q).evq).withLink (txMakeRoom c q).link := by
  unfold txMakeRoom; split
  · rfl
  · split <;> rfl

theorem offer_radio (f : TxFrame) (q : Part) : offer f q = (q.withEvq (offer f q).evq).withLink (offer f q).link := by
  unfold offer
  split
  · simp only
    rw [listenLook_radio]
    generalize (listenLook _).link = l
    rw [makeRoom_radio]; rfl
  · rfl
  · split <;> rfl
  · split <;> rfl

theorem handReport_radio (p : Part) (hm : p.mod.mode ≠ .stabled) : ∃ e l, handReport p = ((p.withEvq e).withLink l).withMsg { p.msg with reportTimer := some p.now } := by
  have : handReport p = (offer { cls := .report, dest := 0, kind := 16, payload := reportPayload p, sequence := none } p).withMsg
      { (offer { cls := .report, dest := 0, kind := 16, payload := reportPayload p, sequence := none } p).msg with reportTimer := some p.now } := by
    unfold handReport; simp only; rw [if_neg (by simpa using hm)]
  rw [this, offer_radio]
  exact ⟨_, _, rfl⟩

theorem slots_link (p : Part) : (slotsChanged p).link = p.link := by
  unfold slotsChanged
  have := (ssuEvaluate_returned (autNumbers p)).link
  rw [this]; rfl

end Sys2Proof.Machine
end

