-- ==== Sys2Proof/Laws/Resets.lean ====
section
/-! SUPPORT. The releases of the two resets, and the return to STAND at the end of a change. -/

namespace Sys2Proof.Machine

open Sys2Proof.Safety (Group)

theorem unchained_pending (c : Instr) (s t : State) (hc : ¬ chained c = true) (h : exec c s = .next t) : t.pending = s.pending := by
  cases c <;> first | exact absurd rfl hc | (cases h; rfl)

theorem resetBook : Safety.bookkeeping State.reset.part.ord := cold_bookkeeping

theorem exec_framed (c : Instr) (s t : State) (h : exec c s = .next t) (hc : chained c = true) : ∃ q, Frame (Safety.mayChange c) s.part q ∧ t.part = finish s.part q := by
  obtain ⟨⟨q, hq, e⟩, _⟩ := exec_moves c s t hc h
  exact ⟨q, hq.frame, e⟩

theorem resets_may (c : Instr) (hc : ¬ chained c = true) (g : Safety.Group) : g ∈ Safety.mayChange c := by
  cases c <;> first | exact absurd rfl hc | exact Group.mem_all _

theorem exec_framed_or (c : Instr) (s t : State) (h : exec c s = .next t) :
    (∃ q, Frame (Safety.mayChange c) s.part q ∧ t.part = finish s.part q) ∨ ∀ g, g ∈ Safety.mayChange c := by
  by_cases hc : chained c = true
  · exact .inl (exec_framed c s t h hc)
  · exact .inr (resets_may c hc)

theorem finish_mode (b q : Part) : (finish b q).mod.mode = q.mod.mode ∨ (q.mod.mode = .run ∧ (finish b q).mod.mode = .stand) := by
  by_cases h : (q.mod.mode == .run && q.odo.standstill && q.anyLatched) = true
  · right
    refine ⟨by simp at h; exact h.1.1, ?_⟩
    obtain ⟨g, e⟩ := raiseChanged_eq b (autoStand q)
    unfold finish; rw [e]; exact autoStand_mode q h
  · left
    obtain ⟨g, e⟩ := finish_eq b (q := q) (by simpa using h)
    rw [e]; rfl

theorem standDone_iff' (p : Part) : Safety.standDone p ↔ (p.mod.mode == .run && p.odo.standstill && p.anyLatched) = false := by
  unfold Safety.standDone; cases p.mod.mode <;> cases p.odo.standstill <;> cases p.anyLatched <;> simp

theorem finish_done (b q : Part) : Safety.standDone (finish b q) := by
  obtain ⟨g, e⟩ := raiseChanged_eq b (autoStand q)
  rw [standDone_iff']; unfold finish; rw [e]; exact autoStand_idle q

theorem raiseAll_eq (b q : Part) : ∃ g n, raiseAll b q = (q.withBridge { q.bridge with generations := g }).withEvq { q.evq with generation := n } := by
  unfold raiseAll
  obtain ⟨g, e⟩ : ∃ g, allSections.foldl (fun x s => raiseGeneration s x) (q.withBridge { q.bridge with generations := b.bridge.generations }) = q.withBridge { q.bridge with generations := g } := by
    generalize b.bridge.generations = g0
    generalize allSections = l
    induction l generalizing g0 with
    | nil => exact ⟨g0, rfl⟩
    | cons x l ih => rw [List.foldl_cons]; exact ih _
  rw [e]; exact ⟨g, _, rfl⟩

theorem coldStart_mode (q : Part) (hc : q.mod.mode = .stand) : (coldStart q).mod.mode = .stand := by
  unfold coldStart
  have s : Moves [] q _ := coldEvents_moves (Moves.refl q)
  have m := s.frame.mode (by simp)
  simp only
  generalize formDoors (allDoors.foldl (fun x d => coldDoorFault d x)
    (postAt .coldStart (arg2 q.bridge.base.toNat q.link.bitRate.toNat) 0 true q)) = r at m ⊢
  obtain ⟨y, hy⟩ : ∃ y, y = (r.withMod { r.mod with charge := .timing r.now, silence := some r.now }) := ⟨_, rfl⟩
  have ym : y.mod.mode = .stand := by rw [hy]; exact m.trans hc
  rw [← hy]
  have : Moves [] y (ssuEvaluate (autNumbers (if y.asserted then y else startOperation y.brk.commanded y))) := by
    refine ssuEvaluate_moves (autNumbers_moves ?_)
    split; exacts [Moves.refl _, startOperation_moves _ (Moves.refl _)]
  rw [this.frame.mode (by simp)]; exact ym

theorem cold_evs (p : Part) : ∃ e, allDoors.foldl (fun x d => coldDoorFault d x) p = p.withEvq e ∧ p.evq.queue <+: e.queue := by
  generalize allDoors = l
  induction l generalizing p with
  | nil => exact ⟨p.evq, rfl, List.prefix_refl _⟩
  | cons d l ih =>
    rw [List.foldl_cons]
    obtain ⟨e, h1, h2⟩ := ih (coldDoorFault d p)
    have k : ∃ e, coldDoorFault d p = p.withEvq e ∧ p.evq.queue <+: e.queue := by
      unfold coldDoorFault; split
      · refine ⟨_, rfl, ?_⟩
        exact (Move.post (H := []) p .doorFault (arg2 d.val (p.door d).fault.code) p.odo.pos true).frame.pre (by simp)
      · exact ⟨p.evq, rfl, List.prefix_refl _⟩
    obtain ⟨f, k1, k2⟩ := k
    rw [k1] at h1 h2
    exact ⟨e, by rw [k1]; exact h1, k2.trans h2⟩

theorem coldStart_spec (base : BitVec 4) (rate : BitVec 2) (p : Part) (hw : p.warmLine = false) :
    let d := coldDefaults base rate p
    let u := coldStart d
    (∃ e b x, u = (((d.withEvq e).withBrk b).withMod (Mod.cold p.mod.crewKey)).withSsu x ∧ x.state = .idle ∧ x.restrictions = []
      ∧ e.queue.head? = some ⟨0, 0, .coldStart, arg2 base.toNat rate.toNat, 0⟩
      ∧ b.commanded = .band ∧ ∀ c : DemandSource, (b.table[c.index]).latched = false) := by
  intro d u
  show ∃ e b x, coldStart d = _ ∧ _
  clear_value u
  obtain ⟨e1, h1, k1⟩ := cold_evs (postAt .coldStart (arg2 d.bridge.base.toNat d.link.bitRate.toNat) 0 true d)
  obtain ⟨y, hy⟩ : ∃ y, y = formDoors (allDoors.foldl (fun x d => coldDoorFault d x) (postAt .coldStart (arg2 d.bridge.base.toNat d.link.bitRate.toNat) 0 true d)) := ⟨_, rfl⟩
  obtain ⟨z, hz⟩ : ∃ z, z = y.withMod { y.mod with charge := .timing y.now, silence := some y.now } := ⟨_, rfl⟩
  have eu : coldStart d = ssuEvaluate (autNumbers (if z.asserted then z else startOperation z.brk.commanded z)) := by
    rw [hz, hy]; unfold coldStart; rfl
  have hpost : postAt .coldStart (arg2 d.bridge.base.toNat d.link.bitRate.toNat) 0 true d = d.withEvq (d.evq.posting d.now .coldStart (arg2 d.bridge.base.toNat d.link.bitRate.toNat) 0 true) := rfl
  rw [h1] at hy
  have e2 : (postAt .coldStart (arg2 d.bridge.base.toNat d.link.bitRate.toNat) 0 true d).withEvq e1 = d.withEvq e1 := rfl
  rw [e2] at hy
  have R := followEntry_requested .doors (doorsRequest (d.withEvq e1)).1 (doorsRequest (d.withEvq e1)).2 (d.withEvq e1)
  have E := followEntry_entry .doors (doorsRequest (d.withEvq e1)).1 (doorsRequest (d.withEvq e1)).2 (d.withEvq e1) rfl
  have yd : y = followEntry .doors (doorsRequest (d.withEvq e1)).1 (doorsRequest (d.withEvq e1)).2 (d.withEvq e1) := hy
  rw [← yd] at R E
  have yr : y = (d.withEvq y.evq).withBrk y.brk := R.rest
  have ymod : y.mod = { Mod.cold p.mod.crewKey with silence := none } := by rw [yr]; rfl
  have ynow : y.now = 0 := by rw [yr]; rfl
  have zr : z = ((d.withEvq y.evq).withBrk y.brk).withMod (Mod.cold p.mod.crewKey) := by
    rw [hz]
    have : ({ y.mod with charge := .timing y.now, silence := some y.now } : Mod) = Mod.cold p.mod.crewKey := by rw [ymod, ynow]; rfl
    rw [this]; nth_rewrite 1 [yr]; rfl
  have za : z.asserted = false := by rw [zr]; show (d.coldLine || d.warmLine) = false; show (false || p.warmLine) = false; rw [hw]; rfl
  rw [za] at eu
  simp only [Bool.false_eq_true, if_false] at eu
  have O := startOperation_only z.brk.commanded z
  obtain ⟨w, hwz⟩ : ∃ w, w = startOperation z.brk.commanded z := ⟨_, rfl⟩
  rw [← hwz] at O eu
  have wr : w = ((d.withEvq w.evq).withBrk w.brk).withMod (Mod.cold p.mod.crewKey) := by
    have := O.rest; rw [zr] at this; exact this
  have an : autNumbers w = w := by
    have k : autNumbers (((d.withEvq w.evq).withBrk w.brk).withMod (Mod.cold p.mod.crewKey)) = ((d.withEvq w.evq).withBrk w.brk).withMod (Mod.cold p.mod.crewKey) := rfl
    rw [← wr] at k; exact k
  rw [an] at eu
  have wa : w.asserted = false := by rw [wr]; show (d.coldLine || d.warmLine) = false; show (false || p.warmLine) = false; rw [hw]; rfl
  have wm : w.mod.mode = .stand := by rw [wr]; rfl
  have es : ssuEvaluate w = ssuNumbers w := by
    unfold ssuEvaluate; rw [if_neg (by rw [wa]; decide)]
    simp only
    have : (ssuNumbers w).mod.mode = .stand := wm
    rw [this]; rfl
  rw [es] at eu
  refine ⟨w.evq, w.brk, (ssuNumbers w).ssu, ?_, ?_, ?_, ?_, ?_, ?_⟩
  · rw [← wr, eu]; rfl
  · show w.ssu.state = .idle; rw [wr]; rfl
  · show w.ssu.restrictions = []; rw [wr]; rfl
  · have pre : ([⟨0, 0, .coldStart, arg2 base.toNat rate.toNat, 0⟩] : List Event) <+: w.evq.queue := by
      have a : ([⟨0, 0, .coldStart, arg2 base.toNat rate.toNat, 0⟩] : List Event) <+: e1.queue := by
        refine List.IsPrefix.trans ?_ k1
        rw [(postAt_queue _ _ _ _ d (show (0:Nat) < 64 by decide)).1]
        exact List.prefix_refl _
      refine a.trans (R.pre.trans ?_)
      have := O.pre
      rw [hz] at this; exact this
    obtain ⟨r, hr⟩ := pre
    rw [← hr]; rfl
  · have T : w.brk.table = y.brk.table := by have := O.soft.1; rw [hz] at this; exact this
    have C : w.brk.commanded = y.brk.commanded := by have := O.soft.2.1; rw [hz] at this; exact this
    rw [C, R.commanded rfl]
    have tb : ∀ c : DemandSource, c ≠ .doors → y.entry c = ((Brk.cold p.brk.inputs).table)[c.index] := fun c hc => R.other c hc
    have st : (y.entry .doors).stage.value ≤ 2 := by
      rw [E.1]
      have dr : doorsRequest (d.withEvq e1) = if (d.withEvq e1).doorsShut then (.released, 0) else (.s2, 2) := rfl
      rw [dr]; split <;> decide
    have lo : (Stage.band).value ≤ (highestStage y.brk.table).value := by
      have := entry_le_highest y.brk.table DemandSource.mode.index
      have k : (y.brk.table[DemandSource.mode.index]).stage = .band := by
        have := tb .mode (by decide); unfold Part.entry at this; rw [this]; rfl
      rw [k] at this; exact this
    have surj : ∀ i : Fin 12, ∃ c : DemandSource, c.index = i := by
      intro i
      match i with
      | 0 => exact ⟨.ordered, rfl⟩
      | 1 => exact ⟨.mode, rfl⟩
      | 2 => exact ⟨.supervision, rfl⟩
      | 3 => exact ⟨.authority, rfl⟩
      | 4 => exact ⟨.odometry, rfl⟩
      | 5 => exact ⟨.rollback, rfl⟩
      | 6 => exact ⟨.doors, rfl⟩
      | 7 => exact ⟨.handle, rfl⟩
      | 8 => exact ⟨.radio, rfl⟩
      | 9 => exact ⟨.silence, rfl⟩
      | 10 => exact ⟨.feedback, rfl⟩
      | 11 => exact ⟨.test, rfl⟩
    have hi : ∀ i : Fin 12, (y.brk.table[i]).stage.value ≤ Stage.value .band := by
      intro i
      obtain ⟨c, rfl⟩ := surj i
      by_cases hc : c = .doors
      · subst hc; exact Nat.le_trans st (by decide)
      · have := tb c hc; unfold Part.entry at this; rw [this]
        cases c <;> first | exact Nat.zero_le _ | exact Nat.le_refl _
    have up : (highestStage y.brk.table).value ≤ Stage.value .band := by
      unfold highestStage
      have : ∀ (l : List Entry) (s : Stage), s.value ≤ Stage.value .band → (∀ e ∈ l, e.stage.value ≤ Stage.value .band) → (l.foldl (fun s e => s.max e.stage) s).value ≤ Stage.value .band := by
        intro l
        induction l with
        | nil => intro s hs _; exact hs
        | cons a l ih =>
          intro s hs hl
          rw [List.foldl_cons]
          refine ih _ ?_ (fun e he => hl e (List.mem_cons_of_mem _ he))
          have := hl a List.mem_cons_self
          unfold Stage.max; split <;> assumption
      refine this _ _ (by decide) fun e he => ?_
      obtain ⟨i, hi2, rfl⟩ := List.getElem_of_mem he
      have hl : i < 12 := by simpa using hi2
      have := hi ⟨i, hl⟩
      simpa using this
    have eqv : (highestStage y.brk.table).value = Stage.value .band := Nat.le_antisymm up lo
    revert eqv; cases highestStage y.brk.table <;> decide
  · intro c
    have T : w.brk.table = y.brk.table := by have := O.soft.1; rw [hz] at this; exact this
    rw [T]
    by_cases hc : c = .doors
    · subst hc; exact E.2.1
    · have : y.entry c = ((Brk.cold p.brk.inputs).table)[c.index] := R.other c hc
      unfold Part.entry at this; rw [this]; cases c <;> rfl

theorem abandonTest_rest (p : Part) : ∃ b m, abandonTest p = (p.withBrk b).withMod m ∧ b.inputs = p.brk.inputs
    ∧ (m = p.mod ∨ (p.mod.mode = .test ∧ m = { p.mod with mode := .stand }))
    ∧ ∀ d, d ≠ .mode → d ≠ .test → b.table[d.index] = p.entry d := by
  unfold abandonTest
  split
  · rename_i r hr
    simp only
    have key : ∀ q : Part, (q = (p.withBrk q.brk).withMod q.mod) → q.brk.inputs = p.brk.inputs → q.brk.table = p.brk.table →
        (q.mod = p.mod ∨ (p.mod.mode = .test ∧ q.mod = { p.mod with mode := .stand })) →
        ∃ b m, quietEntry .test .released 0 (quietEntry .mode (modeRequest q.mod.mode q.charging).1 (modeRequest q.mod.mode q.charging).2 q) = (p.withBrk b).withMod m ∧ b.inputs = p.brk.inputs
          ∧ (m = p.mod ∨ (p.mod.mode = .test ∧ m = { p.mod with mode := .stand })) ∧ ∀ d, d ≠ .mode → d ≠ .test → b.table[d.index] = p.entry d := by
      intro q h1 h2 h3 h4
      obtain ⟨w, hw⟩ : ∃ w, w = quietEntry .test .released 0 (quietEntry .mode (modeRequest q.mod.mode q.charging).1 (modeRequest q.mod.mode q.charging).2 q) := ⟨_, rfl⟩
      have wr : w = q.withBrk w.brk := by rw [hw]; rfl
      refine ⟨w.brk, q.mod, ?_, ?_, h4, fun d d1 d2 => ?_⟩
      · rw [← hw]; rw [h1] at wr; exact wr
      · rw [hw]; exact h2
      · have e1 := quietEntry_other .test d .released 0 (quietEntry .mode (modeRequest q.mod.mode q.charging).1 (modeRequest q.mod.mode q.charging).2 q) d2
        have e2 := quietEntry_other .mode d (modeRequest q.mod.mode q.charging).1 (modeRequest q.mod.mode q.charging).2 q d1
        rw [← hw] at e1
        have : w.entry d = q.entry d := e1.trans e2
        unfold Part.entry at this ⊢
        rw [this, h3]
    split
    · rename_i hm
      exact key _ rfl rfl rfl (Or.inr ⟨eq_of_beq (show (p.mod.mode == Mode.test) = true from hm), rfl⟩)
    · exact key _ rfl rfl rfl (Or.inl rfl)
  · exact ⟨p.brk, p.mod, rfl, rfl, Or.inl rfl, fun _ _ _ => rfl⟩

end Sys2Proof.Machine
end

