-- ==== Sys2Proof/Laws/Transmission.lean ====
section
/-! SUPPORT. The restriction list, the transmit queue, the assembler and the frames, said once. -/

namespace Sys2Proof.Machine

open Sys2Proof.Safety (Group)

theorem mem_insert (r : Restriction) (l : List Restriction) (x : Restriction) : x ∈ insertRestriction r l ↔ x = r ∨ x ∈ l := by
  rw [(insertRestriction_perm r l).mem_iff, List.mem_cons]

theorem mem_erase (id : Byte) (l : List Restriction) (x : Restriction) : x ∈ eraseRestriction id.toNat l ↔ x ∈ l ∧ x.id ≠ id := by
  unfold eraseRestriction; rw [List.mem_filter]
  simp only [bne_iff_ne, ne_eq, BitVec.toNat_inj]

theorem idFree_iff (id : Byte) (p : Part) : Safety.idFree id p ↔ findRestriction id.toNat p.ssu.restrictions = none := by
  unfold Safety.idFree findRestriction; rw [List.find?_eq_none]
  simp [BitVec.toNat_inj]

theorem ssuEvaluate_restr (p : Part) : (ssuEvaluate p).ssu.restrictions = p.ssu.restrictions :=
  (ssuEvaluate_moves (H := []) (Moves.refl p)).frame.restr (by decide)

theorem place_spec (r : Restriction) (b : Bool) (p : Part) :
    (∀ x, x ∈ (placeRestriction r b p).ssu.restrictions ↔ x = r ∨ (x ∈ p.ssu.restrictions ∧ x.id ≠ r.id))
    ∧ ∀ q, (placeRestriction r b p).evq.queue <+: q.evq.queue → Safety.posts p q [(.tsrChanged, arg2 r.id.toNat (if b then 2 else 1), p.odo.pos)] := by
  refine ⟨fun x => ?_, fun q hq => ?_⟩
  · unfold placeRestriction; rw [ssuEvaluate_restr]
    show x ∈ insertRestriction r (eraseRestriction r.id.toNat p.ssu.restrictions) ↔ _
    rw [mem_insert, mem_erase]
  · refine posts_of_evq (r := p.withSsu { p.ssu with restrictions := insertRestriction r (eraseRestriction r.id.toNat p.ssu.restrictions) }) (posts_one _ _ _ true ?_) rfl rfl
    exact ((ssuEvaluate_moves (H := []) (Moves.refl _)).frame.pre (by decide)).trans hq

theorem drop_spec (id : Byte) (p : Part) :
    (∀ x, x ∈ (dropRestriction id.toNat p).ssu.restrictions ↔ x ∈ p.ssu.restrictions ∧ x.id ≠ id)
    ∧ ∀ q, (dropRestriction id.toNat p).evq.queue <+: q.evq.queue → Safety.posts p q [(.tsrChanged, arg2 id.toNat 3, p.odo.pos)] := by
  refine ⟨fun x => ?_, fun q hq => ?_⟩
  · unfold dropRestriction; rw [ssuEvaluate_restr]
    show x ∈ eraseRestriction id.toNat p.ssu.restrictions ↔ _
    rw [mem_erase]
  · refine posts_of_evq (r := p.withSsu { p.ssu with restrictions := eraseRestriction id.toNat p.ssu.restrictions }) (posts_one _ _ _ true ?_) rfl rfl
    exact ((ssuEvaluate_moves (H := []) (Moves.refl _)).frame.pre (by decide)).trans hq

theorem dirs_ofNat (d : Dirs) : Dirs.ofNat? d.code = some d := by cases d <;> rfl

/-- R80 with the fields of a good restriction -/
theorem judge_good (r : Restriction) (a : Addition) (l : List Restriction) (ha : a = ⟨r.id.toNat, r.start, r.stop, r.limit, r.dirs.code⟩) (hg : Safety.goodFields r) :
    judgeAddition a r.origin l = (match findRestriction r.id.toNat l with
      | some old => if old.origin.sameKind r.origin then .ok (r, true) else .error .owned
      | none => if 8 ≤ l.length then .error .full else .ok (r, false)) := by
  subst ha
  unfold judgeAddition
  simp only [dirs_ofNat]
  obtain ⟨h1, h2, h3, h4⟩ := hg
  have h0 : r.id.toNat ≠ 0 := fun h => h1 (BitVec.eq_of_toNat_eq (by simpa using h))
  rw [if_neg (by have := r.id.isLt; omega)]
  have e : (⟨BitVec.ofNat 8 r.id.toNat, r.origin, r.start, r.stop, r.limit, r.dirs⟩ : Restriction) = r := by
    rw [BitVec.ofNat_toNat, BitVec.setWidth_eq]
  rw [e]
  all_goals (cases findRestriction r.id.toNat l <;> rfl)

theorem clearLatch_spec (d : DemandSource) (s : Stage) (c : Nat) (p : Part) :
    ((clearLatch d s c p).entry d).latched = false ∧ ((clearLatch d s c p).entry d).stage = s
    ∧ Requested d p (clearLatch d s c p)
    ∧ ∀ q, (clearLatch d s c p).evq.queue <+: q.evq.queue → Safety.posts p q [(.demandCleared, arg2 d.number s.value, (p.entry d).setPos)] := by
  unfold clearLatch postDemandCleared
  simp only
  refine ⟨by rw [request_entry], by rw [request_entry], request_formed _ _ _ _ _ _, fun q hq => ?_⟩
  have fm := formCommanded_formed (postAt EventKind.demandCleared (arg2 d.number s.value) (p.entry d).setPos true
            (writeEntry d { p.entry d with stage := s, latched := false, cause := causeByte s c } p))
  exact posts_of_evq (posts_one _ _ _ true (fm.pre.trans hq)) rfl rfl

theorem dropNext_spec (p : Part) : (dropNext p).aut.current = p.aut.current ∧ (dropNext p).aut.next = none := by
  unfold dropNext; split
  · have := slotsChanged_aut' (post .nextDropped (‹Authority›).id (p.withAut { p.aut with next := none }))
    exact ⟨this.1, this.2⟩
  · rename_i h; exact ⟨rfl, h⟩

theorem removePermit_list (id : Byte) (a : Nat) (p : Part) : (removePermit id a p).dor.permits = p.dor.permits.filter (fun m => m.platform != id) := by
  have m2 : Moves doorMay' (postPermit id a (p.withDor { p.dor with permits := p.dor.permits.filter fun m => m.platform != id })) (removePermit id a p) :=
    afterDoors_moves _ (by decide) (by decide) (withdrawPermit_moves' (withdrawPermit_moves' (Moves.refl _)))
  exact m2.frame.permits (by decide)

theorem removeAll (l : List Byte) (a : Nat) (p : Part) : (l.foldl (fun q id => removePermit id a q) p).dor.permits = p.dor.permits.filter (fun m => !l.contains m.platform) := by
  induction l generalizing p with
  | nil => simp
  | cons id l ih =>
    rw [List.foldl_cons, ih, removePermit_list, List.filter_filter]
    congr 1; funext m; simp only [List.contains_cons, Bool.not_or, Bool.and_comm]; rfl

theorem clearPermits_list (p : Part) : (clearPermits p).dor.permits = [] := by
  unfold clearPermits; rw [removeAll, List.filter_eq_nil_iff]
  intro m hm; simp only [Bool.not_eq_true', Bool.not_eq_false', List.contains_iff_mem]
  simp; exact ⟨m, hm, rfl⟩

theorem clearPermits_aut (p : Part) : AutSoft p.aut (clearPermits p).aut := by
  have : Moves [.permits, .doors, .mode, .ord] p (clearPermits p) := clearPermits_moves (by constructor <;> decide) (Moves.refl _)
  exact this.frame.slots (by decide)

theorem clearNext_aut' (p : Part) (n : Authority) (h : p.aut.next = some n) :
    dropNext p = slotsChanged (post .nextDropped n.id (p.withAut { p.aut with next := none })) := by
  unfold dropNext; rw [h]

theorem dropNext_posts (p : Part) {q : Part} (h : (dropNext p).evq.queue <+: q.evq.queue) :
    Safety.posts p q (match p.aut.next with | some n => [(.nextDropped, n.id, p.odo.pos)] | none => []) := by
  cases hn : p.aut.next with
  | none => unfold dropNext at h; rw [hn] at h; exact posts_nil h
  | some n =>
    rw [clearNext_aut' p n hn] at h
    have m : Moves [.slots] (post .nextDropped n.id (p.withAut { p.aut with next := none })) (slotsChanged (post .nextDropped n.id (p.withAut { p.aut with next := none }))) :=
      slotsChanged_moves (Moves.refl _)
    exact posts_of_evq (posts_one (p := p.withAut { p.aut with next := none }) _ _ _ true ((m.frame.pre (by decide)).trans h)) rfl rfl

theorem live_row (f : Part → Part) (s : State) (h : s.part.asserted = false) (P : State → Prop)
    (hP : ∀ t : State, t.part.link = (f s.part).link → (f s.part).evq.queue <+: t.part.evq.queue →
      (∀ i : Nat, (f s.part).evq.faults.getLsbD i = true → t.part.evq.faults.getLsbD i = true) → P t) :
    ∃ t, partRow (active f) s = .next t ∧ P t := by
  refine partRow_ends _ s P fun t ht _ _ => ?_
  have e : active f s.part = f s.part := by unfold active; rw [h]; rfl
  rw [e] at ht
  obtain ⟨a, b, c⟩ := finish_all s.part (f s.part)
  rw [← ht] at a b c
  exact hP t a.link b c

theorem keyUp_keyed (p : Part) (h : p.link.queue ≠ []) {q : Part} (hq : q.link = (keyUp p).link) : Safety.keyed p q := by
  cases hl : p.link.queue with
  | nil => exact absurd hl h
  | cons f rest =>
    refine ⟨f, rest, hl, ?_⟩
    rw [hq]; unfold keyUp; rw [hl]
    simp only [Part.withLink_link]
    cases f.sequence <;> rfl

theorem listenLook_listens (p : Part) (hs : p.link.state = .listen) (ha : p.asserted = false) {q : Part} (hq : q.link = (listenLook p).link) :
    Safety.listens p q := by
  refine ⟨fun h => ?_, fun h hc => ?_, fun h hc => ?_⟩
  · rw [hq]; unfold listenLook; rw [if_neg (by simp [h])]
    cases hp : p.link; rw [hp] at hs; simp only at hs; subst hs; rfl
  · rw [hq]; unfold listenLook; rw [if_pos (by simp [hs, h, ha]), if_pos hc]; rfl
  · have e : listenLook p = keyUp p := by unfold listenLook; rw [if_pos (by simp [hs, h, ha]), if_neg (by simp [hc])]
    rw [e] at hq; exact keyUp_keyed p h hq

/-- the look does not depend on the state it comes from -/
theorem listens_state (p : Part) (x : LinkState) {q : Part} (h : Safety.listens (p.withLink { p.link with state := x }) q) : Safety.listens p q := h

theorem toListen_listens (p : Part) (ha : p.asserted = false) {q : Part} (hq : q.link = (toListen p).link) : Safety.listens p q :=
  listens_state p .listen (listenLook_listens (p.withLink { p.link with state := .listen }) rfl ha hq)

theorem row_ends (f : Part → Part) (s : State) (P : State → Prop)
    (hP : ∀ t : State, t.part.link = (f s.part).link → (f s.part).evq.queue <+: t.part.evq.queue →
      (∀ i : Nat, (f s.part).evq.faults.getLsbD i = true → t.part.evq.faults.getLsbD i = true) → P t) :
    ∃ t, partRow f s = .next t ∧ P t := by
  refine partRow_ends _ s P fun t ht _ _ => ?_
  obtain ⟨a, b, c⟩ := finish_all s.part (f s.part)
  rw [← ht] at a b c
  exact hP t a.link b c

theorem headOfClass_insert (f : TxFrame) (l : List TxFrame) (h : Safety.classOrdered l) : Safety.headOfClass f l (txInsertHead f l) := by
  refine ⟨l.takeWhile (fun g => g.cls.code < f.cls.code), l.dropWhile (fun g => g.cls.code < f.cls.code), (List.takeWhile_append_dropWhile).symm, rfl, fun g hg => ?_, ?_⟩
  · have := mem_takeWhile_imp' hg; simpa using this
  · exact dropWhile_ge _ _ (fun g hg => by simpa using hg) l ((classOrdered_iff l).1 h)

theorem rxDrop_link (r : RxDrop) (p : Part) : (rxDrop r p).link = Safety.rxCounted r p.link := by
  unfold rxDrop; split <;> rfl

theorem rxDrop_posts (r : RxDrop) (p : Part) {q : Part} (h : (rxDrop r p).evq.queue <+: q.evq.queue) : Safety.posts p q (Safety.dropEvents r p) := by
  unfold rxDrop at h; unfold Safety.dropEvents
  by_cases hr : r = .other
  · rw [if_pos hr]; rw [if_pos (by simp [hr])] at h; exact posts_nil h
  · rw [if_neg hr]; rw [if_neg (by simp [hr])] at h
    exact posts_of_evq (posts_one (p := p.withLink (Safety.rxCounted r p.link)) _ _ _ (r != .duplicate) h) rfl rfl

theorem rxDrop_flagged (r : RxDrop) (p : Part) (h1 : r ≠ .other) (h2 : r ≠ .duplicate) : Safety.flagged .radio (rxDrop r p) := by
  unfold rxDrop; rw [if_neg (by simp [h1])]
  simp only
  unfold postIf
  rw [show (r != RxDrop.duplicate) = true by simp [h2]]
  exact flagged_post _ _ _ _ rfl

theorem frameEnds_soft (p : Part) : p.evq.queue <+: (frameEnds p).evq.queue ∧ (∀ i : Nat, p.evq.faults.getLsbD i = true → (frameEnds p).evq.faults.getLsbD i = true) := by
  have m : Moves [.link] (p.withLink { p.link with assembler := .outside }) (frameEnds p) := by
    unfold frameEnds; simp only; split
    · exact listenLook_moves (linkHard_moves _ (by decide) (fun hk => ⟨fun h => by have := hk.1 h; simp_all [Safety.assertsPtt], hk.2⟩) rfl (Moves.refl _))
    · exact Moves.refl _
  exact ⟨m.frame.pre (by decide), m.frame.faults (by decide)⟩

theorem frameEnds_recv (p : Part) (ha : p.asserted = false) {q : Part} (hs : p.link.state = .receiving) (hq : q.link = (frameEnds p).link) :
    Safety.listens { p with link := { p.link with assembler := .outside } } q := by
  unfold frameEnds at hq; simp only at hq; rw [if_pos (by rw [Part.withLink_link]; simp only [hs]; rfl)] at hq
  exact toListen_listens (p.withLink { p.link with assembler := .outside }) ha hq

theorem frameEnds_else (p : Part) (hs : p.link.state ≠ .receiving) : frameEnds p = p.withLink { p.link with assembler := .outside } := by
  unfold frameEnds; simp only; rw [if_neg (by rw [Part.withLink_link]; simpa using hs)]

/-- an abandonment from a part whose link already stands at `l` -/
theorem abandon_lost (r : RxDrop) (l : Link) (p : Part) (ha : p.asserted = false) (hs : l.state = p.link.state) {q : Part}
    (hq : q.link = (abandonFrame r (p.withLink l)).link) (hp : (abandonFrame r (p.withLink l)).evq.queue <+: q.evq.queue)
    (hf : ∀ i : Nat, (abandonFrame r (p.withLink l)).evq.faults.getLsbD i = true → q.evq.faults.getLsbD i = true) : Safety.frameLost r l p q := by
  have hl : (rxDrop r (p.withLink l)).link = Safety.rxCounted r l := rxDrop_link r _
  have hst : (rxDrop r (p.withLink l)).link.state = p.link.state := by rw [hl]; exact hs
  have hrest : (rxDrop r (p.withLink l)).asserted = false ∧ (rxDrop r (p.withLink l)).prf = p.prf ∧ (rxDrop r (p.withLink l)).now = p.now := by
    unfold rxDrop; split <;> exact ⟨ha, rfl, rfl⟩
  have soft := frameEnds_soft (rxDrop r (p.withLink l))
  refine ⟨fun h => ?_, fun h => ?_, ?_, fun h1 h2 => ?_⟩
  · have := frameEnds_recv _ hrest.1 (hst.trans h) hq
    rw [hl] at this
    unfold Safety.listens Safety.keyed at this ⊢
    simp only [hrest.2.1, hrest.2.2] at this
    exact this
  · rw [hq]; unfold abandonFrame; rw [frameEnds_else _ (by rw [hst]; exact h), hl]; rfl
  · exact posts_of_evq (rxDrop_posts r (p.withLink l) (soft.1.trans hp)) rfl rfl
  · exact hf _ (soft.2 _ (rxDrop_flagged r (p.withLink l) h1 h2))

theorem putBack_cases (f : TxFrame) (p : Part) (ho : Safety.queues p) :
    (f.cls = .report ∧ txHasReport p.link.queue = true → putBack f p = p)
    ∧ (¬ (f.cls = .report ∧ txHasReport p.link.queue = true) →
        (p.link.queue.length < 4 → putBack f p = p.withLink { p.link with queue := txInsertHead f p.link.queue })
        ∧ (4 ≤ p.link.queue.length → ∀ g, p.link.queue.getLast? = some g →
            (f.cls.code < g.cls.code → ∃ y, putBack f p = (txDrop g.cls .displaced (p.withLink { p.link with queue := p.link.queue.dropLast })).withLink y
              ∧ y = { Safety.txCounted .displaced p.link with queue := txInsertHead f p.link.queue.dropLast })
            ∧ (g.cls.code ≤ f.cls.code → putBack f p = txDrop f.cls .full p))) := by
  refine ⟨fun h => ?_, fun h => ⟨fun hl => ?_, fun hl g hg => ⟨fun hc => ?_, fun hc => ?_⟩⟩⟩
  · unfold putBack; rw [if_pos (by simp [h.1, h.2])]
  · unfold putBack; rw [if_neg (by simpa using h), if_pos (by simp [hl])]; unfold txMakeRoom; rw [if_pos hl]
  · have e : txDisplaced f.cls p.link.queue = some g := by unfold txDisplaced; rw [hg]; exact if_pos hc
    refine ⟨_, ?_, rfl⟩
    unfold putBack; rw [if_neg (by simpa using h), if_pos (by rw [e]; simp)]; unfold txMakeRoom; rw [if_neg (by omega), e]; rfl
  · have e : txDisplaced f.cls p.link.queue = none := by unfold txDisplaced; rw [hg]; exact if_neg (by omega)
    unfold putBack; rw [if_neg (by simpa using h), if_neg (by rw [e]; simp; omega)]

theorem txDrop_posts (c : TxClass) (r : TxDrop) (p : Part) {q : Part} (h : (txDrop c r p).evq.queue <+: q.evq.queue)
    (hf : ∀ i : Nat, (txDrop c r p).evq.faults.getLsbD i = true → q.evq.faults.getLsbD i = true) :
    Safety.posts p q [(.txDropped, arg2 c.code r.code, p.odo.pos)] ∧ Safety.flagged .radio q :=
  ⟨posts_of_evq (posts_one (p := p.withLink (Safety.txCounted r p.link)) _ _ _ true h) rfl rfl, hf _ (flagged_post _ _ _ _ rfl)⟩

theorem listens_map (F : Link → Link) (hF : ∀ (l : Link) (st : LinkState) (d : Option DeferTimer), F { l with state := st, deferTimer := d } = { F l with state := st, deferTimer := d })
    (hc : ∀ l, (F l).cd = l.cd ∧ (F l).queue = l.queue ∧ (F l).deferTimer = l.deferTimer) (p : Part) (l : Link) (hcd : l.cd = true) {x q : Part}
    (h : Safety.listens { p with link := l } x) (hq : q.link = F x.link) : Safety.listens { p with link := F l } q := by
  obtain ⟨a, b, c⟩ := h
  obtain ⟨c1, c2, c3⟩ := hc l
  refine ⟨fun h => ?_, fun h hc => ?_, fun h hc => ?_⟩
  · have := a (c2 ▸ h)
    rw [hq, this]
    have e := hF l .listen l.deferTimer
    have e2 : ({ F l with state := .listen, deferTimer := l.deferTimer } : Link) = { F l with state := .listen } := by rw [← c3]
    exact e.trans e2
  · rw [hq, b (c2 ▸ h) hcd]; exact hF l .defer none
  · exact absurd hc (by show ¬ (F l).cd = false; rw [c1, hcd]; decide)

theorem end_lost (r : RxDrop) (F : Link → Link)
    (hF : ∀ (l : Link) (st : LinkState) (d : Option DeferTimer), F { l with state := st, deferTimer := d } = { F l with state := st, deferTimer := d })
    (hF2 : ∀ l : Link, F { l with assembler := .outside } = { F l with assembler := .outside })
    (hc : ∀ l, (F l).cd = l.cd ∧ (F l).queue = l.queue ∧ (F l).deferTimer = l.deferTimer) (p : Part) (ha : p.asserted = false) (hcd : p.link.cd = true) {l : Link} (hl : F p.link = Safety.rxCounted r l) {q : Part}
    (hq : q.link = F (frameEnds p).link) (hp : (rxDrop r (frameEnds p)).evq.queue <+: q.evq.queue)
    (hf : ∀ i : Nat, (rxDrop r (frameEnds p)).evq.faults.getLsbD i = true → q.evq.faults.getLsbD i = true) : Safety.frameLost r l p q := by
  have hpos : (frameEnds p).odo = p.odo ∧ (frameEnds p).now = p.now := by
    unfold frameEnds; simp only; split
    · unfold toListen listenLook; split
      · split; · exact ⟨rfl, rfl⟩
        · unfold keyUp; split <;> exact ⟨rfl, rfl⟩
      · exact ⟨rfl, rfl⟩
    · exact ⟨rfl, rfl⟩
  have hev : (frameEnds p).evq = p.evq := by
    unfold frameEnds; simp only; split
    · unfold toListen listenLook; split
      · split; · rfl
        · unfold keyUp; split <;> rfl
      · rfl
    · rfl
  refine ⟨fun h => ?_, fun h => ?_, ?_, fun h1 h2 => hf _ (rxDrop_flagged r _ h1 h2)⟩
  · have := listens_map F hF hc p { p.link with assembler := .outside } hcd (frameEnds_recv p ha h rfl) hq
    have e : F { p.link with assembler := .outside } = { Safety.rxCounted r l with assembler := .outside } := (hF2 p.link).trans (by rw [hl])
    rw [e] at this; exact this
  · rw [hq, frameEnds_else p h]; exact (hF2 p.link).trans (by rw [hl])
  · have := rxDrop_posts r (frameEnds p) hp
    unfold Safety.dropEvents at this ⊢
    rw [hpos.1] at this
    exact posts_of_evq this hev hpos.2

theorem drop_lost (r : RxDrop) (p : Part) (ha : p.asserted = false) (hcd : p.link.cd = true) {q : Part}
    (hq : q.link = (rxDrop r (frameEnds p)).link) (hp : (rxDrop r (frameEnds p)).evq.queue <+: q.evq.queue)
    (hf : ∀ i : Nat, (rxDrop r (frameEnds p)).evq.faults.getLsbD i = true → q.evq.faults.getLsbD i = true) : Safety.frameLost r p.link p q :=
  end_lost r (Safety.rxCounted r) (fun _ _ _ => rfl) (fun _ => rfl) (fun _ => ⟨rfl, rfl, rfl⟩) p ha hcd rfl (by rw [hq, rxDrop_link]) hp hf

theorem crc_bytes (crc : Half) : BitVec.ofNat 16 (leNat [BitVec.ofNat 8 (crc.toNat / 256), BitVec.ofNat 8 crc.toNat].reverse) = crc := by
  apply BitVec.eq_of_toNat_eq
  have := crc.isLt
  simp [leNat]; omega

theorem heard_of (i : Fin 30) (station : Byte) (h : station.toNat = i.val + 1) (p : Part) :
    heard station p = p.withLink { p.link with linkTimer := some p.now, stations := p.link.stations.set i { p.link.stations[i] with lastHeard := some p.now } } := by
  have e : station.toNat - 1 = i.val := by omega
  unfold heard setStation
  simp only [e]
  rw [dif_pos i.isLt]; rfl

theorem frameEnds_present (p : Part) (hcd : p.link.cd = true) : (frameEnds p).link.queue = p.link.queue ∧ (frameEnds p).link.stations = p.link.stations
    ∧ (frameEnds p).mod = p.mod ∧ (frameEnds p).prf = p.prf ∧ (frameEnds p).now = p.now ∧ (frameEnds p).msg = p.msg ∧ (frameEnds p).asserted = p.asserted := by
  unfold frameEnds; simp only; split
  · unfold toListen listenLook; split
    · rw [if_pos (by exact hcd)]; exact ⟨rfl, rfl, rfl, rfl, rfl, rfl, rfl⟩
    · exact ⟨rfl, rfl, rfl, rfl, rfl, rfl, rfl⟩
  · exact ⟨rfl, rfl, rfl, rfl, rfl, rfl, rfl⟩

theorem deliver_ends (src : Sender) (kind : Nat) (act : Part → Part × MessageOutcome) (x : Part) :
    ∃ y, Moves [] (autoStand (act (linkHeard src x)).1) y ∧ deliver src kind act x = y ∧ y.link = (act (linkHeard src x)).1.link ∧ y.msg = (act (linkHeard src x)).1.msg := by
  refine ⟨_, postIf_moves _ _ _ (Moves.refl _), rfl, ?_, ?_⟩
  · exact (autoStand_returned _).link
  · exact (autoStand_returned _).msg

theorem row_ends' (f : Part → Part) (s : State) (P : State → Prop) (hP : ∀ t : State, t.part = finish s.part (f s.part) → P t) : ∃ t, partRow f s = .next t ∧ P t :=
  partRow_ends _ s P fun t ht _ _ => hP t ht

/-- The state with its link replaced, and some generation words. -/
def at_ (s : State) (l : Link) (t : State) : Prop := ∃ g, t = { s with part := (s.part.withLink l).withBridge { s.part.bridge with generations := g } }

theorem char_step (s : State) (l l' : Link) (c : Byte) (t : State) (hs : Safety.standDone s.part) (ht : at_ s l t)
    (h : ∀ g, receive c false ((s.part.withLink l).withBridge { s.part.bridge with generations := g }) = (s.part.withLink l').withBridge { s.part.bridge with generations := g }) :
    ∃ u, exec (.rxCharacter c (evenParity c) true) t = .next u ∧ at_ s l' u := by
  obtain ⟨g, rfl⟩ := ht
  refine ⟨_, rfl, ?_⟩
  have e := h g
  obtain ⟨g', e'⟩ := finish_eq ((s.part.withLink l).withBridge { s.part.bridge with generations := g })
    (q := (s.part.withLink l').withBridge { s.part.bridge with generations := g }) ((standDone_iff s.part).1 hs)
  refine ⟨g', ?_⟩
  show ({ s with part := finish _ (receive c (errored c (evenParity c) true) _) } : State) = _
  rw [errored_even, e, e']; rfl

variable (s : State)

abbrev inside (l : List Byte) (e : Bool) (st : LinkState) : Link := { s.part.link with assembler := .inside l false e s.part.now, state := st }

theorem data_step (hs : Safety.standDone s.part) (ha : s.part.asserted = false) (hp : s.part.link.ptt = false) (hc : s.part.link.cd = true)
    (b : Byte) (buf : List Byte) (st : LinkState) (e : Bool) (t : State) (ht : at_ s (inside s buf e st) t) (hl : buf.length < 55)
    (hb : e = true ∨ ¬ (0xF1 ≤ b.toNat ∧ b.toNat ≤ 0xF5)) :
    ∃ u, exec (.rxCharacter b (evenParity b) true) t = .next u ∧ at_ s (inside s (buf ++ [b]) false st) u := by
  refine char_step s _ _ b t hs ht fun g => ?_
  have hne : e = true ∨ (b ≠ 0xF1#8 ∧ b ≠ 0xF2#8 ∧ b ≠ 0xF3#8 ∧ b ≠ 0xF4#8 ∧ b ≠ 0xF5#8) := by
    rcases hb with h | h
    · exact Or.inl h
    · refine Or.inr ⟨?_, ?_, ?_, ?_, ?_⟩ <;> rintro rfl <;> exact h (by decide)
  unfold receive
  rw [if_neg (by show ¬ s.part.asserted = true; rw [ha]; decide), if_neg ?_, if_neg (by show ¬ (s.part.link.ptt || !s.part.link.cd) = true; rw [hp, hc]; decide)]
  · unfold assemble
    simp only [Part.withBridge_link, Part.withLink_link, Bool.false_eq_true, if_false]
    have hd : frameData b buf false ((s.part.withLink (inside s buf e st)).withBridge { s.part.bridge with generations := g }) =
        (s.part.withLink (inside s (buf ++ [b]) false st)).withBridge { s.part.bridge with generations := g } := by
      unfold frameData; rw [if_neg (by omega)]; rfl
    rcases hne with h | ⟨h1, h2, h3, h4, h5⟩
    · rw [if_pos h]; exact hd
    · cases e with
      | true => rw [if_pos rfl]; exact hd
      | false => rw [if_neg (by decide), if_neg (by simpa using h1), if_neg (by simpa using h2), if_neg (by simpa using h3)]; exact hd
  · rcases hne with h | ⟨h1, h2, h3, h4, h5⟩
    · rw [h]; simp [escPending]
    · simp [h4, h5]

theorem esc_step (hs : Safety.standDone s.part) (ha : s.part.asserted = false) (hp : s.part.link.ptt = false) (hc : s.part.link.cd = true)
    (buf : List Byte) (st : LinkState) (t : State) (ht : at_ s (inside s buf false st) t) :
    ∃ u, exec (.rxCharacter 0xF3 (evenParity 0xF3) true) t = .next u ∧ at_ s (inside s buf true st) u := by
  refine char_step s _ _ _ t hs ht fun g => ?_
  unfold receive
  rw [if_neg (by show ¬ s.part.asserted = true; rw [ha]; decide), if_neg (by simp), if_neg (by show ¬ (s.part.link.ptt || !s.part.link.cd) = true; rw [hp, hc]; decide)]
  rfl

theorem receives_cons {c : Byte} {cs : List Byte} {t u : State} (h : exec (.rxCharacter c (evenParity c) true) t = .next u) : Safety.receives (c :: cs) t = Safety.receives cs u := by
  show (match exec (.rxCharacter c (evenParity c) true) t with | .next t => Safety.receives cs t | o => o) = _
  rw [h]

theorem stuffed (hs : Safety.standDone s.part) (ha : s.part.asserted = false) (hp : s.part.link.ptt = false) (hc : s.part.link.cd = true)
    (st : LinkState) (more rest : List Byte) : ∀ (buf : List Byte) (t : State), at_ s (inside s buf false st) t → buf.length + more.length ≤ 55 →
    ∃ u, Safety.receives (more.flatMap stuff ++ rest) t = Safety.receives rest u ∧ at_ s (inside s (buf ++ more) false st) u := by
  induction more with
  | nil => intro buf t ht _; exact ⟨t, rfl, by simpa using ht⟩
  | cons b more ih =>
    intro buf t ht hl
    simp only [List.length_cons] at hl
    have fin : ∀ (t' : State) (e : Bool), at_ s (inside s buf e st) t' → (e = true ∨ ¬ (0xF1 ≤ b.toNat ∧ b.toNat ≤ 0xF5)) →
        ∃ u, Safety.receives (b :: (more.flatMap stuff ++ rest)) t' = Safety.receives rest u ∧ at_ s (inside s (buf ++ b :: more) false st) u := by
      intro t' e ht' hb
      obtain ⟨u, hu, hu2⟩ := data_step s hs ha hp hc b buf st e t' ht' (by omega) hb
      obtain ⟨v, hv, hv2⟩ := ih (buf ++ [b]) u hu2 (by simp; omega)
      refine ⟨v, (receives_cons hu).trans hv, by simpa using hv2⟩
    by_cases hsp : 0xF1 ≤ b.toNat ∧ b.toNat ≤ 0xF5
    · obtain ⟨u, hu, hu2⟩ := esc_step s hs ha hp hc buf st t ht
      obtain ⟨v, hv, hv2⟩ := fin u true hu2 (Or.inl rfl)
      refine ⟨v, ?_, hv2⟩
      have : (b :: more).flatMap stuff ++ rest = 0xF3 :: (b :: (more.flatMap stuff ++ rest)) := by
        rw [List.flatMap_cons]; unfold stuff; rw [if_pos hsp]; rfl
      rw [this, receives_cons hu, hv]
    · obtain ⟨v, hv, hv2⟩ := fin t false ht (Or.inr hsp)
      refine ⟨v, ?_, hv2⟩
      have : (b :: more).flatMap stuff ++ rest = b :: (more.flatMap stuff ++ rest) := by
        rw [List.flatMap_cons]; unfold stuff; rw [if_neg hsp]; rfl
      rw [this, hv]

theorem leNat_two (n : Nat) (h : n < 65536) (r : List Byte) : leNat ((leBytes 2 n ++ r).take 2) = n := by
  simp [leBytes, leNat]; omega

theorem leNat_three (n : Nat) (h : n < 16777216) : leNat (leBytes 3 n) = n := by
  simp [leBytes, leNat]; omega

theorem ofNat_toNat (b : Byte) : BitVec.ofNat 8 b.toNat = b := by simp

theorem dispatched (c : Instr) (src : Sender) (kind : Nat) (hm : Safety.messageOf c = some (src, kind)) (hw : c.wf = true) (s : State) :
    exec c s = partRow (messageRow src kind (dispatch src kind (Safety.payloadOf c))) s := by
  cases c <;> first
    | (simp [Safety.messageOf] at hm; done)
    | skip
  all_goals (simp only [Safety.messageOf, Option.some.injEq, Prod.mk.injEq] at hm; obtain ⟨rfl, rfl⟩ := hm)
  case text b => 
    have : goodFormat 11 b.length = true := by unfold Instr.wf at hw; unfold goodFormat; simp only [Bool.and_eq_true] at hw ⊢; exact ⟨hw.1.2, hw.2⟩
    show partRow (messageRow _ 11 (textTaken _ b)) s = _
    congr 2
    funext p; unfold dispatch Safety.payloadOf; rw [this]; rfl
  case grant id start stop dir cap =>
    show partRow (messageRow _ 1 (grantTaken _ _)) s = _
    congr 2; funext p
    have e : grantOf (Safety.payloadOf (.grant ‹Sender› id start stop dir cap)) = ⟨id, start.toNat, stop.toNat, dir.toNat, cap.toNat⟩ := by
      unfold grantOf Safety.payloadOf payloadField
      have := id.isLt; have := start.isLt; have := stop.isLt; have := cap.isLt; have := dir.isLt
      simp only [leBytes, List.cons_append, List.nil_append, List.drop, List.take, leNat, Grant.mk.injEq]
      refine ⟨?_, ?_, ?_, ?_, ?_⟩
      · apply BitVec.eq_of_toNat_eq; simp; omega
      all_goals (simp; try omega)
    unfold dispatch; simp only [show goodFormat 1 (Safety.payloadOf (.grant ‹Sender› id start stop dir cap)).length = true from rfl]
    simp only [Bool.not_true, Bool.false_eq_true, if_false, e]
  case revoke id point =>
    show partRow (messageRow _ 2 _) s = _
    congr 2; funext p
    have e : BitVec.ofNat 16 (payloadField (Safety.payloadOf (.revoke ‹Sender› id point)) 0 2) = id ∧ payloadField (Safety.payloadOf (.revoke ‹Sender› id point)) 2 3 = point.toNat := by
      unfold Safety.payloadOf payloadField
      have := id.isLt; have := point.isLt
      simp only [leBytes, List.cons_append, List.nil_append, List.drop, List.take, leNat]
      refine ⟨?_, ?_⟩
      · apply BitVec.eq_of_toNat_eq; simp; omega
      all_goals (simp; try omega)
    unfold dispatch; simp only [show goodFormat 2 (Safety.payloadOf (.revoke ‹Sender› id point)).length = true from rfl]
    simp only [Bool.not_true, Bool.false_eq_true, if_false, e.1, e.2]
  case restrict id start stop limit dirs =>
    show partRow (messageRow _ 3 _) s = _
    congr 2; funext p
    have e : additionOf (Safety.payloadOf (.restrict ‹Sender› id start stop limit dirs)) = ⟨id.toNat, start.toNat, stop.toNat, limit.toNat, dirs.toNat⟩ := by
      unfold additionOf Safety.payloadOf payloadField
      have := id.isLt; have := start.isLt; have := stop.isLt; have := limit.isLt; have := dirs.isLt
      simp only [leBytes, List.cons_append, List.nil_append, List.drop, List.take, leNat, Addition.mk.injEq]
      refine ⟨?_, ?_, ?_, ?_, ?_⟩
      all_goals (simp; try omega)
    unfold dispatch; simp only [show goodFormat 3 (Safety.payloadOf (.restrict ‹Sender› id start stop limit dirs)).length = true from rfl]
    simp only [Bool.not_true, Bool.false_eq_true, if_false, e]
  all_goals rfl

theorem kind_le (c : Instr) (src : Sender) (kind : Nat) (hm : Safety.messageOf c = some (src, kind)) (hw : c.wf = true) :
    kind < 256 ∧ (Safety.payloadOf c).length ≤ 48 ∧ src.wf = true := by
  cases c <;> first
    | (simp [Safety.messageOf] at hm; done)
    | skip
  all_goals (simp only [Safety.messageOf, Option.some.injEq, Prod.mk.injEq] at hm; obtain ⟨rfl, rfl⟩ := hm; unfold Instr.wf at hw; unfold Safety.payloadOf)
  case text => simp only [Bool.and_eq_true, decide_eq_true_eq] at hw; exact ⟨by omega, hw.2, hw.1.1⟩
  all_goals exact ⟨by omega, by simp [leBytes], hw⟩

end Sys2Proof.Machine
end

