-- ==== Sys2Proof/Laws/Wholes.lean ====
section
/-! SUPPORT. Two laws that a change keeps as a whole and not atom by atom: the DOORS entry stands as R137 forms it (`DoorsFormed`), and in
RUN a lost position holds ODOMETRY at EMERGENCY (R13, `LostHeld`). `Keeps` is a change that keeps both. A change of doors is `Dirty` until
the entry is formed again (`Dirty.formDoors`), and one of ODO `Asks` until its requests are made (`Asks.taken`). `exec_wholes` says that every
command keeps them, and `lawful_iff` that the laws of Safety.lean are these two and `Good`. -/

namespace Sys2Proof.Machine

open Sys2Proof.Safety (Group)

variable {H : List Group} {p q r : Part}

/-! ### The two laws -/

/-- The DOORS entry is as R137 forms it, and not latched. -/
def DoorsFormed (p : Part) : Prop := (p.entry .doors).latched = false ∧ formedEntry p (p.entry .doors)

/-- In RUN with validity UNKNOWN, ODOMETRY is latched at EMERGENCY (R13). -/
def LostHeld (p : Part) : Prop := p.mod.mode = .run → p.odo.validity = .unknown → Safety.latchedAt .odometry .emergency p

/-- A change after which DOORS is still to be formed: its entry is not latched, and a lost position is held. -/
structure Dirty (p q : Part) : Prop where
  unlatched : (p.entry .doors).latched = false → (q.entry .doors).latched = false
  held : LostHeld p → LostHeld q

/-- A change that keeps both laws. -/
structure Keeps (p q : Part) : Prop extends Dirty p q where
  formed : DoorsFormed p → DoorsFormed q

theorem Dirty.refl (p : Part) : Dirty p p := ⟨id, id⟩

theorem Dirty.trans (a : Dirty p q) (b : Dirty q r) : Dirty p r := ⟨b.unlatched ∘ a.unlatched, b.held ∘ a.held⟩

theorem Keeps.refl (p : Part) : Keeps p p := ⟨.refl _, id⟩

theorem Keeps.trans (a : Keeps p q) (b : Keeps q r) : Keeps p r := ⟨a.toDirty.trans b.toDirty, b.formed ∘ a.formed⟩

theorem doorsRequest_of (hm : q.mod.mode = p.mod.mode) (hd : q.dor.doors = p.dor.doors) : doorsRequest q = doorsRequest p := by
  unfold doorsRequest Part.doorsShut Part.door; rw [hm, hd]

theorem DoorsFormed.of (h : DoorsFormed p) (he : q.entry .doors = p.entry .doors) (hr : doorsRequest q = doorsRequest p) : DoorsFormed q := by
  unfold DoorsFormed formedEntry at *; rw [he, hr]; exact h

/-- The DOORS entry stands, is formed, or is that of another source. -/
theorem Move.doorsEntry (m : Move H p q) :
    q.entry .doors = p.entry .doors ∨ ((q.entry .doors).latched = (p.entry .doors).latched ∨ (q.entry .doors).latched = false)
      ∧ formedEntry p (q.entry .doors) := by
  cases m with
  | brk x h ht => left; unfold Part.entry; simp only [Part.withBrk_brk, h.1]
  | inputs x hh h ht => left; unfold Part.entry; simp only [Part.withBrk_brk, h.1]
  | cause d e h hf =>
    by_cases hd : d = .doors
    · subst hd; right; rw [writeEntry_self]; exact ⟨.inl h.2, hf.resolve_left fun x => x rfl⟩
    · left; exact (cause_requested d e p h.1).other _ (Ne.symm hd)
  | demand d e k arg pos hd hl h hf =>
    by_cases hd : d = .doors
    · subst hd; right; rw [request_entry]; exact ⟨.inr (hl rfl), hf.resolve_left fun x => x rfl⟩
    · left; exact (request_formed d e k arg pos p).other _ (Ne.symm hd)
  | unlatch d e k arg pos hh hd hl => left; exact (request_formed d e k arg pos p).other _ (Ne.symm hd.2)
  | chargeDone x evs hh hm hs =>
    left; obtain ⟨y, e, _⟩ := postAll_evq evs (p.withMod x); rw [e]; exact (requestMode_requested _).other _ (by decide)
  | mode x evs hh hs hc hr hd =>
    left; obtain ⟨y, e, _⟩ := postAll_evq evs (p.withMod x); rw [e]; exact (requestMode_requested _).other _ (by decide)
  | _ => left; rfl

/-- The DOORS entry is never latched by a change. -/
theorem Moves.unlatched (m : Moves H p q) (h : (p.entry .doors).latched = false) : (q.entry .doors).latched = false := by
  refine m.keeps (fun p q => (p.entry .doors).latched = false → (q.entry .doors).latched = false) (fun _ => id)
    (fun _ _ _ a b => b ∘ a) (fun p q m h => ?_) h
  rcases m.doorsEntry with e | ⟨e | e, _⟩
  · rw [e]; exact h
  · rw [e]; exact h
  · exact e

/-- A change of no door and not of the mode keeps the DOORS entry formed. -/
theorem Moves.formed (m : Moves H p q) (hd : .doors ∉ H) (hm : .mode ∉ H) (h : DoorsFormed p) : DoorsFormed q := by
  refine m.keeps (fun p q => DoorsFormed p → DoorsFormed q) (fun _ => id) (fun _ _ _ a b => b ∘ a) (fun p q m h => ?_) h
  have er := doorsRequest_of (m.frame.mode hm) (m.frame.doors hd).1
  rcases m.doorsEntry with e | ⟨e, f⟩
  · exact h.of e er
  · refine ⟨?_, ?_⟩
    · rcases e with e | e
      · rw [e]; exact h.1
      · exact e
    · unfold formedEntry at *; rw [er]; exact f

theorem emergency_of {s : Stage} (h : Stage.value .emergency ≤ s.value) : s = .emergency := by revert h; cases s <;> decide

theorem held_of (m : Moves H p q) (hl : .unlatch ∉ H) (hm : q.mod.mode = .run → p.mod.mode = .run)
    (hv : q.odo.validity = .unknown → p.odo.validity = .unknown) (h : LostHeld p) : LostHeld q := fun a b => by
  obtain ⟨x, y⟩ := h (hm a) (hv b)
  obtain ⟨u, v⟩ := m.frame.latched hl .odometry (by decide) x
  exact ⟨u, Nat.le_trans y v⟩

theorem OdoKept.validity {a b : Odo} (h : OdoKept a b) : b.validity = a.validity := by unfold OdoKept at h; rw [h]

/-- A change neither of the mode nor of the track, and of no latch, keeps ODOMETRY held. -/
theorem Moves.held (m : Moves H p q) (hm : .mode ∉ H) (ho : .odo ∉ H) (ht : .track ∉ H) (hl : .unlatch ∉ H) : LostHeld p → LostHeld q :=
  held_of m hl (fun a => by rw [← m.frame.mode hm]; exact a)
    (fun b => by rw [← (m.frame.track ho ht).validity]; exact b)

/-- A change that moves no door, mode, track or latch keeps both laws. -/
theorem Moves.whole (m : Moves H p q) (h : ∀ g ∈ ([.doors, .mode, .odo, .track, .unlatch] : List Group), g ∉ H := by decide) : Keeps p q :=
  ⟨⟨m.unlatched, m.held (h _ (by decide)) (h _ (by decide)) (h _ (by decide)) (h _ (by decide))⟩, m.formed (h _ (by decide)) (h _ (by decide))⟩

/-- A change of doors that moves no mode, track or latch. -/
theorem Moves.dirty (m : Moves H p q) (h : ∀ g ∈ ([.mode, .odo, .track, .unlatch] : List Group), g ∉ H := by decide) : Dirty p q :=
  ⟨m.unlatched, m.held (h _ (by decide)) (h _ (by decide)) (h _ (by decide)) (h _ (by decide))⟩

/-- The entry is formed again. -/
theorem formDoors_formed (h : (p.entry .doors).latched = false) : DoorsFormed (formDoors p) := by
  obtain ⟨a, b, c⟩ := followEntry_entry .doors (doorsRequest p).1 (doorsRequest p).2 p h
  have m := (formDoors_moves (Moves.refl p) : Moves [] p (formDoors p)).frame
  have er := doorsRequest_of (m.mode (by decide)) (m.doors (by decide)).1
  exact ⟨b, by unfold formedEntry; rw [er]; exact ⟨a, c⟩⟩

theorem Dirty.formDoors (d : Dirty p q) : Keeps p (formDoors q) :=
  have k : Keeps q (Machine.formDoors q) := (formDoors_moves (Moves.refl q) : Moves [] q _).whole
  ⟨d.trans k.toDirty, fun h => formDoors_formed (d.unlatched h.1)⟩

/-- What only writes events, other blocks' fields or other entries. -/
theorem Keeps.same (hm : q.mod.mode = p.mod.mode) (hd : q.dor.doors = p.dor.doors) (he : q.brk.table = p.brk.table)
    (hv : q.odo.validity = .unknown → p.odo.validity = .unknown) : Keeps p q := by
  have e : ∀ d, q.entry d = p.entry d := fun d => by unfold Part.entry; rw [he]
  refine ⟨⟨fun h => by rw [e]; exact h, fun h a b => ?_⟩, fun h => h.of (e _) (doorsRequest_of hm hd)⟩
  unfold Safety.latchedAt; rw [e]; exact h (by rw [← hm]; exact a) (hv b)

/-- What only writes events, other blocks' fields or other entries, and doors. -/
theorem Dirty.same (hm : q.mod.mode = p.mod.mode) (he : q.brk.table = p.brk.table)
    (hv : q.odo.validity = .unknown → p.odo.validity = .unknown) : Dirty p q := by
  have e : ∀ d, q.entry d = p.entry d := fun d => by unfold Part.entry; rw [he]
  refine ⟨fun h => by rw [e]; exact h, fun h a b => ?_⟩
  unfold Safety.latchedAt; rw [e]; exact h (by rw [← hm]; exact a) (hv b)

theorem Dirty.foldl {α : Type} (f : Part → α → Part) (hf : ∀ r a, Dirty r (f r a)) (l : List α) (p : Part) : Dirty p (l.foldl f p) := by
  induction l generalizing p with
  | nil => exact .refl _
  | cons a l ih => exact (hf _ _).trans (ih _)

theorem Keeps.foldl {α : Type} (f : Part → α → Part) (hf : ∀ r a, Keeps r (f r a)) (l : List α) (p : Part) : Keeps p (l.foldl f p) := by
  induction l generalizing p with
  | nil => exact .refl _
  | cons a l ih => exact (hf _ _).trans (ih _)

/-! ### One write -/

theorem posted_keeps (k : EventKind) (a : Half) (x : Word) (b : Bool) (h : Keeps p q) : Keeps p (postAt k a x b q) :=
  h.trans (.same rfl rfl rfl id)

theorem post_keeps (k : EventKind) (a : Half) (h : Keeps p q) : Keeps p (post k a q) := posted_keeps _ _ _ _ h

theorem bridge_keeps (x : Bridge) (h : Keeps p q) : Keeps p (q.withBridge x) := h.trans (.same rfl rfl rfl id)

theorem ord_keeps (x : Ord) (h : Keeps p q) : Keeps p (q.withOrd x) := h.trans (.same rfl rfl rfl id)

theorem evq_keeps (x : Evq) (h : Keeps p q) : Keeps p (q.withEvq x) := h.trans (.same rfl rfl rfl id)

theorem prf_keeps (x : Prf) (h : Keeps p q) : Keeps p (q.withPrf x) := h.trans (.same rfl rfl rfl id)

theorem ssu_keeps (x : Ssu) (h : Keeps p q) : Keeps p (q.withSsu x) := h.trans (.same rfl rfl rfl id)

theorem aut_keeps (x : Aut) (h : Keeps p q) : Keeps p (q.withAut x) := h.trans (.same rfl rfl rfl id)

theorem link_keeps (x : Link) (h : Keeps p q) : Keeps p (q.withLink x) := h.trans (.same rfl rfl rfl id)

theorem msg_keeps (x : Msg) (h : Keeps p q) : Keeps p (q.withMsg x) := h.trans (.same rfl rfl rfl id)

theorem odo_keeps (x : Odo) (hv : x.validity = .unknown → q.odo.validity = .unknown) (h : Keeps p q) : Keeps p (q.withOdo x) :=
  h.trans (.same rfl rfl rfl hv)

theorem brk_keeps (x : Brk) (hx : x.table = q.brk.table) (h : Keeps p q) : Keeps p (q.withBrk x) := h.trans (.same rfl rfl hx id)

theorem mod_keeps (x : Mod) (hx : x.mode = q.mod.mode) (h : Keeps p q) : Keeps p (q.withMod x) := h.trans (.same hx rfl rfl id)

theorem dor_keeps (x : Dor) (hx : x.doors = q.dor.doors) (h : Keeps p q) : Keeps p (q.withDor x) := h.trans (.same rfl hx rfl id)

theorem dor_dirty (x : Dor) (h : Dirty p q) : Dirty p (q.withDor x) := h.trans (.same rfl rfl id)

theorem post_dirty (k : EventKind) (a : Half) (h : Dirty p q) : Dirty p (post k a q) := h.trans (.same rfl rfl id)

theorem Keeps.soft {x : Part} (h : Keeps p q) (m : Moves [] q x) : Keeps p x := h.trans m.whole

theorem Keeps.ordSoft {x : Part} (h : Keeps p q) (m : Moves [.ord] q x) : Keeps p x := h.trans m.whole

theorem Keeps.foldl' {α : Type} (f : Part → α → Part) (hf : ∀ r a, Keeps p r → Keeps p (f r a)) (l : List α) (h : Keeps p q) :
    Keeps p (l.foldl f q) := by
  induction l generalizing q with
  | nil => exact h
  | cons a l ih => exact ih (hf _ _ h)

/-! ### Modes -/

theorem modeDor_formed (h : (p.entry .doors).latched = false) : DoorsFormed (modeDor p) := by
  unfold modeDor; split
  · have m : Moves [.doors] p (withdrawSide .right .mode (withdrawSide .left .mode p)) :=
      withdrawSide_moves _ _ (by decide) (withdrawSide_moves _ _ (by decide) (Moves.refl _))
    have c : Moves [.ord] (formDoors (withdrawSide .right .mode (withdrawSide .left .mode p))) _ := checkDoorOrders_moves (by decide) (Moves.refl _)
    exact c.formed (by decide) (by decide) (formDoors_formed (m.unlatched h))
  · exact formDoors_formed h

theorem modeDor_mild (p : Part) : Moves [.doors, .ord] p (modeDor p) := modeDor_moves (.inr (.inr ⟨by decide, by decide⟩)) (Moves.refl p)

/-- A change of mode forms the DOORS entry (R137); RUN is not entered with validity UNKNOWN (R107). -/
theorem changeMode_keeps (new : Mode) (cause : ModeCause) (also : Part → Part) (evs : List (EventKind × Half)) (ha : ∀ r, also r = postAll evs r)
    (hr : new = .run → p.odo.validity ≠ .unknown) : Keeps p (changeMode new cause also p) := by
  obtain ⟨x, hx⟩ : ∃ x, x = requestMode (also (post .modeChanged (BitVec.ofNat 16 (new.code * 256 + p.mod.mode.code * 16 + cause.code))
      (p.withMod { p.mod with mode := new }))) := ⟨_, rfl⟩
  have e : x = requestMode (postAll ((.modeChanged, BitVec.ofNat 16 (new.code * 256 + p.mod.mode.code * 16 + cause.code)) :: evs)
      (p.withMod { p.mod with mode := new })) := by rw [hx, ha]; rfl
  have xm : x.mod.mode = new := by rw [e, requestMode_mode]
  have xu : (p.entry .doors).latched = false → (x.entry .doors).latched = false := fun h => by
    rw [e]
    obtain ⟨y, e', _⟩ := postAll_evq ((.modeChanged, BitVec.ofNat 16 (new.code * 256 + p.mod.mode.code * 16 + cause.code)) :: evs) (p.withMod { p.mod with mode := new })
    rw [e', (requestMode_requested _).other _ (by decide)]; exact h
  have xv : x.odo.validity = p.odo.validity := by
    rw [e]
    obtain ⟨y, e', _⟩ := postAll_evq ((.modeChanged, BitVec.ofNat 16 (new.code * 256 + p.mod.mode.code * 16 + cause.code)) :: evs) (p.withMod { p.mod with mode := new })
    rw [e', (requestMode_requested _).rest]; rfl
  obtain ⟨y, hy⟩ : ∃ y, y = modeOdo (modeAut p.mod.mode (modeSsu p.mod.mode (patternChanged p.reduced x))) := ⟨_, rfl⟩
  have my : Moves [] x y := by rw [hy]; exact modeOdo_moves (modeAut_moves _ (modeSsu_moves _ (patternChanged_moves _ (Moves.refl _))))
  obtain ⟨z, hz⟩ : ∃ z, z = modeRlc p.mod.mode (modeDor y) := ⟨_, rfl⟩
  have mz : Moves [] (modeDor y) z := by rw [hz]; exact modeRlc_moves _ (Moves.refl _)
  obtain ⟨w, hw⟩ : ∃ w, w = changeMode new cause also p := ⟨_, rfl⟩
  have mw : Moves [] z w := by
    have : changeMode new cause also p = if (new == .run && z.mod.hostSilent) = true then silenceActs z else z := by
      rw [hz, hy, hx]; rfl
    rw [hw, this]; split; exacts [silenceActs_moves (Moves.refl _), Moves.refl _]
  have md := modeDor_mild y
  rw [← hw]
  refine ⟨⟨fun h => mw.unlatched (mz.unlatched (md.unlatched (my.unlatched (xu h)))), fun _ hrun hun => ?_⟩,
    fun h => mw.formed (by decide) (by decide) (mz.formed (by decide) (by decide) (modeDor_formed (my.unlatched (xu h.1))))⟩
  have wm : w.mod.mode = new := by
    rw [mw.frame.mode (by decide), mz.frame.mode (by decide), md.frame.mode (by decide), my.frame.mode (by decide), xm]
  have wv : w.odo.validity = p.odo.validity := by
    rw [(mw.frame.track (by decide) (by decide)).validity, (mz.frame.track (by decide) (by decide)).validity,
      (md.frame.track (by decide) (by decide)).validity, (my.frame.track (by decide) (by decide)).validity, xv]
  exact absurd (wv.symm.trans hun) (hr (wm.symm.trans hrun))

theorem toMode_keeps (new : Mode) (cause : ModeCause) (h : Keeps p q)
    (hr : new = .run → q.odo.validity ≠ .unknown := by exact fun h => by cases h) : Keeps p (toMode new cause q) := by
  unfold toMode; exact h.trans (changeMode_keeps new cause id [] (fun _ => rfl) hr)

theorem wakeCar_keeps (w : WakeReason) (h : Keeps p q) : Keeps p (wakeCar w q) := by
  unfold wakeCar; split
  · obtain ⟨x, hx⟩ : ∃ x, x = q.withMod { q.mod with wakeReason := w, charge := .timing q.now } := ⟨_, rfl⟩
    have h1 : Keeps p x := by rw [hx]; exact mod_keeps _ rfl h
    rw [← hx]
    exact h1.trans (changeMode_keeps _ _ _ [(.wake, BitVec.ofNat 16 w.code)] (fun _ => rfl) fun h => by cases h)
  · exact h

theorem autoStand_keeps (h : Keeps p q) : Keeps p (autoStand q) := by
  unfold autoStand; split; exacts [toMode_keeps _ _ h, h]

theorem finish_keeps (b : Part) (h : Keeps p q) : Keeps p (finish b q) :=
  (autoStand_keeps h).trans (Moves.whole (H := []) (raiseChanged_moves _ (Moves.refl _)))

/-! ### The brake test and the requests of the owners -/

theorem endTest_keeps (o : TestOutcome) (a : AbortReason) (w : Word) (h : Keeps p q) : Keeps p (endTest o a w q) := by
  unfold endTest
  extract_lets _ _ q1 q2 q3
  have h1 : Keeps p q1 := brk_keeps _ rfl h
  have h2 : Keeps p q2 := by simp only [q2]; split; exacts [toMode_keeps _ _ h1, h1]
  exact h2.ordSoft (endTestOrder_moves _ _ (by decide) (followEntry_moves _ _ _ (by decide) (postIf_moves _ _ _ (Moves.refl _))))

theorem markStep_keeps (n : Fin 5) (x : StepResult) (h : Keeps p q) : Keeps p (markStep n x q) := brk_keeps _ rfl h

theorem abortTest_keeps (a : AbortReason) (h : Keeps p q) : Keeps p (abortTest a q) := by
  unfold abortTest; split; exacts [endTest_keeps _ _ _ (markStep_keeps _ _ h), h]

theorem failTest_keeps (h : Keeps p q) : Keeps p (failTest q) := by
  unfold failTest; split; exacts [endTest_keeps _ _ _ (markStep_keeps _ _ h), h]

theorem afterRequest_keeps (d : DemandSource) (e : Entry) (h : Keeps p q) : Keeps p (afterRequest d e q) := by
  unfold afterRequest; split
  · split; exacts [abortTest_keeps _ h, h]
  · exact h

theorem followEntry_keeps (d : DemandSource) (s : Stage) (c : Nat) (hd : d ≠ .mode ∧ d ≠ .doors) (h : Keeps p q) :
    Keeps p (followEntry d s c q) := h.soft (followEntry_moves d s c hd.1 (Moves.refl _) (.inl hd.2))

theorem latchEntry_keeps (d : DemandSource) (s : Stage) (c : Nat) (hd : Safety.latches d = true) (h : Keeps p q) :
    Keeps p (latchEntry d s c q) := h.soft (latchEntry_moves d s c hd (Moves.refl _))

theorem follow_keeps (d : DemandSource) (s : Stage) (c : Nat) (hd : d ≠ .mode ∧ d ≠ .doors) (h : Keeps p q) : Keeps p (follow d s c q) :=
  afterRequest_keeps _ _ (followEntry_keeps _ _ _ hd h)

theorem latch_keeps (d : DemandSource) (s : Stage) (c : Nat) (hd : Safety.latches d = true) (h : Keeps p q) : Keeps p (latch d s c q) :=
  afterRequest_keeps _ _ (latchEntry_keeps _ _ _ hd h)

theorem handAlarm_keeps (a : AlarmKind) (h : Keeps p q) : Keeps p (handAlarm a q) := h.soft (handAlarm_moves _ (Moves.refl _))

theorem handReport_keeps (h : Keeps p q) : Keeps p (handReport q) := h.soft (handReport_moves (Moves.refl _))

theorem handRefusal_keeps (s : Byte) (k i : Nat) (r : Reason) (h : Keeps p q) : Keeps p (handRefusal s k i r q) :=
  h.soft (handRefusal_moves _ _ _ _ (Moves.refl _))

theorem ssuEvaluate_keeps (h : Keeps p q) : Keeps p (ssuEvaluate q) := h.soft (ssuEvaluate_moves (Moves.refl _))

theorem autNumbers_keeps (h : Keeps p q) : Keeps p (autNumbers q) := aut_keeps _ h

theorem checkDoorOrders_keeps (h : Keeps p q) : Keeps p (checkDoorOrders q) :=
  h.ordSoft (checkDoorOrders_moves (by decide) (Moves.refl _))

theorem judgeOperation_keeps (h : Keeps p q) : Keeps p (judgeOperation q) := h.soft (judgeOperation_moves (Moves.refl _))

/-! ### Deadlines, feedback and the steps of a test -/

theorem brakeUnconfirmed_keeps (h : Keeps p q) : Keeps p (brakeUnconfirmed q) := by
  have h1 : Keeps p (post .brakeFeedbackFault (arg2 1 5) (q.withBrk { q.brk with state := .applying .emergency none })) :=
    post_keeps _ _ (brk_keeps _ rfl h)
  unfold brakeUnconfirmed; simp only; split
  · exact h1
  · exact failTest_keeps (toMode_keeps _ _ (post_keeps _ _ (handAlarm_keeps _ h1)))

theorem applyingExpiry_keeps (h : Keeps p q) : Keeps p (applyingExpiry q) := by
  unfold applyingExpiry; split
  · split
    · split
      · exact brakeUnconfirmed_keeps h
      · exact failTest_keeps (latchEntry_keeps _ _ _ (by decide) (post_keeps _ _ h))
    · exact h
  · exact h

theorem releasingExpiry_keeps (h : Keeps p q) : Keeps p (releasingExpiry q) := by
  unfold releasingExpiry; split
  · split; exacts [failTest_keeps (post_keeps _ _ (brk_keeps _ rfl h)), h]
  · exact h

theorem confirmationLost_keeps (h : Keeps p q) : Keeps p (confirmationLost q) := by
  have h1 : Keeps p (latchEntry .feedback .emergency 2 (post .brakeFeedbackFault (arg2 2 q.brk.confirmed.value) q)) :=
    latchEntry_keeps _ _ _ (by decide) (post_keeps _ _ h)
  unfold confirmationLost
  simp only
  refine failTest_keeps ?_
  split; exacts [judgeOperation_keeps (brk_keeps _ rfl h1), h1]

theorem feedbackChange_keeps (sw : FeedbackSwitch) (c : Bool) (h : Keeps p q) : Keeps p (feedbackChange sw c q) := by
  have h1 : Keeps p (q.withBrk { q.brk with inputs := q.brk.inputs.put sw c }) := brk_keeps _ rfl h
  unfold feedbackChange; split
  · exact h
  · simp only; split
    · exact h1
    · split
      · split
        · exact confirmationLost_keeps h1
        · split; exacts [post_keeps _ _ h1, h1]
      · exact judgeOperation_keeps h1

theorem startStep_keeps (n : Fin 5) (h : Keeps p q) : Keeps p (startStep n q) :=
  followEntry_keeps _ _ _ (by decide) (brk_keeps _ rfl h)

theorem holdEnd_keeps (h : Keeps p q) : Keeps p (holdEnd q) := by
  unfold holdEnd; split
  · split
    · split; exacts [startStep_keeps _ h, endTest_keeps _ _ _ h]
    · exact h
  · exact h

theorem beginTest_keeps (h : Keeps p q) : Keeps p (beginTest q) := toMode_keeps _ _ (startStep_keeps _ (brk_keeps _ rfl h))

/-! ### Authorities -/

theorem overrun_keeps (h : Keeps p q) : Keeps p (overrun q) := by
  have h1 : Keeps p (post .authOverrun (currentId q) (q.withAut { q.aut with overrun := true })) := post_keeps _ _ (aut_keeps _ h)
  unfold overrun; simp only
  refine handAlarm_keeps _ ?_
  split; exacts [h1, latch_keeps _ _ _ (by decide) h1]

theorem slotsChanged_keeps (h : Keeps p q) : Keeps p (slotsChanged q) := ssuEvaluate_keeps (autNumbers_keeps h)

theorem handOver_keeps (h : Keeps p q) : Keeps p (handOver q) :=
  ssuEvaluate_keeps (handReport_keeps (post_keeps _ _ (autNumbers_keeps (aut_keeps _ h))))

theorem autJudge_keeps (t : Bool) (h : Keeps p q) : Keeps p (autJudge t q) := by
  have h1 : Keeps p (autNumbers q) := autNumbers_keeps h
  have h2 := handOver_keeps h1
  unfold autJudge; simp only
  split
  · split
    · split; exacts [overrun_keeps h2, h2]
    · split; exacts [overrun_keeps h1, h1]
  · exact h1

theorem travelCount_keeps (c : Dir) (h : Keeps p q) : Keeps p (travelCount c q) := by
  unfold travelCount; split
  · extract_lets r
    split
    · exact h
    · split; exacts [follow_keeps _ _ _ (by decide) (aut_keeps _ h), follow_keeps _ _ _ (by decide) (aut_keeps _ h)]
  · exact h

theorem acceptGrant_keeps (a : Authority) (x : Aut) (h : Keeps p q) : Keeps p (acceptGrant a x q) :=
  slotsChanged_keeps (post_keeps _ _ (aut_keeps _ h))

theorem grantTaken_keeps (g : Grant) (s : Byte) (h : Keeps p q) : Keeps p (grantTaken g s q).1 := by
  unfold grantTaken
  split
  exacts [handRefusal_keeps _ _ _ _ h, h, acceptGrant_keeps _ _ h, autJudge_keeps _ (acceptGrant_keeps _ _ h)]

theorem revoked_keeps (id : Half) (b : Bool) (n : Half) (r : Nat) (o : RevokeOutcome) (h : Keeps p q) :
    Keeps p (postRevoked id b (writeRevoke n r o q)) := posted_keeps _ _ _ _ (aut_keeps _ h)

theorem revokeCurrent_keeps (c : Authority) (r : Nat) (h : Keeps p q) : Keeps p (revokeCurrent c r q) := by
  unfold revokeCurrent; simp only
  split
  · split
    · exact slotsChanged_keeps (revoked_keeps _ _ _ _ _ h)
    · split
      · exact handAlarm_keeps _ (slotsChanged_keeps (latch_keeps _ _ _ (by decide) (aut_keeps _ (revoked_keeps _ _ _ _ _ (aut_keeps _ h)))))
      · exact slotsChanged_keeps (revoked_keeps _ _ _ _ _ (aut_keeps _ h))
  · split
    · exact slotsChanged_keeps (revoked_keeps _ _ _ _ _ h)
    · split
      · exact handAlarm_keeps _ (slotsChanged_keeps (latch_keeps _ _ _ (by decide) (aut_keeps _ (revoked_keeps _ _ _ _ _ (aut_keeps _ h)))))
      · exact slotsChanged_keeps (revoked_keeps _ _ _ _ _ (aut_keeps _ h))

theorem revokeTaken_keeps (i : Half) (r : Nat) (h : Keeps p q) : Keeps p (revokeTaken i r q) := by
  unfold revokeTaken; simp only
  split
  · split
    · exact revokeCurrent_keeps _ _ (aut_keeps _ h)
    · split
      · split
        · exact slotsChanged_keeps (revoked_keeps _ _ _ _ _ (aut_keeps _ h))
        · exact revoked_keeps _ _ _ _ _ (aut_keeps _ h)
      · exact revoked_keeps _ _ _ _ _ (aut_keeps _ h)
  · exact revoked_keeps _ _ _ _ _ (aut_keeps _ h)

theorem dropNext_keeps (h : Keeps p q) : Keeps p (dropNext q) := by
  unfold dropNext; split
  · exact slotsChanged_keeps (post_keeps _ _ (aut_keeps _ h))
  · exact h

/-! ### Doors -/

theorem doorTo_dirty (d : Fin 8) (s : DoorState) (m : Option Word) (h : Dirty p q) : Dirty p (doorTo d s m q) :=
  post_dirty _ _ (dor_dirty _ h)

theorem faultDoor_dirty (d : Fin 8) (c : DoorFault) (h : Dirty p q) : Dirty p (faultDoor d c q) :=
  post_dirty _ _ (doorTo_dirty _ _ _ (dor_dirty _ h))

theorem startReopening_dirty (d : Fin 8) (h : Dirty p q) : Dirty p (startReopening d q) := doorTo_dirty _ _ _ (dor_dirty _ h)

theorem leaveOpen_dirty (d : Fin 8) (h : Dirty p q) : Dirty p (leaveOpen d q) := doorTo_dirty _ _ _ (dor_dirty _ h)

theorem enterClosing_dirty (n : Nat) (d : Fin 8) (h : Dirty p q) : Dirty p (enterClosing n d q) := by
  induction n generalizing q with
  | zero => exact h
  | succ n ih =>
    have h1 : Dirty p (doorTo d .closing (some q.now) q) := doorTo_dirty _ _ _ h
    have h2 : Dirty p (startReopening d (doorTo d .closing (some q.now) q)) := startReopening_dirty _ h1
    unfold enterClosing; simp only
    split
    · exact doorTo_dirty _ _ _ h1
    · split
      · split
        · split; exacts [ih h2, leaveOpen_dirty _ h2]
        · exact h2
      · exact h1

theorem closeDoor_dirty (d : Fin 8) (h : Dirty p q) : Dirty p (closeDoor d q) := enterClosing_dirty _ _ h

theorem judgeReopened_dirty (d : Fin 8) (h : Dirty p q) : Dirty p (judgeReopened d q) := by
  unfold judgeReopened; split; exacts [closeDoor_dirty _ h, leaveOpen_dirty _ h]

theorem obstruct_dirty (d : Fin 8) (h : Dirty p q) : Dirty p (obstruct d q) := by
  unfold obstruct; simp only
  split; exacts [judgeReopened_dirty _ (startReopening_dirty _ h), startReopening_dirty _ h]

theorem openDoor_dirty (d : Fin 8) (h : Dirty p q) : Dirty p (openDoor d q) := by
  unfold openDoor; simp only
  split; exacts [doorTo_dirty _ _ _ (doorTo_dirty _ _ _ h), doorTo_dirty _ _ _ h]

theorem withdrawSide_dirty (s : Side) (c : WithdrawCause) (h : Dirty p q) : Dirty p (withdrawSide s c q) :=
  h.trans (Moves.dirty (H := [.doors]) (withdrawSide_moves _ _ (by decide) (Moves.refl _)))

/-- Some doors have changed: the entry is formed again, and what follows keeps it. -/
theorem afterDoors_keeps (b : Part) (h : Dirty p q) : Keeps p (afterDoors b q) := by
  have h1 : Keeps p (formDoors q) := h.formDoors
  unfold afterDoors; simp only
  refine checkDoorOrders_keeps ?_
  split; exacts [abortTest_keeps _ h1, h1]

theorem handlePulled_keeps (d : Fin 8) (h : Keeps p q) : Keeps p (handlePulled d q) := by
  have h1 : Keeps p (post .handlePulled (BitVec.ofNat 16 d.val) q) := post_keeps _ _ h
  unfold handlePulled; simp only
  split
  · split
    · exact h1
    · exact post_keeps _ _ (handAlarm_keeps _ (dor_keeps _ rfl h1))
  · exact latch_keeps _ _ _ (by decide) h1

theorem handlePulled_dirty (d : Fin 8) (h : Dirty p q) : Dirty p (handlePulled d q) := h.trans (handlePulled_keeps d (.refl _)).toDirty

theorem doorEdge_dirty (d : Fin 8) (i : DoorInput) (r : Bool) (h : Dirty p q) : Dirty p (doorEdge d i r q) := by
  unfold doorEdge
  split
  exacts [doorTo_dirty _ _ _ h, faultDoor_dirty _ _ h, faultDoor_dirty _ _ h, doorTo_dirty _ _ _ h, judgeReopened_dirty _ h, obstruct_dirty _ h,
    openDoor_dirty _ h, handlePulled_dirty _ h, h]

theorem setLevel_request (d : Fin 8) (i : DoorInput) (c : Bool) (p : Part) : doorsRequest (setDoor d (·.setLevel i c) p) = doorsRequest p := by
  have h : ∀ x : Fin 8, ((setDoor d (·.setLevel i c) p).door x).state = (p.door x).state := fun x => by
    show (((p.dor.doors.set d ((p.door d).setLevel i c))[x]).state) = (p.dor.doors[x]).state
    by_cases e : x = d
    · subst e; simp only [Fin.getElem_fin, Vector.getElem_set_self, setLevel_state]; rfl
    · simp only [Fin.getElem_fin]; rw [Vector.getElem_set_ne _ _ (fun h => e (Fin.ext h.symm))]
  unfold doorsRequest Part.doorsShut
  simp only [h]; rfl

theorem doorLevel_keeps (d : Fin 8) (i : DoorInput) (c : Bool) (h : Keeps p q) : Keeps p (doorLevel d i c q) := by
  have h1 : Dirty p (setDoor d (·.setLevel i c) q) := dor_dirty _ h.toDirty
  unfold doorLevel; split
  · exact h
  · simp only; split
    · exact ⟨h1, fun hf => (h.formed hf).of rfl (setLevel_request _ _ _ _)⟩
    · refine afterDoors_keeps _ (doorEdge_dirty _ _ _ ?_)
      split; exacts [post_dirty _ _ h1, h1]

theorem motionExpiry_keeps (d : Fin 8) (h : Keeps p q) : Keeps p (motionExpiry d q) := by
  unfold motionExpiry; split; exacts [afterDoors_keeps _ (faultDoor_dirty _ _ h.toDirty), h]

/-! ### Permits -/

theorem withdrawPermit_dirty (i : Byte) (s : Side) (h : Dirty p q) : Dirty p (withdrawPermit i s q) := by
  unfold withdrawPermit; split; exacts [withdrawSide_dirty _ _ h, h]

theorem permitsChanged_keeps (b : Part) (i : Byte) (n : Nat) (x : List Permit) (h : Dirty p q) :
    Keeps p (afterDoors b (withdrawPermit i .right (withdrawPermit i .left (postPermit i n (q.withDor { q.dor with permits := x }))))) :=
  afterDoors_keeps _ (withdrawPermit_dirty _ _ (withdrawPermit_dirty _ _ (post_dirty _ _ (dor_dirty _ h))))

theorem removePermit_keeps (i : Byte) (n : Nat) (h : Keeps p q) : Keeps p (removePermit i n q) := permitsChanged_keeps _ _ _ _ h.toDirty

theorem permitExpiry_keeps (i : Byte) (h : Keeps p q) : Keeps p (permitExpiry i q) := by
  unfold permitExpiry; split
  · split; exacts [removePermit_keeps _ _ h, h]
  · exact h

theorem clearPermits_keeps (h : Keeps p q) : Keeps p (clearPermits q) := Keeps.foldl' _ (fun _ _ => removePermit_keeps _ _) _ h

theorem permitTaken_keeps (s i m : Byte) (h : Keeps p q) : Keeps p (permitTaken s i m q).1 := by
  have hf : ∀ r, Keeps p (postPermit i 6 (handRefusal s 5 i.toNat r q)) := fun r => post_keeps _ _ (handRefusal_keeps _ _ _ _ h)
  unfold permitTaken; simp only
  split
  · exact hf _
  · split
    · exact hf _
    · split
      · exact permitsChanged_keeps _ _ _ _ h.toDirty
      · split; exacts [hf _, post_keeps _ _ (dor_keeps _ rfl h)]

theorem withdrawTaken_keeps (i : Byte) (h : Keeps p q) : Keeps p (withdrawTaken i q) := by
  unfold withdrawTaken; split; exacts [removePermit_keeps _ _ h, post_keeps _ _ h]

/-! ### Odometry -/

/-- A change of ODO with the requests it calls for: DOORS stands, and a position it has lost is one of the requests. -/
structure Asks (p : Part) (r : Part × OdoRequests) : Prop where
  unlatched : (p.entry .doors).latched = false → (r.1.entry .doors).latched = false
  formed : DoorsFormed p → DoorsFormed r.1
  held : LostHeld p → LostHeld r.1 ∨ ∃ n, (Stage.emergency, n) ∈ r.2

theorem Keeps.asks (rs : OdoRequests) (h : Keeps p q) : Asks p (q, rs) := ⟨h.unlatched, h.formed, fun x => .inl (h.held x)⟩

theorem Asks.then {r : Part × OdoRequests} {x : Part} (h : Asks p r) (k : Keeps r.1 x) : Asks p (x, r.2) :=
  ⟨fun a => k.unlatched (h.unlatched a), fun a => k.formed (h.formed a), fun a => (h.held a).imp_left k.held⟩

/-- An ODOMETRY entry latched at EMERGENCY stays so through ODO's requests, and a request of EMERGENCY latches it so. -/
theorem odoRequests_latched (rs : OdoRequests) (p : Part)
    (h : Safety.latchedAt .odometry .emergency p ∨ ∃ n, (Stage.emergency, n) ∈ rs) : Safety.latchedAt .odometry .emergency (odoRequests rs p) := by
  induction rs generalizing p with
  | nil => rcases h with h | ⟨_, h⟩; exacts [h, nomatch h]
  | cons r rs ih =>
    have m : Moves [.mode, .ord] p (latch .odometry r.1 r.2 p) := latch_moves _ _ _ (by decide) (by decide) (by decide) (Moves.refl _)
    refine ih _ ?_
    rcases h with h | ⟨n, h⟩
    · exact .inl (latched_after h (by decide) m (by decide))
    · rcases List.mem_cons.1 h with e | h
      · left
        rw [← e]
        have k : Moves [.mode, .ord] (latchEntry .odometry .emergency n p) (latch .odometry .emergency n p) :=
          afterRequest_moves _ _ (by decide) (by decide) (Moves.refl _)
        exact latched_after (latchEntry_latched _ _ _ _) (by decide) k (by decide)
      · exact .inr ⟨n, h⟩

/-- ODO's requests are made. -/
theorem Asks.taken {r : Part × OdoRequests} (h : Asks p r) : Keeps p (odoRequests r.2 r.1) := by
  have k : Keeps r.1 (odoRequests r.2 r.1) := Keeps.foldl' _ (fun _ x hk => latch_keeps _ _ _ (by decide) hk) _ (.refl _)
  refine ⟨⟨fun a => k.unlatched (h.unlatched a), fun a => ?_⟩, fun a => k.formed (h.formed a)⟩
  rcases h.held a with b | b
  · exact k.held b
  · exact fun _ _ => odoRequests_latched _ _ (.inr b)

theorem makeUncertain_keeps (c : Nat) (h : Keeps p q) : Keeps p (makeUncertain c q) := by
  unfold makeUncertain; split; exacts [post_keeps _ _ (odo_keeps _ (fun e => by cases e) h), h]

theorem chooseSource_keeps (h : Keeps p q) : Keeps p (chooseSource q) := by
  unfold chooseSource; split; exacts [h, post_keeps _ _ (odo_keeps _ id h)]

theorem losePosition_asks (rs : OdoRequests) (hr : ∀ x ∈ lostRequests q, x ∈ rs) (h : Keeps p q) : Asks p (losePosition q, rs) := by
  have e : ∀ d, (losePosition q).entry d = q.entry d := fun _ => rfl
  refine ⟨fun a => h.unlatched a, fun a => (h.formed a).of (e _) rfl, fun _ => ?_⟩
  by_cases hm : q.mod.mode = .run
  · exact .inr ⟨3, hr _ (by unfold lostRequests; simp only [hm, beq_self_eq_true, if_true]; exact List.mem_singleton.2 rfl)⟩
  · exact .inl fun a => absurd a hm

theorem settleSource_asks (w : Odo) (h : Keeps p q) : Asks p (settleSource w q) := by
  have h1 := chooseSource_keeps h
  unfold settleSource; simp only; split
  · exact losePosition_asks _ (fun _ => id) h1
  · split; exacts [(makeUncertain_keeps _ h1).asks _, h1.asks _]

theorem mismatch_keeps (r : MismatchReason) (h : Keeps p q) : Keeps p (mismatch r q) := by
  have h1 : Keeps p (post .datumMismatch (BitVec.ofNat 16 r.code)
      (q.withOdo { q.odo with mismatches := sat8 q.odo.mismatches, capture := .idle })) := post_keeps _ _ (odo_keeps _ id h)
  unfold mismatch; simp only; split; exacts [makeUncertain_keeps _ h1, h1]

theorem captureWatch_keeps (h : Keeps p q) : Keeps p (captureWatch q) := by
  unfold captureWatch; split
  · split
    · exact mismatch_keeps _ h
    · split <;> (split; exacts [mismatch_keeps _ h, h])
  · exact h

theorem entryPass_asks (h : Keeps p q) : Asks p (entryPass q) := by
  unfold entryPass
  extract_lets _ o q1 off
  have h1 : Keeps p q1 := chooseSource_keeps (post_keeps _ _ (odo_keeps o id h))
  simp only [off]
  refine Keeps.asks _ ?_
  split
  · exact post_keeps _ _ h1
  · split; exacts [post_keeps _ _ h1, h1]

theorem entryFail_asks (n : Nat) (h : Keeps p q) : Asks p (entryFail n q) := by
  have h1 : Keeps p (chooseSource (post .rackEntryFailed (argUnsigned n)
      (q.withOdo { q.odo with regime := .rack, entry := none }.zeroDeviation))) := chooseSource_keeps (post_keeps _ _ (odo_keeps _ id h))
  unfold entryFail; simp only; split
  exacts [losePosition_asks _ (fun _ => List.mem_cons_of_mem _) h1, (makeUncertain_keeps _ h1).asks _]

theorem entryJudge_asks (h : Keeps p q) : Asks p (entryJudge q) := by
  unfold entryJudge; split
  · split
    · simp only; split
      · exact entryFail_asks _ h
      · split; exacts [entryPass_asks h, entryFail_asks _ h]
    · exact h.asks _
  · exact h.asks _

theorem crossRegime_asks (b : Bool) (d : Dir) (h : Keeps p q) : Asks p (crossRegime b d q) := by
  unfold crossRegime; split
  · split
    · exact settleSource_asks _ (odo_keeps _ id h)
    · exact h.asks _
  · split
    · exact settleSource_asks _ (post_keeps _ _ (odo_keeps _ id h))
    · split
      · exact settleSource_asks _ (odo_keeps _ id h)
      · exact h.asks _

theorem followSegment_asks (d : Dir) (h : Keeps p q) : Asks p (followSegment d q) := by
  have h1 : Keeps p (q.withOdo { q.odo with segment := segmentIndex q.odo.pos.toInt q.prf.active }) := odo_keeps _ id h
  unfold followSegment; simp only; split
  · split; exacts [h1.asks _, crossRegime_asks _ _ h1]
  · exact h1.asks _

theorem directRegime_asks (v : Validity) (h : Keeps p q) : Asks p (directRegime v q) := by
  unfold directRegime
  extract_lets seg rack _ o q1 first q3
  have h1 : Keeps p q1 := by
    refine chooseSource_keeps (odo_keeps _ ?_ h)
    split <;> exact id
  have h3 : Keeps p q3 := (post_keeps .climbOff (if first then 1 else 2) h1).trans (.same rfl rfl rfl id)
  split
  · exact losePosition_asks _ (fun _ => id) h1
  · split
    · refine Keeps.asks _ ?_; split
      exacts [odo_keeps _ (fun e => by cases e) h3, makeUncertain_keeps _ h3]
    · split
      · exact (post_keeps _ _ h1).asks _
      · split; exacts [(post_keeps _ _ h1).asks _, h1.asks _]

/-! ### What follows a change of ODO -/

theorem sideCheck_dirty (s : Side) (h : Dirty p q) : Dirty p (sideCheck s q) := by
  unfold sideCheck; split; exacts [withdrawSide_dirty _ _ h, h]

theorem sideChecks_keeps (h : Keeps p q) : Keeps p (sideChecks q) :=
  checkDoorOrders_keeps (sideCheck_dirty _ (sideCheck_dirty _ h.toDirty)).formDoors

theorem handleJudge_keeps (h : Keeps p q) : Keeps p (handleJudge q) := by
  unfold handleJudge; split; exacts [latch_keeps _ _ _ (by decide) (dor_keeps _ rfl h), h]

theorem spreadValidity_keeps (h : Keeps p q) : Keeps p (spreadValidity q) := sideChecks_keeps (ssuEvaluate_keeps (autNumbers_keeps h))

theorem spreadPosition_keeps (t : Bool) (h : Keeps p q) : Keeps p (spreadPosition t q) :=
  handleJudge_keeps (sideChecks_keeps (ssuEvaluate_keeps (autJudge_keeps _ (ssuEvaluate_keeps h))))

theorem afterChange_keeps (r : Part × OdoRequests) (h : Asks p r) : Keeps p (afterChange r) :=
  spreadValidity_keeps (h.then (captureWatch_keeps (.refl _))).taken

theorem moveTo_keeps (d : Dir) (h : Keeps p q) : Keeps p (moveTo d q) :=
  spreadPosition_keeps _ ((followSegment_asks _ h).then (captureWatch_keeps (.refl _))).taken

theorem mismatchTaken_keeps (r : MismatchReason) (h : Keeps p q) : Keeps p (mismatchTaken r q) := spreadValidity_keeps (mismatch_keeps _ h)

theorem datumMatch_keeps (w : Word) (h : Keeps p q) : Keeps p (datumMatch w q) := by
  unfold datumMatch; simp only
  exact moveTo_keeps _ (posted_keeps _ _ _ _ (odo_keeps _ (by split <;> exact fun e => by cases e) h))

theorem datumRise_keeps (h : Keeps p q) : Keeps p (datumRise q) := by
  have h1 : Keeps p (q.withOdo { q.odo with capture := .idle }) := odo_keeps _ id h
  unfold datumRise; split
  · exact h
  · simp only; split
    · exact mismatchTaken_keeps _ h1
    · split
      · exact datumMatch_keeps _ h1
      · split
        · split
          · exact mismatchTaken_keeps _ h1
          · split
            · exact odo_keeps _ id h1
            · exact odo_keeps _ id h1
            · exact mismatchTaken_keeps _ h1
        · exact odo_keeps _ id h1

theorem datumFall_keeps (h : Keeps p q) : Keeps p (datumFall q) := by
  unfold datumFall; split; exacts [datumMatch_keeps _ h, h]

theorem indexPulse_keeps (x : Pinion) (h : Keeps p q) : Keeps p (indexPulse x q) := by
  unfold indexPulse; split
  · split
    · exact h
    · split; exacts [datumMatch_keeps _ h, odo_keeps _ id h]
  · exact h

theorem captureCount_keeps (c : Dir) (h : Keeps p q) : Keeps p (captureCount c q) := by
  unfold captureCount; split
  · exact h
  · split
    · exact mismatchTaken_keeps _ h
    · split; exacts [mismatchTaken_keeps _ h, odo_keeps _ id h]
  · split; exacts [mismatchTaken_keeps _ h, odo_keeps _ id h]

theorem climbOut_keeps (h : Keeps p q) : Keeps p (climbOut q) := handAlarm_keeps _ (latch_keeps _ _ _ (by decide) (post_keeps _ _ h))

theorem deviationCount_keeps (h : Keeps p q) : Keeps p (deviationCount q) := by
  have h1 : Keeps p (q.withOdo { q.odo with deviation := (q.odo.p1.tally - q.odo.ref1) - (q.odo.p2.tally - q.odo.ref2) }) := odo_keeps _ id h
  unfold deviationCount; split
  · simp only; split; exacts [climbOut_keeps h1, h1]
  · exact h

theorem creepCrossed_keeps (h : Keeps p q) : Keeps p (creepCrossed q) := by
  have h1 : Keeps p (latch .rollback .emergency 1 (post .rollback 0 q)) := latch_keeps _ _ _ (by decide) (post_keeps _ _ h)
  unfold creepCrossed; simp only; split
  · exact wakeCar_keeps _ (handAlarm_keeps _ (msg_keeps _ h1))
  · exact h1

theorem reverseCrossed_keeps (h : Keeps p q) : Keeps p (reverseCrossed q) := latch_keeps _ _ _ (by decide) (post_keeps _ _ h)

theorem creepCount_keeps (h : Keeps p q) : Keeps p (creepCount q) := by
  have h1 : Keeps p (q.withOdo { q.odo with creep := sat16 q.odo.creep }) := odo_keeps _ id h
  unfold creepCount; split
  · simp only; split; exacts [creepCrossed_keeps h1, h1]
  · exact h

theorem reverseCount_keeps (c : Dir) (h : Keeps p q) : Keeps p (reverseCount c q) := by
  have h1 : Keeps p (q.withOdo { q.odo with reverse := sat16 q.odo.reverse }) := odo_keeps _ id h
  unfold reverseCount; split
  · split
    · exact odo_keeps _ id h
    · simp only; split; exacts [reverseCrossed_keeps h1, h1]
  · exact h

theorem standstillCount_keeps (h : Keeps p q) : Keeps p (standstillCount q) := by
  have h1 : Keeps p (q.withOdo { q.odo with standTimer := some q.now }) := odo_keeps _ id h
  unfold standstillCount; simp only; split; exacts [post_keeps _ _ (odo_keeps _ id h1), h1]

theorem entryCount_keeps (e : Encoder) (c : Dir) (r : Bool) (h : Keeps p q) : Keeps p (entryCount e c r q) := by
  unfold entryCount; split
  · split; exacts [afterChange_keeps _ (entryJudge_asks (odo_keeps _ id h)), h]
  · exact h

theorem setEnc_validity (o : Odo) (e : Encoder) (x : Enc) : (o.setEnc e x).validity = o.validity := by cases e <;> rfl

theorem tallyCount_keeps (e : Encoder) (c : Dir) (b : Bool) (h : Keeps p q) : Keeps p (tallyCount e c b q) := by
  unfold tallyCount; simp only
  exact odo_keeps _ (by split <;> (rw [setEnc_validity]; exact id)) h

theorem countTaken_keeps (e : Encoder) (c : Dir) (h : Keeps p q) : Keeps p (countTaken e c q) := by
  unfold countTaken
  extract_lets moves isSource ran q1 _ q2 q3 q4 q5 q6
  have h1 : Keeps p q1 := abortTest_keeps _ (standstillCount_keeps (tallyCount_keeps _ _ _ h))
  have h2 : Keeps p q2 := by simp only [q2]; split; exacts [moveTo_keeps _ (odo_keeps _ id h1), h1]
  have h3 : Keeps p q3 := by simp only [q3]; split; exacts [h2, deviationCount_keeps h2]
  have h4 : Keeps p q4 := entryCount_keeps _ _ _ h3
  have h5 : Keeps p q5 := by
    simp only [q5]; split; exacts [reverseCount_keeps _ (creepCount_keeps (captureCount_keeps _ h4)), h4]
  have h6 : Keeps p q6 := by simp only [q6]; split; exacts [travelCount_keeps _ h5, h5]
  exact ssuEvaluate_keeps h6

theorem encoderFaulted_keeps (e : Encoder) (h : Keeps p q) : Keeps p (encoderFaulted e q) := by
  unfold encoderFaulted
  extract_lets was o _ q1 q2
  have h1 : Keeps p q1 := post_keeps _ _ (odo_keeps _ (fun x => (setEnc_validity _ _ _).symm.trans x) h)
  have h2 : Keeps p q2 := by simp only [q2]; split; exacts [post_keeps _ _ h1, h1]
  split
  · exact afterChange_keeps _ (entryFail_asks _ h1)
  · exact afterChange_keeps _ (settleSource_asks _ h2)

theorem encoderLines_keeps (e : Encoder) (l : BitVec 2) (h : Keeps p q) : Keeps p (encoderLines e l q) := by
  have h1 : Keeps p (q.withOdo (q.odo.setEnc e { q.odo.enc e with quad := l })) :=
    odo_keeps _ (fun x => (setEnc_validity _ _ _).symm.trans x) h
  unfold encoderLines; simp only; split
  · exact h1
  · split
    exacts [h1, countTaken_keeps _ _ h1, countTaken_keeps _ _ h1, encoderFaulted_keeps _ h1]

theorem windowTick_keeps (h : Keeps p q) : Keeps p (windowTick q) := by
  unfold windowTick; simp only; split; exacts [odo_keeps _ id h, ssuEvaluate_keeps (odo_keeps _ id h)]

theorem standstillStarts_keeps (h : Keeps p q) : Keeps p (standstillStarts q) := handleJudge_keeps (post_keeps _ _ (odo_keeps _ id h))

theorem standstillExpiry_keeps (h : Keeps p q) : Keeps p (standstillExpiry q) := by
  unfold standstillExpiry; split
  · split; exacts [odo_keeps _ id h, standstillStarts_keeps h]
  · exact h

/-! ### The profile and the modes -/

theorem endActivation_keeps (a : Bool) (w : Word) (h : Keeps p q) : Keeps p (endActivation a w q) := by
  unfold endActivation slotEnd setSlot; split
  · exact posted_keeps _ _ _ _ (ord_keeps _ (ord_keeps _ h))
  · exact h

theorem odoMeetsBank_keeps (h : Keeps p q) : Keeps p (odoMeetsBank q) := by
  unfold odoMeetsBank
  extract_lets o q1 r
  have h1 : Keeps p q1 := odo_keeps _ (by show (if _ then _ else _) = _ → _; split; exacts [(fun e => by cases e), id]) h
  split
  · exact h1
  · exact (directRegime_asks _ h1).taken

theorem sideTrust_dirty (s : Side) (h : Dirty p q) : Dirty p (sideTrust s q) := by
  unfold sideTrust; split; exacts [withdrawSide_dirty _ _ h, h]

theorem setSide_dirty (s : Side) (r : SideRec) (h : Dirty p q) : Dirty p (setSide s r q) := by
  cases s <;> exact dor_dirty _ h

theorem sideMeetsBank_dirty (s : Side) (h : Dirty p q) : Dirty p (sideMeetsBank s q) := by
  unfold sideMeetsBank; split
  · split; exacts [setSide_dirty _ _ h, withdrawSide_dirty _ _ h]
  · exact h

theorem linkExpiry_keeps (h : Keeps p q) : Keeps p (linkExpiry q) := by
  have h1 : Keeps p (q.withLink { q.link with linkTimer := none }) := link_keeps _ h
  unfold linkExpiry; split
  · simp only; split
    · exact h1
    · exact clearPermits_keeps (dropNext_keeps (post_keeps _ _ (link_keeps _ h1)))
  · exact h

theorem silenceExpiry_keeps (h : Keeps p q) : Keeps p (silenceExpiry q) :=
  h.trans (Moves.whole (H := [.silence]) (silenceExpiry_moves (by decide) (Moves.refl _)))

theorem judgeCharge_keeps (h : Keeps p q) : Keeps p (judgeCharge q) :=
  h.trans (Moves.whole (H := [.charge]) (judgeCharge_moves (by decide) (Moves.refl _)))

theorem timersMeet_keeps (h : Keeps p q) : Keeps p (timersMeet q) :=
  Keeps.foldl' _ (fun _ _ => motionExpiry_keeps _) _ (Keeps.foldl' _ (fun _ _ => permitExpiry_keeps _) _
    ((linkExpiry_keeps (judgeCharge_keeps (silenceExpiry_keeps (standstillExpiry_keeps h)))).soft (reportExpiry_moves (Moves.refl _))))

theorem thresholdsMeet_keeps (old : Settings) (h : Keeps p q) : Keeps p (thresholdsMeet old q) := by
  unfold thresholdsMeet
  extract_lets q1 lower q2
  have h1 : Keeps p q1 := by simp only [q1]; split; exacts [climbOut_keeps h, h]
  have h2 : Keeps p q2 := by simp only [q2]; split; exacts [creepCrossed_keeps h1, h1]
  split; exacts [reverseCrossed_keeps h2, h2]

theorem blocksMeetBank_keeps (old : Settings) (h : Keeps p q) : Keeps p (blocksMeetBank old q) := by
  have h1 : Keeps p (ssuEvaluate (autJudge false (ssuEvaluate q))) := ssuEvaluate_keeps (autJudge_keeps _ (ssuEvaluate_keeps h))
  exact thresholdsMeet_keeps _ (timersMeet_keeps (handleJudge_keeps (checkDoorOrders_keeps (Dirty.formDoors
    (sideMeetsBank_dirty _ (sideMeetsBank_dirty _ (sideTrust_dirty _ (sideTrust_dirty _ h1.toDirty))))))))

theorem copyCompleted_keeps (h : Keeps p q) : Keeps p (copyCompleted q) := by
  unfold copyCompleted; split
  · exact blocksMeetBank_keeps _ (odoMeetsBank_keeps (endActivation_keeps _ _ (post_keeps _ _ (prf_keeps _ h))))
  · exact h

theorem crewKeyLevel_keeps (l : Bool) (h : Keeps p q) : Keeps p (crewKeyLevel l q) := by
  unfold crewKeyLevel; simp only; split
  exacts [wakeCar_keeps _ (mod_keeps _ rfl h), mod_keeps _ rfl h]

/-! ### Messages -/

/-- A latch of another source than ODOMETRY and DOORS is cleared. -/
theorem clearLatch_keeps (d : DemandSource) (s : Stage) (c : Nat) (hd : d ≠ .mode ∧ d ≠ .doors) (ho : d ≠ .odometry) (h : Keeps p q) :
    Keeps p (clearLatch d s c q) := by
  have m : Moves [.unlatch] q (clearLatch d s c q) := clearLatch_moves d s c hd (by decide) (Moves.refl _)
  have e : (clearLatch d s c q).entry .odometry = q.entry .odometry := (request_formed d _ _ _ _ q).other _ (Ne.symm ho)
  refine h.trans ⟨⟨m.unlatched, fun hh a b => ?_⟩, m.formed (by decide) (by decide)⟩
  obtain ⟨x, y⟩ := hh ((m.frame.mode (by decide)).symm.trans a) ((m.frame.track (by decide) (by decide)).validity.symm.trans b)
  exact ⟨by rw [e]; exact x, by rw [e]; exact y⟩

theorem placeRestriction_keeps (r : Restriction) (b : Bool) (h : Keeps p q) : Keeps p (placeRestriction r b q) :=
  ssuEvaluate_keeps (post_keeps _ _ (ssu_keeps _ h))

theorem dropRestriction_keeps (n : Nat) (h : Keeps p q) : Keeps p (dropRestriction n q) := ssuEvaluate_keeps (post_keeps _ _ (ssu_keeps _ h))

theorem eStopTaken_keeps (s : Byte) (h : Keeps p q) : Keeps p (eStopTaken s q).1 := latch_keeps _ _ _ (by decide) (post_keeps _ _ h)

theorem eReleaseTaken_keeps (s : Byte) (h : Keeps p q) : Keeps p (eReleaseTaken s q).1 := by
  unfold eReleaseTaken; split
  · split; exacts [clearLatch_keeps _ _ _ (by decide) (by decide) h, h]
  · exact post_keeps _ _ h

theorem restrictTaken_keeps (s : Byte) (a : Addition) (h : Keeps p q) : Keeps p (restrictTaken s a q).1 := by
  unfold restrictTaken; split; exacts [placeRestriction_keeps _ _ h, post_keeps _ _ (handRefusal_keeps _ _ _ _ h)]

theorem liftTaken_keeps (s i : Byte) (h : Keeps p q) : Keeps p (liftTaken s i q).1 := by
  unfold liftTaken; split
  · split; exacts [dropRestriction_keeps _ h, post_keeps _ _ (handRefusal_keeps _ _ _ _ h)]
  · exact post_keeps _ _ h

theorem wakeTaken_keeps (h : Keeps p q) : Keeps p (wakeTaken q).1 := by
  unfold wakeTaken; split; exacts [wakeCar_keeps _ h, h]

theorem textTaken_keeps (s : Sender) (b : List Byte) (h : Keeps p q) : Keeps p (textTaken s b q).1 := by
  unfold textTaken; split
  · exact msg_keeps _ h
  · split; exacts [handRefusal_keeps _ _ _ _ (msg_keeps _ h), msg_keeps _ h]

theorem dispatch_keeps (s : Sender) (n : Nat) (b : List Byte) (h : Keeps p q) : Keeps p (dispatch s n b q).1 := by
  unfold dispatch; split
  · exact handRefusal_keeps _ _ _ _ (msg_keeps _ h)
  · split
    exacts [grantTaken_keeps _ _ h, revokeTaken_keeps _ _ h, restrictTaken_keeps _ _ h, liftTaken_keeps _ _ h, permitTaken_keeps _ _ _ h,
      withdrawTaken_keeps _ h, eStopTaken_keeps _ h, eReleaseTaken_keeps _ h, wakeTaken_keeps h, handReport_keeps h, textTaken_keeps _ _ h]

theorem linkOnly_keeps {x : Part} (h : Keeps p q) (m : Moves [.link] q x) : Keeps p x := h.trans m.whole

theorem deliver_keeps (s : Sender) (n : Nat) (act : Part → Part × MessageOutcome) (ha : ∀ r, Keeps p r → Keeps p (act r).1) (h : Keeps p q) :
    Keeps p (deliver s n act q) :=
  posted_keeps _ _ _ _ (autoStand_keeps (ha _ (linkOnly_keeps h (linkHeard_moves _ (by decide) (Moves.refl _)))))

theorem messageRow_keeps (s : Sender) (n : Nat) (act : Part → Part × MessageOutcome) (ha : ∀ r, Keeps p r → Keeps p (act r).1)
    (h : Keeps p q) : Keeps p (messageRow s n act q) := by
  unfold messageRow; split; exacts [h, deliver_keeps _ _ _ ha h]

theorem rxDrop_keeps (r : RxDrop) (h : Keeps p q) : Keeps p (rxDrop r q) := linkOnly_keeps h (rxDrop_moves _ (by decide) (Moves.refl _))

theorem frameEnds_keeps (h : Keeps p q) : Keeps p (frameEnds q) := linkOnly_keeps h (frameEnds_moves (by decide) (Moves.refl _))

theorem judgeFrame_keeps (d s n x : Byte) (body pl crc : List Byte) (h : Keeps p q) : Keeps p (judgeFrame d s n x body pl crc q) := by
  unfold judgeFrame
  repeat' split
  exacts [rxDrop_keeps _ h, rxDrop_keeps _ h, rxDrop_keeps _ h,
    linkOnly_keeps h (heard_moves _ (by decide) (rxDrop_moves _ (by decide) (Moves.refl _))), deliver_keeps _ _ _ (fun _ => dispatch_keeps _ _ _) h]

theorem completeFrame_keeps (b : List Byte) (dmg : Bool) (h : Keeps p q) : Keeps p (completeFrame b dmg q) := by
  have h1 := frameEnds_keeps h
  unfold completeFrame; simp only; split
  · exact rxDrop_keeps _ h1
  · split
    · split; exacts [judgeFrame_keeps _ _ _ _ _ _ _ h1, rxDrop_keeps _ h1]
    · exact rxDrop_keeps _ h1

theorem assemble_keeps (c : Byte) (e : Bool) (h : Keeps p q) : Keeps p (assemble c e q) := by
  have k : ∀ {x}, Moves [.link] q x → Keeps p x := linkOnly_keeps h
  have m := Moves.refl (H := [.link]) q
  unfold assemble; split
  · split; exacts [k (frameStarts_moves (by decide) m), k (noise_moves (by decide) m)]
  · repeat' split
    exacts [k (frameData_moves _ _ _ (by decide) m), k (frameData_moves _ _ _ (by decide) m),
      k (frameStarts_moves (by decide) (rxDrop_moves _ (by decide) m)), completeFrame_keeps _ _ h, link_keeps _ h,
      k (frameData_moves _ _ _ (by decide) m)]

theorem receive_keeps (c : Byte) (e : Bool) (h : Keeps p q) : Keeps p (receive c e q) := by
  unfold receive
  repeat' split
  exacts [h, h.soft (flowByte_moves _ (Moves.refl _)), linkOnly_keeps h (noise_moves (by decide) (Moves.refl _)), assemble_keeps _ _ h]

/-! ### Orders -/

theorem slotRunning_keeps (i : Fin 16) (h : Keeps p q) : Keeps p (slotRunning i q) := ord_keeps _ h

theorem judgeRun_keeps (h : Keeps p q) : Keeps p (judgeRun q).1 := by
  unfold judgeRun
  split
  · exact h
  · split
    · exact h
    · split
      · exact h
      · rename_i hv
        have hn : q.odo.validity ≠ .unknown := fun e => hv (by rw [e]; rfl)
        repeat' split
        all_goals first
          | exact h
          | exact toMode_keeps _ _ h fun _ => hn

theorem judgeStand_keeps (h : Keeps p q) : Keeps p (judgeStand q).1 := by
  unfold judgeStand; split
  · exact h
  · split
    · exact h
    · show Keeps p (if _ then _ else _)
      split; exacts [h, abortTest_keeps _ (toMode_keeps _ _ h)]

theorem judgeStable_keeps (h : Keeps p q) : Keeps p (judgeStable q).1 := by
  unfold judgeStable; repeat' split
  exacts [h, h, toMode_keeps .stabled _ h]

theorem judgeWake_keeps (h : Keeps p q) : Keeps p (judgeWake q).1 := by
  unfold judgeWake; split; exacts [h, wakeCar_keeps _ h]

theorem judgeMaintenance_keeps (h : Keeps p q) : Keeps p (judgeMaintenance q).1 := by
  unfold judgeMaintenance; repeat' split
  exacts [h, h, h, toMode_keeps .stand _ h]

theorem judgeBrakeTest_keeps (i : Fin 16) (h : Keeps p q) : Keeps p (judgeBrakeTest i q).1 := by
  unfold judgeBrakeTest; repeat' split
  all_goals first
    | exact h
    | exact beginTest_keeps (ord_keeps _ (slotRunning_keeps i h))

theorem judgeBrakeRequest_keeps (w : Vector Word 7) (h : Keeps p q) : Keeps p (judgeBrakeRequest w q).1 := by
  unfold judgeBrakeRequest; split
  · exact h
  · split; exacts [h, follow_keeps _ _ _ (by decide) h]

/-- The latch of ODOMETRY is only cleared once validity is known again (R59). -/
theorem clearOdometry_keeps (hv : q.odo.validity ≠ .unknown) (s : Stage) (c : Nat) (h : Keeps p q) : Keeps p (clearLatch .odometry s c q) := by
  have m : Moves [.unlatch] q (clearLatch .odometry s c q) := clearLatch_moves .odometry s c (by decide) (by decide) (Moves.refl _)
  exact h.trans ⟨⟨m.unlatched, fun _ _ b => absurd ((m.frame.track (by decide) (by decide)).validity.symm.trans b) hv⟩,
    m.formed (by decide) (by decide)⟩

theorem resetLatch_keeps (d : DemandSource) (hd : d ≠ .mode ∧ d ≠ .doors) (hc : conditionStands d q = false) (h : Keeps p q) :
    Keeps p (resetLatch d q) := by
  cases d <;> first | exact absurd rfl hd.1 | exact absurd rfl hd.2 | skip
  case odometry =>
    refine clearOdometry_keeps (fun e => ?_) _ _ h
    unfold conditionStands at hc; rw [e] at hc; cases hc
  case supervision => exact clearLatch_keeps _ _ _ (by decide) (by decide) (h.soft (toSupervision_moves _ (Moves.refl _)))
  case authority => exact clearLatch_keeps _ _ _ (by decide) (by decide) (aut_keeps _ h)
  case rollback =>
    have h1 : Keeps p (clearLatch .rollback .released 0 q) := clearLatch_keeps _ _ _ (by decide) (by decide) h
    exact msg_keeps _ (odo_keeps _ id h1)
  all_goals exact clearLatch_keeps _ _ _ (by decide) (by decide) h

theorem judgeResetDemand_keeps (w : Vector Word 7) (h : Keeps p q) : Keeps p (judgeResetDemand w q).1 := by
  unfold judgeResetDemand
  split
  · exact h
  · split
    · exact h
    · rename_i d hd
      have hne : d ≠ .mode ∧ d ≠ .doors := latchingSource_ne hd
      split
      · exact h
      · split
        · split <;> exact h
        · split
          · exact h
          · rename_i hc
            exact resetLatch_keeps d hne (by simpa using hc) h

theorem setPositionTaken_keeps (n : Nat) (h : Keeps p q) : Keeps p (setPositionTaken n q) := by
  unfold setPositionTaken; simp only
  exact spreadPosition_keeps _ (directRegime_asks _ (odo_keeps _ (fun e => by cases e) h)).taken

theorem judgeSetPosition_keeps (w : Vector Word 7) (h : Keeps p q) : Keeps p (judgeSetPosition w q).1 := by
  unfold judgeSetPosition; simp only; repeat' split
  exacts [h, h, h, h, setPositionTaken_keeps _ h]

theorem judgeResetEncoder_keeps (w : Vector Word 7) (h : Keeps p q) : Keeps p (judgeResetEncoder w q).1 := by
  unfold judgeResetEncoder; split
  · exact h
  · split
    · exact h
    · exact afterChange_keeps _ (settleSource_asks _ (odo_keeps _ id h))

theorem judgeActivate_keeps (i : Fin 16) (w : Vector Word 7) (h : Keeps p q) : Keeps p (judgeActivate i w q).1 := by
  unfold judgeActivate; simp only; repeat' split
  all_goals first
    | exact h
    | exact prf_keeps _ (ord_keeps _ (slotRunning_keeps i h))

theorem judgeAddRestriction_keeps (w : Vector Word 7) (h : Keeps p q) : Keeps p (judgeAddRestriction w q).1 := by
  unfold judgeAddRestriction; repeat' split
  exacts [h, h, placeRestriction_keeps _ _ h]

theorem judgeRemoveRestriction_keeps (w : Vector Word 7) (h : Keeps p q) : Keeps p (judgeRemoveRestriction w q).1 := by
  unfold judgeRemoveRestriction; simp only; repeat' split
  exacts [h, h, h, h, dropRestriction_keeps _ h]

theorem giveBack_keeps (a : Option Authority) (o : RevokeOutcome) (h : Keeps p q) : Keeps p (giveBack a o q) := by
  unfold giveBack; split; exacts [revoked_keeps _ _ _ _ _ h, h]

theorem judgeRelinquish_keeps (h : Keeps p q) : Keeps p (judgeRelinquish q).1 := by
  unfold judgeRelinquish; repeat' split
  exacts [h, h, handReport_keeps (slotsChanged_keeps (aut_keeps _ (giveBack_keeps _ _ (aut_keeps _ (giveBack_keeps _ _ (aut_keeps _ h))))))]

theorem judgeReleaseSide_keeps (w : Vector Word 7) (h : Keeps p q) : Keeps p (judgeReleaseSide w q).1 := by
  have k : ∀ s r, Keeps p (releaseSideTaken s r q) := fun s r => by
    unfold releaseSideTaken; simp only
    refine afterDoors_keeps _ (h.toDirty.trans (Dirty.trans (setSide_dirty s _ (.refl _)) (Dirty.foldl _ (fun x d => ?_) _ _)))
    split; exacts [doorTo_dirty _ _ _ (.refl _), .refl _]
  unfold judgeReleaseSide
  repeat' split
  all_goals first
    | exact h
    | exact k _ _

theorem setOpenSlot_dirty (s : Side) (x : Option (Fin 16)) (h : Dirty p q) : Dirty p (setOpenSlot s x q) := by
  cases s <;> exact h.trans (ord_keeps _ (.refl _)).toDirty

theorem setCloseSlot_dirty (s : Side) (x : Option (Fin 16)) (h : Dirty p q) : Dirty p (setCloseSlot s x q) := by
  cases s <;> exact h.trans (ord_keeps _ (.refl _)).toDirty

theorem setOpenAffected_dirty (s : Side) (m : BitVec 8) (h : Dirty p q) : Dirty p (setOpenAffected s m q) := by
  cases s <;> exact dor_dirty _ h

theorem setCloseAffected_dirty (s : Side) (m : BitVec 8) (h : Dirty p q) : Dirty p (setCloseAffected s m q) := by
  cases s <;> exact dor_dirty _ h

theorem slotRunning_dirty (i : Fin 16) (h : Dirty p q) : Dirty p (slotRunning i q) := h.trans (ord_keeps _ (.refl _)).toDirty

theorem openSideTaken_keeps (i : Fin 16) (s : Side) (h : Keeps p q) : Keeps p (openSideTaken i s q) := by
  unfold openSideTaken; simp only
  refine afterDoors_keeps _ (Dirty.trans (setOpenAffected_dirty s _ (setOpenSlot_dirty s _ (slotRunning_dirty i h.toDirty)))
    (Dirty.foldl _ (fun x d => ?_) _ _))
  split; exacts [openDoor_dirty _ (.refl _), .refl _]

theorem judgeOpenSide_keeps (i : Fin 16) (w : Vector Word 7) (h : Keeps p q) : Keeps p (judgeOpenSide i w q).1 := by
  unfold judgeOpenSide; simp only
  repeat' split
  all_goals first
    | exact h
    | exact openSideTaken_keeps _ _ h

theorem overtakeOpen_dirty (s : Side) (h : Dirty p q) : Dirty p (overtakeOpen s q) := by
  unfold overtakeOpen; split
  · exact (setOpenAffected_dirty s _ (setOpenSlot_dirty s _ h)).trans (posted_keeps _ _ _ _ (ord_keeps _ (.refl _))).toDirty
  · exact h

theorem closeAffectedDoor_dirty (d : Fin 8) (h : Dirty p q) : Dirty p (closeAffectedDoor d q) := by
  unfold closeAffectedDoor; simp only; split; exacts [closeDoor_dirty _ (dor_dirty _ h), dor_dirty _ h]

theorem closeSideTaken_keeps (i : Fin 16) (s : Side) (h : Keeps p q) : Keeps p (closeSideTaken i s q) := by
  have h1 : Dirty p (withdrawSide s .close (overtakeOpen s (setCloseSlot s (some i) (slotRunning i q)))) :=
    withdrawSide_dirty _ _ (overtakeOpen_dirty _ (setCloseSlot_dirty _ _ (slotRunning_dirty i h.toDirty)))
  unfold closeSideTaken; simp only
  exact afterDoors_keeps _ (Dirty.trans (setCloseAffected_dirty s _ h1) (Dirty.foldl _ (fun x d => closeAffectedDoor_dirty d (.refl _)) _ _))

theorem judgeCloseSide_keeps (i : Fin 16) (w : Vector Word 7) (h : Keeps p q) : Keeps p (judgeCloseSide i w q).1 := by
  unfold judgeCloseSide; repeat' split
  exacts [h, h, closeSideTaken_keeps _ _ h]

theorem judgeIsolateDoor_keeps (w : Vector Word 7) (h : Keeps p q) : Keeps p (judgeIsolateDoor w q).1 := by
  unfold judgeIsolateDoor; repeat' split
  exacts [h, h, h, h, h, afterDoors_keeps _ (doorTo_dirty _ _ _ h.toDirty)]

theorem judgeRestoreDoor_keeps (w : Vector Word 7) (h : Keeps p q) : Keeps p (judgeRestoreDoor w q).1 := by
  unfold judgeRestoreDoor; repeat' split
  exacts [h, h, h, h, h, h, afterDoors_keeps _ (doorTo_dirty _ _ _ (dor_dirty _ h.toDirty))]

theorem judgeSetDoorEvents_keeps (w : Vector Word 7) (h : Keeps p q) : Keeps p (judgeSetDoorEvents w q).1 := by
  unfold judgeSetDoorEvents; split; exacts [h, dor_keeps _ rfl h]

theorem judgeSetGuard_keeps (w : Vector Word 7) (h : Keeps p q) : Keeps p (judgeSetGuard w q).1 := by
  unfold judgeSetGuard setGuardSlot; simp only
  repeat' split
  all_goals first
    | exact h
    | exact bridge_keeps _ h

theorem judgeClearGuard_keeps (w : Vector Word 7) (h : Keeps p q) : Keeps p (judgeClearGuard w q).1 := by
  unfold judgeClearGuard setGuardSlot
  repeat' split
  exacts [h, h, h, bridge_keeps _ h]

theorem judgeTakeMessage_keeps (w : Vector Word 7) (h : Keeps p q) : Keeps p (judgeTakeMessage w q).1 := by
  unfold judgeTakeMessage
  repeat' split
  exacts [h, h, msg_keeps _ h]

theorem judgeOf_keeps (n : Nat) (i : Fin 16) (w : Vector Word 7) (h : Keeps p q) : Keeps p (judgeOf n i w q).1 := by
  unfold judgeOf; split
  exacts [judgeRun_keeps h, judgeStand_keeps h, judgeStable_keeps h, judgeWake_keeps h, judgeBrakeTest_keeps i h, judgeMaintenance_keeps h,
    judgeBrakeRequest_keeps w h, judgeResetDemand_keeps w h, judgeSetPosition_keeps w h, judgeResetEncoder_keeps w h, judgeActivate_keeps i w h,
    judgeAddRestriction_keeps w h, judgeRemoveRestriction_keeps w h, judgeRelinquish_keeps h, judgeReleaseSide_keeps w h, judgeOpenSide_keeps i w h,
    judgeCloseSide_keeps i w h, judgeIsolateDoor_keeps w h, judgeRestoreDoor_keeps w h,
    judgeSetDoorEvents_keeps w h, judgeSetGuard_keeps w h, judgeClearGuard_keeps w h, h.soft (judgeSendText_moves w (Moves.refl _)),
    judgeTakeMessage_keeps w h,
    handReport_keeps h, h]

/-! ### Host accesses -/

theorem triggerWith_keeps (n : Byte) (j : Judge) (u : Trigger) (x : Path) (hj : ∀ i w r, Keeps p r → Keeps p (j i w r).1) (h : Keeps p q) :
    Keeps p (triggerWith n j u q x).1 := by
  unfold triggerWith triggered; simp only; split
  · exact h
  · split
    · exact h
    · unfold recordJudgement; split
      exacts [ord_keeps _ (hj _ _ _ (ord_keeps _ h)), ord_keeps _ (hj _ _ _ (ord_keeps _ h)), hj _ _ _ (ord_keeps _ h)]

theorem abortActivation_keeps (h : Keeps p q) : Keeps p (abortActivation q) := by
  unfold abortActivation; split; exacts [endActivation_keeps _ _ (post_keeps _ _ (prf_keeps _ h)), h]

theorem captureSettings_keeps (w : Fin 256) (d : WriteData) (h : Keeps p q) : Keeps p (captureSettings w d q) := by
  unfold captureSettings; exact abortActivation_keeps (by split; exacts [prf_keeps _ h, h])

theorem guardedWrite_keeps (i : Fin 4) (a : BitVec 24) (d : WriteData) (x : Path) (h : Keeps p q) : Keeps p (guardedWrite i a d q x).1 := by
  have k : ∀ v n, Keeps p (guardViolation i v n q) := fun v n => post_keeps _ _ (bridge_keeps _ h)
  unfold guardedWrite; simp only; split
  · exact k _ _
  · split
    · exact h
    · split <;> exact k _ _

theorem writeArea_keeps (n : Nat) (a : BitVec 24) (d : WriteData) (x : Path) (h : Keeps p q) : Keeps p (writeArea n a d q x).1 := by
  unfold writeArea; split
  · simp only; split
    · unfold writeOrderWord; split
      · unfold writeOrderPartial; simp only; split; exacts [h, post_keeps _ _ h]
      · simp only; split
        · exact h
        · exact triggerWith_keeps _ _ _ _ (fun i w _ => judgeOf_keeps _ i w) h
    · unfold writeParameter; simp only; split; exacts [h, ord_keeps _ h]
  · split
    · unfold writeAlive; simp only; split; exacts [h, mod_keeps _ rfl h]
    · split
      · unfold writeSettings; simp only; split; exacts [h, captureSettings_keeps _ _ h]
      · split
        · unfold writeProfile; simp only; split; exacts [h, abortActivation_keeps (prf_keeps _ h)]
        · split
          · unfold writeMirror; split; exacts [h, bridge_keeps _ h]
          · exact h

theorem hostWrite_keeps (a : BitVec 24) (d : WriteData) (x : Path) (h : Keeps p q) : Keeps p (hostWrite a d q x).1 := by
  unfold hostWrite; simp only; split
  · exact h
  · split
    · exact writeArea_keeps _ _ _ _ h
    · split; exacts [guardedWrite_keeps _ _ _ _ h, h]

/-! ### The two resets -/

theorem abandonAll_keeps (h : Keeps p q) : Keeps p (abandonAll q) :=
  brk_keeps _ rfl (dor_keeps _ rfl (msg_keeps _ (link_keeps _ (odo_keeps _ id (prf_keeps _ (ord_keeps _ (bridge_keeps _ h)))))))

theorem abandonTest_keeps (h : Keeps p q) : Keeps p (abandonTest q) := by
  obtain ⟨b, m, e, _, hm, ht⟩ := abandonTest_rest q
  rw [e]
  have he : ∀ d, d ≠ .mode → d ≠ .test → ((q.withBrk b).withMod m).entry d = q.entry d := ht
  have hr : doorsRequest ((q.withBrk b).withMod m) = doorsRequest q := by
    rcases hm with hm | ⟨ht, hm⟩
    · rw [hm]; rfl
    · rw [hm]; unfold doorsRequest
      rw [show ((q.withBrk b).withMod { q.mod with mode := Mode.stand }).mod.mode = .stand from rfl, ht]; rfl
  refine h.trans ⟨⟨fun a => by rw [he _ (by decide) (by decide)]; exact a, fun hh a v => ?_⟩, fun a => a.of (he _ (by decide) (by decide)) hr⟩
  have hrun : q.mod.mode = .run := by
    rcases hm with hm | ⟨_, hm⟩
    · rw [← hm]; exact a
    · have : m.mode = .run := a
      rw [hm] at this; cases this
  obtain ⟨u, w⟩ := hh hrun v
  exact ⟨by rw [he _ (by decide) (by decide)]; exact u, by rw [he _ (by decide) (by decide)]; exact w⟩

theorem startOperation_keeps (s : Stage) (h : Keeps p q) : Keeps p (startOperation s q) := h.soft (startOperation_moves _ (Moves.refl _))

theorem releaseWarm_keeps (h : Keeps p q) : Keeps p (releaseWarm q) := by
  have k : ∀ x, Keeps p x → Keeps p (warmStart x) := fun x hx => by
    unfold warmStart warmTimers warmEvents; simp only
    exact autoStand_keeps (ssuEvaluate_keeps (autNumbers_keeps (judgeCharge_keeps (startOperation_keeps _
      (msg_keeps _ (mod_keeps _ rfl (odo_keeps _ id (post_keeps _ _ (bridge_keeps _ (evq_keeps _ (link_keeps _ (ord_keeps _ hx))))))))))))
  have w : ∀ b, Keeps p (q.withWarmLine b) := fun b => h.trans (.same rfl rfl rfl id)
  unfold releaseWarm; split
  · exact h
  · split
    · exact w _
    · have m := raiseAll_moves (H := [.evq]) q (by decide) (Moves.refl (warmStart (q.withWarmLine false)))
      exact (k _ (w _)).trans m.whole

theorem releaseCold_keeps (b : BitVec 4) (r : BitVec 2) (h : Keeps p q) : Keeps p (releaseCold b r q) := by
  unfold releaseCold; split
  · obtain ⟨d, hd⟩ : ∃ d, d = coldDefaults b r q := ⟨_, rfl⟩
    have du : (d.entry .doors).latched = false := by rw [hd]; rfl
    have dm : d.mod.mode = .stand := by rw [hd]; rfl
    have dc : d.charging = true := by rw [hd]; rfl
    simp only [← hd]
    obtain ⟨x, hx⟩ : ∃ x, x = allDoors.foldl (fun x d => coldDoorFault d x) (postAt .coldStart (arg2 d.bridge.base.toNat d.link.bitRate.toNat) 0 true d) :=
      ⟨_, rfl⟩
    have kx : Keeps d x := by
      rw [hx]
      refine Keeps.foldl' _ (fun r d hr => ?_) _ (posted_keeps _ _ _ _ (.refl _))
      unfold coldDoorFault; split; exacts [post_keeps _ _ hr, hr]
    have f : DoorsFormed (formDoors x) := formDoors_formed (kx.unlatched du)
    have ks : Keeps (formDoors x) (coldStart d) := by
      unfold coldStart; simp only [← hx]
      refine ssuEvaluate_keeps (autNumbers_keeps ?_)
      split; exacts [mod_keeps _ rfl (.refl _), startOperation_keeps _ (mod_keeps _ rfl (.refl _))]
    have m : Moves [.silence, .charge] d (raiseChanged d (coldStart d)) :=
      raiseChanged_moves _ (coldStart_moves (by decide) (by decide) dc (Moves.refl _))
    have fs : DoorsFormed (raiseChanged d (coldStart d)) := (ks.soft (raiseChanged_moves _ (Moves.refl _))).formed f
    exact ⟨⟨fun _ => fs.1, fun _ a => absurd ((m.frame.mode (by decide)).symm.trans a) (by rw [dm]; decide)⟩, fun _ => fs⟩
  · exact h

/-! ### Every command -/

/-- Every command keeps both laws. -/
theorem exec_wholes (c : Instr) (s t : State) (h : exec c s = .next t) : Keeps s.part t.part := by
  have r := Keeps.refl s.part
  have pr : ∀ f, partRow f s = .next t → Keeps s.part (f s.part) → Keeps s.part t.part := fun f e k => by cases e; exact finish_keeps _ k
  have hr : ∀ f, hostRow f s = .next t → Keeps s.part (f s.part s.path).1 → Keeps s.part t.part := fun f e k => by cases e; exact finish_keeps _ k
  have lv : ∀ f, Keeps s.part (f s.part) → Keeps s.part (live f s.part) := fun f k => by unfold live; split; exacts [r, k]
  have tr : ∀ n j u, hostRow (triggerWith n j u) s = .next t → (∀ i w x, Keeps s.part x → Keeps s.part (j i w x).1) → Keeps s.part t.part :=
    fun n j u e k => hr _ e (triggerWith_keeps _ _ _ _ k r)
  have plain : chained c = true → (∀ g ∈ ([.doors, .mode, .odo, .track, .unlatch] : List Group), g ∉ Safety.mayChange c) → Keeps s.part t.part :=
    fun hc hg => by
      obtain ⟨⟨q, hq, e⟩, _⟩ := exec_moves c s t hc h
      rw [e]; exact finish_keeps _ (hq.whole hg)
  cases c
  case encoderStep e l => exact pr _ h (encoderLines_keeps _ _ r)
  case speedWindowTick => exact pr _ h (lv _ (windowTick_keeps (r.trans (.same rfl rfl rfl id))))
  case standstillTimerExpiry => exact pr _ h (standstillExpiry_keeps r)
  case indexPulse x => exact pr _ h (lv _ (indexPulse_keeps _ r))
  case datumRisingEdge => exact pr _ h (datumRise_keeps r)
  case datumFallingEdge => exact pr _ h (lv _ (datumFall_keeps r))
  case copyCompletion => exact pr _ h (lv _ (copyCompleted_keeps r))
  case brakeFeedbackChange sw b => exact pr _ h (feedbackChange_keeps _ _ r)
  case applyingDeadlineExpiry => exact pr _ h (applyingExpiry_keeps r)
  case releasingDeadlineExpiry => exact pr _ h (releasingExpiry_keeps r)
  case testHoldEnd => exact pr _ h (holdEnd_keeps r)
  case crewKeyEdge l => exact pr _ h (crewKeyLevel_keeps _ r)
  case doorClEdge d b => exact pr _ h (doorLevel_keeps _ _ _ r)
  case doorFoEdge d b => exact pr _ h (doorLevel_keeps _ _ _ r)
  case doorObEdge d b => exact pr _ h (doorLevel_keeps _ _ _ r)
  case doorPbEdge d b => exact pr _ h (doorLevel_keeps _ _ _ r)
  case doorEhEdge d b => exact pr _ h (doorLevel_keeps _ _ _ r)
  case motionTimerExpiry d => exact pr _ h (lv _ (motionExpiry_keeps _ r))
  case permitLifetimeExpiry i => exact pr _ h (lv _ (permitExpiry_keeps _ r))
  case rxCharacter a b d => exact pr _ h (receive_keeps _ _ r)
  case linkTimerExpiry => exact pr _ h (lv _ (linkExpiry_keeps r))
  case grant src id start stop dir cap => exact pr _ h (messageRow_keeps _ _ _ (fun _ => grantTaken_keeps _ _) r)
  case revoke src id point => exact pr _ h (messageRow_keeps _ _ _ (fun _ => revokeTaken_keeps _ _) r)
  case restrict src id start stop limit dirs => exact pr _ h (messageRow_keeps _ _ _ (fun _ => restrictTaken_keeps _ _) r)
  case lift src id => exact pr _ h (messageRow_keeps _ _ _ (fun _ => liftTaken_keeps _ _) r)
  case permit src a b => exact pr _ h (messageRow_keeps _ _ _ (fun _ => permitTaken_keeps _ _ _) r)
  case withdraw src a => exact pr _ h (messageRow_keeps _ _ _ (fun _ => withdrawTaken_keeps _) r)
  case eStop src => exact pr _ h (messageRow_keeps _ _ _ (fun _ => eStopTaken_keeps _) r)
  case eRelease src => exact pr _ h (messageRow_keeps _ _ _ (fun _ => eReleaseTaken_keeps _) r)
  case wakeMessage src => exact pr _ h (messageRow_keeps _ _ _ (fun _ => wakeTaken_keeps) r)
  case poll src => exact pr _ h (messageRow_keeps _ _ _ (fun _ => handReport_keeps) r)
  case text src b => exact pr _ h (messageRow_keeps _ _ _ (fun _ => textTaken_keeps _ _) r)
  case guardedWrite a d => exact hr _ h (hostWrite_keeps _ _ _ r)
  case ordinaryWrite a d => exact hr _ h (hostWrite_keeps _ _ _ r)
  case run u => exact tr _ _ _ h fun i w _ => judgeOf_keeps 1 i w
  case stand u => exact tr _ _ _ h fun i w _ => judgeOf_keeps 2 i w
  case stable u => exact tr _ _ _ h fun i w _ => judgeOf_keeps 3 i w
  case wake u => exact tr _ _ _ h fun i w _ => judgeOf_keeps 4 i w
  case brakeTest u => exact tr _ _ _ h fun i w _ => judgeOf_keeps 5 i w
  case maintenanceRelease u => exact tr _ _ _ h fun i w _ => judgeOf_keeps 6 i w
  case brakeRequest u => exact tr _ _ _ h fun i w _ => judgeOf_keeps 7 i w
  case resetDemand u => exact tr _ _ _ h fun i w _ => judgeOf_keeps 8 i w
  case setPosition u => exact tr _ _ _ h fun i w _ => judgeOf_keeps 9 i w
  case resetEncoder u => exact tr _ _ _ h fun i w _ => judgeOf_keeps 10 i w
  case releaseSide u => exact tr _ _ _ h fun i w _ => judgeOf_keeps 15 i w
  case openSide u => exact tr _ _ _ h fun i w _ => judgeOf_keeps 16 i w
  case closeSide u => exact tr _ _ _ h fun i w _ => judgeOf_keeps 17 i w
  case isolateDoor u => exact tr _ _ _ h fun i w _ => judgeOf_keeps 18 i w
  case restoreDoor u => exact tr _ _ _ h fun i w _ => judgeOf_keeps 19 i w
  case coldResetAssert =>
    refine pr _ h ?_
    unfold assertCold; split; exacts [r, abandonTest_keeps (abandonAll_keeps (r.trans (.same rfl rfl rfl id)))]
  case coldResetRelease b x => cases h; exact releaseCold_keeps _ _ r
  case warmResetAssert =>
    refine pr _ h ?_
    unfold assertWarm; split
    · exact r.trans (.same rfl rfl rfl id)
    · exact abandonTest_keeps (abandonAll_keeps (r.trans (.same rfl rfl rfl id)))
  case warmResetRelease => cases h; exact releaseWarm_keeps r
  all_goals refine plain rfl ?_; dsimp only [Safety.mayChange]; decide

/-- What a host read does keeps both laws. -/
theorem takeRead_wholes (x : HostRead) (s t : State) (h : takeRead x s = .next t) : Keeps s.part t.part := by
  obtain ⟨⟨q, hq, e⟩, _⟩ := takeRead_moves x s t h
  rw [e]; exact finish_keeps _ hq.whole

/-! ### The laws of Safety.lean -/

theorem doorsFormed_iff (h : (p.entry .doors).latched = false) : Safety.doorsFormed p ↔ DoorsFormed p := by
  have shut : p.doorsShut = true ↔ Safety.doorsShut p := by
    have hs : ∀ s : DoorState, s.shut = true ↔ s = .locked ∨ s = .isolated := by intro s; cases s <;> decide
    unfold Part.doorsShut Safety.doorsShut
    rw [List.all_eq_true]
    exact ⟨fun a d => (hs _).1 (a d (mem_allDoors d)), fun a d _ => (hs _).2 (a d)⟩
  have any : (allDoors.any fun d => (p.door d).state == .faulted) = true ↔ ∃ d : Fin 8, (p.door d).state = .faulted := by
    rw [List.any_eq_true]
    exact ⟨fun ⟨d, _, e⟩ => ⟨d, eq_of_beq e⟩, fun ⟨d, e⟩ => ⟨d, mem_allDoors d, beq_iff_eq.2 e⟩⟩
  unfold Safety.doorsFormed DoorsFormed formedEntry
  simp only [h, true_and]
  by_cases hm : p.mod.mode = .run
  · by_cases hf : ∃ d : Fin 8, (p.door d).state = .faulted
    · have e : doorsRequest p = (.s3, 1) := by unfold doorsRequest; rw [hm, any.2 hf]; rfl
      rw [e]
      exact ⟨fun a => a.1 hm hf, fun a => ⟨fun _ _ => a, fun _ n => (hf.elim fun d x => n d x).elim, fun n => absurd hm n, fun n => absurd hm n⟩⟩
    · have e : doorsRequest p = (.released, 0) := by
        unfold doorsRequest; rw [hm, Bool.eq_false_iff.2 fun x => hf (any.1 x)]; rfl
      rw [e]
      have hf' : ∀ d : Fin 8, (p.door d).state ≠ .faulted := fun d x => hf ⟨d, x⟩
      exact ⟨fun a => a.2.1 hm hf', fun a => ⟨fun _ x => absurd x hf, fun _ _ => a, fun n => absurd hm n, fun n => absurd hm n⟩⟩
  · have hb : (p.mod.mode == .run) = false := beq_eq_false_iff_ne.2 hm
    by_cases hf : Safety.doorsShut p
    · have e : doorsRequest p = (.released, 0) := by unfold doorsRequest; rw [hb, shut.2 hf]; rfl
      rw [e]
      exact ⟨fun a => a.2.2.2 hm hf, fun a => ⟨fun x => absurd x hm, fun x => absurd x hm, fun _ n => absurd hf n, fun _ _ => a⟩⟩
    · have e : doorsRequest p = (.s2, 2) := by
        unfold doorsRequest; rw [hb, Bool.eq_false_iff.2 fun x => hf (shut.1 x)]; rfl
      rw [e]
      exact ⟨fun a => a.2.2.1 hm hf, fun a => ⟨fun x => absurd x hm, fun x => absurd x hm, fun _ _ => a, fun _ n => absurd n hf⟩⟩

theorem lostHeld_iff : Safety.lostHeld p ↔ LostHeld p := by
  unfold Safety.lostHeld LostHeld Safety.latchedAt
  constructor
  · intro h a b; obtain ⟨x, y⟩ := h a b; exact ⟨x, by rw [y]⟩
  · intro h a b; obtain ⟨x, y⟩ := h a b; exact ⟨x, emergency_of y⟩

/-- The laws of Safety.lean: those that every atomic change keeps, and the two that a change keeps as a whole. -/
theorem lawful_iff : Safety.lawful p ↔ Good p ∧ DoorsFormed p ∧ LostHeld p := by
  have hq : ∀ s : DoorState, s.quiet = true ↔ s = .locked ∨ s = .faulted ∨ s = .isolated := by intro s; cases s <;> decide
  constructor
  · intro ⟨h1, h2, h3, h4, h5, h6, h7, h8, h9, h10, h11, h12, h13, h14⟩
    exact ⟨⟨h1, h2, h3, ⟨h4, h5.2⟩, h5.1, h6, h7, h8, h9, fun a b d => (hq _).2 (h10 a b d), h11, h12⟩,
      (doorsFormed_iff (h11 .doors rfl)).1 h13, lostHeld_iff.1 h14⟩
  · intro ⟨g, f, l⟩
    exact ⟨g.evq, g.brk, g.mode, g.link.1, ⟨g.msg, g.link.2⟩, g.ssu, g.permits, g.aut, g.run,
      fun h1 h2 d => (hq _).1 (g.doors h1 h2 d), g.never, g.ord, (doorsFormed_iff f.1).2 f, lostHeld_iff.2 l⟩

end Sys2Proof.Machine
end

