-- ==== Sys2Proof/Tests/Slice0.lean ====
section
/-! SUPPORT. Tests: the checks of WellFormed, a few commands run on small states, and for every statement of Obligations.lean with
hypotheses a concrete state and operands that meet them, at the boundaries of its clauses. -/

namespace Sys2Proof.Tests

open Sys2Proof Sys2Proof.Machine

set_option maxRecDepth 100000
set_option Elab.async false

/-! ### Small states -/

/-- The reset state with its part changed. -/
def on (f : Part → Part) : State := { State.reset with part := f State.reset.part }

/-- The state after a command. -/
def after (s : State) (c : Instr) : State :=
  match exec c s with
  | .next t => t
  | _ => s

def atSlot (i : Fin 16) : Trigger := ⟨i, 7, 0⟩

def station (n : Nat) : Sender := ⟨BitVec.ofNat 8 n, 9⟩

def full (n : Nat) : WriteData := ⟨BitVec.ofNat 32 n, 0xF#4⟩

/-- Parameter words of slot 0. -/
def asks (l : List Nat) (p : Part) : Part :=
  p.withOrd { p.ord with shadows := p.ord.shadows.set 0 (Vector.ofFn fun i : Fin 7 => BitVec.ofNat 32 (l[i.val]?.getD 0)) }

def mode (m : Mode) (p : Part) : Part := p.withMod { p.mod with mode := m }

def warm (p : Part) : Part := p.withWarmLine true

def cold (p : Part) : Part := p.withColdLine true

def halted (p : Part) : Part := p.withOdo { p.odo with standstill := true }

def entryAt (d : DemandSource) (s : Stage) (latched : Bool) (p : Part) : Part :=
  p.withBrk { p.brk with table := p.brk.table.set d.index { Entry.clear with stage := s, latched := latched, cause := 1 } }

/-- A segment record: start, regime, no-stop, gradient, limits, side, id, station control, method, window start, K, window end, datum
window and position. -/
def seg (start regime noStop grad up down side id sc method ws k we win datum : Nat) : SegRec :=
  ⟨BitVec.ofNat 32 start, BitVec.ofNat 32 (regime + 256 * noStop + 65536 * grad), BitVec.ofNat 32 (up + 65536 * down),
   BitVec.ofNat 32 (side + 256 * id + 65536 * sc + 16777216 * method), BitVec.ofNat 32 (ws + 16777216 * k),
   BitVec.ofNat 32 (we + 16777216 * win), BitVec.ofNat 32 datum⟩

/-- One segment of one regime with a platform on both sides and a datum of a method at 0. -/
def route (regime noStop method k : Nat) (p : Part) : Part :=
  p.withPrf { p.prf with active := [seg 0 regime noStop 0 400 400 3 5 1 method 0 k 500 4 0] }

def placed (v : Validity) (p : Part) : Part := p.withOdo { p.odo with validity := v, segment := some 0 }

def setDoorRec (d : Fin 8) (f : Door → Door) (p : Part) : Part := p.withDor { p.dor with doors := p.dor.doors.set d (f p.dor.doors[d]) }

def present (p : Part) : Part := p.withLink { p.link with cd := true }

def frame (c : TxClass) : TxFrame := ⟨c, 0, 16, [], none⟩

/-! ### WellFormed: a good term and an ill-formed one for each check -/

theorem test_wf_station_low : (Instr.poll (station 1)).wf = true ∧ (Instr.poll (station 0)).wf = false := by decide
theorem test_wf_station_high : (Instr.poll (station 30)).wf = true ∧ (Instr.poll (station 31)).wf = false := by decide
theorem test_wf_every_message :
    ∀ c ∈ [Instr.grant (station 0) 1 0 1 1 1, .revoke (station 31) 1 0, .restrict (station 0) 1 0 1 1 1, .lift (station 31) 1, .permit (station 0) 1 1,
      .withdraw (station 31) 1, .eStop (station 0), .eRelease (station 31), .wakeMessage (station 0), .text (station 31) [0x41#8]], c.wf = false := by decide
theorem test_wf_text : (Instr.text (station 1) [0x41#8]).wf = true ∧ (Instr.text (station 1) (List.replicate 48 0x41#8)).wf = true := by decide
theorem test_wf_text_ill : (Instr.text (station 1) []).wf = false ∧ (Instr.text (station 1) (List.replicate 49 0x41#8)).wf = false := by decide
theorem test_wf_kind : (Instr.unknownKindTrigger 26 (atSlot 0)).wf = true ∧ (Instr.unknownKindTrigger 25 (atSlot 0)).wf = false := by decide
theorem test_wf_partial : (Instr.orderWordPartialWrite 0 ⟨0, 0x7#4⟩).wf = true ∧ (Instr.orderWordPartialWrite 0 ⟨0, 0xF#4⟩).wf = false := by decide
theorem test_wf_guarded : (Instr.guardedWrite 4 (full 0)).wf = true ∧ (Instr.guardedWrite 6 (full 0)).wf = false := by decide
theorem test_wf_ordinary : (Instr.ordinaryWrite 0xFFFFFC (full 0)).wf = true ∧ (Instr.ordinaryWrite 0xFFFFFF (full 0)).wf = false := by decide

/-! ### Commands on small states -/

theorem test_cold_reset_gives_reset : after (after State.reset .coldResetAssert) (.coldResetRelease 0 0) = State.reset := by decide +kernel
theorem test_tick : (after State.reset .speedWindowTick).part.now = 1 := by decide +kernel
theorem test_encoder_counts_down : (after State.reset (.encoderStep .w 2)).part.odo.w.tally = 0xFFFFFFFF#32 := by decide +kernel
theorem test_encoder_illegal : (after State.reset (.encoderStep .p1 3)).part.odo.p1.faulted = true := by decide +kernel
theorem test_run_refused : ((after State.reset (.run (atSlot 0))).part.ord.slots[0]).reason = .noProfile := by decide +kernel
theorem test_stable : (after State.reset (.stable (atSlot 3))).part.mod.mode = .stabled := by decide +kernel
theorem test_stable_order_word : (after State.reset (.stable (atSlot 3))).path.access = some ⟨false, 0x60, 0x00010703#32, 0xF#4⟩ := by decide +kernel
theorem test_busy_slot :
    (after (on fun p => p.withOrd { p.ord with slots := p.ord.slots.set 0 { Slot.free with state := .running, kind := 5 } }) (.run (atSlot 0))).path.access
      = some ⟨false, 0, 0x02020701#32, 0xF#4⟩ := by decide +kernel
theorem test_door_fault : ((after State.reset (.doorClEdge 7 false)).part.door 7).state = .faulted := by decide +kernel
theorem test_permit : (after State.reset (.permit (station 1) 63 3)).part.dor.permits = [⟨63, true, true, 0⟩] := by decide +kernel
theorem test_e_stop : (after State.reset (.eStop (station 30))).part.brk.commanded = .emergency := by decide +kernel
theorem test_text : ((after State.reset (.text (station 2) [0x48#8])).part.msg.mailbox.map Message.bytes) = [[0x48#8]] := by decide +kernel
theorem test_poll : (after State.reset (.poll (station 2))).part.link.state = .keyUp := by decide +kernel
theorem test_crc_check_value : crc16 [0x31#8, 0x32#8, 0x33#8, 0x34#8, 0x35#8, 0x36#8, 0x37#8, 0x38#8, 0x39#8] = 0x29B1#16 := by decide +kernel
theorem test_head_pops : (after State.reset (.eventHeadPop 0xF)).part.evq.queue = [] := by decide +kernel
theorem test_memory_ready :
    (after { State.reset with path := { State.reset.path with access := some ⟨false, 4, 0x11223344#32, 0x5#4⟩ } } (.memoryReady 0)).path.mem = [(4, 0x44#8), (6, 0x22#8)] := by
  decide +kernel
theorem test_mirror_write_dropped : (after State.reset (.mirrorWrite 0 (full 1))).part.bridge.dropped = 1 := by decide +kernel
theorem test_alive : (after (on fun p => p.withMod { p.mod with hostSilent := true }) (.aliveWrite (full 0))).part.mod.hostSilent = false := by decide +kernel
theorem test_idle : step State.reset = .next State.reset := rfl

/-! ### Witnesses: the laws and the frames -/

/-- The laws, of a part that differs from the reset state in its odometry, its time, its mode, its brake, its doors and CURRENT only. -/
theorem lawful_of (p : Part) (h : p.evq = State.reset.part.evq ∧ p.link = State.reset.part.link ∧ p.msg = State.reset.part.msg ∧ p.ssu = State.reset.part.ssu
    ∧ p.dor.permits = [] ∧ p.aut.next = none ∧ p.ord = Ord.cold)
    (hc : Safety.commandedHighest p) (hm : Safety.modeEntry p) (hr : Safety.runHeld p) (hd : Safety.doorsQuiet p) (hn : Safety.neverLatched p)
    (hf : Safety.doorsFormed p) (hl : Safety.lostHeld p) : Safety.lawful p := by
  obtain ⟨h1, h2, h3, h4, h5, h6, h7⟩ := h
  refine ⟨?_, hc, hm, ?_, ?_, ?_, ?_, ?_, hr, hd, hn, ?_, hf, hl⟩
  · unfold Safety.eventQueue; rw [h1]; exact ⟨by decide, rfl⟩
  · unfold Safety.pttStates; rw [h2]; exact fun h => by cases h
  · unfold Safety.queues; rw [h2, h3]; exact ⟨by decide, by decide, trivial, by decide⟩
  · unfold Safety.restrictions; rw [h4]; exact ⟨by decide, trivial, by decide⟩
  · unfold Safety.permits; rw [h5]; exact ⟨by decide, by decide⟩
  · unfold Safety.slotsContiguous; rw [h6]; exact fun _ h => by cases h
  · rw [h7]; exact cold_bookkeeping

/-- The laws of the brake and the doors, of a part that is not in RUN and whose doors are all LOCKED. -/
theorem lawful_locked (p : Part) (h : p.evq = State.reset.part.evq ∧ p.link = State.reset.part.link ∧ p.msg = State.reset.part.msg ∧ p.ssu = State.reset.part.ssu
    ∧ p.dor = State.reset.part.dor ∧ p.aut.next = none ∧ p.ord = Ord.cold) (hc : Safety.commandedHighest p) (hm : Safety.modeEntry p) (hr : p.mod.mode ≠ .run)
    (hn : Safety.neverLatched p) (he : p.entry .doors = Entry.clear) : Safety.lawful p := by
  have hd : ∀ d : Fin 8, (p.door d).state = .locked := by unfold Part.door; rw [h.2.2.2.2.1]; decide
  refine lawful_of p ⟨h.1, h.2.1, h.2.2.1, h.2.2.2.1, by rw [h.2.2.2.2.1]; rfl, h.2.2.2.2.2.1, h.2.2.2.2.2.2⟩ hc hm (fun x => absurd x hr)
    (fun _ _ d => .inl (hd d)) hn ?_ (fun x => absurd x hr)
  exact ⟨fun x => absurd x hr, fun x => absurd x hr, fun _ x => absurd (fun d => .inl (hd d)) x, fun _ _ => by rw [he]; exact ⟨rfl, rfl⟩⟩

def stabledCar : State := on (mode .stabled)
def lockedOut : State := on fun p => mode .lockout (entryAt .mode .emergency false (p.withBrk { p.brk with commanded := .emergency }))

/-- RUN with door 0 FAULTED and the position lost. -/
def lostCar : State := on fun p => entryAt .doors .s3 false (entryAt .odometry .emergency true (entryAt .mode .released false
  (mode .run (setDoorRec 0 (fun r => { r with state := .faulted }) (p.withBrk { p.brk with commanded := .emergency }
    |>.withAut { p.aut with current := some ⟨1, 1, 0, 100, .up, 400⟩ })))))

/-- STAND with door 7 in a state. -/
def openCar (s : DoorState) : State := on fun p => p.withDor { p.dor with doors := p.dor.doors.set 7 { p.dor.doors[7] with state := s } }
  |>.withBrk { p.brk with table := p.brk.table.set DemandSource.doors.index { Entry.clear with stage := .s2, cause := 2 } }

theorem lawful_stabled : Safety.lawful stabledCar.part ∧ stabledCar.part.mod.mode = .stabled :=
  ⟨lawful_locked _ ⟨rfl, rfl, rfl, rfl, rfl, rfl, rfl⟩ rfl ⟨rfl, rfl⟩ (by decide) (by intro d; cases d <;> decide) rfl, rfl⟩

theorem lawful_lockout : Safety.lawful lockedOut.part ∧ lockedOut.part.mod.mode = .lockout :=
  ⟨lawful_locked _ ⟨rfl, rfl, rfl, rfl, rfl, rfl, rfl⟩ rfl ⟨rfl, rfl⟩ (by decide) (by intro d; cases d <;> decide) rfl, rfl⟩

theorem lawful_lost : Safety.lawful lostCar.part :=
  lawful_of _ ⟨rfl, rfl, rfl, rfl, rfl, rfl, rfl⟩ rfl ⟨rfl, rfl⟩ (fun _ => rfl) (fun _ _ d => by revert d; decide) (by intro d; cases d <;> decide)
    ⟨fun _ _ => ⟨rfl, rfl⟩, fun _ h => absurd rfl (h 0), fun h => absurd rfl h, fun h => absurd rfl h⟩ fun _ _ => ⟨rfl, rfl⟩

theorem lawful_open (s : DoorState) (h : s = .released ∨ s = .reopening) : Safety.lawful (openCar s).part := by
  have hm : (openCar s).part.mod.mode = .stand := rfl
  have hr : (openCar s).part.mod.mode ≠ .run := by rw [hm]; decide
  refine lawful_of _ ⟨rfl, rfl, rfl, rfl, rfl, rfl, rfl⟩ rfl ⟨rfl, rfl⟩ (fun x => absurd x hr) (fun x => absurd hm x) (by rcases h with rfl | rfl <;> (intro d; cases d <;> decide))
    ⟨fun x => absurd x hr, fun x => absurd x hr, fun _ _ => ⟨rfl, rfl⟩, fun _ x => ?_⟩ (fun x => absurd x hr)
  have e : ((openCar s).part.door 7).state = s := rfl
  rcases h with rfl | rfl <;> (have y := x 7; rw [e] at y; revert y; decide)

theorem witness_StepRunsFrontCommand :
    (let s := { State.reset with reads := [⟨0xFFFFFF, 0x1#4⟩] }; s.pending = [] ∧ s.reads = ⟨0xFFFFFF, 0x1#4⟩ :: [])
    ∧ State.reset.pending = [] ∧ State.reset.reads = [] := ⟨⟨rfl, rfl⟩, rfl, rfl⟩
theorem witness_LawfulKept :
    Safety.lawful { stabledCar with pending := [.crewKeyEdge true] }.part ∧ ∃ t, step { stabledCar with pending := [.crewKeyEdge true] } = .next t :=
  ⟨lawful_stabled.1, _, rfl⟩
theorem witness_MemoryCanonicalKept :
    let s := { State.reset with path := { State.reset.path with mem := [(0, 1#8), (0xFFFFFF, 2#8)] }, pending := [.memoryTimeout] }
    Safety.memory s ∧ ∃ t, step s = .next t := ⟨by show Memory.wf _ = true; decide, _, rfl⟩
theorem witness_ReturnToStandDone :
    let s := { on (fun p => mode .run (halted p)) with pending := [.crewKeyEdge true] }
    Safety.standDone s.part ∧ ∃ t, step s = .next t := ⟨by show ¬ _; decide, _, rfl⟩
theorem witness_LawsHoldTheBrake :
    (Safety.lawful stabledCar.part ∧ stabledCar.part.mod.mode = .stabled) ∧ (Safety.lawful lockedOut.part ∧ lockedOut.part.mod.mode = .lockout)
    ∧ (Safety.lawful lostCar.part ∧ lostCar.part.mod.mode = .run ∧ (lostCar.part.door 0).state = .faulted ∧ lostCar.part.odo.validity = .unknown)
    ∧ (Safety.lawful (openCar .released).part ∧ ((openCar .released).part.door 7).state = .released)
    ∧ Safety.lawful (openCar .reopening).part ∧ ((openCar .reopening).part.door 7).state = .reopening :=
  ⟨lawful_stabled, lawful_lockout, ⟨lawful_lost, rfl, rfl, rfl⟩, ⟨lawful_open _ (.inl rfl), rfl⟩, lawful_open _ (.inr rfl), rfl⟩
/-- Door 7 has its CL open at the assertion, and the band contact reads either way. -/
theorem witness_ColdResetRestores (b : Bool) :
    let s := on fun p => setDoorRec 7 (fun r => { r with cl := false }) (p.withBrk { p.brk with inputs := { p.brk.inputs with band := b } })
    s.part.coldLine = false ∧ s.part.warmLine = false ∧ (s.part.door 7).cl = false ∧ (s.part.door 0).cl = true ∧ s.part.brk.inputs.band = b
    ∧ Safety.unlocked s.part = [7] ∧ Safety.unlocked State.reset.part = [] := by cases b <;> decide
theorem witness_WarmResetKeeps :
    let s := on fun p => halted (entryAt .radio .emergency true p)
    s.part.coldLine = false ∧ s.part.warmLine = false ∧ (s.part.entry .radio).latched = true ∧ s.part.mod.mode ≠ .run ∧ s.part.mod.mode ≠ .test := by decide

theorem witness_WarmResetKeeps_test :
    let s := on fun p => mode .test (halted (p.withBrk { p.brk with test := some ⟨4, 0, some 0⟩ }))
    let r := on fun p => mode .run (entryAt .radio .emergency true p)
    (s.part.coldLine = false ∧ s.part.warmLine = false ∧ Safety.standDone s.part ∧ s.part.brk.test = some ⟨4, 0, some 0⟩ ∧ s.part.mod.mode = .test)
    ∧ (r.part.coldLine = false ∧ r.part.warmLine = false ∧ Safety.standDone r.part ∧ r.part.brk.test = none ∧ r.part.mod.mode = .run)
    ∧ (Safety.standDone (on (mode .run)).part ∧ Safety.standDone (on fun p => mode .run (halted p)).part ∧ Safety.standDone stabledCar.part) :=
  ⟨⟨rfl, rfl, by show ¬ _; decide, rfl, rfl⟩, ⟨rfl, rfl, by show ¬ _; decide, rfl, rfl⟩, by show ¬ _; decide, by show ¬ _; decide, by show ¬ _; decide⟩

theorem witness_ResetHoldsOff :
    (Safety.standDone (on warm).part ∧ (on warm).part.asserted = true ∧ Safety.heldByReset .pause = true ∧ Safety.heldByReset (.eStop (station 30)) = true)
    ∧ (Safety.standDone (on cold).part ∧ (on cold).part.coldLine = true ∧ Safety.heldByCold .linkTimerExpiry = true)
    ∧ Safety.messageOf (.poll (station 31)) = some (station 31, 10) ∧ (station 31).wf = false :=
  ⟨⟨by show ¬ _; decide, rfl, rfl, rfl⟩, ⟨by show ¬ _; decide, rfl, rfl⟩, rfl, rfl⟩

/-- A write of 0x100 waits for memory: the bytes just outside its word. -/
theorem witness_MemoryFrame :
    let x : Access := ⟨false, 0x100, 0, 0xF#4⟩
    let s := { State.reset with path := { State.reset.path with access := some x } }
    (∃ t, exec .memoryTimeout s = .next t) ∧ (∃ t, exec .pause s = .next t) ∧ Safety.hostAccess .pause = false
    ∧ (s.path.access = some x ∧ x.isRead = false ∧ 0xFF < x.addr.toNat ∧ x.addr.toNat + 4 ≤ 0x104) := ⟨⟨_, rfl⟩, ⟨_, rfl⟩, rfl, rfl, rfl, by decide, by decide⟩
/-- A command that no group names: every clause of the frames holds its premise. -/
theorem witness_Frames :
    let s := on (entryAt .radio .s3 true)
    (∃ t, exec .deferTimerExpiry s = .next t) ∧ Safety.mayChange .deferTimerExpiry = [] ∧ (∀ b r, Instr.deferTimerExpiry ≠ .coldResetRelease b r)
    ∧ Safety.bookkeeping s.part.ord ∧ (s.part.ord.slots[(0 : Fin 16)]).state ≠ .running ∧ (s.part.entry .radio).latched = true :=
  ⟨⟨_, rfl⟩, rfl, (fun _ _ h => by cases h), cold_bookkeeping, by decide, rfl⟩

/-! ### Witnesses: odometry and the profile -/

theorem witness_EncodersCountAndFault_up :
    let s := on fun p => placed .provisional (p.withOdo { p.odo with source := .w, p1 := ⟨0xFFFFFFFF#32, false, 2⟩ })
    s.part.coldLine = false ∧ s.part.asserted = false ∧ (s.part.odo.enc .p1).faulted = false ∧ Safety.follows (s.part.odo.enc .p1).quad 0 .up
    ∧ (s.part.odo.enc .w).faulted = false ∧ Safety.follows (s.part.odo.enc .w).quad 2 .down ∧ s.part.odo.motion = some .w ∧ s.part.odo.motion ≠ some .p1
    ∧ s.part.odo.source.encoder? = some .w ∧ s.part.odo.source.encoder? ≠ some .p1 ∧ s.part.odo.validity ≠ .unknown := by
  refine ⟨rfl, rfl, rfl, ?_, rfl, ?_, rfl, by decide, rfl, by decide, by decide⟩ <;> simp [Safety.follows, on, placed] <;> decide
theorem witness_EncodersCountAndFault_both :
    (State.reset.part.coldLine = false ∧ (State.reset.part.odo.enc .p2).faulted = false ∧ (3 : BitVec 2) = ~~~(State.reset.part.odo.enc .p2).quad)
    ∧ ((on fun p => p.withOdo { p.odo with w := ⟨0, true, 0⟩ }).part.odo.enc .w).faulted = true
    ∧ Safety.standDone (on fun p => p.withOdo { p.odo with w := ⟨0, true, 0⟩ }).part ∧ (on cold).part.coldLine = true ∧ Safety.standDone (on cold).part :=
  ⟨by decide, rfl, by show ¬ _; decide, rfl, by show ¬ _; decide⟩

/-- A car on a route of two segments that meet at tooth 100. -/
def meeting (first second i pos : Nat) (x : Source) (r : Regime) (f : Odo → Odo) : State :=
  on fun p => (p.withPrf { p.prf with active := [seg 0 first 0 0 400 400 0 0 0 0 0 0 0 0 0, seg 100 second 0 0 400 400 0 0 0 0 0 0 0 0 0] }).withOdo
    (f { p.odo with validity := .confirmed, segment := some i, pos := BitVec.ofNat 32 pos, source := x, regime := r })

abbrev reaches (s : State) (e : Encoder) (levels : BitVec 2) (j : Option Nat) : Prop :=
  segmentIndex (after s (.encoderStep e levels)).part.odo.pos.toInt s.part.prf.active = j

theorem witness_EncodersCountAndFault_crosses :
    let plain := meeting 2 2 0 1599 .w .adhesion id
    let into := meeting 2 1 0 1599 .w .adhesion fun o => { o with p2 := ⟨0, true, 0⟩ }
    let out := meeting 2 1 1 1600 .p1 .rack id
    let lost := meeting 2 1 1 1600 .p1 .rack fun o => { o with w := ⟨0, true, 0⟩ }
    let back := meeting 2 1 1 1600 .w .entering fun o => { o with entry := some ⟨.up, 0, 0, 0, true, true⟩ }
    (∀ s ∈ [plain, into, out, lost, back], s.part.asserted = false ∧ s.part.brk.test = none ∧ s.part.odo.validity ≠ .unknown)
    ∧ (plain.part.odo.source.encoder? = some .w ∧ reaches plain .w 1 (some 1) ∧ Safety.regimeAt 0 plain.part = Safety.regimeAt 1 plain.part ∧ plain.part.odo.entry = none)
    ∧ (reaches into .w 1 (some 1) ∧ Safety.regimeAt 0 into.part = .adhesion ∧ Safety.regimeAt 1 into.part = .rack ∧ into.part.odo.w.faulted = false)
    ∧ (out.part.odo.source.encoder? = some .p1 ∧ reaches out .p1 2 (some 0) ∧ reaches lost .p1 2 (some 0) ∧ lost.part.odo.w.faulted = true
      ∧ reaches back .w 2 (some 0)) := by decide +kernel

abbrev stays (s : State) (c : Instr) : Prop := segmentIndex (after s c).part.odo.pos.toInt s.part.prf.active = s.part.odo.segment

/-- The entry check at the last count of W short of its length and at its end, with the largest stray that passes and one more; the climb threshold
and the rollback allowance at the count that crosses them. -/
theorem witness_EncodersCountAndFault_acts :
    let check (w stray : Nat) := meeting 1 1 0 800 .w .entering fun o => { o with entry := some ⟨.up, w, w + 1 - stray, w + 1, true, false⟩ }
    let climb := meeting 1 1 0 800 .p1 .rack fun o => { o with deviation := 24, p1 := ⟨24, false, 0⟩ }
    let creep := on fun p => halted (p.withOdo { p.odo with source := .w, creep := BitVec.ofNat 16 p.prf.settings.rollbackAllowance })
    let asleep := { creep with part := mode .stabled creep.part }
    let back := on fun p => mode .run ((p.withOdo { p.odo with source := .w, reverse := BitVec.ofNat 16 p.prf.settings.rollbackAllowance }).withAut
      { p.aut with current := some ⟨1, 1, 0, 500, .up, 400⟩, next := some ⟨2, 1, 500, 900, .up, 400⟩ })
    (∀ w ∈ [0, 126, 127], (check w 32).part.odo.regime = .entering ∧ (check w 32).part.odo.w.faulted = false ∧ stays (check w 32) (.encoderStep .w 1))
    ∧ (EntryCheck.count ⟨.up, 126, 0, 0, true, true⟩ .w .up).wTravel < 8 * 16 ∧ 8 * 16 ≤ (EntryCheck.count ⟨.up, 127, 0, 0, true, true⟩ .w .up).wTravel
    ∧ (check 127 32).part.prf.settings.entryLength = 8
    ∧ (after (check 127 32) (.encoderStep .w 1)).part.odo.validity = .confirmed ∧ (after (check 127 33) (.encoderStep .w 1)).part.odo.validity = .uncertain
    ∧ (climb.part.asserted = false ∧ stays climb (.encoderStep .p1 1) ∧ climb.part.odo.entry = none ∧ climb.part.odo.regime = .rack
      ∧ climb.part.odo.deviation.toInt.natAbs ≤ climb.part.prf.settings.climbThreshold
      ∧ climb.part.prf.settings.climbThreshold < (after climb (.encoderStep .p1 1)).part.odo.deviation.toInt.natAbs)
    ∧ (creep.part.odo.motion = some .w ∧ creep.part.mod.mode = .stand ∧ Safety.crossesAllowance creep.part.odo.creep creep.part
      ∧ ¬ Safety.crossesAllowance 0 creep.part ∧ ¬ Safety.crossesAllowance (creep.part.odo.creep + 1) creep.part
      ∧ asleep.part.odo.motion = some .w ∧ asleep.part.mod.mode = .stabled)
    ∧ (back.part.odo.motion = some .w ∧ back.part.mod.mode = .run ∧ Safety.crossesAllowance back.part.odo.reverse back.part
      ∧ back.part.aut.current.map Authority.dir = some .up ∧ back.part.aut.next.map Authority.dir = some .up) := by
  unfold Safety.crossesAllowance; decide +kernel

theorem witness_EncodersCountAndFault_faults :
    let rack := meeting 1 1 0 800 .p1 .rack fun o => { o with p2 := ⟨0, true, 0⟩ }
    let bare := meeting 2 2 0 800 .w .adhesion id
    let check := meeting 1 1 0 800 .w .entering fun o => { o with entry := some ⟨.up, 0, 0, 0, true, true⟩ }
    (∀ s ∈ [rack, bare, check], s.part.coldLine = false ∧ s.part.odo.validity ≠ .unknown)
    ∧ (rack.part.odo.p1.faulted = false ∧ rack.part.odo.regime ≠ .entering ∧ Safety.tableSource .rack true true false = .w ∧ rack.part.odo.source ≠ .w)
    ∧ (bare.part.odo.w.faulted = false ∧ Safety.tableSource .adhesion false false true = .none)
    ∧ (check.part.odo.w.faulted = false ∧ check.part.odo.regime = .entering ∧ Safety.tableSource .rack false false true ≠ .none
      ∧ Safety.tableSource .rack true true true = .none) := by decide +kernel

theorem witness_TickAndStandstill :
    let s := on fun p => p.withNow (BitVec.ofNat 32 p.prf.settings.standstillTime)
    s.part.coldLine = false ∧ s.part.due s.part.odo.standTimer s.part.prf.settings.standstillTime = true ∧ s.part.asserted = false
    ∧ s.part.odo.standstill = false := by decide

/-- A tick whose speed window now counts `n`. -/
def rolling (n : Int) (f : Part → Part) : State := on fun p => f (p.withOdo { p.odo with bucket := n })

theorem witness_TickAndStandstill_evaluates :
    let still := rolling 0 id
    let turning := rolling 1 id
    let level (n : Int) := rolling n fun p => mode .run ((route 2 0 0 0 (p.withOdo { p.odo with validity := .confirmed, segment := some 0, pos := 8000 })).withAut
      { p.aut with current := some ⟨1, 1, 0, 5000, .up, 4095⟩ } |>.withPrf { (route 2 0 0 0 p).prf with settings := p.prf.settings.set 2 5000 })
    (still.part.asserted = false ∧ still.part.mod.mode ≠ .run ∧ (after still .speedWindowTick).part.odo.speed = still.part.odo.speed)
    ∧ (turning.part.mod.mode ≠ .run ∧ (after turning .speedWindowTick).part.odo.speed ≠ turning.part.odo.speed)
    ∧ ((level 40).part.mod.mode = .run ∧ (level 40).part.odo.standstill = false ∧ (after (level 40) .speedWindowTick).part.odo.speed = 400
      ∧ (after (level 40) .speedWindowTick).part.ssu.permitted = 400)
    ∧ (after (level 41) .speedWindowTick).part.ssu.state = .warning ∧ (after (level 50) .speedWindowTick).part.ssu.state = .intervention ∧ (after (level 400) .speedWindowTick).part.ssu.state = .tripped := by decide +kernel

def datumCar (regime method : Nat) (x : Source) (r : Regime) : State :=
  on fun p => route regime 0 method 3 (placed .provisional (p.withOdo { p.odo with source := x, regime := r }))

theorem witness_DatumCaptures_edges :
    (∀ m ∈ [1, 2, 3], (datumCar 1 m .p1 .rack).part.odo.validity ≠ .unknown ∧ (datumCar 1 m .p1 .rack).part.asserted = false
      ∧ (candidate (datumCar 1 m .p1 .rack).part).map SegRec.method = some m)
    ∧ candidate (datumCar 1 0 .p1 .rack).part = none
    ∧ (datumCar 1 2 .p1 .rack).part.odo.regime = .rack ∧ (datumCar 1 2 .p2 .rack).part.odo.source = .p2
    ∧ (candidate (datumCar 2 2 .w .adhesion).part).map SegRec.method = some 2 ∧ (datumCar 2 2 .w .adhesion).part.odo.regime ≠ .rack := by decide +kernel
theorem witness_DatumCaptures_waits :
    let fall := on fun p => p.withOdo { p.odo with capture := .awaitFall 0 0 0 0 }
    let index := on fun p => p.withOdo { p.odo with capture := .awaitIndex 0 2 .down .p2 1 0 }
    (fall.part.coldLine = false ∧ fall.part.odo.capture = .awaitFall 0 0 0 0)
    ∧ (index.part.coldLine = false ∧ (index.part.odo.enc (pinionEncoder .p2)).faulted = false ∧ index.part.odo.capture = .awaitIndex 0 2 .down .p2 1 0)
    ∧ 1 + 1 = 2 ∧ 1 + 1 ≠ 3 := by decide
theorem witness_OdometryOrders :
    let s := on fun p => asks [1048575] (route 2 0 0 0 (halted (p.withPrf { p.prf with settings := p.prf.settings.set 2 1048575 })))
    let t := on fun p => asks [4] (halted p)
    (Safety.triggerJudged (atSlot 0) s ∧ param (Safety.workingCopy (atSlot 0) s) 0 = 1048575 ∧ s.part.mod.mode = .stand ∧ s.part.odo.standstill = true
      ∧ s.part.prf.active ≠ [] ∧ 1048575 ≤ s.part.prf.settings.routeEnd ∧ Safety.sourceAt (1048575 * 16) s.part)
    ∧ Safety.triggerJudged (atSlot 0) t ∧ param (Safety.workingCopy (atSlot 0) t) 0 = 4 ∧ t.part.mod.mode = .stand ∧ t.part.odo.standstill = true := by
  refine ⟨⟨⟨by decide, by decide⟩, by decide, rfl, rfl, by decide, by decide, ?_⟩, ⟨by decide, by decide⟩, by decide, rfl, rfl⟩
  intro i hi
  have e : i = 0 := by
    have : some i = some 0 := hi.symm.trans (by decide +kernel)
    exact Option.some.inj this
  subst e
  exact ⟨fun h => absurd h (by decide +kernel), fun _ => rfl⟩

def stagedCar : Part → Part := fun p =>
  p.withPrf { p.prf with staged := p.prf.staged.set 0 (seg 0 2 0 0 480 480 1 5 1 0 20 0 230 0 0), stagedSettings := Settings.default.set 2 5000 }

theorem witness_ActivationBegins :
    let crc := (stagedCrc (stagedCar State.reset.part).prf 1).toNat
    let s := on fun p => asks [1, crc] (stagedCar p)
    Safety.triggerJudged (atSlot 0) s ∧ param (Safety.workingCopy (atSlot 0) s) 0 = 1 ∧ s.part.mod.mode = .stand ∧ s.part.prf.copying = none
    ∧ param (Safety.workingCopy (atSlot 0) s) 1 ≤ 65535
    ∧ (crc16 ((((s.part.prf.staged.toList.take 1).flatMap fun r => r.words.flatMap wordBytes)) ++ s.part.prf.stagedSettings.toList.flatMap wordBytes)).toNat
        = param (Safety.workingCopy (atSlot 0) s) 1
    ∧ firstBad 0 none (withEnds s.part.prf.stagedSettings.routeEnd (s.part.prf.staged.toList.take 1)) = none
    ∧ settingsValid s.part.prf.stagedSettings (lastStart (s.part.prf.staged.toList.take 1)) = true :=
  ⟨⟨rfl, by decide +kernel⟩, by decide +kernel, rfl, rfl, by decide +kernel, by decide +kernel, by decide +kernel, by decide +kernel⟩

/-- One RUNNING order of a kind in slot 0, which the bookkeeping names. -/
def running (kind : Nat) (o : Ord) : Ord := { o with slots := o.slots.set 0 { Slot.free with state := .running, kind := BitVec.ofNat 8 kind } }

theorem book_activate : Safety.bookkeeping { running 11 Ord.cold with activate := some 0 } := by
  refine ⟨fun i k h => ?_, fun i h => (by cases h.1), fun i h => (by cases h.1)⟩
  rcases h with ⟨h, _⟩ | ⟨h, hk⟩ | ⟨h | h, _⟩ | ⟨h | h, _⟩ <;> cases h
  subst hk; exact ⟨rfl, rfl⟩
theorem book_open : Safety.bookkeeping { running 16 Ord.cold with openLeft := some 0 } := by
  refine ⟨fun i k h => ?_, fun i h => (by cases h.2), fun i h => (by cases h.1)⟩
  rcases h with ⟨h, _⟩ | ⟨h, _⟩ | ⟨h | h, hk⟩ | ⟨h | h, _⟩ <;> cases h
  subst hk; exact ⟨rfl, rfl⟩

theorem witness_CopyCompletes :
    let h : Holding := ⟨[SegRec.zero], Settings.default, 0⟩
    let s := on fun p => (p.withPrf { p.prf with copying := some h }).withOrd { running 11 p.ord with activate := some 0 }
    s.part.coldLine = false ∧ s.part.prf.copying = some h ∧ s.part.ord.activate = some 0 ∧ Safety.bookkeeping s.part.ord :=
  ⟨rfl, rfl, rfl, book_activate⟩

/-! ### Witnesses: the brake and the modes -/

def brakeAt (x : BrakeState) (confirmed : Stage) (f : Feedback) (p : Part) : Part :=
  p.withBrk { p.brk with state := x, confirmed := confirmed, inputs := f }

theorem witness_FeedbackInputs :
    let lost := on (brakeAt .settled .s2 ⟨true, true, false, false, true⟩)
    let gained := on (brakeAt .settled .s2 ⟨true, true, false, false, true⟩)
    let settling := on (brakeAt (.applying .s3 (some 0)) .s2 ⟨true, true, false, false, true⟩)
    (lost.part.asserted = false ∧ lost.part.brk.inputs.get .ps2 ≠ false ∧ lost.part.brk.state = .settled
      ∧ isConfirming lost.part.reduced lost.part.brk.confirmed .ps2 = true)
    ∧ (gained.part.brk.inputs.get .ps3 ≠ true ∧ isAbove gained.part.brk.confirmed .ps3 = true)
    ∧ (settling.part.brk.inputs.get .ps3 ≠ true ∧ settling.part.brk.state = .applying .s3 (some 0)
      ∧ operationConfirmed settling.part.reduced (settling.part.brk.inputs.put .ps3 true) settling.part.brk.state = true ∧ Safety.standDone settling.part) :=
  ⟨by decide, by decide, by decide, rfl, by decide, by show ¬ _; decide⟩
theorem witness_BrakeDeadlines :
    let applying (t : Stage) := on fun p => (brakeAt (.applying t (some 0)) .released ⟨false, false, false, false, false⟩ p).withNow (BitVec.ofNat 32 (applyingDeadline t))
    let releasing := on fun p => (brakeAt (.releasing .released (some 0)) .s2 ⟨false, true, false, false, false⟩ p).withNow 3000
    (∀ t ∈ [Stage.s1, .band, .emergency], (applying t).part.asserted = false ∧ (applying t).part.brk.state = .applying t (some 0)
      ∧ (applying t).part.passed 0 (applyingDeadline t) = true ∧ (applying t).part.mod.mode ≠ .lockout)
    ∧ (releasing.part.brk.state = .releasing .released (some 0) ∧ releasing.part.passed 0 releasingDeadline = true ∧ releasing.part.brk.test = none
      ∧ Safety.standDone releasing.part)
    ∧ ((on fun p => p.withBrk { p.brk with test := some ⟨0, 0, none⟩ }).part.brk.test).isSome = true :=
  ⟨by decide, ⟨rfl, by decide, rfl, by show ¬ _; decide⟩, rfl⟩

def readyCar : Part → Part := fun p =>
  halted (entryAt .mode .s2 false ((p.withMod { p.mod with charge := .complete }).withBrk { p.brk with commanded := .s2, state := .settled, confirmed := .s2 }))

theorem ready_lawful : Safety.lawful (on readyCar).part :=
  lawful_locked _ ⟨rfl, rfl, rfl, rfl, rfl, rfl, rfl⟩ (by show (_ : Stage) = _; decide) ⟨rfl, rfl⟩ (by decide) (by intro d; cases d <;> decide) rfl

theorem witness_BrakeTests_begins :
    Safety.triggerJudged (atSlot 0) (on readyCar) ∧ Safety.lawful (on readyCar).part ∧ (on readyCar).part.ord.brakeTest = none ∧ (on readyCar).part.mod.mode = .stand
    ∧ (on readyCar).part.odo.standstill = true ∧ Safety.doorsShut (on readyCar).part ∧ (∀ d, ((on readyCar).part.entry d).latched = false)
    ∧ (on readyCar).part.mod.charge = .complete ∧ ∀ d, d ≠ .mode → ((on readyCar).part.entry d).stage = .released :=
  ⟨⟨rfl, by decide⟩, ready_lawful, rfl, rfl, rfl, (by show ∀ d : Fin 8, _; decide), (by intro d; cases d <;> rfl), rfl,
    (by intro d h; cases d <;> first | rfl | exact absurd rfl h)⟩

/-- A brake test whose hold of a step ends. -/
def holding (n : Fin 5) : State :=
  on fun p => mode .test (entryAt .mode .released false ((p.withBrk { p.brk with commanded := .released, test := some ⟨n, 0, some 0⟩ }).withNow 500))

theorem witness_BrakeTests_holds (n : Fin 5) :
    (holding n).part.asserted = false ∧ (holding n).part.mod.mode = .test ∧ (holding n).part.brk.test = some ⟨n, 0, some 0⟩
    ∧ (holding n).part.passed 0 500 = true ∧ Safety.lawful (holding n).part := by
  refine ⟨rfl, rfl, rfl, by revert n; decide, lawful_locked _ ⟨rfl, rfl, rfl, rfl, rfl, rfl, rfl⟩ rfl ⟨rfl, rfl⟩ (fun h => by cases h) ?_ rfl⟩
  intro d; cases d <;> (intro _; rfl)
theorem witness_BrakeRequests (n : Fin 6) :
    let s := on (asks [n.val])
    Safety.triggerJudged (atSlot 0) s ∧ Safety.standDone s.part ∧ (s.part.entry .ordered).latched = false ∧ param (Safety.workingCopy (atSlot 0) s) 0 = n.val
    ∧ s.part.mod.mode ≠ .lockout := ⟨⟨rfl, by revert n; decide⟩, by show ¬ _; revert n; decide, rfl, by revert n; decide, by revert n; decide⟩

theorem witness_BrakeRequests_test :
    (on (asks [5])).part.brk.test = none ∧ (on warm).part.asserted = true ∧ (on (asks [5])).part.asserted = false := ⟨rfl, rfl, rfl⟩

theorem witness_ResetsDemand :
    let gone := on fun p => asks [5] (placed .confirmed (halted (entryAt .odometry .s3 true p)))
    let stands := on fun p => asks [5] (halted (entryAt .odometry .s3 true p))
    (Safety.triggerJudged (atSlot 0) gone ∧ Safety.standDone gone.part ∧ param (Safety.workingCopy (atSlot 0) gone) 0 = DemandSource.odometry.number
      ∧ gone.part.mod.mode ≠ .lockout ∧ Safety.latches .odometry = true ∧ gone.part.odo.standstill = true ∧ (gone.part.entry .odometry).latched = true
      ∧ Safety.conditionGone gone.part .odometry)
    ∧ ¬ Safety.conditionGone stands.part .odometry
    ∧ ((on (asks [4])).part.entry .authority).latched = false ∧ param (Safety.workingCopy (atSlot 0) (on (asks [4]))) 0 = DemandSource.authority.number
    ∧ param (Safety.workingCopy (atSlot 0) (on (asks [13]))) 0 = 13 ∧ param (Safety.workingCopy (atSlot 0) (on (asks [0]))) 0 = 0 :=
  ⟨⟨⟨rfl, by decide⟩, by show ¬ _; decide, by decide, by decide, rfl, rfl, rfl, ⟨by decide, fun h => by cases h⟩⟩, fun h => h.1 rfl, rfl, by decide, by decide, by decide⟩

def serviceCar : Part → Part := fun p =>
  placed .confirmed (route 2 0 0 0 (((readyCar p).withAut { p.aut with current := some ⟨1, 1, 0, 500, .up, 400⟩ }).withPrf { p.prf with settings := p.prf.settings.set 2 5000 })
    |>.withOdo { (readyCar p).odo with validity := .confirmed, segment := some 0, pos := 8000 })

theorem witness_ModeOrders :
    let s := on serviceCar
    (Safety.triggerJudged (atSlot 0) s ∧ s.part.mod.mode = .stand ∧ s.part.prf.active ≠ [] ∧ Safety.placeKnown s.part
      ∧ (∃ a, s.part.aut.current = some a ∧ recordHoldsExtent a s.part = true) ∧ Safety.doorsShut s.part ∧ (∀ d, (s.part.entry d).latched = false)
      ∧ s.part.mod.charge = .complete ∧ s.part.prf.copying = none ∧ s.part.odo.standstill = true ∧ s.part.mod.hostSilent = false
      ∧ s.part.odo.speed ≤ s.part.prf.settings.emergencyMargin)
    ∧ ((on fun p => mode .run p).part.mod.mode = .run ∧ (on fun p => mode .test (halted p)).part.odo.standstill = true)
    ∧ (let l := on fun p => mode .lockout (halted (brakeAt .settled .emergency ⟨false, false, true, true, false⟩ p))
       Safety.triggerJudged (atSlot 0) l ∧ l.part.mod.mode = .lockout ∧ l.part.odo.standstill = true ∧ l.part.brk.state = .settled ∧ l.part.brk.confirmed = .emergency) :=
  ⟨⟨⟨rfl, by decide⟩, rfl, by decide, Or.inr rfl, ⟨_, rfl, by decide⟩, (by show ∀ d : Fin 8, _; decide), (by intro d; cases d <;> rfl), rfl, rfl, rfl, rfl, by decide⟩,
    ⟨rfl, rfl⟩, ⟨rfl, by decide⟩, rfl, rfl, rfl, rfl⟩
theorem witness_ChargeAndWake :
    let waiting := on fun p => p.withMod { p.mod with charge := .awaitReservoir }
    let timed := on fun p => p.withNow (BitVec.ofNat 32 p.prf.settings.chargeTime)
    (waiting.part.coldLine = false ∧ waiting.part.brk.inputs.reservoir = false ∧ waiting.part.mod.charge = .awaitReservoir)
    ∧ (timed.part.asserted = false ∧ timed.part.mod.charge = .timing 0 ∧ timed.part.passed 0 timed.part.prf.settings.chargeTime = true)
    ∧ (stabledCar.part.mod.crewKey = false ∧ stabledCar.part.mod.mode = .stabled ∧ Safety.delivered (station 30) stabledCar
      ∧ Safety.triggerJudged (atSlot 15) stabledCar) :=
  ⟨by decide, by decide, rfl, rfl, ⟨rfl, rfl⟩, rfl, by decide⟩

theorem witness_ChargeAndWake_refused : Safety.triggerJudged (atSlot 0) (on (mode .run)) ∧ (on (mode .run)).part.mod.mode ≠ .stabled := ⟨⟨rfl, by decide⟩, by decide⟩

theorem witness_SilenceAndAlive :
    let s := on fun p => mode .run (p.withNow (BitVec.ofNat 32 p.prf.settings.silencePeriod))
    s.part.asserted = false ∧ s.part.due s.part.mod.silence s.part.prf.settings.silencePeriod = true ∧ s.part.mod.mode = .run := by decide

/-! ### Witnesses: the doors -/

def doorIs (d : Fin 8) (x : DoorState) (cl fo ob : Bool) (retries : Nat) (p : Part) : Part :=
  setDoorRec d (fun r => { r with state := x, cl := cl, fo := fo, ob := ob, retries := retries }) p

theorem witness_DoorInputs :
    Safety.doorEdgeOf (.doorEhEdge 7 true) = some (7, .eh, true) ∧ State.reset.part.coldLine = false ∧ (State.reset.part.door 7).level .eh ≠ true
    ∧ Safety.doorEdgeOf (.doorClEdge 0 true) = some (0, .cl, true) ∧ (State.reset.part.door 0).level .cl = true ∧ Safety.standDone State.reset.part :=
  ⟨rfl, rfl, by decide, rfl, rfl, by show ¬ _; decide⟩
theorem witness_DoorsMove_locks :
    let closing := on (doorIs 0 .closing false false false 0)
    let opening := on (doorIs 7 .opening false false false 0)
    let released := on (doorIs 7 .released true true false 0)
    closing.part.coldLine = false ∧ (closing.part.door 0).cl = false ∧ (closing.part.door 0).state = .closing
    ∧ (State.reset.part.door 0).cl = true ∧ (State.reset.part.door 0).state = .locked ∧ (opening.part.door 7).fo = false ∧ (opening.part.door 7).state = .opening
    ∧ (released.part.door 7).pb = false ∧ (released.part.door 7).state = .released ∧ (released.part.door 7).fo = true := by decide
theorem witness_DoorsMove_reopens :
    let blocked (n : Nat) (fo : Bool) := on (doorIs 3 .closing false fo false n)
    let back (n : Nat) (cl ob : Bool) := on (doorIs 3 .reopening cl false ob n)
    let slow := on fun p => (setDoorRec 4 (fun r => { r with state := .opening, motion := some 0 }) p).withNow (BitVec.ofNat 32 p.prf.settings.doorMotionTime)
    (∀ n ∈ [6, 7], ((blocked n false).part.door 3).ob = false ∧ ((blocked n false).part.door 3).state = .closing ∧ ((blocked n false).part.door 3).fo = false)
    ∧ ((blocked 0 true).part.door 3).fo = true
    ∧ (∀ n ∈ [slow.part.prf.settings.obstructionRetries, slow.part.prf.settings.obstructionRetries + 1],
        ((back n false false).part.door 3).fo = false ∧ ((back n false false).part.door 3).state = .reopening ∧ ((back n false false).part.door 3).retries = n
        ∧ ((back n false false).part.door 3).closeFailed = false)
    ∧ ((back 0 true false).part.door 3).cl = true ∧ ((back 0 false true).part.door 3).ob = true
    ∧ slow.part.coldLine = false ∧ slow.part.due (slow.part.door 4).motion slow.part.prf.settings.doorMotionTime = true := by decide
theorem witness_HandlePulls :
    let tunnel := on fun p => mode .run (placed .confirmed ((route 2 1 0 0 (p.withOdo { p.odo with pos := 8000 })).withPrf { (route 2 1 0 0 p).prf with settings := p.prf.settings.set 2 5000 }))
    tunnel.part.coldLine = false ∧ (tunnel.part.door 7).eh = false ∧ tunnel.part.mod.mode = .run ∧ tunnel.part.odo.standstill = false
    ∧ noStopHere tunnel.part = true ∧ State.reset.part.mod.mode ≠ .run := by decide +kernel

/-- A pull deferred in RUN: the source leaves a no-stop segment, goes on over one, and standstill comes. -/
theorem witness_HandlePulls_deferred :
    let long (noStop pos : Nat) := on fun p => (p.withPrf { p.prf with
        active := [seg 0 2 noStop 0 400 400 0 0 0 0 0 0 0 0 0, seg 100 2 0 0 400 400 0 0 0 0 0 0 0 0 0], settings := p.prf.settings.set 2 5000 }).withOdo
      { p.odo with validity := .confirmed, segment := some 1, pos := BitVec.ofNat 32 pos, source := .w }
      |>.withDor { p.dor with deferred := some ⟨7, 0, 0⟩ } |> mode .run
    let halts := { long 1 4000 with part := (long 1 4000).part.withNow (BitVec.ofNat 32 Settings.default.standstillTime) }
    (∀ s ∈ [long 1 4159, long 1 4000], s.part.asserted = false ∧ s.part.brk.test = none ∧ s.part.odo.source.encoder? = some .w ∧ s.part.odo.validity ≠ .unknown
      ∧ s.part.dor.deferred.isSome = true ∧ stays s (.encoderStep .w 1))
    ∧ (after (long 1 4159) (.encoderStep .w 1)).part.dor.deferred = none ∧ (after (long 1 4000) (.encoderStep .w 1)).part.dor.deferred = some ⟨7, 0, 0⟩
    ∧ (halts.part.due halts.part.odo.standTimer halts.part.prf.settings.standstillTime = true ∧ halts.part.asserted = false ∧ halts.part.odo.standstill = false
      ∧ halts.part.dor.deferred.isSome = true) := by decide +kernel

def atPlatform : Part → Part := fun p =>
  asks [2] ((serviceCar p).withDor { p.dor with permits := [⟨5, false, true, 0⟩] })

theorem witness_ReleasesSide :
    let s := on atPlatform
    let r := seg 0 2 0 0 400 400 3 5 1 0 0 0 500 4 0
    Safety.triggerJudged (atSlot 0) s ∧ param (Safety.workingCopy (atSlot 0) s) 0 = Side.right.code ∧ s.part.mod.mode = .stand ∧ s.part.odo.standstill = true
    ∧ 2 ≤ s.part.brk.confirmed.value ∧ Safety.placeKnown s.part ∧ r ∈ s.part.prf.active ∧ Safety.platformFor .right r s.part
    ∧ Safety.chosenPlatform .right r s.part ∧ s.part.ord.closeSlot .right = none :=
  ⟨⟨rfl, by decide⟩, by decide, rfl, rfl, by decide, Or.inr rfl, List.mem_singleton.2 rfl, ⟨Or.inr rfl, by decide, by decide⟩,
    ⟨[], [], rfl, ⟨Or.inr rfl, by decide, by decide⟩, fun _ => ⟨⟨5, false, true, 0⟩, List.mem_singleton.2 rfl, rfl, rfl⟩, fun _ h => by cases h⟩, rfl⟩
theorem witness_OpensSide :
    let s := on fun p => asks [1] ((doorIs 3 .released true true false 0 (doorIs 0 .released true false false 0 p)).withDor
      { (doorIs 3 .released true true false 0 (doorIs 0 .released true false false 0 p)).dor with left := ⟨true, 5, true, 0⟩ })
    Safety.triggerJudged (atSlot 0) s ∧ Safety.bookkeeping s.part.ord ∧ param (Safety.workingCopy (atSlot 0) s) 0 = Side.left.code
    ∧ s.part.ord.openSlot .left = none ∧ s.part.mod.mode ≠ .lockout ∧ s.part.ord.closeSlot .left = none ∧ (s.part.side .left).released = true :=
  ⟨⟨rfl, by decide⟩, cold_bookkeeping, by decide, rfl, by decide, rfl, rfl⟩
theorem witness_ClosesSide :
    let s := on fun p => (doorIs 0 .open_ false true false 7 p).withOrd { running 16 (asks [1] p).ord with openLeft := some 0, shadows := p.ord.shadows.set 1 (Vector.replicate 7 1) }
    Safety.triggerJudged (atSlot 1) s ∧ param (Safety.workingCopy (atSlot 1) s) 0 = Side.left.code ∧ s.part.ord.closeSlot .left = none
    ∧ s.part.ord.openSlot .left = some 0 ∧ (s.part.door 0).state = .open_ ∧ (s.part.door 0).cl = false ∧ (s.part.door 0).ob = false
    ∧ Safety.bookkeeping s.part.ord := by
  refine ⟨⟨rfl, by decide⟩, by decide, rfl, rfl, rfl, rfl, rfl, ⟨fun i k h => ?_, fun i h => (by cases h.2), fun i h => (by cases h.1)⟩⟩
  rcases h with ⟨h, _⟩ | ⟨h, _⟩ | ⟨h | h, hk⟩ | ⟨h | h, _⟩ <;> cases h
  subst hk; exact ⟨rfl, rfl⟩
theorem witness_DoorsIsolatedAndRestored :
    let s := on fun p => asks [7] (doorIs 7 .faulted true false false 0 p)
    Safety.triggerJudged (atSlot 0) s ∧ param (Safety.workingCopy (atSlot 0) s) 0 = 7 ∧ s.part.mod.mode = .stand ∧ (s.part.door 7).state = .faulted
    ∧ (s.part.door 7).cl = true ∧ 7 < param (Safety.workingCopy (atSlot 0) (on (asks [8]))) 0 :=
  ⟨⟨rfl, by decide⟩, by decide, rfl, rfl, rfl, by decide⟩

/-! ### Witnesses: messages, authority and restrictions -/

theorem delivered_reset (n : Fin 30) (f : Part → Part) (h : (on f).part.asserted = false) : Safety.delivered (station (n.val + 1)) (on f) :=
  ⟨h, by revert n; decide⟩

theorem witness_MessagesHeard :
    Safety.messageOf (.text (station 30) [0#8]) = some (station 30, 11) ∧ Safety.delivered (station 30) State.reset := ⟨rfl, rfl, rfl⟩
theorem witness_PermitList :
    let four := on fun p => p.withDor { p.dor with permits := [⟨1, true, true, 0⟩, ⟨2, true, true, 0⟩, ⟨3, true, true, 0⟩, ⟨63, true, false, 0⟩] }
    let late := on fun p => (p.withDor { p.dor with permits := [⟨1, true, true, 0⟩] }).withNow (BitVec.ofNat 32 p.prf.settings.permitLifetime)
    Safety.delivered (station 1) four ∧ four.part.mod.mode ≠ .stabled ∧ (four.part.permit? 63).isSome = true ∧ four.part.permit? 4 = none ∧ 4 ≤ four.part.dor.permits.length
    ∧ State.reset.part.permit? 1 = none ∧ State.reset.part.dor.permits.length < 4 ∧ (1 : Byte).getLsbD 0 = true ∧ (2 : Byte).getLsbD 1 = true
    ∧ Safety.delivered (station 1) stabledCar ∧ stabledCar.part.mod.mode = .stabled
    ∧ late.part.coldLine = false ∧ late.part.permit? 1 = some ⟨1, true, true, 0⟩ ∧ late.part.passed 0 late.part.prf.settings.permitLifetime = true :=
  ⟨⟨rfl, rfl⟩, by decide, by decide, by decide, by decide, by decide, by decide, by decide, by decide, ⟨rfl, rfl⟩, rfl, rfl, by decide, by decide⟩

/-- A car at 500 m with these slots. -/
def slots (c n : Option Authority) : State :=
  on fun p => (placed .confirmed ((route 2 0 0 0 p).withOdo { p.odo with pos := 8000 })).withAut { p.aut with current := c, next := n }

def east : Authority := ⟨1, 1, 0, 1048575, .up, 4095⟩
def short : Authority := ⟨1, 1, 0, 400, .up, 400⟩
def onward : Authority := ⟨2, 1, 400, 900, .up, 400⟩

theorem witness_Grants :
    grantRecord ⟨1, 0, 1048575, 1, 4095⟩ 1 = some east ∧ grantRecord ⟨1, 0, 0, 1, 4095⟩ 1 = none ∧ grantRecord ⟨2, 400, 900, 1, 400⟩ 1 = some onward
    ∧ (Safety.delivered (station 1) (slots none none) ∧ (slots none none).part.mod.mode ≠ .stabled ∧ (slots none none).part.odo.validity ≠ .unknown
      ∧ heldRecord 1 (slots none none).part.aut = none ∧ recordHoldsExtent east (slots none none).part = true ∧ recordHoldsExtent onward (slots none none).part = false)
    ∧ heldRecord 1 (slots (some east) none).part.aut = some east
    ∧ (heldRecord 2 (slots (some short) none).part.aut = none ∧ onward.start = short.stop ∧ onward.dir = short.dir ∧ (slots (some short) none).part.currentDistance < 0)
    ∧ 0 ≤ (slots (some { short with stop := 500 }) none).part.currentDistance
    ∧ (heldRecord 3 (slots (some short) (some onward)).part.aut = none ∧ (slots (some short) (some onward)).part.aut.next.isSome = true) := by
  refine ⟨by decide, by decide, by decide, ⟨⟨rfl, rfl⟩, by decide, by decide, by decide, by decide, by decide⟩, by decide, by decide, by decide, by decide⟩

/-- A count reaches CURRENT's end and the one beyond it, with NEXT and without. -/
theorem witness_Grants_counts :
    let car (pos : Nat) (n : Option Authority) := { slots (some short) n with
      part := mode .run ((slots (some short) n).part.withOdo { (slots (some short) n).part.odo with pos := BitVec.ofNat 32 pos, source := .w })
        |>.withAut { (slots (some short) n).part.aut with dc := 6400 - pos } }
    (∀ s ∈ [car 6399 none, car 6400 none, car 6400 (some onward), car 6399 (some onward)], s.part.asserted = false ∧ s.part.brk.test = none
      ∧ s.part.odo.source.encoder? = some .w ∧ s.part.odo.validity ≠ .unknown ∧ s.part.aut.current = some short ∧ stays s (.encoderStep .w 1)
      ∧ s.part.odo.motion = some .w ∧ s.part.mod.mode = .run)
    ∧ Safety.countsToEnd short (after (car 6399 none) (.encoderStep .w 1)).part = 0 ∧ Safety.countsToEnd short (after (car 6400 none) (.encoderStep .w 1)).part < 0
    ∧ (car 6400 none).part.aut.dc = 0 ∧ onward.dir = short.dir
    ∧ (after (car 6400 (some onward)) (.encoderStep .w 1)).part.aut.current = some onward := by decide +kernel

theorem witness_AuthorityGivenUp :
    Safety.delivered (station 30) (slots (some east) (some onward)) ∧ ¬ Safety.beyondEnd east 1048575 ∧ Safety.beyondEnd short 401 ∧ ¬ Safety.beyondEnd short 400
    ∧ (let s := (slots (some short) (some onward)).part
       s.aut.current = some short ∧ short.id ≠ 2 ∧ s.aut.next = some onward ∧ onward.id = 2)
    ∧ ((mode .run (slots (some short) none).part).distanceTo short.dir (Safety.heldEnd short 0)
        ≤ ((mode .run (slots (some short) none).part).ssu.braking : Int) * 16)
    ∧ Safety.triggerJudged (atSlot 0) (slots (some short) (some onward)) ∧ (slots (some short) (some onward)).part.mod.mode = .stand :=
  ⟨⟨rfl, rfl⟩, by show ¬ (_ : Nat) < _; decide, by show (_ : Nat) < _; decide, by show ¬ (_ : Nat) < _; decide, by decide, by decide, ⟨rfl, by decide⟩, rfl⟩

/-- A car with these restrictions on its list. -/
def listed (l : List Restriction) (p : Part) : Part := p.withSsu { p.ssu with restrictions := l }
def byRadio (n : Nat) : Restriction := ⟨BitVec.ofNat 8 n, .radio 1, n, n + 1, 100, .both⟩
def byHost (n : Nat) : Restriction := ⟨BitVec.ofNat 8 n, .host, n, 1048575, 4095, .both⟩
def fullList : List Restriction := [byRadio 1, byRadio 2, byRadio 3, byRadio 4, byRadio 5, byRadio 6, byRadio 7, byHost 8]

theorem witness_RestrictionsByRadio :
    let s := on (listed fullList)
    Safety.delivered (station 1) s ∧ (byRadio 9).origin = .radio (station 1).station ∧ Safety.goodFields (byRadio 255) ∧ Safety.idFree 9 s.part ∧ 8 ≤ s.part.ssu.restrictions.length
    ∧ findRestriction 1 s.part.ssu.restrictions = some (byRadio 1) ∧ findRestriction 8 s.part.ssu.restrictions = some (byHost 8)
    ∧ Safety.idFree 9 State.reset.part ∧ State.reset.part.ssu.restrictions.length < 8 :=
  ⟨⟨rfl, rfl⟩, rfl, ⟨by decide, by decide, by decide, by decide⟩, by show ∀ r ∈ fullList, _; decide, by decide, by decide, by decide, (fun _ h => by cases h), by decide⟩
theorem witness_RestrictionsByHost :
    let add (n : Nat) := on fun p => listed fullList (asks [n, n, 1048575, 4095, 3] p)
    Safety.triggerJudged (atSlot 0) (add 8) ∧ (add 8).part.mod.mode ≠ .lockout ∧ (byHost 8).origin = .host ∧ Safety.goodFields (byHost 8)
    ∧ Safety.asksFor (byHost 8) (Safety.workingCopy (atSlot 0) (add 8)) ∧ findRestriction 8 (add 8).part.ssu.restrictions = some (byHost 8)
    ∧ Safety.asksFor (byHost 1) (Safety.workingCopy (atSlot 0) (add 1)) ∧ findRestriction 1 (add 1).part.ssu.restrictions = some (byRadio 1)
    ∧ Safety.asksFor (byHost 9) (Safety.workingCopy (atSlot 0) (add 9)) ∧ Safety.idFree 9 (add 9).part ∧ 8 ≤ (add 9).part.ssu.restrictions.length
    ∧ (8 : Byte) ≠ 0 ∧ param (Safety.workingCopy (atSlot 0) (add 8)) 0 = (8 : Byte).toNat ∧ Safety.idFree 9 State.reset.part :=
  ⟨⟨rfl, by decide⟩, by decide, rfl, ⟨by decide, by decide, by decide, by decide⟩, ⟨by decide, by decide, by decide, by decide, by decide⟩, by decide,
    ⟨by decide, by decide, by decide, by decide, by decide⟩, by decide, ⟨by decide, by decide, by decide, by decide, by decide⟩, by show ∀ r ∈ fullList, _; decide, by decide,
    by decide, by decide, fun _ h => by cases h⟩

theorem witness_RestrictionsByHost_refused :
    let bad := on (asks [])
    Safety.triggerJudged (atSlot 0) lockedOut ∧ lockedOut.part.mod.mode = .lockout
    ∧ (Safety.triggerJudged (atSlot 0) bad ∧ bad.part.mod.mode ≠ .lockout
      ∧ ∀ r : Restriction, r.origin = .host → Safety.goodFields r → ¬ Safety.asksFor r (Safety.workingCopy (atSlot 0) bad))
    ∧ param (Safety.workingCopy (atSlot 0) bad) 0 = 0 ∧ 255 < param (Safety.workingCopy (atSlot 0) (on (asks [256]))) 0 :=
  ⟨⟨rfl, by decide⟩, rfl, ⟨⟨rfl, by decide⟩, by decide, fun r _ g h => g.1 (BitVec.eq_of_toNat_eq (h.1.symm.trans (by decide)))⟩, by decide, by decide⟩

theorem witness_EmergencyStops :
    let s := on fun p => halted (entryAt .radio .emergency true p)
    Safety.delivered (station 30) s ∧ Safety.standDone s.part ∧ s.part.odo.standstill = true ∧ (s.part.entry .radio).latched = true
    ∧ State.reset.part.odo.standstill = false ∧ (State.reset.part.entry .radio).latched = false ∧ Safety.standDone State.reset.part :=
  ⟨⟨rfl, rfl⟩, by show ¬ _; decide, rfl, rfl, rfl, rfl, by show ¬ _; decide⟩
theorem witness_TextsReceivedAndSent :
    let m : Message := ⟨1, 1, [0#8], 0, 1⟩
    let mail := on fun p => p.withMsg { p.msg with mailbox := List.replicate 8 m }
    let send (l : Nat) := on (asks [255 + 256 * l])
    Safety.delivered (station 1) State.reset ∧ State.reset.part.msg.mailbox.length < 8 ∧ 8 ≤ mail.part.msg.mailbox.length ∧ stabledCar.part.mod.mode = .stabled
    ∧ Safety.triggerJudged (atSlot 0) (send 24) ∧ byteAt (Safety.workingCopy (atSlot 0) (send 24))[0] 0 = 255 ∧ byteAt (Safety.workingCopy (atSlot 0) (send 24))[0] 1 = 24
    ∧ halfAt (Safety.workingCopy (atSlot 0) (send 24))[0] 1 = 0 ∧ byteAt (Safety.workingCopy (atSlot 0) (send 25))[0] 1 = 25
    ∧ (send 24).part.mod.mode ≠ .stabled ∧ (send 24).part.link.queue.length < 4 :=
  ⟨⟨rfl, rfl⟩, by decide, by decide, rfl, ⟨rfl, by decide⟩, by decide, by decide, by decide, by decide, by decide, by decide⟩
theorem witness_LinkLoss :
    let s (lost : Bool) := on fun p => (p.withLink { p.link with linkTimer := some 0, lost := lost }).withNow (BitVec.ofNat 32 p.prf.settings.linkTimeout)
    (s false).part.coldLine = false ∧ (s false).part.due (s false).part.link.linkTimer (s false).part.prf.settings.linkTimeout = true ∧ (s false).part.link.lost = false
    ∧ (s true).part.link.lost = true ∧ Safety.standDone (s true).part := ⟨rfl, by decide, rfl, rfl, by show ¬ _; decide⟩
theorem witness_Reports :
    let s := on fun p => p.withNow (BitVec.ofNat 32 p.prf.settings.reportInterval)
    s.part.due s.part.msg.reportTimer s.part.prf.settings.reportInterval = true ∧ s.part.asserted = false ∧ s.part.mod.mode ≠ .stabled
    ∧ Safety.delivered (station 1) s ∧ txHasReport s.part.link.queue = false ∧ Safety.reportRoom s.part :=
  ⟨by decide, rfl, by decide, ⟨rfl, rfl⟩, rfl, Or.inl (by decide)⟩

def queued (l : List TxFrame) : State := on fun p => p.withLink { p.link with queue := l, state := .defer, cd := true }

theorem witness_PollReport :
    let none := queued [frame .alarm, frame .alarm, frame .alarm, frame .refusal]
    Safety.triggerJudged (atSlot 0) none ∧ none.part.mod.mode ≠ .stabled ∧ txHasReport none.part.link.queue = false ∧ ¬ Safety.reportRoom none.part
    ∧ txHasReport (queued [frame .report]).part.link.queue = true ∧ Safety.reportRoom (queued [frame .alarm, frame .alarm, frame .alarm, frame .text]).part
    ∧ Safety.triggerJudged (atSlot 15) stabledCar ∧ stabledCar.part.mod.mode = .stabled := by
  refine ⟨⟨rfl, by decide⟩, by decide, by decide, ?_, by decide, Or.inr ⟨frame .text, rfl, rfl⟩, ⟨rfl, by decide⟩, rfl⟩
  rintro (h | ⟨f, h, hc⟩)
  · exact absurd h (by decide)
  · cases h; cases hc

/-! ### Witnesses: the radio link -/

def sending (rest : List Byte) : Sending := ⟨frame .text, 1, 0, none, rest⟩

def linkIs (f : Link → Link) (p : Part) : Part := p.withLink (f p.link)

theorem witness_TransmitterSends :
    let defer := on fun p => (linkIs (fun l => { l with state := .defer, deferTimer := some ⟨0, 10⟩, queue := [frame .alarm] }) p).withNow 10
    let keyUp := on fun p => (linkIs (fun l => { l with state := .keyUp, keyUpTimer := some 0, sendBuffer := some (sending [0xF1#8]) }) p).withNow 40
    let send (r : List Byte) := on (linkIs fun l => { l with state := .sending, sendBuffer := some (sending r) })
    let tail := on fun p => (linkIs (fun l => { l with state := .tail, tailTimer := some 0 }) p).withNow 20
    let paused := on fun p => (linkIs (fun l => { l with state := .paused, pauseTimer := some 0, sendBuffer := some (sending [0xF2#8]) }) p).withNow 500
    (defer.part.asserted = false ∧ defer.part.link.deferTimer = some ⟨0, 10⟩ ∧ defer.part.passed 0 10 = true ∧ defer.part.link.queue ≠ [])
    ∧ (keyUp.part.due keyUp.part.link.keyUpTimer 40 = true ∧ keyUp.part.link.sendBuffer = some (sending [0xF1#8]) ∧ keyUp.part.link.flowHold = false)
    ∧ ((send []).part.link.sendBuffer = some (sending []) ∧ (sending []).rest = [] ∧ (send [0xF2#8]).part.link.state = .sending)
    ∧ tail.part.due tail.part.link.tailTimer 20 = true ∧ paused.part.due paused.part.link.pauseTimer 500 = true := by decide

theorem witness_TransmitterSends_wire :
    let wire := on (linkIs fun l => { l with state := .sending, sendBuffer := some ⟨frame .text, 1, 0, some 0xFF#8, []⟩ })
    wire.part.asserted = false ∧ wire.part.link.state = .sending ∧ (wire.part.link.sendBuffer.map Sending.current) = some (some 0xFF#8)
    ∧ (on warm).part.asserted = true ∧ State.reset.part.link.state ≠ .sending := by decide

theorem witness_CarrierAndFlow :
    let key := on (linkIs fun l => { l with state := .keyUp, ptt := true, sendBuffer := some (sending [0xF1#8]), queue := [frame .report] })
    let full := on (linkIs fun l => { l with state := .keyUp, ptt := true, sendBuffer := some ⟨frame .alarm, 1, 0, none, []⟩, queue := List.replicate 3 (frame .refusal) ++ [frame .text] })
    let inFrame := on (linkIs fun l => { l with cd := true, state := .receiving, assembler := .inside [] false false 0 })
    (key.part.asserted = false ∧ key.part.link.cd = false ∧ Safety.queues key.part ∧ key.part.link.queue.length < 4)
    ∧ (Safety.queues full.part ∧ 4 ≤ full.part.link.queue.length ∧ full.part.link.queue.getLast? = some (frame .text) ∧ TxClass.alarm.code < (frame .text).cls.code)
    ∧ (inFrame.part.link.cd = true ∧ inFrame.part.link.assembler ≠ .outside) ∧ ((on present).part.link.cd = true ∧ (on present).part.link.assembler = .outside)
    ∧ Safety.assertsPtt key.part.link.state = true ∧ Safety.assertsPtt State.reset.part.link.state = false ∧ (∀ l d g, key.part.link.assembler ≠ .inside l d true g) := by
  refine ⟨⟨rfl, rfl, ⟨by decide, by decide, trivial, by decide⟩, by decide⟩, ⟨⟨by decide, by decide, ⟨by decide, by decide, by decide, trivial⟩, by decide⟩, by decide, by decide, by decide⟩,
    ⟨rfl, by decide⟩, ⟨rfl, rfl⟩, rfl, rfl, fun l d g h => by cases h⟩
theorem witness_CharactersAssembled :
    let inside (n : Nat) (e : Bool) := on fun p => (linkIs (fun l => { l with cd := true, state := .receiving, assembler := .inside (List.replicate n 0#8) false e 0 }) p).withNow 20
    (inside 55 false).part.asserted = false ∧ (inside 55 false).part.link.ptt = false ∧ (inside 55 false).part.link.cd = true
    ∧ (∀ n ∈ [54, 55], (inside n false).part.link.assembler = .inside (List.replicate n 0#8) false false 0)
    ∧ ((0xF4 : Byte) ≠ 0xF4 ∨ escPending (inside 0 true).part.link.assembler = true) ∧ (on present).part.link.assembler = .outside
    ∧ State.reset.part.link.cd = false ∧ (inside 0 false).part.passed 0 20 = true := by decide

/-- A frame complete in the assembler, its END to come. -/
def complete (buffer : List Byte) (damaged : Bool) : State :=
  on fun p => linkIs (fun l => { l with cd := true, state := .receiving, assembler := .inside buffer damaged false 0 }) p

def framed (dest source kind sequence : Byte) (payload : List Byte) : List Byte :=
  Safety.frameBuffer dest source kind sequence payload
    (crc16 ([dest, source, kind, sequence, BitVec.ofNat 8 payload.length] ++ payload))

theorem witness_FramesJudged :
    let s := complete (framed 0xFF 30 200 0 [1#8]) false
    s.part.asserted = false ∧ s.part.link.ptt = false ∧ s.part.link.cd = true ∧ s.part.link.assembler = .inside (framed 0xFF 30 200 0 [1#8]) false false 0
    ∧ (∃ crc, framed 0xFF 30 200 0 [1#8] = Safety.frameBuffer 0xFF 30 200 0 [1#8] crc ∧ crc = crc16 ((framed 0xFF 30 200 0 [1#8]).take 6))
    ∧ (30 : Byte).toNat = (29 : Fin 30).val + 1 ∧ (s.part.link.stations[(29 : Fin 30)]).sequence ≠ some 0 ∧ goodFormat 200 1 = false
    ∧ (complete [] true).part.link.assembler = .inside [] true false 0 ∧ (List.replicate 6 0#8).length < 7
    ∧ Safety.frameBuffer 1 1 1 1 [] 0 ≠ [] ∧ (0 : Half) ≠ crc16 ((Safety.frameBuffer 1 1 1 1 [] 0).take 5)
    ∧ (1 : Byte).toNat = s.part.prf.settings.carId ∧ (2 : Byte).toNat ≠ s.part.prf.settings.carId ∧ (31 : Byte).toNat > 30 := by
  refine ⟨rfl, rfl, rfl, rfl, ⟨_, rfl, by decide +kernel⟩, rfl, by decide, by decide, rfl, by decide, by decide, by decide +kernel, by decide, by decide, by decide⟩
theorem witness_FrameCarriesMessage :
    let c := Instr.text (station 30) (List.replicate 48 0xF1#8)
    let s := on present
    Safety.messageOf c = some (station 30, 11) ∧ c.wf = true ∧ s.part.asserted = false ∧ s.part.link.ptt = false ∧ s.part.link.cd = true
    ∧ s.part.link.assembler = .outside ∧ s.part.link.state = .listen ∧ s.part.link.queue = [] ∧ Safety.standDone s.part
    ∧ (1 : Byte).toNat = s.part.prf.settings.carId ∧ (∀ i : Fin 30, (station 30).station.toNat = i.val + 1 → (s.part.link.stations[i]).sequence ≠ some (station 30).sequence) :=
  ⟨rfl, by decide, rfl, rfl, rfl, rfl, rfl, rfl, by show ¬ _; decide, by decide, by decide⟩

/-! ### Witnesses: the host interface -/

def guardOf (kind : GuardKind) (a : GuardAction) : Guard := ⟨true, 0xFFFFFC#32, kind, 10, 20, a, 0, 0⟩

/-- Guard slot 3 enabled at the last word of memory. -/
def guarding (kind : GuardKind) (a : GuardAction) (p : Part) : Part :=
  p.withBridge { p.bridge with guards := p.bridge.guards.set 3 (guardOf kind a) }

theorem guarding_only (kind : GuardKind) (a : GuardAction) : Safety.guarded 3 0xFFFFFC (on (guarding kind a)).part := by
  refine ⟨rfl, rfl, fun j hj he => ?_⟩
  revert j; intro j; fin_cases j
  · intro _ he; cases he
  · intro _ he; cases he
  · intro _ he; cases he
  · intro h; exact absurd rfl h

theorem witness_OtherOrders :
    let set := on (asks [3, 0xFFFFFC, 0x301, 20, 20])
    let mask := on (asks [0xFFFFF, 0, 0xFFFFF, 0xFFFFF])
    let take := on fun p => (asks [65535] p).withMsg { p.msg with mailbox := [⟨1, 1, [0#8], 0, 65535⟩] }
    (Safety.triggerJudged (atSlot 0) set ∧ set.part.mod.mode ≠ .lockout ∧ param (Safety.workingCopy (atSlot 0) set) 0 = (3 : Fin 4).val
      ∧ byteAt (Safety.workingCopy (atSlot 0) set)[2] 0 = 1 ∧ byteAt (Safety.workingCopy (atSlot 0) set)[2] 1 = 3
      ∧ (Safety.workingCopy (atSlot 0) set)[3].toNat ≤ (Safety.workingCopy (atSlot 0) set)[4].toNat
      ∧ (Safety.workingCopy (atSlot 0) set)[1].toNat % 4 = 0 ∧ (Safety.workingCopy (atSlot 0) set)[1].toNat < 16777216 ∧ Safety.outsideArea 0xFFFFFC set.part
      ∧ ∀ j : Fin 4, (set.part.bridge.guards[j]).enabled = false)
    ∧ (Safety.triggerJudged (atSlot 0) mask ∧ param (Safety.workingCopy (atSlot 0) mask) 0 < 2 ^ 20 ∧ param (Safety.workingCopy (atSlot 0) mask) 3 < 2 ^ 20)
    ∧ (Safety.triggerJudged (atSlot 0) take ∧ take.part.msg.mailbox = [⟨1, 1, [0#8], 0, 65535⟩] ∧ param (Safety.workingCopy (atSlot 0) take) 0 = (65535 : Half).toNat) :=
  ⟨⟨⟨rfl, by decide⟩, by decide, by decide, by decide, by decide, by decide, by decide, by decide, Or.inr (by decide), by decide⟩,
    ⟨⟨rfl, by decide⟩, by decide, by decide⟩, ⟨rfl, by decide⟩, rfl, by decide⟩
theorem witness_ClearsGuard :
    let s := on fun p => asks [3] (guarding .fixed .clamp p)
    Safety.triggerJudged (atSlot 0) s ∧ param (Safety.workingCopy (atSlot 0) s) 0 = (3 : Fin 4).val ∧ s.part.mod.mode ≠ .lockout
    ∧ Safety.guarded 3 (0xFFFFFC#24).toNat s.part ∧ (0xFFFFFC#24).toNat % 4 = 0 ∧ Safety.outsideArea (0xFFFFFC#24).toNat s.part
    ∧ 3 < param (Safety.workingCopy (atSlot 0) (on (asks [4]))) 0 ∧ ((on (asks [0])).part.bridge.guards[(0 : Fin 4)]) = ⟨false, 0, .none, 0, 0, .none, 0, 0⟩ :=
  ⟨⟨rfl, by decide⟩, by decide, by decide, guarding_only .fixed .clamp, by decide, Or.inr (by decide), by decide, rfl⟩
theorem witness_TriggersTurnedAway :
    let busy := on fun p => p.withOrd (running 5 p.ord)
    Safety.triggerOf (.run (atSlot 0)) = some (atSlot 0) ∧ busy.part.asserted = false ∧ (busy.part.ord.slots[(atSlot 0).slot]).state = .running
    ∧ (on warm).part.asserted = true ∧ Safety.triggerOf (.unknownKindTrigger 255 (atSlot 15)) = some (atSlot 15) ∧ Safety.triggerJudged (atSlot 15) State.reset :=
  ⟨rfl, rfl, rfl, rfl, rfl, rfl, by decide⟩

theorem witness_TriggersTurnedAway_kinds :
    (Instr.run (atSlot 0)).wf = true ∧ (Instr.unknownKindTrigger 26 (atSlot 0)).wf = true ∧ (Instr.unknownKindTrigger 255 (atSlot 15)).wf = true := by decide

theorem witness_HostWrites :
    (on warm).part.asserted = true ∧ State.reset.part.asserted = false ∧ (0xE#4 : BitVec 4) ≠ 0xF#4 ∧ State.reset.path.access = none
    ∧ ((on fun p => p.withPrf { p.prf with copying := some ⟨[], Settings.default, 0⟩ }).part.prf.copying).isSome = true := by decide
theorem witness_GuardedWrites :
    (0xFFFFFC#24).toNat % 4 = 0 ∧ (on warm).part.asserted = true ∧ Safety.outsideArea 65536 State.reset.part ∧ Safety.unguarded 65536 State.reset.part
    ∧ Safety.outsideArea 0xFFFFFC (on (guarding .fixed .keep)).part ∧ Safety.guarded 3 (0xFFFFFC#24).toNat (on (guarding .fixed .keep)).part
    ∧ Safety.guardRange (guardOf .fixed .keep) State.reset.part = (10, 20) ∧ 9 < 10 ∧ 20 < 21 ∧ (0x1#4 : BitVec 4) ≠ 0xF#4
    ∧ Safety.guardRange (guardOf .speed .pass) State.reset.part = (0, 0) :=
  ⟨by decide, rfl, Or.inr (by decide), by show ∀ j : Fin 4, _; decide, Or.inr (by decide), guarding_only .fixed .keep, rfl, by decide, by decide, by decide, rfl⟩
theorem witness_EventHead :
    Safety.standDone State.reset.part ∧ State.reset.part.asserted = false ∧ State.reset.part.evq.queue.head? = some ⟨0, 0, .coldStart, 0, 0⟩
    ∧ (after State.reset (.eventHeadPop 0xF)).part.evq.queue = [] := ⟨by show ¬ _; decide, rfl, rfl, by decide +kernel⟩
theorem witness_ReadsAndAnswers :
    let waits (r : Bool) := { State.reset with path := { State.reset.path with access := some ⟨r, 0xFFFFFC, 1, 0x1#4⟩ } }
    State.reset.part.asserted = false ∧ Safety.standDone State.reset.part ∧ (waits true).path.access = some ⟨true, 0xFFFFFC, 1, 0x1#4⟩
    ∧ (waits false).path.access = some ⟨false, 0xFFFFFC, 1, 0x1#4⟩ ∧ (on warm).part.asserted = true ∧ Safety.standDone (on warm).part :=
  ⟨rfl, by show ¬ _; decide, rfl, rfl, rfl, by show ¬ _; decide⟩

theorem witness_ReadsAndAnswers_reads :
    let asked (a : Nat) := { State.reset with reads := [⟨BitVec.ofNat 24 a, 0x1#4⟩] }
    let held := { on warm with reads := [⟨0x4000#24, 0xF#4⟩] }
    let full := on fun p => (listed fullList p).withDor { p.dor with permits := [⟨63, true, false, 0⟩] } |>.withMsg { p.msg with mailbox := [⟨1, 1, [0#8], 0, 1⟩] }
    ((asked 0x3FFF).pending = [] ∧ (asked 0x3FFF).reads = ⟨0x3FFF#24, 0x1#4⟩ :: [] ∧ Safety.standDone (asked 0x3FFF).part)
    ∧ (Safety.forwardedRead ⟨0x3FFF#24, 0x1#4⟩ (asked 0x3FFF).part ∧ Safety.forwardedRead ⟨0x6000#24, 0x1#4⟩ State.reset.part
      ∧ Safety.forwardedRead ⟨0xFFFFFF#24, 0x1#4⟩ State.reset.part ∧ Safety.forwardedRead ⟨0x4000#24, 0xF#4⟩ held.part)
    ∧ (Safety.mirrorRead ⟨0x4000#24, 0x1#4⟩ 0x4000 State.reset.part ∧ Safety.mirrorRead ⟨0x5FFF#24, 0x1#4⟩ 0x5FFC State.reset.part
      ∧ ¬ Safety.forwardedRead ⟨0x4000#24, 0x1#4⟩ State.reset.part ∧ ¬ Safety.mirrorRead ⟨0x4000#24, 0x1#4⟩ 0x4000 held.part)
    ∧ (full.part.ssu.restrictions[7]? = some (byHost 8) ∧ full.part.dor.permits[0]? = some ⟨63, true, false, 0⟩ ∧ full.part.msg.mailbox = ⟨1, 1, [0#8], 0, 1⟩ :: []) := by
  unfold Safety.forwardedRead Safety.mirrorRead Safety.standDone; decide

end Sys2Proof.Tests
end

section
/-! The laws of the part (Safety.lawful): every step keeps them, and they hold the brake. -/

namespace Sys2Proof.Machine

/-! ### Every step keeps the laws -/

/-- A change that keeps what always holds and the two laws of whole changes keeps every law of the part. -/
theorem lawful_of_keeps {p q : Part} (good : Good p → Good q) (wholes : Keeps p q) (h : Safety.lawful p) : Safety.lawful q := by
  obtain ⟨g, formed, held⟩ := lawful_iff.1 h
  exact lawful_iff.2 ⟨good g, wholes.formed formed, wholes.held held⟩

theorem exec_lawful {c : Instr} {s t : State} (h : exec c s = .next t) (hs : Safety.lawful s.part) : Safety.lawful t.part :=
  lawful_of_keeps (exec_good c s t h) (exec_wholes c s t h) hs

theorem takeRead_lawful {r : HostRead} {s t : State} (h : takeRead r s = .next t) (hs : Safety.lawful s.part) : Safety.lawful t.part :=
  lawful_of_keeps (takeRead_good r s t h) (takeRead_wholes r s t h) hs

/-- Settles O8: a step is a command, a host read, or none at all, and each keeps what always holds. -/
theorem lawfulKept : Obligations.LawfulKept := by
  unfold Obligations.LawfulKept
  intro s t hs h
  unfold step at h
  split at h
  · exact exec_lawful h hs
  · split at h
    · exact takeRead_lawful h hs
    · cases h; exact hs

/-! ### What the laws say of the commanded stage -/

/-- Under the law of R45 no entry requests more than the commanded stage. -/
theorem entry_le_commanded {p : Part} (h : Safety.commandedHighest p) (d : DemandSource) :
    (p.entry d).stage.value ≤ p.brk.commanded.value := by
  rw [show p.brk.commanded = highestStage p.brk.table from h]
  exact entry_le_highest p.brk.table d.index

/-- Under R45 and R114 the commanded stage is at least the one that the car mode requests. -/
theorem modeRequest_le_commanded {p : Part} (h : Safety.commandedHighest p) (hm : Safety.modeEntry p) :
    (modeRequest p.mod.mode p.charging).1.value ≤ p.brk.commanded.value := by
  obtain ⟨-, stage⟩ := hm
  rw [← stage]
  exact entry_le_commanded h .mode

/-- The states of a door that call for S2 outside RUN are none of those it may have outside STAND and LOCKOUT (R122). -/
theorem not_shut_of_moving {s : DoorState} (h : s = .released ∨ s = .opening ∨ s = .open_ ∨ s = .closing ∨ s = .reopening) :
    ¬ (s = .locked ∨ s = .faulted ∨ s = .isolated) := by
  rcases h with rfl | rfl | rfl | rfl | rfl <;> decide

/-- Settles O11: the entries of MODE, DOORS and ODOMETRY stand at the stage called for, and none outranks the commanded one. -/
theorem lawsHoldTheBrake : Obligations.LawsHoldTheBrake := by
  unfold Obligations.LawsHoldTheBrake
  intro p h
  obtain ⟨-, highest, mode, -, -, -, -, -, -, quiet, -, -, formed, lost⟩ := h
  obtain ⟨runFaulted, -, moving, -⟩ := formed
  have le := entry_le_commanded highest
  refine ⟨⟨fun hm => ?_, fun hm => ?_⟩, le, fun hr d hd => ?_, fun hr hv => ?_, fun d hd => ?_⟩
  · have asks := modeRequest_le_commanded highest mode
    rw [hm] at asks
    refine Nat.le_trans ?_ asks
    cases p.charging <;> decide
  · have asks := modeRequest_le_commanded highest mode
    rw [hm] at asks
    exact emergency_of asks
  · obtain ⟨stage, -⟩ := runFaulted hr ⟨d, hd⟩
    exact stage ▸ le .doors
  · obtain ⟨-, stage⟩ := lost hr hv
    exact emergency_of (stage ▸ le .odometry)
  · have notShut := not_shut_of_moving hd
    have place : p.mod.mode = .stand ∨ p.mod.mode = .lockout := by
      by_contra hn
      rw [not_or] at hn
      exact notShut (quiet hn.1 hn.2 d)
    have notRun : p.mod.mode ≠ .run := by rcases place with e | e <;> rw [e] <;> decide
    obtain ⟨stage, -⟩ := moving notRun fun shut => notShut ((shut d).imp_right .inr)
    exact ⟨place, stage ▸ le .doors⟩

end Sys2Proof.Machine
end

section
/-! Supervision: P, B, E and d stand as R71 to R73 give them, and what an evaluation in RUN does (R74 to R77). -/

namespace Sys2Proof.Machine

/-! ### The numbers (R71 to R73) -/

theorem supervisionDir_eq (p : Part) : p.supervisionDir = Safety.direction p := by
  unfold Part.supervisionDir Safety.direction
  cases p.aut.current <;> rfl

theorem overlaps_iff (p : Part) (a b : Nat) : p.overlaps a b = true ↔ Safety.overlapsCar p a b := by
  unfold Part.overlaps Safety.overlapsCar Part.rearCounts
  simp only [Bool.and_eq_true, decide_eq_true_eq, and_assoc]

/-- A segment with its end: the start of the next one, or the route end. -/
theorem mem_withEnds (routeEnd : Nat) (l : List SegRec) (r : SegRec) (stop : Nat) :
    (r, stop) ∈ withEnds routeEnd l ↔ ∃ k : Nat, l[k]? = some r ∧ stop = l[k + 1]?.elim routeEnd SegRec.start := by
  induction l with
  | nil => simp [withEnds]
  | cons x l ih =>
    have split : (∃ k : Nat, (x :: l)[k]? = some r ∧ stop = (x :: l)[k + 1]?.elim routeEnd SegRec.start)
        ↔ (x = r ∧ stop = l[0]?.elim routeEnd SegRec.start) ∨ ∃ k : Nat, l[k]? = some r ∧ stop = l[k + 1]?.elim routeEnd SegRec.start := by
      constructor
      · rintro ⟨k | k, hr, hs⟩
        · exact .inl ⟨by simpa using hr, hs⟩
        · exact .inr ⟨k, hr, hs⟩
      · rintro (⟨hr, hs⟩ | ⟨k, hr, hs⟩)
        · exact ⟨0, by simpa using hr, hs⟩
        · exact ⟨k + 1, hr, hs⟩
    rw [split, ← ih]
    cases l with
    | nil => simp [withEnds, eq_comm]
    | cons y l => simp [withEnds, eq_comm]

theorem mem_segments (p : Part) (r : SegRec) (stop : Nat) : (r, stop) ∈ p.segments ↔ Safety.segmentEnds p r stop := by
  unfold Part.segments Safety.segmentEnds
  rw [mem_withEnds]
  refine exists_congr fun k => and_congr_right fun _ => ?_
  cases p.prf.active[k + 1]? <;> exact Iff.rfl

theorem includes_iff (x : Dirs) (d : Dir) : x.includes d = true ↔ x = .both ∨ (x = .up ∧ d = .up) ∨ (x = .down ∧ d = .down) := by
  cases x <;> cases d <;> decide

/-- The limits that the evaluation collects are those of the table of R71. -/
theorem mem_limits (p : Part) (l : Nat) : l ∈ p.limits ↔ Safety.limitApplies p l := by
  unfold Part.limits Safety.limitApplies
  rw [supervisionDir_eq]
  simp only [List.mem_append, or_assoc]
  refine or_congr ?_ (or_congr ?_ (or_congr ?_ ?_))
  · simp only [List.mem_map, List.mem_filter, Prod.exists, mem_segments, overlaps_iff]
    refine exists_congr fun r => exists_congr fun stop => ?_
    rw [and_assoc, eq_comm]
    refine and_congr_right fun _ => and_congr_right fun _ => ?_
    cases Safety.direction p <;> exact Iff.rfl
  · simp only [List.mem_map, List.mem_filter, Bool.and_eq_true, includes_iff, overlaps_iff, and_assoc, eq_comm (b := l)]
  · cases p.aut.current <;> simp
  · cases p.odo.validity <;> simp

theorem noSpeed_iff (p : Part) :
    (p.prf.active.isEmpty || p.odo.validity == .unknown || p.rearCounts < 0
      || (p.prf.settings.routeEnd : Int) * 16 < p.odo.pos.toInt) = true ↔ Safety.noSpeedHere p := by
  unfold Safety.noSpeedHere Part.rearCounts
  simp only [Bool.or_eq_true, decide_eq_true_eq, beq_iff_eq, List.isEmpty_iff, or_assoc]

theorem permittedSpeed_of_noSpeed {p : Part} (h : Safety.noSpeedHere p) : p.permittedSpeed = 0 := by
  unfold Part.permittedSpeed
  rw [if_pos ((noSpeed_iff p).2 h)]

/-- Where a limit applies, P is the lowest of them (R71). -/
theorem permittedSpeed_lowest {p : Part} (h : ¬ Safety.noSpeedHere p) (hl : ∃ l, Safety.limitApplies p l) :
    Safety.limitApplies p p.permittedSpeed ∧ ∀ l, Safety.limitApplies p l → p.permittedSpeed ≤ l := by
  simp only [← mem_limits] at hl ⊢
  have lowest : p.limits.min? = some p.permittedSpeed := by
    unfold Part.permittedSpeed
    rw [if_neg (mt (noSpeed_iff p).1 h)]
    obtain ⟨l, hl⟩ := hl
    cases hp : p.limits with
    | nil => rw [hp] at hl; cases hl
    | cons x xs => rfl
  exact List.min?_eq_some_iff.1 lowest

theorem gradientClass_eq (g : Int) : gradientClass g = Safety.gradeClass g := by
  unfold gradientClass Safety.gradeClass
  split_ifs <;> omega

theorem brakingDistance_eq (p : Part) :
    p.brakingDistance = p.prf.settings.braking (Safety.classHere p) (min (p.odo.speed / 128) 7) := by
  have cls : (p.odo.segment.bind fun i => p.prf.active[i]?) = p.segmentHere := by
    unfold Part.segmentHere; cases p.odo.segment <;> rfl
  unfold Part.brakingDistance Safety.classHere
  rw [cls, supervisionDir_eq]
  cases p.segmentHere with
  | none => rfl
  | some r => cases Safety.direction p <;> simp only [gradientClass_eq]

theorem effectiveEnd_eq (p : Part) : p.aut.effectiveEnd = Safety.endAhead p := by
  unfold Aut.effectiveEnd Safety.endAhead
  cases p.aut.next <;> cases p.aut.current <;> rfl

theorem distanceTo_eq (p : Part) (d : Dir) (tooth : Nat) : p.distanceTo d tooth =
    match d with
    | .up => (tooth : Int) * 16 - p.odo.pos.toInt
    | .down => p.odo.pos.toInt - (p.prf.settings.carLength : Int) * 16 - (tooth : Int) * 16 := by
  cases d <;> rfl

/-- The numbers worked out afresh stand as R71 to R73 give them. -/
theorem ssuNumbers_stand (p : Part) : Safety.numbersStand (ssuNumbers p) := by
  refine ⟨permittedSpeed_of_noSpeed (p := p), permittedSpeed_lowest (p := p), brakingDistance_eq p, effectiveEnd_eq p,
    fun nowhere => ?_, fun tooth ahead => ?_⟩
  · unfold ssuNumbers
    simp only [Part.withSsu_ssu, (effectiveEnd_eq p).trans nowhere]; rfl
  · unfold ssuNumbers
    simp only [Part.withSsu_ssu, (effectiveEnd_eq p).trans ahead, supervisionDir_eq]
    exact distanceTo_eq p _ tooth

/-- P, B, E and d stand on while position, profile, authorities, restrictions and the numbers do. -/
theorem numbersStand_congr {p q : Part} (odo : q.odo = p.odo) (prf : q.prf = p.prf) (aut : q.aut = p.aut)
    (ssu : ∃ hold state request, q.ssu = { p.ssu with hold := hold, state := state, request := request })
    (h : Safety.numbersStand p) : Safety.numbersStand q := by
  obtain ⟨hold, state, request, ssu⟩ := ssu
  have same : q = (((q.withOdo p.odo).withPrf p.prf).withAut p.aut).withSsu
      { p.ssu with hold := hold, state := state, request := request } := by
    rw [← odo, ← prf, ← aut, ← ssu]; rfl
  rw [same]; exact h

/-! ### An evaluation in RUN (R74 to R77) -/

/-- The overspeed hold after an evaluation (R75). -/
def overspeedHeld (p : Part) : Bool :=
  overspeedHold p.odo.speed p.ssu.permitted p.prf.settings.interventionMargin p.ssu.hold

/-- The evaluation trips (R76). -/
def tripsNow (p : Part) : Bool := p.ssu.permitted + p.prf.settings.emergencyMargin < p.odo.speed && p.ssu.state != .tripped

/-- The supervision level below a trip (R75, R77). -/
def levelBelowTrip (p : Part) : SupervisionState :=
  (overspeedLevel p.odo.speed p.ssu.permitted p.prf.settings.warningMargin (overspeedHeld p)).max
    (if curveIntervention p then .intervention else if curveWarning p then .warning else .normal)

/-- The stage and cause of the following request (R77). -/
def supervisionAsks (p : Part) : Stage × Nat :=
  if curveIntervention p then (.s3, 2) else if overspeedHeld p then (.s2, 1) else (.released, 0)

/-- The supervision state after an evaluation (R76, R77). -/
def stateAfter (p : Part) : SupervisionState := if p.ssu.state = .tripped ∨ tripsNow p = true then .tripped else levelBelowTrip p

/-- The first part of an evaluation: the hold and the supervision state with its event. -/
def stateTaken (p : Part) : Part :=
  let q := p.withSsu { p.ssu with hold := overspeedHeld p }
  if p.ssu.state == .tripped then q else toSupervision (if tripsNow p then .tripped else levelBelowTrip p) q

/-- The second part: a trip latches SUPERVISION at EMERGENCY. -/
def tripTaken (p : Part) : Part := if tripsNow p then latchEntry .supervision .emergency 3 (stateTaken p) else stateTaken p

theorem evaluateRun_eq (p : Part) :
    evaluateRun p = requestSupervision (supervisionAsks p).1 (supervisionAsks p).2 (tripTaken p) := by
  show (if curveIntervention p then requestSupervision .s3 2 (tripTaken p)
    else if overspeedHeld p then requestSupervision .s2 1 (tripTaken p) else requestSupervision .released 0 (tripTaken p)) = _
  unfold supervisionAsks
  split_ifs <;> rfl

theorem tripsNow_iff (p : Part) :
    tripsNow p = true ↔ p.ssu.permitted + p.prf.settings.emergencyMargin < p.odo.speed ∧ p.ssu.state ≠ .tripped := by
  simp [tripsNow]

theorem not_tripsNow {p : Part} (h : p.ssu.state = .tripped ∨ p.odo.speed ≤ p.ssu.permitted + p.prf.settings.emergencyMargin) :
    tripsNow p = false := by
  rw [Bool.eq_false_iff, Ne, tripsNow_iff]
  rintro ⟨above, notTripped⟩
  rcases h with h | h
  · exact notTripped h
  · omega

theorem toSupervision_ssu (s : SupervisionState) (p : Part) : (toSupervision s p).ssu = { p.ssu with state := s } := by
  unfold toSupervision
  split
  · rename_i h; rw [← beq_iff_eq.1 h]
  · rfl

theorem toSupervision_posts (s : SupervisionState) {p q : Part} (h : s ≠ p.ssu.state) (hq : (toSupervision s p).evq.queue <+: q.evq.queue) :
    Safety.posts p q [(.supervisionState, BitVec.ofNat 16 s.code, p.odo.pos)] := by
  unfold toSupervision at hq
  rw [if_neg (by simpa using h.symm)] at hq
  exact posts_of_evq (posts_one _ _ _ _ hq) rfl rfl

theorem stateTaken_ssu (p : Part) : (stateTaken p).ssu = { p.ssu with hold := overspeedHeld p, state := stateAfter p } := by
  unfold stateTaken
  simp only [beq_iff_eq]
  split
  · rename_i h
    rw [show stateAfter p = p.ssu.state from (if_pos (.inl h)).trans h.symm]; rfl
  · rename_i h
    have state : stateAfter p = if tripsNow p then .tripped else levelBelowTrip p := by unfold stateAfter; simp only [h, false_or]
    rw [toSupervision_ssu, state]; rfl

theorem stateTaken_brk (p : Part) : (stateTaken p).brk = p.brk := by
  unfold stateTaken
  simp only
  split
  · rfl
  · exact toSupervision_brk _ _

/-- The state of an evaluation is posted where it is a new one. -/
theorem stateTaken_posts {p q : Part} (h : stateAfter p ≠ p.ssu.state) (hq : (stateTaken p).evq.queue <+: q.evq.queue) :
    Safety.posts p q [(.supervisionState, BitVec.ofNat 16 (stateAfter p).code, p.odo.pos)] := by
  by_cases ht : p.ssu.state = .tripped
  · exact absurd (by unfold stateAfter; rw [if_pos (.inl ht), ht]) h
  · have e : stateAfter p = if tripsNow p then .tripped else levelBelowTrip p := by
      unfold stateAfter; simp only [ht, false_or]
    unfold stateTaken at hq
    simp only [beq_iff_eq, ht, if_false] at hq
    rw [e] at h ⊢
    exact posts_of_evq (toSupervision_posts (p := p.withSsu { p.ssu with hold := overspeedHeld p }) _ h hq) rfl rfl

theorem tripTaken_ssu (p : Part) : (tripTaken p).ssu = (stateTaken p).ssu := by
  unfold tripTaken
  split
  · rw [(latchEntry_requested _ _ _ _).rest]; rfl
  · rfl

theorem latchEntry_pre (d : DemandSource) (s : Stage) (c : Nat) (p : Part) : p.evq.queue <+: (latchEntry d s c p).evq.queue :=
  (latchEntry_requested d s c p).pre

theorem tripTaken_pre (p : Part) : (stateTaken p).evq.queue <+: (tripTaken p).evq.queue := by
  unfold tripTaken
  split
  · exact latchEntry_pre _ _ _ _
  · exact List.prefix_refl _

theorem tripTaken_entry {p : Part} (h : tripsNow p = false) : (tripTaken p).entry .supervision = p.entry .supervision := by
  unfold tripTaken Part.entry
  rw [h, if_neg Bool.false_ne_true, stateTaken_brk]

theorem requestSupervision_cases (s : Stage) (c : Nat) (p : Part) :
    (p.ssu.request = (s, causeByte s c) ∧ requestSupervision s c p = p)
    ∨ (p.ssu.request ≠ (s, causeByte s c)
      ∧ requestSupervision s c p = followEntry .supervision s c (p.withSsu { p.ssu with request := (s, causeByte s c) })) := by
  unfold requestSupervision
  by_cases h : p.ssu.request = (s, causeByte s c)
  · exact .inl ⟨h, if_pos (beq_iff_eq.2 h)⟩
  · exact .inr ⟨h, if_neg (mt beq_iff_eq.1 h)⟩

theorem requestSupervision_ssu (s : Stage) (c : Nat) (p : Part) :
    (requestSupervision s c p).ssu = { p.ssu with request := (s, causeByte s c) } := by
  rcases requestSupervision_cases s c p with ⟨same, e⟩ | ⟨-, e⟩ <;> rw [e]
  · rw [← same]
  · rw [(followEntry_requested _ _ _ _).rest]; rfl

/-- The SUPERVISION entry at a following request: it stands where it is latched or the request is the one made before, and takes
stage and cause of the request else (R43, R77). -/
theorem requestSupervision_entry (s : Stage) (c : Nat) (p : Part) :
    ((p.entry .supervision).latched = true ∨ (s, causeByte s c) = p.ssu.request →
      (requestSupervision s c p).entry .supervision = p.entry .supervision)
    ∧ ((p.entry .supervision).latched = false → (s, causeByte s c) ≠ p.ssu.request →
      ((requestSupervision s c p).entry .supervision).stage = s ∧ ((requestSupervision s c p).entry .supervision).cause = causeByte s c
      ∧ ((requestSupervision s c p).entry .supervision).latched = false) := by
  rcases requestSupervision_cases s c p with ⟨same, e⟩ | ⟨new, e⟩ <;> rw [e]
  · exact ⟨fun _ => rfl, fun _ h => absurd same.symm h⟩
  · refine ⟨fun h => ?_, fun h _ => ?_⟩
    · have latched := h.resolve_right fun x => new x.symm
      rw [followEntry_latched _ _ _ (p.withSsu { p.ssu with request := (s, causeByte s c) }) latched]; rfl
    · obtain ⟨stage, latched, cause⟩ :=
        followEntry_entry .supervision s c (p.withSsu { p.ssu with request := (s, causeByte s c) }) h
      exact ⟨stage, cause, latched⟩

/-- A following request of SUPERVISION is a change that any command may make. -/
theorem requestSupervision_soft (s : Stage) (c : Nat) (p : Part) : Moves [] p (requestSupervision s c p) :=
  requestSupervision_moves s c (Moves.refl p)

/-- What SSU holds after an evaluation in RUN. -/
theorem evaluateRun_ssu (p : Part) : (evaluateRun p).ssu =
    { p.ssu with
      hold := overspeedHeld p, state := stateAfter p
      request := ((supervisionAsks p).1, causeByte (supervisionAsks p).1 (supervisionAsks p).2) } := by
  rw [evaluateRun_eq, requestSupervision_ssu, tripTaken_ssu, stateTaken_ssu]

theorem stateTaken_flagged {p : Part} (h : tripsNow p = true) : Safety.flagged .supervision (stateTaken p) := by
  have notTripped := ((tripsNow_iff p).1 h).2
  have e : stateTaken p = toSupervision .tripped (p.withSsu { p.ssu with hold := overspeedHeld p }) := by
    unfold stateTaken; simp only [beq_iff_eq, notTripped, if_false, h, if_true]
  have posted : toSupervision .tripped (p.withSsu { p.ssu with hold := overspeedHeld p })
      = postIf .supervisionState (BitVec.ofNat 16 SupervisionState.tripped.code) true
          (p.withSsu { p.ssu with hold := overspeedHeld p, state := .tripped }) := by
    unfold toSupervision
    rw [if_neg (by simpa using notTripped)]; rfl
  rw [e, posted]
  exact flagged_post _ _ _ _ rfl

/-- A trip: TRIPPED, SUPERVISION latched at EMERGENCY, the fault bit and the event (R76, R77). -/
theorem evaluateRun_trips {p : Part} (h : tripsNow p = true) :
    (evaluateRun p).ssu.state = .tripped ∧ Safety.latchedAt .supervision .emergency (evaluateRun p)
    ∧ Safety.flagged .supervision (evaluateRun p) ∧ Safety.posts p (evaluateRun p) [(.supervisionState, 4, p.odo.pos)] := by
  have state : stateAfter p = .tripped := if_pos (.inr h)
  have new : stateAfter p ≠ p.ssu.state := state ▸ ((tripsNow_iff p).1 h).2.symm
  have trip : tripTaken p = latchEntry .supervision .emergency 3 (stateTaken p) := if_pos h
  have soft := requestSupervision_soft (supervisionAsks p).1 (supervisionAsks p).2 (tripTaken p)
  have taken : Moves [] (stateTaken p) (tripTaken p) := by
    rw [trip]; exact latchEntry_moves _ _ _ (by decide) (Moves.refl _)
  have pre := (tripTaken_pre p).trans (soft.frame.pre (by decide))
  refine ⟨by rw [evaluateRun_ssu]; exact state, ?_, ?_, ?_⟩ <;> rw [evaluateRun_eq]
  · exact latched_after (trip ▸ latchEntry_latched _ _ _ _) (by decide) soft (by decide)
  · exact flagged_moves (stateTaken_flagged h) (taken.trans soft) (by decide)
  · have posts := stateTaken_posts new pre
    rw [state] at posts
    exact posts

/-- The level that an evaluation without a trip gives (R75, R77). -/
theorem levelBelowTrip_spec (p : Part) :
    Safety.levelHere (p.withSsu { p.ssu with hold := overspeedHeld p }) (levelBelowTrip p) := by
  have curve : Safety.curveHolds (p.withSsu { p.ssu with hold := overspeedHeld p }) ↔ curveIntervention p = true := by
    unfold Safety.curveHolds curveIntervention
    rw [Bool.and_eq_true, decide_eq_true_eq, decide_eq_true_eq]; exact Iff.rfl
  have warn : Safety.curveWarns (p.withSsu { p.ssu with hold := overspeedHeld p }) ↔ curveWarning p = true := by
    unfold Safety.curveWarns curveWarning
    rw [decide_eq_true_eq, Int.natCast_add]; exact Iff.rfl
  unfold Safety.levelHere levelBelowTrip overspeedLevel
  simp only [curve, warn, Part.withSsu_ssu, Part.withSsu_odo, Part.withSsu_prf]
  generalize overspeedHeld p = held
  by_cases above : p.ssu.permitted < p.odo.speed
  · by_cases margin : p.ssu.permitted + p.prf.settings.warningMargin < p.odo.speed <;>
      cases held <;> cases curveIntervention p <;> cases curveWarning p <;>
        simp [above, margin, Nat.not_le.2, Nat.le_of_not_lt, SupervisionState.max, SupervisionState.code]
  · cases curveIntervention p <;> cases curveWarning p <;>
      simp [above, Nat.not_lt.1 above, SupervisionState.max, SupervisionState.code]

/-- The hold of an evaluation (R75). -/
theorem overspeedHeld_spec (p : Part) :
    (p.ssu.permitted + p.prf.settings.interventionMargin < p.odo.speed → overspeedHeld p = true)
    ∧ (p.odo.speed ≤ p.ssu.permitted → overspeedHeld p = false)
    ∧ (p.ssu.permitted < p.odo.speed → p.odo.speed ≤ p.ssu.permitted + p.prf.settings.interventionMargin →
      overspeedHeld p = p.ssu.hold) := by
  unfold overspeedHeld overspeedHold
  refine ⟨fun h => if_pos h, fun h => ?_, fun h1 h2 => ?_⟩
  · rw [if_neg (by omega), if_pos h]
  · rw [if_neg (by omega), if_neg (by omega)]

/-- An evaluation in RUN makes the checks of R74 to R77. -/
theorem evaluateRun_checks (p : Part) (odo : (evaluateRun p).odo = p.odo) (prf : (evaluateRun p).prf = p.prf) :
    Safety.checkedInRun p (evaluateRun p) := by
  have ssu := evaluateRun_ssu p
  have curve : Safety.curveHolds (evaluateRun p) ↔ curveIntervention p = true := by
    unfold Safety.curveHolds curveIntervention
    rw [ssu, odo, prf, Bool.and_eq_true, decide_eq_true_eq, decide_eq_true_eq]
  obtain ⟨holdAbove, holdBelow, holdBetween⟩ := overspeedHeld_spec p
  have soft := requestSupervision_soft (supervisionAsks p).1 (supervisionAsks p).2 (tripTaken p)
  have pre : (stateTaken p).evq.queue <+: (evaluateRun p).evq.queue := by
    rw [evaluateRun_eq]; exact (tripTaken_pre p).trans (soft.frame.pre (by decide))
  have request : (evaluateRun p).ssu.request = ((supervisionAsks p).1, causeByte (supervisionAsks p).1 (supervisionAsks p).2) := by
    rw [ssu]
  unfold Safety.checkedInRun
  simp only [curve, odo, prf, ssu]
  refine ⟨holdAbove, holdBelow, holdBetween, fun h => if_pos (.inl h), fun h1 h2 => ?_, fun h1 h2 => ⟨?_, fun h => ?_⟩,
    fun h => ?_, fun h1 h2 => ?_, fun h1 h2 => ?_, fun h => ?_⟩
  · have trips := evaluateRun_trips ((tripsNow_iff p).2 ⟨h2, h1⟩)
    rw [ssu] at trips
    exact trips
  · have state : stateAfter p = levelBelowTrip p := if_neg (by rw [not_tripsNow (.inr h2)]; simp [h1])
    rw [state]
    have level := levelBelowTrip_spec p
    unfold Safety.levelHere Safety.curveHolds Safety.curveWarns at level ⊢
    simp only [ssu, odo, prf]
    exact level
  · exact stateTaken_posts h pre
  · unfold supervisionAsks; rw [if_pos h]; rfl
  · unfold supervisionAsks; rw [if_neg h1, if_pos h2]; rfl
  · unfold supervisionAsks; rw [if_neg h1, if_neg (by simp [h2])]; rfl
  · have entry := tripTaken_entry (not_tripsNow h)
    have asked := requestSupervision_entry (supervisionAsks p).1 (supervisionAsks p).2 (tripTaken p)
    have before : (tripTaken p).ssu.request = p.ssu.request := by rw [tripTaken_ssu, stateTaken_ssu]
    rw [entry, before, ← evaluateRun_eq] at asked
    exact asked

/-! ### Evaluations -/

theorem ssuEvaluate_live {p : Part} (h : p.asserted = false) :
    ssuEvaluate p = if p.mod.mode = .run then evaluateRun (ssuNumbers p) else ssuNumbers p := by
  unfold ssuEvaluate
  rw [if_neg (by rw [h]; decide)]
  simp only [beq_iff_eq]; rfl

theorem ssuEvaluate_prf (p : Part) : (ssuEvaluate p).prf = p.prf := (ssuEvaluate_returned p).prf

theorem ssuEvaluate_run {p : Part} (h : p.asserted = false) (hm : p.mod.mode = .run) : ssuEvaluate p = evaluateRun (ssuNumbers p) :=
  (ssuEvaluate_live h).trans (if_pos hm)

theorem ssuEvaluate_idle {p : Part} (h : p.asserted = false) (hm : p.mod.mode ≠ .run) : ssuEvaluate p = ssuNumbers p :=
  (ssuEvaluate_live h).trans (if_neg hm)

/-- After an evaluation P, B, E and d stand. -/
theorem ssuEvaluate_stands {p : Part} (h : p.asserted = false) : Safety.numbersStand (ssuEvaluate p) := by
  by_cases hm : p.mod.mode = .run
  · have ssu := evaluateRun_ssu (ssuNumbers p)
    rw [← ssuEvaluate_run h hm] at ssu
    obtain ⟨aut, odo⟩ := ssuEvaluate_aut p
    exact numbersStand_congr (p := ssuNumbers p) odo (ssuEvaluate_prf p) aut ⟨_, _, _, ssu⟩ (ssuNumbers_stand p)
  · rw [ssuEvaluate_idle h hm]; exact ssuNumbers_stand p

/-- In RUN an evaluation makes its checks, on the numbers it has worked out. -/
theorem ssuEvaluate_checks {p : Part} (h : p.asserted = false) (hm : p.mod.mode = .run) :
    Safety.checkedInRun (ssuNumbers p) (ssuEvaluate p) := by
  have e := ssuEvaluate_run h hm
  have odo := (ssuEvaluate_aut p).2
  have prf := ssuEvaluate_prf p
  rw [e] at odo prf ⊢
  exact evaluateRun_checks _ odo prf

end Sys2Proof.Machine
end

section
/-! The tick of the speed window and the standstill timer (R17, R18). -/

namespace Sys2Proof.Machine

/-- The part at a tick, its speed formed, before SSU evaluates. -/
def ticked (p : Part) : Part :=
  let w := (p.odo.bucket :: p.odo.window).take 100
  (p.withNow (p.now + 1)).withOdo { p.odo with window := w, bucket := 0, speed := windowSpeed w }

/-- A tick: speed is formed, and SSU evaluates on a changed one. -/
theorem windowTick_eq (p : Part) : windowTick (p.withNow (p.now + 1)) =
    if (ticked p).odo.speed = p.odo.speed then ticked p else ssuEvaluate (ticked p) := by
  unfold windowTick
  simp only [beq_iff_eq]; rfl

theorem windowTick_moves_ticked (p : Part) : Moves [] (ticked p) (windowTick (p.withNow (p.now + 1))) := by
  rw [windowTick_eq]
  split
  · exact Moves.refl _
  · exact ssuEvaluate_moves (Moves.refl _)

theorem windowSpeed_eq (w : List Int) : windowSpeed w = min (w.sum.natAbs * 10) 4095 := by
  unfold windowSpeed; rw [sum_foldl]

/-- A tick, where cold reset does not hold it off. -/
theorem speedWindowTick_ends {s : State} (h : s.part.coldLine = false) (P : State → Prop)
    (hP : ∀ t : State, t.part = finish s.part (windowTick (s.part.withNow (s.part.now + 1))) → P t) :
    ∃ t, exec .speedWindowTick s = .next t ∧ P t := by
  refine partRow_ends (live fun p => windowTick (p.withNow (p.now + 1))) s P fun t part _ _ => hP t ?_
  rw [part]
  unfold live
  rw [if_neg (by rw [h]; decide)]

/-- The time base moves by 1 ms and measured speed is formed (R17, R187). -/
theorem tick_forms_speed (s : State) (h : s.part.coldLine = false) :
    ∃ t, exec .speedWindowTick s = .next t
      ∧ t.part.now = s.part.now + 1 ∧ t.part.odo.window = (s.part.odo.bucket :: s.part.odo.window).take 100
      ∧ t.part.odo.bucket = 0 ∧ t.part.odo.speed = min (t.part.odo.window.sum.natAbs * 10) 4095 := by
  refine speedWindowTick_ends h _ fun t part => ?_
  have moved : Moves [.mode] (ticked s.part) t.part := by
    rw [part]
    exact finish_moves _ (by decide) ((windowTick_moves_ticked s.part).mono (List.nil_subset _))
  obtain ⟨-, -, -, -, window, bucket, speed, -, -, -⟩ := moved.frame.odo (by decide)
  refine ⟨moved.frame.now (by decide), window, bucket, ?_⟩
  rw [window, speed]
  exact windowSpeed_eq _

/-- The standstill timer's expiry starts standstill, with its event (R18). -/
theorem standstillTimerExpiry_starts (s : State) (due : s.part.due s.part.odo.standTimer s.part.prf.settings.standstillTime = true)
    (h : s.part.asserted = false) (moving : s.part.odo.standstill = false) :
    ∃ t, exec .standstillTimerExpiry s = .next t
      ∧ t.part.odo.standstill = true ∧ t.part.odo.standTimer = none
      ∧ Safety.posts s.part t.part [(.standstill, 0, s.part.odo.pos)] := by
  refine partRow_ends standstillExpiry s _ fun t part _ _ => ?_
  have starts : standstillExpiry s.part = standstillStarts s.part := by
    unfold standstillExpiry
    rw [if_pos (by rw [due, h]; rfl), if_neg (by rw [moving]; decide)]
  have moved : Moves [.mode, .ord]
      (post .standstill 0 (s.part.withOdo { s.part.odo with standstill := true, standTimer := none })) t.part := by
    rw [part, starts]
    exact finish_moves _ (by decide) (handleJudge_moves (by decide) (by decide) (Moves.refl _))
  obtain ⟨-, -, -, -, -, -, -, -, standstill, standTimer⟩ := moved.frame.odo (by decide)
  exact ⟨standstill, standTimer, posts_of_evq (posts_one _ _ _ true (moved.frame.pre (by decide))) rfl rfl⟩

/-- A tick on which no return to STAND follows: SSU evaluates on a changed speed and only then (R70, R74 to R77). -/
theorem tick_evaluates (s : State) (h : s.part.asserted = false) (hm : s.part.mod.mode ≠ .run ∨ s.part.odo.standstill = false) :
    ∃ t, exec .speedWindowTick s = .next t
      ∧ (t.part.odo.speed = s.part.odo.speed →
          t.part.ssu = s.part.ssu ∧ t.part.brk = s.part.brk ∧ t.part.evq.queue = s.part.evq.queue)
      ∧ (t.part.odo.speed ≠ s.part.odo.speed → Safety.numbersStand t.part
          ∧ (s.part.mod.mode ≠ .run →
              t.part.ssu.state = s.part.ssu.state ∧ t.part.ssu.hold = s.part.ssu.hold ∧ t.part.brk = s.part.brk)
          ∧ (s.part.mod.mode = .run → Safety.checkedInRun (s.part.withNow t.part.now) t.part)) := by
  have cold : s.part.coldLine = false := by
    unfold Part.asserted at h; exact (Bool.or_eq_false_iff.1 h).1
  refine speedWindowTick_ends cold _ fun t part => ?_
  have frame := (windowTick_moves_ticked s.part).frame
  obtain ⟨-, -, -, -, -, -, speed, -, standstill, -⟩ := frame.odo (by decide)
  have mode := frame.mode (by decide)
  have now := frame.now (by decide)
  have noReturn : ((windowTick (s.part.withNow (s.part.now + 1))).mod.mode == .run
      && (windowTick (s.part.withNow (s.part.now + 1))).odo.standstill
      && (windowTick (s.part.withNow (s.part.now + 1))).anyLatched) = false := by
    rw [mode, standstill]
    rcases hm with hm | hm
    · rw [beq_false_of_ne (show (ticked s.part).mod.mode ≠ .run from hm)]; rfl
    · rw [show (ticked s.part).odo.standstill = false from hm, Bool.and_false]; rfl
  obtain ⟨g, ends⟩ := finish_eq s.part noReturn
  rw [part, ends]
  simp only [Part.withBridge_odo, Part.withBridge_ssu, Part.withBridge_brk, Part.withBridge_evq, Part.withBridge_now, now, speed]
  rw [windowTick_eq]
  refine ⟨fun same => ?_, fun new => ?_⟩
  · rw [if_pos same]; exact ⟨rfl, rfl, rfl⟩
  · rw [if_neg new]
    refine ⟨ssuEvaluate_stands (p := ticked s.part) h, fun notRun => ?_, fun run => ssuEvaluate_checks (p := ticked s.part) h run⟩
    rw [ssuEvaluate_idle (p := ticked s.part) h notRun]
    exact ⟨rfl, rfl, rfl⟩

/-- Settles O18: the three clauses, each from what the tick or the expiry ends with. -/
theorem tickAndStandstill : Obligations.TickAndStandstill := by
  unfold Obligations.TickAndStandstill
  exact fun s => ⟨tick_forms_speed s, standstillTimerExpiry_starts s, tick_evaluates s⟩

end Sys2Proof.Machine
end

section
/-! What follows a count while no brake test runs: the mode, the creep and reverse counters and the direction of the authorities stand
until the count's own turn for them comes (R16, R66). -/

namespace Sys2Proof.Machine

/-! ### Changes of the other blocks -/

/-- ODO, MOD, AUT and BRK stand. -/
structure Elsewhere (p q : Part) : Prop where
  odo : q.odo = p.odo
  mod : q.mod = p.mod
  aut : q.aut = p.aut
  brk : q.brk = p.brk

section
variable {p q r : Part}

theorem Elsewhere.refl (p : Part) : Elsewhere p p := ⟨rfl, rfl, rfl, rfl⟩

theorem Elsewhere.trans (a : Elsewhere p q) (b : Elsewhere q r) : Elsewhere p r :=
  ⟨b.odo.trans a.odo, b.mod.trans a.mod, b.aut.trans a.aut, b.brk.trans a.brk⟩

theorem Elsewhere.foldl {α : Type} (f : Part → α → Part) (hf : ∀ r a, Elsewhere r (f r a)) (l : List α) (p : Part) :
    Elsewhere p (l.foldl f p) := by
  induction l generalizing p with
  | nil => exact .refl _
  | cons a l ih => exact (hf _ _).trans (ih _)

end

theorem doorTo_elsewhere (d : Fin 8) (s : DoorState) (m : Option Word) (p : Part) : Elsewhere p (doorTo d s m p) := ⟨rfl, rfl, rfl, rfl⟩

theorem startReopening_elsewhere (d : Fin 8) (p : Part) : Elsewhere p (startReopening d p) := ⟨rfl, rfl, rfl, rfl⟩

theorem leaveOpen_elsewhere (d : Fin 8) (p : Part) : Elsewhere p (leaveOpen d p) := ⟨rfl, rfl, rfl, rfl⟩

theorem setSide_elsewhere (s : Side) (r : SideRec) (p : Part) : Elsewhere p (setSide s r p) := by
  cases s <;> exact ⟨rfl, rfl, rfl, rfl⟩

theorem enterClosing_elsewhere (n : Nat) (d : Fin 8) (p : Part) : Elsewhere p (enterClosing n d p) := by
  induction n generalizing p with
  | zero => exact .refl _
  | succ n ih =>
    unfold enterClosing
    extract_lets q r
    have closing : Elsewhere p q := doorTo_elsewhere _ _ _ _
    have reopening : Elsewhere p r := closing.trans (startReopening_elsewhere d q)
    split
    · exact closing.trans (doorTo_elsewhere _ _ _ _)
    · split
      · split
        · split
          · exact reopening.trans (ih r)
          · exact reopening.trans (leaveOpen_elsewhere d r)
        · exact reopening
      · exact closing

theorem withdrawDoor_elsewhere (d : Fin 8) (p : Part) : Elsewhere p (withdrawDoor d p) := by
  unfold withdrawDoor
  split
  · have cleared : Elsewhere p (setDoor d (fun r => { r with retries := 0, closeFailed := false }) p) := ⟨rfl, rfl, rfl, rfl⟩
    exact cleared.trans (enterClosing_elsewhere 10 d _)
  · exact .refl _

theorem withdrawSide_elsewhere (s : Side) (c : WithdrawCause) (p : Part) : Elsewhere p (withdrawSide s c p) := by
  unfold withdrawSide
  split
  · have withdrawn := setSide_elsewhere s { p.side s with released := false, platform := 0 } p
    have posted : Elsewhere p (post .sideWithdrawn (arg2 s.code c.code) (setSide s { p.side s with released := false, platform := 0 } p)) :=
      withdrawn.trans ⟨rfl, rfl, rfl, rfl⟩
    exact posted.trans (.foldl _ (fun r d => withdrawDoor_elsewhere d r) _ _)
  · exact .refl _

theorem sideCheck_elsewhere (s : Side) (p : Part) : Elsewhere p (sideCheck s p) := by
  unfold sideCheck; split; exacts [withdrawSide_elsewhere _ _ _, .refl _]

theorem checkOpen_elsewhere (s : Side) (p : Part) : Elsewhere p (checkOpen s p) := by
  unfold checkOpen
  split
  · simp only
    split
    · cases s <;> exact ⟨rfl, rfl, rfl, rfl⟩
    · exact .refl _
  · exact .refl _

theorem checkClose_elsewhere (s : Side) (p : Part) : Elsewhere p (checkClose s p) := by
  unfold checkClose
  split
  · simp only
    split
    · cases s <;> exact ⟨rfl, rfl, rfl, rfl⟩
    · exact .refl _
  · exact .refl _

theorem checkDoorOrders_elsewhere (p : Part) : Elsewhere p (checkDoorOrders p) :=
  (((checkOpen_elsewhere .left p).trans (checkOpen_elsewhere .right _)).trans (checkClose_elsewhere .left _)).trans
    (checkClose_elsewhere .right _)

theorem offer_elsewhere (f : TxFrame) (p : Part) : Elsewhere p (offer f p) := by
  rw [offer_radio]; exact ⟨rfl, rfl, rfl, rfl⟩

theorem handAlarm_elsewhere (k : AlarmKind) (p : Part) : Elsewhere p (handAlarm k p) := offer_elsewhere _ _

theorem handReport_elsewhere (p : Part) : Elsewhere p (handReport p) := by
  unfold handReport
  simp only
  split
  · exact offer_elsewhere _ _
  · exact (offer_elsewhere _ _).trans ⟨rfl, rfl, rfl, rfl⟩

/-! ### No brake test, and the counters stand -/

/-- CURRENT runs in a direction, and NEXT, where it is held, in the same (R92). -/
def Heads (d : Dir) (p : Part) : Prop := ∃ a, p.aut.current = some a ∧ a.dir = d ∧ ∀ n, p.aut.next = some n → n.dir = d

theorem Heads.of_slots {d : Dir} {p q : Part} (current : q.aut.current = p.aut.current) (next : q.aut.next = p.aut.next)
    (h : Heads d p) : Heads d q := by
  unfold Heads at h ⊢; rw [current, next]; exact h

/-- A change, with no brake test running at its end, that leaves MOD, the creep and reverse counters and the direction of the
authorities alone. -/
structure Paced (p q : Part) : Prop where
  test : q.brk.test = none
  mod : q.mod = p.mod
  creep : q.odo.creep = p.odo.creep
  reverse : q.odo.reverse = p.odo.reverse
  heads : ∀ d, Heads d p → Heads d q

section
variable {p q r : Part}

theorem Paced.refl (h : p.brk.test = none) : Paced p p := ⟨h, rfl, rfl, rfl, fun _ => id⟩

theorem Paced.trans (a : Paced p q) (b : Paced q r) : Paced p r :=
  ⟨b.test, b.mod.trans a.mod, b.creep.trans a.creep, b.reverse.trans a.reverse, fun d => b.heads d ∘ a.heads d⟩

theorem Paced.elsewhere (k : Paced p q) (e : Elsewhere q r) : Paced p r :=
  ⟨by rw [e.brk]; exact k.test, e.mod.trans k.mod, by rw [e.odo]; exact k.creep, by rw [e.odo]; exact k.reverse,
    fun d h => (k.heads d h).of_slots (by rw [e.aut]) (by rw [e.aut])⟩

theorem Paced.requested {d : DemandSource} (k : Paced p q) (e : Requested d q r) : Paced p r :=
  ⟨test_none e.test k.test, e.mod.trans k.mod, by rw [e.pos]; exact k.creep, by rw [e.pos]; exact k.reverse,
    fun d h => (k.heads d h).of_slots (by rw [e.rest]; rfl) (by rw [e.rest]; rfl)⟩

theorem Paced.foldl {α : Type} (f : Part → α → Part) (hf : ∀ r a, Paced p r → Paced p (f r a)) (l : List α) (k : Paced p q) :
    Paced p (l.foldl f q) := by
  induction l generalizing q with
  | nil => exact k
  | cons a l ih => exact ih (hf _ _ k)

theorem Paced.withAut (k : Paced p q) (x : Aut) (current : x.current = q.aut.current) (next : x.next = q.aut.next) :
    Paced p (q.withAut x) := ⟨k.test, k.mod, k.creep, k.reverse, fun d h => (k.heads d h).of_slots current next⟩

theorem Paced.withOdo (k : Paced p q) (x : Odo) (creep : x.creep = q.odo.creep) (reverse : x.reverse = q.odo.reverse) :
    Paced p (q.withOdo x) := ⟨k.test, k.mod, creep.trans k.creep, reverse.trans k.reverse, k.heads⟩

/-- With no test running a request has no further effect (R66). -/
theorem afterRequest_eq {d : DemandSource} {e : Entry} (h : p.brk.test = none) : afterRequest d e p = p := by
  unfold afterRequest; rw [h]

theorem latch_eq {d : DemandSource} {s : Stage} {c : Nat} (h : p.brk.test = none) : latch d s c p = latchEntry d s c p :=
  afterRequest_eq (test_none (latchEntry_requested d s c p).test h)

theorem follow_eq {d : DemandSource} {s : Stage} {c : Nat} (h : p.brk.test = none) : follow d s c p = followEntry d s c p :=
  afterRequest_eq (test_none (followEntry_requested d s c p).test h)

theorem post_paced (k : EventKind) (a : Half) (h : Paced p q) : Paced p (post k a q) := h.elsewhere ⟨rfl, rfl, rfl, rfl⟩

theorem latch_paced (d : DemandSource) (s : Stage) (c : Nat) (h : Paced p q) : Paced p (latch d s c q) := by
  rw [latch_eq h.test]; exact h.requested (latchEntry_requested d s c q)

theorem follow_paced (d : DemandSource) (s : Stage) (c : Nat) (h : Paced p q) : Paced p (follow d s c q) := by
  rw [follow_eq h.test]; exact h.requested (followEntry_requested d s c q)

theorem handAlarm_paced (a : AlarmKind) (h : Paced p q) : Paced p (handAlarm a q) := h.elsewhere (handAlarm_elsewhere a q)

theorem odoRequests_paced (rs : OdoRequests) (h : Paced p q) : Paced p (odoRequests rs q) :=
  .foldl _ (fun _ _ => latch_paced _ _ _) rs h

theorem ssuEvaluate_paced (h : Paced p q) : Paced p (ssuEvaluate q) := by
  have frame := (ssuEvaluate_moves (Moves.refl q) : Moves [] q (ssuEvaluate q)).frame
  obtain ⟨aut, odo⟩ := ssuEvaluate_aut q
  have mod : (ssuEvaluate q).mod = q.mod := by
    rw [(ssuEvaluate_returned q).mod, frame.mode (by decide)]
  exact ⟨test_none (frame.test (by decide)) h.test, mod.trans h.mod, by rw [odo]; exact h.creep, by rw [odo]; exact h.reverse,
    fun d k => (h.heads d k).of_slots (by rw [aut]) (by rw [aut])⟩

theorem autNumbers_paced (h : Paced p q) : Paced p (autNumbers q) := h.withAut _ rfl rfl

theorem overrun_paced (h : Paced p q) : Paced p (overrun q) := by
  have posted : Paced p (post .authOverrun (currentId q) (q.withAut { q.aut with overrun := true })) :=
    post_paced _ _ (h.withAut _ rfl rfl)
  unfold overrun
  refine handAlarm_paced _ ?_
  split; exacts [posted, latch_paced _ _ _ posted]

/-- NEXT takes over, and runs in the same direction. -/
theorem takeOver_paced (h : Paced p q) (held : q.aut.next.isSome = true) :
    Paced p (q.withAut { q.aut with current := q.aut.next, next := none }) := by
  refine ⟨h.test, h.mod, h.creep, h.reverse, fun d heads => ?_⟩
  obtain ⟨-, -, -, next⟩ := h.heads d heads
  obtain ⟨n, hn⟩ := Option.isSome_iff_exists.1 held
  exact ⟨n, hn, next n hn, fun _ none => nomatch none⟩

theorem handOver_paced (h : Paced p q) (held : q.aut.next.isSome = true) : Paced p (handOver q) :=
  ssuEvaluate_paced ((post_paced _ _ (autNumbers_paced (takeOver_paced h held))).elsewhere (handReport_elsewhere _))

theorem autJudge_paced (travel : Bool) (h : Paced p q) : Paced p (autJudge travel q) := by
  have numbers := autNumbers_paced h
  unfold autJudge
  extract_lets before q1 r
  split
  · split
    · have taken : Paced p r := handOver_paced numbers ‹_›
      split; exacts [overrun_paced taken, taken]
    · split; exacts [overrun_paced numbers, numbers]
  · exact numbers

theorem sideChecks_paced (h : Paced p q) : Paced p (sideChecks q) :=
  (((h.elsewhere (sideCheck_elsewhere .left q)).elsewhere (sideCheck_elsewhere .right _)).requested
    (followEntry_requested _ _ _ _)).elsewhere (checkDoorOrders_elsewhere _)

theorem handleJudge_paced (h : Paced p q) : Paced p (handleJudge q) := by
  unfold handleJudge
  split
  · exact latch_paced _ _ _ (h.elsewhere ⟨rfl, rfl, rfl, rfl⟩)
  · exact h

theorem spreadValidity_paced (h : Paced p q) : Paced p (spreadValidity q) :=
  sideChecks_paced (ssuEvaluate_paced (autNumbers_paced h))

theorem spreadPosition_paced (travel : Bool) (h : Paced p q) : Paced p (spreadPosition travel q) :=
  handleJudge_paced (sideChecks_paced (ssuEvaluate_paced (autJudge_paced travel (ssuEvaluate_paced h))))

/-! ### What odometry itself does -/

theorem makeUncertain_paced (c : Nat) (h : Paced p q) : Paced p (makeUncertain c q) := by
  unfold makeUncertain; split; exacts [post_paced _ _ (h.withOdo _ rfl rfl), h]

theorem chooseSource_paced (h : Paced p q) : Paced p (chooseSource q) := by
  unfold chooseSource; split; exacts [h, post_paced _ _ (h.withOdo _ rfl rfl)]

theorem losePosition_paced (h : Paced p q) : Paced p (losePosition q) := post_paced _ _ (h.withOdo _ rfl rfl)

theorem settleSource_paced (was : Odo) (h : Paced p q) : Paced p (settleSource was q).1 := by
  have chosen := chooseSource_paced h
  unfold settleSource
  simp only
  split
  · exact losePosition_paced chosen
  · split; exacts [makeUncertain_paced _ chosen, chosen]

theorem mismatch_paced (r : MismatchReason) (h : Paced p q) : Paced p (mismatch r q) := by
  have posted : Paced p (post .datumMismatch (BitVec.ofNat 16 r.code)
      (q.withOdo { q.odo with mismatches := sat8 q.odo.mismatches, capture := .idle })) := post_paced _ _ (h.withOdo _ rfl rfl)
  unfold mismatch
  simp only
  split; exacts [makeUncertain_paced _ posted, posted]

theorem captureWatch_paced (h : Paced p q) : Paced p (captureWatch q) := by
  unfold captureWatch
  split
  · split
    · exact mismatch_paced _ h
    · split <;> (split; exacts [mismatch_paced _ h, h])
  · exact h

theorem entryPass_paced (h : Paced p q) : Paced p (entryPass q).1 := by
  unfold entryPass
  extract_lets _ o q1 off
  have entered : Paced p q1 := chooseSource_paced (post_paced _ _ (h.withOdo o rfl rfl))
  simp only [off]
  split
  · exact post_paced _ _ entered
  · split; exacts [post_paced _ _ entered, entered]

theorem entryFail_paced (n : Nat) (h : Paced p q) : Paced p (entryFail n q).1 := by
  have chosen : Paced p (chooseSource (post .rackEntryFailed (argUnsigned n)
      (q.withOdo { q.odo with regime := .rack, entry := none }.zeroDeviation))) :=
    chooseSource_paced (post_paced _ _ (h.withOdo _ rfl rfl))
  unfold entryFail
  simp only
  split; exacts [losePosition_paced chosen, makeUncertain_paced _ chosen]

theorem entryJudge_paced (h : Paced p q) : Paced p (entryJudge q).1 := by
  unfold entryJudge
  split
  · split
    · simp only
      split
      · exact entryFail_paced _ h
      · split; exacts [entryPass_paced h, entryFail_paced _ h]
    · exact h
  · exact h

theorem crossRegime_paced (b : Bool) (d : Dir) (h : Paced p q) : Paced p (crossRegime b d q).1 := by
  unfold crossRegime
  split
  · split; exacts [settleSource_paced _ (h.withOdo _ rfl rfl), h]
  · split
    · exact settleSource_paced _ (post_paced _ _ (h.withOdo _ rfl rfl))
    · split; exacts [settleSource_paced _ (h.withOdo _ rfl rfl), h]

theorem followSegment_paced (d : Dir) (h : Paced p q) : Paced p (followSegment d q).1 := by
  have moved : Paced p (q.withOdo { q.odo with segment := segmentIndex q.odo.pos.toInt q.prf.active }) := h.withOdo _ rfl rfl
  unfold followSegment
  simp only
  split
  · split; exacts [moved, crossRegime_paced _ _ moved]
  · exact moved

theorem afterChange_paced {x : Part × OdoRequests} (h : Paced p x.1) : Paced p (afterChange x) :=
  spreadValidity_paced (odoRequests_paced _ (captureWatch_paced h))

theorem moveTo_paced (d : Dir) (h : Paced p q) : Paced p (moveTo d q) :=
  spreadPosition_paced _ (odoRequests_paced _ (captureWatch_paced (followSegment_paced d h)))

theorem climbOut_paced (h : Paced p q) : Paced p (climbOut q) := handAlarm_paced _ (latch_paced _ _ _ (post_paced _ _ h))

theorem deviationCount_paced (h : Paced p q) : Paced p (deviationCount q) := by
  have moved : Paced p (q.withOdo { q.odo with deviation := (q.odo.p1.tally - q.odo.ref1) - (q.odo.p2.tally - q.odo.ref2) }) :=
    h.withOdo _ rfl rfl
  unfold deviationCount
  split
  · simp only
    split; exacts [climbOut_paced moved, moved]
  · exact h

theorem entryCount_paced (e : Encoder) (c : Dir) (ran : Bool) (h : Paced p q) : Paced p (entryCount e c ran q) := by
  unfold entryCount
  split
  · split
    · exact afterChange_paced (entryJudge_paced (h.withOdo _ rfl rfl))
    · exact h
  · exact h

theorem captureCount_paced (c : Dir) (h : Paced p q) : Paced p (captureCount c q) := by
  unfold captureCount
  split
  · exact h
  · split
    · exact spreadValidity_paced (mismatch_paced _ h)
    · split; exacts [spreadValidity_paced (mismatch_paced _ h), h.withOdo _ rfl rfl]
  · split; exacts [spreadValidity_paced (mismatch_paced _ h), h.withOdo _ rfl rfl]

theorem travelCount_paced (c : Dir) (h : Paced p q) : Paced p (travelCount c q) := by
  unfold travelCount
  split
  · extract_lets rec' _ q1
    split
    · exact h
    · have recorded : Paced p q1 := h.withAut _ rfl rfl
      split; exacts [follow_paced _ _ _ recorded, follow_paced _ _ _ recorded]
  · exact h

end

end Sys2Proof.Machine
end

section
/-! Source, regime, segment and entry check: the operations that change them, said once, and what every other one leaves (R4 to R13). -/

namespace Sys2Proof.Machine

open Sys2Proof.Safety (Group)

/-! ### Events of a change -/

/-- A posting in the midst of a change is among the events of the change. -/
theorem posted_of {p x q : Part} {k : EventKind} {arg : Half} {pos : Word} {sets : Bool} (before : p.evq.queue <+: x.evq.queue)
    (after : (postAt k arg pos sets x).evq.queue <+: q.evq.queue) : Safety.posted k arg p q := by
  intro room
  have posting : x.evq.queue <+: (postAt k arg pos sets x).evq.queue := Evq.posting_prefix _ _ _ _ _ _
  obtain ⟨stored, -⟩ := postAt_queue k arg pos sets x (lt_of_le_of_lt (posting.trans after).length_le room)
  obtain ⟨l, hl⟩ := before
  obtain ⟨m, hm⟩ := after
  rw [stored, ← hl] at hm
  refine ⟨⟨x.evq.next, x.now, k, arg, pos⟩, ?_, rfl, rfl⟩
  rw [← hm]
  simp

theorem posted_more {p q r : Part} {k : EventKind} {arg : Half} (h : Safety.posted k arg p q) (pre : p.evq.queue <+: q.evq.queue)
    (more : q.evq.queue <+: r.evq.queue) : Safety.posted k arg p r := by
  intro room
  obtain ⟨e, mem, kind⟩ := h (lt_of_le_of_lt more.length_le room)
  obtain ⟨l, hl⟩ := more
  refine ⟨e, ?_, kind⟩
  rw [← hl, List.drop_append_of_le_length pre.length_le]
  exact List.mem_append_left _ mem

/-! ### What travel changes -/

/-- What the other blocks do when the car has moved. -/
abbrev roadMay : List Group := [.doors, .mode, .ord, .slots, .charge]

theorem roadTravel : Travel roadMay := by constructor <;> decide

/-- The same, with the changes of the track. -/
abbrev countMay : List Group := .track :: roadMay

theorem countTravel : Travel countMay := by constructor <;> decide

/-! ### The track -/

/-- Encoders, position, source, regime, segment and entry check stand; validity goes no further than to UNCERTAIN. -/
structure OnTrack (a b : Odo) : Prop where
  p1 : b.p1 = a.p1
  p2 : b.p2 = a.p2
  w : b.w = a.w
  pos : b.pos = a.pos
  source : b.source = a.source
  regime : b.regime = a.regime
  segment : b.segment = a.segment
  entry : b.entry = a.entry
  ref1 : b.ref1 = a.ref1
  ref2 : b.ref2 = a.ref2
  known : b.validity = .unknown ↔ a.validity = .unknown
  uncertain : a.validity = .uncertain → b.validity = .uncertain

/-- The same, and deviation stands. -/
structure SameTrack (a b : Odo) : Prop extends OnTrack a b where
  deviation : b.deviation = a.deviation

theorem OnTrack.refl (a : Odo) : OnTrack a a := ⟨rfl, rfl, rfl, rfl, rfl, rfl, rfl, rfl, rfl, rfl, Iff.rfl, id⟩

theorem SameTrack.refl (a : Odo) : SameTrack a a := ⟨.refl a, rfl⟩

theorem OnTrack.trans {a b c : Odo} (h : OnTrack a b) (k : OnTrack b c) : OnTrack a c :=
  ⟨k.p1.trans h.p1, k.p2.trans h.p2, k.w.trans h.w, k.pos.trans h.pos, k.source.trans h.source, k.regime.trans h.regime,
    k.segment.trans h.segment, k.entry.trans h.entry, k.ref1.trans h.ref1, k.ref2.trans h.ref2, k.known.trans h.known,
    k.uncertain ∘ h.uncertain⟩

theorem SameTrack.trans {a b c : Odo} (h : SameTrack a b) (k : SameTrack b c) : SameTrack a c :=
  ⟨h.toOnTrack.trans k.toOnTrack, k.deviation.trans h.deviation⟩

theorem OdoKept.sameTrack {a b : Odo} (h : OdoKept a b) : SameTrack a b := by
  unfold OdoKept at h
  rw [h]
  exact ⟨⟨rfl, rfl, rfl, rfl, rfl, rfl, rfl, rfl, rfl, rfl, Iff.rfl, id⟩, rfl⟩

theorem Moves.sameTrack {H : List Group} {p q : Part} (m : Moves H p q) (ho : .odo ∉ H := by decide) (ht : .track ∉ H := by decide) :
    SameTrack p.odo q.odo := (m.frame.track ho ht).sameTrack

/-- Only validity, the mismatch count and the capture change, and validity to UNCERTAIN alone. -/
theorem sameTrack_of_validity {a b : Odo} (v : Validity) (n : Byte) (x : Capture)
    (h : b = { a with validity := v, mismatches := n, capture := x })
    (hv : v = a.validity ∨ (a.validity ≠ .unknown ∧ v = .uncertain)) : SameTrack a b := by
  rw [h]
  refine ⟨⟨rfl, rfl, rfl, rfl, rfl, rfl, rfl, rfl, rfl, rfl, ?_, fun u => ?_⟩, rfl⟩ <;> rcases hv with e | ⟨known, e⟩ <;> rw [e]
  · simp [known]
  · exact u

theorem makeUncertain_sameTrack (c : Nat) (p : Part) : SameTrack p.odo (makeUncertain c p).odo := by
  refine sameTrack_of_validity _ p.odo.mismatches p.odo.capture (uncertain_odo c p) ?_
  cases p.odo.validity <;> simp

theorem mismatch_sameTrack (r : MismatchReason) (p : Part) : SameTrack p.odo (mismatch r p).odo := by
  have counted : SameTrack p.odo (post .datumMismatch (BitVec.ofNat 16 r.code)
      (p.withOdo { p.odo with mismatches := sat8 p.odo.mismatches, capture := .idle })).odo :=
    sameTrack_of_validity p.odo.validity _ _ rfl (.inl rfl)
  unfold mismatch
  simp only
  split
  · exact counted.trans (makeUncertain_sameTrack _ _)
  · exact counted

theorem captureWatch_sameTrack (p : Part) : SameTrack p.odo (captureWatch p).odo := by
  unfold captureWatch
  split
  · split
    · exact mismatch_sameTrack _ _
    · split <;> (split; exacts [mismatch_sameTrack _ _, .refl _])
  · exact .refl _

theorem mismatchTaken_sameTrack (r : MismatchReason) (p : Part) : SameTrack p.odo (mismatchTaken r p).odo :=
  (mismatch_sameTrack r p).trans
    (Moves.sameTrack (H := [.doors, .ord]) (spreadValidity_moves (by decide) (by decide) (Moves.refl _)))

theorem captureCount_sameTrack (c : Dir) (p : Part) : SameTrack p.odo (captureCount c p).odo := by
  unfold captureCount
  split
  · exact .refl _
  · split
    · exact mismatchTaken_sameTrack _ _
    · split; exacts [mismatchTaken_sameTrack _ _, sameTrack_of_validity _ _ _ rfl (.inl rfl)]
  · split; exacts [mismatchTaken_sameTrack _ _, sameTrack_of_validity _ _ _ rfl (.inl rfl)]

/-- What follows a change of ODO leaves the track. -/
theorem afterChange_sameTrack (r : Part × OdoRequests) : SameTrack r.1.odo (afterChange r).odo :=
  (captureWatch_sameTrack r.1).trans (Moves.sameTrack (H := roadMay) (spreadValidity_moves (by decide) (by decide)
    (odoRequests_moves _ (by decide) (by decide) (Moves.refl _))))

/-- An entry is latched at the stage its owner has asked for (R44). -/
theorem latch_latched (d : DemandSource) (s : Stage) (c : Nat) (hd : d ≠ .mode) (p : Part) : Safety.latchedAt d s (latch d s c p) :=
  latched_after (H := [.mode, .ord]) (latchEntry_latched d s c p) hd (afterRequest_moves _ _ (by decide) (by decide) (Moves.refl _))
    (by decide)

theorem spreadValidity_latched {d : DemandSource} {s : Stage} {p : Part} (hd : d ≠ .mode) (h : Safety.latchedAt d s p) :
    Safety.latchedAt d s (spreadValidity p) :=
  latched_after (H := [.doors, .ord]) h hd (spreadValidity_moves (by decide) (by decide) (Moves.refl _)) (by decide)

/-- A request of EMERGENCY has been made by the end of the change. -/
theorem afterChange_emergency {r : Part × OdoRequests} (h : ∃ n, (Stage.emergency, n) ∈ r.2) :
    Safety.latchedAt .odometry .emergency (afterChange r) :=
  spreadValidity_latched (by decide) (odoRequests_latched r.2 (captureWatch r.1) (.inr h))

/-- So has the request of a pinion fallback (R12). -/
theorem afterChange_fallback {r : Part × OdoRequests} (h : r.2 = [(.s3, 2)]) : Safety.latchedAt .odometry .s3 (afterChange r) := by
  unfold afterChange
  rw [h]
  exact spreadValidity_latched (by decide) (latch_latched .odometry .s3 2 (by decide) (captureWatch r.1))

theorem afterChange_after (r : Part × OdoRequests) : Moves countMay r.1 (afterChange r) :=
  afterChange_moves (by decide) r countTravel (Moves.refl _)

/-! ### The source (R4, R12, R13) -/

theorem chooseSource_same {p : Part} (h : p.odo.chosen = p.odo.source) : chooseSource p = p := by
  unfold chooseSource; rw [if_pos (beq_iff_eq.2 h)]

theorem chooseSource_new {p : Part} (h : p.odo.chosen ≠ p.odo.source) : chooseSource p =
    post .sourceChanged (BitVec.ofNat 16 p.odo.chosen.code) (p.withOdo { p.odo with source := p.odo.chosen }) := by
  unfold chooseSource; rw [if_neg (mt beq_iff_eq.1 h)]

theorem chooseSource_mod (p : Part) : (chooseSource p).mod = p.mod := by unfold chooseSource; split <;> rfl

theorem chooseSource_after (p : Part) : Moves countMay p (chooseSource p) := chooseSource_moves (by decide) (Moves.refl _)

/-- A new source is posted. -/
theorem chooseSource_posted {p : Part} (h : p.odo.chosen ≠ p.odo.source) :
    Safety.posted .sourceChanged (BitVec.ofNat 16 p.odo.chosen.code) p (chooseSource p) := by
  rw [chooseSource_new h]
  exact posted_of (x := p.withOdo { p.odo with source := p.odo.chosen }) (List.prefix_refl _) (List.prefix_refl _)

/-- The position is lost where no source is found. -/
theorem positionLost_iff {p : Part} (known : p.odo.validity ≠ .unknown) :
    positionLost (chooseSource p) = true ↔ p.odo.chosen = .none := by
  unfold positionLost
  rw [chooseSource_odo, Bool.and_eq_true, beq_iff_eq, bne_iff_ne]
  exact ⟨fun h => h.1, fun h => ⟨h, known⟩⟩

theorem settleSource_lost {was : Odo} {p : Part} (known : p.odo.validity ≠ .unknown) (h : p.odo.chosen = .none) :
    settleSource was p = (losePosition (chooseSource p), lostRequests p) := by
  unfold settleSource
  simp only
  rw [if_pos ((positionLost_iff known).2 h)]
  unfold lostRequests
  rw [chooseSource_mod]

theorem settleSource_found {was : Odo} {p : Part} (known : p.odo.validity ≠ .unknown) (h : p.odo.chosen ≠ .none) :
    settleSource was p = if (chooseSource p).odo.fallback && !was.fallback then (makeUncertain 2 (chooseSource p), [(.s3, 2)])
      else (chooseSource p, []) := by
  unfold settleSource
  simp only
  rw [if_neg (mt (positionLost_iff known).1 h)]

/-- Outside RACK a source that is found is all that follows. -/
theorem settleSource_open {was : Odo} {p : Part} (known : p.odo.validity ≠ .unknown) (h : p.odo.chosen ≠ .none)
    (hr : p.odo.regime ≠ .rack) : settleSource was p = (chooseSource p, []) := by
  have fallback : (chooseSource p).odo.fallback = false := by
    rw [chooseSource_odo]
    unfold Odo.fallback
    rw [beq_false_of_ne hr, Bool.false_and]
  rw [settleSource_found known h, fallback]; rfl

/-- The choice of source outside RACK (Table 1-1). -/
theorem chosen_open {o : Odo} (known : o.validity ≠ .unknown) (hr : o.regime ≠ .rack) :
    o.chosen = if o.w.faulted then .none else .w := by
  unfold Odo.chosen
  rw [if_neg (by simpa using known), beq_false_of_ne hr, Bool.false_and, Bool.false_and]
  cases o.w.faulted <;> rfl

/-! ### Crossings (R5, R9, R11) -/

theorem regimeAt_eq_iff (i j : Nat) (p : Part) : Safety.regimeAt i p = Safety.regimeAt j p ↔ rackAt p i = rackAt p j := by
  unfold Safety.regimeAt
  cases rackAt p i <;> cases rackAt p j <;> simp

theorem regimeAt_rack (i : Nat) (p : Part) : Safety.regimeAt i p = .rack ↔ rackAt p i = true := by
  unfold Safety.regimeAt; cases rackAt p i <;> simp

theorem regimeAt_adhesion (i : Nat) (p : Part) : Safety.regimeAt i p = .adhesion ↔ rackAt p i = false := by
  unfold Safety.regimeAt; cases rackAt p i <;> simp

/-- Route position has moved on within its regime: the segment index follows. -/
theorem followSegment_within {d : Dir} {p : Part} {i j : Nat} (hi : p.odo.segment = some i)
    (hj : segmentIndex p.odo.pos.toInt p.prf.active = some j) (same : rackAt p i = rackAt p j) :
    followSegment d p = (p.withOdo { p.odo with segment := some j }, []) := by
  unfold followSegment
  simp only [hi, hj]
  rw [if_pos (beq_iff_eq.2 same)]

theorem followSegment_cross {d : Dir} {p : Part} {i j : Nat} (hi : p.odo.segment = some i)
    (hj : segmentIndex p.odo.pos.toInt p.prf.active = some j) (other : rackAt p i ≠ rackAt p j) :
    followSegment d p = crossRegime (rackAt p j) d (p.withOdo { p.odo with segment := some j }) := by
  unfold followSegment
  simp only [hi, hj]
  rw [if_neg (mt beq_iff_eq.1 other)]

/-- The segment index has not moved: nothing follows. -/
theorem followSegment_stays {d : Dir} {p : Part} (h : segmentIndex p.odo.pos.toInt p.prf.active = p.odo.segment) :
    followSegment d p = (p, []) := by
  have same : p.withOdo { p.odo with segment := segmentIndex p.odo.pos.toInt p.prf.active } = p := by rw [h]; rfl
  rw [segSame h.symm, same]

/-- ODO with an entry check that begins (R9). -/
def enteringRack (d : Dir) (o : Odo) : Odo :=
  { o with regime := .entering, entry := some ⟨d, 0, 0, 0, !o.p1.faulted, !o.p2.faulted⟩ }

/-- ODO back in ADHESION, its entry check over (R11). -/
def backOnAdhesion (o : Odo) : Odo := { o with regime := .adhesion, entry := none }

/-- Outside RACK, W as the source is all that follows where it is OK. -/
theorem settleSource_w {was o : Odo} {p : Part} (known : o.validity ≠ .unknown) (hr : o.regime ≠ .rack) (hw : o.w.faulted = false) :
    (settleSource was (p.withOdo o)).2 = [] ∧ (settleSource was (p.withOdo o)).1.odo = { o with source := .w } := by
  have chosen : o.chosen = .w := by rw [chosen_open known hr, hw]; rfl
  rw [settleSource_open (p := p.withOdo o) known (by rw [Part.withOdo_odo, chosen]; decide) hr, chooseSource_odo, Part.withOdo_odo,
    chosen]
  exact ⟨rfl, rfl⟩

/-- Into the rack with W as the source: an entry check begins (R9). -/
theorem crossRegime_enters {d : Dir} {p : Part} (hr : p.odo.regime = .adhesion) (known : p.odo.validity ≠ .unknown)
    (hw : p.odo.w.faulted = false) :
    (crossRegime true d p).2 = [] ∧ (crossRegime true d p).1.odo = { enteringRack d p.odo with source := .w } := by
  unfold crossRegime
  rw [if_pos rfl, if_pos (beq_iff_eq.2 hr)]
  exact settleSource_w (o := enteringRack d p.odo) known (show Regime.entering ≠ .rack by decide) hw

/-- The part as it leaves the rack, before the source is chosen again. -/
def leavingRack (p : Part) : Part := post .rackLeft 0 (p.withOdo { p.odo with regime := .adhesion })

theorem crossRegime_leaves {d : Dir} {p : Part} (hr : p.odo.regime = .rack) :
    crossRegime false d p = settleSource p.odo (leavingRack p) := by
  unfold crossRegime leavingRack
  rw [if_neg Bool.false_ne_true, if_pos (beq_iff_eq.2 hr)]

/-- Out of a rack whose entry check still runs: the check ends (R11). -/
theorem crossRegime_turns {d : Dir} {p : Part} (hr : p.odo.regime = .entering) (known : p.odo.validity ≠ .unknown)
    (hw : p.odo.w.faulted = false) :
    (crossRegime false d p).2 = [] ∧ (crossRegime false d p).1.odo = { backOnAdhesion p.odo with source := .w } := by
  unfold crossRegime
  rw [if_neg Bool.false_ne_true, if_neg (by rw [hr]; decide), if_pos (beq_iff_eq.2 hr)]
  exact settleSource_w (o := backOnAdhesion p.odo) known (show Regime.adhesion ≠ .rack by decide) hw

/-! ### The entry check (R9, R10) -/

theorem entryJudge_goesOn {p : Part} {x : EntryCheck} (h : p.odo.entry = some x)
    (short : x.wTravel < (p.prf.settings.entryLength : Int) * 16) : entryJudge p = (p, []) := by
  unfold entryJudge
  rw [h]
  simp only
  rw [if_neg (by push_cast; omega)]

/-- The check is judged at its length: a pass where a pinion is included and none strays by more than 32 counts. -/
theorem entryJudge_ends {p : Part} {x : EntryCheck} (h : p.odo.entry = some x)
    (long : (p.prf.settings.entryLength : Int) * 16 ≤ x.wTravel) :
    entryJudge p = if (entryDifferences x).isEmpty then entryFail 65535 p
      else if (entryDifferences x).all (· ≤ 32) then entryPass p else entryFail ((entryDifferences x).foldl max 0) p := by
  unfold entryJudge
  rw [h]
  simp only
  rw [if_pos (by push_cast; omega)]

theorem mem_entryDifferences (x : EntryCheck) (n : Nat) : n ∈ entryDifferences x ↔
    Safety.strays x.p1Included x.p1Travel x.wTravel n ∨ Safety.strays x.p2Included x.p2Travel x.wTravel n := by
  unfold entryDifferences Safety.strays
  cases x.p1Included <;> cases x.p2Included <;> simp

theorem entryDifferences_isEmpty (x : EntryCheck) :
    (entryDifferences x).isEmpty = true ↔ x.p1Included = false ∧ x.p2Included = false := by
  unfold entryDifferences
  cases x.p1Included <;> cases x.p2Included <;> simp

theorem entryPasses_iff (x : EntryCheck) :
    Safety.entryPasses x ↔ (entryDifferences x).isEmpty = false ∧ (entryDifferences x).all (· ≤ 32) = true := by
  have included : (x.p1Included = true ∨ x.p2Included = true) ↔ (entryDifferences x).isEmpty = false := by
    rw [Bool.eq_false_iff, Ne, entryDifferences_isEmpty]
    cases x.p1Included <;> cases x.p2Included <;> simp
  unfold Safety.entryPasses
  rw [included, List.all_eq_true]
  simp only [← mem_entryDifferences, decide_eq_true_eq]

/-- The largest of some differences is one of them, and none is larger. -/
theorem foldl_max_spec (l : List Nat) (h : l ≠ []) : l.foldl max 0 ∈ l ∧ ∀ n ∈ l, n ≤ l.foldl max 0 := by
  obtain ⟨a, l, rfl⟩ := List.exists_cons_of_ne_nil h
  have largest : (a :: l).max? = some ((a :: l).foldl max 0) := by
    rw [List.max?_cons', List.foldl_cons, Nat.zero_max]
  exact List.max?_eq_some_iff.1 largest

/-- The argument of RACK_ENTRY_FAILED: the largest difference of an included pinion, 65535 with none (R10). -/
def failedBy (x : EntryCheck) : Nat := if (entryDifferences x).isEmpty then 65535 else (entryDifferences x).foldl max 0

theorem failedBy_largest (x : EntryCheck) : Safety.largestStray x (failedBy x) := by
  unfold Safety.largestStray failedBy
  simp only [← mem_entryDifferences]
  by_cases h : (entryDifferences x).isEmpty = true
  · obtain ⟨h1, h2⟩ := (entryDifferences_isEmpty x).1 h
    rw [if_pos h, List.isEmpty_iff.1 h]
    refine ⟨fun _ _ => rfl, fun inc => ?_, fun m hm => by cases hm⟩
    rw [h1, h2] at inc; exact absurd inc (by decide)
  · obtain ⟨mem, le⟩ := foldl_max_spec (entryDifferences x) (by simpa using h)
    rw [if_neg h]
    exact ⟨fun h1 h2 => absurd ((entryDifferences_isEmpty x).2 ⟨h1, h2⟩) h, fun _ => mem, le⟩

theorem entryJudge_passes {p : Part} {x : EntryCheck} (h : p.odo.entry = some x)
    (long : (p.prf.settings.entryLength : Int) * 16 ≤ x.wTravel) (pass : Safety.entryPasses x) : entryJudge p = entryPass p := by
  obtain ⟨some, close⟩ := (entryPasses_iff x).1 pass
  rw [entryJudge_ends h long, if_neg (by rw [some]; decide), if_pos close]

theorem entryJudge_fails {p : Part} {x : EntryCheck} (h : p.odo.entry = some x)
    (long : (p.prf.settings.entryLength : Int) * 16 ≤ x.wTravel) (fail : ¬ Safety.entryPasses x) :
    entryJudge p = entryFail (failedBy x) p := by
  rw [entryPasses_iff] at fail
  rw [entryJudge_ends h long]
  unfold failedBy
  cases he : (entryDifferences x).isEmpty with
  | true => rfl
  | false => rw [if_neg (by decide), if_neg fun ha => fail ⟨he, ha⟩]; rfl

/-- The rack is entered: the check is over and deviation is zeroed (R10, R14). -/
def enteredRack (o : Odo) : Odo := { o with regime := .rack, entry := none }.zeroDeviation

/-- The choice of source in the rack (Table 1-1). -/
theorem enteredRack_chosen {o : Odo} (known : o.validity ≠ .unknown) :
    (enteredRack o).chosen = Safety.tableSource .rack o.p1.faulted o.p2.faulted o.w.faulted := chosen_table (enteredRack o) known

/-- The part of a check that passes, its source chosen. -/
def passedEntry (p : Part) : Part :=
  chooseSource (post .rackEntered (BitVec.ofNat 16 (enteredRack p.odo).chosen.code) (p.withOdo (enteredRack p.odo)))

theorem passedEntry_odo (p : Part) : (passedEntry p).odo = { enteredRack p.odo with source := (enteredRack p.odo).chosen } := by
  unfold passedEntry; rw [chooseSource_odo]; rfl

theorem entryPass_eq (p : Part) : entryPass p =
    (if p.odo.p1.faulted then post .climbOff 1 (passedEntry p) else if p.odo.p2.faulted then post .climbOff 2 (passedEntry p)
      else passedEntry p, []) := by
  have odo := passedEntry_odo p
  show (if (passedEntry p).odo.p1.faulted then post .climbOff 1 (passedEntry p)
    else if (passedEntry p).odo.p2.faulted then post .climbOff 2 (passedEntry p) else passedEntry p, []) = _
  rw [odo]; rfl

theorem entryPass_odo (p : Part) : (entryPass p).1.odo = { enteredRack p.odo with source := (enteredRack p.odo).chosen } := by
  rw [entryPass_eq, ← passedEntry_odo]
  simp only
  split
  · rfl
  · split <;> rfl

/-- The part of a check that fails, its source chosen. -/
def failedEntry (n : Nat) (p : Part) : Part :=
  chooseSource (post .rackEntryFailed (argUnsigned n) (p.withOdo (enteredRack p.odo)))

theorem failedEntry_odo (n : Nat) (p : Part) : (failedEntry n p).odo = { enteredRack p.odo with source := (enteredRack p.odo).chosen } := by
  unfold failedEntry; rw [chooseSource_odo]; rfl

theorem entryFail_eq (n : Nat) (p : Part) : entryFail n p =
    if positionLost (failedEntry n p) then (losePosition (failedEntry n p), (.emergency, 1) :: lostRequests (failedEntry n p))
    else (makeUncertain 3 (failedEntry n p), (.emergency, 1) :: if (failedEntry n p).odo.fallback then [(.s3, 2)] else []) := rfl

theorem failedEntry_lost_iff {n : Nat} {p : Part} (known : p.odo.validity ≠ .unknown) :
    positionLost (failedEntry n p) = true ↔ (enteredRack p.odo).chosen = .none :=
  positionLost_iff (p := post .rackEntryFailed (argUnsigned n) (p.withOdo (enteredRack p.odo))) known

/-- A failing check asks for EMERGENCY (R10). -/
theorem entryFail_emergency (n : Nat) (p : Part) : ∃ k, (Stage.emergency, k) ∈ (entryFail n p).2 := by
  rw [entryFail_eq]
  split <;> exact ⟨1, List.mem_cons_self ..⟩

/-- A position that is not lost is UNCERTAIN once made so. -/
theorem makeUncertain_known {c : Nat} {p : Part} (known : p.odo.validity ≠ .unknown) :
    (makeUncertain c p).odo = { p.odo with validity := .uncertain } := by
  rw [uncertain_odo]
  revert known
  cases p.odo.validity <;> simp

end Sys2Proof.Machine
end

section
/-! One step of an encoder: what it is (R1, R2), and what every count moves. -/

namespace Sys2Proof.Machine

/-! ### A change on the phase lines (R1, R2) -/

/-- The part with the new levels of an encoder's lines. -/
def linesTaken (e : Encoder) (levels : BitVec 2) (p : Part) : Part :=
  p.withOdo (p.odo.setEnc e { p.odo.enc e with quad := levels })

theorem linesTaken_enc (e x : Encoder) (levels : BitVec 2) (p : Part) :
    (linesTaken e levels p).odo.enc x = if x = e then { p.odo.enc e with quad := levels } else p.odo.enc x :=
  enc_setEnc p.odo e x _

theorem encoderLines_tracks {e : Encoder} {levels : BitVec 2} {p : Part} (h : (p.odo.enc e).faulted = true ∨ p.coldLine = true) :
    encoderLines e levels p = linesTaken e levels p := by
  unfold encoderLines
  simp only
  rw [if_pos (by rw [Bool.or_eq_true]; exact h)]; rfl

theorem encoderLines_acts {e : Encoder} {levels : BitVec 2} {p : Part} (cold : p.coldLine = false) (ok : (p.odo.enc e).faulted = false) :
    encoderLines e levels p = match phaseStep (p.odo.enc e).quad levels with
      | .none => linesTaken e levels p
      | .up => countTaken e .up (linesTaken e levels p)
      | .down => countTaken e .down (linesTaken e levels p)
      | .illegal => encoderFaulted e (linesTaken e levels p) := by
  unfold encoderLines
  simp only
  rw [if_neg (by rw [ok, cold]; decide)]; rfl

theorem encoderLines_counts {e : Encoder} {levels : BitVec 2} {c : Dir} {p : Part} (cold : p.coldLine = false)
    (ok : (p.odo.enc e).faulted = false) (step : Safety.follows (p.odo.enc e).quad levels c) :
    encoderLines e levels p = countTaken e c (linesTaken e levels p) := by
  rw [encoderLines_acts cold ok, phase_follows step]
  cases c <;> rfl

theorem encoderLines_faults {e : Encoder} {levels : BitVec 2} {p : Part} (cold : p.coldLine = false)
    (ok : (p.odo.enc e).faulted = false) (both : levels = ~~~(p.odo.enc e).quad) :
    encoderLines e levels p = encoderFaulted e (linesTaken e levels p) := by
  rw [encoderLines_acts cold ok, phase_illegal both]

theorem encoderStep_ends {e : Encoder} {levels : BitVec 2} {s : State} (P : State → Prop)
    (hP : ∀ t : State, t.part = finish s.part (encoderLines e levels s.part) → P t) :
    ∃ t, exec (.encoderStep e levels) s = .next t ∧ P t :=
  partRow_ends (encoderLines e levels) s P fun t part _ _ => hP t part

/-- A FAULTED encoder's lines, and any encoder's while cold reset is asserted, move the quadrature state alone (R1, R24). -/
theorem encoderStep_tracks (e : Encoder) (levels : BitVec 2) (s : State)
    (h : (s.part.odo.enc e).faulted = true ∨ s.part.coldLine = true) (stand : Safety.standDone s.part) :
    ∃ t, exec (.encoderStep e levels) s = .next t
      ∧ t.part.odo = s.part.odo.setEnc e { s.part.odo.enc e with quad := levels } ∧ t.part.evq = s.part.evq := by
  refine encoderStep_ends _ fun t part => ?_
  rw [encoderLines_tracks h] at part
  have still : (linesTaken e levels s.part).odo.standstill = s.part.odo.standstill := by
    unfold linesTaken; cases e <;> rfl
  have noReturn : ((linesTaken e levels s.part).mod.mode == .run && (linesTaken e levels s.part).odo.standstill
      && (linesTaken e levels s.part).anyLatched) = false := by
    rw [still]; exact (standDone_iff s.part).1 stand
  obtain ⟨g, ends⟩ := finish_eq s.part noReturn
  rw [part, ends]
  exact ⟨rfl, rfl⟩

/-! ### What every count moves (R1, R5, R17, R18) -/

theorem encoderStep_counts (e : Encoder) (levels : BitVec 2) (c : Dir) (s : State) (cold : s.part.coldLine = false)
    (ok : (s.part.odo.enc e).faulted = false) (step : Safety.follows (s.part.odo.enc e).quad levels c) :
    ∃ t, exec (.encoderStep e levels) s = .next t
      ∧ t.part.odo.enc e = ⟨(s.part.odo.enc e).tally + BitVec.ofInt 32 c.count, false, levels⟩
      ∧ (∀ x, x ≠ e → t.part.odo.enc x = s.part.odo.enc x)
      ∧ (s.part.odo.motion = some e → t.part.odo.dir = c ∧ t.part.odo.bucket = s.part.odo.bucket + c.count)
      ∧ (s.part.odo.motion ≠ some e → t.part.odo.dir = s.part.odo.dir ∧ t.part.odo.bucket = s.part.odo.bucket)
      ∧ (s.part.odo.source.encoder? = some e → s.part.odo.validity ≠ .unknown →
          t.part.odo.pos = wordOfCount (s.part.odo.pos.toInt + c.count))
      ∧ (s.part.odo.source.encoder? ≠ some e ∨ s.part.odo.validity = .unknown → t.part.odo.pos = s.part.odo.pos)
      ∧ t.part.odo.standTimer = some s.part.now ∧ (s.part.asserted = false → t.part.odo.standstill = false) := by
  refine encoderStep_ends _ fun t part => ?_
  rw [encoderLines_counts cold ok step] at part
  obtain ⟨z, moves, enc, standTimer, standstill, moved, unmoved, placed, unplaced⟩ := countTaken_spec e c (linesTaken e levels s.part)
  have soft := (part ▸ toEnd s.part (by decide) moves : Moves afterMay z t.part).frame.odo (by decide)
  have enc' : ∀ x, t.part.odo.enc x = z.odo.enc x := soft_enc soft
  obtain ⟨-, -, -, pos', -, bucket', -, dir', standstill', standTimer'⟩ := soft
  obtain ⟨source, validity, pos, dir, bucket, -, -⟩ := setEnc_rest s.part.odo e { s.part.odo.enc e with quad := levels }
  have motion : (linesTaken e levels s.part).odo.motion = s.part.odo.motion := motion_same s.part.odo e levels
  have encoder : (linesTaken e levels s.part).odo.source = s.part.odo.source := source
  have known : (linesTaken e levels s.part).odo.validity = s.part.odo.validity := validity
  have start : (linesTaken e levels s.part).odo.pos = s.part.odo.pos := pos
  rw [motion] at moved unmoved
  rw [encoder, known, start] at placed unplaced
  refine ⟨?_, fun x hx => ?_, fun h => ?_, fun h => ?_, fun h1 h2 => pos'.trans (placed h1 h2), fun h => pos'.trans (unplaced h),
    standTimer'.trans standTimer, fun h => ?_⟩
  · rw [enc', enc, if_pos rfl, linesTaken_enc, if_pos rfl, ← ok]
  · rw [enc', enc, if_neg hx, linesTaken_enc, if_neg hx]
  · obtain ⟨d, b⟩ := moved h
    exact ⟨dir'.trans d, by rw [bucket', b, ← bucket]; rfl⟩
  · obtain ⟨d, b⟩ := unmoved h
    exact ⟨(dir'.trans d).trans dir, (bucket'.trans b).trans bucket⟩
  · have idle : (linesTaken e levels s.part).asserted = false := h
    rw [standstill', standstill, idle, Bool.and_false]

/-! ### The parts of a count, with no brake test running -/

/-- The tally, the speed window and standstill (R1, R17, R18). -/
def tallied (e : Encoder) (c : Dir) (p : Part) : Part := standstillCount (tallyCount e c (p.odo.motion == some e) p)

/-- The encoder's counts move route position: it is the source, and the position is known (R5). -/
def movesPosition (e : Encoder) (p : Part) : Bool := p.odo.source.encoder? == some e && p.odo.validity != .unknown

/-- A count of the source changes route position (R5). -/
def placedBy (e : Encoder) (c : Dir) (p : Part) : Part :=
  if movesPosition e p then
    (tallied e c p).withOdo { (tallied e c p).odo with pos := wordOfCount ((tallied e c p).odo.pos.toInt + c.count) }
  else tallied e c p

/-- And what follows at the new position (R5). -/
def positioned (e : Encoder) (c : Dir) (p : Part) : Part :=
  if movesPosition e p then moveTo c (placedBy e c p) else placedBy e c p

/-- Deviation follows a count of a pinion (R14). -/
def deviated (e : Encoder) (c : Dir) (p : Part) : Part := if e == .w then positioned e c p else deviationCount (positioned e c p)

/-- The entry check follows (R9, R10). -/
def entryTaken (e : Encoder) (c : Dir) (p : Part) : Part := entryCount e c p.odo.entry.isSome (deviated e c p)

/-- A capture and the creep and reverse counters follow a count of the motion encoder (R16, R20, R21). -/
def countersTaken (moves : Bool) (c : Dir) (p : Part) : Part :=
  if moves then reverseCount c (creepCount (captureCount c p)) else p

/-- The travel record follows it in RUN (R102). -/
def recordTaken (moves : Bool) (c : Dir) (p : Part) : Part := if moves && p.mod.mode == .run then travelCount c p else p

/-- The end of a count, behind the entry check. -/
def closing (e : Encoder) (c : Dir) (p : Part) (x : Part) : Part :=
  ssuEvaluate (recordTaken (p.odo.motion == some e) c (countersTaken (p.odo.motion == some e) c x))

theorem standstillCount_rest (p : Part) :
    standstillCount p = (p.withEvq (standstillCount p).evq).withOdo (standstillCount p).odo := by
  unfold standstillCount
  simp only
  split <;> rfl

theorem tallied_rest (e : Encoder) (c : Dir) (p : Part) :
    tallied e c p = (p.withEvq (tallied e c p).evq).withOdo (tallied e c p).odo := by
  unfold tallied
  rw [standstillCount_rest]
  rfl

theorem tallied_brk (e : Encoder) (c : Dir) (p : Part) : (tallied e c p).brk = p.brk := by rw [tallied_rest]; rfl

theorem countTaken_eq {e : Encoder} {c : Dir} {p : Part} (h : p.brk.test = none) :
    countTaken e c p = closing e c p (entryTaken e c p) := by
  have noTest : abortTest .moved (tallied e c p) = tallied e c p := by
    unfold abortTest; rw [tallied_brk, h]
  have placed : (if movesPosition e p then moveTo c ((tallied e c p).withOdo
      { (tallied e c p).odo with pos := wordOfCount ((tallied e c p).odo.pos.toInt + c.count) }) else tallied e c p)
      = positioned e c p := by
    unfold positioned placedBy
    split <;> rfl
  unfold entryTaken deviated
  rw [← placed, ← noTest]
  rfl

/-- What ODO holds once a count is tallied: the tally, the speed window, the direction and standstill have moved. -/
theorem tallied_odo (e : Encoder) (c : Dir) (p : Part) : ∃ x dir bucket standTimer,
    (tallied e c p).odo = { p.odo.setEnc e x with
      dir := dir, bucket := bucket, standTimer := standTimer, standstill := p.odo.standstill && p.asserted }
    ∧ x.faulted = (p.odo.enc e).faulted := by
  have still : (tallyCount e c (p.odo.motion == some e) p).odo.standstill = p.odo.standstill := by
    unfold tallyCount; simp only
    split <;> cases e <;> rfl
  unfold tallied
  rw [standstillCount_spec, still]
  unfold tallyCount
  simp only
  split
  · exact ⟨{ p.odo.enc e with tally := (p.odo.enc e).tally + BitVec.ofInt 32 c.count }, c,
      (p.odo.setEnc e { p.odo.enc e with tally := (p.odo.enc e).tally + BitVec.ofInt 32 c.count }).bucket + c.count, some p.now, rfl, rfl⟩
  · exact ⟨{ p.odo.enc e with tally := (p.odo.enc e).tally + BitVec.ofInt 32 c.count }, _, _, some p.now, rfl, rfl⟩

end Sys2Proof.Machine
end

section
/-! The fault of an encoder: its events, and what source and regime become (R2, R4, R10, R12, R13). -/

namespace Sys2Proof.Machine

/-! ### The events, one operation after the other -/

section
variable {p q : Part} {l : List (EventKind × Half × Word)}

theorem posts_post {k : EventKind} {arg : Half} (h : Safety.posts (post k arg p) q l) : Safety.posts p q ((k, arg, p.odo.pos) :: l) :=
  posts_cons h

theorem chooseSource_posts (h : Safety.posts (chooseSource p) q l) : Safety.posts p q
    ((if p.odo.chosen ≠ p.odo.source then [(.sourceChanged, BitVec.ofNat 16 p.odo.chosen.code, p.odo.pos)] else []) ++ l) := by
  by_cases same : p.odo.chosen = p.odo.source
  · rw [chooseSource_same same] at h
    rw [if_neg (not_not.2 same)]; exact h
  · rw [chooseSource_new same] at h
    rw [if_pos same]
    exact posts_of_evq (posts_post h) rfl rfl

theorem makeUncertain_posts {c : Nat} (h : Safety.posts (makeUncertain c p) q l) : Safety.posts p q
    ((if p.odo.validity = .provisional ∨ p.odo.validity = .confirmed then [(.positionUncertain, BitVec.ofNat 16 c, p.odo.pos)] else [])
      ++ l) := by
  unfold makeUncertain at h
  simp only [Bool.or_eq_true, beq_iff_eq] at h
  split_ifs at h with trusted
  · rw [if_pos trusted]; exact posts_of_evq (posts_post h) rfl rfl
  · rw [if_neg trusted]; exact h

theorem losePosition_posts (h : Safety.posts (losePosition p) q l) : Safety.posts p q ((.positionLost, 0, p.odo.pos) :: l) :=
  posts_of_evq (posts_post h) rfl rfl

end

/-! ### Settling the source (R4, R12, R13) -/

theorem losePosition_odo (p : Part) :
    (losePosition p).odo = { p.odo with validity := .unknown, segment := none, entry := none, capture := .idle } := rfl

theorem settleSource_source {was : Odo} {p : Part} (known : p.odo.validity ≠ .unknown) :
    (settleSource was p).1.odo.regime = p.odo.regime ∧ (settleSource was p).1.odo.source = p.odo.chosen
    ∧ (settleSource was p).1.odo.deviation = p.odo.deviation := by
  have chosen := chooseSource_odo p
  by_cases lost : p.odo.chosen = .none
  · rw [settleSource_lost known lost, losePosition_odo, chosen]
    exact ⟨rfl, rfl, rfl⟩
  · rw [settleSource_found known lost]
    split
    · rw [uncertain_odo, chosen]; exact ⟨rfl, rfl, rfl⟩
    · rw [chosen]; exact ⟨rfl, rfl, rfl⟩

theorem settleSource_placed {was : Odo} {p : Part} (known : p.odo.validity ≠ .unknown) (found : p.odo.chosen ≠ .none) :
    (settleSource was p).1.odo.segment = p.odo.segment ∧ (settleSource was p).1.odo.entry = p.odo.entry := by
  have chosen := chooseSource_odo p
  rw [settleSource_found known found]
  split
  · rw [uncertain_odo, chosen]; exact ⟨rfl, rfl⟩
  · rw [chosen]; exact ⟨rfl, rfl⟩

/-- A pinion fallback begins: in the rack W becomes the source (R12). -/
abbrev FallsBack (was : Odo) (p : Part) : Prop := p.odo.regime = .rack ∧ p.odo.chosen = .w ∧ was.fallback = false

theorem fallsBack_iff (was : Odo) (p : Part) :
    ((chooseSource p).odo.fallback && !was.fallback) = true ↔ FallsBack was p := by
  rw [chooseSource_odo]
  unfold FallsBack Odo.fallback
  simp only [Bool.and_eq_true, beq_iff_eq, Bool.not_eq_true', and_assoc]

theorem settleSource_fellBack {was : Odo} {p : Part} (known : p.odo.validity ≠ .unknown) (falls : FallsBack was p) :
    settleSource was p = (makeUncertain 2 (chooseSource p), [(.s3, 2)]) := by
  rw [settleSource_found known (by rw [falls.2.1]; decide), if_pos ((fallsBack_iff was p).2 falls)]

/-- The events of the new choice: the source, and with it the lost position or the fallback. -/
theorem settleSource_posts {was : Odo} {p q : Part} (known : p.odo.validity ≠ .unknown)
    (pre : (settleSource was p).1.evq.queue <+: q.evq.queue) : Safety.posts p q
      ((if p.odo.chosen ≠ p.odo.source then [(.sourceChanged, BitVec.ofNat 16 p.odo.chosen.code, p.odo.pos)] else [])
        ++ ((if p.odo.chosen = .none then [(.positionLost, 0, p.odo.pos)] else [])
          ++ (if FallsBack was p ∧ (p.odo.validity = .provisional ∨ p.odo.validity = .confirmed)
            then [(.positionUncertain, 2, p.odo.pos)] else []))) := by
  have chosen := chooseSource_odo p
  refine chooseSource_posts ?_
  by_cases lost : p.odo.chosen = .none
  · rw [settleSource_lost known lost] at pre
    have found : ¬ FallsBack was p := fun falls => absurd (lost.symm.trans falls.2.1) (by decide)
    have pos : (chooseSource p).odo.pos = p.odo.pos := by rw [chosen]
    rw [if_pos lost, if_neg fun h => found h.1, ← pos]
    exact losePosition_posts (posts_nil pre)
  · rw [if_neg lost, List.nil_append]
    by_cases falls : FallsBack was p
    · rw [settleSource_fellBack known falls] at pre
      have uncertain := makeUncertain_posts (posts_nil pre)
      rw [chosen, List.append_nil] at uncertain
      rw [if_congr (and_iff_right falls) rfl rfl]
      exact uncertain
    · rw [settleSource_found known lost, if_neg (mt (fallsBack_iff was p).1 falls)] at pre
      rw [if_neg fun h => falls h.1]
      exact posts_nil pre

/-! ### The fault (R2) -/

/-- ODO with an encoder FAULTED: an entry check that runs excludes it. -/
def faultedOdo (e : Encoder) (o : Odo) : Odo :=
  { o.setEnc e { o.enc e with faulted := true } with entry := (o.setEnc e { o.enc e with faulted := true }).entry.map (·.exclude e) }

/-- The fault with its event. -/
def faultTaken (e : Encoder) (p : Part) : Part :=
  post .encoderFault (BitVec.ofNat 16 (encoderCode e)) (p.withOdo (faultedOdo e p.odo))

/-- And the end of climb supervision, where the fault ends it (R14). -/
def climbEnded (e : Encoder) (p : Part) : Part :=
  if p.odo.climbOn && !(faultedOdo e p.odo).climbOn then post .climbOff (BitVec.ofNat 16 (encoderCode e)) (faultTaken e p)
  else faultTaken e p

theorem encoderFaulted_breaks {p : Part} (hr : p.odo.regime = .entering) (known : p.odo.validity ≠ .unknown) :
    encoderFaulted .w p = afterChange (entryFail 65535 (faultTaken .w p)) := by
  unfold encoderFaulted
  exact if_pos (by simpa [post_odo, Odo.setEnc, hr] using known)

theorem encoderFaulted_settles {e : Encoder} {p : Part} (h : p.odo.regime ≠ .entering ∨ e ≠ .w ∨ p.odo.validity = .unknown) :
    encoderFaulted e p = afterChange (settleSource p.odo (climbEnded e p)) := by
  unfold encoderFaulted
  refine if_neg fun both => ?_
  have regime : (p.odo.setEnc e { p.odo.enc e with faulted := true }).regime = p.odo.regime := by cases e <;> rfl
  have validity : (p.odo.setEnc e { p.odo.enc e with faulted := true }).validity = p.odo.validity := by cases e <;> rfl
  simp only [post_odo, Part.withOdo_odo, regime, validity, Bool.and_eq_true, beq_iff_eq, bne_iff_ne] at both
  obtain ⟨⟨entering, w⟩, known⟩ := both
  rcases h with h | h | h
  exacts [h entering, h w, known h]

theorem climbEnded_odo (e : Encoder) (p : Part) : (climbEnded e p).odo = faultedOdo e p.odo := by
  unfold climbEnded; split <;> rfl

theorem climbEnded_moves (e : Encoder) (p : Part) : Moves [] (faultTaken e p) (climbEnded e p) := by
  unfold climbEnded; split; exacts [post_moves _ _ (Moves.refl _), Moves.refl _]

theorem faultedOdo_enc (e x : Encoder) (o : Odo) :
    (faultedOdo e o).enc x = if x = e then { o.enc e with faulted := true } else o.enc x := enc_setEnc o e x _

/-- What the fault leaves of the track. -/
theorem faultedOdo_track (e : Encoder) (o : Odo) :
    (faultedOdo e o).regime = o.regime ∧ (faultedOdo e o).source = o.source ∧ (faultedOdo e o).validity = o.validity
    ∧ (faultedOdo e o).segment = o.segment ∧ (faultedOdo e o).pos = o.pos ∧ (faultedOdo e o).entry = o.entry.map (·.exclude e) := by
  cases e <;> exact ⟨rfl, rfl, rfl, rfl, rfl, rfl⟩

/-- The new health. -/
theorem faultedOdo_health (e : Encoder) (o : Odo) : (faultedOdo e o).p1.faulted = (o.p1.faulted || e == .p1)
    ∧ (faultedOdo e o).p2.faulted = (o.p2.faulted || e == .p2) ∧ (faultedOdo e o).w.faulted = (o.w.faulted || e == .w) := by
  cases e with
  | p1 => exact ⟨(Bool.or_true _).symm, (Bool.or_false _).symm, (Bool.or_false _).symm⟩
  | p2 => exact ⟨(Bool.or_false _).symm, (Bool.or_true _).symm, (Bool.or_false _).symm⟩
  | w => exact ⟨(Bool.or_false _).symm, (Bool.or_false _).symm, (Bool.or_true _).symm⟩

/-- The choice of source on the new health (Table 1-1). -/
theorem faultedOdo_chosen {e : Encoder} {o : Odo} (known : o.validity ≠ .unknown) : (faultedOdo e o).chosen =
    Safety.tableSource o.regime (o.p1.faulted || e == .p1) (o.p2.faulted || e == .p2) (o.w.faulted || e == .w) := by
  obtain ⟨regime, -, validity, -⟩ := faultedOdo_track e o
  obtain ⟨p1, p2, w⟩ := faultedOdo_health e o
  rw [chosen_table _ (by rw [validity]; exact known), regime, p1, p2, w]

/-- A fault ends climb supervision where it is on and the encoder is a pinion (R14). -/
theorem climbEnds_iff (e : Encoder) (o : Odo) : (o.climbOn && !(faultedOdo e o).climbOn) = true ↔
    o.regime = .rack ∧ o.p1.faulted = false ∧ o.p2.faulted = false ∧ e ≠ .w := by
  obtain ⟨regime, -⟩ := faultedOdo_track e o
  obtain ⟨p1, p2, -⟩ := faultedOdo_health e o
  unfold Odo.climbOn
  rw [regime, p1, p2]
  cases o.p1.faulted <;> cases o.p2.faulted <;> cases e <;> simp

theorem climbEnded_posts {e : Encoder} {p q : Part} {l : List (EventKind × Half × Word)} (h : Safety.posts (climbEnded e p) q l) :
    Safety.posts p q ((.encoderFault, BitVec.ofNat 16 (encoderCode e), p.odo.pos)
      :: ((if p.odo.regime = .rack ∧ p.odo.p1.faulted = false ∧ p.odo.p2.faulted = false ∧ e ≠ .w then
        [(.climbOff, BitVec.ofNat 16 (encoderCode e), p.odo.pos)] else []) ++ l)) := by
  obtain ⟨-, -, -, -, pos, -⟩ := faultedOdo_track e p.odo
  have fault : Safety.posts (faultTaken e p) q ((if p.odo.regime = .rack ∧ p.odo.p1.faulted = false ∧ p.odo.p2.faulted = false ∧ e ≠ .w then
        [(.climbOff, BitVec.ofNat 16 (encoderCode e), p.odo.pos)] else []) ++ l) := by
    unfold climbEnded at h
    simp only [climbEnds_iff] at h
    split_ifs at h with ends
    · rw [if_pos ends, ← pos]; exact posts_post h
    · rw [if_neg ends]; exact h
  have posted : Safety.posts p q ((.encoderFault, BitVec.ofNat 16 (encoderCode e), (faultedOdo e p.odo).pos) :: _) :=
    posts_of_evq (posts_post fault) rfl rfl
  rw [pos] at posted
  exact posted

end Sys2Proof.Machine
end

section
/-! What the step that faults an encoder ends with (R2, R10, R12, R13). -/

namespace Sys2Proof.Machine

/-! ### The end of a change of ODO -/

theorem changeEnd_moves (r : Part × OdoRequests) (b : Part) : Moves countMay r.1 (finish b (afterChange r)) :=
  toEnd b (by decide) (afterChange_after r)

theorem finish_sameTrack (b p : Part) : SameTrack p.odo (finish b p).odo :=
  Moves.sameTrack (H := [.mode]) (finish_moves b (by decide) (Moves.refl p))

theorem finish_latched {d : DemandSource} {s : Stage} {p : Part} (b : Part) (hd : d ≠ .mode) (h : Safety.latchedAt d s p) :
    Safety.latchedAt d s (finish b p) :=
  latched_after (H := [.mode]) h hd (finish_moves b (by decide) (Moves.refl p)) (by decide)

theorem changeEnd_sameTrack (r : Part × OdoRequests) (b : Part) : SameTrack r.1.odo (finish b (afterChange r)).odo :=
  (afterChange_sameTrack r).trans (finish_sameTrack b _)

theorem changeEnd_pre (r : Part × OdoRequests) (b : Part) : r.1.evq.queue <+: (finish b (afterChange r)).evq.queue :=
  (changeEnd_moves r b).frame.pre (by decide)

/-! ### The fault outside an entry check, or of a pinion -/

theorem climbEnded_mod (e : Encoder) (p : Part) : (climbEnded e p).mod = p.mod := by unfold climbEnded; split <;> rfl

theorem climbEnded_known {e : Encoder} {p : Part} (known : p.odo.validity ≠ .unknown) : (climbEnded e p).odo.validity ≠ .unknown := by
  obtain ⟨-, -, validity, -⟩ := faultedOdo_track e p.odo
  rw [climbEnded_odo, validity]; exact known

/-- The events of a fault, in R2's order. -/
theorem climbEnded_events {e : Encoder} {p q : Part} (known : p.odo.validity ≠ .unknown)
    (pre : (settleSource p.odo (climbEnded e p)).1.evq.queue <+: q.evq.queue) :
    Safety.posts p q (Safety.healthEvents e (climbEnded e p).odo.chosen p) := by
  have events := climbEnded_posts (settleSource_posts (climbEnded_known known) pre)
  obtain ⟨regime, source, validity, -, pos, -⟩ := faultedOdo_track e p.odo
  rw [← climbEnded_odo e p] at regime source validity pos
  have lastEvent : (if (climbEnded e p).odo.chosen = .none then [(EventKind.positionLost, (0 : Half), p.odo.pos)] else [])
      ++ (if FallsBack p.odo (climbEnded e p) ∧ (p.odo.validity = .provisional ∨ p.odo.validity = .confirmed)
        then [(EventKind.positionUncertain, (2 : Half), p.odo.pos)] else [])
      = if (climbEnded e p).odo.chosen = .none then [(.positionLost, 0, p.odo.pos)]
        else if p.odo.regime = .rack ∧ (climbEnded e p).odo.chosen = .w ∧ p.odo.source ≠ .w
          ∧ (p.odo.validity = .provisional ∨ p.odo.validity = .confirmed) then [(.positionUncertain, 2, p.odo.pos)] else [] := by
    unfold FallsBack Odo.fallback
    rw [regime]
    by_cases lost : (climbEnded e p).odo.chosen = .none
    · rw [if_pos lost, if_pos lost, if_neg fun h => absurd (lost.symm.trans h.1.2.1) (by decide), List.append_nil]
    · rw [if_neg lost, if_neg lost, List.nil_append]
      refine if_congr ?_ rfl rfl
      by_cases hr : p.odo.regime = .rack <;> simp [hr, and_assoc]
  rw [source, validity, pos, lastEvent] at events
  unfold Safety.healthEvents
  simp only [List.cons_append, List.nil_append, List.append_assoc]
  exact events

theorem encoderFaulted_health {e : Encoder} {p : Part} (known : p.odo.validity ≠ .unknown) (h : p.odo.regime ≠ .entering ∨ e ≠ .w)
    (b : Part) : Safety.healthTaken e p (finish b (encoderFaulted e p)) := by
  obtain ⟨regime, -, -, segment, -, entry⟩ := faultedOdo_track e p.odo
  have chosen := faultedOdo_chosen (e := e) known
  rw [← climbEnded_odo e p] at regime segment entry chosen
  have known' := climbEnded_known (e := e) known
  obtain ⟨regime', source', -⟩ := settleSource_source (was := p.odo) known'
  have track := changeEnd_sameTrack (settleSource p.odo (climbEnded e p)) b
  unfold Safety.healthTaken
  simp only [← chosen]
  rw [encoderFaulted_settles (h.imp_right .inl)]
  refine ⟨track.regime.trans (regime'.trans regime), track.source.trans source', climbEnded_events known (changeEnd_pre _ b),
    fun lost => ?_, fun found => ?_, fun hr hw hs => ?_⟩
  · rw [settleSource_lost known' lost] at track ⊢
    refine ⟨track.known.2 rfl, track.segment, track.entry, fun run => finish_latched b (by decide) (afterChange_emergency ⟨3, ?_⟩)⟩
    unfold lostRequests
    rw [climbEnded_mod, run]
    exact List.mem_singleton_self _
  · obtain ⟨segment', entry'⟩ := settleSource_placed (was := p.odo) known' found
    exact ⟨track.segment.trans (segment'.trans segment), track.entry.trans (entry'.trans entry)⟩
  · have falls : FallsBack p.odo (climbEnded e p) :=
      ⟨regime.trans hr, hw, by unfold Odo.fallback; rw [beq_false_of_ne hs, Bool.and_false]⟩
    rw [settleSource_fellBack known' falls] at track ⊢
    have chosenKnown : (chooseSource (climbEnded e p)).odo.validity ≠ .unknown := by rw [chooseSource_odo]; exact known'
    refine ⟨track.uncertain ?_, finish_latched b (by decide) (afterChange_fallback rfl)⟩
    rw [makeUncertain_known chosenKnown]

/-! ### W's fault during an entry check (R2, R10) -/

theorem failedEntry_posts {n : Nat} {p q : Part} {l : List (EventKind × Half × Word)} (h : Safety.posts (failedEntry n p) q l) :
    Safety.posts p q ((.rackEntryFailed, argUnsigned n, p.odo.pos)
      :: ((if (enteredRack p.odo).chosen ≠ p.odo.source then
        [(.sourceChanged, BitVec.ofNat 16 (enteredRack p.odo).chosen.code, p.odo.pos)] else []) ++ l)) :=
  posts_of_evq (posts_post (chooseSource_posts h)) rfl rfl

/-- ODO of a failed check: in the rack, the source chosen, and validity UNCERTAIN unless the position is lost. -/
theorem entryFail_odo {n : Nat} {p : Part} (known : p.odo.validity ≠ .unknown) :
    (entryFail n p).1.odo.regime = .rack ∧ (entryFail n p).1.odo.entry = none ∧ (entryFail n p).1.odo.deviation = 0
    ∧ (entryFail n p).1.odo.source = (enteredRack p.odo).chosen
    ∧ ((enteredRack p.odo).chosen = .none → (entryFail n p).1.odo.validity = .unknown ∧ (entryFail n p).1.odo.segment = none)
    ∧ ((enteredRack p.odo).chosen ≠ .none → (entryFail n p).1.odo.validity = .uncertain) := by
  have odo := failedEntry_odo n p
  rw [entryFail_eq]
  split
  · rename_i lost
    have none := (failedEntry_lost_iff known).1 lost
    dsimp only
    rw [losePosition_odo, odo]
    exact ⟨rfl, rfl, rfl, rfl, fun _ => ⟨rfl, rfl⟩, fun found => absurd none found⟩
  · rename_i found
    have known' : (failedEntry n p).odo.validity ≠ .unknown := by rw [odo]; exact known
    dsimp only
    rw [makeUncertain_known known', odo]
    exact ⟨rfl, rfl, rfl, rfl, fun lost => absurd ((failedEntry_lost_iff known).2 lost) found, fun _ => rfl⟩

theorem entryFail_events {n : Nat} {p q : Part} (known : p.odo.validity ≠ .unknown)
    (pre : (entryFail n p).1.evq.queue <+: q.evq.queue) : Safety.posts p q
      ((.rackEntryFailed, argUnsigned n, p.odo.pos)
        :: ((if (enteredRack p.odo).chosen ≠ p.odo.source then
          [(.sourceChanged, BitVec.ofNat 16 (enteredRack p.odo).chosen.code, p.odo.pos)] else [])
        ++ (if (enteredRack p.odo).chosen = .none then [(.positionLost, 0, p.odo.pos)]
          else if p.odo.validity = .provisional ∨ p.odo.validity = .confirmed then [(.positionUncertain, 3, p.odo.pos)] else []))) := by
  have odo := failedEntry_odo n p
  refine failedEntry_posts ?_
  rw [entryFail_eq] at pre
  split at pre
  · rename_i lost
    rw [if_pos ((failedEntry_lost_iff known).1 lost)]
    have posted := losePosition_posts (posts_nil pre)
    rw [odo] at posted
    exact posted
  · rename_i found
    rw [if_neg (mt (failedEntry_lost_iff known).2 found)]
    have posted := makeUncertain_posts (posts_nil pre)
    rw [odo, List.append_nil] at posted
    exact posted

theorem encoderFaulted_broken {p : Part} (known : p.odo.validity ≠ .unknown) (hr : p.odo.regime = .entering) (b : Part) :
    Safety.entryBroken p (finish b (encoderFaulted .w p)) := by
  have track := changeEnd_sameTrack (entryFail 65535 (faultTaken .w p)) b
  have pre := changeEnd_pre (entryFail 65535 (faultTaken .w p)) b
  have known' : (faultTaken .w p).odo.validity ≠ .unknown := known
  obtain ⟨regime, entry, deviation, source, lost, found⟩ := entryFail_odo (n := 65535) known'
  have chosen : (enteredRack (faultTaken .w p).odo).chosen = Safety.tableSource .rack p.odo.p1.faulted p.odo.p2.faulted true :=
    enteredRack_chosen known'
  have events := entryFail_events known' pre
  rw [chosen] at source lost found events
  rw [encoderFaulted_breaks hr known]
  refine ⟨track.regime.trans regime, track.entry.trans entry, track.deviation.trans deviation, track.source.trans source,
    finish_latched b (by decide) (afterChange_emergency (entryFail_emergency _ _)), posts_of_evq (posts_post events) rfl rfl,
    fun none => ?_, fun some => track.uncertain (found some)⟩
  obtain ⟨unknown, nowhere⟩ := lost none
  exact ⟨track.known.2 unknown, track.segment.trans nowhere⟩

/-! ### The step -/

theorem encoderStep_faults {e : Encoder} {s : State} (cold : s.part.coldLine = false) (ok : (s.part.odo.enc e).faulted = false)
    (P : State → Prop)
    (hP : ∀ t : State, t.part = finish s.part (encoderFaulted e (linesTaken e (~~~(s.part.odo.enc e).quad) s.part)) → P t) :
    ∃ t, exec (.encoderStep e (~~~(s.part.odo.enc e).quad)) s = .next t ∧ P t :=
  encoderStep_ends P fun t part => hP t (by rw [part, encoderLines_faults cold ok rfl])

/-- Whatever source and regime do, the fault stands first and nothing is counted. -/
theorem encoderFaulted_after (e : Encoder) (p : Part) : Moves countMay (faultTaken e p) (encoderFaulted e p) := by
  by_cases h : p.odo.regime ≠ .entering ∨ e ≠ .w ∨ p.odo.validity = .unknown
  · rw [encoderFaulted_settles h]
    exact (settleSource_moves (by decide) _ ((climbEnded_moves e p).mono (List.nil_subset _))).trans (afterChange_after _)
  · simp only [not_or, not_not] at h
    obtain ⟨entering, rfl, known⟩ := h
    rw [encoderFaulted_breaks entering known]
    exact (entryFail_moves (by decide) _ (Moves.refl _)).trans (afterChange_after _)

/-- The levels have no say in what source and regime do on the fault. -/
theorem healthTaken_linesTaken {e : Encoder} {levels : BitVec 2} {p q : Part} (h : Safety.healthTaken e (linesTaken e levels p) q) :
    Safety.healthTaken e p q := by
  cases e <;> exact h

theorem entryBroken_linesTaken {levels : BitVec 2} {p q : Part} (h : Safety.entryBroken (linesTaken .w levels p) q) :
    Safety.entryBroken p q := h

/-- A step of both lines of an OK encoder faults it and counts nothing (R2). -/
theorem encoderStep_fault (e : Encoder) (levels : BitVec 2) (s : State) (cold : s.part.coldLine = false)
    (ok : (s.part.odo.enc e).faulted = false) (both : levels = ~~~(s.part.odo.enc e).quad) :
    ∃ t, exec (.encoderStep e levels) s = .next t
      ∧ t.part.odo.enc e = ⟨(s.part.odo.enc e).tally, true, levels⟩
      ∧ (∀ x, x ≠ e → t.part.odo.enc x = s.part.odo.enc x) ∧ t.part.odo.pos = s.part.odo.pos
      ∧ Safety.posts s.part t.part [(.encoderFault, BitVec.ofNat 16 (encoderCode e), s.part.odo.pos)]
      ∧ Safety.flagged .odometry t.part := by
  subst both
  refine encoderStep_faults cold ok _ fun t part => ?_
  generalize hp : linesTaken e (~~~(s.part.odo.enc e).quad) s.part = p at part
  have moves : Moves countMay (faultTaken e p) t.part := part ▸ toEnd s.part (by decide) (encoderFaulted_after e p)
  have soft := moves.frame.odo (by decide)
  have enc : ∀ x, t.part.odo.enc x = if x = e then { p.odo.enc e with faulted := true } else p.odo.enc x :=
    fun x => (soft_enc soft x).trans (faultedOdo_enc e x p.odo)
  obtain ⟨-, -, -, pos, -⟩ := soft
  obtain ⟨-, -, -, -, faultPos, -⟩ := faultedOdo_track e p.odo
  obtain ⟨-, -, startPos, -⟩ := setEnc_rest s.part.odo e { s.part.odo.enc e with quad := ~~~(s.part.odo.enc e).quad }
  have start : p.odo.pos = s.part.odo.pos := hp ▸ startPos
  have posts : Safety.posts p t.part [(.encoderFault, BitVec.ofNat 16 (encoderCode e), (faultedOdo e p.odo).pos)] :=
    posts_of_evq (posts_one _ _ _ true (moves.frame.pre (by decide))) rfl rfl
  rw [faultPos, start] at posts
  refine ⟨?_, fun x hx => ?_, pos.trans (faultPos.trans start), posts_of_evq posts (by rw [← hp]; rfl) (by rw [← hp]; rfl),
    flagged_moves (flagged_post _ _ _ _ rfl) moves (by decide)⟩
  · rw [enc, if_pos rfl, ← hp, linesTaken_enc, if_pos rfl]
  · rw [enc, if_neg hx, ← hp, linesTaken_enc, if_neg hx]

/-- And source and regime act on it (R4, R10, R12, R13). -/
theorem encoderStep_health (e : Encoder) (s : State) (cold : s.part.coldLine = false) (ok : (s.part.odo.enc e).faulted = false)
    (known : s.part.odo.validity ≠ .unknown) :
    ∃ t, exec (.encoderStep e (~~~(s.part.odo.enc e).quad)) s = .next t
      ∧ (s.part.odo.regime ≠ .entering ∨ e ≠ .w → Safety.healthTaken e s.part t.part)
      ∧ (s.part.odo.regime = .entering → e = .w → Safety.entryBroken s.part t.part) := by
  refine encoderStep_faults cold ok _ fun t part => ?_
  rw [part]
  constructor
  · intro h
    exact healthTaken_linesTaken (encoderFaulted_health (by cases e <;> exact known) (by cases e <;> exact h) s.part)
  · rintro entering rfl
    generalize ~~~(s.part.odo.enc .w).quad = levels
    have known' : (linesTaken .w levels s.part).odo.validity ≠ .unknown := known
    have entering' : (linesTaken .w levels s.part).odo.regime = .entering := entering
    exact entryBroken_linesTaken (encoderFaulted_broken known' entering' s.part)

end Sys2Proof.Machine
end

section
/-! A count of the source: where it leaves the car, and the crossings (R5, R9, R11, R13). -/

namespace Sys2Proof.Machine

/-! ### Up to the new position -/

/-- All that source, regime, segment and the rack hang on stands: not route position, and not the tallies. -/
structure SameStanding (a b : Odo) : Prop where
  source : b.source = a.source
  validity : b.validity = a.validity
  regime : b.regime = a.regime
  segment : b.segment = a.segment
  entry : b.entry = a.entry
  deviation : b.deviation = a.deviation
  ref1 : b.ref1 = a.ref1
  ref2 : b.ref2 = a.ref2
  p1 : b.p1.faulted = a.p1.faulted
  p2 : b.p2.faulted = a.p2.faulted
  w : b.w.faulted = a.w.faulted

theorem tallied_standing (e : Encoder) (c : Dir) (p : Part) : SameStanding p.odo (tallied e c p).odo := by
  obtain ⟨x, dir, bucket, standTimer, odo, faulted⟩ := tallied_odo e c p
  rw [odo]
  cases e with
  | p1 => exact ⟨rfl, rfl, rfl, rfl, rfl, rfl, rfl, rfl, faulted, rfl, rfl⟩
  | p2 => exact ⟨rfl, rfl, rfl, rfl, rfl, rfl, rfl, rfl, rfl, faulted, rfl⟩
  | w => exact ⟨rfl, rfl, rfl, rfl, rfl, rfl, rfl, rfl, rfl, rfl, faulted⟩

theorem placedBy_standing (e : Encoder) (c : Dir) (p : Part) : SameStanding p.odo (placedBy e c p).odo := by
  have tallied := tallied_standing e c p
  unfold placedBy
  split
  · exact { tallied with }
  · exact tallied

theorem placedBy_moves (e : Encoder) (c : Dir) (p : Part) : Moves [.odo] p (placedBy e c p) := by
  have tallied : Moves [.odo] p (tallied e c p) := standstillCount_moves (by decide) (odoHard_moves _ (by decide) (Moves.refl p))
  unfold placedBy
  split
  · exact odoHard_moves _ (by decide) tallied
  · exact tallied

theorem movesPosition_iff (e : Encoder) (p : Part) :
    movesPosition e p = true ↔ p.odo.source.encoder? = some e ∧ p.odo.validity ≠ .unknown := by
  simp [movesPosition]

theorem positioned_moves (e : Encoder) (c : Dir) (p : Part) : Moves countMay (placedBy e c p) (positioned e c p) := by
  unfold positioned
  split; exacts [moveTo_moves (by decide) _ countTravel (Moves.refl _), Moves.refl _]

theorem positioned_source {e : Encoder} {c : Dir} {p : Part} (h : movesPosition e p = true) :
    positioned e c p = moveTo c (placedBy e c p) := if_pos h

theorem moveTo_after (d : Dir) (p : Part) : Moves countMay (followSegment d p).1 (moveTo d p) :=
  spreadPosition_moves _ countTravel (odoRequests_moves _ (by decide) (by decide) (captureWatch_moves (by decide) (Moves.refl _)))

theorem moveTo_sameTrack (d : Dir) (p : Part) : SameTrack (followSegment d p).1.odo (moveTo d p).odo :=
  (captureWatch_sameTrack _).trans (Moves.sameTrack (H := roadMay)
    (spreadPosition_moves _ roadTravel (odoRequests_moves _ (by decide) (by decide) (Moves.refl _))))

/-- A request of EMERGENCY at a crossing has been made by the end of the move. -/
theorem moveTo_emergency {d : Dir} {p : Part} (h : ∃ n, (Stage.emergency, n) ∈ (followSegment d p).2) :
    Safety.latchedAt .odometry .emergency (moveTo d p) :=
  latched_after (H := roadMay) (odoRequests_latched _ (captureWatch (followSegment d p).1) (.inr h)) (by decide)
    (spreadPosition_moves _ roadTravel (Moves.refl _)) (by decide)

/-! ### Deviation (R14, R15) -/

/-- Deviation as the tallies now have it. -/
def drifted (p : Part) : Part :=
  p.withOdo { p.odo with deviation := (p.odo.p1.tally - p.odo.ref1) - (p.odo.p2.tally - p.odo.ref2) }

theorem deviationCount_off {p : Part} (h : p.odo.climbOn = false) : deviationCount p = p := by
  unfold deviationCount; rw [if_neg (by rw [h]; decide)]

theorem deviationCount_on {p : Part} (h : p.odo.climbOn = true) :
    deviationCount p = if !climbing p && climbing (drifted p) then climbOut (drifted p) else drifted p := by
  unfold deviationCount; rw [if_pos h]; rfl

theorem climbOut_sameTrack (p : Part) : SameTrack p.odo (climbOut p).odo :=
  Moves.sameTrack (H := roadMay) (climbOut_moves roadTravel (Moves.refl p))

theorem drifted_onTrack (p : Part) : OnTrack p.odo (drifted p).odo := ⟨rfl, rfl, rfl, rfl, rfl, rfl, rfl, rfl, rfl, rfl, Iff.rfl, id⟩

theorem deviationCount_drifted {p : Part} (h : p.odo.climbOn = true) : SameTrack (drifted p).odo (deviationCount p).odo := by
  rw [deviationCount_on h]
  split; exacts [climbOut_sameTrack _, .refl _]

theorem deviationCount_onTrack (p : Part) : OnTrack p.odo (deviationCount p).odo := by
  cases h : p.odo.climbOn with
  | true => exact (drifted_onTrack p).trans (deviationCount_drifted h).toOnTrack
  | false => rw [deviationCount_off h]; exact .refl _

theorem climbOn_iff (o : Odo) : o.climbOn = true ↔ o.regime = .rack ∧ o.p1.faulted = false ∧ o.p2.faulted = false := by
  unfold Odo.climbOn
  simp only [Bool.and_eq_true, beq_iff_eq, Bool.not_eq_true', and_assoc]

theorem climbOn_outside {o : Odo} (h : o.regime ≠ .rack) : o.climbOn = false := by
  rw [Bool.eq_false_iff, Ne, climbOn_iff]; exact fun on => h on.1

theorem deviated_moves (e : Encoder) (c : Dir) (p : Part) : Moves countMay (positioned e c p) (deviated e c p) := by
  unfold deviated
  split; exacts [Moves.refl _, deviationCount_moves (by decide) countTravel (Moves.refl _)]

theorem deviated_onTrack (e : Encoder) (c : Dir) (p : Part) : OnTrack (positioned e c p).odo (deviated e c p).odo := by
  unfold deviated
  split; exacts [.refl _, deviationCount_onTrack _]

/-- With climb supervision off deviation stands. -/
theorem deviated_off {e : Encoder} {c : Dir} {p : Part} (h : (positioned e c p).odo.climbOn = false) :
    deviated e c p = positioned e c p := by
  unfold deviated
  rw [deviationCount_off h, ite_self]

/-! ### To the end of the count -/

/-- The part at the end of a count, the bookkeeping of the row included. -/
def countEnd (e : Encoder) (c : Dir) (p b : Part) : Part := finish b (closing e c p (entryTaken e c p))

theorem entryTaken_moves (e : Encoder) (c : Dir) (p : Part) : Moves countMay (deviated e c p) (entryTaken e c p) :=
  entryCount_moves (by decide) _ _ _ countTravel (Moves.refl _)

/-- With no entry check before the count, or none left by it, none is judged. -/
theorem entryTaken_idle {e : Encoder} {c : Dir} {p : Part} (h : p.odo.entry = none ∨ (positioned e c p).odo.entry = none) :
    entryTaken e c p = deviated e c p := by
  have entry := (deviated_onTrack e c p).entry
  unfold entryTaken entryCount
  split
  · rename_i x check
    rcases h with h | h
    · rw [if_neg (by rw [h]; decide)]
    · rw [entry, h] at check; cases check
  · rfl

theorem closing_moves (e : Encoder) (c : Dir) (p x : Part) : Moves countMay x (closing e c p x) := by
  have counters : Moves countMay x (countersTaken (p.odo.motion == some e) c x) := by
    unfold countersTaken
    split
    · exact reverseCount_moves _ countTravel (creepCount_moves countTravel (captureCount_moves (by decide) _ countTravel (Moves.refl _)))
    · exact Moves.refl _
  unfold closing recordTaken
  refine ssuEvaluate_moves ?_
  split; exacts [travelCount_moves _ (by decide) (by decide) counters, counters]

theorem closing_sameTrack (e : Encoder) (c : Dir) (p x : Part) : SameTrack x.odo (closing e c p x).odo := by
  have counters : SameTrack x.odo (countersTaken (p.odo.motion == some e) c x).odo := by
    unfold countersTaken
    split
    · exact (captureCount_sameTrack c x).trans (Moves.sameTrack (H := roadMay)
        (reverseCount_moves _ roadTravel (creepCount_moves roadTravel (Moves.refl _))))
    · exact .refl _
  refine counters.trans (Moves.sameTrack (H := roadMay) ?_)
  unfold closing recordTaken
  refine ssuEvaluate_moves ?_
  split; exacts [travelCount_moves _ (by decide) (by decide) (Moves.refl _), Moves.refl _]

section
variable (e : Encoder) (c : Dir) (p b : Part)

theorem countEnd_fromEntry : Moves countMay (entryTaken e c p) (countEnd e c p b) := toEnd b (by decide) (closing_moves e c p _)

theorem countEnd_entryTrack : SameTrack (entryTaken e c p).odo (countEnd e c p b).odo :=
  (closing_sameTrack e c p _).trans (finish_sameTrack b _)

theorem countEnd_fromDeviated : Moves countMay (deviated e c p) (countEnd e c p b) :=
  (entryTaken_moves e c p).trans (countEnd_fromEntry e c p b)

theorem countEnd_fromPositioned : Moves countMay (positioned e c p) (countEnd e c p b) :=
  (deviated_moves e c p).trans (countEnd_fromDeviated e c p b)

theorem countEnd_fromPlaced : Moves countMay (placedBy e c p) (countEnd e c p b) :=
  (positioned_moves e c p).trans (countEnd_fromPositioned e c p b)

end

/-! ### Crossings -/

/-- An event since a later part is an event since an earlier one. -/
theorem posted_since {p x q : Part} {k : EventKind} {arg : Half} (h : Safety.posted k arg x q) (before : p.evq.queue <+: x.evq.queue) :
    Safety.posted k arg p q := by
  intro room
  obtain ⟨ev, mem, kind⟩ := h room
  exact ⟨ev, List.drop_subset_drop_left _ before.length_le mem, kind⟩

/-- The part with its new segment, before a crossing acts. -/
def onSegment (j : Nat) (p : Part) : Part := p.withOdo { p.odo with segment := some j }

section
variable {e : Encoder} {c : Dir} {p b : Part} {i j : Nat}

/-- The source has moved the car: from the segment followed to the end of the count. -/
theorem countEnd_fromSegment (src : movesPosition e p = true) :
    Moves countMay (followSegment c (placedBy e c p)).1 (countEnd e c p b) :=
  (positioned_source (c := c) src ▸ moveTo_after c (placedBy e c p)).trans (countEnd_fromPositioned e c p b)

theorem countEnd_segmentTrack (src : movesPosition e p = true)
    (idle : p.odo.entry = none ∨ (followSegment c (placedBy e c p)).1.odo.entry = none) :
    OnTrack (followSegment c (placedBy e c p)).1.odo (countEnd e c p b).odo := by
  have moved := moveTo_sameTrack c (placedBy e c p)
  rw [← positioned_source src] at moved
  have noEntry := entryTaken_idle (c := c) (idle.imp_right moved.entry.trans)
  exact moved.toOnTrack.trans ((deviated_onTrack e c p).trans (noEntry ▸ (countEnd_entryTrack e c p b).toOnTrack))

/-- Out of the rack deviation stands as well. -/
theorem countEnd_deviation (src : movesPosition e p = true) (idle : p.odo.entry = none)
    (out : (followSegment c (placedBy e c p)).1.odo.regime ≠ .rack) :
    (countEnd e c p b).odo.deviation = (followSegment c (placedBy e c p)).1.odo.deviation := by
  have moved := moveTo_sameTrack c (placedBy e c p)
  rw [← positioned_source src] at moved
  have off : (positioned e c p).odo.climbOn = false := climbOn_outside (by rw [moved.regime]; exact out)
  have stays := entryTaken_idle (c := c) (e := e) (.inl idle)
  rw [deviated_off off] at stays
  exact (stays ▸ (countEnd_entryTrack e c p b).deviation).trans moved.deviation

end

end Sys2Proof.Machine
end

section
/-! The crossings of a count of the source, one by one (R5, R9, R11, R13). -/

namespace Sys2Proof.Machine

/-- The standings of a count of the source that has moved the car from a segment to a segment. -/
structure Crossing (e : Encoder) (c : Dir) (i j : Nat) (p : Part) : Prop where
  source : p.odo.source.encoder? = some e
  known : p.odo.validity ≠ .unknown
  left : p.odo.segment = some i
  reached : segmentIndex (placedBy e c p).odo.pos.toInt p.prf.active = some j

section
variable {e : Encoder} {c : Dir} {p : Part} {i j : Nat}

theorem Crossing.moves (h : Crossing e c i j p) : movesPosition e p = true := (movesPosition_iff e p).2 ⟨h.source, h.known⟩

theorem placedBy_prf (e : Encoder) (c : Dir) (p : Part) : (placedBy e c p).prf = p.prf := (placedBy_moves e c p).frame.prf (by decide)

theorem placedBy_mode (e : Encoder) (c : Dir) (p : Part) : (placedBy e c p).mod.mode = p.mod.mode :=
  (placedBy_moves e c p).frame.mode (by decide)

theorem placedBy_rackAt (e : Encoder) (c : Dir) (p : Part) (n : Nat) : rackAt (placedBy e c p) n = rackAt p n :=
  rackAt_eq _ _ (placedBy_prf e c p) n

theorem placedBy_known (known : p.odo.validity ≠ .unknown) : (placedBy e c p).odo.validity ≠ .unknown := by
  rw [(placedBy_standing e c p).validity]; exact known

theorem Crossing.within (h : Crossing e c i j p) (same : rackAt p i = rackAt p j) :
    followSegment c (placedBy e c p) = (onSegment j (placedBy e c p), []) :=
  followSegment_within ((placedBy_standing e c p).segment.trans h.left) (by rw [placedBy_prf]; exact h.reached)
    (by simpa only [placedBy_rackAt] using same)

theorem Crossing.crosses (h : Crossing e c i j p) (other : rackAt p i ≠ rackAt p j) :
    followSegment c (placedBy e c p) = crossRegime (rackAt p j) c (onSegment j (placedBy e c p)) := by
  rw [followSegment_cross ((placedBy_standing e c p).segment.trans h.left) (by rw [placedBy_prf]; exact h.reached)
    (by simpa only [placedBy_rackAt] using other), placedBy_rackAt]
  rfl

/-- Within a regime the segment follows, and nothing else (R5). -/
theorem Crossing.keepsRegime (h : Crossing e c i j p) (b : Part) (same : rackAt p i = rackAt p j) (noEntry : p.odo.entry = none) :
    (countEnd e c p b).odo.segment = some j ∧ (countEnd e c p b).odo.regime = p.odo.regime
    ∧ (countEnd e c p b).odo.source = p.odo.source ∧ (countEnd e c p b).odo.entry = none := by
  have stands := placedBy_standing e c p
  have track := countEnd_segmentTrack (b := b) h.moves (.inl noEntry) (c := c)
  rw [h.within same] at track
  exact ⟨track.segment, track.regime.trans stands.regime, track.source.trans stands.source,
    track.entry.trans (stands.entry.trans noEntry)⟩

/-- Into the rack: an entry check begins, and W is the source (R9). -/
theorem Crossing.enters (h : Crossing e c i j p) (b : Part) (hi : rackAt p i = false) (hj : rackAt p j = true)
    (hr : p.odo.regime = .adhesion) (noEntry : p.odo.entry = none) (hw : p.odo.w.faulted = false) :
    (countEnd e c p b).odo.segment = some j ∧ (countEnd e c p b).odo.regime = .entering ∧ (countEnd e c p b).odo.source = .w
    ∧ (countEnd e c p b).odo.entry = some ⟨c, 0, 0, 0, !p.odo.p1.faulted, !p.odo.p2.faulted⟩ := by
  have stands := placedBy_standing e c p
  have track := countEnd_segmentTrack (b := b) h.moves (.inl noEntry) (c := c)
  have odo := (crossRegime_enters (d := c) (p := onSegment j (placedBy e c p)) (stands.regime.trans hr) (placedBy_known h.known)
    (stands.w.trans hw)).2
  rw [← hj, ← h.crosses (by rw [hi, hj]; decide)] at odo
  rw [odo] at track
  refine ⟨track.segment, track.regime, track.source, track.entry.trans ?_⟩
  rw [← stands.p1, ← stands.p2]; rfl

/-- Back out of a rack whose entry check still runs: the check ends (R11). -/
theorem Crossing.turns (h : Crossing e c i j p) (b : Part) (hi : rackAt p i = true) (hj : rackAt p j = false)
    (hr : p.odo.regime = .entering) (hw : p.odo.w.faulted = false) :
    (countEnd e c p b).odo.segment = some j ∧ (countEnd e c p b).odo.regime = .adhesion ∧ (countEnd e c p b).odo.source = .w
    ∧ (countEnd e c p b).odo.entry = none := by
  have stands := placedBy_standing e c p
  have odo := (crossRegime_turns (d := c) (p := onSegment j (placedBy e c p)) (stands.regime.trans hr) (placedBy_known h.known)
    (stands.w.trans hw)).2
  rw [← hj, ← h.crosses (by rw [hi, hj]; decide)] at odo
  have track := countEnd_segmentTrack (b := b) h.moves (.inr (by rw [odo]; rfl)) (c := c)
  rw [odo] at track
  exact ⟨track.segment, track.regime, track.source, track.entry⟩

/-- The part that leaves the rack at the new segment. -/
def leavingAt (e : Encoder) (c : Dir) (j : Nat) (p : Part) : Part := leavingRack (onSegment j (placedBy e c p))

theorem Crossing.leaving (h : Crossing e c i j p) (hi : rackAt p i = true) (hj : rackAt p j = false) (hr : p.odo.regime = .rack) :
    followSegment c (placedBy e c p) = settleSource (onSegment j (placedBy e c p)).odo (leavingAt e c j p) := by
  rw [h.crosses (by rw [hi, hj]; decide), hj]
  exact crossRegime_leaves ((placedBy_standing e c p).regime.trans hr)

/-- The choice of source as the car leaves the rack (Table 1-1). -/
theorem leavingAt_chosen (known : p.odo.validity ≠ .unknown) :
    (leavingAt e c j p).odo.chosen = if p.odo.w.faulted then .none else .w := by
  rw [chosen_open (o := (leavingAt e c j p).odo) (placedBy_known known) (show Regime.adhesion ≠ .rack by decide)]
  exact if_congr (by rw [← (placedBy_standing e c p).w]; rfl) rfl rfl

theorem leavingAt_pre (e : Encoder) (c : Dir) (j : Nat) (p : Part) : p.evq.queue <+: (leavingAt e c j p).evq.queue :=
  ((placedBy_moves e c p).frame.pre (by decide)).trans (Evq.posting_prefix _ _ _ _ _ _)

/-- Out of the rack (R11): RACK_LEFT, the regime, and deviation as it stood. -/
theorem Crossing.leaves (h : Crossing e c i j p) (b : Part) (hi : rackAt p i = true) (hj : rackAt p j = false)
    (hr : p.odo.regime = .rack) (noEntry : p.odo.entry = none) :
    (countEnd e c p b).odo.regime = .adhesion ∧ (countEnd e c p b).odo.deviation = p.odo.deviation
    ∧ Safety.posted .rackLeft 0 p (countEnd e c p b) := by
  have known : (leavingAt e c j p).odo.validity ≠ .unknown := placedBy_known h.known
  have track := countEnd_segmentTrack (b := b) h.moves (.inl noEntry) (c := c)
  have after := countEnd_fromSegment (c := c) (b := b) h.moves
  have drift := countEnd_deviation (c := c) (b := b) h.moves noEntry
  rw [h.leaving hi hj hr] at track after drift
  obtain ⟨regime, -, deviation⟩ := settleSource_source (was := (onSegment j (placedBy e c p)).odo) known
  have out : (settleSource (onSegment j (placedBy e c p)).odo (leavingAt e c j p)).1.odo.regime = .adhesion := regime
  exact ⟨track.regime.trans out, (drift (by rw [out]; decide)).trans (deviation.trans (placedBy_standing e c p).deviation),
    posted_of ((placedBy_moves e c p).frame.pre (by decide))
      (((settleSource_moves (by decide) _ (Moves.refl (leavingAt e c j p))).trans after).frame.pre (by decide))⟩

/-- Out of the rack with W OK: W is the source (R11). -/
theorem Crossing.leaves_onW (h : Crossing e c i j p) (b : Part) (hi : rackAt p i = true) (hj : rackAt p j = false)
    (hr : p.odo.regime = .rack) (noEntry : p.odo.entry = none) (hw : p.odo.w.faulted = false) :
    (countEnd e c p b).odo.segment = some j ∧ (countEnd e c p b).odo.source = .w
    ∧ (p.odo.source ≠ .w → Safety.posted .sourceChanged 3 p (countEnd e c p b)) := by
  have known : (leavingAt e c j p).odo.validity ≠ .unknown := placedBy_known h.known
  have chosen : (leavingAt e c j p).odo.chosen = .w := by rw [leavingAt_chosen h.known, hw]; rfl
  have settles := settleSource_open (was := (onSegment j (placedBy e c p)).odo) known (by rw [chosen]; decide)
    (show Regime.adhesion ≠ .rack by decide)
  have track := countEnd_segmentTrack (b := b) h.moves (.inl noEntry) (c := c)
  have after := countEnd_fromSegment (c := c) (b := b) h.moves
  rw [h.leaving hi hj hr, settles] at track after
  have odo := chooseSource_odo (leavingAt e c j p)
  rw [chosen] at odo
  refine ⟨track.segment.trans (by rw [odo]; rfl), track.source.trans (by rw [odo]), fun hs => ?_⟩
  have new : (leavingAt e c j p).odo.chosen ≠ (leavingAt e c j p).odo.source := by
    rw [chosen]; exact fun same => hs ((placedBy_standing e c p).source.symm.trans same.symm)
  have posted := chooseSource_posted new
  rw [chosen] at posted
  exact posted_since (posted_more posted ((chooseSource_after _).frame.pre (by decide)) (after.frame.pre (by decide)))
    (leavingAt_pre e c j p)

/-- Out of the rack with W FAULTED: the position is lost (R13). -/
theorem Crossing.leaves_lost (h : Crossing e c i j p) (b : Part) (hi : rackAt p i = true) (hj : rackAt p j = false)
    (hr : p.odo.regime = .rack) (noEntry : p.odo.entry = none) (hw : p.odo.w.faulted = true) :
    Safety.placeLost p (countEnd e c p b) := by
  have known : (leavingAt e c j p).odo.validity ≠ .unknown := placedBy_known h.known
  have chosen : (leavingAt e c j p).odo.chosen = .none := by rw [leavingAt_chosen h.known, hw]; rfl
  have lost := h.leaving hi hj hr
  rw [settleSource_lost known chosen] at lost
  have track := countEnd_segmentTrack (b := b) h.moves (.inl noEntry) (c := c)
  have after := countEnd_fromSegment (c := c) (b := b) h.moves
  rw [lost] at track after
  have odo := chooseSource_odo (leavingAt e c j p)
  rw [chosen] at odo
  have new : (leavingAt e c j p).odo.chosen ≠ (leavingAt e c j p).odo.source := by
    rw [chosen]
    intro same
    have source : p.odo.source = .none := (placedBy_standing e c p).source.symm.trans same.symm
    have := h.source
    rw [source] at this
    cases this
  have change := chooseSource_posted new
  rw [chosen] at change
  have chooses : (leavingAt e c j p).evq.queue <+: (chooseSource (leavingAt e c j p)).evq.queue :=
    (chooseSource_after _).frame.pre (by decide)
  have loses : (chooseSource (leavingAt e c j p)).evq.queue <+: (losePosition (chooseSource (leavingAt e c j p))).evq.queue :=
    Evq.posting_prefix _ _ _ _ _ _
  have ends := after.frame.pre (by decide)
  refine ⟨track.source.trans ?_, track.known.2 rfl, track.segment, track.entry,
    posted_since (posted_more change chooses (loses.trans ends)) (leavingAt_pre e c j p),
    posted_of ((leavingAt_pre e c j p).trans chooses) ends, fun run => ?_⟩
  · rw [losePosition_odo, odo]
  · have asks : ∃ n, (Stage.emergency, n) ∈ (followSegment c (placedBy e c p)).2 := by
      have mode : (leavingAt e c j p).mod.mode = .run := (placedBy_mode e c p).trans run
      rw [lost]
      exact ⟨3, by simp [lostRequests, mode]⟩
    have moved := moveTo_emergency asks
    rw [← positioned_source h.moves] at moved
    exact latched_after moved (by decide) (countEnd_fromPositioned e c p b) (by decide)

/-- A count of the source that leaves one segment for another (R5, R9, R11, R13). -/
theorem count_crosses (h : Crossing e c i j p) (b : Part) : Safety.crossed c i j p (countEnd e c p b) := by
  unfold Safety.crossed
  simp only [regimeAt_eq_iff, regimeAt_rack, regimeAt_adhesion]
  refine ⟨h.keepsRegime b, h.enters b, fun hi hj hr noEntry => ?_, h.turns b⟩
  obtain ⟨regime, deviation, left⟩ := h.leaves b hi hj hr noEntry
  exact ⟨regime, deviation, left, h.leaves_onW b hi hj hr noEntry, h.leaves_lost b hi hj hr noEntry⟩

end

end Sys2Proof.Machine
end

section
/-! A count that leaves the car in its segment: the entry check and deviation (R9, R10, R14, R15). -/

namespace Sys2Proof.Machine

/-- The count leaves the car in its segment, where it moves the car at all (R5). -/
def KeepsSegment (e : Encoder) (c : Dir) (p : Part) : Prop :=
  movesPosition e p = true → segmentIndex (placedBy e c p).odo.pos.toInt p.prf.active = p.odo.segment

section
variable {e : Encoder} {c : Dir} {p : Part}

theorem KeepsSegment.track (h : KeepsSegment e c p) : SameTrack (placedBy e c p).odo (positioned e c p).odo := by
  cases src : movesPosition e p with
  | true =>
    have stays : followSegment c (placedBy e c p) = (placedBy e c p, []) :=
      followSegment_stays (by rw [placedBy_prf, (placedBy_standing e c p).segment]; exact h src)
    have moved := moveTo_sameTrack c (placedBy e c p)
    rw [stays] at moved
    rw [positioned_source src]
    exact moved
  | false => unfold positioned; rw [src]; exact .refl _

theorem positioned_since (e : Encoder) (c : Dir) (p : Part) : Moves (.odo :: countMay) p (positioned e c p) :=
  ((placedBy_moves e c p).mono (by decide)).trans ((positioned_moves e c p).mono (List.subset_cons_self _ _))

theorem positioned_pre (e : Encoder) (c : Dir) (p : Part) : p.evq.queue <+: (positioned e c p).evq.queue :=
  (positioned_since e c p).frame.pre (by decide)

theorem positioned_prf (e : Encoder) (c : Dir) (p : Part) : (positioned e c p).prf = p.prf :=
  (positioned_since e c p).frame.prf (by decide)

/-- What a count that stays in the segment has left standing. -/
theorem KeepsSegment.stands (h : KeepsSegment e c p) :
    (positioned e c p).odo.regime = p.odo.regime ∧ (positioned e c p).odo.entry = p.odo.entry
    ∧ (positioned e c p).odo.deviation = p.odo.deviation ∧ (positioned e c p).odo.ref1 = p.odo.ref1
    ∧ (positioned e c p).odo.ref2 = p.odo.ref2 ∧ ((positioned e c p).odo.validity = .unknown ↔ p.odo.validity = .unknown)
    ∧ (positioned e c p).odo.p1.faulted = p.odo.p1.faulted ∧ (positioned e c p).odo.p2.faulted = p.odo.p2.faulted
    ∧ (positioned e c p).odo.w.faulted = p.odo.w.faulted := by
  have track := h.track
  have stands := placedBy_standing e c p
  refine ⟨track.regime.trans stands.regime, track.entry.trans stands.entry, track.deviation.trans stands.deviation,
    track.ref1.trans stands.ref1, track.ref2.trans stands.ref2, track.known.trans (by rw [stands.validity]), ?_, ?_, ?_⟩
  · rw [track.p1, stands.p1]
  · rw [track.p2, stands.p2]
  · rw [track.w, stands.w]

/-! ### Deviation -/

theorem climbOut_climbsOut (p : Part) : Safety.latchedAt .odometry .emergency (climbOut p)
    ∧ (post .climbOut (argSigned p.odo.deviation.toInt) p).evq.queue <+: (climbOut p).evq.queue := by
  have alarm : Moves [] _ (climbOut p) := handAlarm_moves _ (Moves.refl (latch .odometry .emergency 4
    (post .climbOut (argSigned p.odo.deviation.toInt) p)))
  have request : Moves [.mode, .ord] _ (latch .odometry .emergency 4 (post .climbOut (argSigned p.odo.deviation.toInt) p)) :=
    latch_moves _ _ _ (by decide) (by decide) (by decide) (Moves.refl _)
  exact ⟨latched_after (latch_latched _ _ _ (by decide) _) (by decide) alarm (by decide),
    (request.frame.pre (by decide)).trans (alarm.frame.pre (by decide))⟩

theorem climbing_iff (p : Part) : climbing p = true ↔ p.prf.settings.climbThreshold < p.odo.deviation.toInt.natAbs := decide_eq_true_iff

/-- A count of a pinion moves deviation, to a climb-out at the threshold (R14, R15). -/
theorem KeepsSegment.drifts (h : KeepsSegment e c p) (b : Part) (pinion : e ≠ .w) (noEntry : p.odo.entry = none) :
    Safety.deviates p (countEnd e c p b) := by
  obtain ⟨regime, -, deviation, ref1, ref2, -, p1, p2, -⟩ := h.stands
  have deviates : deviated e c p = deviationCount (positioned e c p) := if_neg (by simpa using pinion)
  have toEnd := countEnd_fromDeviated e c p b
  have track := countEnd_entryTrack e c p b
  rw [entryTaken_idle (.inl noEntry)] at track
  rw [deviates] at toEnd track
  refine ⟨fun hr h1 h2 => ?_, fun off => ?_⟩
  · have on : (positioned e c p).odo.climbOn = true := (climbOn_iff _).2 ⟨regime.trans hr, p1.trans h1, p2.trans h2⟩
    have drift := (deviationCount_drifted on).trans track
    have moved : (countEnd e c p b).odo.deviation = (drifted (positioned e c p)).odo.deviation := drift.deviation
    refine ⟨?_, fun below above => ?_⟩
    · rw [moved, drift.p1, drift.p2, ← ref1, ← ref2]; rfl
    · have was : climbing (positioned e c p) = false := by
        rw [Bool.eq_false_iff, Ne, climbing_iff, positioned_prf, deviation]; omega
      have now : climbing (drifted (positioned e c p)) = true := by
        rw [climbing_iff, ← moved, show (drifted (positioned e c p)).prf = p.prf from positioned_prf e c p]; exact above
      rw [deviationCount_on on, was, now] at toEnd
      obtain ⟨latched, event⟩ := climbOut_climbsOut (drifted (positioned e c p))
      rw [moved]
      exact ⟨latched_after latched (by decide) toEnd (by decide),
        posted_of (positioned_pre e c p) (event.trans (toEnd.frame.pre (by decide)))⟩
  · have outside : (positioned e c p).odo.climbOn = false := by
      rw [Bool.eq_false_iff, Ne, climbOn_iff, regime, p1, p2]
      simp only [← Bool.not_eq_false] at off
      tauto
    rw [deviationCount_off outside] at track
    exact track.deviation.trans deviation

/-! ### The entry check -/

/-- The part whose entry check is judged: the count has been added to it. -/
def checkedBy (e : Encoder) (c : Dir) (x : EntryCheck) (p : Part) : Part :=
  (positioned e c p).withOdo { (positioned e c p).odo with entry := some (x.count e c) }

theorem checkedBy_settings (e : Encoder) (c : Dir) (x : EntryCheck) (p : Part) :
    (checkedBy e c x p).prf.settings = p.prf.settings := congrArg Prf.settings (positioned_prf e c p)

theorem KeepsSegment.judges (h : KeepsSegment e c p) {x : EntryCheck} (check : p.odo.entry = some x) (hr : p.odo.regime = .entering) :
    entryTaken e c p = afterChange (entryJudge (checkedBy e c x p)) := by
  obtain ⟨regime, entry, -⟩ := h.stands
  have noDrift := deviated_off (climbOn_outside (by rw [regime, hr]; decide))
  unfold entryTaken
  rw [noDrift]
  unfold entryCount
  rw [entry, check]
  rfl

theorem passedEntry_moves (p : Part) : Moves [] (passedEntry p) (entryPass p).1 := by
  rw [entryPass_eq]
  dsimp only
  split
  · exact post_moves _ _ (Moves.refl _)
  · split; exacts [post_moves _ _ (Moves.refl _), Moves.refl _]

/-- A failed check: RACK_ENTRY_FAILED, and what follows on the source. -/
theorem entryFail_after (n : Nat) (p : Part) :
    Moves countMay (post .rackEntryFailed (argUnsigned n) (p.withOdo (enteredRack p.odo))) (entryFail n p).1 := by
  have chosen : Moves countMay (post .rackEntryFailed (argUnsigned n) (p.withOdo (enteredRack p.odo))) (failedEntry n p) :=
    chooseSource_after _
  rw [entryFail_eq]
  split
  · exact losePosition_moves (by decide) chosen
  · exact makeUncertain_moves (by decide) _ chosen

/-- The events of a pass: RACK_ENTERED with the source, and CLIMB_OFF where a pinion is FAULTED (R10, R14). -/
theorem entryPass_events {p q : Part} (after : (entryPass p).1.evq.queue <+: q.evq.queue) :
    Safety.posted .rackEntered (BitVec.ofNat 16 (enteredRack p.odo).chosen.code) p q
    ∧ (p.odo.p1.faulted = true → Safety.posted .climbOff 1 p q)
    ∧ (p.odo.p1.faulted = false → p.odo.p2.faulted = true → Safety.posted .climbOff 2 p q) := by
  have entered : (post .rackEntered (BitVec.ofNat 16 (enteredRack p.odo).chosen.code) (p.withOdo (enteredRack p.odo))).evq.queue
      <+: (passedEntry p).evq.queue := (chooseSource_after _).frame.pre (by decide)
  have passed := (passedEntry_moves p).frame.pre (by decide)
  have before : p.evq.queue <+: (passedEntry p).evq.queue := List.IsPrefix.trans (Evq.posting_prefix _ _ _ _ _ _) entered
  refine ⟨posted_of (x := p.withOdo (enteredRack p.odo)) (List.prefix_refl _) (entered.trans (passed.trans after)),
    fun h1 => posted_of (pos := (passedEntry p).odo.pos) (sets := true) before ?_,
    fun h1 h2 => posted_of (pos := (passedEntry p).odo.pos) (sets := true) before ?_⟩
  · rw [entryPass_eq, if_pos h1] at after; exact after
  · rw [entryPass_eq, if_neg (by rw [h1]; decide), if_pos h2] at after; exact after

section
variable {x : EntryCheck} (h : KeepsSegment e c p) (b : Part) (check : p.odo.entry = some x) (hr : p.odo.regime = .entering)
include h check hr

theorem KeepsSegment.judgedTrack : SameTrack (entryJudge (checkedBy e c x p)).1.odo (countEnd e c p b).odo :=
  (afterChange_sameTrack (entryJudge (checkedBy e c x p))).trans (h.judges check hr ▸ countEnd_entryTrack e c p b)

theorem KeepsSegment.judgedChange : Moves countMay (afterChange (entryJudge (checkedBy e c x p))) (countEnd e c p b) :=
  h.judges check hr ▸ countEnd_fromEntry e c p b

theorem KeepsSegment.judgedEvents : (entryJudge (checkedBy e c x p)).1.evq.queue <+: (countEnd e c p b).evq.queue :=
  ((afterChange_after _).trans (h.judgedChange b check hr)).frame.pre (by decide)

omit check hr in
/-- The choice of source at the end of the check (Table 1-1). -/
theorem KeepsSegment.judgedSource (known : p.odo.validity ≠ .unknown) : (enteredRack (checkedBy e c x p).odo).chosen
    = Safety.tableSource .rack p.odo.p1.faulted p.odo.p2.faulted p.odo.w.faulted := by
  obtain ⟨-, -, -, -, -, unknown, p1, p2, w⟩ := h.stands
  rw [← p1, ← p2, ← w]
  exact enteredRack_chosen (o := (checkedBy e c x p).odo) (mt unknown.1 known)

/-- A check that passes (R10). -/
theorem KeepsSegment.passes (known : p.odo.validity ≠ .unknown) (long : (p.prf.settings.entryLength : Int) * 16 ≤ (x.count e c).wTravel)
    (pass : Safety.entryPasses (x.count e c)) : Safety.entryJudged (x.count e c) p (countEnd e c p b) := by
  obtain ⟨-, -, -, -, -, -, p1, p2, -⟩ := h.stands
  have judge : entryJudge (checkedBy e c x p) = entryPass (checkedBy e c x p) :=
    entryJudge_passes (p := checkedBy e c x p) rfl (by rw [checkedBy_settings]; exact long) pass
  have track := h.judgedTrack b check hr
  have after := h.judgedEvents b check hr
  rw [judge] at track after
  rw [entryPass_odo] at track
  obtain ⟨entered, off1, off2⟩ := entryPass_events after
  have before : p.evq.queue <+: (checkedBy e c x p).evq.queue := positioned_pre e c p
  refine ⟨fun short => absurd long (not_le.2 short), fun _ => ⟨track.entry, track.regime, track.deviation,
    track.source.trans (h.judgedSource known), fun _ => ⟨?_, fun h1 => ?_, fun h1 h2 => ?_⟩, fun fails => absurd pass fails⟩⟩
  · rw [track.source]; exact posted_since entered before
  · exact posted_since (off1 (p1.trans h1)) before
  · exact posted_since (off2 (p1.trans h1) (p2.trans h2)) before

/-- A check that fails, W being OK (R10). -/
theorem KeepsSegment.fails (known : p.odo.validity ≠ .unknown) (hw : p.odo.w.faulted = false)
    (long : (p.prf.settings.entryLength : Int) * 16 ≤ (x.count e c).wTravel)
    (fail : ¬ Safety.entryPasses (x.count e c)) : Safety.entryJudged (x.count e c) p (countEnd e c p b) := by
  obtain ⟨-, -, -, -, -, unknown, -⟩ := h.stands
  have judge : entryJudge (checkedBy e c x p) = entryFail (failedBy (x.count e c)) (checkedBy e c x p) :=
    entryJudge_fails (p := checkedBy e c x p) rfl (by rw [checkedBy_settings]; exact long) fail
  have track := h.judgedTrack b check hr
  have change := h.judgedChange b check hr
  have after := h.judgedEvents b check hr
  rw [judge] at track change after
  have known' : (checkedBy e c x p).odo.validity ≠ .unknown := mt unknown.1 known
  have chosen := h.judgedSource (x := x) known
  have found : (enteredRack (checkedBy e c x p).odo).chosen ≠ .none := by
    rw [chosen, hw]; cases p.odo.p1.faulted <;> cases p.odo.p2.faulted <;> decide
  obtain ⟨inRack, ended, zero, source, -, uncertain⟩ := entryFail_odo (n := failedBy (x.count e c)) known'
  have failed := (entryFail_after (failedBy (x.count e c)) (checkedBy e c x p)).frame.pre (by decide)
  have before : p.evq.queue <+: ((checkedBy e c x p).withOdo (enteredRack (checkedBy e c x p).odo)).evq.queue := positioned_pre e c p
  exact ⟨fun short => absurd long (not_le.2 short), fun _ => ⟨track.entry.trans ended, track.regime.trans inRack,
    track.deviation.trans zero, (track.source.trans source).trans chosen, fun pass => absurd pass fail,
    fun _ => ⟨track.uncertain (uncertain found),
      latched_after (afterChange_emergency (entryFail_emergency _ _)) (by decide) change (by decide),
      failedBy (x.count e c), failedBy_largest _, posted_of before (failed.trans after)⟩⟩⟩

/-- W travel judges the check at its length (R10). -/
theorem KeepsSegment.judged (known : p.odo.validity ≠ .unknown) (hw : p.odo.w.faulted = false) :
    Safety.entryJudged (x.count e c) p (countEnd e c p b) := by
  by_cases long : (p.prf.settings.entryLength : Int) * 16 ≤ (x.count e c).wTravel
  · by_cases pass : Safety.entryPasses (x.count e c)
    · exact h.passes b check hr known long pass
    · exact h.fails b check hr known hw long pass
  · have judge : entryJudge (checkedBy e c x p) = (checkedBy e c x p, []) :=
      entryJudge_goesOn (p := checkedBy e c x p) rfl (by rw [checkedBy_settings]; exact not_le.1 long)
    have track := h.judgedTrack b check hr
    rw [judge] at track
    exact ⟨fun _ => ⟨track.entry, track.regime.trans (h.stands.1.trans hr)⟩, fun reached => absurd reached long⟩

end

end

end Sys2Proof.Machine
end

section
/-! The creep and reverse counters at a count of the motion encoder (R16, R66, R116). -/

namespace Sys2Proof.Machine

/-! ### Up to the counters -/

/-- The part as the counters find it: behind the entry check and the capture. -/
def captured (e : Encoder) (c : Dir) (p : Part) : Part := captureCount c (entryTaken e c p)

theorem tallied_paced {e : Encoder} {c : Dir} {p : Part} (h : p.brk.test = none) : Paced p (tallied e c p) := by
  obtain ⟨x, dir, bucket, standTimer, odo, -⟩ := tallied_odo e c p
  have rest := tallied_rest e c p
  refine ⟨(congrArg Brk.test (tallied_brk e c p)).trans h, by rw [rest]; rfl, ?_, ?_, fun d heads =>
    heads.of_slots (by rw [rest]; rfl) (by rw [rest]; rfl)⟩ <;> rw [odo] <;> cases e <;> rfl

theorem captured_paced {e : Encoder} {c : Dir} {p : Part} (h : p.brk.test = none) : Paced p (captured e c p) := by
  have placed : Paced p (placedBy e c p) := by
    unfold placedBy
    split
    · exact (tallied_paced h).withOdo _ rfl rfl
    · exact tallied_paced h
  have moved : Paced p (positioned e c p) := by
    unfold positioned
    split; exacts [moveTo_paced _ placed, placed]
  have drifted : Paced p (deviated e c p) := by
    unfold deviated
    split; exacts [moved, deviationCount_paced moved]
  exact captureCount_paced _ (entryCount_paced _ _ _ drifted)

theorem captured_moves (e : Encoder) (c : Dir) (p : Part) : Moves (.odo :: countMay) p (captured e c p) :=
  captureCount_moves (by decide) _ ⟨by decide, by decide, by decide, by decide, by decide⟩ ((positioned_since e c p).trans
    (((deviated_moves e c p).trans (entryTaken_moves e c p)).mono (List.subset_cons_self _ _)))

/-- With the motion encoder counting, what is left of the count behind the capture. -/
theorem closing_motion {e : Encoder} {c : Dir} {p : Part} (motion : p.odo.motion = some e) :
    closing e c p (entryTaken e c p) = ssuEvaluate (recordTaken true c (reverseCount c (creepCount (captured e c p)))) := by
  unfold closing countersTaken
  rw [motion, beq_self_eq_true, if_pos rfl]
  rfl

theorem closing_standstill (e : Encoder) (c : Dir) (p : Part) (h : p.asserted = false) :
    (closing e c p (entryTaken e c p)).odo.standstill = false := by
  obtain ⟨x, dir, bucket, standTimer, odo, -⟩ := tallied_odo e c p
  have placed : (placedBy e c p).odo.standstill = false := by
    have still : (tallied e c p).odo.standstill = false := by rw [odo, h, Bool.and_false]
    unfold placedBy
    split <;> exact still
  have moves : Moves countMay (placedBy e c p) (closing e c p (entryTaken e c p)) :=
    (positioned_moves e c p).trans ((deviated_moves e c p).trans ((entryTaken_moves e c p).trans (closing_moves e c p _)))
  obtain ⟨-, -, -, -, -, -, -, -, standstill, -⟩ := moves.frame.odo (by decide)
  exact standstill.trans placed

/-! ### The allowance -/

theorem sat16_toNat (n : Half) : (sat16 n).toNat = min 65535 (n.toNat + 1) := by
  unfold sat16
  simp only [beq_iff_eq]
  split
  · rename_i h; rw [h]; decide
  · rename_i h; bv_omega

theorem crossesAllowance_iff (n : Half) (p : Part) :
    (decide (n.toNat ≤ p.prf.settings.rollbackAllowance) && decide (p.prf.settings.rollbackAllowance < (sat16 n).toNat)) = true
      ↔ Safety.crossesAllowance n p := by
  unfold Safety.crossesAllowance
  rw [Bool.and_eq_true, decide_eq_true_eq, decide_eq_true_eq, sat16_toNat]

/-! ### The creep counter -/

/-- The creep counter has gone up. -/
def creepRaised (p : Part) : Part := p.withOdo { p.odo with creep := sat16 p.odo.creep }

theorem creepCount_raised {p : Part} (h : p.mod.mode = .stand ∨ p.mod.mode = .stabled) (below : ¬ Safety.crossesAllowance p.odo.creep p) :
    creepCount p = creepRaised p := by
  unfold creepCount
  rw [if_pos (by simpa using h)]
  exact if_neg (mt (crossesAllowance_iff _ _).1 below)

theorem creepCount_crossed {p : Part} (h : p.mod.mode = .stand ∨ p.mod.mode = .stabled) (crosses : Safety.crossesAllowance p.odo.creep p) :
    creepCount p = creepCrossed (creepRaised p) := by
  unfold creepCount
  rw [if_pos (by simpa using h)]
  exact if_pos ((crossesAllowance_iff _ _).2 crosses)

theorem creepCount_idle {p : Part} (h : p.mod.mode = .run) : creepCount p = p := by
  unfold creepCount
  rw [if_neg (by rw [h]; decide)]

theorem reverseCount_idle {c : Dir} {p : Part} (h : p.mod.mode ≠ .run) : reverseCount c p = p := by
  unfold reverseCount
  split
  · rename_i run _; exact absurd run h
  · rfl

/-- The rollback request at a crossing, with its event (R16). -/
theorem rolledBack (n : Nat) (arg : Half) (p : Part) :
    Safety.latchedAt .rollback .emergency (latch .rollback .emergency n (post .rollback arg p))
    ∧ (post .rollback arg p).evq.queue <+: (latch .rollback .emergency n (post .rollback arg p)).evq.queue :=
  have request := latch_moves (H := [.mode, .ord]) .rollback .emergency n (by decide) (by decide) (by decide)
    (Moves.refl (post .rollback arg p))
  ⟨latch_latched _ _ _ (by decide) _, request.frame.pre (by decide)⟩

theorem handReport_rollAway (p : Part) : (handReport p).msg.rollAway = p.msg.rollAway := by
  unfold handReport
  simp only
  split <;> rw [offer_radio] <;> rfl

/-- The parts of a wake leave the roll-away mark (R116). -/
theorem wakeParts_rollAway (was : Bool) (y : Part) (hy : y.mod.mode = .stand) :
    (modeRlc .stabled (modeDor (modeOdo (modeAut .stabled (modeSsu .stabled (patternChanged was (requestMode y))))))).msg.rollAway
      = y.msg.rollAway := by
  have formed : Returned y (modeOdo (modeAut .stabled (modeSsu .stabled (patternChanged was (requestMode y))))) :=
    ((((requestMode_requested y).returned.trans (patternChanged_only was _).returned).trans (modeSsu_returned _ _)).trans
      (modeAut_returned _ _)).trans (modeOdo_returned _)
  have moves : Moves [] (requestMode y) (modeOdo (modeAut .stabled (modeSsu .stabled (patternChanged was (requestMode y))))) :=
    modeOdo_moves (modeAut_moves _ (modeSsu_moves _ (patternChanged_moves _ (Moves.refl _))))
  have stand := (moves.frame.mode (by decide)).trans ((congrArg Mod.mode (requestMode_requested y).mod).trans hy)
  generalize modeOdo (modeAut .stabled (modeSsu .stabled (patternChanged was (requestMode y)))) = x at formed stand ⊢
  have doors : modeDor x = formDoors x := by unfold modeDor; rw [stand]; rfl
  have kept : (formDoors x).msg = y.msg := (formDoors_returned x).msg.trans formed.msg
  have mode : (formDoors x).mod.mode = .stand := (congrArg Mod.mode (followEntry_requested _ _ _ _).mod).trans stand
  rw [doors, ← kept]
  unfold modeRlc
  rw [mode]
  exact handReport_rollAway _

theorem fromStabled_rollAway (k : EventKind) (arg : Half) {p : Part} (h : p.mod.mode = .stabled) :
    (changeMode .stand .wake (post k arg) p).msg.rollAway = p.msg.rollAway := by
  unfold changeMode
  extract_lets old was _ q1 q2
  have stabled : old = .stabled := h
  have parts : q2.msg.rollAway = p.msg.rollAway := by
    simp only [q2, stabled]
    exact wakeParts_rollAway was q1 rfl
  rw [if_neg (by simp)]
  exact parts

theorem wakeCar_rollAway (r : WakeReason) {p : Part} (h : p.mod.mode = .stabled) : (wakeCar r p).msg.rollAway = p.msg.rollAway := by
  unfold wakeCar
  rw [if_pos (by rw [h]; decide)]
  exact fromStabled_rollAway _ _ h

/-- In STAND a crossing latches ROLLBACK, with its event (R16). -/
theorem creepCrossed_inStand {p : Part} (h : p.mod.mode ≠ .stabled) :
    creepCrossed p = latch .rollback .emergency 1 (post .rollback 0 p) := by
  unfold creepCrossed
  simp only
  rw [if_neg (by simpa using h)]

/-- The roll-away alarm, before the wake. -/
def rollAwayAlarmed (p : Part) : Part :=
  handAlarm .rollAway ((latch .rollback .emergency 1 (post .rollback 0 p)).withMsg
    { (latch .rollback .emergency 1 (post .rollback 0 p)).msg with rollAway := true })

theorem creepCrossed_inStabled {p : Part} (h : p.mod.mode = .stabled) : creepCrossed p = wakeCar .rollAway (rollAwayAlarmed p) := by
  unfold creepCrossed
  simp only
  rw [if_pos (by rw [h]; decide)]
  rfl

theorem rollAwayAlarmed_moves (p : Part) :
    Moves [.mode, .ord] (latch .rollback .emergency 1 (post .rollback 0 p)) (rollAwayAlarmed p) :=
  handAlarm_moves _ (msg_moves _ ⟨rfl, rfl, rfl, rfl⟩ (Moves.refl _))

theorem rollAwayAlarmed_mod {p : Part} (h : p.brk.test = none) : (rollAwayAlarmed p).mod = p.mod := by
  have same := (handAlarm_elsewhere .rollAway ((latch .rollback .emergency 1 (post .rollback 0 p)).withMsg
    { (latch .rollback .emergency 1 (post .rollback 0 p)).msg with rollAway := true })).mod
  exact same.trans (latch_paced .rollback .emergency 1 (post_paced .rollback 0 (Paced.refl h))).mod

theorem rollAwayAlarmed_now (p : Part) : (rollAwayAlarmed p).now = p.now :=
  ((rollAwayAlarmed_moves p).frame.now (by decide)).trans
    ((latch_moves (H := [.mode, .ord]) _ _ _ (by decide) (by decide) (by decide) (Moves.refl _)).frame.now (by decide))

theorem rollAwayAlarmed_marked (p : Part) : (rollAwayAlarmed p).msg.rollAway = true := by
  unfold rollAwayAlarmed handAlarm
  rw [offer_radio]; rfl

/-- In STAND a crossing leaves the creep counter and the mode. -/
theorem creepCrossed_stands {p : Part} (test : p.brk.test = none) (h : p.mod.mode = .stand) :
    (creepCrossed p).odo.creep = p.odo.creep ∧ (creepCrossed p).mod = p.mod := by
  have paced := latch_paced .rollback .emergency 1 (post_paced .rollback 0 (Paced.refl test))
  rw [creepCrossed_inStand (by rw [h]; decide)]
  exact ⟨paced.creep, paced.mod⟩

/-- A crossing in STABLED wakes the car (R16, R116). -/
theorem creepCrossed_wakes {p : Part} (test : p.brk.test = none) (h : p.mod.mode = .stabled) :
    (creepCrossed p).mod.mode = .stand ∧ (creepCrossed p).mod.wakeReason = .rollAway
    ∧ (creepCrossed p).mod.charge = .timing p.now ∧ (creepCrossed p).msg.rollAway = true := by
  have stabled : (rollAwayAlarmed p).mod.mode = .stabled := by rw [rollAwayAlarmed_mod test]; exact h
  obtain ⟨wakes, -⟩ := wakeCar_wakes .rollAway _ stabled
  rw [creepCrossed_inStabled h, wakes, wakeCar_rollAway _ stabled, rollAwayAlarmed_now]
  exact ⟨rfl, rfl, rfl, rollAwayAlarmed_marked p⟩

/-- Every crossing latches ROLLBACK, with its event first. -/
theorem creepCrossed_latches (p : Part) : Safety.latchedAt .rollback .emergency (creepCrossed p)
    ∧ (post .rollback 0 p).evq.queue <+: (creepCrossed p).evq.queue := by
  obtain ⟨latched, event⟩ := rolledBack 1 0 p
  by_cases h : p.mod.mode = .stabled
  · have wakes : Moves roadMay (latch .rollback .emergency 1 (post .rollback 0 p)) (creepCrossed p) := by
      rw [creepCrossed_inStabled h]
      exact wakeCar_moves _ (by decide) (by decide) ((rollAwayAlarmed_moves p).mono (by decide))
    exact ⟨latched_after latched (by decide) wakes (by decide), event.trans (wakes.frame.pre (by decide))⟩
  · rw [creepCrossed_inStand h]
    exact ⟨latched, event⟩

/-- Outside RUN the evaluation and the end of the row leave ODO, MOD and the messages. -/
theorem idleEnd {z : Part} (h : z.mod.mode ≠ .run) (b : Part) : (finish b (ssuEvaluate z)).odo = z.odo
    ∧ (finish b (ssuEvaluate z)).mod = z.mod ∧ (finish b (ssuEvaluate z)).msg = z.msg := by
  have moves : Moves [] z (ssuEvaluate z) := ssuEvaluate_moves (Moves.refl z)
  have mod : (ssuEvaluate z).mod = z.mod := by rw [(ssuEvaluate_returned z).mod, moves.frame.mode (by decide)]
  obtain ⟨g, ends⟩ := finish_outside_run (q := ssuEvaluate z) b (by rw [mod]; exact h)
  rw [ends]
  exact ⟨(ssuEvaluate_aut z).2, mod, (ssuEvaluate_returned z).msg⟩

/-- Outside RUN the count ends with its creep count. -/
theorem countEnd_outsideRun {e : Encoder} {c : Dir} {p : Part} (b : Part) (motion : p.odo.motion = some e)
    (h : (creepCount (captured e c p)).mod.mode ≠ .run) : countEnd e c p b = finish b (ssuEvaluate (creepCount (captured e c p))) := by
  unfold countEnd
  rw [closing_motion motion, reverseCount_idle h]
  unfold recordTaken
  rw [if_neg (by simpa using h)]

section
variable {e : Encoder} {c : Dir} {p : Part}

/-- The creep counter meets its allowance at the same count, whatever the count has done before. -/
theorem captured_allowance (test : p.brk.test = none) : Safety.crossesAllowance (captured e c p).odo.creep (captured e c p)
    ↔ Safety.crossesAllowance p.odo.creep p := by
  unfold Safety.crossesAllowance
  rw [(captured_paced test).creep, (captured_moves e c p).frame.prf (by decide)]

theorem captured_raised (test : p.brk.test = none) :
    (creepRaised (captured e c p)).odo.creep.toNat = min 65535 (p.odo.creep.toNat + 1) := by
  rw [← (captured_paced (e := e) (c := c) test).creep]
  exact sat16_toNat _

/-- Below the allowance the creep counter goes up, and no more. -/
theorem count_creepsBelow (b : Part) (test : p.brk.test = none) (motion : p.odo.motion = some e)
    (h : p.mod.mode = .stand ∨ p.mod.mode = .stabled) (below : ¬ Safety.crossesAllowance p.odo.creep p) :
    (countEnd e c p b).odo.creep.toNat = min 65535 (p.odo.creep.toNat + 1) := by
  have mod := (captured_paced (e := e) (c := c) test).mod
  have creeps := creepCount_raised (by rw [mod]; exact h) (mt (captured_allowance (e := e) (c := c) test).1 below)
  have idle : (creepCount (captured e c p)).mod.mode ≠ .run := by
    rw [creeps, show (creepRaised (captured e c p)).mod = p.mod from mod]
    rcases h with h | h <;> rw [h] <;> decide
  obtain ⟨odo, -⟩ := idleEnd idle b
  rw [← countEnd_outsideRun b motion idle, creeps] at odo
  rw [odo]
  exact captured_raised test

/-- At the allowance ROLLBACK latches, with its event, and in STABLED the car wakes (R16, R116). -/
theorem count_creepCrosses (b : Part) (test : p.brk.test = none) (motion : p.odo.motion = some e)
    (h : p.mod.mode = .stand ∨ p.mod.mode = .stabled) (crosses : Safety.crossesAllowance p.odo.creep p) :
    (p.mod.mode = .stand → (countEnd e c p b).odo.creep.toNat = min 65535 (p.odo.creep.toNat + 1))
    ∧ Safety.latchedAt .rollback .emergency (countEnd e c p b) ∧ Safety.posted .rollback 0 p (countEnd e c p b)
    ∧ (p.mod.mode = .stabled → Safety.woken .rollAway p (countEnd e c p b) ∧ (countEnd e c p b).msg.rollAway = true) := by
  have paced := captured_paced (e := e) (c := c) test
  have frame := (captured_moves e c p).frame
  have creeps := creepCount_crossed (by rw [paced.mod]; exact h) ((captured_allowance test).2 crosses)
  have stands := creepCrossed_stands (p := creepRaised (captured e c p)) paced.test
  have wakes := creepCrossed_wakes (p := creepRaised (captured e c p)) paced.test
  have mod : (creepRaised (captured e c p)).mod = p.mod := paced.mod
  rw [mod] at stands wakes
  have idle : (creepCount (captured e c p)).mod.mode ≠ .run := by
    rw [creeps]
    rcases h with h | h
    · rw [(stands h).2, h]; decide
    · rw [(wakes h).1]; decide
  have ends := countEnd_outsideRun b motion idle
  have after : Moves [.mode] (creepCount (captured e c p)) (countEnd e c p b) := by
    rw [ends]; exact toEnd b (by decide) (ssuEvaluate_moves (Moves.refl _))
  obtain ⟨odo', mod', msg'⟩ := idleEnd idle b
  rw [← ends, creeps] at odo' mod' msg'
  rw [creeps] at after
  obtain ⟨latched, event⟩ := creepCrossed_latches (creepRaised (captured e c p))
  refine ⟨fun inStand => ?_, latched_after latched (by decide) after (by decide),
    posted_of (x := creepRaised (captured e c p)) (frame.pre (by decide)) (event.trans (after.frame.pre (by decide))), fun stabled => ?_⟩
  · rw [odo', (stands inStand).1]
    exact captured_raised test
  · obtain ⟨mode, reason, charge, marked⟩ := wakes stabled
    have now : (creepRaised (captured e c p)).now = p.now := frame.now (by decide)
    rw [now] at charge
    unfold Safety.woken
    rw [mod', msg']
    exact ⟨⟨mode, reason, charge⟩, marked⟩

/-- A count of the motion encoder in STAND or STABLED (R16). -/
theorem count_creeps (b : Part) (test : p.brk.test = none) (motion : p.odo.motion = some e)
    (h : p.mod.mode = .stand ∨ p.mod.mode = .stabled) : Safety.crept p (countEnd e c p b) := by
  by_cases crosses : Safety.crossesAllowance p.odo.creep p
  · obtain ⟨raised, actions⟩ := count_creepCrosses (c := c) b test motion h crosses
    exact ⟨fun side => raised (side.resolve_right (not_not.2 crosses)), fun _ => actions⟩
  · exact ⟨fun _ => count_creepsBelow b test motion h crosses, fun other => absurd other crosses⟩

end

end Sys2Proof.Machine
end

section
/-! The reverse counter (R16), and O17 assembled. -/

namespace Sys2Proof.Machine

/-! ### The reverse counter -/

/-- The reverse counter has gone up. -/
def reverseRaised (p : Part) : Part := p.withOdo { p.odo with reverse := sat16 p.odo.reverse }

theorem reverseCount_with {c : Dir} {p : Part} {a : Authority} (run : p.mod.mode = .run) (current : p.aut.current = some a)
    (ahead : a.dir = c) : reverseCount c p = p.withOdo { p.odo with reverse := 0 } := by
  unfold reverseCount
  simp only [run, current]
  rw [if_pos (beq_iff_eq.2 ahead)]

theorem reverseCount_against {c : Dir} {p : Part} {a : Authority} (run : p.mod.mode = .run) (current : p.aut.current = some a)
    (back : a.dir ≠ c) : (Safety.crossesAllowance p.odo.reverse p → reverseCount c p = reverseCrossed (reverseRaised p))
    ∧ (¬ Safety.crossesAllowance p.odo.reverse p → reverseCount c p = reverseRaised p) := by
  unfold reverseCount
  simp only [run, current]
  rw [if_neg (mt beq_iff_eq.1 back)]
  exact ⟨fun crosses => if_pos ((crossesAllowance_iff _ _).2 crosses), fun below => if_neg (mt (crossesAllowance_iff _ _).1 below)⟩

/-- A count of the reverse counter with no test running: the counter, and at the allowance the latched entry with its event. -/
theorem reverseCount_spec {c : Dir} {p : Part} {a : Authority} (test : p.brk.test = none) (run : p.mod.mode = .run)
    (current : p.aut.current = some a) :
    (reverseCount c p).brk.test = none ∧ (c = a.dir → (reverseCount c p).odo.reverse = 0)
    ∧ (c ≠ a.dir → (reverseCount c p).odo.reverse.toNat = min 65535 (p.odo.reverse.toNat + 1)
      ∧ (Safety.crossesAllowance p.odo.reverse p → Safety.latchedAt .rollback .emergency (reverseCount c p)
        ∧ (post .rollback 1 (reverseRaised p)).evq.queue <+: (reverseCount c p).evq.queue)) := by
  by_cases ahead : a.dir = c
  · rw [reverseCount_with run current ahead]
    exact ⟨test, fun _ => rfl, fun back => absurd ahead.symm back⟩
  · have raised : (reverseRaised p).odo.reverse.toNat = min 65535 (p.odo.reverse.toNat + 1) := sat16_toNat _
    obtain ⟨crossed, below⟩ := reverseCount_against run current ahead
    by_cases crosses : Safety.crossesAllowance p.odo.reverse p
    · have paced := latch_paced .rollback .emergency 2 (post_paced .rollback 1 (Paced.refl (p := reverseRaised p) test))
      rw [crossed crosses]
      exact ⟨paced.test, fun same => absurd same.symm ahead,
        fun _ => ⟨(congrArg BitVec.toNat paced.reverse).trans raised, fun _ => rolledBack 2 1 _⟩⟩
    · rw [below crosses]
      exact ⟨test, fun same => absurd same.symm ahead, fun _ => ⟨raised, fun other => absurd other crosses⟩⟩

/-- A count of the motion encoder in RUN (R16). -/
theorem count_reverses {e : Encoder} {c : Dir} {p : Part} {a : Authority} (b : Part) (live : p.asserted = false)
    (test : p.brk.test = none) (motion : p.odo.motion = some e) (run : p.mod.mode = .run) (heads : Heads a.dir p) :
    Safety.reversed a.dir c p (countEnd e c p b) := by
  have paced := captured_paced (e := e) (c := c) test
  have moves := (captured_moves e c p).frame
  have run' : (captured e c p).mod.mode = .run := by rw [paced.mod]; exact run
  obtain ⟨a', current, dir, -⟩ := paced.heads a.dir heads
  obtain ⟨noTest, with', against⟩ := reverseCount_spec (c := c) paced.test run' current
  have ends := closing_motion (c := c) motion
  rw [creepCount_idle run'] at ends
  have recorded : Paced (reverseCount c (captured e c p)) (closing e c p (entryTaken e c p)) := by
    rw [ends]
    unfold recordTaken
    refine ssuEvaluate_paced ?_
    split; exacts [travelCount_paced _ (.refl noTest), .refl noTest]
  have after : Moves roadMay (reverseCount c (captured e c p)) (countEnd e c p b) := by
    unfold countEnd
    rw [ends]
    unfold recordTaken
    refine toEnd b (by decide) (ssuEvaluate_moves ?_)
    split; exacts [travelCount_moves _ (by decide) (by decide) (Moves.refl _), Moves.refl _]
  obtain ⟨g, same⟩ := finish_eq (q := closing e c p (entryTaken e c p)) b
    (by rw [closing_standstill e c p live, Bool.and_false, Bool.false_and])
  have odo : (countEnd e c p b).odo.reverse = (reverseCount c (captured e c p)).odo.reverse :=
    (congrArg (fun q => q.odo.reverse) same).trans recorded.reverse
  rw [dir] at with' against
  rw [paced.reverse] at against
  refine ⟨fun ahead => odo.trans (with' ahead), fun back => ?_⟩
  obtain ⟨raised, crossed⟩ := against back
  refine ⟨by rw [odo]; exact raised, fun crosses => ?_⟩
  obtain ⟨latched, event⟩ := crossed (by unfold Safety.crossesAllowance at crosses ⊢; rw [moves.prf (by decide)]; exact crosses)
  exact ⟨latched_after latched (by decide) after (by decide),
    posted_of (x := reverseRaised (captured e c p)) (moves.pre (by decide)) (event.trans (after.frame.pre (by decide)))⟩

/-! ### The step -/

/-- What a count acts on is the same before and after its levels are taken. -/
theorem linesTaken_standing (e : Encoder) (levels : BitVec 2) (p : Part) : SameStanding p.odo (linesTaken e levels p).odo := by
  cases e <;> exact ⟨rfl, rfl, rfl, rfl, rfl, rfl, rfl, rfl, rfl, rfl, rfl⟩

section
variable {e : Encoder} {c : Dir} {levels : BitVec 2} {p q : Part}

theorem crossed_linesTaken {i j : Nat} (h : Safety.crossed c i j (linesTaken e levels p) q) : Safety.crossed c i j p q := by
  cases e <;> exact h

theorem entryJudged_linesTaken {x : EntryCheck} (h : Safety.entryJudged x (linesTaken e levels p) q) : Safety.entryJudged x p q := by
  cases e <;> exact h

theorem deviates_linesTaken (h : Safety.deviates (linesTaken e levels p) q) : Safety.deviates p q := by
  cases e <;> exact h

theorem crept_linesTaken (h : Safety.crept (linesTaken e levels p) q) : Safety.crept p q := by
  cases e <;> exact h

theorem reversed_linesTaken {d : Dir} (h : Safety.reversed d c (linesTaken e levels p) q) : Safety.reversed d c p q := by
  cases e <;> exact h

end

/-- The step of a count that acts, and the part it ends with. -/
theorem encoderStep_acts {e : Encoder} {levels : BitVec 2} {c : Dir} {s : State} (live : s.part.asserted = false)
    (ok : (s.part.odo.enc e).faulted = false) (step : Safety.follows (s.part.odo.enc e).quad levels c)
    (test : s.part.brk.test = none) (P : State → Prop)
    (hP : ∀ t : State, t.part = countEnd e c (linesTaken e levels s.part) s.part → P t) :
    ∃ t, exec (.encoderStep e levels) s = .next t ∧ P t := by
  have cold : s.part.coldLine = false := by
    unfold Part.asserted at live; exact (Bool.or_eq_false_iff.1 live).1
  refine encoderStep_ends P fun t part => hP t ?_
  rw [part, encoderLines_counts cold ok step, countTaken_eq (p := linesTaken e levels s.part) test]
  rfl

/-- Where a count leaves the car. -/
theorem countEnd_pos (e : Encoder) (c : Dir) (p b : Part) : (countEnd e c p b).odo.pos = (placedBy e c p).odo.pos := by
  obtain ⟨-, -, -, pos, -⟩ := (countEnd_fromPlaced e c p b).frame.odo (by decide)
  exact pos

/-- With no brake test running a count acts (R5, R9 to R16). -/
theorem encoderStep_countActs (e : Encoder) (levels : BitVec 2) (c : Dir) (s : State) (live : s.part.asserted = false)
    (ok : (s.part.odo.enc e).faulted = false) (step : Safety.follows (s.part.odo.enc e).quad levels c)
    (test : s.part.brk.test = none) :
    ∃ t, exec (.encoderStep e levels) s = .next t
      ∧ (s.part.odo.source.encoder? = some e → s.part.odo.validity ≠ .unknown → ∀ i j, s.part.odo.segment = some i →
          segmentIndex t.part.odo.pos.toInt s.part.prf.active = some j → Safety.crossed c i j s.part t.part)
      ∧ ((s.part.odo.source.encoder? = some e → Safety.staysWithin s.part t.part) →
          (∀ x, s.part.odo.entry = some x → s.part.odo.regime = .entering → s.part.odo.validity ≠ .unknown →
            s.part.odo.w.faulted = false → Safety.entryJudged (x.count e c) s.part t.part)
          ∧ (e ≠ .w → s.part.odo.entry = none → Safety.deviates s.part t.part))
      ∧ (s.part.odo.motion = some e → s.part.mod.mode = .stand ∨ s.part.mod.mode = .stabled → Safety.crept s.part t.part)
      ∧ (s.part.odo.motion = some e → s.part.mod.mode = .run →
          ∀ a, s.part.aut.current = some a → (∀ n, s.part.aut.next = some n → n.dir = a.dir) →
          Safety.reversed a.dir c s.part t.part) := by
  refine encoderStep_acts live ok step test _ fun t part => ?_
  have stands := linesTaken_standing e levels s.part
  have motion : (linesTaken e levels s.part).odo.motion = s.part.odo.motion := motion_same s.part.odo e levels
  have pos := countEnd_pos e c (linesTaken e levels s.part) s.part
  rw [part]
  refine ⟨fun source known i j left reached => ?_, fun stays => ?_, fun moves side => ?_, fun moves run a current next => ?_⟩
  · rw [pos] at reached
    exact crossed_linesTaken (count_crosses ⟨by rw [stands.source]; exact source, by rw [stands.validity]; exact known,
      stands.segment.trans left, reached⟩ s.part)
  · have keeps : KeepsSegment e c (linesTaken e levels s.part) := by
      intro src
      rw [stands.segment, ← pos]
      have source := ((movesPosition_iff _ _).1 src).1
      rw [stands.source] at source
      exact stays source
    refine ⟨fun x check hr known hw => ?_, fun pinion noEntry => ?_⟩
    · exact entryJudged_linesTaken (keeps.judged s.part (stands.entry.trans check) (stands.regime.trans hr)
        (by rw [stands.validity]; exact known) (stands.w.trans hw))
    · exact deviates_linesTaken (keeps.drifts s.part pinion (stands.entry.trans noEntry))
  · exact crept_linesTaken (count_creeps (p := linesTaken e levels s.part) s.part test (motion.trans moves) side)
  · exact reversed_linesTaken (count_reverses (p := linesTaken e levels s.part) s.part live test (motion.trans moves) run
      ⟨a, current, rfl, next⟩)

/-- Settles O17: what every count moves, the fault, what a count acts on, and what a fault does to source and regime. -/
theorem encodersCountAndFault : Obligations.EncodersCountAndFault := by
  unfold Obligations.EncodersCountAndFault
  exact ⟨encoderStep_counts, fun e levels s => ⟨encoderStep_fault e levels s, encoderStep_tracks e levels s⟩, encoderStep_countActs,
    encoderStep_health⟩

end Sys2Proof.Machine
end

section
/-! BRAKE REQUEST: the ORDERED entry, and the brake that follows its commanded stage (R43, R49 to R52, R58). -/

namespace Sys2Proof.Machine

/-! ### The feedback patterns (R49, R50) -/

theorem aboveOpen_iff (f : Feedback) (c : Stage) : aboveOpen f c = true ↔ ¬ Safety.closedAbove f c := by
  unfold aboveOpen Safety.closedAbove
  cases c <;> simp [and_assoc]

theorem reduced_iff (p : Part) : p.reduced = true ↔ p.mod.charge ≠ .complete ∨ p.mod.mode = .stabled := by
  unfold Part.reduced
  rw [Bool.or_eq_true, bne_iff_ne, beq_iff_eq]

theorem confirming_iff (p : Part) (c : Stage) : confirming p.reduced p.brk.inputs c = true ↔ Safety.confirmingClosed p c := by
  have band : ((p.reduced || p.brk.inputs.ps3) && p.brk.inputs.band) = true ↔
      p.brk.inputs.band = true ∧ (p.brk.inputs.ps3 = true ∨ p.mod.charge ≠ .complete ∨ p.mod.mode = .stabled) := by
    rw [Bool.and_eq_true, Bool.or_eq_true, reduced_iff, and_comm, or_comm]
  cases c with
  | released => exact iff_of_true rfl trivial
  | s1 | s2 | s3 => exact Iff.rfl
  | band | emergency => exact band

theorem operationConfirmed_iff (p : Part) (x : BrakeState) :
    operationConfirmed p.reduced p.brk.inputs x = true ↔ Safety.patternShown p x := by
  cases x with
  | settled => exact iff_of_false Bool.false_ne_true id
  | applying c _ =>
    show (c != .released && confirming p.reduced p.brk.inputs c) = true ↔ _
    rw [Bool.and_eq_true, bne_iff_ne, confirming_iff]; rfl
  | releasing c _ =>
    show (confirming p.reduced p.brk.inputs c && aboveOpen p.brk.inputs c) = true ↔ _
    rw [Bool.and_eq_true, confirming_iff, aboveOpen_iff]; rfl

/-! ### An operation toward the commanded stage (R51, R52) -/

/-- The operation that R51 starts is the one its table gives. -/
theorem operationToward_starts (p : Part) (c : Stage) : Safety.startsToward p c (operationToward p.brk p.now c) := by
  unfold operationToward
  refine ⟨fun rises => if_pos rises, fun falls => ?_, fun same back => ?_, fun same above shut => ?_⟩
  · rw [if_neg (by omega), if_pos falls]
  · subst same
    rw [if_neg (lt_irrefl _), if_neg (lt_irrefl _), if_pos]
    rw [Bool.or_eq_true, beq_iff_eq, Bool.not_eq_true', Bool.eq_false_iff, Ne, aboveOpen_iff, not_not]
    exact back
  · subst same
    rw [if_neg (lt_irrefl _), if_neg (lt_irrefl _), if_neg]
    rw [Bool.or_eq_true, beq_iff_eq, Bool.not_eq_true', Bool.eq_false_iff, Ne, aboveOpen_iff, not_not]
    exact not_or.2 ⟨above, shut⟩

theorem operationToward_cases (b : Brk) (now : Word) (c : Stage) :
    operationToward b now c = .applying c (some now) ∨ operationToward b now c = .releasing c (some now) := by
  unfold operationToward
  split
  · exact .inl rfl
  · split
    · exact .inr rfl
    · split; exacts [.inr rfl, .inl rfl]

/-- An operation that the feedback confirms settles at its target. -/
theorem judgeOperation_settles {p : Part} {c : Stage} {now : Option Word}
    (target : p.brk.state = .applying c now ∨ p.brk.state = .releasing c now) (h : Safety.patternShown p p.brk.state) :
    judgeOperation p = settle c p := by
  unfold judgeOperation
  rw [if_pos ((operationConfirmed_iff p _).2 h)]
  rcases target with e | e <;> rw [e]

/-- An operation that the feedback does not confirm runs on. -/
theorem judgeOperation_runs {p : Part} (h : ¬ Safety.patternShown p p.brk.state) : judgeOperation p = p := by
  unfold judgeOperation
  exact if_neg (mt (operationConfirmed_iff p _).1 h)

/-- The part with the operation toward a stage, before it is judged. -/
def operating (c : Stage) (p : Part) : Part := p.withBrk { p.brk with state := operationToward p.brk p.now c }

theorem startOperation_settles {p : Part} {c : Stage} (h : Safety.patternShown p (operationToward p.brk p.now c)) :
    startOperation c p = settle c (operating c p) :=
  judgeOperation_settles (p := operating c p) (operationToward_cases p.brk p.now c) h

theorem startOperation_runs {p : Part} {c : Stage} (h : ¬ Safety.patternShown p (operationToward p.brk p.now c)) :
    startOperation c p = operating c p := judgeOperation_runs (p := operating c p) h

/-- Where the commanded stage is formed anew, the brake follows it. -/
theorem formCommanded_follows {p : Part} (live : p.asserted = false) : Safety.brakeFollows p (formCommanded p) := by
  unfold formCommanded
  simp only [beq_iff_eq]
  split
  · exact ⟨fun _ => ⟨rfl, rfl⟩, fun changed => absurd rfl changed⟩
  · rename_i changed
    rw [if_neg (by rw [Part.asserted] at live ⊢; simpa using live)]
    generalize highestStage p.brk.table = c at changed
    have commanded : (startOperation c (p.withBrk { p.brk with commanded := c })).brk.commanded = c :=
      (startOperation_only c _).soft.2.1
    unfold Safety.brakeFollows
    rw [commanded]
    refine ⟨fun same => absurd same changed, fun _ => ⟨_, operationToward_starts p c, fun shown => ?_, fun hidden => ?_⟩⟩
    · rw [startOperation_settles (p := p.withBrk { p.brk with commanded := c }) shown]
      exact settle_state _ _
    · rw [startOperation_runs (p := p.withBrk { p.brk with commanded := c }) hidden]
      exact ⟨rfl, rfl⟩

/-- What the brake follows is its operation, the inputs, the time and the pattern in force. -/
theorem brakeFollows_congr {p p' q q' : Part} (now : p'.now = p.now) (mod : p'.mod = p.mod) (inputs : p'.brk.inputs = p.brk.inputs)
    (commanded : p'.brk.commanded = p.brk.commanded) (confirmed : p'.brk.confirmed = p.brk.confirmed)
    (state : p'.brk.state = p.brk.state) (after : q'.brk = q.brk) (h : Safety.brakeFollows p' q) : Safety.brakeFollows p q' := by
  have closed (c : Stage) : Safety.confirmingClosed p' c ↔ Safety.confirmingClosed p c := by
    unfold Safety.confirmingClosed; rw [inputs, mod]
  have shown (x : BrakeState) : Safety.patternShown p' x ↔ Safety.patternShown p x := by
    cases x with
    | settled => exact Iff.rfl
    | applying c _ => exact and_congr_right fun _ => closed c
    | releasing c _ => unfold Safety.patternShown; rw [inputs]; exact and_congr_left fun _ => closed c
  unfold Safety.brakeFollows Safety.startsToward at h ⊢
  simp only [shown, now, inputs, commanded, confirmed, state] at h
  rw [after]
  exact h

/-- A following request: the brake follows the commanded stage that it forms. -/
theorem followEntry_follows (d : DemandSource) (s : Stage) (c : Nat) {p : Part} (live : p.asserted = false) :
    Safety.brakeFollows p (followEntry d s c p) := by
  rcases followEntry_cases d s c p with ⟨_, e⟩ | ⟨_, x, _, _, _, ⟨_, e⟩ | ⟨k, arg, pos, e⟩⟩ <;> rw [e]
  · exact ⟨fun _ => ⟨rfl, rfl⟩, fun changed => absurd rfl changed⟩
  · exact ⟨fun _ => ⟨rfl, rfl⟩, fun changed => absurd rfl changed⟩
  · exact brakeFollows_congr rfl rfl rfl rfl rfl rfl rfl
      (formCommanded_follows (p := postAt k arg pos true (writeEntry d x p)) live)

/-! ### The outputs (R47, R48) -/

theorem outputLevels_bits (s : Stage) (i : Fin 7) : (outputLevels s).testBit i.val = (Safety.outputBits s)[i.val]?.getD false := by
  revert i; cases s <;> decide

theorem outputs_show (p : Part) (i : Fin 7) :
    p.outputs.testBit i.val = (Safety.outputBits (if p.asserted then .emergency else p.brk.commanded))[i.val]?.getD false := by
  unfold Part.outputs
  split <;> exact outputLevels_bits _ i

/-! ### The order (R43, R58) -/

theorem judgeBrakeRequest_lockout {w : Vector Word 7} {p : Part} (h : p.mod.mode = .lockout) :
    judgeBrakeRequest w p = (p, .no .lockout) := by
  unfold judgeBrakeRequest; rw [h]; rfl

theorem judgeBrakeRequest_badParam {w : Vector Word 7} {p : Part} (h : p.mod.mode ≠ .lockout) (bad : ¬ param w 0 ≤ 5) :
    judgeBrakeRequest w p = (p, .no .badParam) := by
  unfold judgeBrakeRequest
  rw [if_neg (by simpa using h), stage_bad _ bad]

theorem judgeBrakeRequest_takes {w : Vector Word 7} {p : Part} {x : Stage} (h : p.mod.mode ≠ .lockout)
    (named : Stage.ofNat? (param w 0) = some x) :
    judgeBrakeRequest w p = (follow .ordered x 1 p, .take (BitVec.ofNat 32 (follow .ordered x 1 p).brk.commanded.value)) := by
  unfold judgeBrakeRequest
  rw [if_neg (by simpa using h), named]

/-- The abort of a running test behind the request leaves the ORDERED entry (R66). -/
theorem follow_entry (d : DemandSource) (s : Stage) (c : Nat) (p : Part) (hm : d ≠ .mode) (hd : d ≠ .doors) (ht : d ≠ .test) :
    (follow d s c p).entry d = (followEntry d s c p).entry d := by
  unfold follow afterRequest
  split
  · split
    · exact abortTest_same d hm hd ht .overridden _
    · rfl
  · rfl

theorem follow_pre (d : DemandSource) (s : Stage) (c : Nat) (p : Part) :
    (followEntry d s c p).evq.queue <+: (follow d s c p).evq.queue :=
  (afterRequest_moves (H := [.mode, .ord]) d _ (by decide) (by decide) (Moves.refl _)).frame.pre (by decide)

theorem causeByte_of_value {n : Nat} {x : Stage} (h : x.value = n) : causeByte x 1 = if n = 0 then 0 else 1 := by
  subst h; cases x <;> rfl

/-- A BRAKE REQUEST that is taken. -/
theorem brakeRequest_takes {u : Trigger} {s : State} {x : Stage} (judged : Safety.triggerJudged u s) (done : Safety.standDone s.part)
    (free : (s.part.entry .ordered).latched = false) (running : s.part.mod.mode ≠ .lockout)
    (named : Stage.ofNat? (param (Safety.workingCopy u s) 0) = some x) :
    ∃ t, exec (.brakeRequest u) s = .next t
      ∧ Safety.orderDone 7 u (BitVec.ofNat 32 t.part.brk.commanded.value) s t
      ∧ (t.part.entry .ordered).stage.value = param (Safety.workingCopy u s) 0
      ∧ (t.part.entry .ordered).cause = (if param (Safety.workingCopy u s) 0 = 0 then 0 else 1)
      ∧ ((s.part.entry .ordered).stage.value < param (Safety.workingCopy u s) 0 →
          Safety.posts s.part t.part [(.demandSet, arg3 1 (param (Safety.workingCopy u s) 0) 1, s.part.odo.pos)])
      ∧ (param (Safety.workingCopy u s) 0 < (s.part.entry .ordered).stage.value →
          Safety.posts s.part t.part
            [(.demandCleared, arg2 1 (param (Safety.workingCopy u s) 0), (s.part.entry .ordered).setPos)])
      ∧ (s.part.brk.test = none → Safety.brakeFollows s.part t.part) := by
  refine order_take judged (judgeBrakeRequest_takes (p := received 7 u s) running named) _ fun t ⟨o, part⟩ taken _ => ?_
  obtain ⟨g, ends⟩ := finish_eq s.part (q := (follow .ordered x 1 (received 7 u s)).withOrd o)
    (follow_idle x 1 (received 7 u s) ((standDone_iff s.part).1 done) free)
  rw [ends] at part
  have brk : t.part.brk = (follow .ordered x 1 (received 7 u s)).brk := by rw [part]; rfl
  have evq : t.part.evq = (follow .ordered x 1 (received 7 u s)).evq := by rw [part]; rfl
  have value := stage_of _ x named
  obtain ⟨stage, -, cause⟩ := followEntry_entry .ordered x 1 (received 7 u s) free
  have entry : t.part.entry .ordered = (followEntry .ordered x 1 (received 7 u s)).entry .ordered := by
    rw [← follow_entry .ordered x 1 (received 7 u s) (by decide) (by decide) (by decide)]
    unfold Part.entry; rw [brk]
  obtain ⟨rises, falls⟩ := follow_events .ordered x 1 (received 7 u s) free (q := t.part) (evq ▸ follow_pre _ _ _ _)
  rw [← brk] at taken
  rw [entry, stage, cause, ← value]
  refine ⟨taken, rfl, causeByte_of_value rfl, fun h => posts_of_evq (rises h) rfl rfl, fun h => posts_of_evq (falls h) rfl rfl,
    fun test => ?_⟩
  rw [follow_eq (p := received 7 u s) test] at brk
  exact brakeFollows_congr rfl rfl rfl rfl rfl rfl brk (followEntry_follows .ordered x 1 (p := received 7 u s) judged.1)

/-- Settles O26: the two refusals in their order, the request that is taken, and the outputs. -/
theorem brakeRequests : Obligations.BrakeRequests := by
  unfold Obligations.BrakeRequests
  refine ⟨fun u s judged done free => ?_, outputs_show⟩
  refine check_step (fun locked => refuse_of judged (judgeBrakeRequest_lockout (p := received 7 u s) (not_not.1 locked)))
    fun running => ?_
  refine check_step (fun bad => refuse_of judged (judgeBrakeRequest_badParam (p := received 7 u s) running bad)) fun ok => check_end ?_
  obtain ⟨x, named⟩ := stage_ok _ ok
  exact brakeRequest_takes judged done free running named

end Sys2Proof.Machine
end

section
/-! Cold reset, asserted and released: every block at its reset values, the events from COLD_START on, and memory as it was. -/

namespace Sys2Proof.Machine

/-! ### Events posted in order (R187, R188, R190) -/

theorem postAll_rest (evs : List (EventKind × Half)) (p : Part) : postAll evs p = p.withEvq (postAll evs p).evq := by
  induction evs generalizing p with
  | nil => rfl
  | cons e evs ih => exact ih (post e.1 e.2 p)

/-- Postings on a part that differs in its events alone. -/
theorem postAll_only (evs : List (EventKind × Half)) {p q : Part} (h : q = p.withEvq q.evq) :
    postAll evs q = p.withEvq (postAll evs q).evq := by
  have rest := postAll_rest evs q
  generalize (postAll evs q).evq = e at rest ⊢
  rw [rest, h]; rfl

theorem postAll_append (evs more : List (EventKind × Half)) (p : Part) : postAll (evs ++ more) p = postAll more (postAll evs p) := by
  induction evs generalizing p with
  | nil => rfl
  | cons e evs ih => exact ih (post e.1 e.2 p)

/-- Postings depend on the queue, the time and route position alone. -/
theorem postAll_evq_congr (evs : List (EventKind × Half)) {p q : Part} (evq : q.evq = p.evq) (now : q.now = p.now) (odo : q.odo = p.odo) :
    (postAll evs q).evq = (postAll evs p).evq := by
  induction evs generalizing p q with
  | nil => exact evq
  | cons e evs ih =>
    refine ih ?_ now odo
    rw [post_eq, post_eq, postAt_evq, postAt_evq, evq, now, odo]

/-- Where the queue has room for all of them, the events stand behind those stored before, and none is lost. -/
theorem postAll_stores (evs : List (EventKind × Half)) (p : Part) (room : p.evq.queue.length + evs.length ≤ 64) :
    (postAll evs p).evq.queue = p.evq.queue ++ Safety.stamped p.evq.next p.now (evs.map fun e => (e.1, e.2, p.odo.pos))
    ∧ (postAll evs p).evq.lost = p.evq.lost := by
  induction evs generalizing p with
  | nil => exact ⟨(List.append_nil _).symm, rfl⟩
  | cons e evs ih =>
    rw [List.length_cons] at room
    have space : p.evq.queue.length < 64 := by omega
    obtain ⟨queue, next⟩ := postAt_queue e.1 e.2 p.odo.pos true p space
    have lost : (post e.1 e.2 p).evq.lost = p.evq.lost := by
      rw [post_eq, postAt_evq]; unfold Evq.posting; simp only [if_pos space]
    rw [← post_eq] at queue next
    obtain ⟨stored, kept⟩ := ih (post e.1 e.2 p) (by rw [queue, List.length_append, List.length_singleton]; omega)
    refine ⟨?_, kept.trans lost⟩
    rw [queue, next, List.append_assoc] at stored
    exact stored

theorem post_faults (k : EventKind) (arg : Half) (p : Part) :
    (post k arg p).evq.faults = match k.faultClass with
      | some c => p.evq.faults ||| (1#12 <<< c.bit)
      | none => p.evq.faults := by
  rw [post_eq, postAt_evq]
  unfold Evq.posting
  simp only
  split <;> (cases k.faultClass <;> rfl)

/-- Events of no fault class set no bit. -/
theorem postAll_faults_quiet (evs : List (EventKind × Half)) (p : Part) (quiet : ∀ e ∈ evs, e.1.faultClass = none) :
    (postAll evs p).evq.faults = p.evq.faults := by
  induction evs generalizing p with
  | nil => rfl
  | cons e evs ih =>
    refine (ih (post e.1 e.2 p) fun x hx => quiet x (List.mem_cons_of_mem _ hx)).trans ?_
    rw [post_faults, quiet e List.mem_cons_self]

/-- DOOR_FAULT of each of some doors, their contact lost (R140). -/
def doorFaults (l : List (Fin 8)) : List (EventKind × Half) := l.map fun d => (.doorFault, arg2 d.val 2)

theorem postAll_doorFaults (l : List (Fin 8)) (p : Part) :
    (postAll (doorFaults l) p).evq.faults = if l = [] then p.evq.faults else p.evq.faults ||| 0x040 := by
  induction l generalizing p with
  | nil => rfl
  | cons d l ih =>
    have faults : (post .doorFault (arg2 d.val 2) p).evq.faults = p.evq.faults ||| 0x040 := post_faults _ _ _
    refine (ih (post .doorFault (arg2 d.val 2) p)).trans ?_
    rw [faults, if_neg (List.cons_ne_nil d l)]
    split
    · rfl
    · rw [BitVec.or_assoc, BitVec.or_self]

/-! ### What the release samples (R24, R48, R140) -/

/-- The levels of the lines that the release of cold reset samples, and the model's own counter, stand. -/
structure SameLines (p q : Part) : Prop where
  warm : q.warmLine = p.warmLine
  free : q.freeCount = p.freeCount
  p1 : q.odo.p1.quad = p.odo.p1.quad
  p2 : q.odo.p2.quad = p.odo.p2.quad
  w : q.odo.w.quad = p.odo.w.quad
  inputs : q.brk.inputs = p.brk.inputs
  crewKey : q.mod.crewKey = p.mod.crewKey
  doors : q.dor.doors = p.dor.doors
  cd : q.link.cd = p.link.cd

theorem SameLines.trans {p q r : Part} (a : SameLines p q) (b : SameLines q r) : SameLines p r :=
  ⟨b.warm.trans a.warm, b.free.trans a.free, b.p1.trans a.p1, b.p2.trans a.p2, b.w.trans a.w, b.inputs.trans a.inputs,
    b.crewKey.trans a.crewKey, b.doors.trans a.doors, b.cd.trans a.cd⟩

theorem Returned.lines {p q : Part} (h : Returned p q) : SameLines p q :=
  ⟨h.warm, h.free, by rw [h.odo], by rw [h.odo], by rw [h.odo], h.inputs, by rw [h.mod], by rw [h.dor], by rw [h.link]⟩

theorem coldDefaults_congr {p q : Part} (base : BitVec 4) (rate : BitVec 2) (h : SameLines p q) :
    coldDefaults base rate q = coldDefaults base rate p := by
  unfold coldDefaults
  rw [h.warm, h.free, h.p1, h.p2, h.w, h.inputs, h.crewKey, h.doors, h.cd]

theorem abandonTest_lines (p : Part) : SameLines p (abandonTest p) := by
  obtain ⟨b, m, e, inputs, mod, -⟩ := abandonTest_rest p
  have crewKey : m.crewKey = p.mod.crewKey := by
    rcases mod with rfl | ⟨-, rfl⟩ <;> rfl
  rw [e]
  exact ⟨rfl, rfl, rfl, rfl, rfl, inputs, crewKey, rfl, rfl⟩

theorem abandonAll_lines (p : Part) : SameLines p (abandonAll (p.withColdLine true)) := ⟨rfl, rfl, rfl, rfl, rfl, rfl, rfl, rfl, rfl⟩

theorem assertCold_eq {p : Part} (h : p.coldLine = false) : assertCold p = abandonTest (abandonAll (p.withColdLine true)) := by
  unfold assertCold
  rw [if_neg (by rw [h]; decide)]

/-- The assertion moves none of the levels that the release samples. -/
theorem coldAssert_lines {p : Part} (b : Part) (h : p.coldLine = false) : SameLines p (finish b (assertCold p)) := by
  rw [assertCold_eq h]
  exact ((abandonAll_lines p).trans (abandonTest_lines _)).trans (finish_returned b _).lines

/-- The assertion holds the line, and no guard is enabled (R90, R180). -/
theorem coldAssert_holds {p : Part} (b : Part) (h : p.coldLine = false) :
    (finish b (assertCold p)).coldLine = true ∧ (finish b (assertCold p)).bridge.guards = Vector.replicate 4 Guard.off := by
  have ends := finish_returned b (assertCold p)
  rw [ends.cold, ends.guards, assertCold_eq h]
  obtain ⟨x, m, e, -⟩ := abandonTest_rest (abandonAll (p.withColdLine true))
  rw [e]
  exact ⟨rfl, rfl⟩

theorem outputs_of_cold {p : Part} (h : p.coldLine = true) : p.outputs = outputLevels .emergency := by
  unfold Part.outputs Part.asserted
  rw [h]; rfl

/-! ### The doors at the release (R137, R140) -/

section
variable (base : BitVec 4) (rate : BitVec 2) (p : Part)

theorem coldDefaults_door (d : Fin 8) : (coldDefaults base rate p).door d = coldDoor (p.door d) := by
  revert d
  exact fun
    | 0 => rfl | 1 => rfl | 2 => rfl | 3 => rfl | 4 => rfl | 5 => rfl | 6 => rfl | 7 => rfl

theorem allDoors_eq : allDoors = List.finRange 8 := by decide

theorem coldDoorFault_open {q : Part} {d : Fin 8} {r : Door} (door : q.door d = coldDoor r) (h : r.cl = false) :
    coldDoorFault d q = post .doorFault (arg2 d.val 2) q := by
  unfold coldDoorFault
  rw [door]
  unfold coldDoor Door.cold
  rw [h]; rfl

theorem coldDoorFault_closed {q : Part} {d : Fin 8} {r : Door} (door : q.door d = coldDoor r) (h : r.cl = true) :
    coldDoorFault d q = q := by
  unfold coldDoorFault
  rw [door]
  unfold coldDoor Door.cold
  rw [h]; rfl

/-- The doors found without CL post their faults, in order. -/
theorem coldDoorFaults_eq (l : List (Fin 8)) {q : Part} (doors : ∀ d, q.door d = coldDoor (p.door d)) :
    l.foldl (fun x d => coldDoorFault d x) q = postAll (doorFaults (l.filter fun d => !(p.door d).cl)) q := by
  induction l generalizing q with
  | nil => rfl
  | cons d l ih =>
    rw [List.foldl_cons]
    cases h : (p.door d).cl with
    | true =>
      rw [coldDoorFault_closed (doors d) h, List.filter_cons_of_neg (by simp [h])]
      exact ih doors
    | false =>
      rw [coldDoorFault_open (doors d) h, List.filter_cons_of_pos (by simp [h])]
      exact ih (q := post .doorFault (arg2 d.val 2) q) doors

theorem unlocked_nil_iff : Safety.unlocked p = [] ↔ ∀ d, (p.door d).cl = true := by
  unfold Safety.unlocked
  rw [List.filter_eq_nil_iff]
  simp

theorem coldDefaults_shut : (coldDefaults base rate p).doorsShut = true ↔ Safety.unlocked p = [] := by
  rw [unlocked_nil_iff, ← shut_iff]
  unfold Safety.doorsShut
  refine forall_congr' fun d => ?_
  rw [coldDefaults_door]
  unfold coldDoor Door.cold
  cases (p.door d).cl <;> simp

/-- The DOORS entry's event (R46, R137). -/
def doorsDemand : List (EventKind × Half) := if Safety.unlocked p = [] then [] else [(.demandSet, arg3 7 2 2)]

/-- The demand table once the DOORS entry is formed: S2 where a door is FAULTED. -/
def formedTable : Vector Entry 12 :=
  if Safety.unlocked p = [] then (Brk.cold p.brk.inputs).table
  else (Brk.cold p.brk.inputs).table.set DemandSource.doors.index ⟨.s2, false, 2, 0, 0⟩

/-- BRK once the DOORS entry is formed. -/
def formedBrk : Brk := { Brk.cold p.brk.inputs with table := formedTable p }

theorem doorsRequest_cold (e : Evq) :
    doorsRequest ((coldDefaults base rate p).withEvq e) = if Safety.unlocked p = [] then (.released, 0) else (.s2, 2) := by
  show (if (coldDefaults base rate p).doorsShut = true then (Stage.released, 0) else (Stage.s2, 2)) = _
  simp only [coldDefaults_shut]

/-- The entry is formed; BAND of the MODE entry stays the commanded stage. -/
theorem formDoors_cold (e : Evq) : formDoors ((coldDefaults base rate p).withEvq e)
    = (postAll (doorsDemand p) ((coldDefaults base rate p).withEvq e)).withBrk (formedBrk p) := by
  unfold formDoors doorsDemand formedBrk formedTable
  rw [doorsRequest_cold]
  split <;> rfl

/-! ### The brake at the release (R51, R57) -/

/-- With no test running a settled brake is all that follows (R52). -/
theorem settle_untested (c : Stage) {q : Part} (h : q.brk.test = none) :
    settle c q = post .brakeSettled (BitVec.ofNat 16 c.value) (q.withBrk { q.brk with state := .settled, confirmed := c }) := by
  unfold settle stepSettled
  split
  · rename_i t running
    exact absurd (h.symm.trans running) (by simp)
  · rfl

/-- The brake's event, where the band contact confirms BAND at once. -/
def bandSettled : List (EventKind × Half) := if p.brk.inputs.band then [(.brakeSettled, 4)] else []

/-- BRK after the release: settled at BAND, or applying toward it. -/
def releasedBrk : Brk :=
  if p.brk.inputs.band then { formedBrk p with state := .settled, confirmed := .band }
  else { formedBrk p with state := .applying .band (some 0) }

/-- The part at the release as the brake starts. -/
def brakeStarts (e : Evq) : Part :=
  (((coldDefaults base rate p).withEvq e).withBrk (formedBrk p)).withMod (Mod.cold p.mod.crewKey)

/-- While the charge wait runs the band contact alone confirms BAND (R50). -/
theorem brakeStarts_shown (e : Evq) :
    Safety.patternShown (brakeStarts base rate p e) (.applying .band (some 0)) ↔ p.brk.inputs.band = true := by
  have charging : (brakeStarts base rate p e).mod.charge ≠ .complete := by simp [brakeStarts, Mod.cold]
  exact ⟨fun ⟨_, closed, _⟩ => closed, fun closed => ⟨by decide, closed, .inr (.inl charging)⟩⟩

theorem startOperation_cold (e : Evq) : startOperation .band (brakeStarts base rate p e)
    = (postAll (bandSettled p) (brakeStarts base rate p e)).withBrk (releasedBrk p) := by
  have shown := brakeStarts_shown base rate p e
  unfold bandSettled releasedBrk
  by_cases band : p.brk.inputs.band = true
  · rw [startOperation_settles (shown.2 band), settle_untested (q := operating .band (brakeStarts base rate p e)) _ rfl, if_pos band,
      if_pos band]
    rfl
  · rw [startOperation_runs (mt shown.1 band), if_neg band, if_neg band]
    rfl

/-! ### The part after the release -/

/-- The evaluation at the release: no profile, no authority, and B of the steepest class at standstill (R71 to R73). -/
theorem ssuNumbers_cold {q : Part} (odo : q.odo = (coldDefaults base rate p).odo) (prf : q.prf = Prf.cold) (aut : q.aut = Aut.cold)
    (ssu : q.ssu = Ssu.cold) : ssuNumbers q = q.withSsu { Ssu.cold with braking := 6 } := by
  have permitted : q.permittedSpeed = 0 := permittedSpeed_of_noSpeed (.inl (by rw [prf]; rfl))
  have braking : q.brakingDistance = 6 := by
    have speed : q.odo.speed = 0 := by rw [odo]; rfl
    have segment : q.odo.segment = none := by rw [odo]; rfl
    unfold Part.brakingDistance Part.segmentHere
    rw [speed, segment, prf]
    show Settings.default.braking 3 0 = 6
    decide
  unfold ssuNumbers
  rw [permitted, braking, aut, ssu]
  rfl

theorem autNumbers_cold {q : Part} (aut : q.aut = Aut.cold) : autNumbers q = q := by
  unfold autNumbers Part.currentDistance
  rw [aut]
  show q.withAut Aut.cold = q
  rw [← aut]; rfl

/-- The evaluations at the release give SSU its numbers and nothing else. -/
theorem evaluated_cold {q : Part} (live : q.asserted = false) (standing : q.mod.mode ≠ .run)
    (odo : q.odo = (coldDefaults base rate p).odo) (prf : q.prf = Prf.cold) (aut : q.aut = Aut.cold) (ssu : q.ssu = Ssu.cold) :
    ssuEvaluate (autNumbers q) = q.withSsu { Ssu.cold with braking := 6 } := by
  rw [autNumbers_cold aut, ssuEvaluate_idle live standing, ssuNumbers_cold base rate p odo prf aut ssu]

/-- The events of the release. -/
def releaseEvents : List (EventKind × Half) :=
  (.coldStart, arg2 base.toNat rate.toNat) :: doorFaults (Safety.unlocked p) ++ doorsDemand p ++ bandSettled p

/-- The part after the release, but for its generation words. -/
def releasedPart : Part :=
  ((((coldDefaults base rate p).withEvq (postAll (releaseEvents base rate p) (coldDefaults base rate p)).evq).withBrk
    (releasedBrk p)).withMod (Mod.cold p.mod.crewKey)).withSsu { Ssu.cold with braking := 6 }

/-- The timers of MOD start. -/
def timersStarted (q : Part) : Part := q.withMod { q.mod with charge := .timing q.now, silence := some q.now }

/-- The brake starts, and AUT and SSU evaluate. -/
def brakeStarted (q : Part) : Part := ssuEvaluate (autNumbers (if q.asserted then q else startOperation q.brk.commanded q))

theorem coldStart_stages (q : Part) : coldStart q = brakeStarted (timersStarted (formDoors (allDoors.foldl (fun x d => coldDoorFault d x)
    (postAt .coldStart (arg2 q.bridge.base.toNat q.link.bitRate.toNat) 0 true q)))) := rfl

/-- The doors and their entry at the release, and the timers. -/
theorem coldStart_doors : timersStarted (formDoors (allDoors.foldl (fun x d => coldDoorFault d x)
      (postAt .coldStart (arg2 base.toNat rate.toNat) 0 true (coldDefaults base rate p))))
    = brakeStarts base rate p (postAll ((.coldStart, arg2 base.toNat rate.toNat) :: doorFaults (Safety.unlocked p) ++ doorsDemand p)
        (coldDefaults base rate p)).evq := by
  have faults : allDoors.foldl (fun x d => coldDoorFault d x)
      (postAt .coldStart (arg2 base.toNat rate.toNat) 0 true (coldDefaults base rate p))
        = postAll ((.coldStart, arg2 base.toNat rate.toNat) :: doorFaults (Safety.unlocked p)) (coldDefaults base rate p) := by
    rw [allDoors_eq]
    exact coldDoorFaults_eq p (List.finRange 8) (coldDefaults_door base rate p)
  rw [faults, postAll_append]
  have rest := postAll_rest ((.coldStart, arg2 base.toNat rate.toNat) :: doorFaults (Safety.unlocked p)) (coldDefaults base rate p)
  generalize postAll ((.coldStart, arg2 base.toNat rate.toNat) :: doorFaults (Safety.unlocked p)) (coldDefaults base rate p) = q at rest ⊢
  have formed := formDoors_cold base rate p q.evq
  rw [← rest, postAll_only _ rest] at formed
  rw [formed]
  rfl

/-- The brake and the evaluations at the release. -/
theorem brakeStarted_cold (e : Evq) (warm : p.warmLine = false) : brakeStarted (brakeStarts base rate p e)
    = (((brakeStarts base rate p e).withEvq (postAll (bandSettled p) (brakeStarts base rate p e)).evq).withBrk
        (releasedBrk p)).withSsu { Ssu.cold with braking := 6 } := by
  have live : (brakeStarts base rate p e).asserted = false := warm
  unfold brakeStarted
  rw [if_neg (by rw [live]; decide), show (brakeStarts base rate p e).brk.commanded = .band from rfl, startOperation_cold,
    postAll_rest]
  generalize (postAll (bandSettled p) (brakeStarts base rate p e)).evq = x
  exact evaluated_cold base rate p (q := ((brakeStarts base rate p e).withEvq x).withBrk (releasedBrk p)) warm
    (show Mode.stand ≠ .run by decide) rfl rfl rfl rfl

/-- The changes of the release, one block after the other. -/
theorem coldStart_eq (warm : p.warmLine = false) : coldStart (coldDefaults base rate p) = releasedPart base rate p := by
  rw [coldStart_stages]
  refine (congrArg brakeStarted (coldStart_doors base rate p)).trans ?_
  rw [brakeStarted_cold base rate p _ warm]
  have rest := postAll_rest ((.coldStart, arg2 base.toNat rate.toNat) :: doorFaults (Safety.unlocked p) ++ doorsDemand p)
    (coldDefaults base rate p)
  unfold releasedPart releaseEvents
  rw [postAll_append _ (bandSettled p)]
  generalize postAll ((.coldStart, arg2 base.toNat rate.toNat) :: doorFaults (Safety.unlocked p) ++ doorsDemand p)
    (coldDefaults base rate p) = q at rest ⊢
  rw [postAll_evq_congr (bandSettled p) (p := q) (q := brakeStarts base rate p q.evq) rfl (by rw [rest]; rfl) (by rw [rest]; rfl)]
  rfl

/-! ### What the release leaves -/

theorem coldEvents_eq : (doorFaults (Safety.unlocked p) ++ doorsDemand p ++ bandSettled p).map (fun e => (e.1, e.2, (0 : Word)))
    = Safety.coldEvents p := by
  unfold Safety.coldEvents doorFaults doorsDemand bandSettled
  simp only [List.map_append, List.map_map, apply_ite (List.map _), List.map_nil, List.map_cons]
  rfl

/-- The queue has room for the events of the release: COLD_START, at most eight doors, DOORS and BRAKE_SETTLED. -/
theorem releaseEvents_length : (releaseEvents base rate p).length ≤ 64 := by
  have doors : (Safety.unlocked p).length ≤ 8 := (List.length_filter_le _ _).trans (by simp)
  have demand : (doorsDemand p).length ≤ 1 := by unfold doorsDemand; split <;> simp
  have settled : (bandSettled p).length ≤ 1 := by unfold bandSettled; split <;> simp
  unfold releaseEvents doorFaults
  simp only [List.length_append, List.length_cons, List.length_map]
  omega

theorem releasedPart_events :
    (releasedPart base rate p).evq.queue
      = ⟨0, 0, .coldStart, arg2 base.toNat rate.toNat, 0⟩ :: Safety.stamped 1 0 (Safety.coldEvents p)
    ∧ (releasedPart base rate p).evq.lost = 0 := by
  obtain ⟨queue, lost⟩ := postAll_stores (releaseEvents base rate p) (coldDefaults base rate p)
    (by simpa [coldDefaults] using releaseEvents_length base rate p)
  refine ⟨queue.trans ?_, lost⟩
  rw [← coldEvents_eq]
  rfl

theorem releasedPart_faults : (releasedPart base rate p).evq.faults = if Safety.unlocked p = [] then 0 else 0x040 := by
  show (postAll ((.coldStart, arg2 base.toNat rate.toNat) :: doorFaults (Safety.unlocked p) ++ doorsDemand p ++ bandSettled p)
    (coldDefaults base rate p)).evq.faults = _
  have demand : ∀ e ∈ doorsDemand p, e.1.faultClass = none := by unfold doorsDemand; split <;> simp [EventKind.faultClass]
  have settled : ∀ e ∈ bandSettled p, e.1.faultClass = none := by unfold bandSettled; split <;> simp [EventKind.faultClass]
  rw [postAll_append, postAll_append, postAll_faults_quiet _ _ settled, postAll_faults_quiet _ _ demand]
  have start : (post .coldStart (arg2 base.toNat rate.toNat) (coldDefaults base rate p)).evq.faults = 0 := post_faults _ _ _
  have doors := postAll_doorFaults (Safety.unlocked p) (post .coldStart (arg2 base.toNat rate.toNat) (coldDefaults base rate p))
  rw [start] at doors
  exact doors

theorem releasedPart_door (d : Fin 8) : (releasedPart base rate p).door d = { p.door d with
    state := if (p.door d).cl then .locked else .faulted
    fault := if (p.door d).cl then .none else .contactLost
    retries := 0, closeFailed := false, motion := none } := coldDefaults_door base rate p d

theorem releasedPart_entry (d : DemandSource) : (releasedPart base rate p).entry d =
    if d = .mode then ⟨.band, false, 3, 0, 0⟩
    else if d = .doors ∧ Safety.unlocked p ≠ [] then ⟨.s2, false, 2, 0, 0⟩ else Entry.clear := by
  have table : (releasedPart base rate p).entry d = (formedTable p)[d.index] := by
    show (releasedBrk p).table[d.index] = _
    unfold releasedBrk; split <;> rfl
  rw [table]
  unfold formedTable
  by_cases none : Safety.unlocked p = []
  · rw [if_pos none]
    simp only [none, ne_eq, not_true_eq_false, and_false, if_false]
    cases d <;> rfl
  · rw [if_neg none]
    simp only [ne_eq, none, not_false_eq_true, and_true]
    cases d <;> rfl

theorem releasedBrk_kept : (releasedBrk p).commanded = .band ∧ (releasedBrk p).inputs = p.brk.inputs ∧ (releasedBrk p).test = none
    ∧ (releasedBrk p).record = ⟨0, .none, .none, Vector.replicate 5 .notRun, Vector.replicate 5 0⟩ := by
  unfold releasedBrk; split <;> exact ⟨rfl, rfl, rfl, rfl⟩

theorem releasedBrk_applies (h : p.brk.inputs.band = false) :
    (releasedBrk p).confirmed = .released ∧ (releasedBrk p).state = .applying .band (some 0) := by
  unfold releasedBrk; rw [if_neg (by rw [h]; decide)]; exact ⟨rfl, rfl⟩

theorem releasedBrk_settled (h : p.brk.inputs.band = true) :
    (releasedBrk p).confirmed = .band ∧ (releasedBrk p).state = .settled := by
  unfold releasedBrk; rw [if_pos h]; exact ⟨rfl, rfl⟩

/-- The release ends with the released part, its generation words apart. -/
theorem releaseCold_eq {q : Part} (held : q.coldLine = true) (lines : SameLines p q) (warm : p.warmLine = false) :
    ∃ g, releaseCold base rate q = (releasedPart base rate p).withBridge { (releasedPart base rate p).bridge with generations := g } := by
  unfold releaseCold
  simp only [held, if_true, coldDefaults_congr base rate lines, coldStart_eq base rate p warm]
  exact raiseChanged_eq _ _

end

/-- Settles O5: the assertion keeps the lines that the release samples, and the release ends with `releasedPart`. -/
theorem coldResetRestores : Obligations.ColdResetRestores := by
  unfold Obligations.ColdResetRestores
  intro base rate s cold warm
  obtain ⟨held, guards⟩ := coldAssert_holds s.part cold
  obtain ⟨g, released⟩ := releaseCold_eq base rate s.part held (coldAssert_lines s.part cold) warm
  refine ⟨_, _, rfl, rfl, held, outputs_of_cold held, guards, rfl, rfl, ?_⟩
  obtain ⟨queue, lost⟩ := releasedPart_events base rate s.part
  obtain ⟨commanded, inputs, test, record⟩ := releasedBrk_kept s.part
  simp only [released]
  exact ⟨rfl, rfl, rfl, rfl, rfl, rfl, rfl, rfl, rfl, rfl, rfl, rfl, rfl, rfl, rfl, releasedPart_door base rate s.part,
    releasedPart_entry base rate s.part, commanded, inputs, test, record, releasedBrk_applies s.part, releasedBrk_settled s.part,
    queue, lost, releasedPart_faults base rate s.part⟩

end Sys2Proof.Machine
end

section
/-! CLEAR GUARD: the slot it disables, its refusals, and a write to the address the slot held (R88). -/

namespace Sys2Proof.Machine

/-! ### The slot that a change names -/

theorem guardOf?_val (i : Fin 4) : guardOf? i.val = some i := by
  unfold guardOf?; rw [dif_pos i.isLt]

theorem guardOf?_above {n : Nat} (h : 3 < n) : guardOf? n = none := by
  unfold guardOf?; rw [dif_neg (by omega)]

theorem setGuardSlot_same (i : Fin 4) (f : Guard → Guard) (p : Part) :
    (setGuardSlot i f p).bridge.guards[i] = f p.bridge.guards[i] :=
  Vector.getElem_set_self i.isLt

theorem setGuardSlot_other {i j : Fin 4} (f : Guard → Guard) (p : Part) (h : j ≠ i) :
    (setGuardSlot i f p).bridge.guards[j] = p.bridge.guards[j] :=
  Vector.getElem_set_ne i.isLt j.isLt fun e => h (Fin.ext e.symm)

/-- Writing a slot as it stands changes no slot. -/
theorem setGuardSlot_id {i : Fin 4} {f : Guard → Guard} {p : Part} (h : f p.bridge.guards[i] = p.bridge.guards[i]) :
    (setGuardSlot i f p).bridge.guards = p.bridge.guards := by
  show p.bridge.guards.set i.val (f p.bridge.guards[i]) i.isLt = p.bridge.guards
  rw [h]
  exact Vector.set_getElem_self i.isLt

theorem speedGuardHeld_iff (i : Fin 4) (p : Part) :
    speedGuardHeld i p = true
      ↔ p.mod.mode = .run ∧ p.bridge.guards[i].enabled = true ∧ p.bridge.guards[i].kind = .speed := by
  unfold speedGuardHeld
  simp only [Bool.and_eq_true, beq_iff_eq, and_assoc]

/-! ### The judging -/

section

variable {w : Vector Word 7} {p : Part} {i : Fin 4}

theorem judgeClearGuard_lockout (h : p.mod.mode = .lockout) : judgeClearGuard w p = (p, .no .lockout) := by
  unfold judgeClearGuard
  rw [if_pos (by simpa using h)]

theorem judgeClearGuard_badParam (h : p.mod.mode ≠ .lockout) (above : 3 < param w 0) :
    judgeClearGuard w p = (p, .no .badParam) := by
  unfold judgeClearGuard
  rw [if_neg (by simpa using h), guardOf?_above above]

theorem judgeClearGuard_wrongMode (h : p.mod.mode ≠ .lockout) (named : param w 0 = i.val)
    (held : p.mod.mode = .run ∧ p.bridge.guards[i].enabled = true ∧ p.bridge.guards[i].kind = .speed) :
    judgeClearGuard w p = (p, .no .wrongMode) := by
  unfold judgeClearGuard
  rw [if_neg (by simpa using h), named, guardOf?_val]
  exact if_pos ((speedGuardHeld_iff i p).2 held)

theorem judgeClearGuard_takes (h : p.mod.mode ≠ .lockout) (named : param w 0 = i.val)
    (free : ¬ (p.mod.mode = .run ∧ p.bridge.guards[i].enabled = true ∧ p.bridge.guards[i].kind = .speed)) :
    judgeClearGuard w p
      = (setGuardSlot i (fun _ => Guard.off) p, .take (BitVec.ofNat 32 p.bridge.guards[i].violations.toNat)) := by
  unfold judgeClearGuard
  rw [if_neg (by simpa using h), named, guardOf?_val]
  exact if_neg fun held => free ((speedGuardHeld_iff i p).1 held)

end

/-- A CLEAR GUARD that is taken: the guards with the one slot disabled, at the same base. -/
theorem clearGuard_takes {u : Trigger} {s : State} {i : Fin 4} (judged : Safety.triggerJudged u s)
    (running : s.part.mod.mode ≠ .lockout) (named : param (Safety.workingCopy u s) 0 = i.val)
    (free : ¬ (s.part.mod.mode = .run ∧ s.part.bridge.guards[i].enabled = true ∧ s.part.bridge.guards[i].kind = .speed)) :
    ∃ t, exec (.clearGuard u) s = .next t
      ∧ Safety.orderDone 22 u (BitVec.ofNat 32 s.part.bridge.guards[i].violations.toNat) s t
      ∧ t.part.bridge.guards = (setGuardSlot i (fun _ => Guard.off) s.part).bridge.guards
      ∧ t.part.bridge.base = s.part.bridge.base := by
  refine order_take judged (judgeClearGuard_takes (p := received 22 u s) running named free) _ fun t ⟨o, part⟩ taken _ => ?_
  obtain ⟨kept, -⟩ := order_rest part
  exact ⟨taken, kept.guards, kept.base⟩

/-! ### The address the slot held -/

/-- The slot that alone held an address is disabled: no enabled slot holds it. -/
theorem unguarded_of_cleared {i : Fin 4} {a : Nat} {p q : Part} (held : Safety.guarded i a p)
    (guards : q.bridge.guards = (setGuardSlot i (fun _ => Guard.off) p).bridge.guards) : Safety.unguarded a q := by
  obtain ⟨-, -, alone⟩ := held
  intro j enabled
  rw [guards] at enabled ⊢
  by_cases h : j = i
  · subst h
    rw [setGuardSlot_same] at enabled
    cases enabled
  · rw [setGuardSlot_other _ p h] at enabled ⊢
    exact alone j h enabled

/-- An ordinary write outside the bridge area to a word that no enabled slot holds passes, and the slots stand (R173, R178). -/
theorem unguardedWrite_passes {a : BitVec 24} (d : WriteData) {t : State} (aligned : a.toNat % 4 = 0)
    (outside : Safety.outsideArea a.toNat t.part) (free : Safety.unguarded a.toNat t.part) :
    ∃ r, exec (.ordinaryWrite a d) t = .next r ∧ Safety.passed a d r ∧ r.part.bridge.guards = t.part.bridge.guards :=
  ordinary_passes a d t aligned (.inr ⟨(outside_iff _ _).1 outside, guardAt_none _ _ free⟩)

theorem outsideArea_congr {a : Nat} {p q : Part} (base : q.bridge.base = p.bridge.base) (h : Safety.outsideArea a p) :
    Safety.outsideArea a q := by
  unfold Safety.outsideArea at h ⊢; rwa [base]

/-- Settles O55: the refusals in their order; taken, the slot is `Guard.off`, so no enabled slot holds the address it held alone. -/
theorem clearsGuard : Obligations.ClearsGuard := by
  unfold Obligations.ClearsGuard
  intro u s judged
  refine ⟨fun above => ?_, fun i named => ?_⟩
  · refine check_step (fun locked => refuse_of judged (judgeClearGuard_lockout (p := received 22 u s) (not_not.1 locked)))
      fun running => check_end ?_
    exact refuse_of judged (judgeClearGuard_badParam (p := received 22 u s) running above)
  · refine check_step (fun locked => refuse_of judged (judgeClearGuard_lockout (p := received 22 u s) (not_not.1 locked)))
      fun running => ?_
    refine check_step (fun held => refuse_of judged (judgeClearGuard_wrongMode (p := received 22 u s) running named (not_not.1 held)))
      fun free => check_end ?_
    obtain ⟨t, next, done, guards, base⟩ := clearGuard_takes judged running named free
    refine ⟨t, next, done, ?_, fun j other => ?_, fun off => ?_, fun a d held aligned outside => ⟨guardAt_some i _ _ held, ?_⟩⟩
    · rw [guards]; exact setGuardSlot_same i _ s.part
    · rw [guards]; exact setGuardSlot_other _ s.part other
    · rw [guards]; exact setGuardSlot_id off.symm
    · exact unguardedWrite_passes d aligned (outsideArea_congr base outside) (unguarded_of_cleared held guards)

end Sys2Proof.Machine
end

section
/-! GRANT: what AUT does with it, and what is left of it at the end of the delivery (R93, R94, R96). -/

namespace Sys2Proof.Machine

/-! ### The judging (R93, R94) -/

section
variable {g : Grant} {st : Byte} {p : Part} {a : Authority}

/-- The record that a GRANT asks for has its id. -/
theorem grantRecord_id (h : grantRecord g st = some a) : a.id = g.id := by
  unfold grantRecord at h
  split_ifs at h <;> cases h <;> rfl

theorem judgeGrant_refuses (h : p.mod.mode = .stabled ∨ p.odo.validity = .unknown ∨ grantRecord g st = none) :
    ∃ r, judgeGrant g st p = .refused r := by
  unfold judgeGrant
  by_cases stabled : p.mod.mode = .stabled
  · exact ⟨_, if_pos (beq_iff_eq.2 stabled)⟩
  · rw [if_neg (mt beq_iff_eq.1 stabled)]
    cases asked : grantRecord g st with
    | none => exact ⟨_, rfl⟩
    | some a =>
      have unknown := (h.resolve_left stabled).resolve_right (by rw [asked]; exact Option.some_ne_none a)
      exact ⟨_, if_pos (beq_iff_eq.2 unknown)⟩

/-- What is judged of a good record: a held one of its id, and then the slots. -/
theorem judgeGrant_good (mode : p.mod.mode ≠ .stabled) (known : p.odo.validity ≠ .unknown) (asked : grantRecord g st = some a) :
    judgeGrant g st p = match heldRecord g.id p.aut with
      | some h => if h.start = a.start ∧ h.stop = a.stop ∧ h.dir = a.dir ∧ h.cap = a.cap then .ignored else .refused .conflict
      | none => match p.aut.current, p.aut.next with
        | none, _ => if recordHoldsExtent a p then .intoCurrent a else .refused .notHere
        | some c, none => if a.start = c.stop ∧ a.dir = c.dir then .intoNext a else .refused .notContiguous
        | some _, some _ => .refused .slotsFull := by
  unfold judgeGrant
  rw [if_neg (mt beq_iff_eq.1 mode), asked]
  rw [← grantRecord_id asked]
  exact if_neg (mt beq_iff_eq.1 known)

section
variable (mode : p.mod.mode ≠ .stabled) (known : p.odo.validity ≠ .unknown) (asked : grantRecord g st = some a)
include mode known asked

/-- A repeated record is ignored, and another one of a held id refused (R93). -/
theorem judgeGrant_held {h : Authority} (held : heldRecord g.id p.aut = some h) : judgeGrant g st p =
    if h.start = a.start ∧ h.stop = a.stop ∧ h.dir = a.dir ∧ h.cap = a.cap then .ignored else .refused .conflict := by
  rw [judgeGrant_good mode known asked, held]

theorem judgeGrant_intoCurrent (free : heldRecord g.id p.aut = none) (empty : p.aut.current = none)
    (here : recordHoldsExtent a p = true) : judgeGrant g st p = .intoCurrent a := by
  rw [judgeGrant_good mode known asked, free, empty]
  exact if_pos here

theorem judgeGrant_intoNext {c : Authority} (free : heldRecord g.id p.aut = none) (held : p.aut.current = some c)
    (empty : p.aut.next = none) (behind : a.start = c.stop ∧ a.dir = c.dir) : judgeGrant g st p = .intoNext a := by
  rw [judgeGrant_good mode known asked, free, held, empty]
  exact if_pos behind

/-- Elsewhere than at the car, not behind CURRENT, or with both slots full, a record is refused (R94). -/
theorem judgeGrant_unfit (free : heldRecord g.id p.aut = none)
    (unfit : (p.aut.current = none ∧ recordHoldsExtent a p = false)
      ∨ ∃ c, p.aut.current = some c ∧ (p.aut.next.isSome = true ∨ ¬ (a.start = c.stop ∧ a.dir = c.dir))) :
    ∃ r, judgeGrant g st p = .refused r := by
  rw [judgeGrant_good mode known asked, free]
  rcases unfit with ⟨empty, away⟩ | ⟨c, held, unfit⟩
  · rw [empty]
    exact ⟨_, if_neg (by rw [away]; decide)⟩
  · rw [held]
    cases next : p.aut.next with
    | none => exact ⟨_, if_neg (unfit.resolve_left (by rw [next]; decide))⟩
    | some n => exact ⟨_, rfl⟩

end

end

/-! ### The slots and the events -/

theorem handRefusal_aut (st : Byte) (k i : Nat) (r : Reason) (p : Part) : (handRefusal st k i r p).aut = p.aut := offer_aut _ _

/-- A GRANT that fills no slot leaves the authority table. -/
theorem grantTaken_leaves {g : Grant} {st : Byte} {p : Part} :
    (∀ r, judgeGrant g st p = .refused r → (grantTaken g st p).1.aut = p.aut ∧ (grantTaken g st p).2 = .refused)
    ∧ (judgeGrant g st p = .ignored → grantTaken g st p = (p, .ignored)) := by
  unfold grantTaken
  exact ⟨fun r h => by rw [h]; exact ⟨handRefusal_aut _ _ _ _ _, rfl⟩, fun h => by rw [h]⟩

/-- The fields of an authority table that a GRANT sets. -/
structure Filled (c n : Option Authority) (a : Authority) (p q : Part) : Prop where
  current : q.aut.current = c
  next : q.aut.next = n
  relinquished : q.aut.relinquished = false
  posts : Safety.posts p q [(.authGranted, a.id, p.odo.pos)]

theorem acceptGrant_filled (a : Authority) (x : Aut) (p : Part) : Filled x.current x.next a p (acceptGrant a x p) := by
  obtain ⟨current, next, relinquished, -, posts⟩ := accept_spec a x p
  exact ⟨current, next, relinquished, posts _ (List.prefix_refl _)⟩

theorem grantTaken_intoCurrent {g : Grant} {st : Byte} {p : Part} {a : Authority} (h : judgeGrant g st p = .intoCurrent a) :
    Filled (some a) p.aut.next a p (grantTaken g st p).1 ∧ (grantTaken g st p).2 = .acted := by
  unfold grantTaken
  rw [h]
  exact ⟨acceptGrant_filled a { p.aut with current := some a } p, rfl⟩

/-- NEXT is filled, and AUT judges CURRENT's end: one that the car has passed hands over at once (R96). -/
theorem Filled.judged {c : Option Authority} {a : Authority} {p q : Part} (h : Filled c (some a) a p q)
    (distance : q.currentDistance = p.currentDistance) :
    (0 ≤ p.currentDistance → Filled c (some a) a p (autJudge false q))
    ∧ (p.currentDistance < 0 → Filled (some a) none a p (autJudge false q)) := by
  have judged : Moves [.slots, .mode, .ord] q (autJudge false q) :=
    autJudge_moves false (by decide) (by decide) (by decide) (Moves.refl _)
  have events := posts_more h.posts (judged.frame.pre (by decide))
  obtain ⟨passed, within⟩ := autJudge_spec q
  rw [distance, h.next, h.relinquished] at passed
  rw [distance, h.current, h.next, h.relinquished] at within
  refine ⟨fun here => ?_, fun beyond => ?_⟩
  · obtain ⟨current, next, relinquished⟩ := within here
    exact ⟨current, next, relinquished, events⟩
  · obtain ⟨current, next, relinquished⟩ := passed beyond rfl
    exact ⟨current, next, relinquished, events⟩

/-- Into NEXT behind a CURRENT, which the car may have passed (R94, R96). -/
theorem grantTaken_intoNext {g : Grant} {st : Byte} {p : Part} {a : Authority} (h : judgeGrant g st p = .intoNext a) :
    (0 ≤ p.currentDistance → Filled p.aut.current (some a) a p (grantTaken g st p).1)
    ∧ (p.currentDistance < 0 → Filled (some a) none a p (grantTaken g st p).1) ∧ (grantTaken g st p).2 = .acted := by
  have filled := acceptGrant_filled a { p.aut with next := some a } p
  have odo : (acceptGrant a { p.aut with next := some a } p).odo = p.odo := (ssuEvaluate_aut _).2
  have prf : (acceptGrant a { p.aut with next := some a } p).prf = p.prf := ssuEvaluate_prf _
  obtain ⟨within, passed⟩ := filled.judged (distance_congr _ _ filled.current odo prf)
  unfold grantTaken
  rw [h]
  exact ⟨within, passed, rfl⟩

/-! ### The delivery -/

/-- What a GRANT is judged on stands when the link has heard it. -/
theorem judgeGrant_linkHeard (g : Grant) (st : Byte) (src : Sender) (p : Part) :
    judgeGrant g st (linkHeard src p) = judgeGrant g st p := by
  obtain ⟨e, heard⟩ := linkHeard_spec src p
  rw [heard]; rfl

section
variable {src : Sender} {p q r : Part} {a : Authority}

/-- A GRANT that leaves the authority table changes no slot. -/
theorem slots_of_leaves (left : q.aut = (linkHeard src p).aut) (soft : AutSoft q.aut r.aut) :
    r.aut.current = p.aut.current ∧ r.aut.next = p.aut.next := by
  obtain ⟨current, next, -⟩ := soft
  obtain ⟨e, heard⟩ := linkHeard_spec src p
  rw [current, next, left, heard]
  exact ⟨rfl, rfl⟩

/-- A GRANT that is accepted stands as it has filled the slots, with its events (R94, R171). -/
theorem granted_of_filled {c n : Option Authority} (filled : Filled c n a (linkHeard src p) q) (soft : AutSoft q.aut r.aut)
    (pre : q.evq.queue <+: r.evq.queue) (last : Safety.postsLast .messageArrived (arg2 1 1) r) :
    r.aut.current = c ∧ r.aut.next = n ∧ Safety.granted src a.id p r := by
  obtain ⟨current', next', -, -, relinquished'⟩ := soft
  obtain ⟨current, next, relinquished, posts⟩ := filled
  obtain ⟨e, heard⟩ := linkHeard_spec src p
  have pos : (linkHeard src p).odo.pos = p.odo.pos := by rw [heard]; rfl
  rw [pos] at posts
  exact ⟨current'.trans current, next'.trans next, relinquished'.trans relinquished, posts_heard src (posts_more posts pre), last⟩

end

/-- What a delivered GRANT ends with, by its judgement (R93, R94, R96, R171). -/
def GrantAnswered (src : Sender) (p q : Part) : GrantOutcome → Prop
  | .refused _ => q.aut.current = p.aut.current ∧ q.aut.next = p.aut.next ∧ Safety.postsLast .messageArrived (arg2 1 2) q
  | .ignored => q.aut.current = p.aut.current ∧ q.aut.next = p.aut.next ∧ Safety.postsLast .messageArrived (arg2 1 3) q
  | .intoCurrent a => q.aut.current = some a ∧ q.aut.next = p.aut.next ∧ Safety.granted src a.id p q
  | .intoNext a =>
    (0 ≤ p.currentDistance → q.aut.current = p.aut.current ∧ q.aut.next = some a)
    ∧ (p.currentDistance < 0 → q.aut.current = some a ∧ q.aut.next = none) ∧ Safety.granted src a.id p q

/-- Behind the effects of a GRANT its answer stands. -/
theorem grantAnswered_of {src : Sender} {g : Grant} {st : Byte} {p r : Part}
    (soft : AutSoft (grantTaken g st (linkHeard src p)).1.aut r.aut)
    (pre : (grantTaken g st (linkHeard src p)).1.evq.queue <+: r.evq.queue)
    (last : Safety.postsLast .messageArrived (arg2 1 (grantTaken g st (linkHeard src p)).2.code) r) :
    GrantAnswered src p r (judgeGrant g st p) := by
  have judged := judgeGrant_linkHeard g st src p
  obtain ⟨refuses, ignores⟩ := grantTaken_leaves (g := g) (st := st) (p := linkHeard src p)
  have heard : (linkHeard src p).aut = p.aut ∧ (linkHeard src p).currentDistance = p.currentDistance := by
    obtain ⟨e, heard⟩ := linkHeard_spec src p
    rw [heard]; exact ⟨rfl, rfl⟩
  cases judge : judgeGrant g st p with
  | refused r' =>
    obtain ⟨left, outcome⟩ := refuses r' (judged.trans judge)
    obtain ⟨current, next⟩ := slots_of_leaves left soft
    rw [outcome] at last
    exact ⟨current, next, last⟩
  | ignored =>
    rw [ignores (judged.trans judge)] at soft last
    obtain ⟨current, next⟩ := slots_of_leaves rfl soft
    exact ⟨current, next, last⟩
  | intoCurrent a =>
    obtain ⟨filled, outcome⟩ := grantTaken_intoCurrent (judged.trans judge)
    rw [outcome] at last
    rw [heard.1] at filled
    exact granted_of_filled filled soft pre last
  | intoNext a =>
    obtain ⟨within, passed, outcome⟩ := grantTaken_intoNext (judged.trans judge)
    rw [outcome] at last
    rw [heard.2] at within passed
    rw [heard.1] at within
    refine ⟨fun here => ?_, fun beyond => ?_, ?_⟩
    · obtain ⟨current, next, -⟩ := granted_of_filled (within here) soft pre last
      exact ⟨current, next⟩
    · obtain ⟨current, next, -⟩ := granted_of_filled (passed beyond) soft pre last
      exact ⟨current, next⟩
    · rcases lt_or_ge p.currentDistance 0 with beyond | here
      · exact (granted_of_filled (passed beyond) soft pre last).2.2
      · exact (granted_of_filled (within here) soft pre last).2.2

theorem grant_ends (src : Sender) (id : Half) (start stop : BitVec 24) (dir : Byte) (cap : Half) (s : State)
    (h : Safety.delivered src s) : ∃ t, exec (.grant src id start stop dir cap) s = .next t
      ∧ GrantAnswered src s.part t.part
        (judgeGrant ⟨id, start.toNat, stop.toNat, dir.toNat, cap.toNat⟩ src.station s.part) := by
  refine message_ends (kind := 1) (act := grantTaken ⟨id, start.toNat, stop.toNat, dir.toNat, cap.toNat⟩ src.station) h rfl _
    fun t ⟨_, part⟩ _ _ => ?_
  obtain ⟨moves, returned, last⟩ := message_rest part
  exact grantAnswered_of returned.slots (moves.frame.pre (by decide)) last

/-- A delivered GRANT fills CURRENT or NEXT, or is ignored or refused (R93, R94, R96). -/
theorem grant_answers (src : Sender) (id : Half) (start stop : BitVec 24) (dir : Byte) (cap : Half) (s : State)
    (h : Safety.delivered src s) : ∃ t, exec (.grant src id start stop dir cap) s = .next t
      ∧ (s.part.mod.mode = .stabled ∨ s.part.odo.validity = .unknown
          ∨ grantRecord ⟨id, start.toNat, stop.toNat, dir.toNat, cap.toNat⟩ src.station = none →
          t.part.aut.current = s.part.aut.current ∧ t.part.aut.next = s.part.aut.next
          ∧ Safety.postsLast .messageArrived (arg2 1 2) t.part)
      ∧ ∀ a, s.part.mod.mode ≠ .stabled → s.part.odo.validity ≠ .unknown →
          grantRecord ⟨id, start.toNat, stop.toNat, dir.toNat, cap.toNat⟩ src.station = some a →
          (∀ h, heldRecord id s.part.aut = some h →
            t.part.aut.current = s.part.aut.current ∧ t.part.aut.next = s.part.aut.next
            ∧ Safety.postsLast .messageArrived
                (arg2 1 (if h.start = a.start ∧ h.stop = a.stop ∧ h.dir = a.dir ∧ h.cap = a.cap then 3 else 2)) t.part)
          ∧ (heldRecord id s.part.aut = none → s.part.aut.current = none → recordHoldsExtent a s.part = true →
            t.part.aut.current = some a ∧ t.part.aut.next = s.part.aut.next ∧ Safety.granted src id s.part t.part)
          ∧ (∀ c, heldRecord id s.part.aut = none → s.part.aut.current = some c → s.part.aut.next = none →
              a.start = c.stop → a.dir = c.dir →
              (0 ≤ s.part.currentDistance → t.part.aut.current = some c ∧ t.part.aut.next = some a)
              ∧ (s.part.currentDistance < 0 → t.part.aut.current = some a ∧ t.part.aut.next = none)
              ∧ Safety.granted src id s.part t.part)
          ∧ (heldRecord id s.part.aut = none →
              (s.part.aut.current = none ∧ recordHoldsExtent a s.part = false)
              ∨ (∃ c, s.part.aut.current = some c
                  ∧ (s.part.aut.next.isSome = true ∨ ¬ (a.start = c.stop ∧ a.dir = c.dir))) →
              t.part.aut.current = s.part.aut.current ∧ t.part.aut.next = s.part.aut.next
              ∧ Safety.postsLast .messageArrived (arg2 1 2) t.part) := by
  obtain ⟨t, next, answered⟩ := grant_ends src id start stop dir cap s h
  refine ⟨t, next, fun bad => ?_, fun a mode known asked => ?_⟩
  · obtain ⟨r, judge⟩ := judgeGrant_refuses bad
    rw [judge] at answered
    exact answered
  obtain rfl : a.id = id := grantRecord_id asked
  refine ⟨fun x held => ?_, fun free empty here => ?_, fun c free held empty start dir => ?_, fun free unfit => ?_⟩
  · rw [judgeGrant_held mode known asked held] at answered
    split_ifs at answered ⊢ <;> exact answered
  · rw [judgeGrant_intoCurrent mode known asked free empty here] at answered
    exact answered
  · rw [judgeGrant_intoNext mode known asked free held empty ⟨start, dir⟩] at answered
    unfold GrantAnswered at answered
    rw [held] at answered
    exact answered
  · obtain ⟨r, judge⟩ := judgeGrant_unfit mode known asked free unfit
    rw [judge] at answered
    exact answered

end Sys2Proof.Machine
end

section
/-! The authority table as a count goes on: what every part of the count leaves of it, with no brake test running (R95, R102). -/

namespace Sys2Proof.Machine

/-! ### Changes of ODO and events alone -/

/-- Only events were posted and ODO changed. -/
def OdoOnly (p q : Part) : Prop := q = (p.withEvq q.evq).withOdo q.odo

section
variable {p q r : Part}

theorem OdoOnly.refl (p : Part) : OdoOnly p p := rfl

theorem OdoOnly.trans (a : OdoOnly p q) (b : OdoOnly q r) : OdoOnly p r := by
  unfold OdoOnly at a b ⊢
  rw [b, a]; rfl

theorem OdoOnly.withOdo (h : OdoOnly p q) (x : Odo) : OdoOnly p (q.withOdo x) := h.trans rfl

theorem OdoOnly.post (h : OdoOnly p q) (k : EventKind) (arg : Half) : OdoOnly p (post k arg q) := h.trans rfl

theorem OdoOnly.aut (h : OdoOnly p q) : q.aut = p.aut := by rw [h]; rfl

theorem OdoOnly.brk (h : OdoOnly p q) : q.brk = p.brk := by rw [h]; rfl

theorem makeUncertain_only (c : Nat) (h : OdoOnly p q) : OdoOnly p (makeUncertain c q) := by
  unfold makeUncertain; split; exacts [(h.withOdo _).post _ _, h]

theorem chooseSource_only (h : OdoOnly p q) : OdoOnly p (chooseSource q) := by
  unfold chooseSource; split; exacts [h, (h.withOdo _).post _ _]

theorem losePosition_only (h : OdoOnly p q) : OdoOnly p (losePosition q) := (h.withOdo _).post _ _

theorem settleSource_only (was : Odo) (h : OdoOnly p q) : OdoOnly p (settleSource was q).1 := by
  have chosen := chooseSource_only h
  unfold settleSource
  simp only
  split
  · exact losePosition_only chosen
  · split; exacts [makeUncertain_only _ chosen, chosen]

theorem mismatch_only (r : MismatchReason) (h : OdoOnly p q) : OdoOnly p (mismatch r q) := by
  unfold mismatch
  simp only
  split; exacts [makeUncertain_only _ ((h.withOdo _).post _ _), (h.withOdo _).post _ _]

theorem captureWatch_only (h : OdoOnly p q) : OdoOnly p (captureWatch q) := by
  unfold captureWatch
  split
  · split
    · exact mismatch_only _ h
    · split <;> (split; exacts [mismatch_only _ h, h])
  · exact h

theorem entryPass_only (h : OdoOnly p q) : OdoOnly p (entryPass q).1 := by
  have entered : OdoOnly p (passedEntry q) := chooseSource_only ((h.withOdo _).post _ _)
  rw [entryPass_eq]
  dsimp only
  split
  · exact entered.post _ _
  · split; exacts [entered.post _ _, entered]

theorem entryFail_only (n : Nat) (h : OdoOnly p q) : OdoOnly p (entryFail n q).1 := by
  have chosen : OdoOnly p (failedEntry n q) := chooseSource_only ((h.withOdo _).post _ _)
  rw [entryFail_eq]
  split; exacts [losePosition_only chosen, makeUncertain_only _ chosen]

theorem entryJudge_only (h : OdoOnly p q) : OdoOnly p (entryJudge q).1 := by
  unfold entryJudge
  split
  · split
    · simp only
      split
      · exact entryFail_only _ h
      · split; exacts [entryPass_only h, entryFail_only _ h]
    · exact h
  · exact h

theorem crossRegime_only (rack : Bool) (d : Dir) (h : OdoOnly p q) : OdoOnly p (crossRegime rack d q).1 := by
  unfold crossRegime
  split
  · split; exacts [settleSource_only _ (h.withOdo _), h]
  · split
    · exact settleSource_only _ ((h.withOdo _).post _ _)
    · split; exacts [settleSource_only _ (h.withOdo _), h]

theorem followSegment_only (d : Dir) (h : OdoOnly p q) : OdoOnly p (followSegment d q).1 := by
  unfold followSegment
  simp only
  split
  · split; exacts [h.withOdo _, crossRegime_only _ _ (h.withOdo _)]
  · exact h.withOdo _

end

/-! ### What leaves the authority table -/

theorem latch_idle_aut {d : DemandSource} {s : Stage} {c : Nat} {p : Part} (test : p.brk.test = none) :
    (latch d s c p).aut = p.aut := by
  rw [latch_eq test, (latchEntry_requested d s c p).rest]; rfl

theorem odoRequests_idle_aut (rs : OdoRequests) {p : Part} (test : p.brk.test = none) : (odoRequests rs p).aut = p.aut := by
  induction rs generalizing p with
  | nil => rfl
  | cons x rs ih =>
    have latched : (latch .odometry x.1 x.2 p).brk.test = none := (latch_paced .odometry x.1 x.2 (.refl test)).test
    exact (ih latched).trans (latch_idle_aut test)

theorem sideChecks_stands (p : Part) : (sideChecks p).aut = p.aut ∧ (sideChecks p).odo = p.odo := by
  have sides := (sideCheck_elsewhere .left p).trans (sideCheck_elsewhere .right _)
  have formed := followEntry_requested .doors (doorsRequest (sideCheck .right (sideCheck .left p))).1
    (doorsRequest (sideCheck .right (sideCheck .left p))).2 (sideCheck .right (sideCheck .left p))
  have orders := checkDoorOrders_elsewhere (formDoors (sideCheck .right (sideCheck .left p)))
  have aut : (formDoors (sideCheck .right (sideCheck .left p))).aut = p.aut := by
    rw [← sides.aut]; unfold formDoors; rw [formed.rest]; rfl
  exact ⟨orders.aut.trans aut, orders.odo.trans (formed.pos.trans sides.odo)⟩

theorem handleJudge_idle_aut {p : Part} (test : p.brk.test = none) : (handleJudge p).aut = p.aut := by
  unfold handleJudge
  split
  · exact latch_idle_aut (p := p.withDor { p.dor with deferred := none }) test
  · rfl

theorem climbOut_idle_aut {p : Part} (test : p.brk.test = none) : (climbOut p).aut = p.aut :=
  (handAlarm_elsewhere .climbOut _).aut.trans (latch_idle_aut (p := post .climbOut (argSigned p.odo.deviation.toInt) p) test)

theorem deviationCount_idle_aut {p : Part} (test : p.brk.test = none) : (deviationCount p).aut = p.aut := by
  cases on : p.odo.climbOn with
  | false => rw [deviationCount_off on]
  | true =>
    rw [deviationCount_on on]
    split; exacts [climbOut_idle_aut (p := drifted p) test, rfl]

theorem reverseCount_idle_aut (c : Dir) {p : Part} (test : p.brk.test = none) : (reverseCount c p).aut = p.aut := by
  unfold reverseCount
  split
  · split
    · rfl
    · simp only
      split
      · exact latch_idle_aut (p := post .rollback 1 (reverseRaised p)) test
      · rfl
  · rfl

/-! ### A wake -/

theorem modeSsu_stabled_aut (p : Part) : (modeSsu .stabled p).aut = p.aut := (ssuEvaluate_aut p).1

theorem modeAut_stabled_aut (p : Part) : (modeAut .stabled p).aut = { p.aut with travel := .none } := rfl

theorem modeDor_aut (p : Part) : (modeDor p).aut = p.aut := by
  have formed (x : Part) : (formDoors x).aut = x.aut := by
    unfold formDoors; rw [(followEntry_requested _ _ _ _).rest]; rfl
  unfold modeDor
  split
  · exact (checkDoorOrders_elsewhere _).aut.trans ((formed _).trans
      ((withdrawSide_elsewhere .left .mode p).trans (withdrawSide_elsewhere .right .mode _)).aut)
  · exact formed p

theorem modeRlc_aut (old : Mode) (p : Part) : (modeRlc old p).aut = p.aut := by
  unfold modeRlc
  split
  · rfl
  · split; exacts [handReport_aut p, rfl]

theorem fromStabled_aut (k : EventKind) (arg : Half) {p : Part} (h : p.mod.mode = .stabled) :
    (changeMode .stand .wake (post k arg) p).aut = { p.aut with travel := .none } := by
  unfold changeMode
  extract_lets old was _ q1 q2
  have stabled : old = .stabled := h
  have formed : (patternChanged was (requestMode q1)).aut = p.aut := by
    rw [(patternChanged_only was _).rest, Part.withBrk_aut, Part.withEvq_aut, (requestMode_requested q1).rest]; rfl
  have parts : q2.aut = { p.aut with travel := .none } := by
    simp only [q2, stabled]
    rw [modeRlc_aut, modeDor_aut, show ∀ x, (modeOdo x).aut = x.aut from fun _ => rfl, modeAut_stabled_aut, modeSsu_stabled_aut, formed]
  rw [if_neg (by simp)]
  exact parts

/-- A wake leaves the authority table but for the travel record (R102, R116). -/
theorem wakeCar_aut (r : WakeReason) {p : Part} (h : p.mod.mode = .stabled) :
    (wakeCar r p).aut = { p.aut with travel := .none } := by
  unfold wakeCar
  rw [if_pos (by rw [h]; decide)]
  exact fromStabled_aut _ _ h

/-- A count of the creep counter leaves the authority table but for the travel record, and in RUN that as well (R16, R102). -/
theorem creepCount_idle_aut {p : Part} (test : p.brk.test = none) :
    (creepCount p).aut = { p.aut with travel := (creepCount p).aut.travel } := by
  have raised := latch_idle_aut (d := .rollback) (s := .emergency) (c := 1) (p := post .rollback 0 (creepRaised p)) test
  by_cases side : p.mod.mode = .stand ∨ p.mod.mode = .stabled
  · by_cases crosses : Safety.crossesAllowance p.odo.creep p
    · rw [creepCount_crossed side crosses]
      by_cases stabled : p.mod.mode = .stabled
      · have alarmed : (rollAwayAlarmed (creepRaised p)).aut = p.aut := (handAlarm_elsewhere _ _).aut.trans raised
        have mode : (rollAwayAlarmed (creepRaised p)).mod.mode = .stabled := by
          rw [rollAwayAlarmed_mod (p := creepRaised p) test]; exact stabled
        rw [creepCrossed_inStabled (p := creepRaised p) stabled, wakeCar_aut _ mode, alarmed]
      · rw [creepCrossed_inStand (p := creepRaised p) stabled, raised]; rfl
    · rw [creepCount_raised side crosses]; rfl
  · unfold creepCount
    rw [if_neg (by simpa using side)]

end Sys2Proof.Machine
end

section
/-! AUT's judging of CURRENT's end at a count of the source, by itself (R95 to R97). -/

namespace Sys2Proof.Machine

/-! ### dc and the request flag (R95) -/

/-- dc and the request flag are those of the present position, where it is known (R95). -/
def Numbered (p : Part) : Prop :=
  p.odo.validity ≠ .unknown → p.aut.dc = p.currentDistance ∧ p.aut.request = (autNumbers p).aut.request

theorem currentDistance_counts {p : Part} {a : Authority} (current : p.aut.current = some a) (known : p.odo.validity ≠ .unknown) :
    p.currentDistance = Safety.countsToEnd a p := by
  unfold Part.currentDistance
  rw [current]
  dsimp only
  rw [if_neg (mt beq_iff_eq.1 known), distanceTo_eq]
  rfl

theorem countsToEnd_congr {a : Authority} {p q : Part} (pos : q.odo.pos = p.odo.pos) (prf : q.prf = p.prf) :
    Safety.countsToEnd a q = Safety.countsToEnd a p := by
  unfold Safety.countsToEnd
  rw [pos, prf]

theorem Numbered.counts {p : Part} {a : Authority} (h : Numbered p) (current : p.aut.current = some a)
    (known : p.odo.validity ≠ .unknown) : p.aut.dc = Safety.countsToEnd a p
      ∧ (p.aut.request = true ↔ p.aut.next = none ∧ Safety.countsToEnd a p ≤ (p.prf.settings.requestDistance : Int) * 16) := by
  obtain ⟨dc, request⟩ := h known
  have here := currentDistance_counts current known
  refine ⟨dc.trans here, ?_⟩
  rw [request]
  unfold autNumbers
  simp only [Part.withAut_aut]
  rw [here, current, Bool.and_eq_true, Bool.and_eq_true, decide_eq_true_eq, Option.isNone_iff_eq_none]
  exact and_congr_left fun _ => and_iff_right rfl

/-- dc and the request flag hang on the slots, the position and the profile alone. -/
theorem Numbered.congr {p q : Part} (h : Numbered p) (aut : q.aut.current = p.aut.current ∧ q.aut.next = p.aut.next
    ∧ q.aut.dc = p.aut.dc ∧ q.aut.request = p.aut.request) (pos : q.odo.pos = p.odo.pos) (prf : q.prf = p.prf)
    (lost : p.odo.validity = .unknown → q.odo.validity = .unknown) : Numbered q := by
  obtain ⟨current, next, dc, request⟩ := aut
  intro known
  have before := mt lost known
  have distance : q.currentDistance = p.currentDistance := by
    unfold Part.currentDistance Part.distanceTo Part.rearCounts
    rw [current, pos, prf, beq_false_of_ne known, beq_false_of_ne before]
  obtain ⟨dc', request'⟩ := h before
  unfold autNumbers at request' ⊢
  simp only [Part.withAut_aut] at request' ⊢
  rw [dc, request, distance, current, next, prf]
  exact ⟨dc', request'⟩

theorem autNumbers_numbered (p : Part) : Numbered (autNumbers p) := fun _ => ⟨rfl, rfl⟩

/-! ### The entry of AUTHORITY -/

theorem requestSupervision_same {d : DemandSource} (h : d ≠ .supervision) (s : Stage) (c : Nat) (p : Part) :
    SameEntry d p (requestSupervision s c p) := by
  rcases requestSupervision_cases s c p with ⟨-, e⟩ | ⟨-, e⟩ <;> rw [e]
  · exact rfl
  · have asked : SameEntry d p (p.withSsu { p.ssu with request := (s, causeByte s c) }) := rfl
    exact asked.trans ((followEntry_requested .supervision s c _).same h)

theorem tripTaken_same {d : DemandSource} (h : d ≠ .supervision) (p : Part) : SameEntry d p (tripTaken p) := by
  have state : SameEntry d p (stateTaken p) := .of_brk (stateTaken_brk p)
  unfold tripTaken
  split; exacts [state.trans ((latchEntry_requested _ _ _ _).same h), state]

/-- An evaluation of SSU leaves the entries of the other sources. -/
theorem ssuEvaluate_same {d : DemandSource} (h : d ≠ .supervision) (p : Part) : SameEntry d p (ssuEvaluate p) := by
  have numbers : SameEntry d p (ssuNumbers p) := rfl
  unfold ssuEvaluate
  split
  · exact rfl
  · simp only
    split
    · rw [evaluateRun_eq]
      exact numbers.trans ((tripTaken_same h _).trans (requestSupervision_same h _ _ _))
    · exact numbers

/-! ### An overrun (R97) -/

/-- The overrun flag is set, with its event. -/
def overrunPosted (p : Part) : Part := post .authOverrun (currentId p) (p.withAut { p.aut with overrun := true })

theorem overrun_eq (p : Part) : overrun p = handAlarm .overrun (if (p.entry .authority).latched then overrunPosted p
    else latch .authority .emergency 2 (overrunPosted p)) := rfl

theorem overrun_aut {p : Part} (test : p.brk.test = none) : (overrun p).aut = { p.aut with overrun := true } := by
  rw [overrun_eq, (handAlarm_elsewhere _ _).aut]
  split
  · rfl
  · exact latch_idle_aut (p := overrunPosted p) test

theorem overrun_after (p : Part) : Moves [.mode, .ord] (overrunPosted p) (overrun p) := by
  rw [overrun_eq]
  refine handAlarm_moves _ ?_
  split; exacts [Moves.refl _, latch_moves _ _ _ (by decide) (by decide) (by decide) (Moves.refl _)]

theorem currentId_of {p : Part} {a : Authority} (current : p.aut.current = some a) : currentId p = a.id := by
  unfold currentId; rw [current]

theorem overrun_overruns {p : Part} {a : Authority} (test : p.brk.test = none) (current : p.aut.current = some a) :
    Safety.overran a p (overrun p) := by
  have after := overrun_after p
  have entry : ((overrun p).entry .authority).latched = true
      ∧ ((p.entry .authority).latched = false → Safety.latchedAt .authority .emergency (overrun p)) := by
    rw [overrun_eq]
    split
    · rename_i held
      have same : (handAlarm .overrun (overrunPosted p)).entry .authority = p.entry .authority :=
        SameEntry.of_brk (handAlarm_elsewhere _ _).brk
      rw [same]
      exact ⟨held, fun free => absurd held (by rw [free]; decide)⟩
    · have latched := latched_after (H := []) (latch_latched .authority .emergency 2 (by decide) (overrunPosted p)) (by decide)
        (handAlarm_moves .overrun (Moves.refl _)) (by decide)
      exact ⟨latched.1, fun _ => latched⟩
  refine ⟨by rw [overrun_aut test], ?_, flagged_moves (flagged_post _ _ _ _ rfl) after (by decide), entry⟩
  rw [← currentId_of current]
  exact posted_of (x := p.withAut { p.aut with overrun := true }) (List.prefix_refl _) (after.frame.pre (by decide))

/-- An overrun since a later part is one since an earlier one. -/
theorem overran_since {a : Authority} {p x q : Part} (h : Safety.overran a x q) (pre : p.evq.queue <+: x.evq.queue)
    (free : (p.entry .authority).latched = false → (x.entry .authority).latched = false) : Safety.overran a p q := by
  obtain ⟨flag, event, fault, latched, stage⟩ := h
  exact ⟨flag, posted_since event pre, fault, latched, stage ∘ free⟩

/-- And it stands on. -/
theorem overran_after {a : Authority} {p x q : Part} (h : Safety.overran a p x) (pre : p.evq.queue <+: x.evq.queue)
    (overrun : q.aut.overrun = x.aut.overrun) (moves : Moves countMay x q) : Safety.overran a p q := by
  obtain ⟨flag, event, fault, latched, stage⟩ := h
  obtain ⟨latched', -⟩ := moves.frame.latched (by decide) .authority (by decide) latched
  exact ⟨overrun.trans flag, posted_more event pre (moves.frame.pre (by decide)), flagged_moves fault moves (by decide), latched',
    fun free => latched_after (stage free) (by decide) moves (by decide)⟩

/-! ### A handover (R96) -/

/-- NEXT has become CURRENT, and dc and the request flag follow. -/
def tookOver (p : Part) : Part := autNumbers (p.withAut { p.aut with current := p.aut.next, next := none })

theorem handOver_stands (p : Part) : (handOver p).aut = (tookOver p).aut ∧ (handOver p).odo = p.odo ∧ (handOver p).prf = p.prf := by
  obtain ⟨aut, odo⟩ := ssuEvaluate_aut (handReport (post .authHandover (currentId (tookOver p)) (tookOver p)))
  have report := handReport_elsewhere (post .authHandover (currentId (tookOver p)) (tookOver p))
  have prf : (handReport (post .authHandover (currentId (tookOver p)) (tookOver p))).prf = p.prf :=
    (handReport_moves (H := []) (Moves.refl _)).frame.prf (by decide)
  exact ⟨aut.trans report.aut, odo.trans report.odo, (ssuEvaluate_prf _).trans prf⟩

theorem handOver_same (p : Part) : SameEntry .authority p (handOver p) := by
  have report : SameEntry .authority p (handReport (post .authHandover (currentId (tookOver p)) (tookOver p))) :=
    .of_brk (handReport_elsewhere _).brk
  exact report.trans (ssuEvaluate_same (by decide) _)

theorem handOver_posted {p : Part} {n : Authority} (next : p.aut.next = some n) :
    Safety.posted .authHandover n.id p (handOver p) ∧ p.evq.queue <+: (handOver p).evq.queue := by
  have after : Moves [] (post .authHandover (currentId (tookOver p)) (tookOver p)) (handOver p) :=
    ssuEvaluate_moves (handReport_moves (Moves.refl _))
  have pre := after.frame.pre (by decide)
  rw [← currentId_of (p := tookOver p) next]
  exact ⟨posted_of (x := tookOver p) (List.prefix_refl _) pre, List.IsPrefix.trans (Evq.posting_prefix _ _ _ _ _ _) pre⟩

theorem handOver_numbered (p : Part) : Numbered (handOver p) := by
  obtain ⟨aut, odo, prf⟩ := handOver_stands p
  have slots : (handOver p).aut.current = (tookOver p).aut.current ∧ (handOver p).aut.next = (tookOver p).aut.next
      ∧ (handOver p).aut.dc = (tookOver p).aut.dc ∧ (handOver p).aut.request = (tookOver p).aut.request := by
    rw [aut]; exact ⟨rfl, rfl, rfl, rfl⟩
  exact (autNumbers_numbered _).congr (p := tookOver p) slots (congrArg Odo.pos odo) prf fun lost => (congrArg Odo.validity odo).trans lost

/-! ### The judging -/

theorem autJudge_within {p : Part} (h : 0 ≤ p.currentDistance) : autJudge true p = autNumbers p := by
  unfold autJudge
  exact if_neg (not_lt.2 h)

theorem autJudge_passes {p : Part} {n : Authority} (h : p.currentDistance < 0) (next : p.aut.next = some n) :
    autJudge true p = if (handOver (autNumbers p)).aut.dc < 0 then overrun (handOver (autNumbers p)) else handOver (autNumbers p) := by
  unfold autJudge
  extract_lets before q r
  rw [if_pos (show q.aut.dc < 0 from h), if_pos (show q.aut.next.isSome = true by show p.aut.next.isSome = true; rw [next]; rfl)]
  simp only [Bool.true_and, decide_eq_true_eq]
  rfl

theorem autJudge_leaves {p : Part} (h : p.currentDistance < 0) (empty : p.aut.next = none) :
    autJudge true p = if 0 ≤ p.aut.dc then overrun (autNumbers p) else autNumbers p := by
  unfold autJudge
  extract_lets before q r
  rw [if_pos (show q.aut.dc < 0 from h), if_neg (show ¬ q.aut.next.isSome = true by show ¬ p.aut.next.isSome = true; rw [empty]; decide)]
  simp only [Bool.true_and, decide_eq_true_eq]
  rfl

/-- What AUT's judging leaves of the slots and the overrun flag: `Safety.endJudged` without dc and the request flag (R96, R97). -/
def EndTaken (a : Authority) (p q : Part) : Prop :=
  (0 ≤ Safety.countsToEnd a q → q.aut.current = some a ∧ q.aut.next = p.aut.next ∧ q.aut.overrun = p.aut.overrun)
  ∧ (Safety.countsToEnd a q < 0 → ∀ n, p.aut.next = some n →
      q.aut.current = some n ∧ q.aut.next = none ∧ Safety.posted .authHandover n.id p q
      ∧ (0 ≤ Safety.countsToEnd n q → q.aut.overrun = p.aut.overrun) ∧ (Safety.countsToEnd n q < 0 → Safety.overran n p q))
  ∧ (Safety.countsToEnd a q < 0 → p.aut.next = none →
      q.aut.current = some a ∧ q.aut.next = none
      ∧ (0 ≤ p.aut.dc → Safety.overran a p q) ∧ (p.aut.dc < 0 → q.aut.overrun = p.aut.overrun))

theorem endJudged_of {a : Authority} {p q : Part} (numbers : Numbered q) (taken : EndTaken a p q) : Safety.endJudged a p q :=
  ⟨fun _ current known => numbers.counts current known, taken⟩

theorem overrun_numbered {p : Part} (test : p.brk.test = none) (h : Numbered p) : Numbered (overrun p) := by
  have frame := (overrun_after p).frame
  have slots : (overrun p).aut.current = p.aut.current ∧ (overrun p).aut.next = p.aut.next ∧ (overrun p).aut.dc = p.aut.dc
      ∧ (overrun p).aut.request = p.aut.request := by
    rw [overrun_aut test]; exact ⟨rfl, rfl, rfl, rfl⟩
  obtain ⟨-, -, -, pos, -⟩ := frame.odo (by decide)
  exact h.congr slots pos (frame.prf (by decide)) (Moves.sameTrack (overrun_after p)).known.2

section
variable {p : Part} {a : Authority} (test : p.brk.test = none) (current : p.aut.current = some a) (known : p.odo.validity ≠ .unknown)

theorem autJudge_road (p : Part) : Moves roadMay p (autJudge true p) :=
  autJudge_moves true (by decide) (by decide) (by decide) (Moves.refl p)

/-- The judging moves no count. -/
theorem autJudge_counts (n : Authority) (p : Part) : Safety.countsToEnd n (autJudge true p) = Safety.countsToEnd n p := by
  obtain ⟨-, -, -, pos, -⟩ := (autJudge_road p).frame.odo (by decide)
  exact countsToEnd_congr pos ((autJudge_road p).frame.prf (by decide))

include test

theorem handOver_test (held : p.aut.next.isSome = true) : (handOver p).brk.test = none := (handOver_paced (.refl test) held).test

/-- Behind the judging dc and the request flag are found (R95). -/
theorem autJudge_numbered : Numbered (autJudge true p) := by
  rcases lt_or_ge p.currentDistance 0 with beyond | within
  · cases next : p.aut.next with
    | some n =>
      rw [autJudge_passes beyond next]
      split
      · exact overrun_numbered (handOver_test (p := autNumbers p) test (by show p.aut.next.isSome = true; rw [next]; rfl))
          (handOver_numbered _)
      · exact handOver_numbered _
    | none =>
      rw [autJudge_leaves beyond next]
      split; exacts [overrun_numbered (p := autNumbers p) test (autNumbers_numbered p), autNumbers_numbered p]
  · rw [autJudge_within within]
    exact autNumbers_numbered p

theorem autJudge_travel : (autJudge true p).aut.travel = p.aut.travel := by
  rcases lt_or_ge p.currentDistance 0 with beyond | within
  · cases next : p.aut.next with
    | some n =>
      have handed : (handOver (autNumbers p)).aut.travel = p.aut.travel := by rw [(handOver_stands _).1]; rfl
      rw [autJudge_passes beyond next]
      split
      · rw [overrun_aut (handOver_test (p := autNumbers p) test (by show p.aut.next.isSome = true; rw [next]; rfl))]
        exact handed
      · exact handed
    | none =>
      rw [autJudge_leaves beyond next]
      split
      · rw [overrun_aut (p := autNumbers p) test]; rfl
      · rfl
  · rw [autJudge_within within]; rfl

include known

/-- CURRENT ends behind the car and NEXT is held: NEXT takes over, and is overrun where its end lies behind the car as well. -/
theorem autJudge_handsOver {n : Authority} (beyond : p.currentDistance < 0) (next : p.aut.next = some n) :
    (autJudge true p).aut.current = some n ∧ (autJudge true p).aut.next = none
    ∧ Safety.posted .authHandover n.id p (autJudge true p)
    ∧ (0 ≤ Safety.countsToEnd n p → (autJudge true p).aut.overrun = p.aut.overrun)
    ∧ (Safety.countsToEnd n p < 0 → Safety.overran n p (autJudge true p)) := by
  have test' := handOver_test (p := autNumbers p) test (by show p.aut.next.isSome = true; rw [next]; rfl)
  obtain ⟨aut, odo, prf⟩ := handOver_stands (autNumbers p)
  have current' : (handOver (autNumbers p)).aut.current = some n := by rw [aut]; exact next
  have empty : (handOver (autNumbers p)).aut.next = none := by rw [aut]; rfl
  have flag : (handOver (autNumbers p)).aut.overrun = p.aut.overrun := by rw [aut]; rfl
  have known' : (handOver (autNumbers p)).odo.validity ≠ .unknown := by rw [odo]; exact known
  have dc : (handOver (autNumbers p)).aut.dc = Safety.countsToEnd n p :=
    ((handOver_numbered _).counts current' known').1.trans (countsToEnd_congr (congrArg Odo.pos odo) prf)
  obtain ⟨event, pre⟩ := handOver_posted (p := autNumbers p) next
  have since : Safety.posted .authHandover n.id p (handOver (autNumbers p)) := event
  rw [autJudge_passes beyond next, dc]
  split
  · rename_i beyond'
    have overruns := overrun_overruns test' current'
    rw [overrun_aut test']
    refine ⟨current', empty, posted_more since pre ?_, fun here => absurd beyond' (not_lt.2 here), fun _ => ?_⟩
    · exact List.IsPrefix.trans (Evq.posting_prefix _ _ _ _ _ _) ((overrun_after _).frame.pre (by decide))
    · exact overran_since overruns pre fun free => by rw [handOver_same (autNumbers p)]; exact free
  · rename_i within'
    exact ⟨current', empty, since, fun _ => flag, fun beyond' => absurd beyond' within'⟩

include current

/-- AUT's judging of CURRENT's end at a count of the source (R96, R97). -/
theorem autJudge_taken : EndTaken a p (autJudge true p) := by
  have distance := currentDistance_counts current known
  unfold EndTaken
  simp only [autJudge_counts, ← distance]
  refine ⟨fun within => ?_, fun beyond n next => autJudge_handsOver test known beyond next, fun beyond empty => ?_⟩
  · rw [autJudge_within within]
    exact ⟨current, rfl, rfl⟩
  · rw [autJudge_leaves beyond empty]
    split
    · rename_i crosses
      have overruns := overrun_overruns (p := autNumbers p) test current
      rw [overrun_aut (p := autNumbers p) test]
      exact ⟨current, empty, fun _ => overruns, fun before => absurd crosses (not_le.2 before)⟩
    · rename_i before
      exact ⟨current, empty, fun crosses => absurd crosses before, fun _ => rfl⟩

end

end Sys2Proof.Machine
end

section
/-! What the parts of a count leave of the authority table behind AUT's judging (R95 to R97, R102). -/

namespace Sys2Proof.Machine

/-- The slots and the overrun flag stand, and dc and the request flag keep up with the position (R95). -/
structure AutHeld (p q : Part) : Prop where
  moves : Moves countMay p q
  current : q.aut.current = p.aut.current
  next : q.aut.next = p.aut.next
  overrun : q.aut.overrun = p.aut.overrun
  numbered : Numbered p → Numbered q

/-- The same, and the travel record stands. -/
structure AutStands (p q : Part) : Prop extends AutHeld p q where
  travel : q.aut.travel = p.aut.travel

section
variable {p q r : Part}

theorem AutHeld.trans (h : AutHeld p q) (k : AutHeld q r) : AutHeld p r :=
  ⟨h.moves.trans k.moves, k.current.trans h.current, k.next.trans h.next, k.overrun.trans h.overrun, k.numbered ∘ h.numbered⟩

theorem AutStands.trans (h : AutStands p q) (k : AutStands q r) : AutStands p r :=
  ⟨h.toAutHeld.trans k.toAutHeld, k.travel.trans h.travel⟩

theorem AutStands.refl (p : Part) : AutStands p p := ⟨⟨Moves.refl p, rfl, rfl, rfl, id⟩, rfl⟩

/-- A change of the travel record alone, with which a lost position stays lost. -/
theorem AutHeld.of_moves (moves : Moves countMay p q) (lost : p.odo.validity = .unknown → q.odo.validity = .unknown)
    (aut : q.aut = { p.aut with travel := q.aut.travel }) : AutHeld p q := by
  obtain ⟨-, -, -, pos, -⟩ := moves.frame.odo (by decide)
  have slots : q.aut.current = p.aut.current ∧ q.aut.next = p.aut.next ∧ q.aut.dc = p.aut.dc ∧ q.aut.request = p.aut.request := by
    rw [aut]; exact ⟨rfl, rfl, rfl, rfl⟩
  refine ⟨moves, slots.1, slots.2.1, ?_, fun h => h.congr slots pos (moves.frame.prf (by decide)) lost⟩
  rw [aut]

theorem AutHeld.of_road (moves : Moves roadMay p q) (aut : q.aut = { p.aut with travel := q.aut.travel }) : AutHeld p q :=
  .of_moves (moves.mono (List.subset_cons_self _ _)) (Moves.sameTrack moves).known.2 aut

theorem AutStands.of_moves (moves : Moves countMay p q) (lost : p.odo.validity = .unknown → q.odo.validity = .unknown)
    (aut : q.aut = p.aut) : AutStands p q :=
  ⟨.of_moves moves lost (by rw [aut]), congrArg Aut.travel aut⟩

theorem AutStands.of_road (moves : Moves roadMay p q) (aut : q.aut = p.aut) : AutStands p q :=
  ⟨.of_road moves (by rw [aut]), congrArg Aut.travel aut⟩

/-! ### One lemma per part of the count -/

theorem ssuEvaluate_autStands (p : Part) : AutStands p (ssuEvaluate p) :=
  .of_road (ssuEvaluate_moves (Moves.refl p)) (ssuEvaluate_aut p).1

theorem sideChecks_autStands (p : Part) : AutStands p (sideChecks p) :=
  .of_road (sideChecks_moves (by decide) (by decide) (Moves.refl p)) (sideChecks_stands p).1

theorem handleJudge_autStands (test : p.brk.test = none) : AutStands p (handleJudge p) :=
  .of_road (handleJudge_moves (by decide) (by decide) (Moves.refl p)) (handleJudge_idle_aut test)

theorem deviationCount_autStands (test : p.brk.test = none) : AutStands p (deviationCount p) :=
  .of_moves (deviationCount_moves (by decide) countTravel (Moves.refl p)) (deviationCount_onTrack p).known.2 (deviationCount_idle_aut test)

theorem reverseCount_autStands (c : Dir) (test : p.brk.test = none) : AutStands p (reverseCount c p) :=
  .of_road (reverseCount_moves c roadTravel (Moves.refl p)) (reverseCount_idle_aut c test)

theorem creepCount_autHeld (test : p.brk.test = none) : AutHeld p (creepCount p) :=
  .of_road (creepCount_moves roadTravel (Moves.refl p)) (creepCount_idle_aut test)

/-- Behind a change of validity dc and the request flag are found anew (R95). -/
theorem spreadValidity_autStands (moves : Moves countMay p q) (aut : q.aut = p.aut) : AutStands p (spreadValidity q) := by
  obtain ⟨evaluated, odo⟩ := ssuEvaluate_aut (autNumbers q)
  obtain ⟨sides, odo'⟩ := sideChecks_stands (ssuEvaluate (autNumbers q))
  have spread : (spreadValidity q).aut = (autNumbers q).aut := sides.trans evaluated
  have place : (spreadValidity q).odo = q.odo := odo'.trans odo
  have after : Moves countMay q (spreadValidity q) := spreadValidity_moves (by decide) (by decide) (Moves.refl q)
  have numbers : Numbered (spreadValidity q) := by
    refine (autNumbers_numbered q).congr (by rw [spread]; exact ⟨rfl, rfl, rfl, rfl⟩) (by rw [place]; rfl)
      (after.frame.prf (by decide)) fun lost => ?_
    rw [place]; exact lost
  refine ⟨⟨moves.trans after, ?_, ?_, ?_, fun _ => numbers⟩, ?_⟩ <;> rw [spread, ← aut] <;> rfl

theorem mismatchTaken_autStands (r : MismatchReason) (p : Part) : AutStands p (mismatchTaken r p) :=
  spreadValidity_autStands (mismatch_moves (by decide) r (Moves.refl p)) (mismatch_only r (.refl p)).aut

theorem entryCount_autStands (e : Encoder) (c : Dir) (ran : Bool) (test : p.brk.test = none) : AutStands p (entryCount e c ran p) := by
  unfold entryCount
  split
  · rename_i x check
    split
    · have counted : Paced p (p.withOdo { p.odo with entry := some (x.count e c) }) := (Paced.refl test).withOdo _ rfl rfl
      have judged : OdoOnly p (captureWatch (entryJudge (p.withOdo { p.odo with entry := some (x.count e c) })).1) :=
        captureWatch_only (entryJudge_only ((OdoOnly.refl p).withOdo _))
      refine spreadValidity_autStands ?_
        ((odoRequests_idle_aut _ (captureWatch_paced (entryJudge_paced counted)).test).trans judged.aut)
      refine odoRequests_moves _ (by decide) (by decide) (captureWatch_moves (by decide) (entryJudge_moves (by decide) ?_))
      exact odo_moves _ ⟨rfl, rfl, rfl, rfl, rfl, rfl, rfl, rfl, rfl, rfl⟩ (fun off => absurd (by decide) off) (Moves.refl p)
    · exact .refl p
  · exact .refl p

/-- A capture that goes on. -/
theorem captureOn_autStands (x : Capture) (p : Part) : AutStands p (p.withOdo { p.odo with capture := x }) :=
  .of_moves (odo_moves _ ⟨rfl, rfl, rfl, rfl, rfl, rfl, rfl, rfl, rfl, rfl⟩ (fun off => absurd (by decide) off) (Moves.refl p)) id rfl

theorem captureCount_autStands (c : Dir) (p : Part) : AutStands p (captureCount c p) := by
  unfold captureCount
  split
  · exact .refl p
  · split
    · exact mismatchTaken_autStands _ p
    · split; exacts [mismatchTaken_autStands _ p, captureOn_autStands _ p]
  · split; exacts [mismatchTaken_autStands _ p, captureOn_autStands _ p]

/-! ### The travel record -/

/-- The travel record as a count leaves it (R102). -/
def TravelRecord.counted (a : Authority) (c : Dir) (t : TravelRecord) : TravelRecord :=
  if a.dir = c then .with_ else if t = .none then .against else t

/-- The part with its travel record. -/
def withTravel (t : TravelRecord) (p : Part) : Part := p.withAut { p.aut with travel := t }

/-- A count that finds a new travel record, with the request of AUTHORITY that goes with it (R102). -/
def travelTurned (t : TravelRecord) (p : Part) : Part :=
  follow .authority (if t = .against then .s3 else .released) (if t = .against then 1 else 0) (withTravel t p)

theorem travelCount_eq {c : Dir} {p : Part} {a : Authority} (current : p.aut.current = some a) :
    travelCount c p = if p.aut.travel.counted a c = p.aut.travel then p else travelTurned (p.aut.travel.counted a c) p := by
  unfold travelCount
  rw [current]
  unfold travelTurned
  simp only [beq_iff_eq]
  change (if p.aut.travel.counted a c = p.aut.travel then p
    else if p.aut.travel.counted a c = .against then follow .authority .s3 1 (withTravel (p.aut.travel.counted a c) p)
    else follow .authority .released 0 (withTravel (p.aut.travel.counted a c) p)) = _
  split
  · rfl
  · by_cases against : p.aut.travel.counted a c = .against
    · rw [if_pos against, if_pos against, if_pos against]
    · rw [if_neg against, if_neg against, if_neg against]

theorem travelTurned_aut (t : TravelRecord) (test : p.brk.test = none) : (travelTurned t p).aut = { p.aut with travel := t } := by
  unfold travelTurned
  rw [follow_eq (p := withTravel t p) test, (followEntry_requested _ _ _ _).rest]
  rfl

theorem travelCount_autHeld (c : Dir) (test : p.brk.test = none) : AutHeld p (travelCount c p) := by
  refine .of_road (travelCount_moves c (by decide) (by decide) (Moves.refl p)) ?_
  cases current : p.aut.current with
  | none => unfold travelCount; rw [current]
  | some a =>
    rw [travelCount_eq current]
    split
    · rfl
    · rw [travelTurned_aut _ test]

/-- The request that goes with the record: a free entry takes its stage. -/
theorem travelTurned_stage (t : TravelRecord) (test : p.brk.test = none) (free : ((travelTurned t p).entry .authority).latched = false) :
    ((travelTurned t p).entry .authority).stage = if t = .against then .s3 else .released := by
  unfold travelTurned at free ⊢
  rw [follow_eq (p := withTravel t p) test] at free ⊢
  cases held : (p.entry .authority).latched with
  | false => exact (followEntry_entry .authority _ _ (withTravel t p) held).1
  | true =>
    rw [followEntry_latched .authority _ _ (withTravel t p) held] at free
    exact absurd held (by rw [show (p.entry .authority).latched = false from free]; decide)

/-- A count moves the travel record, and the AUTHORITY entry with it (R102). -/
theorem travelCount_records {c : Dir} {a : Authority} (test : p.brk.test = none) (current : p.aut.current = some a) :
    Safety.travelRecorded a c p (travelCount c p) := by
  have record : (travelCount c p).aut.travel = p.aut.travel.counted a c := by
    rw [travelCount_eq current]
    split
    · rename_i same; exact same.symm
    · rw [travelTurned_aut _ test]
  refine ⟨record, fun free turned => ?_⟩
  rw [record] at turned ⊢
  rw [travelCount_eq current, if_neg turned] at free ⊢
  exact travelTurned_stage _ test free

end

end Sys2Proof.Machine
end

section
/-! A count of the source judges CURRENT's end, and one of the motion encoder keeps the travel record (R95 to R97, R102); O40 assembled. -/

namespace Sys2Proof.Machine

/-! ### No brake test begins on the way -/

/-- The reverse counter starts no brake test and leaves the mode. -/
theorem reverseCount_idle_mod (c : Dir) {x : Part} (test : x.brk.test = none) :
    (reverseCount c x).brk.test = none ∧ (reverseCount c x).mod = x.mod := by
  have latched := latch_paced .rollback .emergency 2 (post_paced .rollback 1 (Paced.refl (p := reverseRaised x) test))
  unfold reverseCount
  split
  · split
    · exact ⟨test, rfl⟩
    · simp only
      split; exacts [⟨latched.test, latched.mod⟩, ⟨test, rfl⟩]
  · exact ⟨test, rfl⟩

section
variable {e : Encoder} {c : Dir} {p : Part} (test : p.brk.test = none)
include test

theorem placedBy_test : (placedBy e c p).brk.test = none := by
  unfold placedBy
  split <;> exact (tallied_paced test).test

theorem positioned_test : (positioned e c p).brk.test = none := by
  unfold positioned
  split; exacts [(moveTo_paced c (.refl (placedBy_test test))).test, placedBy_test test]

theorem deviated_test : (deviated e c p).brk.test = none := by
  unfold deviated
  split; exacts [positioned_test test, (deviationCount_paced (.refl (positioned_test test))).test]

end

/-! ### From the position to the end of the count -/

section
variable {e : Encoder} {c : Dir} {p : Part}

theorem entryTaken_autStands (test : p.brk.test = none) : AutStands (positioned e c p) (entryTaken e c p) := by
  have drift : AutStands (positioned e c p) (deviated e c p) := by
    unfold deviated
    split; exacts [.refl _, deviationCount_autStands (positioned_test test)]
  exact drift.trans (entryCount_autStands _ _ _ (deviated_test test))

theorem captured_autStands (test : p.brk.test = none) : AutStands (positioned e c p) (captured e c p) :=
  (entryTaken_autStands test).trans (captureCount_autStands c _)

/-- The creep counter brings no car into RUN. -/
theorem creepCount_outsideRun {x : Part} (test : x.brk.test = none) (mode : x.mod.mode ≠ .run) : (creepCount x).mod.mode ≠ .run := by
  by_cases side : x.mod.mode = .stand ∨ x.mod.mode = .stabled
  · by_cases crosses : Safety.crossesAllowance x.odo.creep x
    · rw [creepCount_crossed side crosses]
      rcases side with stand | stabled
      · rw [(creepCrossed_stands (p := creepRaised x) test stand).2]; exact mode
      · rw [(creepCrossed_wakes (p := creepRaised x) test stabled).1]; decide
    · rw [creepCount_raised side crosses]; exact mode
  · unfold creepCount
    rw [if_neg (by simpa using side)]
    exact mode

/-- The counters and the travel record of a count of the motion encoder. -/
theorem recordTaken_autHeld {x : Part} (c : Dir) (test : x.brk.test = none) :
    AutHeld x (recordTaken true c (reverseCount c (creepCount x))) := by
  by_cases run : x.mod.mode = .run
  · rw [creepCount_idle run]
    have reversed := (reverseCount_autStands c test).toAutHeld
    unfold recordTaken
    split
    · exact reversed.trans (travelCount_autHeld c (reverseCount_idle_mod c test).1)
    · exact reversed
  · have idle := creepCount_outsideRun test run
    rw [reverseCount_idle idle]
    unfold recordTaken
    rw [if_neg (by simpa using idle)]
    exact creepCount_autHeld test

theorem closing_autHeld (test : p.brk.test = none) : AutHeld (positioned e c p) (closing e c p (entryTaken e c p)) := by
  by_cases motion : p.odo.motion = some e
  · rw [closing_motion motion]
    exact ((captured_autStands test).toAutHeld.trans (recordTaken_autHeld c (captured_paced test).test)).trans
      (ssuEvaluate_autStands _).toAutHeld
  · unfold closing
    rw [beq_false_of_ne motion]
    exact (entryTaken_autStands test).toAutHeld.trans (ssuEvaluate_autStands _).toAutHeld

/-- The end of the count finds the car moving, and only generation words rise. -/
theorem countEnd_generations (b : Part) (live : p.asserted = false) :
    ∃ g, countEnd e c p b = (closing e c p (entryTaken e c p)).withBridge
      { (closing e c p (entryTaken e c p)).bridge with generations := g } :=
  finish_eq b (by rw [closing_standstill e c p live, Bool.and_false, Bool.false_and])

theorem countEnd_autHeld (b : Part) (live : p.asserted = false) (test : p.brk.test = none) :
    AutHeld (positioned e c p) (countEnd e c p b) := by
  obtain ⟨g, same⟩ := countEnd_generations (e := e) (c := c) b live
  have ends : Moves roadMay (closing e c p (entryTaken e c p)) (countEnd e c p b) := toEnd b (by decide) (Moves.refl _)
  exact (closing_autHeld test).trans (AutStands.of_road ends (by rw [same]; rfl)).toAutHeld

end

/-! ### The count of the source -/

theorem EndTaken.since {a : Authority} {p x q : Part} (h : EndTaken a x q) (aut : x.aut = p.aut) (pre : p.evq.queue <+: x.evq.queue)
    (same : SameEntry .authority p x) : EndTaken a p q := by
  have free : (p.entry .authority).latched = false → (x.entry .authority).latched = false := fun free => by rw [same]; exact free
  unfold EndTaken at h ⊢
  rw [aut] at h
  obtain ⟨within, passed, crossed⟩ := h
  refine ⟨within, fun beyond n next => ?_, fun beyond empty => ?_⟩
  · obtain ⟨current, gone, event, here, overran⟩ := passed beyond n next
    exact ⟨current, gone, posted_since event pre, here, fun there => overran_since (overran there) pre free⟩
  · obtain ⟨current, empty', overran, before⟩ := crossed beyond empty
    exact ⟨current, empty', fun was => overran_since (overran was) pre free, before⟩

theorem EndTaken.after {a : Authority} {p x q : Part} (h : EndTaken a p x) (pre : p.evq.queue <+: x.evq.queue) (held : AutHeld x q) :
    EndTaken a p q := by
  obtain ⟨-, -, -, pos, -⟩ := held.moves.frame.odo (by decide)
  have counts (n : Authority) : Safety.countsToEnd n q = Safety.countsToEnd n x :=
    countsToEnd_congr pos (held.moves.frame.prf (by decide))
  have later := held.moves.frame.pre (by decide)
  unfold EndTaken at h ⊢
  simp only [counts, held.current, held.next, held.overrun]
  obtain ⟨within, passed, crossed⟩ := h
  refine ⟨within, fun beyond n next => ?_, fun beyond empty => ?_⟩
  · obtain ⟨current, gone, event, here, overran⟩ := passed beyond n next
    exact ⟨current, gone, posted_more event pre later, here, fun there => overran_after (overran there) pre held.overrun held.moves⟩
  · obtain ⟨current, empty', overran, before⟩ := crossed beyond empty
    exact ⟨current, empty', fun was => overran_after (overran was) pre held.overrun held.moves, before⟩

theorem placedBy_only (e : Encoder) (c : Dir) (p : Part) : OdoOnly p (placedBy e c p) := by
  have tallied : OdoOnly p (tallied e c p) := tallied_rest e c p
  unfold placedBy
  split; exacts [tallied.withOdo _, tallied]

/-- The part whose end AUT judges, at a count that stays in the segment. -/
def judgedAt (e : Encoder) (c : Dir) (p : Part) : Part := ssuEvaluate (captureWatch (placedBy e c p))

section
variable {e : Encoder} {c : Dir} {p : Part}

theorem judgedAt_aut : (judgedAt e c p).aut = p.aut :=
  (ssuEvaluate_aut _).1.trans (captureWatch_only (placedBy_only e c p)).aut

theorem judgedAt_same : SameEntry .authority p (judgedAt e c p) := by
  have placed : SameEntry .authority p (captureWatch (placedBy e c p)) := .of_brk (captureWatch_only (placedBy_only e c p)).brk
  exact placed.trans (ssuEvaluate_same (by decide) _)

theorem judgedAt_moves : Moves countMay (placedBy e c p) (judgedAt e c p) :=
  ssuEvaluate_moves (captureWatch_moves (by decide) (Moves.refl _))

theorem judgedAt_pre : p.evq.queue <+: (judgedAt e c p).evq.queue :=
  ((placedBy_moves e c p).frame.pre (by decide)).trans (judgedAt_moves.frame.pre (by decide))

theorem judgedAt_test (test : p.brk.test = none) : (judgedAt e c p).brk.test = none :=
  (ssuEvaluate_paced (captureWatch_paced (.refl (placedBy_test test)))).test

theorem judgedAt_known (known : p.odo.validity ≠ .unknown) : (judgedAt e c p).odo.validity ≠ .unknown := by
  have odo : (judgedAt e c p).odo = (captureWatch (placedBy e c p)).odo := (ssuEvaluate_aut _).2
  rw [odo]
  exact mt (captureWatch_sameTrack _).known.1 (placedBy_known known)

/-- A count of the source that stays in the segment judges the end, and then the doors and a deferred pull (R5). -/
theorem KeepsSegment.positioned_eq (h : KeepsSegment e c p) (src : movesPosition e p = true) :
    positioned e c p = handleJudge (sideChecks (ssuEvaluate (autJudge true (judgedAt e c p)))) := by
  have stays : followSegment c (placedBy e c p) = (placedBy e c p, []) :=
    followSegment_stays (by rw [placedBy_prf, (placedBy_standing e c p).segment]; exact h src)
  rw [positioned_source src]
  unfold moveTo
  rw [stays]
  rfl

theorem KeepsSegment.judgedHeld (h : KeepsSegment e c p) (src : movesPosition e p = true) (b : Part) (live : p.asserted = false)
    (test : p.brk.test = none) : AutHeld (autJudge true (judgedAt e c p)) (countEnd e c p b) := by
  have sides : Paced (judgedAt e c p) (sideChecks (ssuEvaluate (autJudge true (judgedAt e c p)))) :=
    sideChecks_paced (ssuEvaluate_paced (autJudge_paced true (.refl (judgedAt_test test))))
  have spread := (ssuEvaluate_autStands (autJudge true (judgedAt e c p))).trans (sideChecks_autStands _)
  have moved := spread.trans (handleJudge_autStands sides.test)
  rw [← h.positioned_eq src] at moved
  exact moved.toAutHeld.trans (countEnd_autHeld b live test)

/-- A count of the source that stays in the segment judges CURRENT's end (R95 to R97). -/
theorem KeepsSegment.judgesEnd (h : KeepsSegment e c p) (b : Part) {a : Authority} (source : p.odo.source.encoder? = some e)
    (known : p.odo.validity ≠ .unknown) (live : p.asserted = false) (test : p.brk.test = none) (current : p.aut.current = some a) :
    Safety.endJudged a p (countEnd e c p b) := by
  have held := h.judgedHeld ((movesPosition_iff e p).2 ⟨source, known⟩) b live test
  have test' : (judgedAt e c p).brk.test = none := judgedAt_test test
  have current' : (judgedAt e c p).aut.current = some a := by rw [judgedAt_aut]; exact current
  have taken := (autJudge_taken test' current' (judgedAt_known known)).since judgedAt_aut judgedAt_pre judgedAt_same
  have pre := judgedAt_pre.trans ((autJudge_road (judgedAt e c p)).frame.pre (by decide))
  exact endJudged_of (held.numbered (autJudge_numbered test')) (taken.after pre held)

/-! ### The count of the motion encoder -/

theorem spreadPosition_travel {x : Part} (test : x.brk.test = none) : (spreadPosition true x).aut.travel = x.aut.travel := by
  have evaluated : (ssuEvaluate x).brk.test = none := (ssuEvaluate_paced (.refl test)).test
  have sides : (sideChecks (ssuEvaluate (autJudge true (ssuEvaluate x)))).brk.test = none :=
    (sideChecks_paced (ssuEvaluate_paced (autJudge_paced true (.refl evaluated)))).test
  calc (spreadPosition true x).aut.travel
    _ = (sideChecks (ssuEvaluate (autJudge true (ssuEvaluate x)))).aut.travel := (handleJudge_autStands sides).travel
    _ = (ssuEvaluate (autJudge true (ssuEvaluate x))).aut.travel := (sideChecks_autStands _).travel
    _ = (autJudge true (ssuEvaluate x)).aut.travel := (ssuEvaluate_autStands _).travel
    _ = (ssuEvaluate x).aut.travel := autJudge_travel evaluated
    _ = x.aut.travel := (ssuEvaluate_autStands x).travel

theorem moveTo_travel (d : Dir) {x : Part} (test : x.brk.test = none) : (moveTo d x).aut.travel = x.aut.travel := by
  have followed : OdoOnly x (captureWatch (followSegment d x).1) := captureWatch_only (followSegment_only d (.refl x))
  have test' : (captureWatch (followSegment d x).1).brk.test = none := by rw [followed.brk]; exact test
  have asked := odoRequests_idle_aut (followSegment d x).2 test'
  exact (spreadPosition_travel (odoRequests_paced _ (.refl test')).test).trans (congrArg Aut.travel (asked.trans followed.aut))

/-- Up to the counters the travel record stands. -/
theorem captured_travel (test : p.brk.test = none) : (captured e c p).aut.travel = p.aut.travel := by
  have placed : (placedBy e c p).aut.travel = p.aut.travel := congrArg Aut.travel (placedBy_only e c p).aut
  have moved : (positioned e c p).aut.travel = (placedBy e c p).aut.travel := by
    unfold positioned
    split; exacts [moveTo_travel c (placedBy_test test), rfl]
  exact (captured_autStands test).travel.trans (moved.trans placed)

/-- A count of the motion encoder in RUN keeps the travel record (R102). -/
theorem count_records {a : Authority} (b : Part) (live : p.asserted = false) (test : p.brk.test = none)
    (motion : p.odo.motion = some e) (run : p.mod.mode = .run) (heads : Heads a.dir p) :
    Safety.travelRecorded a c p (countEnd e c p b) := by
  have paced := captured_paced (e := e) (c := c) test
  have run' : (captured e c p).mod.mode = .run := by rw [paced.mod]; exact run
  have reversed := reverseCount_autStands c paced.test
  obtain ⟨test', mod⟩ := reverseCount_idle_mod c paced.test
  obtain ⟨a', current, dir, -⟩ := paced.heads _ heads
  have travel := reversed.travel.trans (captured_travel test)
  have records := travelCount_records (c := c) test' (reversed.current.trans current)
  have ends := closing_motion (c := c) motion
  rw [creepCount_idle run'] at ends
  unfold recordTaken at ends
  rw [mod, run', if_pos (by decide)] at ends
  obtain ⟨g, same⟩ := countEnd_generations (e := e) (c := c) b live
  have aut : (countEnd e c p b).aut = (travelCount c (reverseCount c (captured e c p))).aut := by
    rw [same, ends]; exact (ssuEvaluate_aut _).1
  have entry : SameEntry .authority (travelCount c (reverseCount c (captured e c p))) (countEnd e c p b) := by
    rw [same, ends]; exact ssuEvaluate_same (by decide) _
  unfold Safety.travelRecorded at records ⊢
  rw [aut, entry, ← dir, ← travel]
  exact records

end

/-! ### The step -/

section
variable {e : Encoder} {c : Dir} {levels : BitVec 2} {p q : Part} {a : Authority}

theorem endJudged_linesTaken (h : Safety.endJudged a (linesTaken e levels p) q) : Safety.endJudged a p q := by
  cases e <;> exact h

theorem travelRecorded_linesTaken (h : Safety.travelRecorded a c (linesTaken e levels p) q) : Safety.travelRecorded a c p q := by
  cases e <;> exact h

/-- A count whose end lies in the segment the car stood in keeps it there. -/
theorem keepsSegment_of_staysWithin {b : Part} (stays : Safety.staysWithin p (countEnd e c (linesTaken e levels p) b)) :
    KeepsSegment e c (linesTaken e levels p) := by
  intro _
  rw [(linesTaken_standing e levels p).segment, ← countEnd_pos e c _ b]
  exact stays

end

/-- With no brake test running a count of the source judges CURRENT's end, and one of the motion encoder keeps the travel record. -/
theorem encoderStep_authority (e : Encoder) (levels : BitVec 2) (c : Dir) (s : State) (live : s.part.asserted = false)
    (ok : (s.part.odo.enc e).faulted = false) (step : Safety.follows (s.part.odo.enc e).quad levels c)
    (test : s.part.brk.test = none) :
    ∃ t, exec (.encoderStep e levels) s = .next t
      ∧ (s.part.odo.source.encoder? = some e → s.part.odo.validity ≠ .unknown →
          ∀ a, s.part.aut.current = some a → Safety.staysWithin s.part t.part → Safety.endJudged a s.part t.part)
      ∧ (s.part.odo.motion = some e → s.part.mod.mode = .run →
          ∀ a, s.part.aut.current = some a → (∀ n, s.part.aut.next = some n → n.dir = a.dir) →
          Safety.travelRecorded a c s.part t.part) := by
  refine encoderStep_acts live ok step test _ fun t part => ?_
  have stands := linesTaken_standing e levels s.part
  have motion : (linesTaken e levels s.part).odo.motion = s.part.odo.motion := motion_same s.part.odo e levels
  rw [part]
  refine ⟨fun source known a current stays => ?_, fun moves run a current next => ?_⟩
  · exact endJudged_linesTaken ((keepsSegment_of_staysWithin stays).judgesEnd s.part (by rw [stands.source]; exact source)
      (by rw [stands.validity]; exact known) live test current)
  · exact travelRecorded_linesTaken (count_records (p := linesTaken e levels s.part) s.part live test (motion.trans moves) run
      ⟨a, current, rfl, next⟩)

/-- Settles O40: what a delivered GRANT ends with, and what a count does to CURRENT's end and to the travel record. -/
theorem grants : Obligations.Grants := by
  unfold Obligations.Grants
  exact ⟨grant_answers, encoderStep_authority⟩

end Sys2Proof.Machine
end

section
/-! What leaves the deferred pull of a handle alone: everything but a pull itself, the judging of its release point, and the resets
(R135, R136). -/

namespace Sys2Proof.Machine

/-- The deferred pull stands. -/
def PullStands (p q : Part) : Prop := q.dor.deferred = p.dor.deferred

section
variable {p q r : Part}

theorem PullStands.refl (p : Part) : PullStands p p := rfl

theorem PullStands.trans (h : PullStands p q) (k : PullStands q r) : PullStands p r := Eq.trans k h

theorem PullStands.deferred (h : PullStands p q) : q.dor.deferred = p.dor.deferred := h

theorem PullStands.of_dor (h : PullStands p q) (same : r.dor = q.dor) : PullStands p r := h.trans (congrArg Dor.deferred same)

theorem PullStands.returned (h : PullStands p q) (k : Returned q r) : PullStands p r := h.of_dor k.dor

theorem PullStands.odoOnly (h : PullStands p q) (k : OdoOnly q r) : PullStands p r := h.of_dor (by rw [k]; rfl)

theorem PullStands.foldl {α : Type} (f : Part → α → Part) (hf : ∀ r a, PullStands p r → PullStands p (f r a)) (l : List α)
    (h : PullStands p q) : PullStands p (l.foldl f q) := by
  induction l generalizing q with
  | nil => exact h
  | cons a l ih => exact ih (hf _ _ h)

theorem post_pullStands (k : EventKind) (arg : Half) (h : PullStands p q) : PullStands p (post k arg q) := h

/-! ### Requests, and the brake test that they may abort (R44, R66) -/

theorem endTestOrder_pullStands (aborted : Bool) (w : Word) (h : PullStands p q) : PullStands p (endTestOrder aborted w q) := by
  unfold endTestOrder; split; exacts [h, h]

theorem endTest_pullStands (o : TestOutcome) (a : AbortReason) (w : Word) (h : PullStands p q) : PullStands p (endTest o a w q) := by
  unfold endTest
  extract_lets _ _ q1 q2 q3
  have ended : PullStands p q1 := h
  have left : PullStands p q2 := by
    simp only [q2]
    split
    · rename_i inTest
      exact ended.returned (toStand_returned _ _ (by rw [beq_iff_eq.1 inTest]; decide))
    · exact ended
  exact endTestOrder_pullStands _ _ (left.returned ((post_returned _ _ _ _ q2).trans (followEntry_returned _ _ _ _)))

theorem abortTest_pullStands (a : AbortReason) (h : PullStands p q) : PullStands p (abortTest a q) := by
  unfold abortTest
  split
  · rename_i t _
    have marked : PullStands p (markStep t.step .notRun q) := h
    exact endTest_pullStands _ _ _ marked
  · exact h

theorem afterRequest_pullStands (d : DemandSource) (before : Entry) (h : PullStands p q) : PullStands p (afterRequest d before q) := by
  unfold afterRequest
  split
  · split; exacts [abortTest_pullStands _ h, h]
  · exact h

theorem latch_pullStands (d : DemandSource) (s : Stage) (c : Nat) (h : PullStands p q) : PullStands p (latch d s c q) :=
  afterRequest_pullStands d _ (h.returned (latchEntry_returned d s c q))

theorem follow_pullStands (d : DemandSource) (s : Stage) (c : Nat) (h : PullStands p q) : PullStands p (follow d s c q) :=
  afterRequest_pullStands d _ (h.returned (followEntry_returned d s c q))

theorem odoRequests_pullStands (rs : OdoRequests) (h : PullStands p q) : PullStands p (odoRequests rs q) :=
  .foldl _ (fun _ _ => latch_pullStands _ _ _) rs h

/-! ### The radio's queue -/

theorem handAlarm_pullStands (k : AlarmKind) (h : PullStands p q) : PullStands p (handAlarm k q) := h.of_dor (handAlarm_dor k q)

theorem handReport_pullStands (h : PullStands p q) : PullStands p (handReport q) := by
  refine h.of_dor ?_
  unfold handReport
  simp only
  split
  · exact offer_dor _ q
  · exact offer_dor _ q

/-! ### Supervision and authority -/

theorem ssuEvaluate_pullStands (h : PullStands p q) : PullStands p (ssuEvaluate q) := h.returned (ssuEvaluate_returned q)

theorem autNumbers_pullStands (h : PullStands p q) : PullStands p (autNumbers q) := h

theorem overrun_pullStands (h : PullStands p q) : PullStands p (overrun q) := by
  have posted : PullStands p (overrunPosted q) := h
  rw [overrun_eq]
  refine handAlarm_pullStands _ ?_
  split; exacts [posted, latch_pullStands _ _ _ posted]

theorem handOver_pullStands (h : PullStands p q) : PullStands p (handOver q) := by
  have took : PullStands p (tookOver q) := h
  exact ssuEvaluate_pullStands (handReport_pullStands (post_pullStands _ _ took))

theorem autJudge_pullStands (travel : Bool) (h : PullStands p q) : PullStands p (autJudge travel q) := by
  have numbers := autNumbers_pullStands h
  have handed := handOver_pullStands numbers
  unfold autJudge
  extract_lets before q1 r
  split
  · split
    · split; exacts [overrun_pullStands handed, handed]
    · split; exacts [overrun_pullStands numbers, numbers]
  · exact numbers

/-- The travel record moves alone, or with the request of AUTHORITY. -/
theorem travelCount_pullStands (c : Dir) (h : PullStands p q) : PullStands p (travelCount c q) := by
  cases current : q.aut.current with
  | none => unfold travelCount; rw [current]; exact h
  | some a =>
    rw [travelCount_eq current]
    split; exacts [h, follow_pullStands _ _ _ (q := withTravel _ q) h]

/-! ### The doors -/

theorem formDoors_pullStands (h : PullStands p q) : PullStands p (formDoors q) := h.returned (formDoors_returned q)

theorem checkDoorOrders_pullStands (h : PullStands p q) : PullStands p (checkDoorOrders q) := h.trans (checkDoorOrders_deferred q)

theorem withdrawDoor_pullStands (d : Fin 8) (h : PullStands p q) : PullStands p (withdrawDoor d q) := by
  obtain ⟨doors, -⟩ := withdrawDoor_door d q
  refine h.trans ?_
  unfold PullStands
  rw [doors]; rfl

theorem setSide_pullStands (s : Side) (x : SideRec) (h : PullStands p q) : PullStands p (setSide s x q) := by
  cases s <;> exact h

theorem withdrawSide_pullStands (s : Side) (c : WithdrawCause) (h : PullStands p q) : PullStands p (withdrawSide s c q) := by
  unfold withdrawSide
  split
  · exact .foldl _ (fun _ d => withdrawDoor_pullStands d) _ (post_pullStands _ _ (setSide_pullStands s _ h))
  · exact h

theorem sideCheck_pullStands (s : Side) (h : PullStands p q) : PullStands p (sideCheck s q) := by
  unfold sideCheck; split; exacts [withdrawSide_pullStands _ _ h, h]

theorem sideChecks_pullStands (h : PullStands p q) : PullStands p (sideChecks q) :=
  checkDoorOrders_pullStands (formDoors_pullStands (sideCheck_pullStands .right (sideCheck_pullStands .left h)))

theorem afterDoors_pullStands (before : Part) (h : PullStands p q) : PullStands p (afterDoors before q) := by
  unfold afterDoors
  refine checkDoorOrders_pullStands ?_
  split; exacts [abortTest_pullStands _ (formDoors_pullStands h), formDoors_pullStands h]

/-! ### A wake, and the end of a command -/

theorem modeDor_pullStands (h : PullStands p q) : PullStands p (modeDor q) := by
  unfold modeDor
  split
  · exact checkDoorOrders_pullStands (formDoors_pullStands (withdrawSide_pullStands .right _ (withdrawSide_pullStands .left _ h)))
  · exact formDoors_pullStands h

theorem modeRlc_pullStands (old : Mode) (h : PullStands p q) : PullStands p (modeRlc old q) := by
  unfold modeRlc
  split
  · exact h
  · split; exacts [handReport_pullStands h, h]

theorem toStand_pullStands (cause : ModeCause) (k : EventKind) (arg : Half) (h : PullStands p q) :
    PullStands p (changeMode .stand cause (post k arg) q) := by
  unfold changeMode
  extract_lets old was _ q1 q2
  have posted : PullStands p q1 := h
  have handed : Returned q1 (modeOdo (modeAut old (modeSsu old (patternChanged was (requestMode q1))))) :=
    ((((requestMode_requested q1).returned.trans (patternChanged_only was _).returned).trans (modeSsu_returned old _)).trans
      (modeAut_returned old _)).trans (modeOdo_returned _)
  rw [if_neg (by simp)]
  exact modeRlc_pullStands old (modeDor_pullStands (posted.returned handed))

theorem wakeCar_pullStands (w : WakeReason) (h : PullStands p q) : PullStands p (wakeCar w q) := by
  unfold wakeCar
  split; exacts [toStand_pullStands _ _ _ (h.of_dor rfl), h]

theorem finish_pullStands (b : Part) (h : PullStands p q) : PullStands p (finish b q) := h.returned (finish_returned b q)

/-! ### What a count does behind the new position -/

theorem spreadValidity_pullStands (h : PullStands p q) : PullStands p (spreadValidity q) :=
  sideChecks_pullStands (ssuEvaluate_pullStands (autNumbers_pullStands h))

theorem afterChange_pullStands {x : Part × OdoRequests} (h : PullStands p x.1) : PullStands p (afterChange x) :=
  spreadValidity_pullStands (odoRequests_pullStands _ (h.odoOnly (captureWatch_only (.refl _))))

theorem mismatchTaken_pullStands (m : MismatchReason) (h : PullStands p q) : PullStands p (mismatchTaken m q) :=
  spreadValidity_pullStands (h.odoOnly (mismatch_only m (.refl q)))

theorem deviationCount_pullStands (h : PullStands p q) : PullStands p (deviationCount q) := by
  have moved : PullStands p (drifted q) := h
  cases on : q.odo.climbOn with
  | false => rw [deviationCount_off on]; exact h
  | true =>
    rw [deviationCount_on on]
    split; exacts [handAlarm_pullStands _ (latch_pullStands _ _ _ (post_pullStands _ _ moved)), moved]

theorem entryCount_pullStands (e : Encoder) (c : Dir) (ran : Bool) (h : PullStands p q) : PullStands p (entryCount e c ran q) := by
  unfold entryCount
  split
  · split
    · exact afterChange_pullStands (h.odoOnly (entryJudge_only ((OdoOnly.refl q).withOdo _)))
    · exact h
  · exact h

theorem captureCount_pullStands (c : Dir) (h : PullStands p q) : PullStands p (captureCount c q) := by
  unfold captureCount
  split
  · exact h
  · split
    · exact mismatchTaken_pullStands _ h
    · split; exacts [mismatchTaken_pullStands _ h, h]
  · split; exacts [mismatchTaken_pullStands _ h, h]

theorem creepCrossed_pullStands (h : PullStands p q) : PullStands p (creepCrossed q) := by
  have latched := latch_pullStands .rollback .emergency 1 (post_pullStands .rollback 0 h)
  by_cases stabled : q.mod.mode = .stabled
  · rw [creepCrossed_inStabled stabled]
    exact wakeCar_pullStands _ (handAlarm_pullStands _ (latched.of_dor rfl))
  · rw [creepCrossed_inStand stabled]; exact latched

theorem creepCount_pullStands (h : PullStands p q) : PullStands p (creepCount q) := by
  have raised : PullStands p (creepRaised q) := h
  unfold creepCount
  split
  · simp only
    split; exacts [creepCrossed_pullStands raised, raised]
  · exact h

theorem reverseCount_pullStands (c : Dir) (h : PullStands p q) : PullStands p (reverseCount c q) := by
  have raised : PullStands p (reverseRaised q) := h
  unfold reverseCount
  split
  · split
    · exact h
    · simp only
      split; exacts [latch_pullStands _ _ _ (post_pullStands _ _ raised), raised]
  · exact h

theorem countersTaken_pullStands (moves : Bool) (c : Dir) (h : PullStands p q) : PullStands p (countersTaken moves c q) := by
  unfold countersTaken
  split; exacts [reverseCount_pullStands c (creepCount_pullStands (captureCount_pullStands c h)), h]

theorem recordTaken_pullStands (moves : Bool) (c : Dir) (h : PullStands p q) : PullStands p (recordTaken moves c q) := by
  unfold recordTaken
  split; exacts [travelCount_pullStands c h, h]

end

/-- Behind the new position a count leaves the deferred pull. -/
theorem countEnd_pullStands (e : Encoder) (c : Dir) (p b : Part) : PullStands (positioned e c p) (countEnd e c p b) := by
  have drifted : PullStands (positioned e c p) (deviated e c p) := by
    unfold deviated
    split; exacts [.refl _, deviationCount_pullStands (.refl _)]
  have checked : PullStands (positioned e c p) (entryTaken e c p) := entryCount_pullStands e c _ drifted
  exact finish_pullStands b (ssuEvaluate_pullStands (recordTaken_pullStands _ c (countersTaken_pullStands _ c checked)))

end Sys2Proof.Machine
end

section
/-! The emergency handles: a pull, and the release point of a deferred one (R135, R136); O33 assembled. -/

namespace Sys2Proof.Machine

/-! ### A no-stop segment under the car (R135) -/

/-- A no-stop segment overlaps the car extent. -/
def OverNoStop (p : Part) : Prop := ∃ r stop, Safety.segmentEnds p r stop ∧ r.noStop = true ∧ Safety.overlapsCar p r.start stop

theorem noStopHere_iff (p : Part) : noStopHere p = true ↔ p.odo.validity ≠ .unknown ∧ OverNoStop p := by
  unfold noStopHere OverNoStop
  rw [Bool.and_eq_true, bne_iff_ne, List.any_eq_true]
  simp only [Prod.exists, mem_segments, Bool.and_eq_true, overlaps_iff]

/-- It hangs on the profile and the position alone. -/
theorem overNoStop_congr {p q : Part} (prf : q.prf = p.prf) (pos : q.odo.pos = p.odo.pos) : OverNoStop q ↔ OverNoStop p := by
  unfold OverNoStop Safety.segmentEnds Safety.overlapsCar
  rw [prf, pos]

/-! ### The release point (R136) -/

theorem handleJudge_releases {p : Part} (held : p.dor.deferred.isSome = true) (point : p.odo.standstill = true ∨ noStopHere p = false) :
    (handleJudge p).dor.deferred = none ∧ Safety.latchedAt .handle .s3 (handleJudge p) := by
  unfold handleJudge
  rw [if_pos (by rw [held, Bool.true_and, Bool.or_eq_true, Bool.not_eq_true']; exact point)]
  exact ⟨latch_pullStands .handle .s3 2 (PullStands.refl _), latch_latched _ _ _ (by decide) _⟩

theorem handleJudge_waits {p : Part} (moving : p.odo.standstill = false) (covered : noStopHere p = true) : handleJudge p = p := by
  unfold handleJudge
  rw [moving, covered, if_neg (by simp)]

/-- Standstill releases a deferred pull. -/
theorem standstillTimerExpiry_releases (s : State) (due : s.part.due s.part.odo.standTimer s.part.prf.settings.standstillTime = true)
    (live : s.part.asserted = false) (moving : s.part.odo.standstill = false) (held : s.part.dor.deferred.isSome = true) :
    ∃ t, exec .standstillTimerExpiry s = .next t ∧ t.part.dor.deferred = none ∧ Safety.latchedAt .handle .s3 t.part := by
  refine partRow_ends standstillExpiry s _ fun t part _ _ => ?_
  have starts : standstillExpiry s.part = standstillStarts s.part := by
    unfold standstillExpiry
    rw [if_pos (by rw [due, live]; rfl), if_neg (by rw [moving]; decide)]
  obtain ⟨released, latched⟩ := handleJudge_releases (p := post .standstill 0
    (s.part.withOdo { s.part.odo with standstill := true, standTimer := none })) held (.inl rfl)
  rw [part, starts]
  exact ⟨(finish_pullStands s.part (.refl _)).deferred.trans released, finish_latched s.part (by decide) latched⟩

/-! ### A count of the source (R5, R136) -/

/-- The part whose release point is judged at a change of route position. -/
def broughtTo (c : Dir) (p : Part) : Part :=
  sideChecks (ssuEvaluate (autJudge true (ssuEvaluate (odoRequests (followSegment c p).2 (captureWatch (followSegment c p).1)))))

theorem broughtTo_pullStands (c : Dir) (p : Part) : PullStands p (broughtTo c p) := by
  have followed : PullStands p (captureWatch (followSegment c p).1) :=
    (PullStands.refl p).odoOnly (captureWatch_only (followSegment_only c (.refl p)))
  exact sideChecks_pullStands (ssuEvaluate_pullStands (autJudge_pullStands true (ssuEvaluate_pullStands
    (odoRequests_pullStands _ followed))))

theorem handleJudge_road (p : Part) : Moves roadMay p (handleJudge p) := handleJudge_moves (by decide) (by decide) (.refl p)

section
variable {e : Encoder} {c : Dir} {p : Part}

theorem countEnd_standstill (b : Part) (live : p.asserted = false) : (countEnd e c p b).odo.standstill = false := by
  unfold countEnd
  rw [(finish_returned b _).odo]
  exact closing_standstill e c p live

theorem broughtTo_standing (e : Encoder) (c : Dir) (p : Part) : PullStands p (broughtTo c (placedBy e c p)) :=
  ((PullStands.refl p).odoOnly (placedBy_only e c p)).trans (broughtTo_pullStands c _)

theorem positioned_judged (src : movesPosition e p = true) : positioned e c p = handleJudge (broughtTo c (placedBy e c p)) :=
  positioned_source src

theorem broughtTo_ends (b : Part) (src : movesPosition e p = true) :
    Moves countMay (broughtTo c (placedBy e c p)) (countEnd e c p b) := by
  have judged := (handleJudge_road (broughtTo c (placedBy e c p))).mono (List.subset_cons_self .track _)
  rw [← positioned_judged src] at judged
  exact judged.trans (countEnd_fromPositioned e c p b)

/-- The release point is judged where the count ends. -/
theorem broughtTo_overNoStop (b : Part) (src : movesPosition e p = true) :
    OverNoStop (broughtTo c (placedBy e c p)) ↔ OverNoStop (countEnd e c p b) := by
  have after := (broughtTo_ends (c := c) b src).frame
  obtain ⟨-, -, -, pos, -⟩ := after.odo (by decide)
  exact (overNoStop_congr (after.prf (by decide)) pos).symm

/-- With the car clear of every no-stop segment the pull is released. -/
theorem count_releases (b : Part) (src : movesPosition e p = true) (held : p.dor.deferred.isSome = true)
    (clear : ¬ OverNoStop (countEnd e c p b)) :
    (countEnd e c p b).dor.deferred = none ∧ Safety.latchedAt .handle .s3 (countEnd e c p b) := by
  have point : noStopHere (broughtTo c (placedBy e c p)) = false := by
    rw [Bool.eq_false_iff, Ne, noStopHere_iff, broughtTo_overNoStop b src]
    exact fun covered => clear covered.2
  obtain ⟨released, latched⟩ := handleJudge_releases (by rw [(broughtTo_standing e c p).deferred]; exact held) (.inr point)
  rw [← positioned_judged src] at released latched
  exact ⟨(countEnd_pullStands e c p b).deferred.trans released,
    latched_after latched (by decide) (countEnd_fromPositioned e c p b) (by decide)⟩

/-- Where the count leaves the car in its segment the position is still known when the release point is judged. -/
theorem KeepsSegment.broughtTo_known (h : KeepsSegment e c p) (src : movesPosition e p = true) :
    (broughtTo c (placedBy e c p)).odo.validity ≠ .unknown := by
  have track := (handleJudge_road (broughtTo c (placedBy e c p))).sameTrack
  rw [← positioned_judged src] at track
  have placed : (placedBy e c p).odo.validity ≠ .unknown := placedBy_known ((movesPosition_iff e p).1 src).2
  exact fun unknown => placed (h.track.known.1 (track.known.2 unknown))

/-- Over a no-stop segment the pull waits. -/
theorem KeepsSegment.waits (h : KeepsSegment e c p) (b : Part) (src : movesPosition e p = true) (live : p.asserted = false)
    (covered : OverNoStop (countEnd e c p b)) : (countEnd e c p b).dor.deferred = p.dor.deferred := by
  have ends := broughtTo_ends (c := c) b src
  obtain ⟨-, -, -, -, -, -, -, -, standstill, -⟩ := ends.frame.odo (by decide)
  have moving : (broughtTo c (placedBy e c p)).odo.standstill = false := standstill.symm.trans (countEnd_standstill b live)
  have point : noStopHere (broughtTo c (placedBy e c p)) = true :=
    (noStopHere_iff _).2 ⟨h.broughtTo_known src, (broughtTo_overNoStop b src).2 covered⟩
  have kept : PullStands p (positioned e c p) := by
    rw [positioned_judged src, handleJudge_waits moving point]
    exact broughtTo_standing e c p
  exact kept.trans (countEnd_pullStands e c p b)

end

theorem encoderStep_judgesPull (e : Encoder) (levels : BitVec 2) (c : Dir) (s : State) (live : s.part.asserted = false)
    (ok : (s.part.odo.enc e).faulted = false) (step : Safety.follows (s.part.odo.enc e).quad levels c)
    (test : s.part.brk.test = none) (source : s.part.odo.source.encoder? = some e) (known : s.part.odo.validity ≠ .unknown)
    (held : s.part.dor.deferred.isSome = true) :
    ∃ t, exec (.encoderStep e levels) s = .next t ∧ Safety.pullJudged s.part t.part := by
  refine encoderStep_acts live ok step test _ fun t part => ?_
  have stands := linesTaken_standing e levels s.part
  have src : movesPosition e (linesTaken e levels s.part) = true :=
    (movesPosition_iff _ _).2 ⟨by rw [stands.source]; exact source, by rw [stands.validity]; exact known⟩
  rw [part]
  refine ⟨fun clear => ?_, fun covered stays => ?_⟩
  · exact count_releases s.part src held fun ⟨r, stop, ends, noStop, overlaps⟩ => clear r stop ends noStop overlaps
  · exact (keepsSegment_of_staysWithin stays).waits s.part src live covered

/-! ### A pull (R135) -/

/-- The pull with its event. -/
def pullPosted (d : Fin 8) (p : Part) : Part := post .handlePulled (BitVec.ofNat 16 d.val) p

/-- The pull is deferred, with its door, the position and the time, and its alarm. -/
def pullDeferred (d : Fin 8) (p : Part) : Part :=
  post .handleDeferred (BitVec.ofNat 16 d.val)
    (handAlarm .handleDeferred (p.withDor { p.dor with deferred := some ⟨d, p.odo.pos, p.now⟩ }))

/-- A pull is one to defer: in RUN, moving, over a no-stop segment. -/
abbrev DefersPull (p : Part) : Prop := p.mod.mode = .run ∧ p.odo.standstill = false ∧ noStopHere p = true

theorem handlePulled_eq (d : Fin 8) (p : Part) : handlePulled d p =
    if DefersPull p then (if p.dor.deferred.isSome then pullPosted d p else pullDeferred d (pullPosted d p))
    else latch .handle .s3 1 (pullPosted d p) := by
  have cond : (p.mod.mode == .run && !p.odo.standstill && noStopHere p) = true ↔ DefersPull p := by
    simp only [Bool.and_eq_true, beq_iff_eq, Bool.not_eq_true', and_assoc]
  exact if_congr cond rfl rfl

/-- A deferred pull is held as it is; with none held this one is. -/
theorem handlePulled_defers (d : Fin 8) {p : Part} (defers : DefersPull p) : (handlePulled d p).dor.deferred
      = if p.dor.deferred.isSome then p.dor.deferred else some ⟨d, p.odo.pos, p.now⟩ := by
  rw [handlePulled_eq, if_pos defers]
  split
  · rfl
  · exact handAlarm_pullStands .handleDeferred (.refl _)

/-- Any other pull latches HANDLE. -/
theorem handlePulled_latches (d : Fin 8) {p : Part} (other : ¬ DefersPull p) : Safety.latchedAt .handle .s3 (handlePulled d p) := by
  rw [handlePulled_eq, if_neg other]
  exact latch_latched _ _ _ (by decide) _

/-- The event comes first. -/
theorem handlePulled_after (d : Fin 8) (p : Part) : Moves doorMay (pullPosted d p) (handlePulled d p) := by
  rw [handlePulled_eq]
  split
  · split
    · exact .refl _
    · exact post_moves _ _ (handAlarm_moves _ (dor_moves _ ⟨rfl, rfl, rfl, rfl, rfl, rfl, rfl, rfl⟩ (.refl _)))
  · exact latch_moves _ _ _ (by decide) (by decide) (by decide) (.refl _)

/-- The part with the level of a pulled handle, behind the event of the edge. -/
def ehTaken (d : Fin 8) (evq : Evq) (p : Part) : Part := (setDoor d (·.setLevel .eh true) p).withEvq evq

theorem ehTaken_defers (d : Fin 8) (evq : Evq) (p : Part) : DefersPull (ehTaken d evq p) ↔ DefersPull p := Iff.rfl

theorem defersPull_not {p : Part} (other : p.mod.mode ≠ .run ∨ p.odo.standstill = true ∨ noStopHere p = false) : ¬ DefersPull p := by
  rintro ⟨run, moving, covered⟩
  rcases other with notRun | still | clear
  · exact notRun run
  · exact absurd moving (by rw [still]; decide)
  · exact absurd covered (by rw [clear]; decide)

/-- The pull of a handle that was not pulled, cold reset not asserted. -/
theorem doorEhEdge_pulls (d : Fin 8) (s : State) (cold : s.part.coldLine = false) (unpulled : (s.part.door d).eh = false) :
    ∃ t, exec (.doorEhEdge d true) s = .next t
      ∧ Safety.posts s.part t.part
          (Safety.edgeEvents d .eh true s.part ++ [(.handlePulled, BitVec.ofNat 16 d.val, s.part.odo.pos)])
      ∧ Safety.flagged .handle t.part
      ∧ (s.part.mod.mode = .run → s.part.odo.standstill = false → noStopHere s.part = true →
          t.part.dor.deferred = if s.part.dor.deferred.isSome then s.part.dor.deferred
            else some ⟨d, s.part.odo.pos, s.part.now⟩)
      ∧ (s.part.mod.mode ≠ .run ∨ s.part.odo.standstill = true ∨ noStopHere s.part = false →
          Safety.latchedAt .handle .s3 t.part) := by
  rw [door_row _ d .eh true s rfl]
  refine edge_ends d .eh true s (handlePulled d) _ cold (by rw [show (s.part.door d).level .eh = false from unpulled]; decide)
    (fun q _ => by unfold doorEdge; rfl) fun t evq part events => ?_
  have ends : Moves doorMay (handlePulled d (ehTaken d evq s.part)) t.part :=
    part ▸ toEnd s.part (by decide) (afterDoors_moves _ (by decide) (by decide) (.refl _))
  have since := (handlePulled_after d (ehTaken d evq s.part)).trans ends
  have kept : PullStands (handlePulled d (ehTaken d evq s.part)) t.part :=
    part ▸ finish_pullStands s.part (afterDoors_pullStands _ (.refl _))
  refine ⟨events _ (posts_one _ _ _ true (since.frame.pre (by decide))), flagged_moves (flagged_post _ _ _ _ rfl) since (by decide),
    fun run moving covered => ?_, fun other => ?_⟩
  · exact kept.deferred.trans (handlePulled_defers d ((ehTaken_defers d evq s.part).2 ⟨run, moving, covered⟩))
  · exact latched_after (handlePulled_latches d (mt (ehTaken_defers d evq s.part).1 (defersPull_not other))) (by decide) ends (by decide)

/-- Settles O33: the pull, the count that judges a deferred one, and standstill. -/
theorem handlePulls : Obligations.HandlePulls := by
  unfold Obligations.HandlePulls
  exact ⟨doorEhEdge_pulls, encoderStep_judgesPull, standstillTimerExpiry_releases⟩

end Sys2Proof.Machine
end

section
/-! What a reset holds off (R18, R24, R37, R48, R119, R140, R141, R157, R172, R187), and deliveries from no station (R145): rows that
leave the part as it is. -/

namespace Sys2Proof.Machine

/-! ### A row that changes nothing -/

/-- Between equal parts no section has changed (R191). -/
theorem sectionChanged_same (p : Part) (x : Section) : sectionChanged p p x = false := by
  unfold sectionChanged
  simp only [bne_self_eq_false, Bool.or_self, Bool.and_false]

theorem raiseChanged_same (p : Part) : raiseChanged p p = p := by
  unfold raiseChanged
  simp only [sectionChanged_same, Bool.false_eq_true, if_false, List.foldl_fixed]

/-- A change that leaves a part as it was ends with that part, where no return to STAND is due (R109). -/
theorem finish_same {p : Part} (stand : Safety.standDone p) : finish p p = p := by
  unfold finish
  rw [autoStand_of (standDone_eq stand), raiseChanged_same]

/-- The command's row is a change of the part alone, and it leaves every part as it is that meets `P`. -/
def StandsWhen (P : Part → Prop) (c : Instr) : Prop := ∃ f, (∀ s, exec c s = partRow f s) ∧ ∀ p, P p → f p = p

/-- Such a command changes nothing at all. -/
theorem StandsWhen.exec_eq {P : Part → Prop} {c : Instr} {s : State} (h : StandsWhen P c) (stand : Safety.standDone s.part)
    (holds : P s.part) : exec c s = .next s := by
  obtain ⟨f, row, stands⟩ := h
  rw [row, partRow, stands _ holds, finish_same stand]

/-! ### The rows that either reset holds off -/

theorem active_held (f : Part → Part) {p : Part} (reset : p.asserted = true) : active f p = p := if_pos reset

theorem messageRow_held (src : Sender) (kind : Nat) (act : Part → Part × MessageOutcome) {p : Part} (reset : p.asserted = true) :
    messageRow src kind act p = p := if_pos (by rw [reset]; rfl)

theorem receive_held (c : Byte) (bad : Bool) {p : Part} (reset : p.asserted = true) : receive c bad p = p := if_pos reset

theorem standstillExpiry_held {p : Part} (reset : p.asserted = true) : standstillExpiry p = p := if_neg (by simp [reset])

theorem applyingExpiry_held {p : Part} (reset : p.asserted = true) : applyingExpiry p = p := by
  unfold applyingExpiry
  split
  · exact if_neg (by simp [reset])
  · rfl

theorem releasingExpiry_held {p : Part} (reset : p.asserted = true) : releasingExpiry p = p := by
  unfold releasingExpiry
  split
  · exact if_neg (by simp [reset])
  · rfl

theorem holdEnd_held {p : Part} (reset : p.asserted = true) : holdEnd p = p := by
  unfold holdEnd
  split
  · exact if_neg (by simp [reset])
  · rfl

theorem silenceExpiry_held {p : Part} (reset : p.asserted = true) : silenceExpiry p = p := if_neg (by simp [reset])

theorem reportExpiry_held {p : Part} (reset : p.asserted = true) : reportExpiry p = p := if_neg (by simp [reset])

theorem heldByReset_stands {c : Instr} (held : Safety.heldByReset c = true) : StandsWhen (·.asserted = true) c := by
  cases c with
  | grant | revoke | restrict | lift | permit | withdraw | eStop | eRelease | wakeMessage | poll | text =>
    exact ⟨_, fun _ => rfl, fun _ => messageRow_held _ _ _⟩
  | rxCharacter | pause | resume => exact ⟨_, fun _ => rfl, fun _ => receive_held _ _⟩
  | chargeTimingEnd | gapTimerExpiry | deferTimerExpiry | keyUpTimerExpiry | txCharacterSent | tailTimerExpiry | pauseTimerExpiry =>
    exact ⟨_, fun _ => rfl, fun _ => active_held _⟩
  | standstillTimerExpiry => exact ⟨_, fun _ => rfl, fun _ => standstillExpiry_held⟩
  | applyingDeadlineExpiry => exact ⟨_, fun _ => rfl, fun _ => applyingExpiry_held⟩
  | releasingDeadlineExpiry => exact ⟨_, fun _ => rfl, fun _ => releasingExpiry_held⟩
  | testHoldEnd => exact ⟨_, fun _ => rfl, fun _ => holdEnd_held⟩
  | silenceTimerExpiry => exact ⟨_, fun _ => rfl, fun _ => silenceExpiry_held⟩
  | reportTimerExpiry => exact ⟨_, fun _ => rfl, fun _ => reportExpiry_held⟩
  | _ => exact absurd held Bool.false_ne_true

/-! ### The rows that cold reset alone holds off besides -/

theorem live_held (f : Part → Part) {p : Part} (cold : p.coldLine = true) : live f p = p := if_pos cold

theorem datumRise_held {p : Part} (cold : p.coldLine = true) : datumRise p = p := if_pos (by simp [Part.asserted, cold])

theorem heldByCold_stands {c : Instr} (held : Safety.heldByCold c = true) : StandsWhen (·.coldLine = true) c := by
  cases c with
  | speedWindowTick | indexPulse | datumFallingEdge | copyCompletion | motionTimerExpiry | permitLifetimeExpiry | linkTimerExpiry =>
    exact ⟨_, fun _ => rfl, fun _ => live_held _⟩
  | datumRisingEdge => exact ⟨_, fun _ => rfl, fun _ => datumRise_held⟩
  | _ => exact absurd held Bool.false_ne_true

/-! ### Deliveries from no station (R145) -/

theorem messageRow_noStation {src : Sender} (kind : Nat) (act : Part → Part × MessageOutcome) (p : Part) (bad : src.wf = false) :
    messageRow src kind act p = p := if_pos (by simp [bad])

theorem messageOf_stands {c : Instr} {src : Sender} {kind : Nat} (message : Safety.messageOf c = some (src, kind))
    (bad : src.wf = false) : StandsWhen (fun _ => True) c := by
  cases c with
  | grant | revoke | restrict | lift | permit | withdraw | eStop | eRelease | wakeMessage | poll | text =>
    cases message
    exact ⟨_, fun _ => rfl, fun p _ => messageRow_noStation _ _ p bad⟩
  | _ => cases message

/-- Settles O7: each of these rows leaves the part as it is, and so no return to STAND and no generation word follows. -/
theorem resetHoldsOff : Obligations.ResetHoldsOff := by
  unfold Obligations.ResetHoldsOff
  intro c s stand
  exact ⟨fun reset held => (heldByReset_stands held).exec_eq stand reset,
    fun cold held => (heldByCold_stands held).exec_eq stand cold,
    fun _ _ message bad => (messageOf_stands message bad).exec_eq stand trivial⟩

end Sys2Proof.Machine
end

section
/-! The rows of the transmitter (R150 to R153), one lemma per state they leave, and the line TXD (R141). -/

namespace Sys2Proof.Machine

/-! ### On with the frame, or a pause (R152, R153) -/

theorem sendNext_sendsNext {b : Sending} {p q : Part} (buffer : p.link.sendBuffer = some b) (link : q.link = (sendNext p).link) :
    Safety.sendsNext b p q := by
  unfold Safety.sendsNext
  rw [link, sendNext, buffer]
  rfl

theorem toPaused_pauses {b : Sending} {p q : Part} (buffer : p.link.sendBuffer = some b) (link : q.link = (toPaused p).link) :
    Safety.pauses b p q := by
  unfold Safety.pauses
  rw [link, toPaused, buffer]
  rfl

/-! ### The timers, each in its state -/

theorem deferExpiry_due {p : Part} {d : DeferTimer} (state : p.link.state = .defer) (timer : p.link.deferTimer = some d)
    (due : p.passed d.start d.length = true) : deferExpiry p = keyUp p := by
  unfold deferExpiry
  rw [state, timer]
  exact if_pos due

theorem keyUpExpiry_due {p : Part} (state : p.link.state = .keyUp) (due : p.due p.link.keyUpTimer 40 = true) :
    keyUpExpiry p = if p.link.flowHold then toPaused p else sendNext p := if_pos (by simp [state, due])

theorem tailExpiry_due {p : Part} (state : p.link.state = .tail) (due : p.due p.link.tailTimer 20 = true) :
    tailExpiry p = toListen (p.withLink { p.link with ptt := false, tailTimer := none }) := if_pos (by simp [state, due])

theorem characterSent_sending {p : Part} {b : Sending} (state : p.link.state = .sending) (buffer : p.link.sendBuffer = some b) :
    characterSent p =
      if b.rest = [] then p.withLink { p.link with state := .tail, sendBuffer := none, tailTimer := some p.now }
      else if p.link.flowHold then toPaused p else sendNext p := by
  unfold characterSent
  rw [state, buffer]
  simp only [List.isEmpty_iff]

/-- The part of a frame that the pause timer abandons: PTT dropped, nothing in the send buffer, and the drop counted and posted. -/
def abandoned (b : Sending) (p : Part) : Part :=
  txDrop b.frame.cls .pauseLimit (p.withLink { p.link with ptt := false, pauseTimer := none, sendBuffer := none, state := .listen })

theorem pauseExpiry_due {p : Part} {b : Sending} (state : p.link.state = .paused) (buffer : p.link.sendBuffer = some b)
    (due : p.due p.link.pauseTimer 500 = true) : pauseExpiry p = toListen (abandoned b p) := by
  unfold pauseExpiry
  rw [state, buffer]
  exact if_pos due

/-! ### The rows -/

/-- The defer timer keys up (R150). -/
theorem deferTimerExpiry_keys {s : State} {d : DeferTimer} (noReset : s.part.asserted = false) (state : s.part.link.state = .defer)
    (timer : s.part.link.deferTimer = some d) (due : s.part.passed d.start d.length = true) (queued : s.part.link.queue ≠ []) :
    ∃ t, exec .deferTimerExpiry s = .next t ∧ Safety.keyed s.part t.part :=
  live_row deferExpiry s noReset _ fun _ link _ _ => keyUp_keyed _ queued (by rw [link, deferExpiry_due state timer due])

/-- The key-up timer begins to send, or pauses on a flow hold (R151). -/
theorem keyUpTimerExpiry_sends {s : State} {b : Sending} (noReset : s.part.asserted = false) (state : s.part.link.state = .keyUp)
    (due : s.part.due s.part.link.keyUpTimer 40 = true) (buffer : s.part.link.sendBuffer = some b) :
    ∃ t, exec .keyUpTimerExpiry s = .next t
      ∧ (s.part.link.flowHold = false → Safety.sendsNext b s.part t.part)
      ∧ (s.part.link.flowHold = true → Safety.pauses b s.part t.part) := by
  refine live_row keyUpExpiry s noReset _ fun t link _ _ => ?_
  rw [keyUpExpiry_due state due] at link
  refine ⟨fun free => sendNext_sendsNext buffer ?_, fun hold => toPaused_pauses buffer ?_⟩
  · rw [link, free]; rfl
  · rw [link, hold]; rfl

/-- A character sent: TAIL after the END, else a pause on a flow hold, else the next character (R152). -/
theorem txCharacterSent_goesOn {s : State} {b : Sending} (noReset : s.part.asserted = false) (state : s.part.link.state = .sending)
    (buffer : s.part.link.sendBuffer = some b) :
    ∃ t, exec .txCharacterSent s = .next t
      ∧ (b.rest = [] → t.part.link = { s.part.link with state := .tail, sendBuffer := none, tailTimer := some s.part.now })
      ∧ (b.rest ≠ [] → s.part.link.flowHold = true → Safety.pauses b s.part t.part)
      ∧ (b.rest ≠ [] → s.part.link.flowHold = false → Safety.sendsNext b s.part t.part) := by
  refine live_row characterSent s noReset _ fun t link _ _ => ?_
  rw [characterSent_sending state buffer] at link
  refine ⟨fun done => ?_, fun more hold => toPaused_pauses buffer ?_, fun more free => sendNext_sendsNext buffer ?_⟩
  · rw [link, if_pos done]; rfl
  · rw [link, if_neg more, hold]; rfl
  · rw [link, if_neg more, free]; rfl

/-- TAIL ends in LISTEN, with PTT dropped (R152). -/
theorem tailTimerExpiry_listens {s : State} (noReset : s.part.asserted = false) (state : s.part.link.state = .tail)
    (due : s.part.due s.part.link.tailTimer 20 = true) :
    ∃ t, exec .tailTimerExpiry s = .next t
      ∧ Safety.listens { s.part with link := { s.part.link with ptt := false, tailTimer := none } } t.part :=
  live_row tailExpiry s noReset _ fun _ link _ _ =>
    toListen_listens (s.part.withLink { s.part.link with ptt := false, tailTimer := none }) noReset
      (by rw [link, tailExpiry_due state due])

/-- The pause timer abandons the frame: counted and posted, and the link in LISTEN (R153). -/
theorem pauseTimerExpiry_abandons {s : State} {b : Sending} (noReset : s.part.asserted = false) (state : s.part.link.state = .paused)
    (due : s.part.due s.part.link.pauseTimer 500 = true) (buffer : s.part.link.sendBuffer = some b) :
    ∃ t, exec .pauseTimerExpiry s = .next t
      ∧ Safety.listens { s.part with link :=
          { Safety.txCounted .pauseLimit s.part.link with ptt := false, pauseTimer := none, sendBuffer := none } } t.part
      ∧ Safety.posts s.part t.part [(.txDropped, arg2 b.frame.cls.code 3, s.part.odo.pos)] ∧ Safety.flagged .radio t.part := by
  refine live_row pauseExpiry s noReset _ fun t link events faults => ?_
  rw [pauseExpiry_due state buffer due] at link events faults
  have after : Moves [] (abandoned b s.part) (toListen (abandoned b s.part)) := toListen_moves (fun _ => rfl) (.refl _)
  have drop := txDrop_posts b.frame.cls .pauseLimit _ ((after.frame.pre (by decide)).trans events)
    fun i set => faults i (after.frame.faults (by decide) i set)
  exact ⟨toListen_listens (abandoned b s.part) noReset link, posts_of_evq drop.1 rfl rfl, drop.2⟩

/-! ### The line TXD (R141) -/

theorem txdBits_idle {p : Part} (idle : p.asserted = true ∨ p.link.state ≠ .sending) : txdBits p = [] := by
  unfold txdBits
  split
  · next _ sending _ => exact if_pos (idle.resolve_right (not_not_intro sending))
  · rfl

theorem txdBits_sending {p : Part} {b : Sending} {c : Byte} (noReset : p.asserted = false) (state : p.link.state = .sending)
    (buffer : p.link.sendBuffer = some b) (current : b.current = some c) : txdBits p = lineBits c := by
  unfold txdBits
  rw [state, buffer]
  simp only [noReset, current, Bool.false_eq_true, if_false, Option.map_some, Option.getD_some]

/-- The parity bit on the line is the one that R141 calls right. -/
theorem evenParity_good (c : Byte) : ¬ Safety.badCharacter c (evenParity c) true := by
  rw [← errored_iff, errored_even]
  exact Bool.false_ne_true

/-- Settles O49: the rows of the transmitter one by one, and the line. -/
theorem transmitterSends : Obligations.TransmitterSends := by
  unfold Obligations.TransmitterSends
  refine ⟨fun s noReset => ?rows, fun p => ⟨txdBits_idle, fun b c noReset state buffer current => ?line⟩⟩
  case rows =>
    exact ⟨fun d => deferTimerExpiry_keys noReset, fun b => keyUpTimerExpiry_sends noReset,
      fun b => txCharacterSent_goesOn noReset, tailTimerExpiry_listens noReset, fun b => pauseTimerExpiry_abandons noReset⟩
  case line => exact ⟨evenParity c, evenParity_good c, txdBits_sending noReset state buffer current⟩

end Sys2Proof.Machine
end

section
/-! POLL REPORT: what the transmit queue does with a REPORT (R154, R170). -/

namespace Sys2Proof.Machine

section
variable {p : Part}

/-- STABLED takes no REPORT. -/
theorem offerResult_stabled (mode : p.mod.mode = .stabled) : offerResult .report p = .stabled :=
  if_pos (by rw [mode]; rfl)

/-- A queued REPORT is refreshed. -/
theorem offerResult_refreshed (mode : p.mod.mode ≠ .stabled) (queued : txHasReport p.link.queue = true) :
    offerResult .report p = .refreshed := by
  unfold offerResult
  rw [if_neg (by simpa using mode), queued]
  rfl

/-- A REPORT that is not queued is placed where the queue has room for it. -/
theorem offerResult_placed (mode : p.mod.mode ≠ .stabled) (free : txHasReport p.link.queue = false) (room : Safety.reportRoom p) :
    offerResult .report p = .placed := (report_room p mode free).trans (if_pos room)

theorem offerResult_full (mode : p.mod.mode ≠ .stabled) (free : txHasReport p.link.queue = false) (full : ¬ Safety.reportRoom p) :
    offerResult .report p = .full := (report_room p mode free).trans (if_neg full)

end

/-- Settles O48: the order answers with the code of what the queue does, which its mode, a queued REPORT and its room decide. -/
theorem pollReport : Obligations.PollReport := by
  unfold Obligations.PollReport
  intro u s judged
  obtain ⟨t, next, reported, done⟩ := pollReport_ends u s judged
  refine ⟨t, next, reported, fun mode => ?_, fun mode queued => ?_, fun mode free room => ?_, fun mode free full => ?_⟩
  · rw [offerResult_stabled mode] at done; exact done
  · rw [offerResult_refreshed mode queued] at done; exact done
  · rw [offerResult_placed mode free room] at done; exact done
  · rw [offerResult_full mode free full] at done; exact done

end Sys2Proof.Machine
end

section
/-! REVOKE: what AUT does with it, by the slot it names and the point, and what is left of it at the end of the delivery (R98, R99). -/

namespace Sys2Proof.Machine

open Sys2Proof.Safety (Group)

/-! ### The authority table that a change leaves -/

/-- The slots, the last revoke record, the missed count, the relinquished flag and the late revoke flag stand. -/
def SlotsKept (a b : Aut) : Prop := AutSoft a b ∧ b.lateRevoke = a.lateRevoke

theorem SlotsKept.trans {a b c : Aut} (h : SlotsKept a b) (k : SlotsKept b c) : SlotsKept a c :=
  ⟨h.1.trans k.1, k.2.trans h.2⟩

theorem Returned.slotsKept {p q : Part} (h : Returned p q) : SlotsKept p.aut q.aut := ⟨h.slots, h.flags.2⟩

/-- The numbers of AUT and SSU follow a change of the slots, which stand (R92). -/
theorem slotsChanged_returned (p : Part) : Returned p (slotsChanged p) := by
  have numbers : Returned p (autNumbers p) := { Returned.refl p with slots := ⟨rfl, rfl, rfl, rfl, rfl⟩, flags := ⟨rfl, rfl⟩ }
  exact numbers.trans (ssuEvaluate_returned _)

/-! ### A REVOKE that names CURRENT (R99) -/

section
variable {c : Authority} {r : Nat} {p : Part}

/-- The last revoke record and AUTH_REVOKED, on a new authority table. -/
def revokeWritten (id : Half) (r : Nat) (o : RevokeOutcome) (x : Aut) (p : Part) : Part :=
  postRevoked id (o == .late) (p.withAut { x with lastRevoke := ⟨id, r, o⟩ })

/-- The authority table with CURRENT's end moved to a point. -/
def Aut.shortened (c : Authority) (r : Nat) (a : Aut) : Aut := { a with current := some { c with stop := Safety.heldEnd c r } }

theorem revokeCurrent_beyond (beyond : Safety.beyondEnd c r) :
    revokeCurrent c r p = slotsChanged (revokeWritten c.id r .beyondEnd p.aut p) := by
  refine if_pos ?_
  unfold Safety.beyondEnd at beyond
  cases h : c.dir <;> rw [h] at beyond <;> exact decide_eq_true beyond

/-- A late REVOKE: the end moved and the late revoke flag set, before the demand and the alarm (R99). -/
def lateWritten (c : Authority) (r : Nat) (p : Part) : Part :=
  let q := revokeWritten c.id r .late (p.aut.shortened c r) p
  q.withAut { q.aut with lateRevoke := true }

theorem lateWritten_moves {H : List Group} (p : Part) :
    Moves H (revokeWritten c.id r .late (p.aut.shortened c r) p) (lateWritten c r p) :=
  aut_moves _ ⟨rfl, rfl, rfl, rfl, rfl⟩ (.refl _)

/-- The demand and the alarm of a late REVOKE (R99). -/
def lateTaken (c : Authority) (r : Nat) (p : Part) : Part :=
  handAlarm .revokeLate (slotsChanged (latch .authority .emergency 3 (lateWritten c r p)))

theorem lateTaken_moves (c : Authority) (r : Nat) : Moves [.mode, .ord] (lateWritten c r p) (lateTaken c r p) :=
  handAlarm_moves _ (slotsChanged_moves (latch_moves _ _ _ (by decide) (by decide) (by decide) (.refl _)))

theorem lateTaken_latched (c : Authority) (r : Nat) (p : Part) : Safety.latchedAt .authority .emergency (lateTaken c r p) :=
  latched_after (H := []) (latch_latched .authority .emergency 3 (by decide) (lateWritten c r p)) (by decide)
    (handAlarm_moves _ (slotsChanged_moves (.refl _))) (by decide)

theorem lateTaken_flagged (c : Authority) (r : Nat) (p : Part) : Safety.flagged .authority (lateTaken c r p) :=
  flagged_moves (flagged_post .authRevoked c.id p.odo.pos _ rfl) ((lateWritten_moves p).trans (lateTaken_moves c r)) (by decide)

/-- In RUN no brake test stands in the way of the demand: the authority table is as it was written. -/
theorem lateTaken_aut (run : p.mod.mode = .run) : SlotsKept (lateWritten c r p).aut (lateTaken c r p).aut := by
  have latched : (latch .authority .emergency 3 (lateWritten c r p)).aut = (lateWritten c r p).aut := latch_aut _ _ _ _ run
  have changed := (slotsChanged_returned (latch .authority .emergency 3 (lateWritten c r p))).slotsKept
  rw [latched] at changed
  unfold lateTaken
  rw [(handAlarm_elsewhere _ _).aut]
  exact changed

/-- In RUN the new end lies within the braking distance (R99). -/
def RevokedLate (c : Authority) (r : Nat) (p : Part) : Prop :=
  p.mod.mode = .run ∧ p.distanceTo c.dir (Safety.heldEnd c r) ≤ (p.ssu.braking : Int) * 16

theorem not_revokedLate : ¬ RevokedLate c r p ↔
    p.mod.mode ≠ .run ∨ (p.ssu.braking : Int) * 16 < p.distanceTo c.dir (Safety.heldEnd c r) := by
  rw [RevokedLate, not_and_or, not_le]

/-- A point within the end is judged by the braking distance. -/
theorem revokeCurrent_within (within : ¬ Safety.beyondEnd c r) :
    revokeCurrent c r p =
      if p.mod.mode == .run && p.distanceTo c.dir (Safety.heldEnd c r) ≤ (p.ssu.braking : Int) * 16 then lateTaken c r p
      else slotsChanged (revokeWritten c.id r .shortened (p.aut.shortened c r) p) := by
  refine if_neg ?_
  unfold Safety.beyondEnd at within
  cases h : c.dir <;> rw [h] at within <;> simpa using within

theorem revokeCurrent_late (within : ¬ Safety.beyondEnd c r) (late : RevokedLate c r p) : revokeCurrent c r p = lateTaken c r p := by
  rw [revokeCurrent_within within]
  exact if_pos (by simpa [RevokedLate] using late)

theorem revokeCurrent_shortened (within : ¬ Safety.beyondEnd c r) (soft : ¬ RevokedLate c r p) :
    revokeCurrent c r p = slotsChanged (revokeWritten c.id r .shortened (p.aut.shortened c r) p) := by
  rw [revokeCurrent_within within]
  exact if_neg (by simpa [RevokedLate] using soft)

end

/-! ### A REVOKE by the slot it names (R98) -/

/-- NEXT is emptied, without an event. -/
def nextEmptied (p : Part) : Part := p.withAut { p.aut with next := none }

section
variable {c n : Authority} {id : Half} {point : Nat} {p : Part}

/-- A REVOKE that names no slot is missed. -/
theorem revokeTaken_missed (neither : ∀ c, p.aut.current = some c → c.id ≠ id ∧ ∀ n, p.aut.next = some n → n.id ≠ id) :
    revokeTaken id point p =
      revokeWritten id (min point 1048575) .missed { p.aut with missed := sat8 p.aut.missed } p := by
  unfold revokeTaken
  cases held : p.aut.current with
  | none => rfl
  | some c =>
    obtain ⟨other, others⟩ := neither c held
    cases next : p.aut.next with
    | none => exact if_neg other
    | some n => exact (if_neg other).trans (if_neg (others n next))

/-- A REVOKE that names NEXT empties it. -/
theorem revokeTaken_next (held : p.aut.current = some c) (other : c.id ≠ id) (next : p.aut.next = some n) (named : n.id = id) :
    revokeTaken id point p =
      slotsChanged (revokeWritten id (min point 1048575) .nextCleared { p.aut with next := none } p) := by
  unfold revokeTaken
  rw [held, next]
  exact (if_neg other).trans (if_pos named)

/-- A REVOKE that names CURRENT empties NEXT and is judged by its point. -/
theorem revokeTaken_current (held : p.aut.current = some c) :
    revokeTaken c.id point p = revokeCurrent c (min point 1048575) (nextEmptied p) := by
  unfold revokeTaken
  rw [held]
  exact if_pos rfl

/-- What AUTH_REVOKED and the last revoke record start from. -/
theorem revokeTaken_writes (id : Half) (point : Nat) (p : Part) :
    ∃ o x, Moves [.mode, .ord] (revokeWritten id (min point 1048575) o x p) (revokeTaken id point p) := by
  by_cases neither : ∀ c, p.aut.current = some c → c.id ≠ id ∧ ∀ n, p.aut.next = some n → n.id ≠ id
  · exact ⟨_, _, by rw [revokeTaken_missed neither]; exact .refl _⟩
  push Not at neither
  obtain ⟨c, held, named⟩ := neither
  by_cases current : c.id = id
  · subst current
    rw [revokeTaken_current held]
    by_cases beyond : Safety.beyondEnd c (min point 1048575)
    · exact ⟨_, _, by rw [revokeCurrent_beyond beyond]; exact slotsChanged_moves (.refl _)⟩
    by_cases late : RevokedLate c (min point 1048575) (nextEmptied p)
    · exact ⟨_, _, by rw [revokeCurrent_late beyond late]; exact (lateWritten_moves (nextEmptied p)).trans (lateTaken_moves _ _)⟩
    · exact ⟨_, _, by rw [revokeCurrent_shortened beyond late]; exact slotsChanged_moves (.refl _)⟩
  · obtain ⟨n, next, named⟩ := named current
    exact ⟨_, _, by rw [revokeTaken_next held current next named]; exact slotsChanged_moves (.refl _)⟩

end

/-! ### What is left of it -/

section
variable {c n : Authority} {id : Half} {point : Nat} {p : Part}

theorem revokeWritten_kept (id : Half) (r : Nat) (o : RevokeOutcome) (x : Aut) (p : Part) :
    SlotsKept { x with lastRevoke := ⟨id, r, o⟩ } (slotsChanged (revokeWritten id r o x p)).aut :=
  (slotsChanged_returned (revokeWritten id r o x p)).slotsKept

/-- Beyond the end CURRENT stands (R99). -/
theorem revokeTaken_beyond (held : p.aut.current = some c) (beyond : Safety.beyondEnd c (min point 1048575)) :
    SlotsKept { p.aut with next := none, lastRevoke := ⟨c.id, min point 1048575, .beyondEnd⟩ } (revokeTaken c.id point p).aut := by
  rw [revokeTaken_current held, revokeCurrent_beyond beyond]
  exact revokeWritten_kept _ _ _ _ _

/-- The authority table that a REVOKE of CURRENT within its end leaves (R99). -/
def shortenedTable (c : Authority) (r : Nat) (o : RevokeOutcome) (a : Aut) : Aut :=
  { a.shortened c r with next := none, lastRevoke := ⟨c.id, r, o⟩ }

/-- In RUN within the braking distance the REVOKE is late (R99). -/
theorem revokeTaken_late (held : p.aut.current = some c) (within : ¬ Safety.beyondEnd c (min point 1048575))
    (late : RevokedLate c (min point 1048575) p) :
    SlotsKept { shortenedTable c (min point 1048575) .late p.aut with lateRevoke := true } (revokeTaken c.id point p).aut
    ∧ Safety.latchedAt .authority .emergency (revokeTaken c.id point p) ∧ Safety.flagged .authority (revokeTaken c.id point p) := by
  rw [revokeTaken_current held, revokeCurrent_late (p := nextEmptied p) within late]
  exact ⟨lateTaken_aut (p := nextEmptied p) late.1, lateTaken_latched _ _ _, lateTaken_flagged _ _ _⟩

/-- Outside RUN or at a distance it shortens CURRENT alone (R99). -/
theorem revokeTaken_shortened (held : p.aut.current = some c) (within : ¬ Safety.beyondEnd c (min point 1048575))
    (soft : ¬ RevokedLate c (min point 1048575) p) :
    SlotsKept (shortenedTable c (min point 1048575) .shortened p.aut) (revokeTaken c.id point p).aut := by
  rw [revokeTaken_current held, revokeCurrent_shortened (p := nextEmptied p) within soft]
  exact revokeWritten_kept _ _ _ _ _

end

/-! ### The delivery -/

theorem linkHeard_aut (src : Sender) (p : Part) : (linkHeard src p).aut = p.aut := by
  obtain ⟨e, heard⟩ := linkHeard_spec src p
  rw [heard]; rfl

/-- Behind a REVOKE and the return to STAND: the authority table stands, AUTH_REVOKED comes first, and what was latched or flagged
stays so. -/
theorem revoke_ends (src : Sender) (id : Half) (point : BitVec 24) (s : State) (h : Safety.delivered src s) :
    ∃ t, exec (.revoke src id point) s = .next t
      ∧ Moves [.mode] (revokeTaken id point.toNat (linkHeard src s.part)) t.part
      ∧ SlotsKept (revokeTaken id point.toNat (linkHeard src s.part)).aut t.part.aut
      ∧ Safety.posts s.part t.part (Safety.linkEvents src s.part ++ [(.authRevoked, id, s.part.odo.pos)]) := by
  refine message_ends (kind := 2) (act := fun p => (revokeTaken id point.toNat p, .acted)) h rfl _ fun t ⟨_, part⟩ _ _ => ?_
  obtain ⟨moves, returned, -⟩ := message_rest part
  refine ⟨moves, returned.slotsKept, ?_⟩
  obtain ⟨o, x, writes⟩ := revokeTaken_writes id point.toNat (linkHeard src s.part)
  have events := revoke_posts id (o == .late) _ _ _ (writes.trans (moves.mono (by decide))) (by decide)
  have pos : (linkHeard src s.part).odo.pos = s.part.odo.pos := by
    obtain ⟨e, heard⟩ := linkHeard_spec src s.part
    rw [heard]; rfl
  rw [pos] at events
  exact posts_heard src events

/-- The late test reads nothing that hearing the delivery changes. -/
theorem revokedLate_linkHeard (src : Sender) (c : Authority) (r : Nat) (p : Part) :
    RevokedLate c r (linkHeard src p) ↔ RevokedLate c r p := by
  obtain ⟨e, heard⟩ := linkHeard_spec src p
  rw [heard]; exact Iff.rfl

/-- A REVOKE of CURRENT, delivered (R99). -/
theorem revoke_current {c : Authority} {point : Nat} {src : Sender} {p t : Part} (held : p.aut.current = some c)
    (moves : Moves [.mode] (revokeTaken c.id point (linkHeard src p)) t)
    (kept : SlotsKept (revokeTaken c.id point (linkHeard src p)).aut t.aut) :
    let r := min point 1048575
    t.aut.next = none
    ∧ (Safety.beyondEnd c r → t.aut.current = some c ∧ t.aut.lastRevoke = ⟨c.id, r, .beyondEnd⟩)
    ∧ (¬ Safety.beyondEnd c r →
        t.aut.current = some { c with stop := Safety.heldEnd c r }
        ∧ (p.mod.mode = .run → p.distanceTo c.dir (Safety.heldEnd c r) ≤ (p.ssu.braking : Int) * 16 →
            t.aut.lastRevoke = ⟨c.id, r, .late⟩ ∧ t.aut.lateRevoke = true
            ∧ Safety.latchedAt .authority .emergency t ∧ Safety.flagged .authority t)
        ∧ (p.mod.mode ≠ .run ∨ (p.ssu.braking : Int) * 16 < p.distanceTo c.dir (Safety.heldEnd c r) →
            t.aut.lastRevoke = ⟨c.id, r, .shortened⟩ ∧ t.aut.lateRevoke = p.aut.lateRevoke)) := by
  intro r
  have held' : (linkHeard src p).aut.current = some c := by rw [linkHeard_aut]; exact held
  by_cases beyond : Safety.beyondEnd c r
  · obtain ⟨⟨current, next, record, -⟩, -⟩ := (revokeTaken_beyond held' beyond).trans kept
    exact ⟨next, fun _ => ⟨current.trans held', record⟩, fun within => absurd beyond within⟩
  by_cases late : RevokedLate c r p
  · obtain ⟨written, latched, flagged⟩ := revokeTaken_late held' beyond ((revokedLate_linkHeard src c r p).2 late)
    obtain ⟨⟨current, next, record, -⟩, flag⟩ := written.trans kept
    refine ⟨next, fun h => absurd h beyond, fun _ => ⟨current, fun _ _ => ⟨record, flag, ?_, ?_⟩, fun far => ?_⟩⟩
    · exact latched_after latched (by decide) moves (by decide)
    · exact flagged_moves flagged moves (by decide)
    · exact absurd late (not_revokedLate.2 far)
  · have written := revokeTaken_shortened held' beyond (mt (revokedLate_linkHeard src c r p).1 late)
    obtain ⟨⟨current, next, record, -⟩, flag⟩ := written.trans kept
    rw [linkHeard_aut] at flag
    exact ⟨next, fun h => absurd h beyond, fun _ => ⟨current, fun run near => absurd ⟨run, near⟩ late, fun _ => ⟨record, flag⟩⟩⟩

end Sys2Proof.Machine
end

section
/-! RELINQUISH: both slots given back, NEXT first, and the REPORT of it (R100). -/

namespace Sys2Proof.Machine

/-! ### The judging -/

theorem judgeRelinquish_lockout {p : Part} (mode : p.mod.mode = .lockout) : judgeRelinquish p = (p, .no .lockout) :=
  if_pos (beq_iff_eq.2 mode)

theorem judgeRelinquish_wrongMode {p : Part} (locked : p.mod.mode ≠ .lockout) (mode : p.mod.mode ≠ .stand) :
    judgeRelinquish p = (p, .no .wrongMode) :=
  (if_neg (mt beq_iff_eq.1 locked)).trans (if_pos (bne_iff_ne.2 mode))

theorem judgeRelinquish_taken {p : Part} (mode : p.mod.mode = .stand) : judgeRelinquish p = (relinquishTaken p, .take 0) := by
  unfold judgeRelinquish
  rw [mode]
  rfl

/-! ### The slots given back -/

/-- The last revoke record once a slot has been given back. -/
def givenRecord (a : Option Authority) (o : RevokeOutcome) (old : RevokeRecord) : RevokeRecord :=
  match a with
  | some r => ⟨r.id, 0, o⟩
  | none => old

/-- The event of a slot given back. -/
def givenEvents (a : Option Authority) (pos : Word) : List (EventKind × Half × Word) :=
  a.toList.map fun r => (.authRevoked, r.id, pos)

theorem giveBack_eq (a : Option Authority) (o : RevokeOutcome) (p : Part) :
    ∃ e, giveBack a o p = (p.withEvq e).withAut { p.aut with lastRevoke := givenRecord a o p.aut.lastRevoke } := by
  cases a <;> exact ⟨_, rfl⟩

theorem giveBack_posts {a : Option Authority} {o : RevokeOutcome} {p q : Part} {l : List (EventKind × Half × Word)}
    (h : Safety.posts (giveBack a o p) q l) : Safety.posts p q (givenEvents a p.odo.pos ++ l) := by
  cases a with
  | none => exact h
  | some r => exact posts_of_evq (posts_cons h) rfl rfl

/-- NEXT given back (R100). -/
def nextGiven (p : Part) : Part := giveBack p.aut.next .nextCleared (nextEmptied p)

theorem nextGiven_eq (p : Part) : ∃ e, nextGiven p
    = (p.withEvq e).withAut { p.aut with next := none, lastRevoke := givenRecord p.aut.next .nextCleared p.aut.lastRevoke } :=
  giveBack_eq p.aut.next .nextCleared (nextEmptied p)

/-- CURRENT given back as well, and the relinquished flag set, before the numbers and the REPORT (R100). -/
def relinquishedPart (p : Part) : Part :=
  let q := giveBack (nextGiven p).aut.current .shortened ((nextGiven p).withAut { (nextGiven p).aut with current := none })
  q.withAut { q.aut with relinquished := true }

theorem relinquishTaken_eq (p : Part) : relinquishTaken p = handReport (slotsChanged (relinquishedPart p)) := rfl

/-- The authority table of a car that has given both slots back. -/
def relinquishedTable (a : Aut) : Aut :=
  { a with current := none, next := none, relinquished := true
           lastRevoke := givenRecord a.current .shortened (givenRecord a.next .nextCleared a.lastRevoke) }

theorem relinquishedTable_record (a : Aut) : (relinquishedTable a).lastRevoke =
    match a.current, a.next with
    | some c, _ => ⟨c.id, 0, .shortened⟩
    | none, some n => ⟨n.id, 0, .nextCleared⟩
    | none, none => a.lastRevoke := by
  unfold relinquishedTable
  cases a.current <;> cases a.next <;> rfl

theorem relinquishedPart_eq (p : Part) : ∃ e, relinquishedPart p = (p.withEvq e).withAut (relinquishedTable p.aut) := by
  obtain ⟨e, next⟩ := nextGiven_eq p
  obtain ⟨f, current⟩ := giveBack_eq p.aut.current .shortened
    ((nextGiven p).withAut { (nextGiven p).aut with current := none })
  refine ⟨f, ?_⟩
  unfold relinquishedPart
  rw [show (nextGiven p).aut.current = p.aut.current by rw [next]; rfl, current, next]
  rfl

/-- AUTH_REVOKED for NEXT and then for CURRENT come first. -/
theorem relinquishedPart_posts {p q : Part} (h : (relinquishedPart p).evq.queue <+: q.evq.queue) :
    Safety.posts p q (givenEvents p.aut.next p.odo.pos ++ givenEvents p.aut.current p.odo.pos) := by
  obtain ⟨e, next⟩ := nextGiven_eq p
  have kept : (nextGiven p).aut.current = p.aut.current ∧ (nextGiven p).odo = p.odo := by rw [next]; exact ⟨rfl, rfl⟩
  have second : Safety.posts (nextGiven p) q (givenEvents (nextGiven p).aut.current (nextGiven p).odo.pos ++ []) :=
    posts_of_evq (giveBack_posts (o := .shortened) (p := (nextGiven p).withAut { (nextGiven p).aut with current := none })
      (posts_nil h)) rfl rfl
  rw [List.append_nil, kept.1, kept.2] at second
  exact posts_of_evq (giveBack_posts (p := nextEmptied p) second) rfl rfl

/-! ### The REPORT -/

/-- Outside RUN a REPORT handed at the end of an order stands in the queue, and still says what the car shows. -/
theorem handedReport_shows {b y t : Part} {o : Ord} (mode : y.mod.mode = .stand) (part : t = finish b ((handReport y).withOrd o)) :
    Safety.reported y t ∧ reportPayload t = reportPayload y := by
  have listening : y.mod.mode ≠ .stabled := by rw [mode]; decide
  have returned := finish_returned b ((handReport y).withOrd o)
  rw [← part] at returned
  refine ⟨handReport_reported y listening returned.link returned.msg, ?_⟩
  obtain ⟨e, l, handed⟩ := handReport_radio y listening
  obtain ⟨g, finished⟩ := finish_outside_run (q := (handReport y).withOrd o) b
    (by rw [handed]; show y.mod.mode ≠ .run; rw [mode]; decide)
  rw [part, finished, handed]
  rfl

/-! ### The order -/

/-- What an accepted RELINQUISH ends with (R100). -/
theorem relinquish_takes {u : Trigger} {s : State} (judged : Safety.triggerJudged u s) (mode : s.part.mod.mode = .stand) :
    ∃ t, exec (.relinquish u) s = .next t ∧ Safety.orderDone 14 u 0 s t
      ∧ SlotsKept (relinquishedTable s.part.aut) t.part.aut
      ∧ Safety.posts s.part t.part (givenEvents s.part.aut.next s.part.odo.pos ++ givenEvents s.part.aut.current s.part.odo.pos)
      ∧ ∃ y, Safety.reported y t.part ∧ reportPayload t.part = reportPayload y
        ∧ y.now = s.part.now ∧ y.link.queue = s.part.link.queue := by
  refine order_take judged (judgeRelinquish_taken (p := received 14 u s) mode) _ fun t ⟨o, part⟩ done _ => ?_
  obtain ⟨returned, frame⟩ := order_rest part
  obtain ⟨e, given⟩ := relinquishedPart_eq (received 14 u s)
  have changed := slotsChanged_returned (relinquishedPart (received 14 u s))
  have handed : Moves [] (relinquishedPart (received 14 u s)) (relinquishTaken (received 14 u s)) :=
    handReport_moves (slotsChanged_moves (.refl _))
  refine ⟨done, ?table, ?events, slotsChanged (relinquishedPart (received 14 u s)), ?report⟩
  case table =>
    have kept := returned.slotsKept
    rw [Part.withOrd_aut, relinquishTaken_eq, handReport_aut] at kept
    have start := changed.slotsKept
    rw [given] at start kept
    exact start.trans kept
  case events =>
    have posted := relinquishedPart_posts ((handed.frame.pre (by decide)).trans (frame.pre (by decide)))
    exact posts_of_evq posted rfl rfl
  case report =>
    have stand : (slotsChanged (relinquishedPart (received 14 u s))).mod.mode = .stand := by
      rw [(slotsChanged_moves (H := []) (.refl _)).frame.mode (by decide), given]; exact mode
    obtain ⟨reported, payload⟩ := handedReport_shows stand part
    refine ⟨reported, payload, ?_, ?_⟩
    · rw [changed.now, given]; rfl
    · rw [changed.link, given]; rfl

/-- Settles O41: REVOKE by the slot it names, and RELINQUISH by its two conditions. -/
theorem authorityGivenUp : Obligations.AuthorityGivenUp := by
  unfold Obligations.AuthorityGivenUp
  refine ⟨fun src id point s delivered => ?revoke, fun u s judged => ?relinquish⟩
  case revoke =>
    obtain ⟨t, answered, moves, kept, posts⟩ := revoke_ends src id point s delivered
    have aut := linkHeard_aut src s.part
    refine ⟨t, answered, posts, fun c held named => ?current, fun c n held other next named => ?next, fun neither => ?missed⟩
    case current =>
      subst named
      exact revoke_current held moves kept
    case next =>
      rw [revokeTaken_next (by rw [aut]; exact held) other (by rw [aut]; exact next) named, aut] at kept
      obtain ⟨⟨current, next, record, -⟩, -⟩ := (revokeWritten_kept _ _ _ _ _).trans kept
      exact ⟨current.trans held, next, record⟩
    case missed =>
      rw [revokeTaken_missed (by rw [aut]; exact neither), aut] at kept
      obtain ⟨⟨current, next, record, missed, -⟩, -⟩ := kept
      exact ⟨current, next, missed, record⟩
  case relinquish =>
    refine check_step (fun locked => refuse_of judged (judgeRelinquish_lockout (p := received 14 u s) (not_not.1 locked)))
      fun unlocked => ?_
    refine check_step (fun mode => refuse_of judged (judgeRelinquish_wrongMode (p := received 14 u s) unlocked mode))
      fun mode => check_end ?_
    obtain ⟨t, answered, done, kept, posts, y, reported, payload, now, queue⟩ := relinquish_takes judged mode
    obtain ⟨⟨current, next, record, -, relinquished⟩, -⟩ := kept
    unfold Safety.reported Safety.reportRoom at reported
    rw [now, queue, ← payload] at reported
    refine ⟨t, answered, done, current, next, relinquished, record.trans (relinquishedTable_record _), ?_, reported⟩
    rw [List.map_append]
    exact posts

end Sys2Proof.Machine
end

section
/-! The words of the mirror (R191, R193): each section stands in the room that Table 12-7 gives it, so that what it lists is what a
read of its offsets shows. -/

namespace Sys2Proof.Machine

open Sys2Proof.Safety (shownAt)

/-! ### Words one behind the other -/

section
variable {p : Part} {o : Nat} {w : Word} {words more : List Word}

theorem shownAt_cons : shownAt o (w :: words) p ↔ mirrorWord o p = w ∧ shownAt (o + 4) words p := by
  unfold shownAt
  constructor
  · intro shown
    refine ⟨by simpa using shown 0, fun k hk => ?_⟩
    have next := shown (k + 1) (by simpa using hk)
    rwa [List.getElem?_cons_succ, show o + 4 * (k + 1) = o + 4 + 4 * k by omega] at next
  · rintro ⟨head, tail⟩ (_ | k) hk
    · simpa using head
    · rw [List.getElem?_cons_succ, show o + 4 * (k + 1) = o + 4 + 4 * k by omega]
      exact tail k (by simpa using hk)

theorem shownAt_nil : shownAt o [] p := fun _ hk => absurd hk (Nat.not_lt_zero _)

theorem shownAt_append : shownAt o (words ++ more) p ↔ shownAt o words p ∧ shownAt (o + 4 * words.length) more p := by
  induction words generalizing o with
  | nil => simp [shownAt_nil]
  | cons w words ih =>
    rw [List.cons_append, shownAt_cons, shownAt_cons, ih, and_assoc, List.length_cons,
      show o + 4 + 4 * words.length = o + 4 * (words.length + 1) by omega]

end

/-! ### Records of one width -/

section
variable {α : Type} {f : α → List Word} {width : Nat}

theorem length_flatMap_width (wide : ∀ x, (f x).length = width) (l : List α) : (l.flatMap f).length = l.length * width := by
  induction l with
  | nil => simp
  | cons x l ih => rw [List.flatMap_cons, List.length_append, wide, ih, List.length_cons, Nat.succ_mul, Nat.add_comm]

/-- Of records of one width, the one at a place stands at that many widths behind the first. -/
theorem shownAt_record (wide : ∀ x, (f x).length = width) {l : List α} {i : Nat} {x : α} {o n : Nat} {p : Part}
    (shown : shownAt o (l.flatMap f) p) (at_i : l[i]? = some x) (place : n = o + 4 * (i * width)) : shownAt n (f x) p := by
  induction l generalizing o i with
  | nil => cases at_i
  | cons y l ih =>
    rw [List.flatMap_cons, shownAt_append, wide] at shown
    obtain ⟨head, tail⟩ := shown
    cases i with
    | zero => cases at_i; simpa [place] using head
    | succ i => exact ih tail at_i (by rw [place, Nat.succ_mul i width]; omega)

theorem shownAt_vector (wide : ∀ x, (f x).length = width) {m : Nat} {v : Vector α m} {o n : Nat} {p : Part}
    (shown : shownAt o (v.toList.flatMap f) p) (i : Fin m) (place : n = o + 4 * (i.val * width)) : shownAt n (f v[i]) p :=
  shownAt_record wide shown (i := i.val) (by simp) place

/-- A list of records fills its room, whatever it holds. -/
theorem recordWords_length (n : Nat) (wide : ∀ x, (f x).length = width) (l : List α) : (recordWords n width f l).length = n * width := by
  unfold recordWords
  rw [List.length_append, length_flatMap_width wide, List.length_take, List.length_replicate, ← Nat.add_mul]
  congr 1; omega

/-- A record within the room of its list stands at its place. -/
theorem shownAt_recordWords (wide : ∀ x, (f x).length = width) {l : List α} {n i : Nat} {x : α} {o m : Nat} {p : Part}
    (shown : shownAt o (recordWords n width f l) p) (within : i < n) (at_i : l[i]? = some x) (place : m = o + 4 * (i * width)) :
    shownAt m (f x) p :=
  shownAt_record wide (shownAt_append.1 shown).1 (by rw [List.getElem?_take, if_pos within]; exact at_i) place

end

/-! ### The width of each record (Table 12-12) -/

@[simp] theorem entryWords_length (e : Entry) : (entryWords e).length = 5 := rfl

@[simp] theorem authorityWords_length (a : Option Authority) : (authorityWords a).length = 6 := by cases a <;> rfl

@[simp] theorem restrictionWords_length (r : Restriction) : (restrictionWords r).length = 7 := rfl

@[simp] theorem doorWords_length (p : Part) (d : Fin 8) : (doorWords p d).length = 6 := rfl

@[simp] theorem sideWords_length (r : SideRec) : (sideWords r).length = 4 := rfl

@[simp] theorem permitWords_length (m : Permit) : (permitWords m).length = 3 := rfl

@[simp] theorem stationWords_length (x : Station) : (stationWords x).length = 2 := rfl

@[simp] theorem guardWords_length (g : Guard) : (guardWords g).length = 8 := rfl

@[simp] theorem slotWords_length (r : Slot) : (slotWords r).length = 16 := by simp [slotWords]

theorem classWords_length (f : TxFrame) : [wNat f.cls.code].length = 1 := rfl

theorem stepWords_length (x : StepResult × Half) : [wNat x.1.code, wNat x.2.toNat].length = 2 := rfl

@[simp] theorem brakeStateWords_length (p : Part) : (brakeStateWords p).length = 3 := by
  unfold brakeStateWords; split <;> rfl

@[simp] theorem assemblerWords_length (a : Assembler) : (assemblerWords a).length = 3 := by cases a <;> rfl

@[simp] theorem mailboxWords_length (l : List Message) : (mailboxWords l).length = 17 := by cases l <;> simp [mailboxWords]

@[simp] theorem testWords_length (r : TestRecord) : (testWords r).length = 13 := by
  simp [testWords, length_flatMap_width stepWords_length]

@[simp] theorem headWords_length (q : Evq) : (headWords q).length = 4 := by unfold headWords; split <;> rfl

/-- The words of DOORS: the deferred pull takes three, held or not. -/
theorem doorsWords_eq (p : Part) : ∃ deferred : List Word, deferred.length = 3 ∧ doorsWords p =
    allDoors.flatMap (doorWords p) ++ sideWords p.dor.left ++ sideWords p.dor.right ++ recordWords 4 3 permitWords p.dor.permits
    ++ deferred ++ [p.dor.risingLow, p.dor.risingHigh, p.dor.fallingLow, p.dor.fallingHigh] :=
  ⟨_, by split <;> rfl, rfl⟩

/-! ### The sections in their rooms (Table 12-7) -/

/-- The words between a section's offset and the next one's (Table 12-7). -/
def Section.room : Section → Nat
  | .car => 64 | .supervision => 64 | .brake => 128 | .authority => 64 | .restrictions => 64 | .doors => 128 | .radio => 256
  | .guards => 192 | .orders => 1024 | .fault => 16 | .bridge => 32

theorem sectionAt_room (s : Section) {n : Nat} (from_ : s.offset ≤ n) (below : n < s.offset + 4 * s.room) : sectionAt n = some s := by
  unfold sectionAt
  cases s <;> simp only [Section.offset, Section.room] at from_ below <;> simp (disch := omega) only [if_pos, if_neg]

/-- A read in a section's room shows its generation word and the words behind it. -/
theorem mirrorWord_room (s : Section) {k : Nat} (within : k < s.room) (p : Part) :
    mirrorWord (s.offset + 4 * k) p = ((p.generation s :: sectionWords p s)[k]?).getD 0 := by
  have place : (s.offset + 4 * k - s.offset) / 4 = k := by omega
  unfold mirrorWord
  simp only [sectionAt_room s (Nat.le_add_right _ _) (show s.offset + 4 * k < _ by omega), place]

theorem sectionWords_length (p : Part) (s : Section) : (sectionWords p s).length < s.room := by
  cases s with
  | car | supervision | fault | bridge => simp [sectionWords, Section.room, carWords, supervisionWords]
  | brake => simp [sectionWords, Section.room, brakeWords, length_flatMap_width (entryWords_length)]
  | authority => simp [sectionWords, Section.room, autWords]
  | restrictions => simp [sectionWords, Section.room, restrictionsWords, recordWords_length _ restrictionWords_length]
  | doors =>
    obtain ⟨deferred, three, words⟩ := doorsWords_eq p
    simp [sectionWords, Section.room, words, three, allDoors, recordWords_length _ permitWords_length]
  | radio =>
    simp [sectionWords, Section.room, radioWords, recordWords_length 4 classWords_length,
      length_flatMap_width stationWords_length]
  | guards => simp [sectionWords, Section.room, length_flatMap_width guardWords_length]
  | orders => simp [sectionWords, Section.room, length_flatMap_width slotWords_length]

/-- The generation word stands at the head of its section (R191). -/
theorem mirrorWord_generation (s : Section) (p : Part) : mirrorWord s.offset p = p.generation s :=
  mirrorWord_room s (k := 0) (by cases s <;> decide) p

/-- The words of a section stand behind its generation word. -/
theorem section_shown (s : Section) (p : Part) : shownAt (s.offset + 4) (sectionWords p s) p := by
  intro k hk
  rw [show s.offset + 4 + 4 * k = s.offset + 4 * (k + 1) by omega,
    mirrorWord_room s (Nat.lt_of_le_of_lt hk (sectionWords_length p s)), List.getElem?_cons_succ, List.getElem?_eq_getElem hk]
  rfl

theorem sectionAt_events {k : Nat} (within : k < 16) : sectionAt (0x4F00 + 4 * k) = none := by
  unfold sectionAt
  simp (disch := omega) only [if_pos, if_neg]

/-- The words of EVENTS stand behind its generation word, which the event queue keeps. -/
theorem events_shown (p : Part) : shownAt 0x4F00 (p.evq.generation :: eventsWords p.evq) p := by
  intro k hk
  have within : k < 16 := by simp [eventsWords] at hk; omega
  have place : (0x4F00 + 4 * k - 0x4F00) / 4 = k := by omega
  unfold mirrorWord
  simp only [sectionAt_events within, place, List.getElem?_eq_getElem hk, Option.getD_some]

end Sys2Proof.Machine
end

section
/-! What the mirror shows, section by section (Tables 11-6, 12-7 and 12-12). -/

namespace Sys2Proof.Machine

open Sys2Proof.Safety (shownAt)

/-! ### The parts of each section at their offsets -/

theorem brake_shown (p : Part) :
    shownAt 0x4204 [wNat p.brk.commanded.value, wNat (lowestSource p.brk), wNat p.brk.confirmed.value] p
    ∧ shownAt 0x421C (p.brk.table.toList.flatMap entryWords) p
    ∧ shownAt 0x430C [wNat p.outputs, wNat (feedbackBits p.brk.inputs)] p ∧ shownAt 0x4314 (testWords p.brk.record) p := by
  have shown := section_shown .brake p
  simp only [sectionWords, brakeWords, Section.offset, shownAt_append, List.length_append, brakeStateWords_length,
    length_flatMap_width entryWords_length, Vector.length_toList, List.length_cons, List.length_nil, Nat.reduceAdd, Nat.reduceMul] at shown
  obtain ⟨⟨⟨⟨stages, -⟩, entries⟩, lines⟩, test⟩ := shown
  exact ⟨stages, entries, lines, test⟩

theorem authority_shown (p : Part) :
    shownAt 0x4404 (authorityWords p.aut.current ++ authorityWords p.aut.next) p
    ∧ shownAt 0x4434 [wordOfCount p.aut.dc, wFlag p.aut.request, wNat p.aut.travel.code, wFlag p.aut.overrun, wFlag p.aut.lateRevoke,
        wFlag p.aut.relinquished, wNat p.aut.lastRevoke.id.toNat, wNat p.aut.lastRevoke.point,
        wNat p.aut.lastRevoke.outcome.code, wNat p.aut.missed.toNat] p := by
  have shown := shownAt_append.1 (section_shown .authority p)
  rw [List.length_append, authorityWords_length, authorityWords_length] at shown
  exact shown

theorem restrictions_shown (p : Part) :
    mirrorWord 0x4504 p = wNat p.ssu.restrictions.length
    ∧ shownAt 0x4508 (recordWords 8 7 restrictionWords p.ssu.restrictions) p :=
  shownAt_cons.1 (section_shown .restrictions p)

theorem doors_shown (p : Part) :
    shownAt 0x4604 (allDoors.flatMap (doorWords p)) p ∧ shownAt 0x46C4 (sideWords p.dor.left) p
    ∧ shownAt 0x46D4 (sideWords p.dor.right) p ∧ shownAt 0x46E4 (recordWords 4 3 permitWords p.dor.permits) p
    ∧ shownAt 0x4720 [p.dor.risingLow, p.dor.risingHigh, p.dor.fallingLow, p.dor.fallingHigh] p := by
  have shown := section_shown .doors p
  obtain ⟨deferred, three, words⟩ := doorsWords_eq p
  have eight : allDoors.length = 8 := rfl
  simp only [sectionWords, words, Section.offset, shownAt_append, List.length_append, three, sideWords_length, eight,
    length_flatMap_width (doorWords_length p), recordWords_length _ permitWords_length, Nat.reduceAdd, Nat.reduceMul] at shown
  obtain ⟨⟨⟨⟨⟨doors, left⟩, right⟩, permits⟩, -⟩, masks⟩ := shown
  exact ⟨doors, left, right, permits, masks⟩

theorem radio_shown (p : Part) :
    shownAt 0x4804 [wNat p.link.state.code, wFlag p.link.cd, wFlag p.link.ptt, wNat p.link.bitRate.toNat, wFlag p.link.lost,
      wFlag p.link.flowHold] p
    ∧ shownAt 0x4828 (p.link.rxDrops.toList.map (fun c => wNat c.toNat) ++ p.link.txDrops.toList.map (fun c => wNat c.toNat)) p
    ∧ shownAt 0x4860 [wNat p.link.noise.toNat, wNat p.msg.badFormat.toNat] p
    ∧ shownAt 0x4868 (p.link.stations.toList.flatMap stationWords) p
    ∧ shownAt 0x4958 [wFlag p.msg.rollAway, wNat p.link.queue.length] p
    ∧ shownAt 0x4970 [wNat p.msg.mailbox.length, wNat p.msg.textDrops.toNat] p
    ∧ shownAt 0x4978 (mailboxWords p.msg.mailbox) p := by
  have shown := section_shown .radio p
  simp only [sectionWords, radioWords, Section.offset, shownAt_append, List.length_append, assemblerWords_length, List.length_map,
    length_flatMap_width stationWords_length, recordWords_length 4 classWords_length, Vector.length_toList, List.length_cons,
    List.length_nil, Nat.reduceAdd, Nat.reduceMul] at shown ⊢
  obtain ⟨⟨⟨⟨⟨⟨⟨⟨⟨link, -⟩, rx⟩, tx⟩, counts⟩, stations⟩, queued⟩, -⟩, mail⟩, mailbox⟩ := shown
  exact ⟨link, ⟨rx, tx⟩, counts, stations, queued, mail, mailbox⟩

theorem guards_shown (p : Part) : shownAt 0x4C04 (p.bridge.guards.toList.flatMap guardWords) p := section_shown .guards p

theorem orders_shown (p : Part) : shownAt 0x5040 (p.ord.slots.toList.flatMap slotWords) p :=
  (shownAt_append.1 (section_shown .orders p)).2

theorem fault_shown (p : Part) : mirrorWord 0x4F44 p = wNat p.evq.faults.toNat :=
  (shownAt_cons.1 (section_shown .fault p)).1

theorem bridge_shown (p : Part) : mirrorWord 0x4F84 p = wNat p.bridge.dropped.toNat :=
  (shownAt_cons.1 (section_shown .bridge p)).1

/-! ### Words of one value -/

theorem num_eq (n : Nat) : Safety.num n = wNat n := rfl

theorem flag_eq (b : Bool) : Safety.flag b = wFlag b := by cases b <;> rfl

theorem numOr_eq (o : Option Nat) : Safety.numOr o = wOpt o := by cases o <;> rfl

theorem mirrorCar_shown (p : Part) : ∀ e ∈ Safety.mirrorCar p, mirrorWord e.1 p = e.2 := by
  have car : shownAt 0x4004 (carWords p) p := section_shown .car p
  have supervision : shownAt 0x4104 (supervisionWords p) p := section_shown .supervision p
  obtain ⟨stages, -, lines, test⟩ := brake_shown p
  simp only [carWords, supervisionWords, testWords, List.cons_append, shownAt_cons, Nat.reduceAdd] at car supervision stages lines test
  simp only [Safety.mirrorCar, List.forall_mem_cons, num_eq, flag_eq, numOr_eq, car, supervision, stages, lines, test, true_and]
  exact List.forall_mem_nil _

theorem mirrorOthers_shown (p : Part) : ∀ e ∈ Safety.mirrorOthers p, mirrorWord e.1 p = e.2 := by
  obtain ⟨-, authority⟩ := authority_shown p
  obtain ⟨restrictions, -⟩ := restrictions_shown p
  obtain ⟨-, -, -, -, masks⟩ := doors_shown p
  obtain ⟨link, -, counts, -, queued, mail, -⟩ := radio_shown p
  have events := (shownAt_append.1 (shownAt_cons.1 (events_shown p)).2).2
  rw [headWords_length] at events
  simp only [shownAt_cons, Nat.reduceAdd, Nat.reduceMul] at authority masks link counts queued mail events
  simp only [Safety.mirrorOthers, List.forall_mem_cons, num_eq, flag_eq, authority, restrictions, masks, link, counts, queued, mail,
    events, fault_shown, bridge_shown, true_and]
  exact List.forall_mem_nil _

/-! ### Records -/

theorem entry_shown (d : DemandSource) (p : Part) : shownAt (0x421C + d.index.val * 20)
    [Safety.num (p.entry d).stage.value, Safety.flag (p.entry d).latched, Safety.num (p.entry d).cause.toNat, (p.entry d).setTime,
      (p.entry d).setPos] p := by
  obtain ⟨-, entries, -, -⟩ := brake_shown p
  rw [flag_eq]
  exact shownAt_vector entryWords_length entries d.index (by omega)

theorem authorityShown_eq (a : Option Authority) : Safety.authorityShown a = authorityWords a := by cases a <;> rfl

theorem authorities_shown (p : Part) :
    shownAt 0x4404 (Safety.authorityShown p.aut.current ++ Safety.authorityShown p.aut.next) p := by
  rw [authorityShown_eq, authorityShown_eq]
  exact (authority_shown p).1

theorem restrictionShown_eq (r : Restriction) : Safety.restrictionShown r = restrictionWords r := by
  unfold Safety.restrictionShown restrictionWords
  cases r.origin <;> rfl

theorem restriction_shown {i : Nat} {r : Restriction} {p : Part} (within : i < 8) (held : p.ssu.restrictions[i]? = some r) :
    shownAt (0x4508 + i * 28) (Safety.restrictionShown r) p := by
  rw [restrictionShown_eq]
  exact shownAt_recordWords restrictionWords_length (restrictions_shown p).2 within held (by omega)

/-- A door's state, retry count, close-failed flag and fault cause head its record. -/
theorem door_shown (d : Fin 8) (p : Part) : shownAt (0x4604 + d.val * 24)
    [Safety.num (p.door d).state.code, Safety.num (p.door d).retries, Safety.flag (p.door d).closeFailed,
      Safety.num (p.door d).fault.code] p := by
  obtain ⟨doors, -⟩ := doors_shown p
  have shown := shownAt_record (doorWords_length p) doors (i := d.val) (x := d) (by revert d; decide)
    (show 0x4604 + d.val * 24 = _ by omega)
  rw [flag_eq]
  exact (shownAt_append (words := [_, _, _, _]).1 shown).1

theorem side_shown (x : Side) (p : Part) : shownAt (match x with | .left => 0x46C4 | .right => 0x46D4)
    [Safety.flag (p.side x).released, Safety.num (p.side x).platform.toNat, Safety.flag (p.side x).stationControlled,
      (p.side x).position] p := by
  obtain ⟨-, left, right, -, -⟩ := doors_shown p
  rw [flag_eq, flag_eq]
  cases x with
  | left => exact left
  | right => exact right

theorem permitWords_eq (m : Permit) : permitWords m =
    [Safety.num m.platform.toNat, Safety.num ((if m.left then 1 else 0) + (if m.right then 2 else 0)), m.granted] := by
  unfold permitWords
  cases m.left <;> cases m.right <;> rfl

theorem permit_shown {i : Nat} {m : Permit} {p : Part} (within : i < 4) (held : p.dor.permits[i]? = some m) :
    shownAt (0x46E4 + i * 12)
      [Safety.num m.platform.toNat, Safety.num ((if m.left then 1 else 0) + (if m.right then 2 else 0)), m.granted] p := by
  obtain ⟨-, -, -, permits, -⟩ := doors_shown p
  rw [← permitWords_eq]
  exact shownAt_recordWords permitWords_length permits within held (by omega)

theorem drops_shown (p : Part) :
    shownAt 0x4828 ((p.link.rxDrops.toList ++ p.link.txDrops.toList).map fun n => Safety.num n.toNat) p := by
  obtain ⟨-, drops, -⟩ := radio_shown p
  rw [List.map_append]
  exact drops

theorem stationWords_eq (x : Station) : stationWords x =
    [Safety.numOr (x.sequence.map BitVec.toNat), x.lastHeard.getD 0xFFFFFFFF#32] := by
  unfold stationWords
  cases x.sequence <;> cases x.lastHeard <;> rfl

theorem station_shown (i : Fin 30) (p : Part) : shownAt (0x4868 + i.val * 8)
    [Safety.numOr ((p.link.stations[i]).sequence.map BitVec.toNat), ((p.link.stations[i]).lastHeard).getD 0xFFFFFFFF#32] p := by
  obtain ⟨-, -, -, stations, -⟩ := radio_shown p
  rw [← stationWords_eq]
  exact shownAt_vector stationWords_length stations i (by omega)

/-- The head of the mailbox: its three numbers, the text, and behind it arrival time and serial. -/
theorem mailbox_shown {m : Message} {rest : List Message} {p : Part} (held : p.msg.mailbox = m :: rest) :
    shownAt 0x4978 [Safety.num m.station.toNat, Safety.num m.sequence.toNat, Safety.num m.bytes.length] p
    ∧ shownAt 0x49B4 [m.arrival, Safety.num m.serial.toNat] p := by
  obtain ⟨-, -, -, -, -, -, shown⟩ := radio_shown p
  rw [held] at shown
  obtain ⟨front, behind⟩ := shownAt_append.1 shown
  rw [List.length_append, List.length_map, List.length_range] at behind
  exact ⟨(shownAt_append.1 front).1, behind⟩

theorem guard_shown (i : Fin 4) (p : Part) : shownAt (0x4C04 + i.val * 32)
    [Safety.flag (p.bridge.guards[i]).enabled, (p.bridge.guards[i]).address, Safety.num (p.bridge.guards[i]).kind.code,
      (p.bridge.guards[i]).low, (p.bridge.guards[i]).high, Safety.num (p.bridge.guards[i]).action.code,
      Safety.num (p.bridge.guards[i]).violations.toNat, (p.bridge.guards[i]).last] p := by
  rw [flag_eq]
  exact shownAt_vector guardWords_length (guards_shown p) i (by omega)

/-- A slot's record, before the words that keep it 64 bytes wide. -/
theorem slot_shown (i : Fin 16) (p : Part) : shownAt (0x5040 + i.val * 64)
    ([Safety.num ((p.ord.slots[i]).state.code + 256 * (p.ord.slots[i]).kind.toNat + 65536 * (p.ord.slots[i]).tag.toNat
      + 16777216 * (p.ord.slots[i]).reason.code), (p.ord.slots[i]).result] ++ (p.ord.slots[i]).work.toList) p := by
  have shown := shownAt_vector slotWords_length (orders_shown p) i (show 0x5040 + i.val * 64 = _ by omega)
  exact (shownAt_append.1 shown).1

end Sys2Proof.Machine
end

section
/-! The memory path (R173, R177, R179): host reads, memory's answer and its timeout. -/

namespace Sys2Proof.Machine

/-! ### Where no return to STAND is due -/

/-- A change of events alone ends with those events. -/
theorem finish_withEvq (b : Part) {p : Part} (stand : Safety.standDone p) (e : Evq) : (finish b (p.withEvq e)).evq = e :=
  finish_at b (p.withEvq e) (standDone_eq stand)

/-! ### A host read (R173, R177) -/

theorem step_read {r : HostRead} {rest : List HostRead} {s : State} (idle : s.pending = []) (waits : s.reads = r :: rest) :
    step s = takeRead r { s with reads := rest } := by
  unfold step; rw [idle, waits]

/-- A read that lies outside the mirror area, or that comes under a reset, is forwarded. -/
theorem hostRead_forwards {r : HostRead} {p : Part} (outside : Safety.forwardedRead r p) (x : Path) :
    hostRead r p x = (p, forwardRead (BitVec.ofNat 24 (r.addr.toNat / 4 * 4)) r.enables x) := by
  have base : p.areaBase = p.bridge.base.toNat * 1048576 := rfl
  unfold hostRead
  refine if_neg ?_
  simp only [Bool.and_eq_true, Bool.not_eq_true', decide_eq_true_eq, Part.inArea]
  rintro ⟨⟨⟨live, above, -⟩, low⟩, high⟩
  obtain reset | below | beyond := outside
  · rw [live] at reset; cases reset
  · omega
  · omega

/-- A read in the mirror area is the part's to answer. -/
theorem hostRead_answers {r : HostRead} {n : Nat} {p : Part} (inside : Safety.mirrorRead r n p) (x : Path) :
    hostRead r p x = readMirror n r.enables p x := by
  obtain ⟨live, low, high, place⟩ := inside
  have base : p.areaBase = p.bridge.base.toNat * 1048576 := rfl
  have offset : r.addr.toNat / 4 * 4 - p.areaBase = n := by omega
  have area : p.inArea (r.addr.toNat / 4 * 4) = true := by
    unfold Part.inArea
    rw [Bool.and_eq_true, decide_eq_true_eq, decide_eq_true_eq]
    omega
  unfold hostRead
  simp only [offset, live, area, low, high, Bool.not_false, Bool.and_self, decide_true, if_true]

/-- With no reset asserted, the part answers with the word shown. -/
theorem readMirror_live (n : Nat) (e : BitVec 4) {p : Part} (live : p.asserted = false) (x : Path) :
    readMirror n e p x = (if isFull e then readEffect n p else p, substitute (mirrorWord n p) x) := by
  unfold readMirror; rw [live]; rfl

theorem isFull_iff (e : BitVec 4) : isFull e = true ↔ e = 0xF#4 := by unfold isFull; exact beq_iff_eq

/-- Only a full read of the fourth head word and of the fault summary has an effect. -/
theorem readEffect_none {n : Nat} {e : BitVec 4} {p : Part} (quiet : e ≠ 0xF#4 ∨ (n ≠ 0x4F10 ∧ n ≠ 0x4F44)) :
    (if isFull e then readEffect n p else p) = p := by
  split
  next full =>
    obtain partly | ⟨head, summary⟩ := quiet
    · exact absurd ((isFull_iff e).1 full) partly
    · unfold readEffect; rw [if_neg head, if_neg summary]
  next => rfl

theorem completeEarlier_mem_free {x : Path} (free : x.access = none) : (completeEarlier x).mem = x.mem := by
  rw [completeEarlier_none x free]

theorem forwardRead_mem (a : BitVec 24) (e : BitVec 4) {x : Path} (free : x.access = none) : (forwardRead a e x).mem = x.mem :=
  completeEarlier_mem_free free

theorem substitute_mem (w : Word) {x : Path} (free : x.access = none) : (substitute w x).mem = x.mem :=
  completeEarlier_mem_free free

theorem takeRead_forwards {r : HostRead} {s : State} (outside : Safety.forwardedRead r s.part) (stand : Safety.standDone s.part) :
    takeRead r s = .next { s with path := forwardRead (BitVec.ofNat 24 (r.addr.toNat / 4 * 4)) r.enables s.path } := by
  unfold takeRead hostRow
  rw [hostRead_forwards outside, finish_same stand]

theorem takeRead_answers {r : HostRead} {n : Nat} {s : State} (inside : Safety.mirrorRead r n s.part) :
    takeRead r s = .next { s with
      part := finish s.part (if isFull r.enables then readEffect n s.part else s.part)
      path := substitute (mirrorWord n s.part) s.path } := by
  unfold takeRead hostRow
  rw [hostRead_answers inside, readMirror_live _ _ inside.1]

/-- A read of the fault summary, full or not (R177, R190). -/
theorem faultSummaryRead_answers (e : BitVec 4) {s : State} (live : s.part.asserted = false) (stand : Safety.standDone s.part) :
    ∃ t, exec (.faultSummaryRead e) s = .next t ∧ t.path.hostData = BitVec.ofNat 32 s.part.evq.faults.toNat
      ∧ (e = 0xF#4 → t.part.evq.faults = 0) ∧ (e ≠ 0xF#4 → t.part.evq = s.part.evq) := by
  refine hostRow_ends (readMirror 0x4F44 e) s _ fun t part path _ => ?_
  rw [readMirror_live _ _ live] at part path
  refine ⟨?data, fun full => ?full, fun partly => ?partly⟩
  case data =>
    rw [path]
    exact fault_shown s.part
  case full =>
    have cleared : (if isFull e then readEffect 0x4F44 s.part else s.part) = s.part.withEvq { s.part.evq with faults := 0 } :=
      if_pos ((isFull_iff e).2 full)
    rw [part, cleared, finish_withEvq _ stand]
  case partly => rw [part, readEffect_none (.inl partly), finish_same stand]

/-! ### Memory's answer (R179) -/

theorem memoryAnswers_none (w : Word) {x : Path} (free : x.access = none) : memoryAnswers w x = x := by
  unfold memoryAnswers; rw [free]

theorem memoryAnswers_read (w : Word) {x : Path} {a : Access} (waits : x.access = some a) (read : a.isRead = true) :
    memoryAnswers w x = { x with access := none, hostData := w } := by
  unfold memoryAnswers; rw [waits]; exact if_pos read

theorem completeEarlier_write {x : Path} {a : Access} (waits : x.access = some a) (write : a.isRead = false) :
    completeEarlier x = { x with access := none, mem := Memory.writeWord x.mem a.addr.toNat a.data a.enables } := by
  unfold completeEarlier; rw [waits]; simp only [write, Bool.false_eq_true, if_false]

theorem memoryAnswers_write (w : Word) {x : Path} {a : Access} (waits : x.access = some a) (write : a.isRead = false) :
    memoryAnswers w x = { x with access := none, mem := Memory.writeWord x.mem a.addr.toNat a.data a.enables } := by
  unfold memoryAnswers
  rw [← completeEarlier_write waits write, waits]
  exact if_neg (by rw [write]; exact Bool.false_ne_true)

theorem memoryReady_answers (w : Word) (s : State) :
    ∃ t, exec (.memoryReady w) s = .next t ∧ t.path.access = none
      ∧ (s.path.access = none → t.path = s.path)
      ∧ ∀ x, s.path.access = some x →
          (x.isRead = true → t.path.hostData = w ∧ t.path.mem = s.path.mem)
          ∧ (x.isRead = false → t.path.hostData = s.path.hostData
              ∧ t.path.mem = Memory.writeWord s.path.mem x.addr.toNat x.data x.enables) := by
  refine hostRow_ends (fun p x => (p, memoryAnswers w x)) s _ fun t _ path _ => ?_
  rw [path]
  refine ⟨?access, memoryAnswers_none w, fun x waits => ⟨fun read => ?read, fun write => ?write⟩⟩
  case access =>
    unfold memoryAnswers
    split
    · split
      · rfl
      · exact completeEarlier_access _
    · assumption
  case read => rw [memoryAnswers_read w waits read]; exact ⟨rfl, rfl⟩
  case write => rw [memoryAnswers_write w waits write]; exact ⟨rfl, rfl⟩

/-! ### Its timeout (R179) -/

/-- The part at the end of the 50 µs: MEMORY_TIMEOUT, which a reset holds off. -/
def timeoutPosted (x : Access) (p : Part) : Part := if p.asserted then p else post .memoryTimeout (if x.isRead then 1 else 2) p

/-- The path behind a timeout: a read shows all ones, a write has reached memory or not (log 5). -/
def TimedOut (x : Access) (before after : Path) : Prop :=
  after.access = none
  ∧ (x.isRead = true → after.hostData = 0xFFFFFFFF#32 ∧ after.mem = before.mem)
  ∧ (x.isRead = false → after.hostData = before.hostData
      ∧ (after.mem = before.mem ∨ after.mem = Memory.writeWord before.mem x.addr.toNat x.data x.enables))

theorem memoryTimesOut_none {x : Path} (free : x.access = none) (p : Part) : memoryTimesOut p x = (p, x) := by
  unfold memoryTimesOut; rw [free]

theorem memoryTimesOut_read {x : Path} {a : Access} (waits : x.access = some a) (read : a.isRead = true) (p : Part) :
    memoryTimesOut p x = (timeoutPosted a p, { x with access := none, hostData := 0xFFFFFFFF#32 }) := by
  unfold memoryTimesOut; rw [waits]; exact if_pos read

theorem memoryTimesOut_write {x : Path} {a : Access} (waits : x.access = some a) (write : a.isRead = false) (p : Part) :
    memoryTimesOut p x = ((timeoutPosted a p).withFreeCount ((timeoutPosted a p).freeCount + 1),
      if Config.timeoutWriteLands p.freeCount then completeEarlier x else { x with access := none }) := by
  unfold memoryTimesOut; rw [waits]; exact if_neg (by rw [write]; exact Bool.false_ne_true)

theorem memoryTimesOut_some {x : Path} {a : Access} (waits : x.access = some a) (p : Part) :
    (∃ n, (memoryTimesOut p x).1 = (timeoutPosted a p).withFreeCount n) ∧ TimedOut a x (memoryTimesOut p x).2 := by
  cases kind : a.isRead with
  | true =>
    rw [memoryTimesOut_read waits kind]
    exact ⟨⟨(timeoutPosted a p).freeCount, rfl⟩, rfl, fun _ => ⟨rfl, rfl⟩, fun write => absurd (kind.symm.trans write) nofun⟩
  | false =>
    rw [memoryTimesOut_write waits kind]
    refine ⟨⟨_, rfl⟩, ?_⟩
    dsimp only
    split
    next =>
      rw [completeEarlier_write waits kind]
      exact ⟨rfl, fun read => absurd (kind.symm.trans read) nofun, fun _ => ⟨rfl, .inr rfl⟩⟩
    next => exact ⟨rfl, fun read => absurd (kind.symm.trans read) nofun, fun _ => ⟨rfl, .inl rfl⟩⟩

/-- With no reset asserted MEMORY_TIMEOUT is posted, and the bit of BRIDGE is set. -/
theorem timeoutPosted_live (x : Access) {p q : Part} (live : p.asserted = false) (n : Nat) (b : Part)
    (ends : q = finish b ((timeoutPosted x p).withFreeCount n)) :
    Safety.posts p q [(.memoryTimeout, if x.isRead then 1 else 2, p.odo.pos)] ∧ Safety.flagged .bridge q := by
  have posted : timeoutPosted x p = post .memoryTimeout (if x.isRead then 1 else 2) p :=
    if_neg (by rw [live]; exact Bool.false_ne_true)
  have flagged : Safety.flagged .bridge ((timeoutPosted x p).withFreeCount n) := by
    rw [posted]; exact flagged_post .memoryTimeout _ _ p rfl
  have frame := finish_frame b ((timeoutPosted x p).withFreeCount n)
  rw [← ends] at frame
  have stored := frame.pre (by decide)
  rw [Part.withFreeCount_evq, posted] at stored
  exact ⟨posts_one _ _ _ true stored, frame.faults (by decide) _ flagged⟩

/-- Under a reset nothing is posted. -/
theorem timeoutPosted_held (x : Access) {p : Part} (reset : p.asserted = true) (stand : Safety.standDone p) (n : Nat) (b : Part) :
    (finish b ((timeoutPosted x p).withFreeCount n)).evq = p.evq := by
  have held : timeoutPosted x p = p := if_pos reset
  rw [held]
  exact finish_at b (p.withFreeCount n) (standDone_eq stand)

theorem memoryTimeout_answers (s : State) :
    ∃ t, exec .memoryTimeout s = .next t ∧ t.path.access = none
      ∧ (s.path.access = none → t.path = s.path)
      ∧ ∀ x, s.path.access = some x →
          (x.isRead = true → t.path.hostData = 0xFFFFFFFF#32 ∧ t.path.mem = s.path.mem)
          ∧ (x.isRead = false → t.path.hostData = s.path.hostData
              ∧ (t.path.mem = s.path.mem ∨ t.path.mem = Memory.writeWord s.path.mem x.addr.toNat x.data x.enables))
          ∧ (s.part.asserted = false →
              Safety.posts s.part t.part [(.memoryTimeout, if x.isRead then 1 else 2, s.part.odo.pos)] ∧ Safety.flagged .bridge t.part)
          ∧ (s.part.asserted = true → Safety.standDone s.part → t.part.evq = s.part.evq) := by
  refine hostRow_ends memoryTimesOut s _ fun t part path _ => ?_
  cases waits : s.path.access with
  | none =>
    rw [memoryTimesOut_none waits] at path
    exact ⟨by rw [path]; exact waits, fun _ => path, nofun⟩
  | some a =>
    obtain ⟨⟨n, posted⟩, access, read, write⟩ := memoryTimesOut_some waits s.part
    rw [← path] at access read write
    rw [posted] at part
    refine ⟨access, nofun, fun x same => ?_⟩
    cases same
    exact ⟨read, write, fun live => timeoutPosted_live a live n _ part,
      fun reset stand => by rw [part]; exact timeoutPosted_held a reset stand n _⟩

/-! ### The host's reads that wait -/

theorem read_forwarded {r : HostRead} {rest : List HostRead} {s : State} (idle : s.pending = []) (waits : s.reads = r :: rest)
    (stand : Safety.standDone s.part) (outside : Safety.forwardedRead r s.part) :
    ∃ t, step s = .next t ∧ t.reads = rest ∧ t.part = s.part
      ∧ t.path.access = some ⟨true, BitVec.ofNat 24 (r.addr.toNat / 4 * 4), 0, r.enables⟩
      ∧ t.path.hostData = s.path.hostData ∧ (s.path.access = none → t.path.mem = s.path.mem) := by
  rw [step_read idle waits, takeRead_forwards (s := { s with reads := rest }) outside stand]
  exact ⟨_, rfl, rfl, rfl, rfl, completeEarlier_hostData _, forwardRead_mem _ _⟩

theorem read_answered {r : HostRead} {rest : List HostRead} {s : State} {n : Nat} (idle : s.pending = []) (waits : s.reads = r :: rest)
    (stand : Safety.standDone s.part) (inside : Safety.mirrorRead r n s.part) :
    ∃ t, step s = .next t ∧ t.reads = rest
      ∧ t.path.hostData = mirrorWord n s.part ∧ t.path.access = none ∧ (s.path.access = none → t.path.mem = s.path.mem)
      ∧ (r.enables ≠ 0xF#4 ∨ (n ≠ 0x4F10 ∧ n ≠ 0x4F44) → t.part = s.part) := by
  rw [step_read idle waits, takeRead_answers (s := { s with reads := rest }) inside]
  refine ⟨_, rfl, rfl, rfl, completeEarlier_access _, substitute_mem _, fun quiet => ?_⟩
  show finish s.part (if isFull r.enables then readEffect n s.part else s.part) = s.part
  rw [readEffect_none quiet, finish_same stand]

/-- Settles O60: the answers by the rows' own effects, the reads by their address, the mirror section by section. -/
theorem readsAndAnswers : Obligations.ReadsAndAnswers := by
  unfold Obligations.ReadsAndAnswers
  refine ⟨fun s => ⟨fun e => faultSummaryRead_answers e, fun w => memoryReady_answers w s, memoryTimeout_answers s⟩,
    fun r rest s idle waits stand => ⟨read_forwarded idle waits stand, fun n => read_answered idle waits stand⟩, fun p => ?_⟩
  exact ⟨fun x => mirrorWord_generation x p, (shownAt_cons.1 (events_shown p)).1,
    List.forall_mem_append.2 ⟨mirrorCar_shown p, mirrorOthers_shown p⟩, fun d => entry_shown d p, authorities_shown p,
    fun _ _ => restriction_shown, fun d => door_shown d p, fun x => side_shown x p, fun _ _ => permit_shown, drops_shown p,
    fun i => station_shown i p, fun _ _ => mailbox_shown, fun i => guard_shown i p, fun i => slot_shown i p⟩

end Sys2Proof.Machine
end

section
/-! The event head: what it shows, what pops it, and which postings become it (R177, R188, R189). -/

namespace Sys2Proof.Machine

open Sys2Proof.Safety (shownAt)

/-! ### What pops it (R189) -/

@[simp] theorem Evq.popped_queue (q : Evq) : q.popped.queue = q.queue.tail := by
  unfold Evq.popped
  split
  next empty => rw [empty, List.tail_nil]
  next stored => rw [stored, List.tail_cons]

/-- A pop leaves the sequence, the lost count and the fault bits. -/
theorem Evq.popped_rest (q : Evq) : q.popped.next = q.next ∧ q.popped.lost = q.lost ∧ q.popped.faults = q.faults := by
  unfold Evq.popped
  split <;> exact ⟨rfl, rfl, rfl⟩

theorem readEffect_fourth (p : Part) : readEffect 0x4F10 p = p.withEvq p.evq.popped := if_pos rfl

/-- A word that is neither the fourth head word nor the fault summary has no side effect, even read in full (R177). -/
theorem readEffect_other {n : Nat} (head : n ≠ 0x4F10) (summary : n ≠ 0x4F44) (p : Part) : readEffect n p = p :=
  readEffect_none (e := 0xF#4) (.inr ⟨head, summary⟩)

/-- A read of the fourth head word: the word shown, and behind it the event queue, popped where the read is full. -/
theorem eventHeadPop_answers (e : BitVec 4) {s : State} (stand : Safety.standDone s.part) (live : s.part.asserted = false) :
    ∃ t, exec (.eventHeadPop e) s = .next t ∧ t.path.hostData = mirrorWord 0x4F10 s.part
      ∧ (e ≠ 0xF#4 → t.part.evq = s.part.evq) ∧ (e = 0xF#4 → t.part.evq = s.part.evq.popped) := by
  refine hostRow_ends (readMirror 0x4F10 e) s _ fun t part path _ => ?_
  rw [readMirror_live _ _ live] at part path
  refine ⟨?data, fun partly => ?partly, fun full => ?full⟩
  case data => rw [path]; rfl
  case partly => rw [part, readEffect_none (.inl partly), finish_same stand]
  case full => rw [part, if_pos ((isFull_iff e).2 full), readEffect_fourth, finish_withEvq _ stand]

/-! ### What it shows (R189, Table 12-2) -/

/-- The four head words stand behind the generation word of EVENTS. -/
theorem head_shown (p : Part) : shownAt 0x4F04 (headWords p.evq) p :=
  (shownAt_append.1 (shownAt_cons.1 (events_shown p)).2).1

theorem headWords_of_head {q : Evq} {e : Event} (oldest : q.queue.head? = some e) : headWords q =
    [wNat (e.sequence.toNat + 65536 * e.kind.code + 16777216 * e.kind.block), e.time, wNat e.argument.toNat, e.position] := by
  obtain ⟨rest, stored⟩ := List.head?_eq_some_iff.1 oldest
  unfold headWords
  rw [stored]

theorem headWords_empty {q : Evq} (empty : q.queue = []) : headWords q = [wNat q.next.toNat, 0, 0, 0] := by
  unfold headWords
  rw [empty]

/-- Four words shown from the first head word on are what its four offsets read. -/
theorem fourWords_shown {p : Part} {first second third fourth : Word} (words : headWords p.evq = [first, second, third, fourth]) :
    mirrorWord 0x4F04 p = first ∧ mirrorWord 0x4F08 p = second ∧ mirrorWord 0x4F0C p = third ∧ mirrorWord 0x4F10 p = fourth := by
  have shown := head_shown p
  rw [words] at shown
  simpa only [shownAt_cons, shownAt_nil, and_true] using shown

/-! ### Which postings become it (R188) -/

theorem postAt_head_of_empty {p : Part} (k : EventKind) (arg : Half) (pos : Word) (sets : Bool) (empty : p.evq.queue = []) :
    (postAt k arg pos sets p).evq.queue.head? = some ⟨p.evq.next, p.now, k, arg, pos⟩ := by
  have room : p.evq.queue.length < 64 := by simp [empty]
  rw [(postAt_queue k arg pos sets p room).1, empty, List.nil_append, List.head?_cons]

/-- A posting stands behind what is stored, or is lost: the oldest event stays the head. -/
theorem postAt_head_of_stored {p : Part} {e : Event} (k : EventKind) (arg : Half) (pos : Word) (sets : Bool)
    (oldest : p.evq.queue.head? = some e) : (postAt k arg pos sets p).evq.queue.head? = some e := by
  obtain ⟨more, behind⟩ := postAt_evq_pre k arg pos sets p
  rw [← behind, List.head?_append, oldest, Option.some_or]

/-- Settles O59: the read by the row's own effect, the words by the room of EVENTS, the postings by where EVQ stores them. -/
theorem eventHead : Obligations.EventHead := by
  unfold Obligations.EventHead
  refine ⟨fun s e stand live => ?pops, fun p => ?quiet, fun p e oldest => fourWords_shown (headWords_of_head oldest),
    fun p empty => fourWords_shown (headWords_empty empty), fun p k arg pos sets => ?posted⟩
  case pops =>
    obtain ⟨t, next, data, partly, full⟩ := eventHeadPop_answers e stand live
    refine ⟨t, next, data, partly, fun all => ?_⟩
    rw [full all]
    exact ⟨s.part.evq.popped_queue, s.part.evq.popped_rest⟩
  case quiet =>
    exact ⟨readEffect_other (by decide) (by decide) p, readEffect_other (by decide) (by decide) p,
      readEffect_other (by decide) (by decide) p⟩
  case posted => exact ⟨postAt_head_of_empty k arg pos sets, fun _ => postAt_head_of_stored k arg pos sets⟩

end Sys2Proof.Machine
end

section
/-! Steps, memory and the return to STAND: what every step keeps, and what every command answers. -/

namespace Sys2Proof.Machine

/-! ### What a step does, case by case (logs 1, 32) -/

/-- A property that every command and every host read establishes from the state it starts in, and that the queues do not touch, is kept by every
step. -/
theorem step_keeps {P : State → Prop} (queues : ∀ (s : State) (cs : List Instr) (rs : List HostRead), P s → P { s with pending := cs, reads := rs })
    (command : ∀ c s t, exec c s = .next t → P s → P t) (read : ∀ r s t, takeRead r s = .next t → P s → P t)
    {s t : State} (h : step s = .next t) (hs : P s) : P t := by
  unfold step at h
  split at h
  next c rest _ => exact command c _ t h (queues s rest s.reads hs)
  next =>
    split at h
    next r rest _ => exact read r _ t h (queues s s.pending rest hs)
    next => cases h; exact hs

/-! ### Memory in its canonical form (log 4) -/

/-- Settles O9: a command or a host read leaves memory as it is, or writes the word of the access that waited. -/
theorem memoryCanonicalKept : Obligations.MemoryCanonicalKept := by
  unfold Obligations.MemoryCanonicalKept
  intro s t hs h
  exact step_keeps (P := Safety.memory) (fun _ _ _ hs => hs) exec_memory takeRead_memory h hs

/-! ### The return to STAND (R109) -/

/-- Raising generation words leaves the mode, standstill and the demand table. -/
theorem raiseAll_done (b : Part) {q : Part} (h : Safety.standDone q) : Safety.standDone (raiseAll b q) := by
  obtain ⟨g, n, e⟩ := raiseAll_eq b q
  rw [e]; exact h

theorem raiseChanged_done (b : Part) {q : Part} (h : Safety.standDone q) : Safety.standDone (raiseChanged b q) := by
  obtain ⟨g, e⟩ := raiseChanged_eq b q
  rw [e]; exact h

theorem autoStand_done (q : Part) : Safety.standDone (autoStand q) := (standDone_iff _).2 (autoStand_idle q)

/-- Cold reset is released into STAND. -/
theorem releaseCold_done (base : BitVec 4) (rate : BitVec 2) {p : Part} (h : Safety.standDone p) : Safety.standDone (releaseCold base rate p) := by
  unfold releaseCold
  split
  · refine raiseChanged_done _ fun ⟨run, _⟩ => ?_
    rw [coldStart_mode _ rfl] at run
    cases run
  · exact h

/-- Warm reset is released with the return to STAND at its end, or only its input moves. -/
theorem releaseWarm_done {p : Part} (h : Safety.standDone p) : Safety.standDone (releaseWarm p) := by
  unfold releaseWarm
  split
  · exact h
  · split
    · exact h
    · exact raiseAll_done _ (autoStand_done _)

/-- Every command ends with the return to STAND; only the two releases make their own end. -/
theorem exec_done (c : Instr) (s t : State) (h : exec c s = .next t) (hs : Safety.standDone s.part) : Safety.standDone t.part := by
  cases c
  case coldResetRelease base rate => cases h; exact releaseCold_done base rate hs
  case warmResetRelease => cases h; exact releaseWarm_done hs
  all_goals cases h; exact finish_done _ _

/-- Settles O10: commands and host reads end with the return to STAND. -/
theorem returnToStandDone : Obligations.ReturnToStandDone := by
  unfold Obligations.ReturnToStandDone
  intro s t hs h
  refine step_keeps (P := fun s => Safety.standDone s.part) (fun _ _ _ hs => hs) exec_done (fun r s t h _ => ?_) h hs
  cases h; exact finish_done _ _

end Sys2Proof.Machine
end

section
/-! The block and its queue, the values at reset, and what a command leaves alone. -/

namespace Sys2Proof.Machine

open Sys2Proof.Safety (Group)

/-! ### The queue and reset (logs 1, 9, 32) -/

/-- Settles O1: by the definition of `step`. -/
theorem stepRunsFrontCommand : Obligations.StepRunsFrontCommand := by
  unfold Obligations.StepRunsFrontCommand
  refine ⟨fun c rest s => rfl, fun r rest s pending reads => ?_, fun s pending reads => ?_⟩
  · unfold step; rw [pending, reads]
  · unfold step; rw [pending, reads]

/-- No command touches the commands that wait. -/
theorem exec_pending (c : Instr) (s t : State) (h : exec c s = .next t) : t.pending = s.pending := by
  by_cases hc : chained c = true
  · exact (exec_moves c s t hc h).pending
  · exact unchained_pending c s t hc h

/-- Settles O2. -/
theorem everyCommandCompletes : Obligations.EveryCommandCompletes := by
  unfold Obligations.EveryCommandCompletes
  intro c s
  obtain ⟨t, h⟩ := exec_next c s
  exact ⟨t, h, exec_pending c s t h, exec_reads c s t h⟩

/-- Settles O3: each value is read off `State.reset`. -/
theorem resetValues : Obligations.ResetValues := by
  unfold Obligations.ResetValues
  refine ⟨rfl, rfl, rfl, rfl, rfl, rfl, rfl, rfl, rfl, rfl, rfl, rfl, rfl, rfl, rfl, ?_, rfl, rfl, rfl, rfl, rfl, rfl, rfl, ?_, rfl, rfl, rfl,
    rfl, rfl, rfl, rfl, rfl, ?_, ?_, rfl, rfl, rfl, rfl, rfl, rfl⟩
  · decide
  · decide
  · decide
  · decide

/-- The laws of the queues and the lists, which cold reset leaves empty but for COLD_START. -/
theorem reset_good : Good State.reset.part where
  evq := ⟨by decide, rfl⟩
  brk := by decide
  mode := ⟨rfl, rfl⟩
  link := ⟨fun ptt => absurd ptt Bool.false_ne_true, by decide, trivial, by decide⟩
  msg := Nat.zero_le 8
  ssu := ⟨by decide, trivial, by decide⟩
  permits := ⟨by decide, by decide⟩
  aut := fun _ next => by cases next
  run := fun run => by cases run
  doors := fun stand _ => absurd rfl stand
  never := fun d _ => by cases d <;> rfl
  ord := resetBook

/-- Settles O4. -/
theorem resetIsLawful : Obligations.ResetIsLawful := by
  unfold Obligations.ResetIsLawful
  refine ⟨lawful_iff.2 ⟨reset_good, ⟨rfl, ?_⟩, fun run => by cases run⟩, Memory.reset_wf, fun ⟨run, _⟩ => by cases run⟩
  exact ⟨by decide, by decide⟩

/-! ### Memory (R173) -/

/-- Completing the access that waited writes inside the word of that write only. -/
theorem completeEarlier_outside {x : Path} {a : Nat}
    (outside : ∀ w, x.access = some w → w.isRead = false → a < w.addr.toNat ∨ w.addr.toNat + 4 ≤ a) :
    Memory.read (completeEarlier x).mem a = Memory.read x.mem a := by
  cases waits : x.access with
  | none => rw [completeEarlier_none x waits]
  | some w =>
    cases kind : w.isRead with
    | true => simp [completeEarlier, waits, kind]
    | false =>
      rw [completeEarlier_write waits kind]
      exact Memory.read_writeWord_other x.mem w.addr.toNat a w.data w.enables (outside w waits kind)

/-- A command that is no host access leaves the memory path. -/
theorem exec_path_of_not_hostAccess {c : Instr} {s t : State} (own : Safety.hostAccess c = false) (h : exec c s = .next t) : t.path = s.path := by
  cases c
  case run | stand | stable | wake | brakeTest | maintenanceRelease | brakeRequest | resetDemand | setPosition | resetEncoder | activateProfile
      | addRestriction | removeRestriction | relinquish | releaseSide | openSide | closeSide | isolateDoor | restoreDoor | setDoorEvents | setGuard
      | clearGuard | sendText | takeMessage | pollReport | unknownKindTrigger | parameterWordWrite | orderWordPartialWrite | aliveWrite
      | settingsWrite | profileWrite | eventHeadPop | faultSummaryRead | mirrorWrite | guardedWrite | ordinaryWrite | memoryReady | memoryTimeout =>
    cases own
  all_goals cases h; rfl

/-- Settles O12. -/
theorem memoryFrame : Obligations.MemoryFrame := by
  unfold Obligations.MemoryFrame
  intro c s t h
  refine ⟨fun own => exec_path_of_not_hostAccess own h, fun a outside => ?_⟩
  rcases exec_path c s t h with stands | completed
  · rw [stands]
  · rw [completed]; exact completeEarlier_outside outside

/-! ### Frames

The commands but cold reset's release make the changes that `mayChange` names, before a return to STAND (R109) that may change the mode. -/

/-- With every group of changes allowed, all that stands are the straps. -/
theorem Frame.of_all {H : List Group} {p q : Part} (all : ∀ g, g ∈ H) (base : q.bridge.base = p.bridge.base)
    (bitRate : q.link.bitRate = p.link.bitRate) : Frame H p q where
  pre h := absurd (all _) h
  faults h := absurd (all _) h
  now h := absurd (all _) h
  lines h := absurd (all _) h
  base := base
  guards h := absurd (all _) h
  ord h := absurd (all _) h
  odo h := absurd (all _) h
  track h := absurd (all _) h
  prf h := absurd (all _) h
  restr h := absurd (all _) h
  slots h := absurd (all _) h
  test h := absurd (all _) h
  inputs h := absurd (all _) h
  latched h := absurd (all _) h
  mode h := absurd (all _) h
  silence h := absurd (all _) h
  charge h := absurd (all _) h
  kept h := absurd (all _) h
  levels h := absurd (all _) h
  doors h := absurd (all _) h
  permits h := absurd (all _) h
  masks h := absurd (all _) h
  bitRate := bitRate
  link h := absurd (all _) h
  msg h := absurd (all _) h

/-- The groups of changes of a command, with that of the return to STAND. -/
abbrev endMay (c : Instr) : List Group := .mode :: Safety.mayChange c

theorem not_endMay {g : Group} {c : Instr} (other : g ≠ .mode) (h : g ∉ Safety.mayChange c) : g ∉ endMay c := by
  simp only [List.mem_cons, not_or]; exact ⟨other, h⟩

theorem exec_frame_chained {c : Instr} {s t : State} (hc : chained c = true) (h : exec c s = .next t) : Frame (endMay c) s.part t.part := by
  obtain ⟨q, moved, ends⟩ := (exec_moves c s t hc h).moved
  rw [ends]
  exact (finish_moves s.part List.mem_cons_self (moved.mono (List.subset_cons_self _ _))).frame

/-- The straps stand (R172). -/
def SameStraps (p q : Part) : Prop := q.bridge.base = p.bridge.base ∧ q.link.bitRate = p.link.bitRate

theorem SameStraps.trans {p q r : Part} (h1 : SameStraps p q) (h2 : SameStraps q r) : SameStraps p r :=
  ⟨h2.1.trans h1.1, h2.2.trans h1.2⟩

theorem Frame.straps {H : List Group} {p q : Part} (h : Frame H p q) : SameStraps p q := ⟨h.base, h.bitRate⟩

theorem abandonTest_straps (p : Part) : SameStraps p (abandonTest p) := by
  obtain ⟨b, m, e, -⟩ := abandonTest_rest p
  rw [e]; exact ⟨rfl, rfl⟩

theorem assertCold_straps (p : Part) : SameStraps p (assertCold p) := by
  unfold assertCold
  split
  · exact ⟨rfl, rfl⟩
  · exact abandonTest_straps _

theorem assertWarm_straps (p : Part) : SameStraps p (assertWarm p) := by
  unfold assertWarm
  split
  · exact ⟨rfl, rfl⟩
  · exact abandonTest_straps _

theorem Frame.of_straps {H : List Group} {p q : Part} (all : ∀ g, g ∈ H) (same : SameStraps p q) : Frame H p q := .of_all all same.1 same.2

/-- What every command but cold reset's release leaves alone. -/
theorem exec_frame {c : Instr} {s t : State} (h : exec c s = .next t) (kept : ∀ b r, c ≠ .coldResetRelease b r) : Frame (endMay c) s.part t.part := by
  have resets : ∀ H, (∀ g, g ∈ H) → ∀ g, g ∈ Group.mode :: H := fun H all g => List.mem_cons_of_mem _ (all g)
  cases c
  case coldResetRelease b r => exact absurd rfl (kept b r)
  case coldResetAssert =>
    cases h
    exact .of_straps (resets _ Group.mem_all) ((assertCold_straps s.part).trans (finish_frame _ _).straps)
  case warmResetAssert =>
    cases h
    exact .of_straps (resets _ Group.mem_all) ((assertWarm_straps s.part).trans (finish_frame _ _).straps)
  case warmResetRelease =>
    cases h
    exact .of_straps (resets _ Group.mem_all) (releaseWarm_moves (Moves.refl s.part)).frame.straps
  all_goals exact exec_frame_chained rfl h

/-- A change that a command may not make has not been made: any command that may make not all of them has a frame. -/
theorem exec_frame_of_not {g : Group} {c : Instr} {s t : State} (h : exec c s = .next t) (out : g ∉ Safety.mayChange c) :
    Frame (endMay c) s.part t.part :=
  exec_frame h fun b r hc => out (by rw [hc]; exact Group.mem_all g)

/-- Settles O13. -/
theorem frameTravel : Obligations.FrameTravel := by
  unfold Obligations.FrameTravel
  intro c s t h
  refine ⟨fun out => (exec_frame_of_not h out).now (not_endMay (by decide) out),
    fun out => (exec_frame_of_not h out).lines (not_endMay (by decide) out), fun kept => (exec_frame h kept).straps,
    fun out => ?odo, fun out => (exec_frame_of_not h out).prf (not_endMay (by decide) out),
    fun out => (exec_frame_of_not h out).restr (not_endMay (by decide) out),
    fun out => (exec_frame_of_not h out).slots (not_endMay (by decide) out)⟩
  case odo =>
    have f := exec_frame_of_not h out
    obtain ⟨p1, p2, w, pos, window, bucket, speed, dir, standstill, standTimer⟩ := f.odo (not_endMay (by decide) out)
    exact ⟨p1, p2, w, pos, window, bucket, speed, dir, standstill, standTimer,
      fun track => f.track (not_endMay (by decide) out) (not_endMay (by decide) track)⟩

/-- Settles O14. -/
theorem frameDoorsAndRadio : Obligations.FrameDoorsAndRadio := by
  unfold Obligations.FrameDoorsAndRadio
  intro c s t h
  exact ⟨fun out => (exec_frame_of_not h out).doors (not_endMay (by decide) out),
    fun out => (exec_frame_of_not h out).levels (not_endMay (by decide) out),
    fun out => (exec_frame_of_not h out).permits (not_endMay (by decide) out),
    fun out => (exec_frame_of_not h out).masks (not_endMay (by decide) out),
    fun out => (exec_frame_of_not h out).link (not_endMay (by decide) out),
    fun out => (exec_frame_of_not h out).msg (not_endMay (by decide) out)⟩

/-- Settles O15. -/
theorem frameBridge : Obligations.FrameBridge := by
  unfold Obligations.FrameBridge
  intro c s t h
  refine ⟨fun out => (exec_frame_of_not h out).ord (not_endMay (by decide) out), fun start take book i idle => ?slot,
    fun out => (exec_frame_of_not h out).guards (not_endMay (by decide) out), fun out => ?stored⟩
  case slot => exact ((exec_frame_of_not h start).kept (not_endMay (by decide) start) (not_endMay (by decide) take) book).2 i idle
  case stored =>
    have f := exec_frame_of_not h out
    exact ⟨f.pre (not_endMay (by decide) out), f.faults (not_endMay (by decide) out)⟩

/-- The mode changes by the commands that may change it, or by the return to STAND. -/
theorem exec_mode_of_not {c : Instr} {s t : State} (h : exec c s = .next t) (out : .mode ∉ Safety.mayChange c) :
    t.part.mod.mode = s.part.mod.mode ∨ (s.part.mod.mode = .run ∧ t.part.mod.mode = .stand) := by
  rcases exec_framed_or c s t h with ⟨q, f, ends⟩ | all
  · rw [ends, ← f.mode out]; exact finish_mode s.part q
  · exact absurd (all .mode) out

/-- Settles O16. -/
theorem frameBrakeAndMode : Obligations.FrameBrakeAndMode := by
  unfold Obligations.FrameBrakeAndMode
  intro c s t h
  refine ⟨fun out => (exec_frame_of_not h out).latched (not_endMay (by decide) out),
    fun out => (exec_frame_of_not h out).inputs (not_endMay (by decide) out), fun out => ?test,
    fun out => (exec_frame_of_not h out).charge (not_endMay (by decide) out), fun out => ?silence, exec_mode_of_not h⟩
  case test =>
    have kept := (exec_frame_of_not h out).test (not_endMay (by decide) out)
    exact ⟨kept.step, kept.outcome, kept.abort⟩
  case silence =>
    obtain ⟨timer, silent, -⟩ := (exec_frame_of_not h out).silence (not_endMay (by decide) out)
    exact ⟨timer, silent⟩

end Sys2Proof.Machine
end

section
/-! Datum captures, and the two odometry orders. -/

namespace Sys2Proof.Machine

/-! ### The edges of the datum sensor and the index pulses (R19 to R22) -/

/-- The capture that stood is given up: what a rising edge begins with. -/
def captureEnded (p : Part) : Part := p.withOdo { p.odo with capture := .idle }

theorem candidate_captureEnded (p : Part) : candidate (captureEnded p) = candidate p := rfl

section
variable {p : Part} (known : p.odo.validity ≠ .unknown) (free : p.asserted = false)
include known free

theorem datumRise_none (none : candidate p = none) : datumRise p = mismatchTaken .noCandidate (captureEnded p) := by
  unfold datumRise
  rw [if_neg (by simp [known, free])]
  simp only [← candidate_captureEnded p, captureEnded] at none ⊢
  rw [none]

variable {r : SegRec} (found : candidate p = some r)
include found

theorem datumRise_atEdge (method : r.method = 1) :
    datumRise p = datumMatch (wordOfCount ((r.datumPosition : Int) * 16)) (captureEnded p) := by
  unfold datumRise
  rw [if_neg (by simp [known, free])]
  simp only [← candidate_captureEnded p, captureEnded] at found ⊢
  rw [found]; simp [method]

theorem datumRise_align (method : r.method = 2) (rack : p.odo.regime = .rack) {x : Pinion}
    (source : p.odo.source = (match x with | .p1 => Source.p1 | .p2 => Source.p2)) :
    datumRise p = p.withOdo { p.odo with capture := .awaitIndex r.datumPosition r.datumK p.odo.dir x 0 0 } := by
  unfold datumRise
  rw [if_neg (by simp [known, free])]
  simp only [← candidate_captureEnded p, captureEnded] at found ⊢
  rw [found]
  cases x <;> simp [method, rack, source] <;> rfl

theorem datumRise_align_outside (method : r.method = 2) (outside : p.odo.regime ≠ .rack) :
    datumRise p = mismatchTaken .regime (captureEnded p) := by
  unfold datumRise
  rw [if_neg (by simp [known, free])]
  simp only [← candidate_captureEnded p, captureEnded] at found ⊢
  rw [found]
  simp [method, outside]

theorem datumRise_centre (method : r.method = 3) :
    datumRise p = p.withOdo { p.odo with capture := .awaitFall r.datumPosition r.datumWindow p.odo.pos 0 } := by
  unfold datumRise
  rw [if_neg (by simp [known, free])]
  simp only [← candidate_captureEnded p, captureEnded] at found ⊢
  rw [found]
  simp [method]; rfl

end

/-- A match of the capture that stands. -/
theorem datumMatch_captured (b p : Part) (new : Word) : Safety.captured new p (finish b (datumMatch new p)) :=
  captured_of b p p new rfl rfl rfl rfl rfl

/-- A rising edge, by the candidate and its method. -/
theorem datumRise_captures {s : State} (known : s.part.odo.validity ≠ .unknown) (free : s.part.asserted = false) :
    ∃ t, exec .datumRisingEdge s = .next t
      ∧ (candidate s.part = none →
          Safety.posts s.part t.part [(.datumMismatch, 1, s.part.odo.pos)] ∧ t.part.odo.mismatches = sat8 s.part.odo.mismatches
          ∧ t.part.odo.capture = .idle ∧ t.part.odo.pos = s.part.odo.pos ∧ Safety.flagged .datum t.part)
      ∧ ∀ r, candidate s.part = some r →
          (r.method = 1 → Safety.captured (wordOfCount ((r.datumPosition : Int) * 16)) s.part t.part)
          ∧ (r.method = 2 → s.part.odo.regime = .rack → s.part.odo.source = .p1 →
              t.part.odo.capture = .awaitIndex r.datumPosition r.datumK s.part.odo.dir .p1 0 0)
          ∧ (r.method = 2 → s.part.odo.regime = .rack → s.part.odo.source = .p2 →
              t.part.odo.capture = .awaitIndex r.datumPosition r.datumK s.part.odo.dir .p2 0 0)
          ∧ (r.method = 2 → s.part.odo.regime ≠ .rack → Safety.posts s.part t.part [(.datumMismatch, 2, s.part.odo.pos)])
          ∧ (r.method = 3 → t.part.odo.capture = .awaitFall r.datumPosition r.datumWindow s.part.odo.pos 0) := by
  refine row_ends' datumRise s _ fun t ends => ?_
  rw [ends]
  refine ⟨fun none => ?_, fun r found => ⟨fun method => ?edge, fun method rack source => ?first, fun method rack source => ?second,
    fun method outside => ?outside, fun method => ?centre⟩⟩
  · rw [datumRise_none known free none]
    exact mismatch_spec .noCandidate _ _ _ rfl rfl rfl rfl
  case edge =>
    rw [datumRise_atEdge known free found method]
    exact captured_of _ _ _ _ rfl rfl rfl rfl rfl
  case first => rw [datumRise_align known free found method rack (x := .p1) source, finish_capture]; rfl
  case second => rw [datumRise_align known free found method rack (x := .p2) source, finish_capture]; rfl
  case outside =>
    rw [datumRise_align_outside known free found method outside]
    exact (mismatch_spec .regime _ _ _ rfl rfl rfl rfl).1
  case centre => rw [datumRise_centre known free found method, finish_capture]; rfl

theorem live_of_running (f : Part → Part) {p : Part} (running : p.coldLine = false) : live f p = f p := by
  unfold live; rw [running]; rfl

/-- Settles O19. -/
theorem datumCaptures : Obligations.DatumCaptures := by
  unfold Obligations.DatumCaptures
  intro s
  refine ⟨datumRise_captures, fun datum window rise travel running waits => ?_, fun x datum k dir pulses travel running healthy waits => ?_⟩
  · refine row_ends' (live datumFall) s _ fun t ends => ?_
    have falls : datumFall s.part = datumMatch (wordOfCount (s.part.odo.pos.toInt
        + ((datum : Int) * 16 - (rise.toInt + (s.part.odo.pos.toInt - rise.toInt).tdiv 2)))) s.part := by
      unfold datumFall; rw [waits]
    rw [ends, live_of_running _ running, falls]
    exact datumMatch_captured _ _ _
  · refine row_ends' (live (indexPulse x)) s _ fun t ends => ?_
    rw [ends, live_of_running _ running]
    unfold indexPulse
    simp only [waits, healthy, bne_self_eq_false, Bool.or_self, Bool.false_eq_true, if_false]
    refine ⟨fun last => ?_, fun more => ?_⟩
    · rw [if_pos last]; exact datumMatch_captured _ _ _
    · rw [if_neg more, finish_capture]; rfl

end Sys2Proof.Machine
end

section
/-! SET POSITION and RESET ENCODER (R3, R8). -/

namespace Sys2Proof.Machine

/-! ### The checks both begin with -/

/-- The three conditions of an odometry order, before those of its own. -/
theorem odometry_checked {kind : Byte} {judge : Judge} {u : Trigger} {s : State} {acc : State → Prop} {rest : State → List (Prop × Reason)}
    (judged : Safety.triggerJudged u s)
    (refuses : ∀ r, odometryOrderCheck s.part = some r →
      judge u.slot (Safety.workingCopy u s) (received kind u s) = (received kind u s, .no r))
    (own : s.part.mod.mode = .stand → odometryOrderCheck s.part = none →
      ∃ t, hostRow (triggerWith kind judge u) s = .next t ∧ Safety.checked (fun r => Safety.orderRefused kind u r 0 s t) (acc t) (rest t)) :
    ∃ t, hostRow (triggerWith kind judge u) s = .next t ∧ Safety.checked (fun r => Safety.orderRefused kind u r 0 s t) (acc t)
      ((s.part.mod.mode ≠ .lockout, .lockout) :: (s.part.mod.mode = .stand, .wrongMode)
        :: (s.part.odo.standstill = true, .notStandstill) :: rest t) := by
  refine check_step (fun locked => refuse_of judged (refuses _ ?_)) fun running => ?_
  · rw [odoCheck, if_pos (not_not.1 locked)]
  refine check_step (fun other => refuse_of judged (refuses _ ?_)) fun stand => ?_
  · rw [odoCheck, if_neg running, if_pos other]
  refine check_step (fun moves => refuse_of judged (refuses _ ?_)) fun still => own stand ?_
  · rw [odoCheck, if_neg running, if_neg (not_not.2 stand), if_pos (Bool.eq_false_iff.2 moves)]
  · rw [odoCheck, if_neg running, if_neg (not_not.2 stand), if_neg (by rw [still]; decide)]

/-! ### SET POSITION -/

section
variable {work : Vector Word 7} {p : Part}

theorem judgeSetPosition_no {r : Reason} (first : odometryOrderCheck p = some r) : judgeSetPosition work p = (p, .no r) := by
  unfold judgeSetPosition; rw [first]

variable (passed : odometryOrderCheck p = none)
include passed

theorem judgeSetPosition_noProfile (empty : p.prf.active = []) : judgeSetPosition work p = (p, .no .noProfile) := by
  unfold judgeSetPosition; simp [passed, empty]

variable (profile : p.prf.active ≠ [])
include profile

theorem judgeSetPosition_badParam (bad : ¬ (param work 0 ≤ 1048575 ∧ param work 0 ≤ p.prf.settings.routeEnd)) :
    judgeSetPosition work p = (p, .no .badParam) := by
  have out : 1048575 < param work 0 ∨ p.prf.settings.routeEnd < param work 0 := by omega
  unfold judgeSetPosition; simp [passed, profile, out]

variable (good : param work 0 ≤ 1048575 ∧ param work 0 ≤ p.prf.settings.routeEnd)
include good

theorem judgeSetPosition_conditionActive (none : ¬ Safety.sourceAt ((param work 0 : Int) * 16) p) :
    judgeSetPosition work p = (p, .no .conditionActive) := by
  have fits : ¬ (1048575 < param work 0 ∨ p.prf.settings.routeEnd < param work 0) := by omega
  rw [sourceAt_iff, Bool.not_eq_false] at none
  unfold judgeSetPosition; simp [passed, profile, fits, none]

theorem judgeSetPosition_take (sourced : Safety.sourceAt ((param work 0 : Int) * 16) p) :
    judgeSetPosition work p = (setPositionTaken (param work 0) p, .take (BitVec.ofNat 32 (param work 0))) := by
  have fits : ¬ (1048575 < param work 0 ∨ p.prf.settings.routeEnd < param work 0) := by omega
  have same : BitVec.ofNat 32 (param work 0) = work[0] := BitVec.ofNat_toNat _ _ ▸ BitVec.setWidth_eq _
  rw [sourceAt_iff] at sourced
  rw [same]
  unfold judgeSetPosition; simp [passed, profile, fits, sourced]

end

/-- The part placed at a position, before segment, regime and source are set from it (R8). -/
def placedAt (n : Nat) (p : Part) : Part :=
  p.withOdo { p.odo with pos := wordOfCount ((n : Int) * 16), mismatches := 0, capture := .idle, validity := .provisional }

theorem setPositionTaken_spreads (n : Nat) (p : Part) :
    Moves spreadMay (directRegime p.odo.validity (placedAt n p)).1 (setPositionTaken n p) :=
  spreadPosition_moves _ spreadTravel (odoRequests_moves _ (by decide) (by decide) (Moves.refl _))

/-- The car is placed: SET POSITION is taken. -/
theorem setPosition_takes {u : Trigger} {s : State} (judged : Safety.triggerJudged u s) (passed : odometryOrderCheck s.part = none)
    (profile : s.part.prf.active ≠ [])
    (good : param (Safety.workingCopy u s) 0 ≤ 1048575 ∧ param (Safety.workingCopy u s) 0 ≤ s.part.prf.settings.routeEnd)
    (sourced : Safety.sourceAt ((param (Safety.workingCopy u s) 0 : Int) * 16) s.part) :
    let n := param (Safety.workingCopy u s) 0
    ∃ t, exec (.setPosition u) s = .next t
      ∧ (Safety.orderDone 9 u (BitVec.ofNat 32 n) s t ∧ t.part.odo.pos = BitVec.ofNat 32 (n * 16) ∧ t.part.odo.mismatches = 0
        ∧ t.part.odo.capture = .idle ∧ t.part.odo.entry = none
        ∧ ∃ i, segmentIndex ((n : Int) * 16) s.part.prf.active = some i ∧ t.part.odo.segment = some i
          ∧ t.part.odo.regime = Safety.regimeAt i s.part
          ∧ t.part.odo.source =
              Safety.tableSource (Safety.regimeAt i s.part) s.part.odo.p1.faulted s.part.odo.p2.faulted s.part.odo.w.faulted
          ∧ (rackAt s.part i = true → s.part.odo.p1.faulted = false → s.part.odo.p2.faulted = false → t.part.odo.deviation = 0)
          ∧ t.part.odo.validity =
              (if rackAt s.part i && s.part.odo.p1.faulted && s.part.odo.p2.faulted then .uncertain else .provisional)) := by
  intro n
  refine order_take judged (judgeSetPosition_take (p := received 9 u s) passed profile good sourced) _ fun t ⟨o, ends⟩ done _ => ⟨done, ?_⟩
  have place : wordOfCount ((n : Int) * 16) = BitVec.ofNat 32 (n * 16) := wordOfNat n good.1
  have pos : (placedAt n (received 9 u s)).odo.pos.toInt = (n : Int) * 16 := by
    show (wordOfCount ((n : Int) * 16)).toInt = _
    rw [place]; exact toInt_small n good.1
  obtain ⟨i, segment⟩ := segmentIndex_some ((n : Int) * 16) profile
  have source := sourced i segment
  obtain ⟨seg, regime, entry, mismatches, capture, at', src, deviation, validity⟩ :=
    direct_spec (received 9 u s).odo.validity (placedAt n (received 9 u s)) i (by rw [pos]; exact segment) rfl (by
      split
      · next rack => exact source.1 rack
      · next plain => exact source.2 (Bool.eq_false_iff.2 plain))
  have kept := kept_end (setPositionTaken_spreads n (received 9 u s)) rfl ends
  unfold OdoKept at kept
  rw [kept]
  exact ⟨at'.trans place, mismatches, capture, entry, i, segment, seg, regime, src, deviation, validity⟩

/-! ### RESET ENCODER -/

theorem healthWord_toNat (o : Odo) : (healthWord o).toNat
    = (if o.p1.faulted then 0 else 1) + (if o.p2.faulted then 0 else 2) + (if o.w.faulted then 0 else 4) := by
  unfold healthWord flagNat
  cases o.p1.faulted <;> cases o.p2.faulted <;> cases o.w.faulted <;> rfl

theorem judgeResetEncoder_no {work : Vector Word 7} {p : Part} {r : Reason} (first : odometryOrderCheck p = some r) :
    judgeResetEncoder work p = (p, .no r) := by
  unfold judgeResetEncoder; rw [first]

theorem judgeResetEncoder_badParam {work : Vector Word 7} {p : Part} (passed : odometryOrderCheck p = none)
    (bad : ¬ (1 ≤ param work 0 ∧ param work 0 ≤ 4)) : judgeResetEncoder work p = (p, .no .badParam) := by
  have out : param work 0 < 1 ∨ 4 < param work 0 := by omega
  unfold judgeResetEncoder; rw [passed]; exact if_pos out

theorem judgeResetEncoder_take {work : Vector Word 7} {p : Part} (passed : odometryOrderCheck p = none)
    (good : 1 ≤ param work 0 ∧ param work 0 ≤ 4) :
    judgeResetEncoder work p
      = (resetEncoderTaken (param work 0) p, .take (healthWord (resetEncoderTaken (param work 0) p).odo)) := by
  have fits : ¬ (param work 0 < 1 ∨ 4 < param work 0) := by omega
  unfold judgeResetEncoder; rw [passed]; exact if_neg fits

/-- An encoder healed, or left. -/
theorem heal_if (sel : Prop) [Decidable sel] (e : Enc) :
    (if sel then { e with faulted := false } else e) = { e with faulted := if sel then false else e.faulted } := by
  split <;> rfl

/-- The selected encoders are healed: RESET ENCODER is taken. -/
theorem resetEncoder_takes {u : Trigger} {s : State} (judged : Safety.triggerJudged u s) (passed : odometryOrderCheck s.part = none)
    (good : 1 ≤ param (Safety.workingCopy u s) 0 ∧ param (Safety.workingCopy u s) 0 ≤ 4) :
    let n := param (Safety.workingCopy u s) 0
    ∃ t, exec (.resetEncoder u) s = .next t
      ∧ (∃ w : Word, Safety.orderDone 10 u w s t
        ∧ w.toNat = (if t.part.odo.p1.faulted then 0 else 1) + (if t.part.odo.p2.faulted then 0 else 2) + (if t.part.odo.w.faulted then 0 else 4)
        ∧ t.part.odo.p1 = { s.part.odo.p1 with faulted := if n = 1 ∨ n = 4 then false else s.part.odo.p1.faulted }
        ∧ t.part.odo.p2 = { s.part.odo.p2 with faulted := if n = 2 ∨ n = 4 then false else s.part.odo.p2.faulted }
        ∧ t.part.odo.w = { s.part.odo.w with faulted := if n = 3 ∨ n = 4 then false else s.part.odo.w.faulted }
        ∧ t.part.odo.deviation = 0 ∧ t.part.odo.pos = s.part.odo.pos ∧ t.part.odo.regime = s.part.odo.regime
        ∧ (s.part.odo.validity = .unknown → t.part.odo.validity = .unknown ∧ t.part.odo.source = .none)
        ∧ (t.part.odo.validity ≠ .unknown → t.part.odo.source =
            Safety.tableSource s.part.odo.regime t.part.odo.p1.faulted t.part.odo.p2.faulted t.part.odo.w.faulted)) := by
  intro n
  refine order_take judged (judgeResetEncoder_take (p := received 10 u s) passed good) _ fun t ⟨o, ends⟩ done _ => ⟨_, done, ?_⟩
  obtain ⟨p1, p2, w, deviation, pos, regime, unknown, source⟩ := resetEncoder_spec n (received 10 u s)
  have kept := (order_rest ends).1.odo
  rw [Part.withOrd_odo] at kept
  generalize (resetEncoderTaken n (received 10 u s)).odo = z at *
  rw [kept]
  exact ⟨healthWord_toNat _, p1.trans (heal_if _ _), p2.trans (heal_if _ _), w.trans (heal_if _ _), deviation, pos, regime, unknown, source⟩

/-- Settles O20: the shared conditions, those of each order, and what is taken. -/
theorem odometryOrders : Obligations.OdometryOrders := by
  unfold Obligations.OdometryOrders
  intro u s judged
  refine ⟨?_, ?_⟩
  · refine odometry_checked judged (fun r => judgeSetPosition_no (p := received 9 u s)) fun _ passed => ?_
    refine check_step (fun empty => refuse_of judged (judgeSetPosition_noProfile (p := received 9 u s) passed (not_not.1 empty)))
      fun profile => ?_
    refine check_step (fun bad => refuse_of judged (judgeSetPosition_badParam (p := received 9 u s) passed profile bad)) fun good => ?_
    refine check_step (fun none => refuse_of judged (judgeSetPosition_conditionActive (p := received 9 u s) passed profile good none))
      fun sourced => check_end ?_
    exact setPosition_takes judged passed profile good sourced
  · refine odometry_checked judged (fun r => judgeResetEncoder_no (p := received 10 u s)) fun _ passed => ?_
    refine check_step (fun bad => refuse_of judged (judgeResetEncoder_badParam (p := received 10 u s) passed bad)) fun good => check_end ?_
    exact resetEncoder_takes judged passed good

end Sys2Proof.Machine
end

section
/-! ACTIVATE PROFILE and the completion of its copy (R31 to R40). -/

namespace Sys2Proof.Machine

/-! ### The activation begins -/

/-- The checks of the parameters and of the CRC are passed. -/
theorem activate_passed {p : Part} {work : Vector Word 7} (good : 1 ≤ param work 0 ∧ param work 0 ≤ 256 ∧ param work 1 ≤ 65535)
    (crc : (stagedCrc p.prf (param work 0)).toNat = param work 1) :
    ¬ (param work 0 = 0 ∨ 256 < param work 0 ∨ 65535 < param work 1)
      ∧ ((stagedCrc p.prf (param work 0)).toNat != param work 1) = false :=
  ⟨by omega, by rw [crc]; exact bne_self_eq_false _⟩

section
variable {i : Fin 16} {work : Vector Word 7} {p : Part}

theorem judgeActivate_wrongMode (other : ¬ (p.mod.mode = .stand ∨ p.mod.mode = .stabled)) : judgeActivate i work p = (p, .no .wrongMode) := by
  rw [not_or] at other
  unfold judgeActivate; simp [other.1, other.2]

variable (mode : p.mod.mode = .stand ∨ p.mod.mode = .stabled)
include mode

theorem activate_mode : (p.mod.mode != .stand && p.mod.mode != .stabled) = false := by
  rcases mode with m | m <;> rw [m] <;> rfl

theorem judgeActivate_busy (busy : p.prf.copying ≠ none) : judgeActivate i work p = (p, .no .busy) := by
  have copying : p.prf.copying.isSome = true := Option.isSome_iff_ne_none.2 busy
  unfold judgeActivate
  simp only [activate_mode mode, copying, Bool.false_eq_true, if_false, if_true]

variable (idle : p.prf.copying = none)
include idle

theorem judgeActivate_badParam (bad : ¬ (1 ≤ param work 0 ∧ param work 0 ≤ 256 ∧ param work 1 ≤ 65535)) :
    judgeActivate i work p = (p, .no .badParam) := by
  have out : param work 0 = 0 ∨ 256 < param work 0 ∨ 65535 < param work 1 := by omega
  unfold judgeActivate
  simp only [activate_mode mode, idle, Option.isSome_none, out, Bool.false_eq_true, if_false, if_true]

variable (good : 1 ≤ param work 0 ∧ param work 0 ≤ 256 ∧ param work 1 ≤ 65535)
include good

theorem judgeActivate_badCrc (wrong : (stagedCrc p.prf (param work 0)).toNat ≠ param work 1) :
    judgeActivate i work p = (p, .refuse .badCrc (BitVec.ofNat 32 (stagedCrc p.prf (param work 0)).toNat)) := by
  have fits : ¬ (param work 0 = 0 ∨ 256 < param work 0 ∨ 65535 < param work 1) := by omega
  have differs : ((stagedCrc p.prf (param work 0)).toNat != param work 1) = true := bne_iff_ne.2 wrong
  unfold judgeActivate
  simp only [activate_mode mode, idle, Option.isSome_none, fits, differs, Bool.false_eq_true, if_false, if_true]

variable (crc : (stagedCrc p.prf (param work 0)).toNat = param work 1)
include crc

theorem judgeActivate_badSegment {n : Nat}
    (bad : firstBad 0 none (withEnds p.prf.stagedSettings.routeEnd (stagedSegments p.prf (param work 0))) = some n) :
    judgeActivate i work p = (p, .refuse .badSegment (BitVec.ofNat 32 n)) := by
  obtain ⟨fits, same⟩ := activate_passed good crc
  unfold judgeActivate
  simp only [activate_mode mode, idle, Option.isSome_none, fits, same, bad, Bool.false_eq_true, if_false]

variable (segments : firstBad 0 none (withEnds p.prf.stagedSettings.routeEnd (stagedSegments p.prf (param work 0))) = none)
include segments

theorem judgeActivate_badSettings (bad : settingsValid p.prf.stagedSettings (lastStart (stagedSegments p.prf (param work 0))) = false) :
    judgeActivate i work p = (p, .refuse .badSegment 256) := by
  obtain ⟨fits, same⟩ := activate_passed good crc
  unfold judgeActivate
  simp only [activate_mode mode, idle, Option.isSome_none, fits, same, segments, bad, Bool.false_eq_true, if_false]

theorem judgeActivate_runs (valid : settingsValid p.prf.stagedSettings (lastStart (stagedSegments p.prf (param work 0))) = true) :
    judgeActivate i work p = (activationTaken i (param work 0) p, .timed) := by
  obtain ⟨fits, same⟩ := activate_passed good crc
  unfold judgeActivate
  simp only [activate_mode mode, idle, Option.isSome_none, fits, same, segments, valid, Bool.false_eq_true, if_false, if_true]

end

theorem slotRunning_slot (i : Fin 16) (p : Part) :
    (slotRunning i p).ord.slots[i] = { p.ord.slots[i] with state := .running, verdict := .taken, reason := .ok, result := 0 } :=
  setSlot_same i _ p

theorem slotEnd_slot (i : Fin 16) (aborted : Bool) (w : Word) (p : Part) :
    (slotEnd i aborted w p).ord.slots[i] = { p.ord.slots[i] with state := if aborted then .aborted else .done, result := w } :=
  setSlot_same i (fun r => { r with state := if aborted then .aborted else .done, result := w }) p

/-- The activation that is taken runs in its slot, the copy in flight. -/
theorem activation_runs {u : Trigger} {s t : State} {count : Nat}
    (ends : t.part = finish s.part (activationTaken u.slot count (received 11 u s)))
    (forwarded : Safety.orderForwarded 11 u .taken .ok s t) :
    Safety.orderRuns 11 u s t ∧ t.part.ord.activate = some u.slot
      ∧ t.part.prf = { s.part.prf with
          copying := some ⟨stagedSegments s.part.prf count, s.part.prf.stagedSettings, stagedCrc s.part.prf count⟩ } := by
  have ord : t.part.ord = (activationTaken u.slot count (received 11 u s)).ord := by rw [ends, finish_ord]
  have prf : t.part.prf = (activationTaken u.slot count (received 11 u s)).prf := by rw [ends, (finish_returned _ _).prf]
  have slot : t.part.ord.slots[u.slot]
      = { (received 11 u s).ord.slots[u.slot] with state := .running, verdict := .taken, reason := .ok, result := 0 } := by
    rw [ord]; exact slotRunning_slot u.slot (received 11 u s)
  refine ⟨⟨?_, ?_, ?_, ?_, forwarded⟩, by rw [ord]; rfl, by rw [prf]; rfl⟩ <;> rw [slot]

/-- Settles O21: the refusals in their order, each with its result word, and the activation that is taken. -/
theorem activationBegins : Obligations.ActivationBegins := by
  unfold Obligations.ActivationBegins
  intro u s judged count segs crc bad
  let p := received 11 u s
  refine check_step (fun other => refuse_prf (w := 0) judged (judgeActivate_wrongMode (p := p) other)) fun mode => ?_
  refine check_step (fun busy => refuse_prf (w := 0) judged (judgeActivate_busy (p := p) mode busy)) fun idle => ?_
  refine check_step (fun out => refuse_prf (w := 0) judged (judgeActivate_badParam (p := p) mode idle out)) fun good => ?_
  refine check_step (fun wrong => refuse_prf judged (judgeActivate_badCrc (p := p) mode idle good wrong)) fun same => check_end ?_
  cases segments : bad with
  | some i =>
    obtain ⟨t, next, refused, prf⟩ := refuse_prf judged (judgeActivate_badSegment (p := p) mode idle good same segments)
    exact ⟨t, next, fun j named => Option.some.inj named ▸ ⟨refused, prf⟩, fun h => (nomatch h), fun h => (nomatch h)⟩
  | none =>
    cases valid : settingsValid s.part.prf.stagedSettings (lastStart segs) with
    | false =>
      obtain ⟨t, next, refused, prf⟩ := refuse_prf judged (judgeActivate_badSettings (p := p) mode idle good same segments valid)
      exact ⟨t, next, fun j h => (nomatch h), fun _ _ => ⟨refused, prf⟩, fun _ h => (nomatch h)⟩
    | true =>
      refine order_timed judged (judgeActivate_runs (p := p) mode idle good same segments valid) _ fun t ends forwarded _ =>
        ⟨fun j h => (nomatch h), fun _ h => (nomatch h), fun _ _ => activation_runs ends forwarded⟩

/-! ### The copy completes -/

/-- The new bank, before the order of its activation ends. -/
def bankReplaced (h : Holding) (p : Part) : Part :=
  p.withPrf { p.prf with active := h.segs, settings := h.settings, crc := h.crc, copying := none }

theorem replaceActive_eq (h : Holding) (p : Part) : replaceActive h p
    = endActivation false (BitVec.ofNat 32 h.segs.length) (post .profileActive (BitVec.ofNat 16 h.segs.length) (bankReplaced h p)) := rfl

theorem endActivation_prf (aborted : Bool) (w : Word) (p : Part) : (endActivation aborted w p).prf = p.prf := by
  unfold endActivation
  split <;> rfl

theorem replaceActive_prf (h : Holding) (p : Part) :
    (replaceActive h p).prf = { p.prf with active := h.segs, settings := h.settings, crc := h.crc, copying := none } :=
  endActivation_prf _ _ _

/-- The copy is in, and the order, where one runs, has ended. -/
theorem replaceActive_named {h : Holding} {p : Part} {i : Fin 16} (named : p.ord.activate = some i) :
    replaceActive h p = slotEnd i false (BitVec.ofNat 32 h.segs.length)
      ((post .profileActive (BitVec.ofNat 16 h.segs.length) (bankReplaced h p)).withOrd { p.ord with activate := none }) :=
  endActivation_spec _ _ _ i named

/-- The meeting of odometry and the blocks with the new bank moves no part of the profile store. -/
theorem blocksMeet_moves (h : Holding) (p : Part) :
    Moves bankMay (replaceActive h p) (finish p (blocksMeetBank p.prf.settings (odoMeetsBank (replaceActive h p)))) :=
  finish_moves p (by decide)
    (blocksMeetBank_moves _ bankEvery (odoMeetsBank_moves (by decide) (by decide) (by decide) (Moves.refl _)))

theorem endActivation_pre (aborted : Bool) (w : Word) (p : Part) : p.evq.queue <+: (endActivation aborted w p).evq.queue :=
  (endActivation_moves (H := [.ord]) aborted w (by decide) (Moves.refl p)).frame.pre (by decide)

/-- PROFILE_ACTIVE stands first. -/
theorem replaceActive_posts (h : Holding) (p : Part) {q : Part} (later : (replaceActive h p).evq.queue <+: q.evq.queue) :
    Safety.posts p q [(.profileActive, BitVec.ofNat 16 h.segs.length, p.odo.pos)] :=
  posts_of_evq (r := bankReplaced h p) (posts_post (posts_nil ((endActivation_pre _ _ _).trans later))) rfl rfl

/-- ORDER_DONE stands right behind it. -/
theorem replaceActive_posts_done {h : Holding} {p : Part} {i : Fin 16} (named : p.ord.activate = some i) {q : Part}
    (later : (replaceActive h p).evq.queue <+: q.evq.queue) :
    Safety.posts p q [(.profileActive, BitVec.ofNat 16 h.segs.length, p.odo.pos),
      (.orderDone, arg3 i.val 1 (p.ord.slots[i]).tag.toNat, BitVec.ofNat 32 h.segs.length)] := by
  rw [replaceActive_named named] at later
  exact posts_of_evq (r := bankReplaced h p) (posts_post (posts_of_evq (posts_one .orderDone _ _ true later) rfl rfl)) rfl rfl

/-- Settles O22: the copy replaces the bank and ends its order; what the blocks then make of the bank leaves both. -/
theorem copyCompletes : Obligations.CopyCompletes := by
  unfold Obligations.CopyCompletes
  intro h s running copying
  refine row_ends' (live copyCompleted) s _ fun t ends => ?_
  have completed : copyCompleted s.part = blocksMeetBank s.part.prf.settings (odoMeetsBank (replaceActive h s.part)) := by
    unfold copyCompleted; rw [copying]
  rw [live_of_running _ running, completed] at ends
  have frame := ends ▸ (blocksMeet_moves h s.part).frame
  have later := frame.pre (by decide)
  refine ⟨(frame.prf (by decide)).trans (replaceActive_prf h s.part), replaceActive_posts h s.part later, fun i named book => ?_⟩
  have slot : (replaceActive h s.part).ord.slots[i]
      = { s.part.ord.slots[i] with state := .done, result := BitVec.ofNat 32 h.segs.length } := by
    rw [replaceActive_named named]; exact slotEnd_slot i false _ _
  have book' := ((replaceActive_moves (H := [.prf, .ord]) h (by decide) (by decide) (Moves.refl s.part)).frame.kept (by decide) (by decide) book).1
  have kept := (frame.kept (by decide) (by decide) book').2 i (by rw [slot]; exact fun h => nomatch h)
  rw [kept, slot]
  exact ⟨rfl, rfl, replaceActive_posts_done named later⟩

end Sys2Proof.Machine
end

section
/-! The feedback inputs and the deadlines of the brake (R52 to R56, R64). -/

namespace Sys2Proof.Machine

/-! ### What stands through the end of a command -/

/-- A change that leaves the mode, standstill and the latches of the table leaves the return to STAND done. -/
theorem standDone_of_noLatch {p q : Part} (done : Safety.standDone p) (mode : q.mod.mode = p.mod.mode) (odo : q.odo = p.odo) (latches : NoLatch p q) :
    Safety.standDone q := by
  rw [standDone_iff] at done ⊢
  rw [mode, odo]
  cases any : p.anyLatched with
  | false => rw [latches.any any, Bool.and_false]
  | true =>
    rw [any, Bool.and_true] at done
    rw [done, Bool.false_and]

theorem OpOnly.standDone {p q : Part} (h : OpOnly p q) (done : Safety.standDone p) : Safety.standDone q :=
  standDone_of_noLatch done (by rw [h.rest]; rfl) (by rw [h.rest]; rfl) (.only h)

/-- With no return to STAND to make, the end of a command leaves the brake. -/
theorem finish_brk {b q : Part} (done : Safety.standDone q) : (finish b q).brk = q.brk := by
  obtain ⟨g, e⟩ := finish_eq b ((standDone_iff q).1 done)
  rw [e]; rfl

/-- Outside RUN the end of a command leaves the mode. -/
theorem finish_mod_outside {b q : Part} (outside : q.mod.mode ≠ .run) : (finish b q).mod = q.mod := by
  obtain ⟨g, e⟩ := finish_outside_run b outside
  rw [e]; rfl

/-! ### The feedback inputs -/

/-- A feedback switch has its new level, before the brake acts on it. -/
def inputTaken (sw : FeedbackSwitch) (closed : Bool) (p : Part) : Part := p.withBrk { p.brk with inputs := p.brk.inputs.put sw closed }

/-- What the brake makes of a changed input leaves the inputs. -/
theorem feedbackChange_from {sw : FeedbackSwitch} {closed : Bool} {p : Part} (changed : p.brk.inputs.get sw ≠ closed) :
    Moves testMay (inputTaken sw closed p) (feedbackChange sw closed p) := by
  unfold feedbackChange
  rw [if_neg (by simpa using changed)]
  simp only
  split
  · exact Moves.refl _
  · split
    · split
      · exact confirmationLost_moves (by decide) (by decide) (Moves.refl _)
      · split
        · exact post_moves _ _ (Moves.refl _)
        · exact Moves.refl _
    · exact judgeOperation_moves (Moves.refl _)

theorem feedbackChange_inputs (sw : FeedbackSwitch) (closed : Bool) (p : Part) :
    (feedbackChange sw closed p).brk.inputs = p.brk.inputs.put sw closed := by
  by_cases changed : p.brk.inputs.get sw = closed
  · unfold feedbackChange
    rw [if_pos (by simpa using changed), put_same _ _ _ changed]
  · exact (feedbackChange_from changed).frame.inputs (by decide)

/-- An operation that the feedback confirms settles at its target. -/
theorem judgeOperation_confirmed {p : Part} {target : Stage} {deadline : Option Word}
    (operates : p.brk.state = .applying target deadline ∨ p.brk.state = .releasing target deadline)
    (confirmed : operationConfirmed p.reduced p.brk.inputs p.brk.state = true) : judgeOperation p = settle target p := by
  unfold judgeOperation
  rw [if_pos confirmed]
  rcases operates with state | state <;> rw [state]

/-- BRAKE_SETTLED stands first. -/
theorem settle_posts (x : Stage) (p : Part) {q : Part} (later : (settle x p).evq.queue <+: q.evq.queue) :
    Safety.posts p q [(.brakeSettled, BitVec.ofNat 16 x.value, p.odo.pos)] := by
  have stored := (stepSettled_only x (post .brakeSettled (BitVec.ofNat 16 x.value) (p.withBrk { p.brk with state := .settled, confirmed := x }))).pre
  exact posts_of_evq (r := p.withBrk { p.brk with state := .settled, confirmed := x }) (posts_post (posts_nil (stored.trans later))) rfl rfl

section
variable {sw : FeedbackSwitch} {closed : Bool} {p : Part} (free : p.asserted = false) (changed : p.brk.inputs.get sw ≠ closed)
include free changed

/-- A confirming switch opens while SETTLED. -/
theorem feedbackChange_lost (settled : p.brk.state = .settled) (opens : closed = false)
    (confirms : isConfirming p.reduced p.brk.confirmed sw = true) :
    feedbackChange sw closed p = confirmationLost (inputTaken sw closed p) := by
  subst opens
  unfold feedbackChange
  rw [if_neg (by simpa using changed)]
  simp only [show (p.withBrk { p.brk with inputs := p.brk.inputs.put sw false }).asserted = false from free, Bool.false_eq_true, if_false]
  split
  · exact if_pos confirms
  · next other => exact absurd settled other

/-- A switch above the confirmed stage closes while SETTLED. -/
theorem feedbackChange_above (settled : p.brk.state = .settled) (closes : closed = true)
    (above : isAbove p.brk.confirmed sw = true) :
    feedbackChange sw closed p = post .brakeFeedbackFault (arg2 3 p.brk.confirmed.value) (inputTaken sw closed p) := by
  subst closes
  unfold feedbackChange
  rw [if_neg (by simpa using changed)]
  simp only [show (p.withBrk { p.brk with inputs := p.brk.inputs.put sw true }).asserted = false from free, Bool.false_eq_true, if_false]
  split
  · exact (if_neg (by simp)).trans (if_pos (by simpa using above))
  · next other => exact absurd settled other

/-- An input confirms the operation, which settles. -/
theorem feedbackChange_confirms {target : Stage} {deadline : Option Word}
    (operates : p.brk.state = .applying target deadline ∨ p.brk.state = .releasing target deadline)
    (confirmed : operationConfirmed p.reduced (p.brk.inputs.put sw closed) p.brk.state = true) :
    feedbackChange sw closed p = settle target (inputTaken sw closed p) := by
  have state : (inputTaken sw closed p).brk.state = .applying target deadline ∨ (inputTaken sw closed p).brk.state = .releasing target deadline :=
    operates
  unfold feedbackChange
  rw [if_neg (by simpa using changed)]
  simp only [show (p.withBrk { p.brk with inputs := p.brk.inputs.put sw closed }).asserted = false from free, Bool.false_eq_true, if_false]
  split
  · next settled =>
    rcases operates with o | o <;> exact absurd (o.symm.trans settled) (by simp)
  · exact judgeOperation_confirmed state confirmed

end

/-- The loss of the confirmed stage: the fault first, FEEDBACK latched, and then what the operation and a test make of it. -/
theorem confirmationLost_from (p : Part) : Moves testMay
    (latchEntry .feedback .emergency 2 (post .brakeFeedbackFault (arg2 2 p.brk.confirmed.value) p)) (confirmationLost p) := by
  unfold confirmationLost
  refine failTest_moves (by decide) (by decide) ?_
  split
  · exact judgeOperation_moves (brk_moves _ ⟨rfl, rfl, rfl⟩ (fun h => absurd (by decide) h) (Moves.refl _))
  · exact Moves.refl _

/-- A fault that FEEDBACK latches: the event stands first, its bit and the latch stay. -/
theorem feedbackFault_ends {k : EventKind} {arg : Half} {cause : Nat} {p q : Part} (class_ : k.faultClass = some .brake)
    (later : Moves testMay (latchEntry .feedback .emergency cause (post k arg p)) q) :
    Safety.posts p q [(k, arg, p.odo.pos)] ∧ Safety.latchedAt .feedback .emergency q ∧ Safety.flagged .brake q := by
  have latched := latchEntry_latched .feedback .emergency cause (post k arg p)
  have moved : Moves testMay (post k arg p) q :=
    (latchEntry_moves .feedback .emergency cause (by decide) (Moves.refl _)).trans later
  exact ⟨posts_one _ _ _ true (moved.frame.pre (by decide)), latched_after latched (by decide) later (by decide),
    flagged_moves (flagged_post _ _ _ _ class_) moved (by decide)⟩

/-- Settles O23. -/
theorem feedbackInputs : Obligations.FeedbackInputs := by
  unfold Obligations.FeedbackInputs
  intro sw closed s
  refine row_ends' (feedbackChange sw closed) s _ fun t ends => ?_
  rw [ends]
  refine ⟨(finish_returned _ _).inputs.trans (feedbackChange_inputs sw closed s.part),
    fun free changed => ⟨fun settled opens confirms => ?lost, fun settled closes above => ?above, fun target deadline operates confirmed => ?settles⟩⟩
  case lost =>
    rw [feedbackChange_lost free changed settled opens confirms]
    obtain ⟨posted, latched, flagged⟩ := feedbackFault_ends (p := inputTaken sw closed s.part) (k := .brakeFeedbackFault) rfl
      (toEnd s.part (by decide) (confirmationLost_from (inputTaken sw closed s.part)))
    exact ⟨posts_of_evq posted rfl rfl, latched, flagged⟩
  case above =>
    rw [feedbackChange_above free changed settled closes above]
    exact ⟨posts_of_evq (r := inputTaken sw closed s.part) (posts_post (posts_nil (finish_pre _ _))) rfl rfl, flagged_moves (flagged_post _ _ _ _ rfl) (toEnd (H := testMay) _ (by decide) (Moves.refl _)) (by decide)⟩
  case settles =>
    rw [feedbackChange_confirms free changed operates confirmed]
    refine ⟨?_, fun done => ?_⟩
    · exact posts_of_evq (settle_posts target (inputTaken sw closed s.part) (finish_pre _ _)) rfl rfl
    · have input : Safety.standDone (inputTaken sw closed s.part) := done
      rw [finish_brk ((settle_only target _).standDone input)]
      exact (settle_state target _).symm

end Sys2Proof.Machine
end

section
/-! The deadlines of the brake, and the brake test (R53, R54, R56, R62 to R65). -/

namespace Sys2Proof.Machine

/-! ### The end of a test -/

theorem endTest_other {o : TestOutcome} {a : AbortReason} {w : Word} {p : Part} (other : p.mod.mode ≠ .test) :
    (endTest o a w p).mod = p.mod := by
  unfold endTest
  extract_lets _ _ q1 q2 q3
  have same : q2 = q1 := if_neg (show ¬ (p.mod.mode == .test) = true by simpa using other)
  rw [endTestOrder_mod, (followEntry_requested _ _ _ _).mod]
  show q2.mod = p.mod
  rw [same]; rfl

theorem failTest_other {p : Part} (other : p.mod.mode ≠ .test) : (failTest p).mod = p.mod := by
  unfold failTest
  split
  · next r _ => exact endTest_other (p := markStep r.step .fail p) other
  · rfl

theorem failTest_of_none {p : Part} (idle : p.brk.test = none) : failTest p = p := by
  unfold failTest; rw [idle]

/-- A test that ends in TEST: the mode is STAND with its event first, and the TEST entry is released (R65). -/
theorem endTest_testing {o : TestOutcome} {a : AbortReason} {w : Word} {p : Part} (testing : p.mod.mode = .test)
    (free : (p.entry .test).latched = false) :
    (endTest o a w p).mod.mode = .stand ∧ ((endTest o a w p).entry .test).stage = .released
      ∧ ∀ q : Part, (endTest o a w p).evq.queue <+: q.evq.queue → Safety.posts p q [(.modeChanged, 0x144, p.odo.pos)] := by
  unfold endTest
  extract_lets _ _ q1 q2 q3
  have left : q2 = toMode .stand .test q1 := if_pos (show (p.mod.mode == .test) = true by simpa using testing)
  obtain ⟨mode, posted⟩ := changeMode_posts .stand .test id [] (fun _ => rfl) q1
  have same : SameEntry .test q1 q2 := by rw [left]; exact testEnds_same .test (by decide) (by decide) .test q1 testing
  have free3 : (q3.entry .test).latched = false := (congrArg Entry.latched same).trans free
  have req := followEntry_requested .test .released 0 q3
  refine ⟨?_, ?_, fun q later => ?_⟩
  · rw [endTestOrder_mod, req.mod]
    show q2.mod.mode = .stand
    rw [left]; exact congrArg Mod.mode mode
  · rw [endTestOrder_entry]; exact (followEntry_entry .test .released 0 q3 free3).1
  · have rest : (changeMode .stand .test id q1).evq.queue <+: q.evq.queue := by
      have m : Moves [.ord] q2 (endTestOrder (o == .aborted) w (followEntry .test .released 0 q3)) :=
        endTestOrder_moves _ _ (by decide) (followEntry_moves _ _ _ (by decide) (postIf_moves _ _ _ (Moves.refl q2)))
      have pre := m.frame.pre (by decide)
      rw [left] at pre
      exact pre.trans later
    have events := posts_all (modeEvents q1.mod.mode .stand .test []) (posted.trans rest)
    rw [show q1.mod.mode = .test from testing] at events
    exact posts_of_evq events rfl rfl

/-! ### The deadlines -/

section
variable {p : Part} {target : Stage} {start : Word} (free : p.asserted = false)
include free

theorem applyingExpiry_below (state : p.brk.state = .applying target (some start)) (passed : p.passed start (applyingDeadline target) = true)
    (below : target ≠ .emergency) :
    applyingExpiry p = failTest (latchEntry .feedback .emergency 1 (post .brakeFeedbackFault (arg2 1 target.value) p)) := by
  unfold applyingExpiry
  simp only [state, passed, free, Bool.not_false, Bool.and_self, if_true]
  exact if_neg (by simpa using below)

theorem applyingExpiry_emergency (state : p.brk.state = .applying .emergency (some start))
    (passed : p.passed start (applyingDeadline .emergency) = true) : applyingExpiry p = brakeUnconfirmed p := by
  unfold applyingExpiry
  simp only [state, passed, free, Bool.not_false, Bool.and_self, if_true]
  exact if_pos rfl

theorem releasingExpiry_stuck (state : p.brk.state = .releasing target (some start)) (passed : p.passed start releasingDeadline = true) :
    releasingExpiry p = failTest (post .releaseStuck (BitVec.ofNat 16 target.value) (p.withBrk { p.brk with state := .releasing target none })) := by
  unfold releasingExpiry
  simp only [state, passed, free, Bool.not_false, Bool.and_self, if_true]

end

/-- The operation goes on without a deadline, the fault posted: what brake-unconfirmed begins with (R54). -/
def unconfirmedPosted (p : Part) : Part := post .brakeFeedbackFault (arg2 1 5) (p.withBrk { p.brk with state := .applying .emergency none })

theorem brakeUnconfirmed_locked {p : Part} (locked : p.mod.mode = .lockout) : brakeUnconfirmed p = unconfirmedPosted p :=
  if_pos (show (p.mod.mode == .lockout) = true by rw [locked]; rfl)

theorem brakeUnconfirmed_locks {p : Part} (running : p.mod.mode ≠ .lockout) : brakeUnconfirmed p
    = failTest (toMode .lockout .lockout (post .lockout 0 (handAlarm .lockout (unconfirmedPosted p)))) :=
  if_neg (show ¬ (p.mod.mode == .lockout) = true by simpa using running)

/-- The car locked out, before the running test fails. -/
theorem lockedOut_moves (p : Part) :
    Moves [.mode] (unconfirmedPosted p) (toMode .lockout .lockout (post .lockout 0 (handAlarm .lockout (unconfirmedPosted p)))) :=
  toLockout_moves .lockout (by decide) (post_moves _ _ (handAlarm_moves _ (Moves.refl _)))

theorem toMode_mode (new : Mode) (cause : ModeCause) (p : Part) : (toMode new cause p).mod.mode = new :=
  congrArg Mod.mode (changeMode_posts new cause id [] (fun _ => rfl) p).1

theorem brakeUnconfirmed_mode (p : Part) : (brakeUnconfirmed p).mod.mode = .lockout := by
  by_cases locked : p.mod.mode = .lockout
  · rw [brakeUnconfirmed_locked locked]; exact locked
  · rw [brakeUnconfirmed_locks locked, failTest_other (by rw [toMode_mode]; decide), toMode_mode]

theorem brakeUnconfirmed_test {p : Part} (running : p.mod.mode ≠ .lockout) (test : p.brk.test.isSome = true) :
    (brakeUnconfirmed p).brk.test = none ∧ (brakeUnconfirmed p).brk.record.outcome = .failed := by
  rw [brakeUnconfirmed_locks running]
  exact failTest_ends _ (test_some ((lockedOut_moves p).frame.test (by decide)) test)

theorem brakeUnconfirmed_from (p : Part) : Moves testMay (unconfirmedPosted p) (brakeUnconfirmed p) := by
  by_cases locked : p.mod.mode = .lockout
  · rw [brakeUnconfirmed_locked locked]; exact Moves.refl _
  · rw [brakeUnconfirmed_locks locked]
    exact failTest_moves (by decide) (by decide) ((lockedOut_moves p).mono (by decide))

/-- The test that has failed by the end of a command. -/
theorem finish_failed {b q : Part} (h : q.brk.test = none ∧ q.brk.record.outcome = .failed) :
    (finish b q).brk.test = none ∧ (finish b q).brk.record.outcome = .failed :=
  ⟨test_none (finish_test b q) h.1, (finish_test b q).outcome.trans h.2⟩

/-- An APPLYING deadline that passes. -/
theorem applyingDeadline_ends {target : Stage} {start : Word} {s : State} (free : s.part.asserted = false)
    (state : s.part.brk.state = .applying target (some start)) (passed : s.part.passed start (applyingDeadline target) = true) :
    ∃ t, exec .applyingDeadlineExpiry s = .next t
      ∧ Safety.posts s.part t.part [(.brakeFeedbackFault, arg2 1 target.value, s.part.odo.pos)]
      ∧ (target ≠ .emergency → Safety.latchedAt .feedback .emergency t.part)
      ∧ (target = .emergency → t.part.mod.mode = .lockout)
      ∧ (s.part.brk.test.isSome = true → s.part.mod.mode ≠ .lockout → t.part.brk.test = none ∧ t.part.brk.record.outcome = .failed)
      ∧ Safety.flagged .brake t.part := by
  refine row_ends' applyingExpiry s _ fun t ends => ?_
  rw [ends]
  by_cases emergency : target = .emergency
  · subst emergency
    rw [applyingExpiry_emergency free state passed]
    have moved := toEnd s.part (by decide) (brakeUnconfirmed_from s.part)
    refine ⟨posts_of_evq (posts_post (posts_nil (moved.frame.pre (by decide)))) rfl rfl, fun h => absurd rfl h, fun _ => ?_,
      fun test running => finish_failed (brakeUnconfirmed_test running test), flagged_moves (flagged_post _ _ _ _ rfl) moved (by decide)⟩
    rw [finish_mod_outside (by rw [brakeUnconfirmed_mode]; decide), brakeUnconfirmed_mode]
  · rw [applyingExpiry_below free state passed emergency]
    obtain ⟨posted, latched, flagged⟩ := feedbackFault_ends (p := s.part) (k := .brakeFeedbackFault) (arg := arg2 1 target.value) (cause := 1) rfl
      (toEnd s.part (by decide) (failTest_moves (by decide) (by decide) (Moves.refl _)))
    refine ⟨posted, fun _ => latched, fun h => absurd h emergency, fun test _ => finish_failed (failTest_ends _ ?_), flagged⟩
    exact test_some (latchEntry_requested .feedback .emergency 1 (post .brakeFeedbackFault (arg2 1 target.value) s.part)).test test

/-- A RELEASING deadline that passes. -/
theorem releasingDeadline_ends {target : Stage} {start : Word} {s : State} (free : s.part.asserted = false)
    (state : s.part.brk.state = .releasing target (some start)) (passed : s.part.passed start releasingDeadline = true) :
    ∃ t, exec .releasingDeadlineExpiry s = .next t
      ∧ Safety.posts s.part t.part [(.releaseStuck, BitVec.ofNat 16 target.value, s.part.odo.pos)]
      ∧ (s.part.brk.test = none → Safety.standDone s.part → t.part.brk.state = .releasing target none)
      ∧ (s.part.brk.test.isSome = true → t.part.brk.test = none ∧ t.part.brk.record.outcome = .failed)
      ∧ Safety.flagged .brake t.part := by
  refine row_ends' releasingExpiry s _ fun t ends => ?_
  rw [ends, releasingExpiry_stuck free state passed]
  let q := post .releaseStuck (BitVec.ofNat 16 target.value) (s.part.withBrk { s.part.brk with state := .releasing target none })
  have moved : Moves testMay q (finish s.part (failTest q)) := toEnd s.part (by decide) (failTest_moves (by decide) (by decide) (Moves.refl _))
  refine ⟨posts_of_evq (posts_post (posts_nil (moved.frame.pre (by decide)))) rfl rfl, fun idle done => ?_,
    fun test => finish_failed (failTest_ends q test), flagged_moves (flagged_post _ _ _ _ rfl) moved (by decide)⟩
  rw [failTest_of_none (p := q) idle, finish_brk (q := q) done]; rfl

/-- Settles O24. -/
theorem brakeDeadlines : Obligations.BrakeDeadlines := by
  unfold Obligations.BrakeDeadlines
  exact fun target start s free => ⟨applyingDeadline_ends free, releasingDeadline_ends free⟩

/-! ### The brake test -/

section
variable {i : Fin 16} {p : Part}

theorem judgeBrakeTest_busy (busy : p.ord.brakeTest ≠ none) : judgeBrakeTest i p = (p, .no .busy) := by
  have named : p.ord.brakeTest.isSome = true := Option.isSome_iff_ne_none.2 busy
  unfold judgeBrakeTest; rw [if_pos named]

variable (idle : p.ord.brakeTest = none)
include idle

theorem judgeBrakeTest_lockout (locked : p.mod.mode = .lockout) : judgeBrakeTest i p = (p, .no .lockout) := by
  unfold judgeBrakeTest; simp [idle, locked]

theorem judgeBrakeTest_wrongMode (running : p.mod.mode ≠ .lockout) (other : p.mod.mode ≠ .stand) : judgeBrakeTest i p = (p, .no .wrongMode) := by
  unfold judgeBrakeTest; simp [idle, running, other]

variable (stand : p.mod.mode = .stand)
include stand

theorem judgeBrakeTest_notStandstill (moves : ¬ p.odo.standstill = true) : judgeBrakeTest i p = (p, .no .notStandstill) := by
  unfold judgeBrakeTest; simp [idle, stand, moves]

variable (still : p.odo.standstill = true)
include still

theorem judgeBrakeTest_doorsOpen (opened : ¬ Safety.doorsShut p) : judgeBrakeTest i p = (p, .no .doorsOpen) := by
  rw [shut_iff] at opened
  unfold judgeBrakeTest; simp [idle, stand, still, opened]

variable (shut : Safety.doorsShut p)
include shut

theorem judgeBrakeTest_latchedDemand (latched : ¬ ∀ d, (p.entry d).latched = false) : judgeBrakeTest i p = (p, .no .latchedDemand) := by
  rw [shut_iff] at shut
  rw [anyLatched_iff] at latched
  unfold judgeBrakeTest; simp [idle, stand, still, shut, latched]

variable (clear : ∀ d, (p.entry d).latched = false)
include clear

theorem judgeBrakeTest_chargeWait (waits : p.mod.charge ≠ .complete) : judgeBrakeTest i p = (p, .no .chargeWait) := by
  rw [shut_iff] at shut
  rw [anyLatched_iff] at clear
  have charging : p.charging = true := by unfold Part.charging; simpa using waits
  unfold judgeBrakeTest; simp [idle, stand, still, shut, clear, charging]

variable (charged : p.mod.charge = .complete)
include charged

theorem judgeBrakeTest_conditionActive (others : ¬ ∀ d, d ≠ .mode → (p.entry d).stage = .released) :
    judgeBrakeTest i p = (p, .no .conditionActive) := by
  rw [shut_iff] at shut
  rw [anyLatched_iff] at clear
  rw [← other_released] at others
  have charging : p.charging = false := by unfold Part.charging; simpa using charged
  unfold judgeBrakeTest; simp [idle, stand, still, shut, clear, charging, others]

theorem judgeBrakeTest_runs (released : ∀ d, d ≠ .mode → (p.entry d).stage = .released) :
    judgeBrakeTest i p = (beginTest ((slotRunning i p).withOrd { (slotRunning i p).ord with brakeTest := some i }), .timed) := by
  rw [shut_iff] at shut
  rw [anyLatched_iff] at clear
  rw [← other_released] at released
  have charging : p.charging = false := by unfold Part.charging; simpa using charged
  unfold judgeBrakeTest; simp [idle, stand, still, shut, clear, charging, released]

end

/-- BRAKE TEST, by its conditions in their order. -/
theorem brakeTest_begins {u : Trigger} {s : State} (judged : Safety.triggerJudged u s) (book : Safety.bookkeeping s.part.ord) :
    ∃ t, exec (.brakeTest u) s = .next t ∧ Safety.checked (fun r => Safety.orderRefused 5 u r 0 s t)
      (Safety.orderRuns 5 u s t ∧ t.part.ord.brakeTest = some u.slot ∧ t.part.mod.mode = .test
        ∧ (t.part.entry .test).stage = .s1 ∧ t.part.brk.test.map TestRun.step = some 0
        ∧ t.part.brk.record.outcome = .running ∧ t.part.brk.record.abort = .none ∧ t.part.brk.record.start = s.part.now
        ∧ Safety.posts s.part t.part [(.demandSet, arg3 12 1 1, s.part.odo.pos)])
      [(s.part.ord.brakeTest = none, .busy), (s.part.mod.mode ≠ .lockout, .lockout), (s.part.mod.mode = .stand, .wrongMode),
       (s.part.odo.standstill = true, .notStandstill), (Safety.doorsShut s.part, .doorsOpen),
       (∀ d, (s.part.entry d).latched = false, .latchedDemand), (s.part.mod.charge = .complete, .chargeWait),
       (∀ d, d ≠ .mode → (s.part.entry d).stage = .released, .conditionActive)] := by
  let p := received 5 u s
  refine check_step (fun busy => refuse_of judged (judgeBrakeTest_busy (p := p) busy)) fun idle => ?_
  refine check_step (fun locked => refuse_of judged (judgeBrakeTest_lockout (p := p) idle (not_not.1 locked))) fun running => ?_
  refine check_step (fun other => refuse_of judged (judgeBrakeTest_wrongMode (p := p) idle running other)) fun stand => ?_
  refine check_step (fun moves => refuse_of judged (judgeBrakeTest_notStandstill (p := p) idle stand moves)) fun still => ?_
  refine check_step (fun opened => refuse_of judged (judgeBrakeTest_doorsOpen (p := p) idle stand still opened)) fun shut => ?_
  refine check_step (fun latched => refuse_of judged (judgeBrakeTest_latchedDemand (p := p) idle stand still shut latched)) fun clear => ?_
  refine check_step (fun waits => refuse_of judged (judgeBrakeTest_chargeWait (p := p) idle stand still shut clear waits)) fun charged => ?_
  refine check_step (fun others => refuse_of judged (judgeBrakeTest_conditionActive (p := p) idle stand still shut clear charged others))
    fun released => check_end ?_
  refine order_timed judged (judgeBrakeTest_runs (p := p) idle stand still shut clear charged released) _ fun t ends forwarded _ => ?_
  exact testBegins u s judged book stand clear released _ rfl t ends forwarded

/-! ### The hold of a step ends -/

theorem stepStage_ne_released (n : Fin 5) : stepStage n ≠ .released := by revert n; decide

theorem causeByte_of_ne {x : Stage} (raised : x ≠ .released) (cause : Nat) : causeByte x cause = BitVec.ofNat 8 cause := by
  unfold causeByte
  exact if_neg (by simpa using raised)

/-- The next step of a test: its number, and the TEST entry at its stage. -/
theorem startStep_starts (n : Fin 5) {p : Part} (free : (p.entry .test).latched = false) :
    (startStep n p).brk.test.map TestRun.step = some n ∧ ((startStep n p).entry .test).stage = stepStage n
      ∧ ((startStep n p).entry .test).cause = BitVec.ofNat 8 (n.val + 1) ∧ (startStep n p).mod = p.mod := by
  unfold startStep
  obtain ⟨stage, -, cause⟩ := followEntry_entry .test (stepStage n) (n.val + 1)
    (p.withBrk { p.brk with test := some { step := n, start := p.now, hold := none } }) free
  have req := followEntry_requested .test (stepStage n) (n.val + 1)
    (p.withBrk { p.brk with test := some { step := n, start := p.now, hold := none } })
  exact ⟨req.test.step, stage, cause.trans (causeByte_of_ne (stepStage_ne_released n) _), req.mod⟩

section
variable {p : Part} {run : TestRun} {hold : Word} (free : p.asserted = false) (held : run.hold = some hold)
  (passed : p.passed hold 500 = true)
include free held passed

theorem holdEnd_due : (p.due run.hold 500 && !p.asserted) = true := by
  rw [held, free]; exact (Bool.and_true _).trans passed

variable (test : p.brk.test = some run)
include test

theorem holdEnd_next {n : Fin 5} (next : n.val = run.step.val + 1) : holdEnd p = startStep n p := by
  have due := holdEnd_due free held passed
  have room : run.step.val + 1 < 5 := next ▸ n.isLt
  unfold holdEnd
  rw [test]
  simp only [due, if_true, room, dif_pos]
  exact congrArg (startStep · p) (Fin.ext next.symm)

theorem holdEnd_last (last : run.step = 4) : holdEnd p = endTest .passed .none 1 p := by
  have due := holdEnd_due free held passed
  have full : ¬ run.step.val + 1 < 5 := by rw [last]; decide
  unfold holdEnd
  rw [test]
  simp only [due, if_true, full, dif_neg, not_false_eq_true]

end

/-- The hold of a step ends in TEST. -/
theorem testHoldEnd_ends {run : TestRun} {hold : Word} {s : State} (free : s.part.asserted = false) (testing : s.part.mod.mode = .test)
    (test : s.part.brk.test = some run) (held : run.hold = some hold) (passed : s.part.passed hold 500 = true)
    (never : (s.part.entry .test).latched = false) :
    ∃ t, exec .testHoldEnd s = .next t
      ∧ (∀ n : Fin 5, n.val = run.step.val + 1 →
          t.part.brk.test.map TestRun.step = some n ∧ (t.part.entry .test).stage = stepStage n
          ∧ (t.part.entry .test).cause = BitVec.ofNat 8 (n.val + 1) ∧ t.part.mod.mode = .test)
      ∧ (run.step = 4 →
          t.part.brk.test = none ∧ t.part.brk.record.outcome = .passed ∧ t.part.brk.record.abort = .none
          ∧ t.part.mod.mode = .stand ∧ (t.part.entry .test).stage = .released
          ∧ Safety.posts s.part t.part [(.modeChanged, 0x144, s.part.odo.pos)]) := by
  refine row_ends' holdEnd s _ fun t ends => ?_
  refine ⟨fun n next => ?_, fun last => ?_⟩
  · rw [holdEnd_next free held passed test next] at ends
    obtain ⟨step, stage, cause, mod⟩ := startStep_starts n never
    obtain ⟨g, e⟩ := finish_outside_run (q := startStep n s.part) s.part (by rw [mod, testing]; decide)
    rw [ends, e]
    exact ⟨step, stage, cause, (congrArg Mod.mode mod).trans testing⟩
  · rw [holdEnd_last free held passed test last] at ends
    obtain ⟨mode, stage, posted⟩ := endTest_testing (o := .passed) (a := .none) (w := 1) testing never
    obtain ⟨idle, outcome, abort⟩ := endTest_ends .passed .none 1 s.part
    obtain ⟨g, e⟩ := finish_outside_run (q := endTest .passed .none 1 s.part) s.part (by rw [mode]; decide)
    rw [ends, e]
    exact ⟨idle, outcome, abort, mode, stage, posted _ (List.prefix_refl _)⟩

/-- Settles O25. -/
theorem brakeTests : Obligations.BrakeTests := by
  unfold Obligations.BrakeTests
  refine ⟨fun u s judged lawful => brakeTest_begins judged (lawful_iff.1 lawful).1.ord,
    fun run hold s free testing test held passed lawful => ?_⟩
  exact testHoldEnd_ends free testing test held passed ((lawful_iff.1 lawful).1.never .test rfl)

end Sys2Proof.Machine
end

section
/-! RESET DEMAND (R59, Table 3-7). -/

namespace Sys2Proof.Machine

section
variable {work : Vector Word 7} {p : Part}

theorem judgeResetDemand_lockout (locked : p.mod.mode = .lockout) : judgeResetDemand work p = (p, .no .lockout) := by
  unfold judgeResetDemand; rw [locked]; rfl

variable (running : p.mod.mode ≠ .lockout)
include running

theorem judgeResetDemand_badParam (none : latchingSource? (param work 0) = none) : judgeResetDemand work p = (p, .no .badParam) := by
  unfold judgeResetDemand; simp [running, none]

variable {d : DemandSource} (named : latchingSource? (param work 0) = some d)
include named

theorem judgeResetDemand_notStandstill (moves : ¬ p.odo.standstill = true) : judgeResetDemand work p = (p, .no .notStandstill) := by
  unfold judgeResetDemand; simp [running, named, moves]

variable (still : p.odo.standstill = true)
include still

theorem judgeResetDemand_left (free : (p.entry d).latched = false) (released : (p.entry d).stage = .released) :
    judgeResetDemand work p = (p, .take 0) := by
  unfold judgeResetDemand; simp [running, named, still, free, released]

theorem judgeResetDemand_raised (free : (p.entry d).latched = false) (raised : (p.entry d).stage ≠ .released) :
    judgeResetDemand work p = (p, .no .conditionActive) := by
  unfold judgeResetDemand; simp [running, named, still, free, raised]

theorem judgeResetDemand_stands (latched : (p.entry d).latched = true) (stands : conditionStands d p = true) :
    judgeResetDemand work p = (p, .no .conditionActive) := by
  unfold judgeResetDemand; simp [running, named, still, latched, stands]

theorem judgeResetDemand_clears (latched : (p.entry d).latched = true) (gone : conditionStands d p = false) :
    judgeResetDemand work p = (resetLatch d p, .take (BitVec.ofNat 32 ((resetLatch d p).entry d).stage.value)) := by
  unfold judgeResetDemand; simp [running, named, still, latched, gone]

end

/-- An entry is latched at standstill outside RUN only (R109). -/
theorem outside_run_of_latched {p : Part} {d : DemandSource} (done : Safety.standDone p) (still : p.odo.standstill = true)
    (latched : (p.entry d).latched = true) : p.mod.mode ≠ .run := by
  intro run
  refine done ⟨run, still, ?_⟩
  by_contra none
  have free := (anyLatched_iff p).2 (Bool.eq_false_iff.2 none) d
  rw [latched] at free; cases free

/-- An order that is taken and changes nothing leaves the entries. -/
theorem take_keep {kind : Byte} {judge : Judge} {u : Trigger} {s : State} {w : Word} (judged : Safety.triggerJudged u s) (done : Safety.standDone s.part)
    (taken : judge u.slot (Safety.workingCopy u s) (received kind u s) = (received kind u s, .take w)) :
    ∃ t, hostRow (triggerWith kind judge u) s = .next t ∧ Safety.orderDone kind u w s t ∧ ∀ d, t.part.entry d = s.part.entry d := by
  refine order_take judged taken _ fun t ⟨o, ends⟩ orderDone _ => ⟨orderDone, fun d => ?_⟩
  have brk : t.part.brk = s.part.brk := by
    rw [ends, finish_brk (q := (received kind u s).withOrd o) done]; rfl
  unfold Part.entry; rw [brk]

/-- The latch is cleared, and its owner acts. -/
theorem resetDemand_clears {u : Trigger} {d : DemandSource} {s : State} (judged : Safety.triggerJudged u s) (done : Safety.standDone s.part)
    (running : s.part.mod.mode ≠ .lockout) (latching : Safety.latches d = true)
    (named : latchingSource? (param (Safety.workingCopy u s) 0) = some d) (still : s.part.odo.standstill = true)
    (latched : (s.part.entry d).latched = true) (gone : conditionStands d s.part = false) :
    ∃ t, exec (.resetDemand u) s = .next t ∧
      (Safety.orderDone 8 u (BitVec.ofNat 32 (Safety.owedStage s.part d).value) s t
        ∧ (t.part.entry d).latched = false ∧ (t.part.entry d).stage = Safety.owedStage s.part d
        ∧ Safety.ownerActs t.part d
        ∧ (d ≠ .supervision → Safety.posts s.part t.part
            [(.demandCleared, arg2 d.number (Safety.owedStage s.part d).value, (s.part.entry d).setPos)])) := by
  have outside := outside_run_of_latched done still latched
  obtain ⟨stage, free, acts, mod, posted⟩ := resetLatch_spec d latching (received 8 u s) outside
  refine order_take judged (judgeResetDemand_clears (p := received 8 u s) running named still latched gone) _ fun t ⟨o, ends⟩ orderDone _ => ?_
  obtain ⟨g, e⟩ := finish_outside_run (q := (resetLatch d (received 8 u s)).withOrd o) s.part
    (by rw [Part.withOrd_mod, mod]; exact outside)
  have evq : t.part.evq = (resetLatch d (received 8 u s)).evq := by rw [ends, e]; rfl
  rw [stage] at orderDone
  refine ⟨orderDone, ?_, ?_, ?_, fun other => posts_of_evq (posted other t.part (evq ▸ List.prefix_refl _)) rfl rfl⟩
  · rw [ends, e]; exact free
  · rw [ends, e]; exact stage
  · rw [ends, e]; exact acts

/-- Settles O27. -/
theorem resetsDemand : Obligations.ResetsDemand := by
  unfold Obligations.ResetsDemand
  intro u d s judged done
  let p := received 8 u s
  refine ⟨fun outside => ?_, fun number => ?_⟩
  · refine check_step (fun locked => refuse_of judged (judgeResetDemand_lockout (p := p) (not_not.1 locked))) fun running => check_end ?_
    exact refuse_of judged (judgeResetDemand_badParam (p := p) running (latching_bad _ outside))
  · refine check_step (fun locked => refuse_of judged (judgeResetDemand_lockout (p := p) (not_not.1 locked))) fun running => ?_
    have source : latchingSource? (param (Safety.workingCopy u s) 0) = if Safety.latches d then some d else none := by
      rw [number]; exact latching_iff d
    refine check_step (fun never => refuse_of judged (judgeResetDemand_badParam (p := p) running (source.trans (if_neg never))))
      fun latching => ?_
    have named := source.trans (if_pos latching)
    refine check_step (fun moves => refuse_of judged (judgeResetDemand_notStandstill (p := p) running named moves)) fun still => check_end ?_
    cases latched : (s.part.entry d).latched with
    | false =>
      by_cases released : (s.part.entry d).stage = .released
      · obtain ⟨t, next, taken, kept⟩ := take_keep (kind := 8) (judge := fun _ => judgeResetDemand) judged done (judgeResetDemand_left (p := p) running named still latched released)
        exact ⟨t, next, fun _ => ⟨fun _ => ⟨taken, kept d⟩, fun raised => absurd released raised⟩, fun h => (nomatch h)⟩
      · obtain ⟨t, next, refused⟩ := refuse_of (kind := 8) (judge := fun _ => judgeResetDemand) judged (judgeResetDemand_raised (p := p) running named still latched released)
        exact ⟨t, next, fun _ => ⟨fun h => absurd h released, fun _ => refused⟩, fun h => (nomatch h)⟩
    | true =>
      by_cases gone : Safety.conditionGone s.part d
      · obtain ⟨t, next, cleared⟩ := resetDemand_clears judged done running latching named still latched ((gone_iff d s.part latching).1 gone)
        exact ⟨t, next, fun h => (nomatch h), fun _ => ⟨fun h => absurd gone h, fun _ => cleared⟩⟩
      · have stands : conditionStands d p = true := by
          rw [gone_iff d s.part latching, Bool.not_eq_false] at gone; exact gone
        obtain ⟨t, next, refused, kept⟩ := refuse_keep (kind := 8) (judge := fun _ => judgeResetDemand) judged done (judgeResetDemand_stands (p := p) running named still latched stands)
        exact ⟨t, next, fun h => (nomatch h), fun _ => ⟨fun _ => ⟨refused, kept d⟩, fun h => absurd h gone⟩⟩

end Sys2Proof.Machine
end

section
/-! The mode orders RUN, STAND, STABLE and MAINTENANCE RELEASE (R107 to R110, R113). -/

namespace Sys2Proof.Machine

/-! ### What a change of mode posts and leaves -/

/-- MODE_CHANGED stands first. -/
theorem toMode_posts {new : Mode} {cause : ModeCause} {p q : Part} (later : (toMode new cause p).evq.queue <+: q.evq.queue) :
    Safety.posts p q [(.modeChanged, BitVec.ofNat 16 (new.code * 256 + p.mod.mode.code * 16 + cause.code), p.odo.pos)] := by
  obtain ⟨-, posted⟩ := changeMode_posts new cause id [] (fun _ => rfl) p
  exact posts_of_evq (posts_all (modeEvents p.mod.mode new cause []) (posted.trans later)) rfl rfl

/-- Standstill stands at a change of mode. -/
theorem toMode_standstill (new : Mode) (cause : ModeCause) (p : Part) : (toMode new cause p).odo.standstill = p.odo.standstill := by
  obtain ⟨y, requested, -, -, moved⟩ := changeMode_spec (H := [.doors, .ord]) new cause id [] (fun _ => rfl) p
  have odo : y.odo = p.odo := by
    obtain ⟨x, e, -⟩ := postAll_evq (modeEvents p.mod.mode new cause []) (p.withMod { p.mod with mode := new })
    rw [requested.pos, e]; rfl
  obtain ⟨-, -, -, -, -, -, -, -, standstill, -⟩ := (moved (.inr (.inr ⟨by decide, by decide⟩))).frame.odo (by decide)
  exact standstill.trans (by rw [odo])

/-- STABLED stops the report timer (R167). -/
theorem toStabled_reportTimer (cause : ModeCause) (p : Part) : (toMode .stabled cause p).msg.reportTimer = none := by
  unfold toMode changeMode
  extract_lets old was _ q1 q2
  have mode : q2.mod.mode = .stabled := toMode_mode .stabled cause p
  have before : (modeDor (modeOdo (modeAut old (modeSsu old (patternChanged was (requestMode q1)))))).mod.mode = .stabled := by
    have moved : Moves [] (modeDor (modeOdo (modeAut old (modeSsu old (patternChanged was (requestMode q1)))))) q2 := modeRlc_moves _ (Moves.refl _)
    exact (moved.frame.mode (by simp)).symm.trans mode
  show (modeRlc old _).msg.reportTimer = none
  unfold modeRlc
  rw [if_pos (by rw [before]; rfl)]; rfl

/-! ### RUN (R107) -/

section
variable {p : Part}

theorem judgeRun_wrongMode (other : ¬ p.mod.mode = .stand) : judgeRun p = (p, .no .wrongMode) := by
  unfold judgeRun; simp [other]

theorem placeKnown_iff : Safety.placeKnown p ↔ (p.odo.validity == .unknown || p.odo.validity == .uncertain) = false := by
  unfold Safety.placeKnown
  cases p.odo.validity <;> decide

variable (stand : p.mod.mode = .stand)
include stand

theorem judgeRun_noProfile (empty : p.prf.active = []) : judgeRun p = (p, .no .noProfile) := by
  unfold judgeRun; simp [stand, empty]

variable (profile : p.prf.active ≠ [])
include profile

theorem judgeRun_noPosition (lost : ¬ Safety.placeKnown p) : judgeRun p = (p, .no .noPosition) := by
  rw [placeKnown_iff, Bool.not_eq_false] at lost
  unfold judgeRun; simp only [stand, List.isEmpty_eq_false_iff.2 profile, lost, bne_self_eq_false, Bool.false_eq_true, if_false, if_true]

variable (known : Safety.placeKnown p)
include known

theorem judgeRun_noAuthority (none : ¬ ∃ a, p.aut.current = some a ∧ recordHoldsExtent a p = true) :
    judgeRun p = (p, .no .noAuthority) := by
  rw [placeKnown_iff] at known
  unfold judgeRun
  simp only [stand, List.isEmpty_eq_false_iff.2 profile, known, bne_self_eq_false, Bool.false_eq_true, if_false]
  cases current : p.aut.current with
  | none => rfl
  | some a =>
    have outside : recordHoldsExtent a p = false := Bool.eq_false_iff.2 fun holds => none ⟨a, current, holds⟩
    simp only [outside]; rfl

variable {a : Authority} (held : p.aut.current = some a) (extent : recordHoldsExtent a p = true)
include held extent

theorem judgeRun_doorsOpen (opened : ¬ Safety.doorsShut p) : judgeRun p = (p, .no .doorsOpen) := by
  rw [shut_iff] at opened
  rw [placeKnown_iff] at known
  unfold judgeRun
  simp only [stand, List.isEmpty_eq_false_iff.2 profile, known, held, extent, opened, bne_self_eq_false, Bool.false_eq_true, if_false, Bool.not_true,
    Bool.not_false, if_true]

variable (shut : Safety.doorsShut p)
include shut

theorem judgeRun_latchedDemand (latched : ¬ ∀ d, (p.entry d).latched = false) : judgeRun p = (p, .no .latchedDemand) := by
  rw [anyLatched_iff, Bool.not_eq_false] at latched
  rw [shut_iff] at shut
  rw [placeKnown_iff] at known
  unfold judgeRun
  simp only [stand, List.isEmpty_eq_false_iff.2 profile, known, held, extent, shut, latched, bne_self_eq_false, Bool.false_eq_true, if_false,
    Bool.not_true, if_true]

variable (clear : ∀ d, (p.entry d).latched = false)
include clear

theorem judgeRun_chargeWait (waits : p.mod.charge ≠ .complete) : judgeRun p = (p, .no .chargeWait) := by
  have charging : p.charging = true := by unfold Part.charging; simpa using waits
  rw [anyLatched_iff] at clear
  rw [shut_iff] at shut
  rw [placeKnown_iff] at known
  unfold judgeRun
  simp only [stand, List.isEmpty_eq_false_iff.2 profile, known, held, extent, shut, clear, charging, bne_self_eq_false, Bool.false_eq_true, if_false,
    Bool.not_true, if_true]

variable (charged : p.mod.charge = .complete)
include charged

theorem judgeRun_checked : judgeRun p = if p.prf.copying.isSome then (p, .no .profileBusy) else (toMode .run .order p, .take 0) := by
  have charging : p.charging = false := by unfold Part.charging; simpa using charged
  rw [anyLatched_iff] at clear
  rw [shut_iff] at shut
  rw [placeKnown_iff] at known
  unfold judgeRun
  simp only [stand, List.isEmpty_eq_false_iff.2 profile, known, held, extent, shut, clear, charging, bne_self_eq_false, Bool.false_eq_true, if_false,
    Bool.not_true]

end

/-- Into RUN: the mode holds where the car moves, or where nothing latches at the change. -/
theorem toRun_holds {b p q : Part} {o : Ord} (stand : p.mod.mode = .stand) (clear : ∀ d, (p.entry d).latched = false)
    (ends : q = finish b ((toMode .run .order p).withOrd o)) :
    (p.odo.standstill = false → q.mod.mode = .run)
      ∧ (p.mod.hostSilent = false → p.odo.speed ≤ p.prf.settings.emergencyMargin → q.mod.mode = .run) := by
  have stays : Safety.standDone (toMode .run .order p) → q.mod.mode = .run := fun done => by
    obtain ⟨g, e⟩ := finish_eq b (q := (toMode .run .order p).withOrd o) ((standDone_iff (toMode .run .order p)).1 done)
    rw [ends, e]; exact toMode_mode .run .order p
  refine ⟨fun moves => stays fun ⟨_, still, _⟩ => ?_, fun heard slow => stays fun ⟨_, _, latched⟩ => ?_⟩
  · rw [toMode_standstill, moves] at still; cases still
  · rw [(toRun_noLatch p stand heard slow).1.any ((anyLatched_iff p).1 clear)] at latched; cases latched

theorem run_ordered {u : Trigger} {s : State} (judged : Safety.triggerJudged u s) :
    ∃ t, exec (.run u) s = .next t ∧ Safety.checked (fun r => Safety.orderRefused 1 u r 0 s t)
      (Safety.orderDone 1 u 0 s t ∧ Safety.posts s.part t.part [(.modeChanged, 0x211, s.part.odo.pos)]
        ∧ (s.part.odo.standstill = false → t.part.mod.mode = .run)
        ∧ (s.part.mod.hostSilent = false → s.part.odo.speed ≤ s.part.prf.settings.emergencyMargin → t.part.mod.mode = .run))
      [(s.part.mod.mode = .stand, .wrongMode), (s.part.prf.active ≠ [], .noProfile), (Safety.placeKnown s.part, .noPosition),
       (∃ a, s.part.aut.current = some a ∧ recordHoldsExtent a s.part = true, .noAuthority), (Safety.doorsShut s.part, .doorsOpen),
       (∀ d, (s.part.entry d).latched = false, .latchedDemand), (s.part.mod.charge = .complete, .chargeWait),
       (s.part.prf.copying = none, .profileBusy)] := by
  let p := received 1 u s
  refine check_step (fun other => refuse_of judged (judgeRun_wrongMode (p := p) other)) fun stand => ?_
  refine check_step (fun empty => refuse_of judged (judgeRun_noProfile (p := p) stand (not_not.1 empty))) fun profile => ?_
  refine check_step (fun lost => refuse_of judged (judgeRun_noPosition (p := p) stand profile lost)) fun known => ?_
  refine check_step (fun none => refuse_of judged (judgeRun_noAuthority (p := p) stand profile known none)) fun ⟨a, held, extent⟩ => ?_
  refine check_step (fun opened => refuse_of judged (judgeRun_doorsOpen (p := p) stand profile known held extent opened)) fun shut => ?_
  refine check_step (fun latched => refuse_of judged (judgeRun_latchedDemand (p := p) stand profile known held extent shut latched))
    fun clear => ?_
  refine check_step (fun waits => refuse_of judged (judgeRun_chargeWait (p := p) stand profile known held extent shut clear waits))
    fun charged => ?_
  have checked := judgeRun_checked (p := p) stand profile known held extent shut clear charged
  refine check_step (fun busy => refuse_of judged (checked.trans (if_pos (Option.isSome_iff_ne_none.2 busy)))) fun idle => check_end ?_
  have taken : judgeRun p = (toMode .run .order p, .take 0) := checked.trans (if_neg (by show ¬ s.part.prf.copying.isSome = true; rw [idle]; decide))
  refine order_take judged taken _ fun t ⟨o, ends⟩ done _ => ⟨done, ?_, toRun_holds (p := p) stand clear ends⟩
  have posted := toMode_posts (new := .run) (cause := .order) (p := p) (q := t.part) (by rw [ends]; exact finish_pre s.part ((toMode .run .order p).withOrd o))
  rw [show p.mod.mode = .stand from stand] at posted
  exact posts_of_evq posted rfl rfl

/-! ### STAND (R108) -/

section
variable {p : Part}

theorem judgeStand_wrongMode (other : ¬ (p.mod.mode ≠ .lockout ∧ p.mod.mode ≠ .stabled)) : judgeStand p = (p, .no .wrongMode) := by
  have either : p.mod.mode = .lockout ∨ p.mod.mode = .stabled := by
    rw [not_and_or, not_not, not_not] at other; exact other
  unfold judgeStand
  rcases either with m | m <;> simp [m]

theorem judgeStand_stays (still : p.odo.standstill = true) (stand : p.mod.mode = .stand) : judgeStand p = (p, .take 1) := by
  unfold judgeStand; simp [stand, still]; rfl

variable (mode : p.mod.mode ≠ .lockout ∧ p.mod.mode ≠ .stabled)
include mode

theorem judgeStand_notStandstill (moves : ¬ p.odo.standstill = true) : judgeStand p = (p, .no .notStandstill) := by
  unfold judgeStand; simp [mode.1, mode.2, moves]

variable (still : p.odo.standstill = true)
include still

theorem judgeStand_changes (other : p.mod.mode ≠ .stand) : judgeStand p = (abortTest .stopped (toMode .stand .order p), .take 1) := by
  have code : (abortTest .stopped (toMode .stand .order p)).mod.mode = .stand := abort_stand _ _ (toMode_mode _ _ _)
  unfold judgeStand; simp [mode.1, mode.2, still, other, code]; rfl

end

/-- STAND from another mode: the events and the running test. -/
theorem toStand_ends {b p q : Part} {o : Ord} (ends : q = finish b ((abortTest .stopped (toMode .stand .order p)).withOrd o)) :
    q.mod.mode = .stand
      ∧ Safety.posts p q [(.modeChanged, BitVec.ofNat 16 (0x101 + p.mod.mode.code * 16), p.odo.pos)]
      ∧ (p.brk.test.isSome = true → q.brk.test = none ∧ q.brk.record.outcome = .aborted ∧ q.brk.record.abort = .stopped) := by
  have mode : (abortTest .stopped (toMode .stand .order p)).mod.mode = .stand := abort_stand _ _ (toMode_mode _ _ _)
  obtain ⟨g, e⟩ := finish_outside_run (q := (abortTest .stopped (toMode .stand .order p)).withOrd o) b (by rw [Part.withOrd_mod, mode]; decide)
  have evq : q.evq = (abortTest .stopped (toMode .stand .order p)).evq := by rw [ends, e]; rfl
  have brk : q.brk = (abortTest .stopped (toMode .stand .order p)).brk := by rw [ends, e]; rfl
  refine ⟨by rw [ends, e]; exact mode, ?_, fun test => ?_⟩
  · have aborted : Moves testMay (toMode .stand .order p) (abortTest .stopped (toMode .stand .order p)) :=
      abortTest_moves _ (by decide) (by decide) (Moves.refl _)
    have posted := toMode_posts (q := q) (evq ▸ aborted.frame.pre (by decide))
    rwa [show Mode.stand.code * 256 + p.mod.mode.code * 16 + ModeCause.order.code = 0x101 + p.mod.mode.code * 16 by
      show 1 * 256 + _ + 1 = _; omega] at posted
  · have runs : (toMode .stand .order p).brk.test.isSome = true :=
      test_some ((toStand_moves (H := [.mode]) .order (by decide) (Moves.refl p)).frame.test (by decide)) test
    obtain ⟨run, named⟩ := Option.isSome_iff_exists.1 runs
    rw [brk, show abortTest .stopped (toMode .stand .order p)
      = endTest .aborted .stopped (BitVec.ofNat 32 AbortReason.stopped.code) (markStep run.step .notRun (toMode .stand .order p)) by
        unfold abortTest; rw [named]]
    exact endTest_ends _ _ _ _

theorem stand_ordered {u : Trigger} {s : State} (judged : Safety.triggerJudged u s) :
    ∃ t, exec (.stand u) s = .next t ∧ Safety.checked (fun r => Safety.orderRefused 2 u r 0 s t)
      (Safety.orderDone 2 u 1 s t ∧ t.part.mod.mode = .stand
        ∧ (s.part.mod.mode = .stand → t.part.evq = s.part.evq)
        ∧ (s.part.mod.mode = .run → Safety.posts s.part t.part [(.modeChanged, 0x121, s.part.odo.pos)])
        ∧ (s.part.mod.mode = .test → Safety.posts s.part t.part [(.modeChanged, 0x141, s.part.odo.pos)]
            ∧ (s.part.brk.test.isSome = true → t.part.brk.test = none ∧ t.part.brk.record.outcome = .aborted
                ∧ t.part.brk.record.abort = .stopped)))
      [(s.part.mod.mode ≠ .lockout ∧ s.part.mod.mode ≠ .stabled, .wrongMode), (s.part.odo.standstill = true, .notStandstill)] := by
  let p := received 2 u s
  refine check_step (fun other => refuse_of judged (judgeStand_wrongMode (p := p) other)) fun mode => ?_
  refine check_step (fun moves => refuse_of judged (judgeStand_notStandstill (p := p) mode moves)) fun still => check_end ?_
  by_cases stand : s.part.mod.mode = .stand
  · refine order_take judged (judgeStand_stays (p := p) still stand) _ fun t ⟨o, ends⟩ done _ => ?_
    obtain ⟨g, e⟩ := finish_outside_run (q := p.withOrd o) s.part (by show s.part.mod.mode ≠ .run; rw [stand]; decide)
    rw [ends, e]
    exact ⟨done, stand, fun _ => rfl, fun run => absurd (stand.symm.trans run) (by decide), fun test => absurd (stand.symm.trans test) (by decide)⟩
  · refine order_take judged (judgeStand_changes (p := p) mode still stand) _ fun t ⟨o, ends⟩ done _ => ?_
    obtain ⟨left, posted, aborted⟩ := toStand_ends ends
    refine ⟨done, left, fun h => absurd h stand, fun run => ?_, fun test => ⟨?_, aborted⟩⟩
    · rw [show p.mod.mode = .run from run] at posted; exact posts_of_evq posted rfl rfl
    · rw [show p.mod.mode = .test from test] at posted; exact posts_of_evq posted rfl rfl

/-! ### STABLE and MAINTENANCE RELEASE (R110, R113) -/

theorem stable_ordered {u : Trigger} {s : State} (judged : Safety.triggerJudged u s) :
    ∃ t, exec (.stable u) s = .next t ∧ Safety.checked (fun r => Safety.orderRefused 3 u r 0 s t)
      (Safety.orderDone 3 u 0 s t ∧ t.part.mod.mode = .stabled ∧ t.part.msg.reportTimer = none
        ∧ Safety.posts s.part t.part [(.modeChanged, 0x311, s.part.odo.pos)])
      [(s.part.mod.mode = .stand, .wrongMode), (Safety.doorsShut s.part, .doorsOpen)] := by
  let p := received 3 u s
  refine check_step (fun other => refuse_of judged (?_ : judgeStable p = (p, .no .wrongMode))) fun stand => ?_
  · have m : p.mod.mode ≠ .stand := other
    unfold judgeStable; simp [m]
  have mode : p.mod.mode = .stand := stand
  refine check_step (fun opened => refuse_of judged (?_ : judgeStable p = (p, .no .doorsOpen))) fun shut => check_end ?_
  · have open_ : ¬ p.doorsShut = true := fun h => opened ((shut_iff s.part).2 h)
    unfold judgeStable; simp [mode, open_]
  have taken : judgeStable p = (toMode .stabled .order p, .take 0) := by
    have closed : p.doorsShut = true := (shut_iff s.part).1 shut
    unfold judgeStable; simp [mode, closed]
  refine order_take judged taken _ fun t ⟨o, ends⟩ done _ => ?_
  obtain ⟨g, e⟩ := finish_outside_run (q := (toMode .stabled .order p).withOrd o) s.part (by rw [Part.withOrd_mod, toMode_mode]; decide)
  have posted := toMode_posts (new := .stabled) (cause := .order) (p := p) (q := t.part) (by rw [ends, e]; exact List.prefix_refl _)
  rw [mode] at posted
  refine ⟨done, ?_, ?_, posts_of_evq posted rfl rfl⟩
  · rw [ends, e]; exact toMode_mode .stabled .order p
  · rw [ends, e]; exact toStabled_reportTimer .order p

theorem maintenance_ordered {u : Trigger} {s : State} (judged : Safety.triggerJudged u s) :
    ∃ t, exec (.maintenanceRelease u) s = .next t ∧ Safety.checked (fun r => Safety.orderRefused 6 u r 0 s t)
      (Safety.orderDone 6 u 0 s t ∧ t.part.mod.mode = .stand ∧ Safety.posts s.part t.part [(.modeChanged, 0x156, s.part.odo.pos)])
      [(s.part.mod.mode = .lockout, .wrongMode), (s.part.odo.standstill = true, .notStandstill),
       (s.part.brk.state = .settled ∧ s.part.brk.confirmed = .emergency, .conditionActive)] := by
  let p := received 6 u s
  refine check_step (fun other => refuse_of judged (?_ : judgeMaintenance p = (p, .no .wrongMode))) fun locked => ?_
  · have m : p.mod.mode ≠ .lockout := other
    unfold judgeMaintenance; simp [m]
  have mode : p.mod.mode = .lockout := locked
  refine check_step (fun moves => refuse_of judged (?_ : judgeMaintenance p = (p, .no .notStandstill))) fun still => ?_
  · have m : ¬ p.odo.standstill = true := moves
    unfold judgeMaintenance; simp [mode, m]
  have rest : p.odo.standstill = true := still
  refine check_step (fun loose => refuse_of judged (?_ : judgeMaintenance p = (p, .no .conditionActive))) fun ⟨settled, confirmed⟩ => check_end ?_
  · have either : p.brk.state ≠ .settled ∨ p.brk.confirmed ≠ .emergency := not_and_or.1 loose
    unfold judgeMaintenance; simp [mode, rest, either]
  have taken : judgeMaintenance p = (toMode .stand .maintenance p, .take 0) := by
    have state : p.brk.state = .settled := settled
    have stage : p.brk.confirmed = .emergency := confirmed
    unfold judgeMaintenance; simp [mode, rest, state, stage]
  refine order_take judged taken _ fun t ⟨o, ends⟩ done _ => ?_
  obtain ⟨g, e⟩ := finish_outside_run (q := (toMode .stand .maintenance p).withOrd o) s.part (by rw [Part.withOrd_mod, toMode_mode]; decide)
  have posted := toMode_posts (new := .stand) (cause := .maintenance) (p := p) (q := t.part) (by rw [ends, e]; exact List.prefix_refl _)
  rw [mode] at posted
  exact ⟨done, by rw [ends, e]; exact toMode_mode .stand .maintenance p, posts_of_evq posted rfl rfl⟩

/-- Settles O28. -/
theorem modeOrders : Obligations.ModeOrders := by
  unfold Obligations.ModeOrders
  exact fun u s judged => ⟨run_ordered judged, stand_ordered judged, stable_ordered judged, maintenance_ordered judged⟩

end Sys2Proof.Machine
end

section
/-! The charge wait, the wakes, host silence and the alive word (R115 to R117, R176). -/

namespace Sys2Proof.Machine

/-! ### The charge wait (R115) -/

/-- The charge wait has ended: what the end of the command leaves of it. -/
theorem chargeDone_ends (b p : Part) : (finish b (chargeDone p)).mod.charge = .complete
    ∧ Safety.posts p (finish b (chargeDone p)) [(.chargeDone, 0, p.odo.pos)] := by
  obtain ⟨mod, posted⟩ := chargeDone_spec p
  exact ⟨(finish_mod_charge b _).1.trans (by rw [mod]), posts_more posted (finish_pre b _)⟩

/-- The reservoir switch has its new level, before the charge wait acts on it. -/
def reservoirTaken (closed : Bool) (p : Part) : Part := p.withBrk { p.brk with inputs := { p.brk.inputs with reservoir := closed } }

theorem chargeDone_inputs (p : Part) : (chargeDone p).brk.inputs = p.brk.inputs :=
  (chargeDone_moves (H := [.charge]) (by decide) (Moves.refl p)).frame.inputs (by decide)

theorem reservoirLevel_inputs (closed : Bool) (p : Part) : (reservoirLevel closed p).brk.inputs = { p.brk.inputs with reservoir := closed } := by
  unfold reservoirLevel
  extract_lets rises
  split
  · exact chargeDone_inputs (reservoirTaken closed p)
  · rfl

theorem reservoirLevel_charges {p : Part} (running : p.coldLine = false) (empty : p.brk.inputs.reservoir = false)
    (waits : p.mod.charge = .awaitReservoir) : reservoirLevel true p = chargeDone (reservoirTaken true p) :=
  if_pos (show (true && !p.brk.inputs.reservoir && !p.coldLine && p.mod.charge == .awaitReservoir) = true by rw [running, empty, waits]; rfl)

theorem reservoir_ends (closed : Bool) (s : State) :
    ∃ t, exec (.reservoirSwitchChange closed) s = .next t
      ∧ t.part.brk.inputs = { s.part.brk.inputs with reservoir := closed }
      ∧ (s.part.coldLine = false → closed = true → s.part.brk.inputs.reservoir = false → s.part.mod.charge = .awaitReservoir →
          t.part.mod.charge = .complete ∧ Safety.posts s.part t.part [(.chargeDone, 0, s.part.odo.pos)]) := by
  refine row_ends' (reservoirLevel closed) s _ fun t ends => ?_
  rw [ends]
  refine ⟨(finish_returned _ _).inputs.trans (reservoirLevel_inputs closed s.part), fun running closes empty waits => ?_⟩
  subst closes
  rw [reservoirLevel_charges running empty waits]
  obtain ⟨charge, posted⟩ := chargeDone_ends s.part (reservoirTaken true s.part)
  exact ⟨charge, posts_of_evq posted rfl rfl⟩

theorem judgeCharge_passed {p : Part} {start : Word} (timing : p.mod.charge = .timing start)
    (passed : p.passed start p.prf.settings.chargeTime = true) : judgeCharge p
      = if p.brk.inputs.reservoir then chargeDone p else p.withMod { p.mod with charge := .awaitReservoir } := by
  unfold judgeCharge
  simp only [timing, passed, if_true]

theorem active_of_free (f : Part → Part) {p : Part} (free : p.asserted = false) : active f p = f p := by
  unfold active; rw [free]; rfl

theorem chargeTiming_ends {start : Word} {s : State} (free : s.part.asserted = false) (timing : s.part.mod.charge = .timing start)
    (passed : s.part.passed start s.part.prf.settings.chargeTime = true) :
    ∃ t, exec .chargeTimingEnd s = .next t
      ∧ (s.part.brk.inputs.reservoir = true →
          t.part.mod.charge = .complete ∧ Safety.posts s.part t.part [(.chargeDone, 0, s.part.odo.pos)])
      ∧ (s.part.brk.inputs.reservoir = false → t.part.mod.charge = .awaitReservoir) := by
  refine row_ends' (active judgeCharge) s _ fun t ends => ?_
  rw [ends, active_of_free _ free, judgeCharge_passed timing passed]
  refine ⟨fun full => ?_, fun empty => ?_⟩
  · rw [if_pos full]; exact chargeDone_ends s.part s.part
  · rw [if_neg (by rw [empty]; decide), (finish_mod_charge _ _).1]; rfl

/-! ### The wakes (R116) -/

/-- A wake in STABLED, by the end of what follows it. -/
theorem wakeCar_ends {r : WakeReason} {p q : Part} (stabled : p.mod.mode = .stabled) (mod : q.mod = (wakeCar r p).mod)
    (later : (wakeCar r p).evq.queue <+: q.evq.queue) : Safety.woken r p q ∧ Safety.posts p q (Safety.wakeEvents r p) := by
  obtain ⟨wakes, posted⟩ := wakeCar_wakes r p stabled
  refine ⟨⟨?_, ?_, ?_⟩, posts_more posted later⟩ <;> rw [mod, wakes]

/-- The car that has woken stands: no return to STAND is left to make. -/
theorem wakeCar_stand {r : WakeReason} {p : Part} (stabled : p.mod.mode = .stabled) : (wakeCar r p).mod.mode = .stand := by
  rw [(wakeCar_wakes r p stabled).1]

theorem crewKeyLevel_key (level : Bool) (p : Part) : (crewKeyLevel level p).mod.crewKey = level := by
  unfold crewKeyLevel
  extract_lets rises _ q
  split
  · by_cases stabled : q.mod.mode = .stabled
    · rw [(wakeCar_wakes .crewKey q stabled).1]; rfl
    · unfold wakeCar
      rw [if_neg (by simpa using stabled)]; rfl
  · rfl

theorem crewKey_ends (level : Bool) (s : State) :
    ∃ t, exec (.crewKeyEdge level) s = .next t
      ∧ t.part.mod.crewKey = level
      ∧ (s.part.asserted = false → s.part.mod.crewKey = false → level = true → s.part.mod.mode = .stabled →
          Safety.woken .crewKey s.part t.part ∧ Safety.posts s.part t.part (Safety.wakeEvents .crewKey s.part)) := by
  refine row_ends' (crewKeyLevel level) s _ fun t ends => ?_
  rw [ends]
  refine ⟨(finish_mod_charge _ _).2.trans (crewKeyLevel_key level s.part), fun free low rises stabled => ?_⟩
  subst rises
  let q := s.part.withMod { s.part.mod with crewKey := true }
  have wakes : crewKeyLevel true s.part = wakeCar .crewKey q :=
    if_pos (show (true && !s.part.mod.crewKey && !s.part.asserted) = true by rw [free, low]; rfl)
  rw [wakes]
  obtain ⟨woken, posted⟩ := wakeCar_ends (r := .crewKey) (p := q) (q := finish s.part (wakeCar .crewKey q)) stabled
    (finish_mod_outside (by rw [wakeCar_stand (p := q) stabled]; decide)) (finish_pre _ _)
  exact ⟨woken, posts_of_evq posted rfl rfl⟩

theorem wakeMessage_ends {src : Sender} {s : State} (taken : Safety.delivered src s) (stabled : s.part.mod.mode = .stabled) :
    ∃ t, exec (.wakeMessage src) s = .next t
      ∧ Safety.woken .radio s.part t.part
      ∧ Safety.posts s.part t.part (Safety.linkEvents src s.part ++ Safety.wakeEvents .radio s.part) := by
  obtain ⟨e, heard⟩ := linkHeard_spec src s.part
  have same : (linkHeard src s.part).mod = s.part.mod ∧ (linkHeard src s.part).now = s.part.now ∧ (linkHeard src s.part).odo = s.part.odo := by
    rw [heard]; exact ⟨rfl, rfl, rfl⟩
  obtain ⟨mod, now, odo⟩ := same
  have sleeps : (linkHeard src s.part).mod.mode = .stabled := by rw [mod]; exact stabled
  have acts : wakeTaken (linkHeard src s.part) = (wakeCar .radio (linkHeard src s.part), .acted) := by
    unfold wakeTaken; rw [if_pos (by rw [sleeps]; rfl)]
  refine message_ends taken acts _ fun t ⟨g, ends⟩ _ _ => ?_
  obtain ⟨moved, -, -⟩ := message_rest ends
  have still : autoStand (wakeCar .radio (linkHeard src s.part)) = wakeCar .radio (linkHeard src s.part) :=
    autoStand_of (by rw [wakeCar_stand sleeps]; rfl)
  obtain ⟨⟨mode, reason, charge⟩, posted⟩ := wakeCar_ends (q := t.part) sleeps (by rw [ends, still]; rfl) (moved.frame.pre (by decide))
  have events : Safety.wakeEvents .radio (linkHeard src s.part) = Safety.wakeEvents .radio s.part := by unfold Safety.wakeEvents; rw [odo]
  exact ⟨⟨mode, reason, by rw [charge, now]⟩, posts_heard src (events ▸ posted)⟩

theorem wake_ordered {u : Trigger} {s : State} (judged : Safety.triggerJudged u s) :
    ∃ t, exec (.wake u) s = .next t ∧ Safety.checked (fun r => Safety.orderRefused 4 u r 0 s t)
      (Safety.woken .order s.part t.part ∧ Safety.posts s.part t.part (Safety.wakeEvents .order s.part) ∧ Safety.orderDone 4 u 2 s t)
      [(s.part.mod.mode = .stabled, .wrongMode)] := by
  let p := received 4 u s
  refine check_step (fun other => refuse_of judged (?_ : judgeWake p = (p, .no .wrongMode))) fun sleeps => check_end ?_
  · exact if_pos (show (s.part.mod.mode != .stabled) = true by simpa using other)
  have stabled : p.mod.mode = .stabled := sleeps
  have taken : judgeWake p = (wakeCar .order p, .take 2) := if_neg (show ¬ (p.mod.mode != .stabled) = true by simpa using stabled)
  refine order_take judged taken _ fun t ⟨o, ends⟩ done _ => ?_
  obtain ⟨woken, posted⟩ := wakeCar_ends (r := .order) (q := t.part) stabled
    (by rw [ends]; exact finish_mod_outside (q := (wakeCar .order p).withOrd o) (by rw [Part.withOrd_mod, wakeCar_stand stabled]; decide))
    (by rw [ends]; exact finish_pre s.part ((wakeCar .order p).withOrd o))
  exact ⟨woken, posts_of_evq posted rfl rfl, done⟩

/-- Settles O29. -/
theorem chargeAndWake : Obligations.ChargeAndWake := by
  unfold Obligations.ChargeAndWake
  exact fun s => ⟨fun closed => reservoir_ends closed s, fun start => chargeTiming_ends, fun level => crewKey_ends level s,
    fun src => wakeMessage_ends, fun u => wake_ordered⟩

/-! ### Host silence and the alive word (R117, R176) -/

/-- The host is silent, with its event, before RUN acts on it. -/
def silencePosted (p : Part) : Part :=
  post .hostSilent (BitVec.ofNat 16 (flagNat (p.mod.mode == .run))) (p.withMod { p.mod with silence := none, hostSilent := true, aliveSeen := false })

theorem silenceExpiry_due {p : Part} (due : p.due p.mod.silence p.prf.settings.silencePeriod = true) (free : p.asserted = false) :
    silenceExpiry p = if p.mod.mode == .run then silenceActs (silencePosted p) else silencePosted p :=
  if_pos (by rw [due, free]; rfl)

theorem silenceExpiry_from {p : Part} (due : p.due p.mod.silence p.prf.settings.silencePeriod = true) (free : p.asserted = false) :
    Moves [] (silencePosted p) (silenceExpiry p) := by
  rw [silenceExpiry_due due free]
  split
  · exact silenceActs_moves (Moves.refl _)
  · exact Moves.refl _

theorem silence_ends {s : State} (free : s.part.asserted = false) (due : s.part.due s.part.mod.silence s.part.prf.settings.silencePeriod = true) :
    ∃ t, exec .silenceTimerExpiry s = .next t
      ∧ t.part.mod.hostSilent = true ∧ t.part.mod.silence = none
      ∧ Safety.posts s.part t.part [(.hostSilent, if s.part.mod.mode = .run then 1 else 0, s.part.odo.pos)]
      ∧ (s.part.mod.mode = .run → Safety.latchedAt .silence .s3 t.part) ∧ Safety.flagged .silence t.part := by
  refine row_ends' silenceExpiry s _ fun t ends => ?_
  rw [ends]
  have moved : Moves [.mode] (silencePosted s.part) (finish s.part (silenceExpiry s.part)) :=
    toEnd s.part (by decide) ((silenceExpiry_from due free).mono (by simp))
  obtain ⟨timer, silent, -⟩ := moved.frame.silence (by decide)
  have code : BitVec.ofNat 16 (flagNat (s.part.mod.mode == .run)) = if s.part.mod.mode = .run then 1#16 else 0#16 := by
    cases s.part.mod.mode <;> rfl
  have posted : Safety.posts s.part (finish s.part (silenceExpiry s.part))
      [(.hostSilent, BitVec.ofNat 16 (flagNat (s.part.mod.mode == .run)), s.part.odo.pos)] :=
    posts_of_evq (r := s.part.withMod { s.part.mod with silence := none, hostSilent := true, aliveSeen := false })
      (posts_post (posts_nil (moved.frame.pre (by decide)))) rfl rfl
  rw [code] at posted
  refine ⟨silent, timer, posted, fun run => finish_latched s.part (by decide) ?_, flagged_moves (flagged_post _ _ _ _ rfl) moved (by decide)⟩
  rw [silenceExpiry_due due free, if_pos (by rw [run]; rfl)]
  exact latched_after (latchEntry_latched .silence .s3 1 (silencePosted s.part)) (by decide)
    (handAlarm_moves (H := []) .hostSilent (Moves.refl _)) (by decide)

theorem alive_ends (d : WriteData) {s : State} (free : s.part.asserted = false) :
    ∃ t, exec (.aliveWrite d) s = .next t
      ∧ t.part.mod.silence = some s.part.now ∧ t.part.mod.hostSilent = false
      ∧ t.path.access = some ⟨false, s.part.areaAddr 0x200, d.data, d.enables⟩ := by
  refine hostRow_ends (writeAlive d) s _ fun t ends path _ => ?_
  have taken : (writeAlive d s.part s.path).1 = aliveTaken s.part := if_neg (by rw [free]; decide)
  obtain ⟨timer, silent⟩ := finish_silence s.part (aliveTaken s.part)
  rw [ends, path, taken]
  exact ⟨timer, silent, rfl⟩

/-- Settles O30. -/
theorem silenceAndAlive : Obligations.SilenceAndAlive := by
  unfold Obligations.SilenceAndAlive
  exact fun s free => ⟨silence_ends free, fun d => alive_ends d free⟩

end Sys2Proof.Machine
end

section
/-! The edges of the door inputs, and what the doors do at them (R120, R122 to R124, R138). -/

namespace Sys2Proof.Machine

/-! ### Levels and edge events -/

theorem doorLevel_same {d : Fin 8} {i : DoorInput} {closed : Bool} {p : Part} (same : (p.door d).level i = closed) : doorLevel d i closed p = p :=
  if_pos (by simpa using same)

/-- Settles O31: a level that stands already changes nothing; a new level is set first, and what follows leaves the levels. -/
theorem doorInputs : Obligations.DoorInputs := by
  unfold Obligations.DoorInputs
  intro c d i closed s edge
  rw [door_row c d i closed s edge]
  refine row_ends' (doorLevel d i closed) s _ fun t ends => ?_
  by_cases same : (s.part.door d).level i = closed
  · rw [doorLevel_same same] at ends
    have dor : t.part.dor = s.part.dor := by rw [ends, (finish_returned _ _).dor]
    have door : ∀ x, t.part.door x = s.part.door x := fun x => by unfold Part.door; rw [dor]
    refine ⟨by rw [door]; exact same, fun x j _ => by rw [door], fun _ changed => absurd same changed, fun _ done => ⟨dor, ?_⟩⟩
    rw [ends, finish_same done]
  · have moved : Moves doorMay (setDoor d (·.setLevel i closed) s.part) t.part := by
      rw [ends]; exact toEnd _ (by decide) (edge_moves d i closed s.part same)
    have levels : ∀ x j, (t.part.door x).level j = ((setDoor d (·.setLevel i closed) s.part).door x).level j :=
      fun x j => level_of_levels (moved.frame.levels (by decide) x) j
    refine ⟨?_, fun x j other => ?_, fun running _ => ?_, fun h => absurd h same⟩
    · rw [levels, setDoor_door, if_pos rfl, setLevel_level, if_pos rfl]
    · rw [levels, setDoor_door]
      by_cases here : x = d
      · subst here
        rw [if_pos rfl, setLevel_level, if_neg (other.resolve_left fun h => h rfl)]
      · rw [if_neg here]
    · obtain ⟨e, -, row, first⟩ := doorLevel_spec d i closed s.part running same
      have later := first t.part [] (posts_nil ?_)
      · rwa [List.append_nil] at later
      rw [ends, row]
      exact (toEnd (H := doorMay) s.part (by decide) (afterDoors_moves _ (by decide) (by decide)
        (doorEdge_moves d i closed (by decide) (by decide) (by decide) (Moves.refl _)))).frame.pre (by decide)

/-! ### The state machine of one door -/

theorem leaveOpen_door (d : Fin 8) (p : Part) :
    (leaveOpen d p).door d = { p.door d with closeFailed := true, state := .open_, motion := none } := by
  unfold leaveOpen
  rw [doorTo_door, if_pos rfl, setDoor_door, if_pos rfl]

theorem startReopening_door (d : Fin 8) (p : Part) : (startReopening d p).door d
    = { (if (p.door d).retries < 7 then { p.door d with retries := (p.door d).retries + 1 } else { p.door d with closeFailed := true }) with
        state := .reopening, motion := some p.now } := by
  unfold startReopening
  rw [doorTo_door, if_pos rfl, setDoor_door, if_pos rfl]

/-- A door that CL leaves open and OB holds, with FO closed, ends OPEN with close-failed, however it is judged. -/
theorem judgeReopened_blocked {d : Fin 8} {p : Part} (cl : (p.door d).cl = false) (ob : (p.door d).ob = true) (fo : (p.door d).fo = true) :
    ((judgeReopened d p).door d).state = .open_ ∧ ((judgeReopened d p).door d).closeFailed = true := by
  unfold judgeReopened
  split
  · exact enterClosing_blocked 10 d p cl ob fo (.inr (by decide)) (by decide)
  · rw [leaveOpen_door]; exact ⟨rfl, rfl⟩

theorem judgeReopened_closes {d : Fin 8} {p : Part} (clear : (p.door d).closeFailed = false)
    (retries : (p.door d).retries ≤ p.prf.settings.obstructionRetries) : judgeReopened d p = closeDoor d p :=
  if_pos (by unfold recloses; simp [clear, retries])

theorem judgeReopened_leaves {d : Fin 8} {p : Part}
    (stays : (p.door d).closeFailed = true ∨ p.prf.settings.obstructionRetries < (p.door d).retries) : judgeReopened d p = leaveOpen d p :=
  if_neg (by unfold recloses; rcases stays with h | h <;> simp [h])

/-! ### The edges -/

section
variable {d : Fin 8} {s : State}

/-- CL locks a closing door. -/
theorem clCloses_ends (running : s.part.coldLine = false) (open_ : (s.part.door d).cl = false) (closing : (s.part.door d).state = .closing) :
    ∃ t, exec (.doorClEdge d true) s = .next t ∧ (t.part.door d).state = .locked ∧ (t.part.door d).motion = none := by
  refine edge_ends d .cl true s (doorTo d .locked none) _ running (by show (s.part.door d).cl ≠ true; rw [open_]; decide)
    (fun q state => by unfold doorEdge; rw [state, closing]) fun t e ends _ => ?_
  rw [door_end _ _ s t ends, doorTo_door, if_pos rfl]
  exact ⟨rfl, rfl⟩

/-- CL lost faults a locked or released door. -/
theorem clOpens_ends (running : s.part.coldLine = false) (closed : (s.part.door d).cl = true)
    (shut : (s.part.door d).state = .locked ∨ (s.part.door d).state = .released) :
    ∃ t, exec (.doorClEdge d false) s = .next t
      ∧ (t.part.door d).state = .faulted ∧ (t.part.door d).fault = .contactLost ∧ Safety.flagged .door t.part
      ∧ Safety.posts s.part t.part (Safety.edgeEvents d .cl false s.part ++ Safety.doorFaultEvents d .contactLost s.part) := by
  refine edge_ends d .cl false s (faultDoor d .contactLost) _ running (by show (s.part.door d).cl ≠ false; rw [closed]; decide)
    (fun q state => by unfold doorEdge; rw [state]; rcases shut with h | h <;> rw [h]) fun t e ends posts => ?_
  obtain ⟨door, posted, flagged⟩ := faultDoor_spec d .contactLost ((setDoor d (·.setLevel .cl false) s.part).withEvq e)
  have moved : Moves testMay (faultDoor d .contactLost ((setDoor d (·.setLevel .cl false) s.part).withEvq e)) t.part := by
    rw [ends]; exact toEnd _ (by decide) (afterDoors_moves _ (by decide) (by decide) (Moves.refl _))
  rw [door_end _ _ s t ends, door]
  exact ⟨rfl, rfl, flagged_moves flagged moved (by decide), posts _ (posted t.part (moved.frame.pre (by decide)))⟩

/-- FO opens an opening door. -/
theorem foOpens_ends (running : s.part.coldLine = false) (open_ : (s.part.door d).fo = false) (opening : (s.part.door d).state = .opening) :
    ∃ t, exec (.doorFoEdge d true) s = .next t ∧ (t.part.door d).state = .open_ ∧ (t.part.door d).motion = none := by
  refine edge_ends d .fo true s (doorTo d .open_ none) _ running (by show (s.part.door d).fo ≠ true; rw [open_]; decide)
    (fun q state => by unfold doorEdge; rw [state, opening]) fun t e ends _ => ?_
  rw [door_end _ _ s t ends, doorTo_door, if_pos rfl]
  exact ⟨rfl, rfl⟩

/-- PB opens a released door. -/
theorem pbOpens_ends (running : s.part.coldLine = false) (open_ : (s.part.door d).pb = false) (released : (s.part.door d).state = .released) :
    ∃ t, exec (.doorPbEdge d true) s = .next t
      ∧ ((s.part.door d).fo = true → (t.part.door d).state = .open_ ∧ (t.part.door d).motion = none)
      ∧ ((s.part.door d).fo = false → (t.part.door d).state = .opening ∧ (t.part.door d).motion = some s.part.now) := by
  refine edge_ends d .pb true s (openDoor d) _ running (by show (s.part.door d).pb ≠ true; rw [open_]; decide)
    (fun q state => by unfold doorEdge; rw [state, released]) fun t e ends _ => ?_
  have opens := open_spec d ((setDoor d (·.setLevel .pb true) s.part).withEvq e)
  rw [level_door] at opens
  rw [door_end _ _ s t ends]
  exact opens

/-- An obstruction meets a closing door. -/
theorem obstruct_ends (running : s.part.coldLine = false) (open_ : (s.part.door d).ob = false) (closing : (s.part.door d).state = .closing) :
    ∃ t, exec (.doorObEdge d true) s = .next t
      ∧ ((s.part.door d).fo = false →
          (t.part.door d).state = .reopening ∧ (t.part.door d).motion = some s.part.now
          ∧ ((s.part.door d).retries < 7 → (t.part.door d).retries = (s.part.door d).retries + 1
              ∧ (t.part.door d).closeFailed = (s.part.door d).closeFailed)
          ∧ (7 ≤ (s.part.door d).retries → (t.part.door d).retries = (s.part.door d).retries
              ∧ (t.part.door d).closeFailed = true))
      ∧ ((s.part.door d).fo = true → (s.part.door d).cl = false →
          (t.part.door d).state = .open_ ∧ (t.part.door d).closeFailed = true) := by
  refine edge_ends d .ob true s (obstruct d) _ running (by show (s.part.door d).ob ≠ true; rw [open_]; decide)
    (fun q state => by unfold doorEdge; rw [state, closing]) fun t e ends _ => ?_
  let z := (setDoor d (·.setLevel .ob true) s.part).withEvq e
  have door : z.door d = { s.part.door d with ob := true } := level_door d .ob true s.part e
  have reopening := startReopening_door d z
  rw [door] at reopening
  rw [door_end _ _ s t ends]
  show _ ∧ _
  unfold obstruct
  refine ⟨fun clear => ?_, fun opened unlocked => ?_⟩
  · have away : ((startReopening d z).door d).fo = false := by
      rw [reopening]; simp only; split <;> exact clear
    rw [if_neg (by rw [away]; decide), reopening]
    refine ⟨rfl, rfl, fun few => ?_, fun many => ?_⟩
    · rw [if_pos few]; exact ⟨rfl, rfl⟩
    · rw [if_neg (Nat.not_lt.2 many)]; exact ⟨rfl, rfl⟩
  · have levels : ((startReopening d z).door d).fo = true ∧ ((startReopening d z).door d).cl = false ∧ ((startReopening d z).door d).ob = true := by
      rw [reopening]; simp only; split <;> exact ⟨opened, unlocked, rfl⟩
    obtain ⟨fo, cl, ob⟩ := levels
    rw [if_pos fo]
    exact judgeReopened_blocked cl ob fo

/-- FO meets a reopening door. -/
theorem foReopens_ends (running : s.part.coldLine = false) (open_ : (s.part.door d).fo = false) (reopening : (s.part.door d).state = .reopening) :
    ∃ t, exec (.doorFoEdge d true) s = .next t
      ∧ ((s.part.door d).closeFailed = true ∨ s.part.prf.settings.obstructionRetries < (s.part.door d).retries →
          (t.part.door d).state = .open_ ∧ (t.part.door d).closeFailed = true ∧ (t.part.door d).motion = none)
      ∧ ((s.part.door d).closeFailed = false → (s.part.door d).retries ≤ s.part.prf.settings.obstructionRetries →
          ((s.part.door d).cl = true → (t.part.door d).state = .locked ∧ (t.part.door d).motion = none)
          ∧ ((s.part.door d).cl = false → (s.part.door d).ob = false →
              (t.part.door d).state = .closing ∧ (t.part.door d).motion = some s.part.now)
          ∧ ((s.part.door d).cl = false → (s.part.door d).ob = true →
              (t.part.door d).state = .open_ ∧ (t.part.door d).closeFailed = true)) := by
  refine edge_ends d .fo true s (judgeReopened d) _ running (by show (s.part.door d).fo ≠ true; rw [open_]; decide)
    (fun q state => by unfold doorEdge; rw [state, reopening]) fun t e ends _ => ?_
  let z := (setDoor d (·.setLevel .fo true) s.part).withEvq e
  have door : z.door d = { s.part.door d with fo := true } := level_door d .fo true s.part e
  rw [door_end _ _ s t ends]
  refine ⟨fun stays => ?_, fun clear retries => ?_⟩
  · rw [judgeReopened_leaves (p := z) (by rw [door]; exact stays), leaveOpen_door]
    exact ⟨rfl, rfl, rfl⟩
  · have closes := close_spec d z
    refine ⟨fun locked => ?_, fun unlocked free => ?_, fun unlocked held => ?_⟩
    · rw [judgeReopened_closes (p := z) (by rw [door]; exact clear) (by rw [door]; exact retries)]
      exact closes.1 (by rw [door]; exact locked)
    · rw [judgeReopened_closes (p := z) (by rw [door]; exact clear) (by rw [door]; exact retries)]
      exact closes.2 (by rw [door]; exact unlocked) (by rw [door]; exact free)
    · exact judgeReopened_blocked (p := z) (by rw [door]; exact unlocked) (by rw [door]; exact held) (by rw [door])

/-- The motion timer of a door passes. -/
theorem motionTimer_ends (running : s.part.coldLine = false) (due : s.part.due (s.part.door d).motion s.part.prf.settings.doorMotionTime = true) :
    ∃ t, exec (.motionTimerExpiry d) s = .next t
      ∧ (t.part.door d).state = .faulted ∧ (t.part.door d).fault = .motionTimeout ∧ (t.part.door d).motion = none
      ∧ Safety.flagged .door t.part ∧ Safety.posts s.part t.part (Safety.doorFaultEvents d .motionTimeout s.part) := by
  refine row_ends' (live (motionExpiry d)) s _ fun t ends => ?_
  have expires : motionExpiry d s.part = afterDoors s.part (faultDoor d .motionTimeout s.part) := if_pos due
  rw [live_of_running _ running, expires] at ends
  obtain ⟨door, posted, flagged⟩ := faultDoor_spec d .motionTimeout s.part
  have moved : Moves testMay (faultDoor d .motionTimeout s.part) t.part := by
    rw [ends]; exact toEnd _ (by decide) (afterDoors_moves _ (by decide) (by decide) (Moves.refl _))
  rw [door_end _ _ s t ends, door]
  exact ⟨rfl, rfl, rfl, flagged_moves flagged moved (by decide), posted t.part (moved.frame.pre (by decide))⟩

end

/-- Settles O32: one lemma for each edge and each state of the door. -/
theorem doorsMove : Obligations.DoorsMove := by
  unfold Obligations.DoorsMove
  exact ⟨fun d s running => ⟨clCloses_ends running, clOpens_ends running, foOpens_ends running, pbOpens_ends running⟩,
    fun d s running => ⟨obstruct_ends running, foReopens_ends running, motionTimer_ends running⟩⟩

end Sys2Proof.Machine
end

section
/-! RELEASE SIDE (R126). -/

namespace Sys2Proof.Machine

/-! ### The checks -/

theorem platformsHere_iff {side : Side} {p : Part} :
    (∃ r ∈ p.prf.active, Safety.platformFor side r p) ↔ (platformsHere side p).isEmpty = false := by
  rw [List.isEmpty_eq_false_iff_exists_mem]
  exact exists_congr fun r => (here_iff side r p).symm

section
variable {work : Vector Word 7} {p : Part} {side : Side}

theorem judgeReleaseSide_lockout (locked : p.mod.mode = .lockout) : judgeReleaseSide work p = (p, .no .lockout) := by
  unfold judgeReleaseSide; rw [locked]; rfl

theorem judgeReleaseSide_wrongMode (running : p.mod.mode ≠ .lockout) (other : ¬ p.mod.mode = .stand) :
    judgeReleaseSide work p = (p, .no .wrongMode) := by
  unfold judgeReleaseSide; simp [running, other]

variable (stand : p.mod.mode = .stand)
include stand

theorem judgeReleaseSide_badParam (none : sideOf? (param work 0) = none) : judgeReleaseSide work p = (p, .no .badParam) := by
  unfold judgeReleaseSide; simp [stand, none]

variable (named : sideOf? (param work 0) = some side)
include named

theorem judgeReleaseSide_notStandstill (moves : ¬ p.odo.standstill = true) : judgeReleaseSide work p = (p, .no .notStandstill) := by
  unfold judgeReleaseSide; simp [stand, named, moves]

variable (still : p.odo.standstill = true)
include still

theorem judgeReleaseSide_brakeLow (low : ¬ 2 ≤ p.brk.confirmed.value) : judgeReleaseSide work p = (p, .no .brakeLow) := by
  unfold judgeReleaseSide; simp [stand, named, still, Nat.not_le.1 low]

variable (braked : 2 ≤ p.brk.confirmed.value)
include braked

theorem judgeReleaseSide_noPosition (lost : ¬ Safety.placeKnown p) : judgeReleaseSide work p = (p, .no .noPosition) := by
  rw [placeKnown_iff, Bool.not_eq_false] at lost
  unfold judgeReleaseSide
  simp only [stand, named, still, Nat.not_lt.2 braked, lost, bne_self_eq_false, Bool.not_true, Bool.false_eq_true, if_false, if_true]
  rfl

variable (known : Safety.placeKnown p)
include known

theorem judgeReleaseSide_outside (outside : ¬ ∃ r ∈ p.prf.active, Safety.platformFor side r p) :
    judgeReleaseSide work p = (p, .no .outsidePlatform) := by
  rw [platformsHere_iff, Bool.not_eq_false] at outside
  rw [placeKnown_iff] at known
  unfold judgeReleaseSide
  simp only [stand, named, still, Nat.not_lt.2 braked, known, outside, bne_self_eq_false, Bool.not_true, Bool.false_eq_true, if_false, if_true]
  rfl

variable (inside : ∃ r ∈ p.prf.active, Safety.platformFor side r p)
include inside

theorem judgeReleaseSide_noPermit (none : releasePlatform side p = none) : judgeReleaseSide work p = (p, .no .noPermit) := by
  rw [platformsHere_iff] at inside
  rw [placeKnown_iff] at known
  unfold judgeReleaseSide
  simp only [stand, named, still, Nat.not_lt.2 braked, known, inside, none, bne_self_eq_false, Bool.not_true, Bool.false_eq_true, if_false]
  rfl

variable {r : SegRec} (chosen : releasePlatform side p = some r)
include chosen

theorem judgeReleaseSide_busy (busy : p.ord.closeSlot side ≠ none) : judgeReleaseSide work p = (p, .no .busy) := by
  rw [platformsHere_iff] at inside
  rw [placeKnown_iff] at known
  unfold judgeReleaseSide
  simp only [stand, named, still, Nat.not_lt.2 braked, known, inside, chosen, Option.isSome_iff_ne_none.2 busy, bne_self_eq_false, Bool.not_true,
    Bool.false_eq_true, if_false, if_true]
  rfl

theorem judgeReleaseSide_takes (free : p.ord.closeSlot side = none) :
    judgeReleaseSide work p = (releaseSideTaken side r p, .take (BitVec.ofNat 32 r.platformId)) := by
  rw [platformsHere_iff] at inside
  rw [placeKnown_iff] at known
  unfold judgeReleaseSide
  simp only [stand, named, still, Nat.not_lt.2 braked, known, inside, chosen, free, Option.isSome_none, bne_self_eq_false, Bool.not_true,
    Bool.false_eq_true, if_false]
  rfl

end

/-! ### The release -/

/-- One turn over the doors of the side: a LOCKED door is RELEASED. -/
def releaseDoor (p : Part) (d : Fin 8) : Part := if (p.door d).state == .locked then doorTo d .released none p else p

/-- What a release makes of the record of a door. -/
def releasedRec (r : Door) : Door := if r.state = .locked then { r with state := .released, motion := none } else r

theorem releaseDoor_door (q : Part) (d x : Fin 8) : (releaseDoor q d).door x = if x = d then releasedRec (q.door d) else q.door x := by
  unfold releaseDoor releasedRec
  by_cases locked : (q.door d).state = .locked
  · rw [if_pos (by simpa using locked), if_pos locked]; exact doorTo_door _ _ _ _ _
  · rw [if_neg (by simpa using locked), if_neg locked]
    split
    · next here => rw [here]
    · rfl

theorem releaseDoor_side (q : Part) (d : Fin 8) (s : Side) : (releaseDoor q d).side s = q.side s := by
  unfold releaseDoor
  split
  · exact doorTo_side _ _ _ _ _
  · rfl

theorem setSide_side (side : Side) (r : SideRec) (p : Part) : (setSide side r p).side side = r := by cases side <;> rfl

theorem setSide_door (side : Side) (r : SideRec) (p : Part) (d : Fin 8) : (setSide side r p).door d = p.door d := by cases side <;> rfl

/-- The record of a side that is released at a platform (R126). -/
def releasedSide (r : SegRec) (p : Part) : SideRec := ⟨true, BitVec.ofNat 8 r.platformId, r.stationControlled, p.odo.pos⟩

theorem releaseSideTaken_eq (side : Side) (r : SegRec) (p : Part) :
    releaseSideTaken side r p = afterDoors p ((sideDoors side).foldl releaseDoor (setSide side (releasedSide r p) p)) := rfl

theorem releasedDoors_door (side : Side) (r : SegRec) (p : Part) (d : Fin 8) :
    ((sideDoors side).foldl releaseDoor (setSide side (releasedSide r p) p)).door d
      = if Safety.ofSide side d ∧ (p.door d).state = .locked then { p.door d with state := .released, motion := none } else p.door d := by
  obtain ⟨doors, -⟩ := fold_doors releaseDoor (fun _ => True) releasedRec (fun _ _ h => h) (fun q d x _ => releaseDoor_door q d x)
    (sideDoors side) (sideDoors_nodup side) (setSide side (releasedSide r p) p) trivial
  rw [doors, setSide_door, ite_and]
  unfold releasedRec
  exact if_congr (mem_side side d) rfl rfl

/-- RELEASE SIDE is taken at the chosen platform. -/
theorem releaseSide_takes {u : Trigger} {side : Side} {r : SegRec} {s : State} (judged : Safety.triggerJudged u s)
    (taken : judgeReleaseSide (Safety.workingCopy u s) (received 15 u s)
      = (releaseSideTaken side r (received 15 u s), .take (BitVec.ofNat 32 r.platformId))) :
    ∃ t, exec (.releaseSide u) s = .next t
      ∧ (Safety.orderDone 15 u (BitVec.ofNat 32 r.platformId) s t
        ∧ t.part.side side = ⟨true, BitVec.ofNat 8 r.platformId, r.stationControlled, s.part.odo.pos⟩
        ∧ ∀ d : Fin 8, t.part.door d =
            if Safety.ofSide side d ∧ (s.part.door d).state = .locked then { s.part.door d with state := .released, motion := none }
            else s.part.door d) := by
  refine order_take judged taken _ fun t ⟨o, ends⟩ done _ => ?_
  rw [releaseSideTaken_eq] at ends
  obtain ⟨doors, sides⟩ := doors_end ends
  refine ⟨done, ?_, fun d => (doors d).trans (releasedDoors_door side r (received 15 u s) d)⟩
  rw [sides, foldl_side _ side fun q d => releaseDoor_side q d side, setSide_side]
  rfl

/-- Settles O34: the refusals in their order, and the side that is released. -/
theorem releasesSide : Obligations.ReleasesSide := by
  unfold Obligations.ReleasesSide
  intro u s judged
  let p := received 15 u s
  refine ⟨fun first second => ?_, fun side number => ?_⟩
  all_goals
    refine check_step (fun locked => refuse_of judged (judgeReleaseSide_lockout (p := p) (not_not.1 locked))) fun running => ?_
    refine check_step (fun other => refuse_of judged (judgeReleaseSide_wrongMode (p := p) running other)) fun stand => ?_
  · exact check_end (refuse_of judged (judgeReleaseSide_badParam (p := p) stand (side_bad _ first second)))
  have named := side_of _ side number
  refine check_step (fun moves => refuse_of judged (judgeReleaseSide_notStandstill (p := p) stand named moves)) fun still => ?_
  refine check_step (fun low => refuse_of judged (judgeReleaseSide_brakeLow (p := p) stand named still low)) fun braked => ?_
  refine check_step (fun lost => refuse_of judged (judgeReleaseSide_noPosition (p := p) stand named still braked lost)) fun known => ?_
  refine check_step (fun outside => refuse_of judged (judgeReleaseSide_outside (p := p) stand named still braked known outside))
    fun inside => ?_
  refine check_step (fun none => refuse_of judged (judgeReleaseSide_noPermit (p := p) stand named still braked known inside ?_))
    fun ⟨r, chosen⟩ => ?_
  · exact Option.eq_none_iff_forall_ne_some.2 fun r found => none ⟨r, (chosen_iff side r s.part).2 found⟩
  have found : releasePlatform side p = some r := (chosen_iff side r s.part).1 chosen
  refine check_step (fun busy => refuse_of judged (judgeReleaseSide_busy (p := p) stand named still braked known inside found busy))
    fun free => check_end ?_
  obtain ⟨t, next, released⟩ := releaseSide_takes judged (judgeReleaseSide_takes (p := p) stand named still braked known inside found free)
  refine ⟨t, next, fun x also => ?_⟩
  obtain rfl : r = x := Option.some.inj (found.symm.trans ((chosen_iff side x s.part).1 also))
  exact released

end Sys2Proof.Machine
end

section
/-! OPEN SIDE (R122, R128). -/

namespace Sys2Proof.Machine

/-! ### The checks -/

section
variable {i : Fin 16} {work : Vector Word 7} {p : Part} {side : Side}

theorem judgeOpenSide_named (named : sideOf? (param work 0) = some side) : judgeOpenSide i work p =
    if (p.ord.openSlot side).isSome then (p, .no .busy)
    else if p.mod.mode == .lockout then (p, .no .lockout)
    else if (p.ord.closeSlot side).isSome then (p, .no .busy)
    else if !(p.side side).released then (p, .no .outsidePlatform)
    else (openSideTaken i side p, .timed) := by
  unfold judgeOpenSide
  simp only [named]

theorem judgeOpenSide_unnamed (none : sideOf? (param work 0) = none) :
    judgeOpenSide i work p = if p.mod.mode == .lockout then (p, .no .lockout) else (p, .no .badParam) := by
  unfold judgeOpenSide
  simp only [none, Bool.false_eq_true, if_false]

end

/-! ### One door that opens -/

/-- One turn over the affected doors: a RELEASED door opens. -/
def openReleased (p : Part) (d : Fin 8) : Part := if (p.door d).state == .released then openDoor d p else p

/-- What OPEN SIDE makes of the record of an affected door. -/
def openedRec (now : Word) (r : Door) : Door :=
  if r.state = .released then
    (if r.fo then { r with state := .open_, motion := none } else { r with state := .opening, motion := some now })
  else r

theorem openDoor_sbd (d : Fin 8) (p : Part) : SameButDoors p (openDoor d p) := by
  unfold openDoor
  simp only
  split
  · exact (doorTo_sbd d .opening (some p.now) p).trans (doorTo_sbd _ _ _ _)
  · exact doorTo_sbd _ _ _ _

theorem openReleased_sbd (d : Fin 8) (p : Part) : SameButDoors p (openReleased p d) := by
  unfold openReleased
  split
  · exact openDoor_sbd d p
  · exact .refl p

theorem openReleased_door (q : Part) (d x : Fin 8) :
    (openReleased q d).door x = if x = d then openedRec q.now (q.door d) else q.door x := by
  unfold openReleased openedRec
  by_cases released : (q.door d).state = .released
  · rw [if_pos (by simpa using released), if_pos released]; exact openDoor_door d x q
  · rw [if_neg (by simpa using released), if_neg released]
    split
    · next here => rw [here]
    · rfl

theorem openedRec_of_ne {now : Word} {r : Door} (other : r.state ≠ .released) : openedRec now r = r := if_neg other

/-! ### The order in its slot -/

/-- The doors that OPEN SIDE affects (R128). -/
def openDoors (side : Side) (p : Part) : List (Fin 8) :=
  (sideDoors side).filter fun d => (p.door d).state == .released || (p.door d).state == .opening || (p.door d).state == .open_

theorem mem_openDoors {side : Side} {p : Part} {d : Fin 8} : d ∈ openDoors side p
    ↔ Safety.ofSide side d ∧ ((p.door d).state = .released ∨ (p.door d).state = .opening ∨ (p.door d).state = .open_) := by
  unfold openDoors
  rw [List.mem_filter, mem_side]
  simp only [Bool.or_eq_true, beq_iff_eq, or_assoc]

/-- The order is named and runs, before its doors open. -/
def openNamed (i : Fin 16) (side : Side) (p : Part) : Part :=
  setOpenAffected side (doorMask (openDoors side p)) (setOpenSlot side (some i) (slotRunning i p))

theorem openNamed_spec (i : Fin 16) (side : Side) (p : Part) :
    (openNamed i side p).ord.openSlot side = some i
      ∧ (openNamed i side p).ord.openSlot (otherSide side) = p.ord.openSlot (otherSide side)
      ∧ (∀ x, (openNamed i side p).ord.closeSlot x = p.ord.closeSlot x)
      ∧ (openNamed i side p).ord.slots[i] = { p.ord.slots[i] with state := .running, verdict := .taken, reason := .ok, result := 0 }
      ∧ (openNamed i side p).dor.openAffected side = doorMask (openDoors side p)
      ∧ (∀ d, (openNamed i side p).door d = p.door d) ∧ (openNamed i side p).now = p.now := by
  have slot := slotRunning_slot i p
  cases side
  · exact ⟨rfl, rfl, fun x => by cases x <;> rfl, slot, rfl, fun _ => rfl, rfl⟩
  · exact ⟨rfl, rfl, fun x => by cases x <;> rfl, slot, rfl, fun _ => rfl, rfl⟩

/-- The affected doors have opened. -/
def sideOpened (i : Fin 16) (side : Side) (p : Part) : Part := (openDoors side p).foldl openReleased (openNamed i side p)

theorem openSideTaken_eq (i : Fin 16) (side : Side) (p : Part) : openSideTaken i side p = afterDoors p (sideOpened i side p) := rfl

theorem sideOpened_spec (i : Fin 16) (side : Side) (p : Part) : SameButDoors (openNamed i side p) (sideOpened i side p)
    ∧ ∀ d, (sideOpened i side p).door d = if d ∈ openDoors side p then openedRec p.now (p.door d) else p.door d := by
  obtain ⟨-, -, -, -, -, doors, now⟩ := openNamed_spec i side p
  obtain ⟨opened, same⟩ := fold_doors openReleased (SameButDoors (openNamed i side p)) (openedRec p.now)
    (fun q d k => k.trans (openReleased_sbd d q))
    (fun q d x k => by
      have clock : q.now = p.now := by rw [k]; exact now
      rw [openReleased_door, clock])
    (openDoors side p) ((sideDoors_nodup side).filter _) (openNamed i side p) (.refl _)
  exact ⟨same, fun d => (opened d).trans (by rw [doors])⟩

/-- A door of the side is RELEASED no more; every other door stands. -/
theorem sideOpened_door (i : Fin 16) (side : Side) (p : Part) (d : Fin 8) : (sideOpened i side p).door d
    = if Safety.ofSide side d ∧ (p.door d).state = .released then
        (if (p.door d).fo then { p.door d with state := .open_, motion := none } else { p.door d with state := .opening, motion := some p.now })
      else p.door d := by
  rw [(sideOpened_spec i side p).2]
  by_cases released : (p.door d).state = .released
  · have affected : d ∈ openDoors side p ↔ Safety.ofSide side d ∧ (p.door d).state = .released := by
      rw [mem_openDoors]; simp [released]
    exact if_congr affected (if_pos released) rfl
  · rw [openedRec_of_ne released, ite_self]
    exact (if_neg fun h => released h.2).symm

/-- No LOCKED door moves, so no running test is aborted. -/
theorem openSideTaken_checked (i : Fin 16) (side : Side) (p : Part) :
    openSideTaken i side p = checkDoorOrders (formDoors (sideOpened i side p)) := by
  refine (openSideTaken_eq i side p).trans (afterDoors_plain fun d locked => ?_)
  rw [sideOpened_door, if_neg fun h => absurd (locked.symm.trans h.2) (by decide)]
  exact locked

/-- The slot of the order, and the side's name for it, by whether every affected door is final. -/
theorem openSideTaken_slot {i : Fin 16} {side : Side} {p : Part} (unnamed : ∀ x, p.ord.openSlot x ≠ some i ∧ p.ord.closeSlot x ≠ some i) :
    let running : Slot := { p.ord.slots[i] with state := .running, verdict := .taken, reason := .ok, result := 0 }
    ((∃ d, d ∈ openDoors side p ∧ ((sideOpened i side p).door d).state = .opening) →
      (openSideTaken i side p).ord.slots[i] = running ∧ (openSideTaken i side p).ord.openSlot side = some i)
    ∧ ((∀ d, d ∈ openDoors side p → ((sideOpened i side p).door d).state = .open_) →
      (openSideTaken i side p).ord.slots[i] = { running with state := .done, result := 1 } ∧ (openSideTaken i side p).ord.openSlot side = none) := by
  intro running
  obtain ⟨named, other, close, slot, affected, -, -⟩ := openNamed_spec i side p
  have same := (sideOpened_spec i side p).1
  obtain ⟨formedOrd, formedDor⟩ := formDoors_keeps (sideOpened i side p)
  have ord : (formDoors (sideOpened i side p)).ord = (openNamed i side p).ord := by rw [formedOrd, same]; rfl
  have mask : (formDoors (sideOpened i side p)).dor.openAffected side = doorMask (openDoors side p) := by
    rw [formedDor, same, ← affected]; cases side <;> rfl
  have door : ∀ d, (formDoors (sideOpened i side p)).door d = (sideOpened i side p).door d := fun d => by unfold Part.door; rw [formedDor]
  obtain ⟨final, waits⟩ := checkOrders_open side i (formDoors (sideOpened i side p)) (by rw [ord]; exact named)
    (by rw [ord, other]; exact (unnamed _).1) (fun x => by rw [ord, close]; exact (unnamed x).2)
  simp only [mask, door, ord, slot] at final waits
  rw [openSideTaken_checked]
  refine ⟨fun ⟨d, mem, opening⟩ => waits ?_, fun opened => ?_⟩
  · rw [List.all_eq_false]
    exact ⟨d, (mem_doorsOf _ _).2 mem, by rw [openFinal, opening]; decide⟩
  · have all : ∀ d ∈ doorsOf (doorMask (openDoors side p)), ((sideOpened i side p).door d).state = .open_ :=
      fun d mem => opened d ((mem_doorsOf _ _).1 mem)
    obtain ⟨done, freed⟩ := final (List.all_eq_true.2 fun d mem => by rw [openFinal, all d mem]; decide)
    have none : (doorsOf (doorMask (openDoors side p))).filter (fun d => ((sideOpened i side p).door d).state != .open_) = [] :=
      List.filter_eq_nil_iff.2 fun d mem => by rw [all d mem]; decide
    rw [none] at done
    exact ⟨done, freed⟩

theorem received_unnamed {kind : Byte} {u : Trigger} {s : State} (judged : Safety.triggerJudged u s) (book : Safety.bookkeeping s.part.ord) :
    ∀ x, (received kind u s).ord.openSlot x ≠ some u.slot ∧ (received kind u s).ord.closeSlot x ≠ some u.slot := by
  obtain ⟨openLeft, openRight, closeLeft, closeRight⟩ := unnamed s.part.ord book u.slot judged.2
  intro x
  cases x
  · exact ⟨openLeft, closeLeft⟩
  · exact ⟨openRight, closeRight⟩

/-- OPEN SIDE is taken: the doors, and the order that runs or is done. -/
theorem openSide_takes {u : Trigger} {side : Side} {s : State} (judged : Safety.triggerJudged u s) (book : Safety.bookkeeping s.part.ord)
    (taken : judgeOpenSide u.slot (Safety.workingCopy u s) (received 16 u s) = (openSideTaken u.slot side (received 16 u s), .timed)) :
    ∃ t, exec (.openSide u) s = .next t
      ∧ ((∀ d : Fin 8, t.part.door d =
            if Safety.ofSide side d ∧ (s.part.door d).state = .released then
              (if (s.part.door d).fo then { s.part.door d with state := .open_, motion := none }
               else { s.part.door d with state := .opening, motion := some s.part.now })
            else s.part.door d)
          ∧ ((∃ d, Safety.ofSide side d ∧ (t.part.door d).state = .opening) →
              Safety.orderRuns 16 u s t ∧ t.part.ord.openSlot side = some u.slot)
          ∧ ((∀ d, Safety.ofSide side d → (t.part.door d).state ≠ .opening) →
              Safety.orderDone 16 u 1 s t ∧ t.part.ord.openSlot side = none)) := by
  let p := received 16 u s
  refine order_timed judged taken _ fun t ends forwarded _ => ?_
  have door : ∀ d, t.part.door d = (sideOpened u.slot side p).door d := door_end _ _ s t ends
  have ord : t.part.ord = (openSideTaken u.slot side p).ord := by rw [ends, finish_ord]
  obtain ⟨runs, done⟩ := openSideTaken_slot (side := side) (p := p) (received_unnamed judged book)
  have kept : ∀ d, (p.door d).state ≠ .released → t.part.door d = p.door d := fun d other => by
    rw [door, sideOpened_door, if_neg fun h => other h.2]
  refine ⟨fun d => (door d).trans (sideOpened_door u.slot side p d), fun ⟨d, mine, opening⟩ => ?_, fun shut => ?_⟩
  · have affected : d ∈ openDoors side p := by
      rw [mem_openDoors]
      by_cases released : (p.door d).state = .released
      · exact ⟨mine, .inl released⟩
      · rw [kept d released] at opening; exact ⟨mine, .inr (.inl opening)⟩
    obtain ⟨slot, name⟩ := runs ⟨d, affected, by rw [← door]; exact opening⟩
    rw [← ord] at slot name
    exact ⟨⟨by rw [slot], by rw [slot], by rw [slot], by rw [slot], forwarded⟩, name⟩
  · have allOpen : ∀ d, d ∈ openDoors side p → ((sideOpened u.slot side p).door d).state = .open_ := fun d affected => by
      obtain ⟨mine, state⟩ := mem_openDoors.1 affected
      have away := shut d mine
      rw [door, sideOpened_door] at away
      rw [sideOpened_door]
      by_cases released : (p.door d).state = .released
      · rw [if_pos ⟨mine, released⟩] at away ⊢
        split
        · rfl
        · next closed => rw [if_neg closed] at away; exact absurd rfl away
      · rw [if_neg fun h => released h.2] at away ⊢
        exact (state.resolve_left released).resolve_left away
    obtain ⟨slot, name⟩ := done allOpen
    rw [← ord] at slot name
    exact ⟨⟨by rw [slot], by rw [slot], by rw [slot], by rw [slot], forwarded⟩, name⟩

/-- Settles O35. -/
theorem opensSide : Obligations.OpensSide := by
  unfold Obligations.OpensSide
  intro u s judged book
  let p := received 16 u s
  refine ⟨fun first second => ?_, fun side number => ?_⟩
  · have checked := judgeOpenSide_unnamed (i := u.slot) (p := p) (side_bad _ first second)
    refine check_step (fun locked => refuse_of judged (checked.trans (if_pos ?_))) fun running => check_end (refuse_of judged (checked.trans (if_neg ?_)))
    · show (s.part.mod.mode == .lockout) = true; simpa using locked
    · show ¬ (s.part.mod.mode == .lockout) = true; simpa using running
  · have checked := judgeOpenSide_named (i := u.slot) (p := p) (side_of _ side number)
    refine check_step (fun busy => refuse_of judged (checked.trans (if_pos (Option.isSome_iff_ne_none.2 busy)))) fun idle => ?_
    have passed := checked.trans (if_neg (by rw [show p.ord.openSlot side = none from idle]; decide))
    refine check_step (fun locked => refuse_of judged (passed.trans (if_pos ?_))) fun running => ?_
    · show (s.part.mod.mode == .lockout) = true; simpa using locked
    replace passed := passed.trans (if_neg (by show ¬ (s.part.mod.mode == .lockout) = true; simpa using running))
    refine check_step (fun busy => refuse_of judged (passed.trans (if_pos (Option.isSome_iff_ne_none.2 busy)))) fun free => ?_
    replace passed := passed.trans (if_neg (by rw [show p.ord.closeSlot side = none from free]; decide))
    refine check_step (fun out => refuse_of judged (passed.trans (if_pos ?_))) fun released => check_end ?_
    · show (!(s.part.side side).released) = true; simpa using out
    exact openSide_takes judged book (passed.trans (if_neg (by rw [show (p.side side).released = true from released]; decide)))

end Sys2Proof.Machine
end

section
/-! CLOSE SIDE (R123, R125, R129, R130). -/

namespace Sys2Proof.Machine

/-! ### The checks -/

section
variable {i : Fin 16} {work : Vector Word 7} {p : Part} {side : Side}

theorem judgeCloseSide_badParam (none : sideOf? (param work 0) = none) : judgeCloseSide i work p = (p, .no .badParam) := by
  unfold judgeCloseSide
  simp only [none]

theorem judgeCloseSide_named (named : sideOf? (param work 0) = some side) :
    judgeCloseSide i work p = if (p.ord.closeSlot side).isSome then (p, .no .busy) else (closeSideTaken i side p, .timed) := by
  unfold judgeCloseSide
  simp only [named]

end

/-! ### The records of the doors -/

/-- A door that CLOSE SIDE brings into CLOSING (R129). -/
abbrev Stands (r : Door) : Prop := r.state = .released ∨ r.state = .opening ∨ r.state = .open_

/-- A door that CLOSE SIDE affects (R129). -/
abbrev Affected (r : Door) : Prop :=
  r.state = .released ∨ r.state = .opening ∨ r.state = .open_ ∨ r.state = .closing ∨ r.state = .reopening

/-- What the withdrawal of the release makes of the record of a door of the side. -/
def withdrawnRec (now : Word) (limit : Nat) (released : Bool) (r : Door) : Door :=
  if released = true ∧ r.state = .released then closeRec now limit 10 (zeroed r) else r

/-- What the order makes of the record of an affected door. -/
def affectedRec (now : Word) (limit : Nat) (r : Door) : Door := if Stands r then closeRec now limit 10 (zeroed r) else zeroed r

/-- What CLOSE SIDE makes of the record of a door of the side. -/
def closedRec (now : Word) (limit : Nat) (released : Bool) (r : Door) : Door :=
  if Affected (withdrawnRec now limit released r) then affectedRec now limit (withdrawnRec now limit released r)
  else withdrawnRec now limit released r

theorem closedRec_spec (now : Word) (limit : Nat) (released : Bool) (r : Door) :
    (Stands r →
      (r.cl = true → closedRec now limit released r = { r with state := .locked, motion := none, retries := 0, closeFailed := false })
      ∧ (r.cl = false → r.ob = false →
        closedRec now limit released r = { r with state := .closing, motion := some now, retries := 0, closeFailed := false }))
    ∧ (r.state = .closing ∨ r.state = .reopening → closedRec now limit released r = { r with retries := 0, closeFailed := false })
    ∧ (r.state = .locked ∨ r.state = .faulted ∨ r.state = .isolated → closedRec now limit released r = r)
    ∧ ((closedRec now limit released r).state = .closing ∨ (closedRec now limit released r).state = .reopening →
      Affected (withdrawnRec now limit released r)) :=
  closeDoors_spec now limit released r

/-! ### The order in its slot -/

/-- The order is named and runs, an OPEN SIDE is overtaken, and the release withdrawn. -/
def closeNamed (i : Fin 16) (side : Side) (p : Part) : Part :=
  withdrawSide side .close (overtakeOpen side (setCloseSlot side (some i) (slotRunning i p)))

/-- The doors that CLOSE SIDE affects (R129). -/
def closingDoors (side : Side) (q : Part) : List (Fin 8) :=
  (sideDoors side).filter fun d => let st := (q.door d).state
    st == .released || st == .opening || st == .open_ || st == .closing || st == .reopening

theorem mem_closingDoors {side : Side} {q : Part} {d : Fin 8} : d ∈ closingDoors side q ↔ Safety.ofSide side d ∧ Affected (q.door d) := by
  unfold closingDoors
  rw [List.mem_filter, mem_side]
  simp only [Bool.or_eq_true, beq_iff_eq, or_assoc]

/-- The affected doors have closed. -/
def sideClosing (i : Fin 16) (side : Side) (p : Part) : Part :=
  (closingDoors side (closeNamed i side p)).foldl (fun x d => closeAffectedDoor d x)
    (setCloseAffected side (doorMask (closingDoors side (closeNamed i side p))) (closeNamed i side p))

theorem closeSideTaken_eq (i : Fin 16) (side : Side) (p : Part) : closeSideTaken i side p = afterDoors p (sideClosing i side p) := rfl

theorem closeNamed_door (i : Fin 16) (side : Side) (p : Part) (d : Fin 8) : (closeNamed i side p).door d
    = if Safety.ofSide side d then withdrawnRec p.now p.prf.settings.obstructionRetries (p.side side).released (p.door d) else p.door d := by
  obtain ⟨doors, now, prf, sides, -⟩ := overtake_spec side (setCloseSlot side (some i) (slotRunning i p))
  have door : ∀ d, (overtakeOpen side (setCloseSlot side (some i) (slotRunning i p))).door d = p.door d :=
    fun d => (doors d).trans (by cases side <;> rfl)
  have record : (overtakeOpen side (setCloseSlot side (some i) (slotRunning i p))).side side = p.side side := (sides side).trans (by cases side <;> rfl)
  have clock : (overtakeOpen side (setCloseSlot side (some i) (slotRunning i p))).now = p.now := now.trans (by cases side <;> rfl)
  have profile : (overtakeOpen side (setCloseSlot side (some i) (slotRunning i p))).prf = p.prf := prf.trans (by cases side <;> rfl)
  unfold closeNamed withdrawnRec
  rw [(withdrawSide_door side .close _).1, door, record, clock, profile, ite_and]
  exact if_congr (mem_side side d) rfl rfl

theorem eq_otherSide {x side : Side} (other : x ≠ side) : x = otherSide side := by
  revert other; cases x <;> cases side <;> decide

/-- Who is named, and the slots, before the doors close. -/
theorem closeNamed_ord (i : Fin 16) (side : Side) (p : Part) :
    (closeNamed i side p).ord.openSlot side = none
      ∧ (closeNamed i side p).ord.openSlot (otherSide side) = p.ord.openSlot (otherSide side)
      ∧ (closeNamed i side p).ord.closeSlot side = some i
      ∧ (closeNamed i side p).ord.closeSlot (otherSide side) = p.ord.closeSlot (otherSide side)
      ∧ (p.ord.openSlot side ≠ some i →
        (closeNamed i side p).ord.slots[i] = { p.ord.slots[i] with state := .running, verdict := .taken, reason := .ok, result := 0 })
      ∧ (∀ j, p.ord.openSlot side = some j →
        ((closeNamed i side p).ord.slots[j]).state = .aborted ∧ ((closeNamed i side p).ord.slots[j]).result = 1) := by
  obtain ⟨-, -, -, -, close, other, gone, kept, ended⟩ := overtake_spec side (setCloseSlot side (some i) (slotRunning i p))
  have opens : ∀ x, (setCloseSlot side (some i) (slotRunning i p)).ord.openSlot x = p.ord.openSlot x := fun x => by cases side <;> cases x <;> rfl
  have slot : (setCloseSlot side (some i) (slotRunning i p)).ord.slots[i]
      = { p.ord.slots[i] with state := .running, verdict := .taken, reason := .ok, result := 0 } :=
    (by cases side <;> rfl : _ = (slotRunning i p).ord.slots[i]).trans (slotRunning_slot i p)
  have ord : (closeNamed i side p).ord = (overtakeOpen side (setCloseSlot side (some i) (slotRunning i p))).ord := (withdrawSide_door side .close _).2.2.2.2
  rw [ord]
  refine ⟨gone, (other _ (by cases side <;> decide)).trans (opens _), (close side).trans (by cases side <;> rfl), (close _).trans (by cases side <;> rfl),
    fun free => (kept i (by rw [opens]; exact free)).trans slot, fun j named => ?_⟩
  rw [ended j ((opens side).trans named)]
  exact ⟨rfl, rfl⟩

theorem sideClosing_same (i : Fin 16) (side : Side) (p : Part) :
    SameButDoors (setCloseAffected side (doorMask (closingDoors side (closeNamed i side p))) (closeNamed i side p)) (sideClosing i side p)
    ∧ ∀ d, (sideClosing i side p).door d
        = if d ∈ closingDoors side (closeNamed i side p) then affectedRec p.now p.prf.settings.obstructionRetries ((closeNamed i side p).door d)
          else (closeNamed i side p).door d := by
  let base := setCloseAffected side (doorMask (closingDoors side (closeNamed i side p))) (closeNamed i side p)
  obtain ⟨-, -, clock, profile, -⟩ := withdrawSide_door side .close (overtakeOpen side (setCloseSlot side (some i) (slotRunning i p)))
  obtain ⟨-, clock', profile', -⟩ := overtake_spec side (setCloseSlot side (some i) (slotRunning i p))
  have now : base.now = p.now := (by cases side <;> rfl : _ = (closeNamed i side p).now).trans (clock.trans (clock'.trans (by cases side <;> rfl)))
  have prf : base.prf = p.prf := (by cases side <;> rfl : _ = (closeNamed i side p).prf).trans (profile.trans (profile'.trans (by cases side <;> rfl)))
  obtain ⟨closed, same⟩ := fold_doors (fun x d => closeAffectedDoor d x) (SameButDoors base) (affectedRec p.now p.prf.settings.obstructionRetries)
    (fun q d k => k.trans (closeAffected_door d q).1)
    (fun q d x k => by
      have clock : q.now = p.now := by rw [k]; exact now
      have profile : q.prf = p.prf := by rw [k]; exact prf
      show (closeAffectedDoor d q).door x = _
      rw [(closeAffected_door d q).2, clock, profile]
      rfl)
    (closingDoors side (closeNamed i side p)) ((sideDoors_nodup side).filter _) base (.refl _)
  exact ⟨same, fun d => (closed d).trans (by rw [show base.door d = (closeNamed i side p).door d by cases side <;> rfl])⟩

theorem sideClosing_door (i : Fin 16) (side : Side) (p : Part) (d : Fin 8) : (sideClosing i side p).door d
    = if Safety.ofSide side d then closedRec p.now p.prf.settings.obstructionRetries (p.side side).released (p.door d) else p.door d := by
  rw [(sideClosing_same i side p).2, closeNamed_door]
  by_cases mine : Safety.ofSide side d
  · rw [if_pos mine, if_pos mine]
    exact if_congr (by rw [mem_closingDoors, closeNamed_door, if_pos mine]; exact and_iff_right mine) rfl rfl
  · rw [if_neg mine, if_neg mine]
    exact if_neg fun h => mine (mem_closingDoors.1 h).1

/-- No LOCKED door moves, so no running test is aborted. -/
theorem closeSideTaken_checked (i : Fin 16) (side : Side) (p : Part) :
    closeSideTaken i side p = checkDoorOrders (formDoors (sideClosing i side p)) := by
  refine (closeSideTaken_eq i side p).trans (afterDoors_plain fun d locked => ?_)
  rw [sideClosing_door]
  split
  · rw [(closedRec_spec _ _ _ _).2.2.1 (.inl locked)]; exact locked
  · exact locked

/-- The slot of the order, and the side's name for it, by whether every affected door is final; and the OPEN SIDE it overtakes. -/
theorem closeSideTaken_slot {i : Fin 16} {side : Side} {p : Part} (unnamed : ∀ x, p.ord.openSlot x ≠ some i ∧ p.ord.closeSlot x ≠ some i) :
    let running : Slot := { p.ord.slots[i] with state := .running, verdict := .taken, reason := .ok, result := 0 }
    ((∃ d, d ∈ closingDoors side (closeNamed i side p)
        ∧ (((sideClosing i side p).door d).state = .closing ∨ ((sideClosing i side p).door d).state = .reopening)) →
      (closeSideTaken i side p).ord.slots[i] = running ∧ (closeSideTaken i side p).ord.closeSlot side = some i)
    ∧ ((∀ d, d ∈ closingDoors side (closeNamed i side p) → ((sideClosing i side p).door d).state = .locked) →
      (closeSideTaken i side p).ord.slots[i] = { running with state := .done, result := 1 } ∧ (closeSideTaken i side p).ord.closeSlot side = none)
    ∧ (closeSideTaken i side p).ord.openSlot side = none
    ∧ (∀ j, p.ord.openSlot side = some j → p.ord.openSlot (otherSide side) ≠ some j → (∀ x, p.ord.closeSlot x ≠ some j) →
      ((closeSideTaken i side p).ord.slots[j]).state = .aborted ∧ ((closeSideTaken i side p).ord.slots[j]).result = 1) := by
  intro running
  obtain ⟨gone, openOther, named, closeOther, slot, ended⟩ := closeNamed_ord i side p
  have same := (sideClosing_same i side p).1
  obtain ⟨formedOrd, formedDor⟩ := formDoors_keeps (sideClosing i side p)
  have ord : (formDoors (sideClosing i side p)).ord = (closeNamed i side p).ord := by rw [formedOrd, same]; cases side <;> rfl
  have mask : (formDoors (sideClosing i side p)).dor.closeAffected side = doorMask (closingDoors side (closeNamed i side p)) := by
    rw [formedDor, same]; cases side <;> rfl
  have door : ∀ d, (formDoors (sideClosing i side p)).door d = (sideClosing i side p).door d := fun d => by unfold Part.door; rw [formedDor]
  have opens : ∀ x, (closeNamed i side p).ord.openSlot x ≠ some i := fun x => by
    by_cases mine : x = side
    · rw [mine, gone]; simp
    · rw [eq_otherSide mine, openOther]; exact (unnamed _).1
  obtain ⟨final, waits⟩ := checkOrders_close side i (formDoors (sideClosing i side p)) (by rw [ord]; exact named)
    (by rw [ord, closeOther]; exact (unnamed _).2) (fun x => by rw [ord]; exact opens x)
  simp only [mask, door, ord, slot (unnamed side).1] at final waits
  rw [closeSideTaken_checked]
  refine ⟨fun ⟨d, mem, moves⟩ => waits ?_, fun locked => ?_, open_none side _ (by rw [ord]; exact gone), fun j was alone free => ?_⟩
  · rw [List.all_eq_false]
    refine ⟨d, (mem_doorsOf _ _).2 mem, ?_⟩
    rcases moves with closing | reopening
    · simp [closeFinal, closing]
    · simp [closeFinal, reopening]
  · have all : ∀ d ∈ doorsOf (doorMask (closingDoors side (closeNamed i side p))), ((sideClosing i side p).door d).state = .locked :=
      fun d mem => locked d ((mem_doorsOf _ _).1 mem)
    obtain ⟨done, freed⟩ := final (List.all_eq_true.2 fun d mem => by simp [closeFinal, all d mem])
    have none : (doorsOf (doorMask (closingDoors side (closeNamed i side p)))).filter (fun d => ((sideClosing i side p).door d).state != .locked) = [] :=
      List.filter_eq_nil_iff.2 fun d mem => by rw [all d mem]; decide
    rw [none] at done
    exact ⟨done, freed⟩
  · have other : i ≠ j := fun e => (unnamed side).1 (e ▸ was)
    have kept := (checkDoor_slot j (formDoors (sideClosing i side p)) (by
      rw [ord]
      cases side
      · exact ⟨by rw [show (closeNamed i .left p).ord.openLeft = none from gone]; simp, by rw [show (closeNamed i .left p).ord.openRight = _ from openOther]; exact alone,
          by rw [show (closeNamed i .left p).ord.closeLeft = _ from named]; simpa using other, by rw [show (closeNamed i .left p).ord.closeRight = _ from closeOther]; exact free _⟩
      · exact ⟨by rw [show (closeNamed i .right p).ord.openLeft = _ from openOther]; exact alone, by rw [show (closeNamed i .right p).ord.openRight = none from gone]; simp,
          by rw [show (closeNamed i .right p).ord.closeLeft = _ from closeOther]; exact free _, by rw [show (closeNamed i .right p).ord.closeRight = _ from named]; simpa using other⟩)).1
    rw [kept, ord]
    exact ended j was

/-- A slot that an OPEN SIDE of the side names is named once. -/
theorem open_named_once {o : Ord} {side : Side} {j : Fin 16} (book : Safety.bookkeeping o) (named : o.openSlot side = some j) :
    o.openSlot (otherSide side) ≠ some j ∧ ∀ x, o.closeSlot x ≠ some j := by
  obtain ⟨times, opens, -⟩ := book
  have opening : (o.slots[j]).kind.toNat = 16 := (times j 16 (.inr (.inr (.inl ⟨by cases side; exacts [.inl named, .inr named], rfl⟩)))).2
  have closing : ∀ x, o.closeSlot x = some j → (o.slots[j]).kind.toNat = 17 := fun x close =>
    (times j 17 (.inr (.inr (.inr ⟨by cases x; exacts [.inl close, .inr close], rfl⟩)))).2
  refine ⟨fun both => ?_, fun x close => by rw [closing x close] at opening; exact absurd opening (by decide)⟩
  cases side
  · exact opens j ⟨named, both⟩
  · exact opens j ⟨both, named⟩

/-- CLOSE SIDE is taken. -/
theorem closeSide_takes {u : Trigger} {side : Side} {s : State} (judged : Safety.triggerJudged u s) (book : Safety.bookkeeping s.part.ord)
    (taken : judgeCloseSide u.slot (Safety.workingCopy u s) (received 17 u s) = (closeSideTaken u.slot side (received 17 u s), .timed)) :
    ∃ t, exec (.closeSide u) s = .next t
      ∧ ((t.part.side side).released = false
          ∧ (∀ d, ¬ Safety.ofSide side d → t.part.door d = s.part.door d)
          ∧ (∀ d, Safety.ofSide side d →
              let r := s.part.door d
              (r.state = .released ∨ r.state = .opening ∨ r.state = .open_ →
                (r.cl = true → t.part.door d = { r with state := .locked, motion := none, retries := 0, closeFailed := false })
                ∧ (r.cl = false → r.ob = false →
                    t.part.door d = { r with state := .closing, motion := some s.part.now, retries := 0, closeFailed := false }))
              ∧ (r.state = .closing ∨ r.state = .reopening → t.part.door d = { r with retries := 0, closeFailed := false })
              ∧ (r.state = .locked ∨ r.state = .faulted ∨ r.state = .isolated → t.part.door d = r))
          ∧ (∀ i : Fin 16, s.part.ord.openSlot side = some i →
              t.part.ord.openSlot side = none ∧ (t.part.ord.slots[i]).state = .aborted ∧ (t.part.ord.slots[i]).result = 1)
          ∧ ((∃ d, Safety.ofSide side d ∧ ((t.part.door d).state = .closing ∨ (t.part.door d).state = .reopening)) →
              Safety.orderRuns 17 u s t ∧ t.part.ord.closeSlot side = some u.slot)
          ∧ ((∀ d, Safety.ofSide side d → (t.part.door d).state = .locked) →
              Safety.orderDone 17 u 1 s t ∧ t.part.ord.closeSlot side = none)) := by
  let p := received 17 u s
  refine order_timed judged taken _ fun t ends forwarded _ => ?_
  obtain ⟨doors, sides⟩ := doors_end (b := s.part) (y := p) (q := sideClosing u.slot side p) (t := t) (o := (closeSideTaken u.slot side p).ord) ends
  have door : ∀ d, t.part.door d = if Safety.ofSide side d then closedRec p.now p.prf.settings.obstructionRetries (p.side side).released (p.door d) else p.door d :=
    fun d => (doors d).trans (sideClosing_door u.slot side p d)
  have ord : t.part.ord = (closeSideTaken u.slot side p).ord := by rw [ends, finish_ord]
  obtain ⟨runs, done, gone, ended⟩ := closeSideTaken_slot (side := side) (p := p) (received_unnamed judged book)
  refine ⟨?_, fun d other => (door d).trans (if_neg other), fun d mine => ?_, fun j named => ?_, fun ⟨d, mine, moves⟩ => ?_, fun locked => ?_⟩
  · rw [sides, (sideClosing_same u.slot side p).1]
    refine (congrArg SideRec.released (?_ : _ = (closeNamed u.slot side p).side side)).trans (withdrawSide_door side .close _).2.1
    cases side <;> rfl
  · rw [door, if_pos mine]
    obtain ⟨stands, moves, rests, -⟩ := closedRec_spec p.now p.prf.settings.obstructionRetries (p.side side).released (p.door d)
    exact ⟨stands, moves, rests⟩
  · obtain ⟨alone, free⟩ := open_named_once book named
    rw [ord]
    exact ⟨gone, ended j named alone free⟩
  · have affected : d ∈ closingDoors side (closeNamed u.slot side p) := by
      rw [mem_closingDoors, closeNamed_door, if_pos mine]
      rw [door, if_pos mine] at moves
      exact ⟨mine, (closedRec_spec _ _ _ _).2.2.2 moves⟩
    obtain ⟨slot, name⟩ := runs ⟨d, affected, by rw [← doors]; exact moves⟩
    rw [← ord] at slot name
    exact ⟨⟨by rw [slot], by rw [slot], by rw [slot], by rw [slot], forwarded⟩, name⟩
  · obtain ⟨slot, name⟩ := done fun d affected => (congrArg Door.state (doors d)).symm.trans (locked d (mem_closingDoors.1 affected).1)
    rw [← ord] at slot name
    exact ⟨⟨by rw [slot], by rw [slot], by rw [slot], by rw [slot], forwarded⟩, name⟩

/-- Settles O36. -/
theorem closesSide : Obligations.ClosesSide := by
  unfold Obligations.ClosesSide
  intro u s judged book
  let p := received 17 u s
  refine ⟨fun first second => refuse_of judged (judgeCloseSide_badParam (side_bad _ first second)), fun side number => ?_⟩
  have checked := judgeCloseSide_named (i := u.slot) (p := p) (side_of _ side number)
  refine check_step (fun busy => refuse_of judged (checked.trans (if_pos (Option.isSome_iff_ne_none.2 busy)))) fun idle => check_end ?_
  exact closeSide_takes judged book (checked.trans (if_neg (by rw [show p.ord.closeSlot side = none from idle]; decide)))

end Sys2Proof.Machine
end

section
/-! ISOLATE DOOR and RESTORE DOOR (R131, R132). -/

namespace Sys2Proof.Machine

/-! ### The checks of ISOLATE DOOR -/

section
variable {work : Vector Word 7} {p : Part} {d : Fin 8}

theorem judgeIsolateDoor_lockout (locked : ¬ p.mod.mode ≠ .lockout) : judgeIsolateDoor work p = (p, .no .lockout) := by
  unfold judgeIsolateDoor
  rw [if_pos (by simpa using locked)]

theorem judgeRestoreDoor_lockout (locked : ¬ p.mod.mode ≠ .lockout) : judgeRestoreDoor work p = (p, .no .lockout) := by
  unfold judgeRestoreDoor
  rw [if_pos (by simpa using locked)]

theorem judgeIsolateDoor_wrongMode (running : p.mod.mode ≠ .lockout) (other : ¬ p.mod.mode = .stand) :
    judgeIsolateDoor work p = (p, .no .wrongMode) := by
  unfold judgeIsolateDoor
  rw [if_neg (by simpa using running), if_pos (by simpa using other)]

theorem judgeRestoreDoor_wrongMode (running : p.mod.mode ≠ .lockout) (other : ¬ p.mod.mode = .stand) :
    judgeRestoreDoor work p = (p, .no .wrongMode) := by
  unfold judgeRestoreDoor
  rw [if_neg (by simpa using running), if_pos (by simpa using other)]

variable (stand : p.mod.mode = .stand)
include stand

theorem judgeIsolateDoor_badParam (none : doorOf? (param work 0) = none) : judgeIsolateDoor work p = (p, .no .badParam) := by
  unfold judgeIsolateDoor
  rw [if_neg (by rw [stand]; decide), if_neg (by rw [stand]; decide)]
  simp only [none]

theorem judgeRestoreDoor_badParam (none : doorOf? (param work 0) = none) : judgeRestoreDoor work p = (p, .no .badParam) := by
  unfold judgeRestoreDoor
  rw [if_neg (by rw [stand]; decide), if_neg (by rw [stand]; decide)]
  simp only [none]

variable (named : doorOf? (param work 0) = some d)
include named

theorem judgeIsolateDoor_stands (isolated : (p.door d).state = .isolated) : judgeIsolateDoor work p = (p, .take (doorStateWord d p)) := by
  unfold judgeIsolateDoor
  rw [if_neg (by rw [stand]; decide), if_neg (by rw [stand]; decide)]
  simp only [named]
  exact if_pos (by simpa using isolated)

theorem judgeIsolateDoor_conditionActive (whole : ¬ ((p.door d).state = .isolated ∨ (p.door d).state = .faulted)) :
    judgeIsolateDoor work p = (p, .no .conditionActive) := by
  obtain ⟨isolated, faulted⟩ := not_or.1 whole
  unfold judgeIsolateDoor
  rw [if_neg (by rw [stand]; decide), if_neg (by rw [stand]; decide)]
  simp only [named]
  exact (if_neg (by simpa using isolated)).trans (if_pos (by simpa using faulted))

theorem judgeIsolateDoor_takes (faulted : (p.door d).state = .faulted) : judgeIsolateDoor work p =
    (afterDoors p (doorTo d .isolated none p), .take (doorStateWord d (afterDoors p (doorTo d .isolated none p)))) := by
  unfold judgeIsolateDoor
  rw [if_neg (by rw [stand]; decide), if_neg (by rw [stand]; decide)]
  simp only [named]
  exact (if_neg (by rw [faulted]; decide)).trans (if_neg (by rw [faulted]; decide))

theorem judgeRestoreDoor_stands (locked : (p.door d).state = .locked) : judgeRestoreDoor work p = (p, .take (doorStateWord d p)) := by
  unfold judgeRestoreDoor
  rw [if_neg (by rw [stand]; decide), if_neg (by rw [stand]; decide)]
  simp only [named]
  exact if_pos (by simpa using locked)

theorem judgeRestoreDoor_busy (moves : ¬ ((p.door d).state = .locked ∨ (p.door d).state = .faulted ∨ (p.door d).state = .isolated)) :
    judgeRestoreDoor work p = (p, .no .busy) := by
  obtain ⟨locked, out⟩ := not_or.1 moves
  obtain ⟨faulted, isolated⟩ := not_or.1 out
  unfold judgeRestoreDoor
  rw [if_neg (by rw [stand]; decide), if_neg (by rw [stand]; decide)]
  simp only [named]
  exact (if_neg (by simpa using locked)).trans (if_pos (by simp [faulted, isolated]))

variable (out : (p.door d).state = .faulted ∨ (p.door d).state = .isolated)
include out

theorem judgeRestoreDoor_conditionActive (open_ : (p.door d).cl = false) : judgeRestoreDoor work p = (p, .no .conditionActive) := by
  unfold judgeRestoreDoor
  rw [if_neg (by rw [stand]; decide), if_neg (by rw [stand]; decide)]
  simp only [named, open_]
  rcases out with state | state <;> rw [state] <;> rfl

theorem judgeRestoreDoor_takes (closed : (p.door d).cl = true) : judgeRestoreDoor work p =
    (restoreDoorTaken d p, .take (doorStateWord d (restoreDoorTaken d p))) := by
  unfold judgeRestoreDoor
  rw [if_neg (by rw [stand]; decide), if_neg (by rw [stand]; decide)]
  simp only [named, closed]
  rcases out with state | state <;> rw [state] <;> rfl

end

/-! ### A door that the order moves -/

theorem afterDoors_door (b q : Part) (x : Fin 8) : (afterDoors b q).door x = q.door x := by
  have moved : Moves [.mode, .ord] q (afterDoors b q) := afterDoors_moves _ (by decide) (by decide) (.refl _)
  unfold Part.door
  rw [(moved.frame.doors (by decide)).1]

/-- The door keeps its state: the order answers with it, and nothing of the doors changes. -/
theorem order_stands {kind : Byte} {judge : Judge} {u : Trigger} {s : State} {d : Fin 8} (judged : Safety.triggerJudged u s)
    (stand : s.part.mod.mode = .stand)
    (taken : judge u.slot (Safety.workingCopy u s) (received kind u s)
      = (received kind u s, .take (doorStateWord d (received kind u s)))) (P : State → Prop)
    (then_ : ∀ t, Safety.orderDone kind u (BitVec.ofNat 32 (s.part.door d).state.code) s t → t.part.dor = s.part.dor → P t) :
    ∃ t, hostRow (triggerWith kind judge u) s = .next t ∧ P t := by
  refine order_take judged taken _ fun t ⟨o, ends⟩ done _ => then_ t done ?_
  obtain ⟨g, same⟩ := finish_outside_run (q := (received kind u s).withOrd o) s.part (by show s.part.mod.mode ≠ .run; rw [stand]; decide)
  rw [ends, same]
  rfl

/-- The order moves the door and no other, with DOOR_STATE. -/
theorem order_moves {kind : Byte} {judge : Judge} {u : Trigger} {s : State} {d : Fin 8} {x : DoorState} {r : Door} {q : Part}
    (judged : Safety.triggerJudged u s) (record : r.state = x)
    (doors : ∀ y, q.door y = if y = d then r else s.part.door y)
    (posted : Safety.posts s.part q [(.doorState, arg2 d.val x.code, s.part.odo.pos)])
    (taken : judge u.slot (Safety.workingCopy u s) (received kind u s)
      = (afterDoors (received kind u s) q, .take (doorStateWord d (afterDoors (received kind u s) q)))) (P : State → Prop)
    (then_ : ∀ t, Safety.orderDone kind u (BitVec.ofNat 32 x.code) s t → t.part.door d = r
      → Safety.posts s.part t.part [(.doorState, arg2 d.val x.code, s.part.odo.pos)] → (∀ y, y ≠ d → t.part.door y = s.part.door y) → P t) :
    ∃ t, hostRow (triggerWith kind judge u) s = .next t ∧ P t := by
  refine order_take judged taken _ fun t ⟨o, ends⟩ done _ => ?_
  obtain ⟨door, -⟩ := doors_end ends
  have word : doorStateWord d (afterDoors (received kind u s) q) = BitVec.ofNat 32 x.code := by
    unfold doorStateWord
    rw [afterDoors_door, doors, if_pos rfl, record]
  exact then_ t (word ▸ done) ((door d).trans ((doors d).trans (if_pos rfl))) (posts_after ends posted)
    fun y other => (door y).trans ((doors y).trans (if_neg other))

/-- The event of a door's new state is posted. -/
theorem doorTo_posts (d : Fin 8) (x : DoorState) (m : Option Word) (p : Part) :
    Safety.posts p (doorTo d x m p) [(.doorState, arg2 d.val x.code, p.odo.pos)] :=
  posts_post (p := setDoor d (fun r => { r with state := x, motion := m }) p) (posts_nil (List.prefix_refl _))

/-- ISOLATE DOOR with a door that there is, past its checks of the car mode. -/
theorem isolateDoor_named {u : Trigger} {s : State} {d : Fin 8} (judged : Safety.triggerJudged u s) (stand : s.part.mod.mode = .stand)
    (named : doorOf? (param (Safety.workingCopy u s) 0) = some d) :
    let r := s.part.door d
    ∃ t, exec (.isolateDoor u) s = .next t ∧ Safety.checked (fun r => Safety.orderRefused 18 u r 0 s t)
        (Safety.orderDone 18 u (BitVec.ofNat 32 DoorState.isolated.code) s t
          ∧ (r.state = .isolated → t.part.dor = s.part.dor)
          ∧ (r.state = .faulted → t.part.door d = { r with state := .isolated, motion := none }
              ∧ Safety.posts s.part t.part [(.doorState, arg2 d.val DoorState.isolated.code, s.part.odo.pos)])
          ∧ ∀ x, x ≠ d → t.part.door x = s.part.door x)
        [(r.state = .isolated ∨ r.state = .faulted, .conditionActive)] := by
  intro r
  let p := received 18 u s
  refine check_step (fun whole => refuse_of judged (judgeIsolateDoor_conditionActive (p := p) stand named whole)) fun broken => check_end ?_
  rcases broken with isolated | faulted
  · refine order_stands (kind := 18) (judge := fun _ => judgeIsolateDoor) judged stand (judgeIsolateDoor_stands (p := p) stand named isolated) _
      fun t done kept => ⟨?_, fun _ => kept, fun faulted => absurd (isolated.symm.trans faulted) (by decide), fun x _ => congrArg (·.doors[x]) kept⟩
    rw [isolated] at done
    exact done
  · exact order_moves (kind := 18) (judge := fun _ => judgeIsolateDoor) judged (x := .isolated) (r := { r with state := .isolated, motion := none }) rfl
      (fun y => doorTo_door d y _ _ p) (doorTo_posts d .isolated none p) (judgeIsolateDoor_takes (p := p) stand named faulted) _
      fun t done door posted others => ⟨done, fun isolated => absurd (isolated.symm.trans faulted) (by decide), fun _ => ⟨door, posted⟩, others⟩

/-- RESTORE DOOR with a door that there is, past its checks of the car mode. -/
theorem restoreDoor_named {u : Trigger} {s : State} {d : Fin 8} (judged : Safety.triggerJudged u s) (stand : s.part.mod.mode = .stand)
    (named : doorOf? (param (Safety.workingCopy u s) 0) = some d) :
    let r := s.part.door d
    ∃ t, exec (.restoreDoor u) s = .next t ∧ Safety.checked (fun r => Safety.orderRefused 19 u r 0 s t)
        (Safety.orderDone 19 u (BitVec.ofNat 32 DoorState.locked.code) s t
          ∧ (r.state = .locked → t.part.dor = s.part.dor)
          ∧ (r.state ≠ .locked →
              t.part.door d = { r with state := .locked, motion := none, fault := .none, retries := 0, closeFailed := false }
              ∧ Safety.posts s.part t.part [(.doorState, arg2 d.val DoorState.locked.code, s.part.odo.pos)])
          ∧ ∀ x, x ≠ d → t.part.door x = s.part.door x)
        [(r.state = .locked ∨ r.state = .faulted ∨ r.state = .isolated, .busy), (r.state = .locked ∨ r.cl = true, .conditionActive)] := by
  intro r
  let p := received 19 u s
  refine check_step (fun moves => refuse_of judged (judgeRestoreDoor_busy (p := p) stand named moves)) fun state => ?_
  refine check_step (fun open_ => ?_) fun closed => check_end ?_
  · obtain ⟨away, open_⟩ := not_or.1 open_
    exact refuse_of judged (judgeRestoreDoor_conditionActive (p := p) stand named (state.resolve_left away) (Bool.eq_false_iff.2 open_))
  by_cases locked : r.state = .locked
  · refine order_stands (kind := 19) (judge := fun _ => judgeRestoreDoor) judged stand (judgeRestoreDoor_stands (p := p) stand named locked) _
      fun t done kept => ⟨?_, fun _ => kept, fun other => absurd locked other, fun x _ => congrArg (·.doors[x]) kept⟩
    rw [show (s.part.door d).state = .locked from locked] at done
    exact done
  · let reset := setDoor d (fun r => { r with fault := .none, retries := 0, closeFailed := false }) p
    refine order_moves (kind := 19) (judge := fun _ => judgeRestoreDoor) judged (x := .locked)
      (r := { r with state := .locked, motion := none, fault := .none, retries := 0, closeFailed := false }) rfl (fun y => ?_)
      (doorTo_posts d .locked none reset) (judgeRestoreDoor_takes (p := p) stand named (state.resolve_left locked) (closed.resolve_left locked)) _
      fun t done door posted others => ⟨done, fun h => absurd h locked, fun _ => ⟨door, posted⟩, others⟩
    rw [doorTo_door, setDoor_door, setDoor_door, if_pos rfl]
    split <;> rfl

/-- Settles O37. -/
theorem doorsIsolatedAndRestored : Obligations.DoorsIsolatedAndRestored := by
  unfold Obligations.DoorsIsolatedAndRestored
  intro u s judged
  let isolating := received 18 u s
  let restoring := received 19 u s
  refine ⟨fun beyond => ⟨?_, ?_⟩, fun d number => ⟨?_, ?_⟩⟩
  · exact check_step (fun locked => refuse_of judged (judgeIsolateDoor_lockout (p := isolating) locked)) fun running =>
      check_step (fun other => refuse_of judged (judgeIsolateDoor_wrongMode (p := isolating) running other)) fun stand =>
        check_end (refuse_of judged (judgeIsolateDoor_badParam (p := isolating) stand (door_bad _ beyond)))
  · exact check_step (fun locked => refuse_of judged (judgeRestoreDoor_lockout (p := restoring) locked)) fun running =>
      check_step (fun other => refuse_of judged (judgeRestoreDoor_wrongMode (p := restoring) running other)) fun stand =>
        check_end (refuse_of judged (judgeRestoreDoor_badParam (p := restoring) stand (door_bad _ beyond)))
  · exact check_step (fun locked => refuse_of judged (judgeIsolateDoor_lockout (p := isolating) locked)) fun running =>
      check_step (fun other => refuse_of judged (judgeIsolateDoor_wrongMode (p := isolating) running other)) fun stand =>
        isolateDoor_named judged stand (door_of _ d number)
  · exact check_step (fun locked => refuse_of judged (judgeRestoreDoor_lockout (p := restoring) locked)) fun running =>
      check_step (fun other => refuse_of judged (judgeRestoreDoor_wrongMode (p := restoring) running other)) fun stand =>
        restoreDoor_named judged stand (door_of _ d number)

end Sys2Proof.Machine
end

section
/-! Every delivered message (R146, R147, R171), and the permit list (R133, R134). -/

namespace Sys2Proof.Machine

/-- Settles O38: no message's act touches the receiver. -/
theorem messagesHeard : Obligations.MessagesHeard := by
  unfold Obligations.MessagesHeard
  intro c src kind s of taken
  cases c with
  | grant => cases of; exact heard_ends taken fun _ => grantTaken_moves _ _ (by decide) (by decide) (by decide) (.refl _)
  | revoke => cases of; exact heard_ends taken fun _ => revokeTaken_moves _ _ (by decide) (by decide) (by decide) (.refl _)
  | restrict => cases of; exact heard_ends taken fun _ => restrictTaken_moves _ _ (by decide) (.refl _)
  | lift => cases of; exact heard_ends taken fun _ => liftTaken_moves _ _ (by decide) (.refl _)
  | permit => cases of; exact heard_ends taken fun _ => permitTaken_moves _ _ _ actPermitting (.refl _)
  | withdraw => cases of; exact heard_ends taken fun _ => withdrawTaken_moves _ actPermitting (.refl _)
  | eStop => cases of; exact heard_ends taken fun _ => eStopTaken_moves _ (by decide) (by decide) (.refl _)
  | eRelease => cases of; exact heard_ends taken fun _ => eReleaseTaken_moves _ (by decide) (.refl _)
  | wakeMessage => cases of; exact heard_ends taken fun _ => wakeTaken_moves (by decide) (by decide) (.refl _)
  | poll => cases of; exact heard_ends taken fun _ => handReport_moves (.refl _)
  | text => cases of; exact heard_ends taken fun _ => textTaken_moves _ _ (by decide) (.refl _)
  | _ => cases of

/-! ### A message and its act -/

/-- A delivered message: the link has heard it, its act follows, then the mode at most, and MESSAGE_ARRIVED last. -/
theorem message_acts {src : Sender} {kind : Nat} (act : Part → Part × MessageOutcome) {s : State} (taken : Safety.delivered src s) (P : State → Prop)
    (then_ : ∀ t : State, Moves [.mode] (act (linkHeard src s.part)).1 t.part → Returned (act (linkHeard src s.part)).1 t.part
      → Safety.postsLast .messageArrived (arg2 kind (act (linkHeard src s.part)).2.code) t.part → P t) :
    ∃ t, partRow (messageRow src kind act) s = .next t ∧ P t := by
  refine message_ends taken (q := (act (linkHeard src s.part)).1) (o := (act (linkHeard src s.part)).2) rfl P fun t ⟨g, ends⟩ _ _ => ?_
  obtain ⟨moves, returned, last⟩ := message_rest ends
  exact then_ t moves returned last

theorem linkHeard_rest (src : Sender) (p : Part) : (linkHeard src p).now = p.now ∧ (linkHeard src p).mod = p.mod ∧ (linkHeard src p).dor = p.dor
    ∧ (linkHeard src p).odo = p.odo ∧ (linkHeard src p).ssu = p.ssu ∧ (linkHeard src p).msg = p.msg ∧ (linkHeard src p).brk = p.brk := by
  obtain ⟨e, heard⟩ := linkHeard_spec src p
  rw [heard]
  exact ⟨rfl, rfl, rfl, rfl, rfl, rfl, rfl⟩

/-! ### PERMIT -/

section
variable {station id mask : Byte} {p : Part}

/-- The entry that a PERMIT asks for. -/
def permitOf (id mask : Byte) (p : Part) : Permit := ⟨id, mask.getLsbD 0, mask.getLsbD 1, p.now⟩

/-- A PERMIT is refused. -/
def permitRefused (station id : Byte) (r : Reason) (p : Part) : Part := postPermit id 6 (handRefusal station 5 id.toNat r p)

/-- The list holds the id: its entry is replaced, and a release that the new one does not grant is withdrawn. -/
def permitReplaced (id mask : Byte) (p : Part) : Part :=
  let q := postPermit id 2 (p.withDor { p.dor with permits := p.dor.permits.map fun x => if x.platform == id then permitOf id mask p else x })
  afterDoors p (withdrawPermit id .right (withdrawPermit id .left q))

/-- The permit joins the list as the newest. -/
def permitAdded (id mask : Byte) (p : Part) : Part := postPermit id 1 (p.withDor { p.dor with permits := p.dor.permits ++ [permitOf id mask p] })

theorem permitRefused_permits (r : Reason) : (permitRefused station id r p).dor.permits = p.dor.permits :=
  (handRefusal_moves (H := []) station 5 id.toNat r (.refl p)).frame.permits (by decide)

theorem permitTaken_stabled (stabled : p.mod.mode = .stabled) : permitTaken station id mask p = (permitRefused station id .stabled p, .refused) := by
  unfold permitTaken
  exact if_pos (by simpa using stabled)

section
variable (awake : p.mod.mode ≠ .stabled) (low : 1 ≤ id.toNat) (high : id.toNat ≤ 63) (some_ : mask.getLsbD 0 = true ∨ mask.getLsbD 1 = true)
include awake low high some_

/-- The part of a good PERMIT that looks at the list. -/
theorem permitTaken_good : permitTaken station id mask p =
    if (p.permit? id).isSome then (permitReplaced id mask p, .acted)
    else if 4 ≤ p.dor.permits.length then (permitRefused station id .full p, .refused)
    else (permitAdded id mask p, .acted) := by
  have fields : ¬ (id = 0 ∨ 63 < id.toNat ∨ (mask.getLsbD 0 = false ∧ mask.getLsbD 1 = false)) := by
    rintro (zero | beyond | none)
    · rw [zero] at low; exact absurd low (by decide)
    · exact absurd high (Nat.not_le.2 beyond)
    · exact permitMask mask some_ none
  unfold permitTaken
  exact (if_neg (by simpa using awake)).trans (if_neg fields)

end

/-- The entry is replaced with PERMIT_CHANGED, and so the list stands to the end of the delivery. -/
theorem permitReplaced_ends {q : Part} (moves : Moves [.mode] (permitReplaced id mask p) q) :
    q.dor.permits = p.dor.permits.map (fun x => if x.platform = id then permitOf id mask p else x)
    ∧ Safety.posts p q [(.permitChanged, arg2 id.toNat 2, p.odo.pos)] := by
  let listed := p.withDor { p.dor with permits := p.dor.permits.map fun x => if x.platform == id then permitOf id mask p else x }
  have after : Moves doorMay' (postPermit id 2 listed) q :=
    (afterDoors_moves p (by decide) (by decide) (withdrawPermit_moves' (withdrawPermit_moves' (.refl _)))).trans (moves.mono (by decide))
  refine ⟨(after.frame.permits (by decide)).trans ?_, posts_of_evq (posts_post (p := listed) (posts_nil (after.frame.pre (by decide)))) rfl rfl⟩
  show p.dor.permits.map _ = _
  simp only [beq_iff_eq]

theorem permitAdded_ends {q : Part} (moves : Moves [.mode] (permitAdded id mask p) q) :
    q.dor.permits = p.dor.permits ++ [permitOf id mask p] ∧ Safety.posts p q [(.permitChanged, arg2 id.toNat 1, p.odo.pos)] :=
  ⟨moves.frame.permits (by decide),
    posts_of_evq (posts_post (p := p.withDor { p.dor with permits := p.dor.permits ++ [permitOf id mask p] }) (posts_nil (moves.frame.pre (by decide)))) rfl rfl⟩

end

/-- A delivered PERMIT (R133). -/
theorem permit_ends {src : Sender} {id mask : Byte} {s : State} (taken : Safety.delivered src s) :
    ∃ t, exec (.permit src id mask) s = .next t
        ∧ (s.part.mod.mode = .stabled → t.part.dor.permits = s.part.dor.permits ∧ Safety.postsLast .messageArrived (arg2 5 2) t.part)
        ∧ (s.part.mod.mode ≠ .stabled → 1 ≤ id.toNat → id.toNat ≤ 63 → mask.getLsbD 0 = true ∨ mask.getLsbD 1 = true →
            ((s.part.permit? id).isSome = true →
              t.part.dor.permits = s.part.dor.permits.map (fun x =>
                if x.platform = id then ⟨id, mask.getLsbD 0, mask.getLsbD 1, s.part.now⟩ else x)
              ∧ Safety.posts s.part t.part
                  (Safety.linkEvents src s.part ++ [(.permitChanged, arg2 id.toNat 2, s.part.odo.pos)]))
            ∧ (s.part.permit? id = none → s.part.dor.permits.length < 4 →
              t.part.dor.permits = s.part.dor.permits ++ [⟨id, mask.getLsbD 0, mask.getLsbD 1, s.part.now⟩]
              ∧ Safety.posts s.part t.part
                  (Safety.linkEvents src s.part ++ [(.permitChanged, arg2 id.toNat 1, s.part.odo.pos)]))
            ∧ (s.part.permit? id = none → 4 ≤ s.part.dor.permits.length →
              t.part.dor.permits = s.part.dor.permits ∧ Safety.postsLast .messageArrived (arg2 5 2) t.part)) := by
  let p := linkHeard src s.part
  obtain ⟨now, mod, dor, odo, -⟩ := linkHeard_rest src s.part
  have listed : p.permit? id = s.part.permit? id := by unfold Part.permit?; rw [dor]
  have entry : permitOf id mask p = ⟨id, mask.getLsbD 0, mask.getLsbD 1, s.part.now⟩ := by unfold permitOf; rw [now]
  refine message_acts (permitTaken src.station id mask) taken _ fun t moves _ last => ⟨fun stabled => ?_, fun awake low high some_ => ⟨fun held => ?_, fun free room => ?_, fun free full => ?_⟩⟩
  · rw [permitTaken_stabled (by rw [mod]; exact stabled)] at moves last
    exact ⟨(moves.frame.permits (by decide)).trans (by rw [permitRefused_permits, dor]), last⟩
  all_goals have good := permitTaken_good (station := src.station) (p := p) (by rw [mod]; exact awake) low high some_
  · rw [good.trans (if_pos (by rw [listed]; exact held))] at moves
    obtain ⟨list, posted⟩ := permitReplaced_ends moves
    rw [entry, dor] at list
    rw [odo] at posted
    exact ⟨list, posts_heard src posted⟩
  · rw [good.trans ((if_neg (by rw [listed, free]; decide)).trans (if_neg (by rw [dor]; exact Nat.not_le.2 room)))] at moves
    obtain ⟨list, posted⟩ := permitAdded_ends moves
    rw [entry, dor] at list
    rw [odo] at posted
    exact ⟨list, posts_heard src posted⟩
  · rw [good.trans ((if_neg (by rw [listed, free]; decide)).trans (if_pos (by rw [dor]; exact full)))] at moves last
    exact ⟨(moves.frame.permits (by decide)).trans (by rw [permitRefused_permits, dor]), last⟩

/-- A delivered WITHDRAW (R134). -/
theorem withdraw_ends {src : Sender} {id : Byte} {s : State} (taken : Safety.delivered src s) :
    ∃ t, exec (.withdraw src id) s = .next t
        ∧ ((s.part.permit? id).isSome = true → Safety.permitGone id s.part t.part
            ∧ Safety.posts s.part t.part
                (Safety.linkEvents src s.part ++ [(.permitChanged, arg2 id.toNat 4, s.part.odo.pos)]))
        ∧ (s.part.permit? id = none → t.part.dor.permits = s.part.dor.permits
            ∧ Safety.posts s.part t.part
                (Safety.linkEvents src s.part ++ [(.permitChanged, arg2 id.toNat 7, s.part.odo.pos)])) := by
  let p := linkHeard src s.part
  obtain ⟨-, -, dor, odo, -⟩ := linkHeard_rest src s.part
  have listed : p.permit? id = s.part.permit? id := by unfold Part.permit?; rw [dor]
  refine message_acts (fun p => (withdrawTaken id p, .acted)) taken _ fun t moves _ _ => ⟨fun held => ?_, fun free => ?_⟩
  · rw [show withdrawTaken id p = removePermit id 4 p from if_pos (by rw [listed]; exact held)] at moves
    obtain ⟨gone, posted⟩ := removePermit_spec id 4 p t.part (moves.mono (by decide))
    have sides : ∀ side, p.side side = s.part.side side := fun side => by unfold Part.side; rw [dor]
    unfold Safety.permitGone at gone
    simp only [sides, show p.dor.permits = s.part.dor.permits by rw [dor]] at gone
    rw [odo] at posted
    exact ⟨gone, posts_heard src posted⟩
  · rw [show withdrawTaken id p = postPermit id 7 p from if_neg (by rw [listed, free]; decide)] at moves
    have posted := posts_post (p := p) (k := .permitChanged) (posts_nil (moves.frame.pre (by decide)))
    rw [odo] at posted
    exact ⟨(moves.frame.permits (by decide)).trans (congrArg Dor.permits dor), posts_heard src posted⟩

/-- Settles O39. -/
theorem permitList : Obligations.PermitList := by
  unfold Obligations.PermitList
  intro src id s
  refine ⟨fun mask taken => permit_ends taken, withdraw_ends, fun m running held passed => ?_⟩
  refine partRow_ends _ s _ fun t ends _ _ => ?_
  have expires : permitExpiry id s.part = removePermit id 3 s.part := by
    unfold permitExpiry
    rw [held]
    exact if_pos passed
  rw [live_of_running _ running, expires] at ends
  exact removePermit_spec id 3 s.part t.part (ends ▸ finish_moves s.part (by decide) (.refl _))

end Sys2Proof.Machine
end

section
/-! The restrictions: RESTRICT and LIFT by radio, ADD and REMOVE RESTRICTION by the host (R80 to R82). -/

namespace Sys2Proof.Machine

/-! ### How an addition is judged (R80, R81) -/

section
variable {a : Addition} {o : Origin} {l : List Restriction} {r x : Restriction}

/-- The fields of an addition are no restriction's. -/
def BadFields (a : Addition) : Prop := a.id = 0 ∨ 255 < a.id ∨ a.stop ≤ a.start ∨ 1048575 < a.stop ∨ 4095 < a.limit

theorem judgeAddition_badFields (bad : BadFields a) : judgeAddition a o l = .error .badParam := by
  unfold judgeAddition
  split
  · rfl
  · exact if_pos bad

theorem judgeAddition_badDirs (none : Dirs.ofNat? a.dirs = none) : judgeAddition a o l = .error .badParam := by
  unfold judgeAddition
  simp only [none]

/-- The addition that asks for a restriction. -/
def askedBy (r : Restriction) : Addition := ⟨r.id.toNat, r.start, r.stop, r.limit, r.dirs.code⟩

/-- An addition asks for a good restriction, or R81 refuses it. -/
theorem askedBy_or_bad (a : Addition) (o : Origin) :
    (∃ r : Restriction, r.origin = o ∧ Safety.goodFields r ∧ a = askedBy r) ∨ BadFields a ∨ Dirs.ofNat? a.dirs = none := by
  cases dirs : Dirs.ofNat? a.dirs with
  | none => exact .inr (.inr rfl)
  | some d =>
    by_cases bad : BadFields a
    · exact .inr (.inl bad)
    · have code : a.dirs = d.code := by
        unfold Dirs.ofNat? at dirs
        split at dirs <;> cases dirs <;> assumption
      unfold BadFields at bad
      have number : (BitVec.ofNat 8 a.id).toNat = a.id := by rw [BitVec.toNat_ofNat]; omega
      refine .inl ⟨⟨BitVec.ofNat 8 a.id, o, a.start, a.stop, a.limit, d⟩, rfl, ⟨fun zero => bad (.inl ?_), ?_⟩, ?_⟩
      · rw [← number, show BitVec.ofNat 8 a.id = 0 from zero]; rfl
      · show a.start < a.stop ∧ a.stop ≤ 1048575 ∧ a.limit ≤ 4095; omega
      · unfold askedBy; rw [number, ← code]

section
variable (good : Safety.goodFields r)
include good

theorem judgeAddition_adds (free : findRestriction r.id.toNat l = none) (room : l.length < 8) :
    judgeAddition (askedBy r) r.origin l = .ok (r, false) := by
  rw [judge_good r (askedBy r) l rfl good, free]
  exact if_neg (Nat.not_le.2 room)

theorem judgeAddition_full (free : findRestriction r.id.toNat l = none) (full : 8 ≤ l.length) :
    judgeAddition (askedBy r) r.origin l = .error .full := by
  rw [judge_good r (askedBy r) l rfl good, free]
  exact if_pos full

variable (held : findRestriction r.id.toNat l = some x)
include held

theorem judgeAddition_replaces (same : x.origin.sameKind r.origin = true) : judgeAddition (askedBy r) r.origin l = .ok (r, true) := by
  rw [judge_good r (askedBy r) l rfl good, held]
  exact if_pos same

theorem judgeAddition_owned (other : x.origin.sameKind r.origin = false) : judgeAddition (askedBy r) r.origin l = .error .owned := by
  rw [judge_good r (askedBy r) l rfl good, held]
  exact if_neg (by rw [other]; decide)

end
end

/-! ### RESTRICT and LIFT -/

section
variable {src : Sender} {station : Byte} {a : Addition} {s : State} {r : Restriction} {b : Bool} {q : Part}

/-- A delivered RESTRICT that is taken. -/
theorem restrict_placed (judged : judgeAddition a (.radio src.station) s.part.ssu.restrictions = .ok (r, b))
    (moves : Moves [.mode] (restrictTaken src.station a (linkHeard src s.part)).1 q) :
    Safety.placed r s.part q
    ∧ Safety.posts s.part q (Safety.linkEvents src s.part ++ [(.tsrChanged, arg2 r.id.toNat (if b then 2 else 1), s.part.odo.pos)]) := by
  obtain ⟨-, -, -, odo, ssu, -⟩ := linkHeard_rest src s.part
  have taken : restrictTaken src.station a (linkHeard src s.part) = (placeRestriction r b (linkHeard src s.part), .acted) := by
    unfold restrictTaken
    rw [ssu, judged]
  rw [taken] at moves
  obtain ⟨placed, posted⟩ := place_spec r b (linkHeard src s.part)
  have event := posted q (moves.frame.pre (by decide))
  rw [odo] at event
  rw [ssu] at placed
  refine ⟨fun x => ?_, posts_heard src event⟩
  rw [moves.frame.restr (by decide)]
  exact placed x

/-- A delivered RESTRICT that is refused leaves the list. -/
theorem restrict_refused {e : Reason} (judged : judgeAddition a (.radio src.station) s.part.ssu.restrictions = .error e) :
    (restrictTaken src.station a (linkHeard src s.part)).1.ssu.restrictions = s.part.ssu.restrictions
    ∧ (restrictTaken src.station a (linkHeard src s.part)).2 = .refused := by
  obtain ⟨-, -, -, -, ssu, -⟩ := linkHeard_rest src s.part
  have taken : restrictTaken src.station a (linkHeard src s.part)
      = (post .tsrChanged (arg2 a.id 5) (handRefusal src.station 3 a.id e (linkHeard src s.part)), .refused) := by
    unfold restrictTaken
    rw [ssu, judged]
  rw [taken]
  refine ⟨?_, rfl⟩
  have kept := (handRefusal_moves (H := []) src.station 3 a.id e (.refl (linkHeard src s.part))).frame.restr (by decide)
  exact kept.trans (congrArg Ssu.restrictions ssu)

/-- A delivered RESTRICT with good fields (R80). -/
theorem restrict_good (taken : Safety.delivered src s) (origin : r.origin = .radio src.station) (good : Safety.goodFields r) :
    ∃ t, exec (.restrict src r.id (BitVec.ofNat 24 r.start) (BitVec.ofNat 24 r.stop) (BitVec.ofNat 16 r.limit) (BitVec.ofNat 8 r.dirs.code)) s
        = .next t
      ∧ (Safety.idFree r.id s.part → s.part.ssu.restrictions.length < 8 →
          Safety.placed r s.part t.part
          ∧ Safety.posts s.part t.part (Safety.linkEvents src s.part ++ [(.tsrChanged, arg2 r.id.toNat 1, s.part.odo.pos)]))
      ∧ (∀ y x, findRestriction r.id.toNat s.part.ssu.restrictions = some x → x.origin = .radio y →
          Safety.placed r s.part t.part
          ∧ Safety.posts s.part t.part (Safety.linkEvents src s.part ++ [(.tsrChanged, arg2 r.id.toNat 2, s.part.odo.pos)]))
      ∧ ((∃ x, findRestriction r.id.toNat s.part.ssu.restrictions = some x ∧ x.origin = .host)
          ∨ (Safety.idFree r.id s.part ∧ 8 ≤ s.part.ssu.restrictions.length) →
          t.part.ssu.restrictions = s.part.ssu.restrictions ∧ Safety.postsLast .messageArrived (arg2 3 2) t.part) := by
  obtain ⟨-, order, bound, limit⟩ := id good
  have fields : (⟨r.id.toNat, (BitVec.ofNat 24 r.start).toNat, (BitVec.ofNat 24 r.stop).toNat, (BitVec.ofNat 16 r.limit).toNat,
      (BitVec.ofNat 8 r.dirs.code).toNat⟩ : Addition) = askedBy r := by
    unfold askedBy
    rw [BitVec.toNat_ofNat, BitVec.toNat_ofNat, BitVec.toNat_ofNat, BitVec.toNat_ofNat, Nat.mod_eq_of_lt (by omega), Nat.mod_eq_of_lt (by omega),
      Nat.mod_eq_of_lt (by omega), Nat.mod_eq_of_lt (by cases r.dirs <;> decide)]
  refine message_acts (restrictTaken src.station ⟨r.id.toNat, (BitVec.ofNat 24 r.start).toNat, (BitVec.ofNat 24 r.stop).toNat, (BitVec.ofNat 16 r.limit).toNat,
    (BitVec.ofNat 8 r.dirs.code).toNat⟩) taken _ fun t moves _ last => ?_
  rw [fields] at moves last
  refine ⟨fun free room => ?_, fun y x held radio => ?_, fun out => ?_⟩
  · exact restrict_placed (b := false) (origin ▸ judgeAddition_adds good ((idFree_iff _ _).1 free) room) moves
  · exact restrict_placed (b := true) (origin ▸ judgeAddition_replaces good held (by rw [radio, origin]; rfl)) moves
  · have judged : ∃ e, judgeAddition (askedBy r) (.radio src.station) s.part.ssu.restrictions = .error e := by
      rw [← origin]
      rcases out with ⟨x, held, host⟩ | ⟨free, full⟩
      · exact ⟨_, judgeAddition_owned good held (by rw [host, origin]; rfl)⟩
      · exact ⟨_, judgeAddition_full good ((idFree_iff _ _).1 free) full⟩
    obtain ⟨e, judged⟩ := judged
    obtain ⟨kept, refused⟩ := restrict_refused judged
    rw [refused] at last
    exact ⟨(moves.frame.restr (by decide)).trans kept, last⟩

/-- A delivered RESTRICT with bad fields (R81). -/
theorem restrict_bad {id : Byte} {start stop : BitVec 24} {limit : Half} {dirs : Byte} (taken : Safety.delivered src s)
    (bad : id = 0 ∨ stop.toNat ≤ start.toNat ∨ 1048575 < stop.toNat ∨ 4095 < limit.toNat ∨ dirs = 0 ∨ 3 < dirs.toNat) :
    ∃ t, exec (.restrict src id start stop limit dirs) s = .next t
        ∧ t.part.ssu.restrictions = s.part.ssu.restrictions ∧ Safety.postsLast .messageArrived (arg2 3 2) t.part := by
  have judged : judgeAddition ⟨id.toNat, start.toNat, stop.toNat, limit.toNat, dirs.toNat⟩ (.radio src.station) s.part.ssu.restrictions
      = .error .badParam := by
    rcases bad with zero | order | bound | high | none | beyond
    · exact judgeAddition_badFields (.inl (by rw [zero]; rfl))
    · exact judgeAddition_badFields (.inr (.inr (.inl order)))
    · exact judgeAddition_badFields (.inr (.inr (.inr (.inl bound))))
    · exact judgeAddition_badFields (.inr (.inr (.inr (.inr high))))
    · exact judgeAddition_badDirs (by rw [none]; rfl)
    · refine judgeAddition_badDirs ?_
      show Dirs.ofNat? dirs.toNat = Option.none
      unfold Dirs.ofNat?
      split <;> first | omega | rfl
  refine message_acts (restrictTaken src.station ⟨id.toNat, start.toNat, stop.toNat, limit.toNat, dirs.toNat⟩) taken _ fun t moves _ last => ?_
  obtain ⟨kept, refused⟩ := restrict_refused judged
  rw [refused] at last
  exact ⟨(moves.frame.restr (by decide)).trans kept, last⟩

/-- A delivered LIFT (R82). -/
theorem lift_ends {id : Byte} (taken : Safety.delivered src s) :
    ∃ t, exec (.lift src id) s = .next t
      ∧ (∀ y x, findRestriction id.toNat s.part.ssu.restrictions = some x → x.origin = .radio y →
          Safety.removed id s.part t.part ∧ Safety.postsLast .messageArrived (arg2 4 1) t.part
          ∧ Safety.posts s.part t.part (Safety.linkEvents src s.part ++ [(.tsrChanged, arg2 id.toNat 3, s.part.odo.pos)]))
      ∧ (∀ x, findRestriction id.toNat s.part.ssu.restrictions = some x → x.origin = .host →
          t.part.ssu.restrictions = s.part.ssu.restrictions ∧ Safety.postsLast .messageArrived (arg2 4 2) t.part)
      ∧ (Safety.idFree id s.part →
          t.part.ssu.restrictions = s.part.ssu.restrictions ∧ Safety.postsLast .messageArrived (arg2 4 1) t.part
          ∧ Safety.posts s.part t.part (Safety.linkEvents src s.part ++ [(.tsrChanged, arg2 id.toNat 4, s.part.odo.pos)])) := by
  let p := linkHeard src s.part
  obtain ⟨-, -, -, odo, ssu, -⟩ := linkHeard_rest src s.part
  refine message_acts (liftTaken src.station id) taken _ fun t moves _ last => ⟨fun y x held radio => ?_, fun x held host => ?_, fun free => ?_⟩
  · have lifted : liftTaken src.station id p = (dropRestriction id.toNat p, .acted) := by
      unfold liftTaken
      simp only [show p.ssu = s.part.ssu from ssu, held, radio]
    rw [lifted] at moves last
    obtain ⟨gone, posted⟩ := drop_spec id p
    have event := posted t.part (moves.frame.pre (by decide))
    rw [show p.odo = s.part.odo from odo] at event
    rw [show p.ssu = s.part.ssu from ssu] at gone
    refine ⟨fun x => ?_, last, posts_heard src event⟩
    rw [moves.frame.restr (by decide)]
    exact gone x
  · have refused : liftTaken src.station id p = (post .tsrChanged (arg2 id.toNat 5) (handRefusal src.station 4 id.toNat .owned p), .refused) := by
      unfold liftTaken
      simp only [show p.ssu = s.part.ssu from ssu, held, host]
    rw [refused] at moves last
    have kept := (handRefusal_moves (H := []) src.station 4 id.toNat .owned (.refl p)).frame.restr (by decide)
    exact ⟨(moves.frame.restr (by decide)).trans (kept.trans (congrArg Ssu.restrictions ssu)), last⟩
  · have missed : liftTaken src.station id p = (post .tsrChanged (arg2 id.toNat 4) p, .acted) := by
      unfold liftTaken
      simp only [show p.ssu = s.part.ssu from ssu, (idFree_iff _ _).1 free]
    rw [missed] at moves last
    have event := posts_post (p := p) (k := .tsrChanged) (posts_nil (moves.frame.pre (by decide)))
    rw [show p.odo = s.part.odo from odo] at event
    exact ⟨(moves.frame.restr (by decide)).trans (congrArg Ssu.restrictions ssu), last, posts_heard src event⟩

end

/-- Settles O42. -/
theorem restrictionsByRadio : Obligations.RestrictionsByRadio := by
  unfold Obligations.RestrictionsByRadio
  exact ⟨⟨fun _ _ _ taken origin good => restrict_good taken origin good, fun _ _ _ _ _ _ _ taken bad => restrict_bad taken bad⟩, fun _ _ _ taken => lift_ends taken⟩

/-! ### ADD RESTRICTION and REMOVE RESTRICTION -/

section
variable {work : Vector Word 7} {p : Part} {r : Restriction} {b : Bool}

/-- The addition of the parameter words (R81). -/
def additionWords (work : Vector Word 7) : Addition := ⟨param work 0, param work 1, param work 2, param work 3, param work 4⟩

theorem asksFor_iff : Safety.asksFor r work ↔ additionWords work = askedBy r := by
  unfold Safety.asksFor additionWords askedBy
  rw [Addition.mk.injEq]

theorem judgeAddRestriction_lockout (locked : p.mod.mode = .lockout) : judgeAddRestriction work p = (p, .no .lockout) := by
  unfold judgeAddRestriction
  rw [if_pos (by simpa using locked)]

theorem judgeRemoveRestriction_lockout (locked : p.mod.mode = .lockout) : judgeRemoveRestriction work p = (p, .no .lockout) := by
  unfold judgeRemoveRestriction
  exact if_pos (by simpa using locked)

theorem not_badId {id : Byte} (other : id ≠ 0) (number : param work 0 = id.toNat) : ¬ (param work 0 = 0 ∨ 255 < param work 0) := by
  rw [number]
  rintro (zero | beyond)
  · exact other (BitVec.eq_of_toNat_eq zero)
  · have := id.isLt; omega

section
variable (running : p.mod.mode ≠ .lockout)
include running

theorem judgeAddRestriction_refuses {e : Reason} (judged : judgeAddition (additionWords work) .host p.ssu.restrictions = .error e) :
    judgeAddRestriction work p = (p, .no e) := by
  unfold additionWords at judged
  unfold judgeAddRestriction
  rw [if_neg (by simpa using running), judged]

theorem judgeAddRestriction_places (judged : judgeAddition (additionWords work) .host p.ssu.restrictions = .ok (r, b)) :
    judgeAddRestriction work p = (placeRestriction r b p, .take (restrictionCount (placeRestriction r b p))) := by
  unfold additionWords at judged
  unfold judgeAddRestriction
  rw [if_neg (by simpa using running), judged]

theorem judgeRemoveRestriction_badParam (bad : param work 0 = 0 ∨ 255 < param work 0) : judgeRemoveRestriction work p = (p, .no .badParam) := by
  unfold judgeRemoveRestriction
  exact (if_neg (by simpa using running)).trans (if_pos bad)

section
variable {id : Byte} (other : id ≠ 0) (number : param work 0 = id.toNat)
include other number

theorem judgeRemoveRestriction_free (free : findRestriction id.toNat p.ssu.restrictions = none) : judgeRemoveRestriction work p = (p, .no .badParam) := by
  unfold judgeRemoveRestriction
  refine (if_neg (by simpa using running)).trans ((if_neg (not_badId other number)).trans ?_)
  rw [number, free]

theorem judgeRemoveRestriction_owned {x : Restriction} {y : Byte} (held : findRestriction id.toNat p.ssu.restrictions = some x) (radio : x.origin = .radio y) :
    judgeRemoveRestriction work p = (p, .no .owned) := by
  unfold judgeRemoveRestriction
  refine (if_neg (by simpa using running)).trans ((if_neg (not_badId other number)).trans ?_)
  simp only [number, held, radio]

theorem judgeRemoveRestriction_drops {x : Restriction} (held : findRestriction id.toNat p.ssu.restrictions = some x) (host : x.origin = .host) :
    judgeRemoveRestriction work p = (dropRestriction id.toNat p, .take (restrictionCount (dropRestriction id.toNat p))) := by
  unfold judgeRemoveRestriction
  refine (if_neg (by simpa using running)).trans ((if_neg (not_badId other number)).trans ?_)
  simp only [number, held, host]

end
end
end

section
variable {kind : Byte} {judge : Judge} {u : Trigger} {s : State}

/-- A refused order leaves the restrictions. -/
theorem refuse_restrictions {e : Reason} (judged : Safety.triggerJudged u s)
    (refused : judge u.slot (Safety.workingCopy u s) (received kind u s) = (received kind u s, .no e)) :
    ∃ t, hostRow (triggerWith kind judge u) s = .next t
      ∧ (t.part.ssu.restrictions = s.part.ssu.restrictions ∧ Safety.orderRefused kind u e 0 s t) := by
  refine order_refuse judged (r := e) (w := 0) refused _ fun t ⟨o, ends⟩ refused _ => ⟨?_, refused⟩
  exact (order_rest ends).2.restr (by decide)

/-- An order that changes the restrictions answers with their number. -/
theorem take_restrictions {q : Part} (judged : Safety.triggerJudged u s)
    (taken : judge u.slot (Safety.workingCopy u s) (received kind u s) = (q, .take (restrictionCount q))) (P : State → Prop)
    (then_ : ∀ t, t.part.ssu.restrictions = q.ssu.restrictions → q.evq.queue <+: t.part.evq.queue
      → Safety.orderDone kind u (BitVec.ofNat 32 t.part.ssu.restrictions.length) s t → P t) :
    ∃ t, hostRow (triggerWith kind judge u) s = .next t ∧ P t := by
  refine order_take judged taken _ fun t ⟨o, ends⟩ done _ => ?_
  have frame := (order_rest ends).2
  have list : t.part.ssu.restrictions = q.ssu.restrictions := frame.restr (by decide)
  refine then_ t list (frame.pre (by decide)) ?_
  rw [list]
  exact done

end

section
variable {u : Trigger} {s : State} (judged : Safety.triggerJudged u s) (running : s.part.mod.mode ≠ .lockout)
include judged running

/-- ADD RESTRICTION places a restriction. -/
theorem addRestriction_places {r : Restriction} {b : Bool}
    (good : judgeAddition (additionWords (Safety.workingCopy u s)) .host s.part.ssu.restrictions = .ok (r, b)) (P : State → Prop)
    (then_ : ∀ t, (Safety.placed r s.part t.part ∧ Safety.orderDone 12 u (BitVec.ofNat 32 t.part.ssu.restrictions.length) s t
            ∧ Safety.posts s.part t.part [(.tsrChanged, arg2 r.id.toNat (if b then 2 else 1), s.part.odo.pos)]) → P t) :
    ∃ t, exec (.addRestriction u) s = .next t ∧ P t := by
  let p := received 12 u s
  obtain ⟨placed, posted⟩ := place_spec r b p
  refine take_restrictions (judge := fun _ => judgeAddRestriction) judged (judgeAddRestriction_places (p := p) running good) _ fun t list queue done => then_ t ⟨fun x => ?_, done, posted t.part queue⟩
  rw [list]
  exact placed x

/-- ADD RESTRICTION that asks for a good restriction (R80). -/
theorem addRestriction_good {r : Restriction} (origin : r.origin = .host) (good : Safety.goodFields r) (asks : Safety.asksFor r (Safety.workingCopy u s)) :
    ∃ t, exec (.addRestriction u) s = .next t
        ∧ (Safety.idFree r.id s.part → s.part.ssu.restrictions.length < 8 →
            Safety.placed r s.part t.part ∧ Safety.orderDone 12 u (BitVec.ofNat 32 t.part.ssu.restrictions.length) s t
            ∧ Safety.posts s.part t.part [(.tsrChanged, arg2 r.id.toNat 1, s.part.odo.pos)])
        ∧ (∀ x, findRestriction r.id.toNat s.part.ssu.restrictions = some x → x.origin = .host →
            Safety.placed r s.part t.part ∧ Safety.orderDone 12 u (BitVec.ofNat 32 t.part.ssu.restrictions.length) s t
            ∧ Safety.posts s.part t.part [(.tsrChanged, arg2 r.id.toNat 2, s.part.odo.pos)])
        ∧ (∀ y x, findRestriction r.id.toNat s.part.ssu.restrictions = some x → x.origin = .radio y →
            t.part.ssu.restrictions = s.part.ssu.restrictions ∧ Safety.orderRefused 12 u .owned 0 s t)
        ∧ (Safety.idFree r.id s.part → 8 ≤ s.part.ssu.restrictions.length →
            t.part.ssu.restrictions = s.part.ssu.restrictions ∧ Safety.orderRefused 12 u .full 0 s t) := by
  let p := received 12 u s
  have words := asksFor_iff.1 asks
  rw [idFree_iff]
  cases held : findRestriction r.id.toNat s.part.ssu.restrictions with
  | none =>
    by_cases room : s.part.ssu.restrictions.length < 8
    · refine addRestriction_places judged running (b := false) (by rw [words, ← origin]; exact judgeAddition_adds good held room) _ fun t ends => ?_
      exact ⟨fun _ _ => ends, nofun, nofun, fun _ full => absurd room (Nat.not_lt.2 full)⟩
    · have full : judgeAddition (additionWords (Safety.workingCopy u s)) .host p.ssu.restrictions = .error .full := by
        rw [words, ← origin]; exact judgeAddition_full good held (Nat.not_lt.1 room)
      obtain ⟨t, ends, refused⟩ := refuse_restrictions (kind := 12) (judge := fun _ => judgeAddRestriction) judged (judgeAddRestriction_refuses (p := p) running full)
      exact ⟨t, ends, fun _ more => absurd more room, nofun, nofun, fun _ _ => refused⟩
  | some x =>
    cases whose : x.origin with
    | host =>
      refine addRestriction_places judged running (b := true) (by rw [words, ← origin]; exact judgeAddition_replaces good held (by rw [whose, origin]; rfl)) _ fun t ends => ?_
      refine ⟨nofun, fun y same host => ends, fun z y same radio => ?_, nofun⟩
      cases same
      exact absurd (whose.symm.trans radio) (by simp)
    | radio y =>
      have owned : judgeAddition (additionWords (Safety.workingCopy u s)) .host p.ssu.restrictions = .error .owned := by
        rw [words, ← origin]; exact judgeAddition_owned good held (by rw [whose, origin]; rfl)
      obtain ⟨t, ends, refused⟩ := refuse_restrictions (kind := 12) (judge := fun _ => judgeAddRestriction) judged (judgeAddRestriction_refuses (p := p) running owned)
      refine ⟨t, ends, nofun, fun z same host => ?_, fun z y same radio => refused, nofun⟩
      cases same
      exact absurd (whose.symm.trans host) (by simp)

/-- ADD RESTRICTION that asks for no restriction (R81). -/
theorem addRestriction_bad (bad : ∀ r : Restriction, r.origin = .host → Safety.goodFields r → ¬ Safety.asksFor r (Safety.workingCopy u s)) :
    ∃ t, exec (.addRestriction u) s = .next t ∧ t.part.ssu.restrictions = s.part.ssu.restrictions ∧ Safety.orderRefused 12 u .badParam 0 s t := by
  let p := received 12 u s
  have refused : judgeAddition (additionWords (Safety.workingCopy u s)) .host p.ssu.restrictions = .error .badParam := by
    rcases askedBy_or_bad (additionWords (Safety.workingCopy u s)) .host with ⟨r, origin, good, asks⟩ | fields | dirs
    · exact absurd (asksFor_iff.2 asks) (bad r origin good)
    · exact judgeAddition_badFields fields
    · exact judgeAddition_badDirs dirs
  exact refuse_restrictions (kind := 12) (judge := fun _ => judgeAddRestriction) judged (judgeAddRestriction_refuses (p := p) running refused)

/-- REMOVE RESTRICTION with an id (R82). -/
theorem removeRestriction_good {id : Byte} (other : id ≠ 0) (number : param (Safety.workingCopy u s) 0 = id.toNat) :
    ∃ t, exec (.removeRestriction u) s = .next t
        ∧ (∀ x, findRestriction id.toNat s.part.ssu.restrictions = some x → x.origin = .host →
            Safety.removed id s.part t.part ∧ Safety.orderDone 13 u (BitVec.ofNat 32 t.part.ssu.restrictions.length) s t
            ∧ Safety.posts s.part t.part [(.tsrChanged, arg2 id.toNat 3, s.part.odo.pos)])
        ∧ (∀ y x, findRestriction id.toNat s.part.ssu.restrictions = some x → x.origin = .radio y →
            t.part.ssu.restrictions = s.part.ssu.restrictions ∧ Safety.orderRefused 13 u .owned 0 s t)
        ∧ (Safety.idFree id s.part →
            t.part.ssu.restrictions = s.part.ssu.restrictions ∧ Safety.orderRefused 13 u .badParam 0 s t) := by
  let p := received 13 u s
  rw [idFree_iff]
  cases held : findRestriction id.toNat s.part.ssu.restrictions with
  | none =>
    obtain ⟨t, ends, refused⟩ := refuse_restrictions (kind := 13) (judge := fun _ => judgeRemoveRestriction) judged
      (judgeRemoveRestriction_free (p := p) running other number held)
    exact ⟨t, ends, nofun, nofun, fun _ => refused⟩
  | some x =>
    cases whose : x.origin with
    | host =>
      obtain ⟨gone, posted⟩ := drop_spec id p
      refine take_restrictions (kind := 13) (judge := fun _ => judgeRemoveRestriction) judged (judgeRemoveRestriction_drops (p := p) running other number held whose) _
        fun t list queue done => ⟨fun y same host => ⟨fun x => ?_, done, posted t.part queue⟩, fun z y same radio => ?_, nofun⟩
      · rw [list]
        exact gone x
      · cases same
        exact absurd (whose.symm.trans radio) (by simp)
    | radio y =>
      obtain ⟨t, ends, refused⟩ := refuse_restrictions (kind := 13) (judge := fun _ => judgeRemoveRestriction) judged
        (judgeRemoveRestriction_owned (p := p) running other number held whose)
      refine ⟨t, ends, fun z same host => ?_, fun z y same radio => refused, nofun⟩
      cases same
      exact absurd (whose.symm.trans host) (by simp)

end

/-- Settles O43. -/
theorem restrictionsByHost : Obligations.RestrictionsByHost := by
  unfold Obligations.RestrictionsByHost
  intro u s judged
  let adding := received 12 u s
  let removing := received 13 u s
  refine ⟨fun locked => ⟨?_, ?_⟩, addRestriction_bad judged, fun running bad => ?_, fun r running origin good asks => addRestriction_good judged running origin good asks,
    fun id running other number => removeRestriction_good judged running other number⟩
  · exact refuse_restrictions (kind := 12) (judge := fun _ => judgeAddRestriction) judged (judgeAddRestriction_lockout (p := adding) locked)
  · exact refuse_restrictions (kind := 13) (judge := fun _ => judgeRemoveRestriction) judged (judgeRemoveRestriction_lockout (p := removing) locked)
  · exact refuse_restrictions (kind := 13) (judge := fun _ => judgeRemoveRestriction) judged (judgeRemoveRestriction_badParam (p := removing) running bad)

end Sys2Proof.Machine
end

section
/-! E_STOP and E_RELEASE (R60, R161, R162), texts (R164, R169), the loss of the link (R147) and REPORTs (R163, R166, R167). -/

namespace Sys2Proof.Machine

/-! ### A message that leaves the car mode -/

/-- A message whose act calls for no return to STAND: its act, and MESSAGE_ARRIVED. -/
theorem message_still {src : Sender} {kind : Nat} (act : Part → Part × MessageOutcome) {s : State} (taken : Safety.delivered src s)
    (still : Safety.standDone (act (linkHeard src s.part)).1) (P : State → Prop)
    (then_ : ∀ t : State, (∀ d, t.part.entry d = (act (linkHeard src s.part)).1.entry d) → (act (linkHeard src s.part)).1.evq.queue <+: t.part.evq.queue
      → Safety.postsLast .messageArrived (arg2 kind (act (linkHeard src s.part)).2.code) t.part → P t) :
    ∃ t, partRow (messageRow src kind act) s = .next t ∧ P t := by
  refine message_ends taken (q := (act (linkHeard src s.part)).1) (o := (act (linkHeard src s.part)).2) rfl P fun t ⟨g, ends⟩ _ _ => ?_
  obtain ⟨moves, -, last⟩ := message_rest ends
  rw [autoStand_of (standDone_eq still)] at ends
  exact then_ t (fun d => by rw [ends]; rfl) (moves.frame.pre (by decide)) last

theorem linkHeard_entry (src : Sender) (p : Part) (d : DemandSource) : (linkHeard src p).entry d = p.entry d := by
  obtain ⟨e, heard⟩ := linkHeard_spec src p
  rw [heard]
  rfl

theorem linkHeard_standDone {src : Sender} {p : Part} (stand : Safety.standDone p) : Safety.standDone (linkHeard src p) := by
  obtain ⟨e, heard⟩ := linkHeard_spec src p
  rw [heard]
  exact stand

/-! ### E_STOP and E_RELEASE -/

section
variable {src : Sender} {s : State} (taken : Safety.delivered src s)
include taken

theorem eStop_ends :
    ∃ t, exec (.eStop src) s = .next t
      ∧ Safety.latchedAt .radio .emergency t.part ∧ Safety.flagged .radio t.part
      ∧ Safety.posts s.part t.part (Safety.linkEvents src s.part ++ [(.eStop, BitVec.ofNat 16 src.station.toNat, s.part.odo.pos)]) := by
  obtain ⟨-, -, -, odo, -⟩ := linkHeard_rest src s.part
  refine message_acts (eStopTaken src.station) taken _ fun t moves _ _ => ?_
  have posted : Moves [.mode, .ord] (post .eStop (BitVec.ofNat 16 src.station.toNat) (linkHeard src s.part)) t.part :=
    (latch_moves .radio .emergency 1 (by decide) (by decide) (by decide) (.refl _)).trans (moves.mono (by decide))
  have events := posts_post (posts_nil (posted.frame.pre (by decide)))
  rw [odo] at events
  exact ⟨latched_after (latch_latched .radio .emergency 1 (by decide) _) (by decide) moves (by decide),
    flagged_moves (flagged_post _ _ _ _ rfl) posted (by decide), posts_heard src events⟩

theorem eRelease_clears (stand : Safety.standDone s.part) (still : s.part.odo.standstill = true) (latched : (s.part.entry .radio).latched = true) :
    ∃ t, exec (.eRelease src) s = .next t
      ∧ (t.part.entry .radio).latched = false ∧ (t.part.entry .radio).stage = .released
      ∧ Safety.postsLast .messageArrived (arg2 8 1) t.part
      ∧ Safety.posts s.part t.part (Safety.linkEvents src s.part ++ [(.demandCleared, arg2 9 0, (s.part.entry .radio).setPos)]) := by
  let p := linkHeard src s.part
  obtain ⟨-, mod, -, odo, -⟩ := linkHeard_rest src s.part
  have entry : p.entry .radio = s.part.entry .radio := linkHeard_entry src s.part .radio
  obtain ⟨unlatched, released, requested, posted⟩ := clearLatch_spec .radio .released 0 p
  have acts : eReleaseTaken src.station p = (clearLatch .radio .released 0 p, .acted) := by
    unfold eReleaseTaken
    rw [if_pos (by rw [show p.odo = s.part.odo from odo]; exact still), if_pos (by rw [entry]; exact latched)]
  have away : s.part.mod.mode ≠ .run := fun run => stand ⟨run, still, List.any_eq_true.2 ⟨_, Vector.mem_toList_iff.2 (Vector.getElem_mem _), latched⟩⟩
  refine message_still (eReleaseTaken src.station) taken (by
    rw [show eReleaseTaken src.station (linkHeard src s.part) = _ from acts]
    exact fun h => away (((congrArg Mod.mode (requested.mod.trans mod)).symm).trans h.1)) _ fun t entries queue last => ?_
  rw [show eReleaseTaken src.station (linkHeard src s.part) = _ from acts] at entries queue last
  refine ⟨by rw [entries]; exact unlatched, by rw [entries]; exact released, last, posts_heard src ?_⟩
  have event := posted t.part queue
  rw [entry] at event
  exact event

theorem eRelease_nothing (stand : Safety.standDone s.part) (still : s.part.odo.standstill = true) (free : (s.part.entry .radio).latched = false) :
    ∃ t, exec (.eRelease src) s = .next t
      ∧ (t.part.entry .radio).latched = false ∧ Safety.postsLast .messageArrived (arg2 8 3) t.part := by
  let p := linkHeard src s.part
  obtain ⟨-, -, -, odo, -⟩ := linkHeard_rest src s.part
  have entry : p.entry .radio = s.part.entry .radio := linkHeard_entry src s.part .radio
  have acts : eReleaseTaken src.station p = (p, .ignored) := by
    unfold eReleaseTaken
    rw [if_pos (by rw [show p.odo = s.part.odo from odo]; exact still), if_neg (by rw [entry, free]; decide)]
  refine message_still (eReleaseTaken src.station) taken (by
    rw [show eReleaseTaken src.station (linkHeard src s.part) = _ from acts]; exact linkHeard_standDone stand) _ fun t entries _ last => ?_
  rw [show eReleaseTaken src.station (linkHeard src s.part) = _ from acts] at entries last
  exact ⟨by rw [entries]; exact (congrArg Entry.latched entry).trans free, last⟩

theorem eRelease_ignored (stand : Safety.standDone s.part) (moving : s.part.odo.standstill = false) :
    ∃ t, exec (.eRelease src) s = .next t
      ∧ t.part.entry .radio = s.part.entry .radio ∧ Safety.postsLast .messageArrived (arg2 8 3) t.part
      ∧ Safety.posts s.part t.part (Safety.linkEvents src s.part ++ [(.eReleaseIgnored, BitVec.ofNat 16 src.station.toNat, s.part.odo.pos)]) := by
  let p := linkHeard src s.part
  obtain ⟨-, -, -, odo, -⟩ := linkHeard_rest src s.part
  have acts : eReleaseTaken src.station p = (post .eReleaseIgnored (BitVec.ofNat 16 src.station.toNat) p, .ignored) := by
    unfold eReleaseTaken
    rw [if_neg (by rw [show p.odo = s.part.odo from odo, moving]; decide)]
  refine message_still (eReleaseTaken src.station) taken (by
    rw [show eReleaseTaken src.station (linkHeard src s.part) = _ from acts]; exact linkHeard_standDone stand) _ fun t entries queue last => ?_
  rw [show eReleaseTaken src.station (linkHeard src s.part) = _ from acts] at entries queue last
  have event := posts_post (posts_nil queue)
  rw [show p.odo = s.part.odo from odo] at event
  exact ⟨(entries _).trans (linkHeard_entry src s.part .radio), last, posts_heard src event⟩

end

/-- Settles O44. -/
theorem emergencyStops : Obligations.EmergencyStops := by
  unfold Obligations.EmergencyStops
  intro src s taken
  refine ⟨eStop_ends taken, fun stand => ?_⟩
  by_cases still : s.part.odo.standstill = true
  · cases latched : (s.part.entry .radio).latched with
    | true =>
      obtain ⟨t, ends, cleared⟩ := eRelease_clears taken stand still latched
      exact ⟨t, ends, fun _ _ => cleared, nofun, fun moving => absurd (still.symm.trans moving) (by decide)⟩
    | false =>
      obtain ⟨t, ends, nothing⟩ := eRelease_nothing taken stand still latched
      exact ⟨t, ends, nofun, fun _ _ => nothing, fun moving => absurd (still.symm.trans moving) (by decide)⟩
  · obtain ⟨t, ends, ignored⟩ := eRelease_ignored taken stand (by simpa using still)
    exact ⟨t, ends, fun h => absurd h still, fun h => absurd h still, fun _ => ignored⟩

/-! ### TEXT and SEND TEXT -/

section
variable {src : Sender} {bytes : List Byte} {p : Part}

theorem textTaken_stabled (stabled : p.mod.mode = .stabled) : textTaken src bytes p = (dropText p, .dropped) := by
  unfold textTaken
  exact if_pos (by simpa using stabled)

theorem textTaken_full (awake : p.mod.mode ≠ .stabled) (full : 8 ≤ p.msg.mailbox.length) :
    textTaken src bytes p = (handRefusal src.station 11 src.sequence.toNat .full (dropText p), .refused) := by
  unfold textTaken
  exact (if_neg (by simpa using awake)).trans (if_pos full)

theorem textTaken_joins (awake : p.mod.mode ≠ .stabled) (room : p.msg.mailbox.length < 8) :
    textTaken src bytes p = (p.withMsg { p.msg with
      serial := nextSerial p.msg.serial
      mailbox := p.msg.mailbox ++ [⟨src.station, src.sequence, bytes, p.now, nextSerial p.msg.serial⟩] }, .acted) := by
  unfold textTaken
  exact (if_neg (by simpa using awake)).trans (if_neg (Nat.not_le.2 room))

end

theorem offer_msg (f : TxFrame) (q : Part) : (offer f q).msg = q.msg := by rw [offer_radio]; rfl

/-- A delivered TEXT (R164). -/
theorem text_ends {src : Sender} {bytes : List Byte} {s : State} (taken : Safety.delivered src s) :
    ∃ t, exec (.text src bytes) s = .next t
      ∧ (s.part.mod.mode ≠ .stabled → s.part.msg.mailbox.length < 8 →
          t.part.msg.serial = (if s.part.msg.serial = 0xFFFF then 1 else s.part.msg.serial + 1)
          ∧ t.part.msg.mailbox = s.part.msg.mailbox ++ [⟨src.station, src.sequence, bytes, s.part.now, t.part.msg.serial⟩]
          ∧ Safety.postsLast .messageArrived (arg2 11 1) t.part)
      ∧ (s.part.mod.mode = .stabled ∨ 8 ≤ s.part.msg.mailbox.length →
          t.part.msg.mailbox = s.part.msg.mailbox ∧ t.part.msg.serial = s.part.msg.serial
          ∧ t.part.msg.textDrops = sat16 s.part.msg.textDrops
          ∧ Safety.postsLast .messageArrived (arg2 11 (if s.part.mod.mode = .stabled then 4 else 2)) t.part) := by
  let p := linkHeard src s.part
  obtain ⟨now, mod, -, -, -, msg, -⟩ := linkHeard_rest src s.part
  have dropped : (dropText p).msg = { s.part.msg with textDrops := sat16 s.part.msg.textDrops } := by
    show ({ p.msg with textDrops := _ } : Msg) = _
    rw [show p.msg = s.part.msg from msg]
  refine message_acts (textTaken src bytes) taken _ fun t _ returned last => ⟨fun awake room => ?_, fun out => ?_⟩
  · rw [textTaken_joins (by rw [mod]; exact awake) (by rw [msg]; exact room)] at returned last
    have kept := returned.msg
    rw [Part.withMsg_msg, msg, now] at kept
    rw [kept]
    exact ⟨rfl, rfl, last⟩
  · by_cases stabled : s.part.mod.mode = .stabled
    · rw [textTaken_stabled (by rw [mod]; exact stabled)] at returned last
      rw [if_pos stabled, returned.msg, dropped]
      exact ⟨rfl, rfl, rfl, last⟩
    · rw [textTaken_full (by rw [mod]; exact stabled) (by rw [msg]; exact out.resolve_left stabled)] at returned last
      rw [if_neg stabled, returned.msg, show (handRefusal _ _ _ _ (dropText p)).msg = (dropText p).msg from offer_msg _ _, dropped]
      exact ⟨rfl, rfl, rfl, last⟩

/-- A TEXT displaces nothing. -/
theorem offerResult_text (p : Part) : offerResult .text p = if p.mod.mode = .stabled then .stabled else if p.link.queue.length < 4 then .placed else .full := by
  have none : txDisplaced .text p.link.queue = Option.none := by
    unfold txDisplaced
    split
    · next g _ => exact if_neg (by cases g.cls <;> decide)
    · rfl
  unfold offerResult
  rw [none]
  by_cases stabled : p.mod.mode = .stabled <;> by_cases room : p.link.queue.length < 4 <;> simp [stabled, room]

section
variable {work : Vector Word 7} {p : Part}

/-- Word 1 of SEND TEXT addresses no station, or gives no length (R169). -/
def badText (w : Word) : Prop := byteAt w 0 = 0 ∨ (30 < byteAt w 0 ∧ byteAt w 0 ≠ 255) ∨ byteAt w 1 < 1 ∨ 24 < byteAt w 1 ∨ halfAt w 1 ≠ 0

/-- The frame of SEND TEXT (R169). -/
def textFrame (work : Vector Word 7) : TxFrame :=
  { cls := .text, dest := 0, kind := 19, payload := BitVec.ofNat 8 (byteAt work[0] 0) :: textOf work (byteAt work[0] 1), sequence := none }

theorem judgeSendText_badParam (bad : badText work[0]) : judgeSendText work p = (p, .no .badParam) := by
  unfold judgeSendText
  exact if_pos bad

theorem judgeSendText_full (good : ¬ badText work[0]) (out : p.mod.mode = .stabled ∨ 4 ≤ p.link.queue.length) : judgeSendText work p = (p, .no .full) := by
  have refused : offerResult .text p ≠ .placed := by
    rw [offerResult_text]
    split
    · decide
    · next awake => rw [if_neg (Nat.not_lt.2 (out.resolve_left awake))]; decide
  unfold judgeSendText
  exact (if_neg good).trans (if_pos (bne_iff_ne.2 refused))

theorem judgeSendText_places (good : ¬ badText work[0]) (awake : p.mod.mode ≠ .stabled) (room : p.link.queue.length < 4) :
    judgeSendText work p = (offer (textFrame work) p, .take (BitVec.ofNat 32 (p.link.queue.length + 1))) ∧ offerResult .text p = .placed := by
  have placed : offerResult .text p = .placed := by rw [offerResult_text, if_neg awake, if_pos room]
  refine ⟨?_, placed⟩
  unfold judgeSendText
  exact (if_neg good).trans (if_neg (by rw [placed]; decide))

end

/-- SEND TEXT (R169). -/
theorem sendText_ends {u : Trigger} {s : State} (judged : Safety.triggerJudged u s) :
    let work := Safety.workingCopy u s
    let station := byteAt work[0] 0
    let length := byteAt work[0] 1
    ∃ t, exec (.sendText u) s = .next t
      ∧ (station = 0 ∨ (30 < station ∧ station ≠ 255) ∨ length = 0 ∨ 24 < length ∨ halfAt work[0] 1 ≠ 0 →
          Safety.orderRefused 23 u .badParam 0 s t)
      ∧ (station ≠ 0 → station ≤ 30 ∨ station = 255 → 1 ≤ length → length ≤ 24 → halfAt work[0] 1 = 0 →
          (s.part.mod.mode ≠ .stabled → s.part.link.queue.length < 4 →
            Safety.orderDone 23 u (BitVec.ofNat 32 (s.part.link.queue.length + 1)) s t
            ∧ Safety.transmits .text 19 (BitVec.ofNat 8 station
                :: ((work.toList.drop 1).flatMap wordBytes).take length) t.part)
          ∧ (s.part.mod.mode = .stabled ∨ 4 ≤ s.part.link.queue.length → Safety.orderRefused 23 u .full 0 s t)) := by
  intro work station length
  let p := received 23 u s
  by_cases bad : badText work[0]
  · obtain ⟨t, ends, refused⟩ := refuse_of (kind := 23) (judge := fun _ => judgeSendText) judged (judgeSendText_badParam (p := p) bad)
    refine ⟨t, ends, fun _ => refused, fun some_ address low high rest => ?_⟩
    rcases bad with h | ⟨h1, h2⟩ | h | h | h
    · exact absurd h some_
    · exact absurd (address.resolve_left (Nat.not_le.2 h1)) h2
    · exact absurd low (Nat.not_le.2 h)
    · exact absurd high (Nat.not_le.2 h)
    · exact absurd rest h
  have word : ¬ (station = 0 ∨ (30 < station ∧ station ≠ 255) ∨ length = 0 ∨ 24 < length ∨ halfAt work[0] 1 ≠ 0) := by
    rw [← Nat.lt_one_iff (n := length)]; exact bad
  by_cases room : s.part.mod.mode ≠ .stabled ∧ s.part.link.queue.length < 4
  · obtain ⟨awake, short⟩ := room
    obtain ⟨taken, placed⟩ := judgeSendText_places (p := p) bad awake short
    refine order_take (kind := 23) (judge := fun _ => judgeSendText) judged taken _ fun t ⟨o, ends⟩ done _ =>
      ⟨fun h => absurd h word, fun _ _ _ _ _ => ⟨fun _ _ => ⟨done, ?_⟩, fun out => ?_⟩⟩
    · have sent := offer_placed (textFrame work) p rfl placed
      unfold Safety.transmits at sent ⊢
      rw [(order_rest ends).1.link]
      exact sent
    · exact absurd (out.resolve_left awake) (Nat.not_le.2 short)
  · have out : s.part.mod.mode = .stabled ∨ 4 ≤ s.part.link.queue.length := by
      rcases not_and_or.1 room with h | h
      · exact .inl (not_not.1 h)
      · exact .inr (Nat.not_lt.1 h)
    obtain ⟨t, ends, refused⟩ := refuse_of (kind := 23) (judge := fun _ => judgeSendText) judged (judgeSendText_full (p := p) bad out)
    exact ⟨t, ends, fun h => absurd h word, fun _ _ _ _ _ => ⟨fun awake short => absurd ⟨awake, short⟩ room, fun _ => refused⟩⟩

/-- Settles O45. -/
theorem textsReceivedAndSent : Obligations.TextsReceivedAndSent := by
  unfold Obligations.TextsReceivedAndSent
  exact ⟨fun _ _ _ taken => text_ends taken, fun _ _ judged => sendText_ends judged⟩

/-! ### The loss of the link (R147, R101, R134) -/

/-- The link timer has stopped. -/
def timerStopped (p : Part) : Part := p.withLink { p.link with linkTimer := none }

/-- The link is LOST, with LINK_LOST. -/
def lostPosted (p : Part) : Part := post .linkLost 0 ((timerStopped p).withLink { (timerStopped p).link with lost := true })

theorem linkExpiry_again {p : Part} (due : p.due p.link.linkTimer p.prf.settings.linkTimeout = true) (lost : p.link.lost = true) :
    linkExpiry p = timerStopped p := by
  unfold linkExpiry
  exact (if_pos due).trans (if_pos lost)

theorem linkExpiry_loses {p : Part} (due : p.due p.link.linkTimer p.prf.settings.linkTimeout = true) (held : p.link.lost = false) :
    linkExpiry p = clearPermits (dropNext (lostPosted p)) := by
  unfold linkExpiry
  exact (if_pos due).trans (if_neg (by show ¬ p.link.lost = true; rw [held]; decide))

/-- Settles O46. -/
theorem linkLoss : Obligations.LinkLoss := by
  unfold Obligations.LinkLoss
  intro s running due
  refine partRow_ends _ s _ fun t ends _ _ => ?_
  rw [live_of_running _ running] at ends
  cases lost : s.part.link.lost with
  | true =>
    rw [linkExpiry_again due lost] at ends
    have link : t.part.link = (timerStopped s.part).link := by rw [ends]; exact (finish_returned _ _).link
    refine ⟨by rw [link]; rfl, by rw [link]; exact lost, by rw [link]; rfl, by rw [link]; rfl, nofun, fun _ stand => ?_⟩
    obtain ⟨g, same⟩ := finish_eq s.part (q := timerStopped s.part) ((standDone_iff s.part).1 stand)
    rw [ends, same]
    exact ⟨rfl, rfl⟩
  | false =>
    rw [linkExpiry_loses due lost] at ends
    have ended : Moves [.mode] (clearPermits (dropNext (lostPosted s.part))) t.part := ends ▸ finish_moves s.part (by decide) (.refl _)
    have cleared : Moves [.permits, .doors, .mode, .ord] (dropNext (lostPosted s.part)) t.part :=
      (clearPermits_moves (by constructor <;> decide) (.refl _)).trans (ended.mono (by decide))
    have moves : Moves [.slots, .permits, .doors, .mode, .ord] (lostPosted s.part) t.part :=
      (dropNext_moves (by decide) (.refl _)).trans (cleared.mono (by decide))
    obtain ⟨-, assembler, stations, timer, gone, -⟩ := moves.frame.link (by decide)
    obtain ⟨current, next, -⟩ := cleared.frame.slots (by decide)
    obtain ⟨kept, dropped⟩ := dropNext_spec (lostPosted s.part)
    refine ⟨timer, gone, assembler, stations, fun _ => ⟨current.trans kept, next.trans dropped,
      (ended.frame.permits (by decide)).trans (clearPermits_list _), flagged_moves (flagged_post _ _ _ _ rfl) moves (by decide), ?_⟩, nofun⟩
    have events := dropNext_posts (lostPosted s.part) (cleared.frame.pre (by decide))
    exact posts_of_evq (posts_post (p := (timerStopped s.part).withLink { (timerStopped s.part).link with lost := true }) events) rfl rfl

/-! ### REPORTs -/

/-- Settles O47. -/
theorem reports : Obligations.Reports := by
  unfold Obligations.Reports
  intro s
  refine ⟨fun due free awake => ?_, fun src taken => ?_⟩
  · refine partRow_ends _ s _ fun t ends _ _ => ?_
    have handed : reportExpiry s.part = handReport s.part := by
      unfold reportExpiry
      exact if_pos (by rw [due, free]; simpa using awake)
    have returned := finish_returned s.part (handReport s.part)
    rw [handed] at ends
    exact handReport_reported s.part awake (ends ▸ returned.link) (ends ▸ returned.msg)
  · obtain ⟨e, heard⟩ := linkHeard_spec src s.part
    refine message_acts (fun p => (handReport p, .acted)) taken _ fun t _ returned last => ⟨fun awake => ?_, last⟩
    have mode : (linkHeard src s.part).mod.mode ≠ .stabled := by rw [heard]; exact awake
    exact reported_of (handReport_reported (linkHeard src s.part) mode returned.link returned.msg) (by rw [heard]; rfl) (by rw [heard]; rfl) (by rw [heard]; rfl)

end Sys2Proof.Machine
end

section
/-! Carrier detect and the flow bytes (R142, R144, R149 to R151, R153). -/

namespace Sys2Proof.Machine

/-! ### CD rises -/

/-- Carrier detect is taken. -/
def carrierTaken (p : Part) : Part := p.withLink { p.link with cd := true }

/-- KEY_UP gives way to DEFER (R151). -/
def keyUpLeft (p : Part) : Part :=
  (carrierTaken p).withLink { (carrierTaken p).link with ptt := false, keyUpTimer := none, sendBuffer := none, state := .defer, deferTimer := none }

section
variable {p : Part} (free : p.asserted = false) (absent : p.link.cd = false)
include free absent

theorem carrierRise_defer (defer : p.link.state = .defer) : carrierRise p = (carrierTaken p).withLink { (carrierTaken p).link with deferTimer := none } := by
  unfold carrierRise
  refine (if_neg (by rw [absent]; decide)).trans ((if_neg (by show ¬ p.asserted = true; rw [free]; decide)).trans ?_)
  split
  · rfl
  · next h => exact absurd (defer.symm.trans h) (by decide)
  · next h => exact absurd (defer.symm.trans h) (by decide)
  · next h _ _ => exact absurd defer h

theorem carrierRise_listen (listen : p.link.state = .listen) : carrierRise p = listenLook (carrierTaken p) := by
  unfold carrierRise
  refine (if_neg (by rw [absent]; decide)).trans ((if_neg (by show ¬ p.asserted = true; rw [free]; decide)).trans ?_)
  split
  · next h => exact absurd (listen.symm.trans h) (by decide)
  · next h => exact absurd (listen.symm.trans h) (by decide)
  · rfl
  · next h => exact absurd listen h

theorem carrierRise_keyUp {b : Sending} (keyUp : p.link.state = .keyUp) (sends : p.link.sendBuffer = some b) :
    carrierRise p = putBack b.frame (keyUpLeft p) := by
  unfold carrierRise
  refine (if_neg (by rw [absent]; decide)).trans ((if_neg (by show ¬ p.asserted = true; rw [free]; decide)).trans ?_)
  simp only [Part.withLink_link, keyUp, sends]
  rfl

theorem carrierRise_else (defer : p.link.state ≠ .defer) (listen : p.link.state ≠ .listen) (keyUp : p.link.state ≠ .keyUp) : carrierRise p = carrierTaken p := by
  unfold carrierRise
  refine (if_neg (by rw [absent]; decide)).trans ((if_neg (by show ¬ p.asserted = true; rw [free]; decide)).trans ?_)
  split
  · next h => exact absurd h defer
  · next h => exact absurd h keyUp
  · next h => exact absurd h listen
  · rfl

end

/-- The frame of KEY_UP goes back into the queue (R155). -/
theorem putBack_ends {f : TxFrame} {p q t : Part} (ordered : Safety.queues q) (link : t.link = (putBack f q).link)
    (queue : (putBack f q).evq.queue <+: t.evq.queue) (faults : ∀ i : Nat, (putBack f q).evq.faults.getLsbD i = true → t.evq.faults.getLsbD i = true)
    (evq : q.evq = p.evq) (now : q.now = p.now) (odo : q.odo = p.odo) :
    (f.cls = .report ∧ txHasReport q.link.queue = true → t.link = q.link)
    ∧ (¬ (f.cls = .report ∧ txHasReport q.link.queue = true) →
        (q.link.queue.length < 4 → ∃ l, Safety.headOfClass f q.link.queue l ∧ t.link = { q.link with queue := l })
        ∧ (4 ≤ q.link.queue.length → ∀ g, q.link.queue.getLast? = some g →
          (f.cls.code < g.cls.code →
            (∃ l, Safety.headOfClass f q.link.queue.dropLast l ∧ t.link = { Safety.txCounted .displaced q.link with queue := l })
            ∧ Safety.posts p t [(.txDropped, arg2 g.cls.code 2, p.odo.pos)] ∧ Safety.flagged .radio t)
          ∧ (g.cls.code ≤ f.cls.code →
            t.link = Safety.txCounted .full q.link
            ∧ Safety.posts p t [(.txDropped, arg2 f.cls.code 1, p.odo.pos)] ∧ Safety.flagged .radio t))) := by
  obtain ⟨twice, otherwise⟩ := putBack_cases f q ordered
  have classes : Safety.classOrdered q.link.queue := ordered.2.2.1
  refine ⟨fun h => by rw [link, twice h], fun h => ⟨fun room => ?_, fun full g last => ⟨fun lower => ?_, fun ranks => ?_⟩⟩⟩
  · exact ⟨_, headOfClass_insert f _ classes, by rw [link, (otherwise h).1 room]; rfl⟩
  · obtain ⟨y, put, taken⟩ := ((otherwise h).2 full g last).1 lower
    rw [put] at link queue faults
    refine ⟨⟨_, headOfClass_insert f _ ((classOrdered_iff _).2 (((classOrdered_iff _).1 classes).sublist (List.dropLast_sublist _))), link.trans taken⟩, ?_⟩
    obtain ⟨posted, flag⟩ := txDrop_posts g.cls .displaced (q.withLink { q.link with queue := q.link.queue.dropLast }) queue faults
    rw [show (q.withLink { q.link with queue := q.link.queue.dropLast }).odo = p.odo from odo] at posted
    exact ⟨posts_of_evq posted evq now, flag⟩
  · have put := ((otherwise h).2 full g last).2 ranks
    rw [put] at link queue faults
    obtain ⟨posted, flag⟩ := txDrop_posts f.cls .full q queue faults
    rw [odo] at posted
    exact ⟨link, posts_of_evq posted evq now, flag⟩

theorem cdRise_ends {s : State} (free : s.part.asserted = false) (absent : s.part.link.cd = false) (ordered : Safety.queues s.part) :
    ∃ t, exec .cdRise s = .next t
      ∧ (s.part.link.state = .defer → t.part.link = { s.part.link with cd := true, deferTimer := none })
      ∧ (s.part.link.state = .listen → Safety.listens { s.part with link := { s.part.link with cd := true } } t.part)
      ∧ (∀ b, s.part.link.state = .keyUp → s.part.link.sendBuffer = some b →
          let l := { s.part.link with
            cd := true, ptt := false, keyUpTimer := none, sendBuffer := none, state := .defer, deferTimer := none }
          (b.frame.cls = .report ∧ txHasReport s.part.link.queue = true → t.part.link = l)
          ∧ (¬ (b.frame.cls = .report ∧ txHasReport s.part.link.queue = true) →
              (s.part.link.queue.length < 4 →
                ∃ q, Safety.headOfClass b.frame s.part.link.queue q ∧ t.part.link = { l with queue := q })
              ∧ (4 ≤ s.part.link.queue.length → ∀ g, s.part.link.queue.getLast? = some g →
                (b.frame.cls.code < g.cls.code →
                  (∃ q, Safety.headOfClass b.frame s.part.link.queue.dropLast q
                    ∧ t.part.link = { Safety.txCounted .displaced l with queue := q })
                  ∧ Safety.posts s.part t.part [(.txDropped, arg2 g.cls.code 2, s.part.odo.pos)] ∧ Safety.flagged .radio t.part)
                ∧ (g.cls.code ≤ b.frame.cls.code →
                  t.part.link = Safety.txCounted .full l
                  ∧ Safety.posts s.part t.part [(.txDropped, arg2 b.frame.cls.code 1, s.part.odo.pos)]
                  ∧ Safety.flagged .radio t.part))))
      ∧ (s.part.link.state ≠ .defer → s.part.link.state ≠ .listen → s.part.link.state ≠ .keyUp →
          t.part.link = { s.part.link with cd := true }) := by
  refine row_ends carrierRise s _ fun t link queue faults => ⟨fun defer => ?_, fun listen => ?_, fun b keyUp sends => ?_, fun defer listen keyUp => ?_⟩
  · rw [link, carrierRise_defer free absent defer]; rfl
  · rw [carrierRise_listen free absent listen] at link
    exact listenLook_listens (carrierTaken s.part) listen free link
  · rw [carrierRise_keyUp free absent keyUp sends] at link queue faults
    exact putBack_ends (q := keyUpLeft s.part) ordered link queue faults rfl rfl rfl
  · rw [link, carrierRise_else free absent defer listen keyUp]; rfl

/-! ### CD falls -/

/-- Carrier detect is gone. -/
def carrierGone (l : Link) : Link := { l with cd := false }

/-- In DEFER the defer timer starts (R150). -/
def deferred (p : Part) (l : Link) : Link :=
  { l with deferTimer := if l.state = .defer then some ⟨p.now, p.prf.settings.carId * 10⟩ else l.deferTimer }

/-- CD falls outside a frame. -/
theorem carrierFall_outside {p : Part} (present : p.link.cd = true) (free : p.asserted = false) (outside : p.link.assembler = .outside) :
    carrierFall p = p.withLink (deferred p (carrierGone p.link)) := by
  unfold carrierFall
  refine (if_neg (by rw [present]; decide)).trans ((if_neg (by show ¬ p.asserted = true; rw [free]; decide)).trans ?_)
  simp only [Part.withLink_link, outside]
  unfold deferred carrierGone
  by_cases defer : p.link.state = .defer
  · rw [if_pos (by simpa using defer)]
    simp only [defer, if_true, outside]
    rfl
  · rw [if_neg (by simpa using defer)]
    simp only [defer, if_false, outside]

/-- A frame that is abandoned outside RECEIVING leaves the state. -/
theorem abandonFrame_away {r : RxDrop} {l : Link} (p : Part) (away : l.state ≠ .receiving) :
    abandonFrame r (p.withLink l) = (p.withEvq (rxDrop r p).evq).withLink { Safety.rxCounted r l with assembler := .outside } := by
  have link : (rxDrop r (p.withLink l)).link = Safety.rxCounted r l := rxDrop_link r _
  unfold abandonFrame
  rw [frameEnds_else _ (by rw [link]; exact away), link]
  unfold rxDrop
  split <;> rfl

/-- An abandonment without carrier does not lead to DEFER out of RECEIVING. -/
theorem abandonFrame_not_defer {r : RxDrop} {l : Link} {p : Part} (free : p.asserted = false) (same : l.state = p.link.state) (absent : l.cd = false)
    (receiving : p.link.state = .receiving) : (abandonFrame r (p.withLink l)).link.state ≠ .defer := by
  obtain ⟨empty, -, keyed⟩ := (abandon_lost r l p free same (q := abandonFrame r (p.withLink l)) rfl (List.prefix_refl _) (fun _ h => h)).1 receiving
  by_cases queue : l.queue = []
  · rw [empty queue]; exact fun h => LinkState.noConfusion h
  · obtain ⟨f, rest, -, link⟩ := keyed queue absent
    rw [link]; exact fun h => LinkState.noConfusion h

/-- CD falls within a frame: the frame is abandoned, and in DEFER the timer starts. -/
theorem carrierFall_inside {p : Part} {buffer : List Byte} {damaged esc : Bool} {gap : Word} (present : p.link.cd = true) (free : p.asserted = false)
    (inside : p.link.assembler = .inside buffer damaged esc gap) :
    carrierFall p = abandonFrame .carrier (p.withLink (deferred p (carrierGone p.link))) := by
  have falls : carrierFall p = let q := abandonFrame .carrier (p.withLink (carrierGone p.link))
      if q.link.state == .defer then q.withLink { q.link with deferTimer := some ⟨q.now, q.prf.settings.carId * 10⟩ } else q := by
    unfold carrierFall
    refine (if_neg (by rw [present]; decide)).trans ((if_neg (by show ¬ p.asserted = true; rw [free]; decide)).trans ?_)
    simp only [Part.withLink_link, inside]
    rfl
  rw [falls]
  by_cases receiving : p.link.state = .receiving
  · have same : deferred p (carrierGone p.link) = carrierGone p.link := by
      unfold deferred
      rw [if_neg (show ¬ (carrierGone p.link).state = .defer from fun h => absurd (receiving.symm.trans h) (by decide))]
    rw [same]
    exact if_neg fun h => abandonFrame_not_defer (r := .carrier) (l := carrierGone p.link) free rfl rfl receiving (beq_iff_eq.1 h)
  · simp only [abandonFrame_away (l := carrierGone p.link) p receiving]
    rw [abandonFrame_away (l := deferred p (carrierGone p.link)) p receiving]
    unfold deferred
    by_cases defer : p.link.state = .defer
    · rw [if_pos (show (carrierGone p.link).state = .defer from defer)]
      exact if_pos (beq_iff_eq.2 defer)
    · rw [if_neg (show ¬ (carrierGone p.link).state = .defer from defer)]
      exact if_neg fun h => defer (beq_iff_eq.1 h)

theorem cdFall_ends {s : State} (free : s.part.asserted = false) (present : s.part.link.cd = true) :
    ∃ t, exec .cdFall s = .next t
      ∧ (s.part.link.assembler = .outside → t.part.link = { s.part.link with
            cd := false
            deferTimer := if s.part.link.state = .defer then some ⟨s.part.now, s.part.prf.settings.carId * 10⟩ else s.part.link.deferTimer })
      ∧ (s.part.link.assembler ≠ .outside → Safety.frameLost .carrier
          { s.part.link with
            cd := false
            deferTimer := if s.part.link.state = .defer then some ⟨s.part.now, s.part.prf.settings.carId * 10⟩ else s.part.link.deferTimer }
          s.part t.part) := by
  refine row_ends carrierFall s _ fun t link queue faults => ⟨fun outside => ?_, fun within => ?_⟩
  · rw [link, carrierFall_outside present free outside]; rfl
  obtain ⟨buffer, damaged, esc, gap, inside⟩ : ∃ b d e g, s.part.link.assembler = .inside b d e g := by
    cases frame : s.part.link.assembler with
    | outside => exact absurd frame within
    | inside b d e g => exact ⟨b, d, e, g, rfl⟩
  rw [carrierFall_inside present free inside] at link queue faults
  exact abandon_lost .carrier (deferred s.part (carrierGone s.part.link)) s.part free rfl link queue faults

/-! ### The flow bytes -/

/-- A flow byte with no ESC pending reaches the transmitter. -/
theorem receive_flow {p : Part} (hold : Bool) (free : p.asserted = false) (calm : escPending p.link.assembler = false) :
    receive (if hold then 0xF4 else 0xF5) false p = flowByte hold p := by
  unfold receive
  rw [if_neg (by rw [free]; decide), if_pos (by rw [calm]; cases hold <;> decide)]
  cases hold <;> rfl

theorem escPending_of {a : Assembler} (calm : ∀ l d g, a ≠ .inside l d true g) : escPending a = false := by
  cases a with
  | outside => rfl
  | inside l d esc g =>
    cases esc with
    | true => exact absurd rfl (calm l d g)
    | false => rfl

theorem flowByte_away {hold : Bool} {p : Part} (away : Safety.assertsPtt p.link.state = false) : flowByte hold p = p := by
  unfold flowByte
  split <;> first | rfl | (next state => rw [state] at away; exact absurd away (by decide))

/-- PAUSE sets the flow hold flag where PTT is asserted, RESUME clears it where nothing is paused. -/
theorem flowByte_sets {hold : Bool} {p : Part} (sends : Safety.assertsPtt p.link.state = true) (calm : hold = true ∨ p.link.state ≠ .paused) :
    flowByte hold p = p.withLink { p.link with flowHold := hold } := by
  unfold flowByte
  split
  · next state => rw [state] at sends; exact absurd sends (by decide)
  · next state => rw [state] at sends; exact absurd sends (by decide)
  · next state => rw [state] at sends; exact absurd sends (by decide)
  · rfl
  · rfl
  · rfl
  · next state => exact if_pos (calm.resolve_right fun h => h state)

/-- RESUME in PAUSED goes on with the frame. -/
theorem flowByte_resumes {p : Part} (paused : p.link.state = .paused) : flowByte false p = sendNext (p.withLink { p.link with flowHold := false }) := by
  unfold flowByte
  split
  case h_7 => rfl
  all_goals next state => exact absurd (paused.symm.trans state) (by decide)

theorem pause_ends {s : State} (free : s.part.asserted = false) (calm : escPending s.part.link.assembler = false) :
    ∃ t, exec .pause s = .next t
        ∧ (Safety.assertsPtt s.part.link.state = true → t.part.link = { s.part.link with flowHold := true })
        ∧ (Safety.assertsPtt s.part.link.state = false → t.part.link = s.part.link) := by
  refine row_ends (receive 0xF4 false) s _ fun t link _ _ => ?_
  rw [show receive 0xF4 false s.part = flowByte true s.part from receive_flow true free calm] at link
  exact ⟨fun sends => by rw [link, flowByte_sets sends (.inl rfl)]; rfl, fun away => by rw [link, flowByte_away away]⟩

theorem resume_ends {s : State} (free : s.part.asserted = false) (calm : escPending s.part.link.assembler = false) :
    ∃ t, exec .resume s = .next t
        ∧ (Safety.assertsPtt s.part.link.state = true → s.part.link.state ≠ .paused →
            t.part.link = { s.part.link with flowHold := false })
        ∧ (∀ b, s.part.link.state = .paused → s.part.link.sendBuffer = some b →
            Safety.sendsNext b { s.part with link := { s.part.link with flowHold := false } } t.part)
        ∧ (Safety.assertsPtt s.part.link.state = false → t.part.link = s.part.link) := by
  refine row_ends (receive 0xF5 false) s _ fun t link _ _ => ?_
  rw [show receive 0xF5 false s.part = flowByte false s.part from receive_flow false free calm] at link
  refine ⟨fun sends away => by rw [link, flowByte_sets sends (.inr away)]; rfl, fun b paused sends => ?_, fun away => by rw [link, flowByte_away away]⟩
  rw [flowByte_resumes paused] at link
  unfold sendNext at link
  rw [Part.withLink_link] at link
  simp only [sends] at link
  exact link

/-- Settles O50. -/
theorem carrierAndFlow : Obligations.CarrierAndFlow := by
  unfold Obligations.CarrierAndFlow
  refine ⟨fun s free => ⟨fun absent ordered => cdRise_ends free absent ordered, fun present => cdFall_ends free present⟩, fun s => ⟨⟨?_, ?_⟩, fun free calm =>
    ⟨pause_ends free (escPending_of calm), resume_ends free (escPending_of calm)⟩⟩⟩
  · show partRow (receive 0xF4 false) s = partRow (receive 0xF4 (errored 0xF4 (evenParity 0xF4) true)) s
    rw [errored_even]
  · show partRow (receive 0xF5 false) s = partRow (receive 0xF5 (errored 0xF5 (evenParity 0xF5) true)) s
    rw [errored_even]

end Sys2Proof.Machine
end

section
/-! The receiver's characters (R141 to R144) and the checks of a complete frame (R145, R159). -/

namespace Sys2Proof.Machine

/-! ### A character that is no flow byte -/

section
variable {c : Byte} {bad : Bool} {p : Part}

theorem receive_noise (free : p.asserted = false) (plain : bad = true ∨ (c ≠ 0xF4 ∧ c ≠ 0xF5) ∨ escPending p.link.assembler = true)
    (deaf : p.link.ptt = true ∨ p.link.cd = false) : receive c bad p = noise p := by
  unfold receive
  rw [if_neg (by rw [free]; decide), if_neg ?_, if_pos (by simpa using deaf)]
  rcases plain with h | ⟨h1, h2⟩ | h <;> simp_all

theorem receive_assemble (free : p.asserted = false) (plain : bad = true ∨ (c ≠ 0xF4 ∧ c ≠ 0xF5) ∨ escPending p.link.assembler = true)
    (off : p.link.ptt = false) (present : p.link.cd = true) : receive c bad p = assemble c bad p := by
  unfold receive
  rw [if_neg (by rw [free]; decide), if_neg ?_, if_neg (by rw [off, present]; decide)]
  rcases plain with h | ⟨h1, h2⟩ | h <;> simp_all

theorem assemble_starts (outside : p.link.assembler = .outside) : assemble 0xF1 false p = frameStarts p := by
  unfold assemble
  rw [outside]
  rfl

theorem assemble_outside (outside : p.link.assembler = .outside) (other : bad = true ∨ c ≠ 0xF1) : assemble c bad p = noise p := by
  unfold assemble
  rw [outside]
  rcases other with damaged | other
  · rw [damaged]; rfl
  · exact if_neg fun h => other (beq_iff_eq.1 (Bool.and_eq_true _ _ ▸ h).2)

section
variable {buffer : List Byte} {damaged esc : Bool} {gap : Word} (inside : p.link.assembler = .inside buffer damaged esc gap)
include inside

/-- A byte of a frame: damaged, behind ESC, or none of START, END and ESC. -/
theorem assemble_data (byte : bad = true ∨ esc = true ∨ (c ≠ 0xF1 ∧ c ≠ 0xF2 ∧ c ≠ 0xF3)) :
    assemble c bad p = frameData c buffer (damaged || bad) p := by
  unfold assemble
  rw [inside]
  cases bad with
  | true => rw [Bool.or_true]; rfl
  | false =>
    rw [Bool.or_false]
    cases esc with
    | true => rfl
    | false =>
      obtain ⟨start, stop, escape⟩ := (byte.resolve_left (by decide)).resolve_left (by decide)
      exact (if_neg (beq_iff_eq.not.2 start)).trans ((if_neg (beq_iff_eq.not.2 stop)).trans (if_neg (beq_iff_eq.not.2 escape)))

end

section
variable {buffer : List Byte} {damaged : Bool} {gap : Word} (inside : p.link.assembler = .inside buffer damaged false gap)
include inside

theorem assemble_escapes : assemble 0xF3 false p = p.withLink { p.link with assembler := .inside buffer damaged true p.now } := by
  unfold assemble
  rw [inside]
  rfl

theorem assemble_restarts : assemble 0xF1 false p = frameStarts (rxDrop .restart p) := by
  unfold assemble
  rw [inside]
  rfl

theorem assemble_completes : assemble 0xF2 false p = completeFrame buffer damaged p := by
  unfold assemble
  rw [inside]
  rfl

end

theorem frameData_joins {buffer : List Byte} {damaged : Bool} (room : buffer.length < 55) :
    frameData c buffer damaged p = p.withLink { p.link with assembler := .inside (buffer ++ [c]) damaged false p.now } := if_neg (Nat.not_le.2 room)

theorem frameData_long {buffer : List Byte} {damaged : Bool} (full : 55 ≤ buffer.length) : frameData c buffer damaged p = abandonFrame .long p := if_pos full

end

/-- A character, by whether it is damaged. -/
theorem rxCharacter_ends {s : State} (free : s.part.asserted = false) (c : Byte) (parity stop bad : Bool) (judged : bad = true ↔ Safety.badCharacter c parity stop)
    (plain : bad = true ∨ (c ≠ 0xF4 ∧ c ≠ 0xF5) ∨ escPending s.part.link.assembler = true) :
      ∃ t, exec (.rxCharacter c parity stop) s = .next t
        ∧ (s.part.link.ptt = true ∨ s.part.link.cd = false → t.part.link = { s.part.link with noise := sat16 s.part.link.noise })
        ∧ (s.part.link.ptt = false → s.part.link.cd = true →
          (s.part.link.assembler = .outside →
            (bad = false → c = 0xF1 → t.part.link = { s.part.link with
              assembler := .inside [] false false s.part.now
              state := if s.part.link.state = .listen then .receiving else s.part.link.state })
            ∧ (bad = true ∨ c ≠ 0xF1 → t.part.link = { s.part.link with noise := sat16 s.part.link.noise }))
          ∧ ∀ buffer damaged esc gap, s.part.link.assembler = .inside buffer damaged esc gap →
            (bad = true ∨ esc = true ∨ (c ≠ 0xF1 ∧ c ≠ 0xF2 ∧ c ≠ 0xF3) →
              (buffer.length < 55 → t.part.link = { s.part.link with
                assembler := .inside (buffer ++ [c]) (damaged || bad) false s.part.now })
              ∧ (55 ≤ buffer.length → Safety.frameLost .long s.part.link s.part t.part))
            ∧ (bad = false → esc = false → c = 0xF3 →
                t.part.link = { s.part.link with assembler := .inside buffer damaged true s.part.now })
            ∧ (bad = false → esc = false → c = 0xF1 →
                t.part.link = { Safety.rxCounted .restart s.part.link with
                  assembler := .inside [] false false s.part.now
                  state := if s.part.link.state = .listen then .receiving else s.part.link.state }
                ∧ Safety.posts s.part t.part [(.frameDropped, 1, s.part.odo.pos)] ∧ Safety.flagged .radio t.part)) := by
  have error : errored c parity stop = bad := by rw [Bool.eq_iff_iff, errored_iff, judged]
  refine row_ends (receive c (errored c parity stop)) s _ fun t link queue faults => ?_
  rw [error] at link queue faults
  refine ⟨fun deaf => by rw [link, receive_noise free plain deaf]; rfl, fun off present => ?_⟩
  rw [receive_assemble free plain off present] at link queue faults
  refine ⟨fun outside => ⟨fun good start => ?_, fun other => by rw [link, assemble_outside outside other]; rfl⟩,
    fun buffer damaged esc gap inside => ⟨fun byte => ?_, fun good calm escape => ?_, fun good calm start => ?_⟩⟩
  · rw [link, good, start, assemble_starts outside]
    simp only [frameStarts, Part.withLink_link, beq_iff_eq]
  · rw [assemble_data inside byte] at link queue faults
    refine ⟨fun room => by rw [link, frameData_joins room]; rfl, fun full => ?_⟩
    rw [frameData_long full] at link queue faults
    exact abandon_lost .long s.part.link s.part free rfl link queue faults
  · subst calm
    rw [link, good, escape, assemble_escapes inside]; rfl
  · subst calm
    rw [good, start, assemble_restarts inside] at link queue faults
    have counted := rxDrop_link .restart s.part
    have now : (rxDrop .restart s.part).now = s.part.now := rfl
    refine ⟨?_, rxDrop_posts .restart s.part queue, faults _ (rxDrop_flagged .restart s.part (by decide) (by decide))⟩
    rw [link]
    simp only [frameStarts, Part.withLink_link, beq_iff_eq, counted, now]
    rfl

/-- Settles O51. -/
theorem charactersAssembled : Obligations.CharactersAssembled := by
  unfold Obligations.CharactersAssembled
  refine fun s free => ⟨rxCharacter_ends free, fun buffer damaged esc gap inside passed => ?_⟩
  refine live_row gapExpiry s free _ fun t link queue faults => ?_
  have expires : gapExpiry s.part = abandonFrame .timeout s.part := by
    unfold gapExpiry
    rw [inside]
    exact if_pos passed
  rw [expires] at link queue faults
  exact abandon_lost .timeout s.part.link s.part free rfl link queue faults

end Sys2Proof.Machine
end

section
/-! The checks of a complete frame (R145), and a frame of bad format (R159). -/

namespace Sys2Proof.Machine

/-! ### The shape of a frame -/

section
variable {buffer : List Byte} {p : Part}

theorem completeFrame_damaged : completeFrame buffer true p = rxDrop .damaged (frameEnds p) := rfl

/-- A frame too short for its parts, or of a length that is not its own. -/
theorem completeFrame_short (short : buffer.length < 7 ∨ ∃ n : Byte, buffer[4]? = some n ∧ (48 < n.toNat ∨ buffer.length ≠ n.toNat + 7)) :
    completeFrame buffer false p = rxDrop .short (frameEnds p) := by
  unfold completeFrame
  simp only [Bool.false_eq_true, if_false]
  split
  · next dest source kind sequence len rest =>
    refine if_neg fun h => ?_
    obtain ⟨low, length⟩ := Bool.and_eq_true_iff.1 h
    replace low := of_decide_eq_true low
    replace length := beq_iff_eq.1 length
    rcases short with few | ⟨n, fifth, bad⟩
    · simp only [List.length_cons] at few; omega
    · obtain rfl : len = n := Option.some.inj fifth
      simp only [List.length_cons] at bad; omega
  · rfl

section
variable {dest source kind sequence : Byte} {payload : List Byte} {crc : Half}

theorem take_frameBuffer : (Safety.frameBuffer dest source kind sequence payload crc).take (payload.length + 5)
    = dest :: source :: kind :: sequence :: BitVec.ofNat 8 payload.length :: payload := by
  simp [Safety.frameBuffer]

/-- A frame of the right shape goes on to the checks of its contents. -/
theorem completeFrame_judges (length : payload.length ≤ 48) :
    completeFrame (Safety.frameBuffer dest source kind sequence payload crc) false p
      = judgeFrame dest source kind sequence ((Safety.frameBuffer dest source kind sequence payload crc).take (payload.length + 5)) payload
          [BitVec.ofNat 8 (crc.toNat / 256), BitVec.ofNat 8 crc.toNat] (frameEnds p) := by
  have number : (BitVec.ofNat 8 payload.length).toNat = payload.length := by rw [BitVec.toNat_ofNat]; omega
  rw [take_frameBuffer]
  unfold completeFrame Safety.frameBuffer
  simp only [Bool.false_eq_true, if_false, List.cons_append, List.nil_append, number]
  rw [List.take_left, List.drop_left]
  exact if_pos (by simpa using length)

/-! ### The contents of a frame -/

theorem addressed (mine : dest.toNat = p.prf.settings.carId ∨ dest = 0xFF) : ¬ (dest.toNat != p.prf.settings.carId && dest != 0xFF#8) = true := by
  rw [Bool.and_eq_true, bne_iff_ne, bne_iff_ne]
  exact fun h => mine.elim h.1 h.2

theorem fromStation {i : Fin 30} (station : source.toNat = i.val + 1) : ¬ (decide (source.toNat < 1) || decide (30 < source.toNat)) = true := by
  rw [Bool.or_eq_true, decide_eq_true_eq, decide_eq_true_eq]
  have := i.isLt
  omega

theorem lastSequence_of {i : Fin 30} (station : source.toNat = i.val + 1) : lastSequence source p = (p.link.stations[i]).sequence := by
  have entry : p.link.stations[source.toNat - 1]? = some p.link.stations[i] := by
    rw [show source.toNat - 1 = i.val by omega]
    exact Vector.getElem?_eq_getElem i.isLt
  unfold lastSequence
  rw [entry]

variable {body : List Byte}

theorem judgeFrame_crc (wrong : crc ≠ crc16 body) :
    judgeFrame dest source kind sequence body payload [BitVec.ofNat 8 (crc.toNat / 256), BitVec.ofNat 8 crc.toNat] p = rxDrop .crc p := by
  unfold judgeFrame
  rw [crc_bytes]
  exact if_pos (bne_iff_ne.2 wrong.symm)

section
variable (right : crc = crc16 body)
include right

theorem judgeFrame_other (other : dest.toNat ≠ p.prf.settings.carId) (own : dest ≠ 0xFF) :
    judgeFrame dest source kind sequence body payload [BitVec.ofNat 8 (crc.toNat / 256), BitVec.ofNat 8 crc.toNat] p = rxDrop .other p := by
  unfold judgeFrame
  rw [crc_bytes]
  exact (if_neg (by simpa using right.symm)).trans (if_pos (Bool.and_eq_true_iff.2 ⟨bne_iff_ne.2 other, bne_iff_ne.2 own⟩))

variable (mine : dest.toNat = p.prf.settings.carId ∨ dest = 0xFF)
include mine

theorem judgeFrame_badSource (bad : source = 0 ∨ 30 < source.toNat) :
    judgeFrame dest source kind sequence body payload [BitVec.ofNat 8 (crc.toNat / 256), BitVec.ofNat 8 crc.toNat] p = rxDrop .badSource p := by
  unfold judgeFrame
  rw [crc_bytes]
  refine (if_neg (by simpa using right.symm)).trans ((if_neg (addressed mine)).trans (if_pos ?_))
  rcases bad with zero | beyond
  · rw [zero]; rfl
  · rw [decide_eq_true beyond, Bool.or_true]

section
variable {i : Fin 30} (station : source.toNat = i.val + 1)
include station

theorem judgeFrame_duplicate (held : (p.link.stations[i]).sequence = some sequence) :
    judgeFrame dest source kind sequence body payload [BitVec.ofNat 8 (crc.toNat / 256), BitVec.ofNat 8 crc.toNat] p = heard source (rxDrop .duplicate p) := by
  unfold judgeFrame
  rw [crc_bytes]
  refine (if_neg (by simpa using right.symm)).trans ((if_neg (addressed mine)).trans ((if_neg (fromStation station)).trans (if_pos ?_)))
  rw [lastSequence_of station, held, beq_self_eq_true]

theorem judgeFrame_delivers (fresh : (p.link.stations[i]).sequence ≠ some sequence) :
    judgeFrame dest source kind sequence body payload [BitVec.ofNat 8 (crc.toNat / 256), BitVec.ofNat 8 crc.toNat] p
      = deliver ⟨source, sequence⟩ kind.toNat (dispatch ⟨source, sequence⟩ kind.toNat payload) p := by
  unfold judgeFrame
  rw [crc_bytes]
  refine (if_neg (by simpa using right.symm)).trans ((if_neg (addressed mine)).trans ((if_neg (fromStation station)).trans (if_neg ?_)))
  rw [lastSequence_of station, beq_iff_eq]
  exact fresh

end
end
end
end

/-! ### The end of a frame -/

theorem heardLink_station {src : Sender} {i : Fin 30} (station : src.station.toNat = i.val + 1) (p : Part) :
    (heardLink src p).stations[i] = ⟨some src.sequence, some p.now⟩ := by
  have index : src.station.toNat - 1 = i.val := by omega
  unfold heardLink
  simp only [index, i.isLt, dite_true]
  exact Vector.getElem_set_self _

/-- A refusal of bad parameters goes into a queue with room (R160). -/
theorem handRefusal_transmits {station kind : Byte} {p : Part} (awake : p.mod.mode ≠ .stabled) (room : p.link.queue.length < 4) :
    Safety.transmits .refusal 18 [station, kind, 0, 0, 6] (handRefusal station kind.toNat 0 .badParam p) := by
  have payload : station :: (leBytes 1 kind.toNat ++ leBytes 2 0 ++ leBytes 1 Reason.badParam.code) = [station, kind, 0, 0, 6] := by
    simp [leBytes, Reason.code]
  unfold handRefusal
  rw [payload]
  refine offer_placed { cls := .refusal, dest := 0, kind := 18, sequence := none, payload := [station, kind, 0, 0, 6] } p rfl ?_
  unfold offerResult
  simp [awake, room]

section
variable {s t : State} (present : s.part.link.cd = true)
include present

/-- A DUPLICATE is dropped, and its station is heard (R145). -/
theorem duplicate_lost (free : s.part.asserted = false) {source : Byte} {i : Fin 30} (station : source.toNat = i.val + 1)
    (link : t.part.link = (heard source (rxDrop .duplicate (frameEnds s.part))).link)
    (queue : (heard source (rxDrop .duplicate (frameEnds s.part))).evq.queue <+: t.part.evq.queue)
    (faults : ∀ j : Nat, (heard source (rxDrop .duplicate (frameEnds s.part))).evq.faults.getLsbD j = true → t.part.evq.faults.getLsbD j = true) :
    Safety.frameLost .duplicate
      { s.part.link with
        linkTimer := some s.part.now
        stations := s.part.link.stations.set i { s.part.link.stations[i] with lastHeard := some s.part.now } } s.part t.part := by
  obtain ⟨-, -, -, -, now, -⟩ := frameEnds_present s.part present
  have clock : (rxDrop .duplicate (frameEnds s.part)).now = s.part.now := now
  rw [heard_of i source station] at link queue faults
  refine end_lost .duplicate (fun l => { Safety.rxCounted .duplicate l with
      linkTimer := some s.part.now, stations := l.stations.set i { l.stations[i] with lastHeard := some s.part.now } })
    (fun _ _ _ => rfl) (fun _ => rfl) (fun _ => ⟨rfl, rfl, rfl⟩) s.part free present rfl (link.trans ?_) queue faults
  rw [Part.withLink_link, clock, rxDrop_link]
  rfl

/-- A frame of bad format is delivered, counted and refused (R159). -/
theorem badFormat_ends {source kind sequence : Byte} {payload : List Byte} {i : Fin 30} (station : source.toNat = i.val + 1)
    (bad : goodFormat kind.toNat payload.length = false)
    (ends : t.part = finish s.part (deliver ⟨source, sequence⟩ kind.toNat (dispatch ⟨source, sequence⟩ kind.toNat payload) (frameEnds s.part))) :
    t.part.msg.badFormat = sat16 s.part.msg.badFormat
      ∧ t.part.link.stations[i] = ⟨some sequence, some s.part.now⟩ ∧ t.part.link.linkTimer = some s.part.now
      ∧ Safety.postsLast .messageArrived (arg2 kind.toNat 5) t.part
      ∧ (s.part.mod.mode ≠ .stabled → s.part.link.queue.length < 4 → Safety.transmits .refusal 18 [source, kind, 0, 0, 6] t.part) := by
  obtain ⟨ended, -, mod, -, now, msg, -⟩ := frameEnds_present s.part present
  let heard := linkHeard ⟨source, sequence⟩ (frameEnds s.part)
  let counted := heard.withMsg { heard.msg with badFormat := sat16 heard.msg.badFormat }
  have acts : dispatch ⟨source, sequence⟩ kind.toNat payload heard = (handRefusal source kind.toNat 0 .badParam counted, .badFormat) := by
    unfold dispatch
    rw [bad]
    rfl
  obtain ⟨e, hears⟩ := linkHeard_spec ⟨source, sequence⟩ (frameEnds s.part)
  obtain ⟨-, mod', -, -, -, msg', -⟩ := linkHeard_rest ⟨source, sequence⟩ (frameEnds s.part)
  unfold deliver at ends
  rw [show dispatch _ _ _ (linkHeard _ _) = _ from acts] at ends
  obtain ⟨g, raised⟩ := finish_eq s.part (q := postIf .messageArrived (arg2 kind.toNat MessageOutcome.badFormat.code) true
    (autoStand (handRefusal source kind.toNat 0 .badParam counted))) (autoStand_idle _)
  obtain ⟨moves, returned, last⟩ := message_rest (ends.trans raised)
  have handed : Moves [] counted (handRefusal source kind.toNat 0 .badParam counted) := handRefusal_moves _ _ _ _ (.refl _)
  obtain ⟨-, -, stations, timer, -⟩ := handed.frame.link (by decide)
  have link : counted.link = heardLink ⟨source, sequence⟩ (frameEnds s.part) := by
    show heard.link = _
    rw [show heard = _ from hears]; rfl
  refine ⟨?_, ?_, ?_, last, fun awake room => ?_⟩
  · rw [returned.msg, show (handRefusal _ _ _ _ counted).msg = counted.msg from offer_msg _ _]
    show sat16 heard.msg.badFormat = _
    rw [show heard.msg = (frameEnds s.part).msg from msg', msg]
  · rw [returned.link, stations, link, ← now]
    exact heardLink_station (src := ⟨source, sequence⟩) station _
  · rw [returned.link, timer, link]
    exact congrArg some now
  · have sent := handRefusal_transmits (station := source) (kind := kind) (p := counted) (by rw [show counted.mod = s.part.mod from mod'.trans mod]; exact awake)
      (by rw [link]; show (frameEnds s.part).link.queue.length < 4; rw [ended]; exact room)
    unfold Safety.transmits at sent ⊢
    rw [returned.link]
    exact sent

end

/-- Settles O52: END, and the checks of Table 8-3 in their order. -/
theorem framesJudged : Obligations.FramesJudged := by
  unfold Obligations.FramesJudged
  intro buffer damaged gap s free off present inside
  refine partRow_ends _ s _ fun t ends _ _ => ?_
  obtain ⟨prf, stations⟩ : (frameEnds s.part).prf = s.part.prf ∧ (frameEnds s.part).link.stations = s.part.link.stations := by
    obtain ⟨-, stations, -, prf, -⟩ := frameEnds_present s.part present
    exact ⟨prf, stations⟩
  have completes : receive 0xF2 (errored 0xF2 (evenParity 0xF2) true) s.part = completeFrame buffer damaged s.part := by
    rw [errored_even, receive_assemble free (.inr (.inl ⟨by decide, by decide⟩)) off present, assemble_completes inside]
  rw [completes] at ends
  obtain ⟨returned, queue, faults⟩ := finish_all s.part (completeFrame buffer damaged s.part)
  rw [← ends] at returned queue faults
  have lost : ∀ r, completeFrame buffer damaged s.part = rxDrop r (frameEnds s.part) → Safety.frameLost r s.part.link s.part t.part := fun r dropped => by
    rw [dropped] at returned queue faults
    exact drop_lost r s.part free present returned.link queue faults
  refine ⟨fun h => lost _ (h ▸ completeFrame_damaged), fun h short => lost _ (h ▸ completeFrame_short short),
    fun dest source kind sequence payload crc h length shape => ?_⟩
  subst h shape
  have judges := completeFrame_judges (p := s.part) (dest := dest) (source := source) (kind := kind) (sequence := sequence) (crc := crc) length
  refine ⟨fun wrong => lost _ (judges.trans (judgeFrame_crc wrong)), fun right => ⟨fun other own => lost _ (judges.trans (judgeFrame_other right (by rw [prf]; exact other) own)),
    fun mine => ?_⟩⟩
  rw [← prf] at mine
  refine ⟨fun bad => lost _ (judges.trans (judgeFrame_badSource right mine bad)), fun i station => ?_⟩
  rw [← stations]
  refine ⟨fun held => ?_, fun fresh bad => ?_⟩
  · rw [judges.trans (judgeFrame_duplicate right mine station held)] at returned queue faults
    rw [stations]
    exact duplicate_lost present free station returned.link queue faults
  · rw [judges.trans (judgeFrame_delivers right mine station fresh)] at ends
    exact badFormat_ends present station bad ends

end Sys2Proof.Machine
end

section
/-! A message's frame is that message (R142 to R146, R152, R158, R194, R195). -/

namespace Sys2Proof.Machine

/-! ### START and END around a frame -/

/-- The state of the transmitter while a frame comes in (R148). -/
def frameState (x : LinkState) : LinkState := if x == .listen then .receiving else x

theorem start_step {s : State} (stand : Safety.standDone s.part) (free : s.part.asserted = false) (off : s.part.link.ptt = false) (present : s.part.link.cd = true)
    (outside : s.part.link.assembler = .outside) :
    ∃ t, exec (.rxCharacter 0xF1 (evenParity 0xF1) true) s = .next t ∧ at_ s (inside s [] false (frameState s.part.link.state)) t := by
  refine char_step s s.part.link _ 0xF1 s stand ⟨s.part.bridge.generations, rfl⟩ fun g => ?_
  let p := s.part.withBridge { s.part.bridge with generations := g }
  show receive 0xF1 false p = _
  rw [receive_assemble (p := p) free (.inr (.inl ⟨by decide, by decide⟩)) off present, assemble_starts (p := p) outside]
  rfl

/-- An idle link whose receiver is in no frame. -/
def Idle (l : Link) : Prop := l.assembler = .outside ∧ ((l.state = .listen ∧ l.queue = []) ∨ l.state = .defer)

/-- The end of a frame that began in an idle link leaves the link as it was. -/
theorem frameEnds_idle {p : Part} (idle : Idle p.link) (a : Assembler) :
    frameEnds (p.withLink { p.link with assembler := a, state := frameState p.link.state }) = p := by
  obtain ⟨outside, state⟩ := idle
  have kept : ({ p.link with assembler := .outside, state := p.link.state } : Link) = p.link := by rw [← outside]
  rcases state with ⟨listen, empty⟩ | defer
  · have receiving : frameState p.link.state = .receiving := by rw [listen]; rfl
    unfold frameEnds
    rw [receiving]
    refine (if_pos rfl).trans ?_
    unfold toListen listenLook
    rw [← listen]
    refine (if_neg (by simp [empty])).trans ?_
    exact congrArg p.withLink kept
  · have same : frameState p.link.state = p.link.state := by rw [defer]; rfl
    rw [frameEnds_else _ (by rw [Part.withLink_link, same, defer]; decide), same]
    exact congrArg p.withLink kept

/-! ### The bytes of a message -/

section
variable {c : Instr} {src : Sender} {kind : Nat} {dest : Byte}

/-- The frame of a message, from its destination to its payload (Table 12-8). -/
def messageBytes (c : Instr) (src : Sender) (kind : Nat) (dest : Byte) : List Byte :=
  [dest, src.station, BitVec.ofNat 8 kind, src.sequence, BitVec.ofNat 8 (Safety.payloadOf c).length] ++ Safety.payloadOf c

/-- The frame of a message in the assembler. -/
def messageBuffer (c : Instr) (src : Sender) (kind : Nat) (dest : Byte) : List Byte :=
  Safety.frameBuffer dest src.station (BitVec.ofNat 8 kind) src.sequence (Safety.payloadOf c) (crc16 (messageBytes c src kind dest))

theorem messageBuffer_take : (messageBuffer c src kind dest).take ((Safety.payloadOf c).length + 5) = messageBytes c src kind dest := take_frameBuffer

theorem frameStream_eq : frameStream (messageBytes c src kind dest) (crc16 (messageBytes c src kind dest))
    = 0xF1#8 :: ((messageBuffer c src kind dest).flatMap stuff ++ [0xF2#8]) := rfl

/-- END of a message's frame delivers the message. -/
theorem completeFrame_message {p : Part} {a : Assembler} (of : Safety.messageOf c = some (src, kind)) (good : c.wf = true) (idle : Idle p.link)
    (mine : dest.toNat = p.prf.settings.carId ∨ dest = 0xFF)
    (fresh : ∀ i : Fin 30, src.station.toNat = i.val + 1 → (p.link.stations[i]).sequence ≠ some src.sequence) :
    completeFrame (messageBuffer c src kind dest) false (p.withLink { p.link with assembler := a, state := frameState p.link.state })
      = deliver src kind (dispatch src kind (Safety.payloadOf c)) p := by
  obtain ⟨small, length, known⟩ := kind_le c src kind of good
  have number : (BitVec.ofNat 8 kind).toNat = kind := by rw [BitVec.toNat_ofNat]; omega
  obtain ⟨low, high⟩ : 1 ≤ src.station.toNat ∧ src.station.toNat ≤ 30 := by simpa [Sender.wf] using known
  have station : src.station.toNat = (⟨src.station.toNat - 1, by omega⟩ : Fin 30).val + 1 := by show _ = src.station.toNat - 1 + 1; omega
  refine (completeFrame_judges length).trans ?_
  rw [frameEnds_idle idle]
  refine (judgeFrame_delivers (congrArg crc16 messageBuffer_take.symm) mine station (fresh _ station)).trans ?_
  rw [number]

end

/-! ### Generation words -/

theorem finish_generations (b q : Part) : ∃ g, finish b q = (autoStand q).withBridge { (autoStand q).bridge with generations := g } :=
  raiseChanged_eq b (autoStand q)

/-- Two ends of one change differ in their generation words. -/
theorem finish_again (b b' q : Part) : ∃ h, finish b q = (finish b' q).withBridge { (finish b' q).bridge with generations := h } := by
  obtain ⟨g, one⟩ := finish_generations b q
  obtain ⟨g', two⟩ := finish_generations b' q
  exact ⟨g, by rw [one, two]; rfl⟩

/-- Settles O53. -/
theorem frameCarriesMessage : Obligations.FrameCarriesMessage := by
  unfold Obligations.FrameCarriesMessage
  intro c src kind dest s of good free off present outside state stand mine fresh bytes
  obtain ⟨-, length, known⟩ := kind_le c src kind of good
  obtain ⟨t₁, starts, at₁⟩ := start_step stand free off present outside
  obtain ⟨t₂, goes, ⟨g, at₂⟩⟩ := stuffed s stand free off present (frameState s.part.link.state) (messageBuffer c src kind dest) [0xF2#8] [] t₁ at₁
    (by unfold messageBuffer Safety.frameBuffer; simp; omega)
  let p := s.part.withBridge { s.part.bridge with generations := g }
  have sent : deliver src kind (dispatch src kind (Safety.payloadOf c)) p = receive 0xF2 false t₂.part := by
    subst at₂
    let q := p.withLink { p.link with assembler := .inside (messageBuffer c src kind dest) false false s.part.now, state := frameState p.link.state }
    show _ = receive 0xF2 false q
    rw [receive_assemble (p := q) free (.inr (.inl ⟨by decide, by decide⟩)) off present, assemble_completes (p := q) rfl]
    exact (completeFrame_message (p := p) of good ⟨outside, state⟩ mine fresh).symm
  have row : exec c (Safety.withGenerations g s) = .next { s with part := finish p (receive 0xF2 false t₂.part) } := by
    have acts : messageRow src kind (dispatch src kind (Safety.payloadOf c)) p = receive 0xF2 false t₂.part :=
      (if_neg (by rw [known, show p.asserted = false from free]; decide)).trans sent
    rw [dispatched c src kind of good, ← acts]
    rfl
  obtain ⟨h, again⟩ := finish_again t₂.part p (receive 0xF2 false t₂.part)
  refine ⟨_, _, g, h, ?_, row, rfl⟩
  have ends : exec (.rxCharacter 0xF2 (evenParity 0xF2) true) t₂ = .next { t₂ with part := finish t₂.part (receive 0xF2 false t₂.part) } := by
    show partRow (receive 0xF2 (errored 0xF2 (evenParity 0xF2) true)) t₂ = _
    rw [errored_even]
    rfl
  refine (congrArg (Safety.receives · s) frameStream_eq).trans ((receives_cons starts).trans (goes.trans ((receives_cons ends).trans ?_)))
  rw [again, at₂]
  rfl

end Sys2Proof.Machine
end

section
/-! SET GUARD, SET DOOR EVENTS and TAKE MESSAGE (R87, R138, R165), and the triggers that are turned away (R180, R183). -/

namespace Sys2Proof.Machine

/-! ### SET GUARD -/

section
variable {work : Vector Word 7} {p : Part} {i : Fin 4}

/-- The fields of SET GUARD are a guard's (R87). -/
def goodGuard (work : Vector Word 7) : Prop :=
  (byteAt work[2] 0 = 1 ∨ byteAt work[2] 0 = 2) ∧ 1 ≤ byteAt work[2] 1 ∧ byteAt work[2] 1 ≤ 3 ∧ (byteAt work[2] 0 = 1 → work[3].toNat ≤ work[4].toNat)

/-- The address of SET GUARD is a word of the host's memory (R87). -/
def goodAddress (work : Vector Word 7) (p : Part) : Prop :=
  work[1].toNat % 4 = 0 ∧ work[1].toNat < 16777216 ∧ Safety.outsideArea work[1].toNat p

/-- The guard that SET GUARD asks for, of this kind and action. -/
def askedGuard (work : Vector Word 7) (k : GuardKind) (act : GuardAction) : Guard :=
  { enabled := true, address := work[1], kind := k, low := if k == .fixed then work[3] else 0,
    high := if k == .fixed then work[4] else 0, action := act, violations := 0, last := 0 }

theorem guardKind?_code {n : Nat} {k : GuardKind} (h : guardKind? n = some k) : k.code = n ∧ (n = 1 ↔ k = .fixed) ∧ (n = 1 ∨ n = 2) := by
  unfold guardKind? at h
  split at h <;> cases h <;> decide

theorem guardAction?_code {n : Nat} {x : GuardAction} (h : guardAction? n = some x) : x.code = n ∧ 1 ≤ n ∧ n ≤ 3 := by
  unfold guardAction? at h
  split at h <;> cases h <;> decide

theorem guardKind?_of {n : Nat} (h : n = 1 ∨ n = 2) : ∃ k, guardKind? n = some k := by
  rcases h with rfl | rfl <;> exact ⟨_, rfl⟩

theorem guardAction?_of {n : Nat} (low : 1 ≤ n) (high : n ≤ 3) : ∃ x, guardAction? n = some x := by
  obtain rfl | rfl | rfl : n = 1 ∨ n = 2 ∨ n = 3 := by omega
  all_goals exact ⟨_, rfl⟩

theorem guardDuplicate_iff {a : Word} :
    guardDuplicate i a p = false ↔ ∀ j : Fin 4, j ≠ i → (p.bridge.guards[j]).enabled = true → (p.bridge.guards[j]).address ≠ a := by
  have all : ∀ j : Fin 4, j ∈ allGuards := by decide
  unfold guardDuplicate
  rw [List.any_eq_false]
  simp only [Bool.and_eq_true, bne_iff_ne, beq_iff_eq, not_and, and_imp]
  exact ⟨fun h j => h j (all j), fun h j _ => h j⟩

theorem judgeSetGuard_lockout (locked : ¬ p.mod.mode ≠ .lockout) : judgeSetGuard work p = (p, .no .lockout) := by
  unfold judgeSetGuard
  exact if_pos (by simpa using locked)

section
variable (running : p.mod.mode ≠ .lockout)
include running

theorem judgeSetGuard_badSlot (above : 3 < param work 0) : judgeSetGuard work p = (p, .no .badParam) := by
  unfold judgeSetGuard
  refine (if_neg (by simpa using running)).trans ?_
  rw [guardOf?_above above]

variable (named : param work 0 = i.val)
include named

/-- The part of SET GUARD that looks at the fields, for a slot that there is. -/
theorem judgeSetGuard_fields {k : GuardKind} {act : GuardAction} (kind : guardKind? (byteAt work[2] 0) = some k) (action : guardAction? (byteAt work[2] 1) = some act) :
    judgeSetGuard work p =
      if k == .fixed && work[4].toNat < work[3].toNat then (p, .no .badParam)
      else if work[1].toNat % 4 != 0 || 0x1000000 ≤ work[1].toNat || p.inArea work[1].toNat then (p, .no .badParam)
      else if speedGuardHeld i p then (p, .no .wrongMode)
      else if guardDuplicate i work[1] p then (p, .no .duplicate)
      else (setGuardSlot i (fun _ => askedGuard work k act) p, .take (BitVec.ofNat 32 i.val)) := by
  unfold judgeSetGuard
  refine (if_neg (by simpa using running)).trans ?_
  rw [named, guardOf?_val, kind, action]
  rfl

theorem judgeSetGuard_badFields (bad : ¬ goodGuard work) : judgeSetGuard work p = (p, .no .badParam) := by
  cases kind : guardKind? (byteAt work[2] 0) with
  | none =>
    unfold judgeSetGuard
    refine (if_neg (by simpa using running)).trans ?_
    rw [named, guardOf?_val, kind]
  | some k =>
    cases action : guardAction? (byteAt work[2] 1) with
    | none =>
      unfold judgeSetGuard
      refine (if_neg (by simpa using running)).trans ?_
      rw [named, guardOf?_val, kind, action]
    | some act =>
      obtain ⟨-, fixed, known⟩ := guardKind?_code kind
      obtain ⟨-, low, high⟩ := guardAction?_code action
      refine (judgeSetGuard_fields running named kind action).trans (if_pos ?_)
      by_contra ordered
      refine bad ⟨known, low, high, fun one => ?_⟩
      rw [fixed.1 one] at ordered
      simpa using ordered

/-- Past the check of the fields. -/
theorem judgeSetGuard_good (good : goodGuard work) : ∃ k act, guardKind? (byteAt work[2] 0) = some k ∧ guardAction? (byteAt work[2] 1) = some act
    ∧ judgeSetGuard work p =
      if work[1].toNat % 4 != 0 || 0x1000000 ≤ work[1].toNat || p.inArea work[1].toNat then (p, .no .badParam)
      else if speedGuardHeld i p then (p, .no .wrongMode)
      else if guardDuplicate i work[1] p then (p, .no .duplicate)
      else (setGuardSlot i (fun _ => askedGuard work k act) p, .take (BitVec.ofNat 32 i.val)) := by
  obtain ⟨known, low, high, ordered⟩ := good
  obtain ⟨k, kind⟩ := guardKind?_of known
  obtain ⟨act, action⟩ := guardAction?_of low high
  obtain ⟨-, fixed, -⟩ := guardKind?_code kind
  refine ⟨k, act, kind, action, (judgeSetGuard_fields running named kind action).trans (if_neg fun h => ?_)⟩
  obtain ⟨one, more⟩ := Bool.and_eq_true_iff.1 h
  exact absurd (of_decide_eq_true more) (Nat.not_lt.2 (ordered (fixed.2 (beq_iff_eq.1 one))))

end

theorem goodAddress_iff : goodAddress work p ↔ (work[1].toNat % 4 != 0 || decide (0x1000000 ≤ work[1].toNat) || p.inArea work[1].toNat) = false := by
  unfold goodAddress
  rw [outside_iff, Bool.or_eq_false_iff, Bool.or_eq_false_iff, bne_eq_false_iff_eq, decide_eq_false_iff_not, Nat.not_le, and_assoc]

end

/-- SET GUARD takes a slot. -/
theorem setGuard_takes {u : Trigger} {s : State} {i : Fin 4} {k : GuardKind} {act : GuardAction} (judged : Safety.triggerJudged u s)
    (kind : guardKind? (byteAt (Safety.workingCopy u s)[2] 0) = some k) (action : guardAction? (byteAt (Safety.workingCopy u s)[2] 1) = some act)
    (taken : judgeSetGuard (Safety.workingCopy u s) (received 21 u s)
      = (setGuardSlot i (fun _ => askedGuard (Safety.workingCopy u s) k act) (received 21 u s), .take (BitVec.ofNat 32 i.val))) :
    let work := Safety.workingCopy u s
    ∃ t, exec (.setGuard u) s = .next t
      ∧ (Safety.orderDone 21 u (BitVec.ofNat 32 i.val) s t
            ∧ (∀ j : Fin 4, j ≠ i → t.part.bridge.guards[j] = s.part.bridge.guards[j])
            ∧ (t.part.bridge.guards[i]).enabled = true ∧ (t.part.bridge.guards[i]).address = work[1]
            ∧ (t.part.bridge.guards[i]).kind.code = byteAt work[2] 0 ∧ (t.part.bridge.guards[i]).action.code = byteAt work[2] 1
            ∧ (byteAt work[2] 0 = 1 → (t.part.bridge.guards[i]).low = work[3] ∧ (t.part.bridge.guards[i]).high = work[4])
            ∧ (t.part.bridge.guards[i]).violations = 0 ∧ (t.part.bridge.guards[i]).last = 0) := by
  intro work
  refine order_take (kind := 21) (judge := fun _ => judgeSetGuard) judged taken _ fun t ⟨o, ends⟩ done _ => ?_
  have guards : t.part.bridge.guards = (setGuardSlot i (fun _ => askedGuard work k act) (received 21 u s)).bridge.guards := (order_rest ends).1.guards
  have slot : t.part.bridge.guards[i] = askedGuard work k act := by rw [guards]; exact setGuardSlot_same i _ _
  obtain ⟨code, fixed, -⟩ := guardKind?_code kind
  obtain ⟨code', -⟩ := guardAction?_code action
  refine ⟨done, fun j other => by rw [guards]; exact setGuardSlot_other _ _ other, ?_⟩
  rw [slot]
  refine ⟨rfl, rfl, code, code', fun one => ?_, rfl, rfl⟩
  have same := fixed.1 one
  subst same
  exact ⟨rfl, rfl⟩

/-- SET GUARD with a slot number that there is. -/
theorem setGuard_named {u : Trigger} {s : State} {i : Fin 4} (judged : Safety.triggerJudged u s) (running : s.part.mod.mode ≠ .lockout)
    (named : param (Safety.workingCopy u s) 0 = i.val) :
    let work := Safety.workingCopy u s
    let a := work[1]
    ∃ t, exec (.setGuard u) s = .next t ∧
        Safety.checked (fun r => Safety.orderRefused 21 u r 0 s t)
          (Safety.orderDone 21 u (BitVec.ofNat 32 i.val) s t
            ∧ (∀ j : Fin 4, j ≠ i → t.part.bridge.guards[j] = s.part.bridge.guards[j])
            ∧ (t.part.bridge.guards[i]).enabled = true ∧ (t.part.bridge.guards[i]).address = a
            ∧ (t.part.bridge.guards[i]).kind.code = byteAt work[2] 0 ∧ (t.part.bridge.guards[i]).action.code = byteAt work[2] 1
            ∧ (byteAt work[2] 0 = 1 → (t.part.bridge.guards[i]).low = work[3] ∧ (t.part.bridge.guards[i]).high = work[4])
            ∧ (t.part.bridge.guards[i]).violations = 0 ∧ (t.part.bridge.guards[i]).last = 0)
          [((byteAt work[2] 0 = 1 ∨ byteAt work[2] 0 = 2) ∧ 1 ≤ byteAt work[2] 1 ∧ byteAt work[2] 1 ≤ 3
              ∧ (byteAt work[2] 0 = 1 → work[3].toNat ≤ work[4].toNat), .badParam),
           (a.toNat % 4 = 0 ∧ a.toNat < 16777216 ∧ Safety.outsideArea a.toNat s.part, .badParam),
           (¬ (s.part.mod.mode = .run ∧ (s.part.bridge.guards[i]).enabled = true ∧ (s.part.bridge.guards[i]).kind = .speed), .wrongMode),
           (∀ j : Fin 4, j ≠ i → (s.part.bridge.guards[j]).enabled = true → (s.part.bridge.guards[j]).address ≠ a, .duplicate)] := by
  intro work a
  let p := received 21 u s
  refine check_step (fun bad => refuse_of (kind := 21) (judge := fun _ => judgeSetGuard) judged (judgeSetGuard_badFields (p := p) running named bad)) fun good => ?_
  obtain ⟨k, act, kind, action, checked⟩ := judgeSetGuard_good (p := p) running named good
  refine check_step (fun bad => refuse_of (kind := 21) (judge := fun _ => judgeSetGuard) judged (checked.trans (if_pos ?_))) fun address => ?_
  · by_contra none
    exact bad (goodAddress_iff (p := p).2 (Bool.eq_false_iff.2 none))
  replace checked := checked.trans (if_neg (Bool.eq_false_iff.1 (goodAddress_iff (p := p).1 address)))
  refine check_step (fun held => refuse_of (kind := 21) (judge := fun _ => judgeSetGuard) judged (checked.trans (if_pos ((speedGuardHeld_iff i p).2 (not_not.1 held))))) fun free => ?_
  replace checked := checked.trans (if_neg fun held => free ((speedGuardHeld_iff i p).1 held))
  refine check_step (fun twice => refuse_of (kind := 21) (judge := fun _ => judgeSetGuard) judged (checked.trans (if_pos ?_))) fun alone => check_end ?_
  · by_contra none
    exact twice (guardDuplicate_iff (p := p).1 (Bool.eq_false_iff.2 none))
  exact setGuard_takes judged kind action (checked.trans (if_neg (Bool.eq_false_iff.1 (guardDuplicate_iff (p := p).2 alone))))

/-- SET GUARD (R87). -/
theorem setGuard_ends {u : Trigger} {s : State} (judged : Safety.triggerJudged u s) :
    let work := Safety.workingCopy u s
    ∃ t, exec (.setGuard u) s = .next t ∧ Safety.checked (fun r => Safety.orderRefused 21 u r 0 s t)
      (∀ i : Fin 4, param work 0 = i.val →
        let a := work[1]
        Safety.checked (fun r => Safety.orderRefused 21 u r 0 s t)
          (Safety.orderDone 21 u (BitVec.ofNat 32 i.val) s t
            ∧ (∀ j : Fin 4, j ≠ i → t.part.bridge.guards[j] = s.part.bridge.guards[j])
            ∧ (t.part.bridge.guards[i]).enabled = true ∧ (t.part.bridge.guards[i]).address = a
            ∧ (t.part.bridge.guards[i]).kind.code = byteAt work[2] 0 ∧ (t.part.bridge.guards[i]).action.code = byteAt work[2] 1
            ∧ (byteAt work[2] 0 = 1 → (t.part.bridge.guards[i]).low = work[3] ∧ (t.part.bridge.guards[i]).high = work[4])
            ∧ (t.part.bridge.guards[i]).violations = 0 ∧ (t.part.bridge.guards[i]).last = 0)
          [((byteAt work[2] 0 = 1 ∨ byteAt work[2] 0 = 2) ∧ 1 ≤ byteAt work[2] 1 ∧ byteAt work[2] 1 ≤ 3
              ∧ (byteAt work[2] 0 = 1 → work[3].toNat ≤ work[4].toNat), .badParam),
           (a.toNat % 4 = 0 ∧ a.toNat < 16777216 ∧ Safety.outsideArea a.toNat s.part, .badParam),
           (¬ (s.part.mod.mode = .run ∧ (s.part.bridge.guards[i]).enabled = true ∧ (s.part.bridge.guards[i]).kind = .speed), .wrongMode),
           (∀ j : Fin 4, j ≠ i → (s.part.bridge.guards[j]).enabled = true → (s.part.bridge.guards[j]).address ≠ a, .duplicate)])
      [(s.part.mod.mode ≠ .lockout, .lockout), (param work 0 ≤ 3, .badParam)] := by
  intro work
  let p := received 21 u s
  refine check_step (fun locked => refuse_of (kind := 21) (judge := fun _ => judgeSetGuard) judged (judgeSetGuard_lockout (p := p) locked)) fun running => ?_
  refine check_step (fun above => refuse_of (kind := 21) (judge := fun _ => judgeSetGuard) judged (judgeSetGuard_badSlot (p := p) running (Nat.not_le.1 above)))
    fun slot => check_end ?_
  obtain ⟨t, ends, checked⟩ := setGuard_named (i := ⟨param work 0, Nat.lt_succ_of_le slot⟩) judged running rfl
  refine ⟨t, ends, fun i named => ?_⟩
  obtain rfl : (⟨param work 0, Nat.lt_succ_of_le slot⟩ : Fin 4) = i := Fin.ext named
  exact checked

/-! ### SET DOOR EVENTS and TAKE MESSAGE -/

section
variable {work : Vector Word 7} {p : Part}

/-- The masks of SET DOOR EVENTS have 20 bits (R138). -/
def goodMasks (work : Vector Word 7) : Prop := param work 0 < 2 ^ 20 ∧ param work 1 < 2 ^ 20 ∧ param work 2 < 2 ^ 20 ∧ param work 3 < 2 ^ 20

theorem badMasks_iff :
    (1048576 ≤ param work 0 ∨ 1048576 ≤ param work 1 ∨ 1048576 ≤ param work 2 ∨ 1048576 ≤ param work 3) ↔ ¬ goodMasks work := by
  unfold goodMasks
  omega

theorem judgeSetDoorEvents_badParam (bad : ¬ goodMasks work) : judgeSetDoorEvents work p = (p, .no .badParam) := by
  unfold judgeSetDoorEvents
  exact if_pos (badMasks_iff.2 bad)

theorem judgeSetDoorEvents_takes (good : goodMasks work) : judgeSetDoorEvents work p
    = (p.withDor { p.dor with risingLow := work[0], risingHigh := work[1], fallingLow := work[2], fallingHigh := work[3] }, .take 0) := by
  unfold judgeSetDoorEvents
  exact if_neg fun h => badMasks_iff.1 h good

theorem judgeTakeMessage_empty (empty : p.msg.mailbox = []) : judgeTakeMessage work p = (p, .no .empty) := by
  unfold judgeTakeMessage
  rw [empty]

variable {m : Message} {rest : List Message} (head : p.msg.mailbox = m :: rest)
include head

theorem judgeTakeMessage_badParam (other : ¬ (param work 0 = 0 ∨ param work 0 = m.serial.toNat)) : judgeTakeMessage work p = (p, .no .badParam) := by
  unfold judgeTakeMessage
  rw [head]
  exact if_pos (by simpa [not_or] using other)

theorem judgeTakeMessage_takes (mine : param work 0 = 0 ∨ param work 0 = m.serial.toNat) :
    judgeTakeMessage work p = (p.withMsg { p.msg with mailbox := rest }, .take (BitVec.ofNat 32 rest.length)) := by
  unfold judgeTakeMessage
  rw [head]
  exact if_neg (by rcases mine with h | h <;> simp [h])

end

/-- SET DOOR EVENTS (R138). -/
theorem setDoorEvents_ends {u : Trigger} {s : State} (judged : Safety.triggerJudged u s) :
    let work := Safety.workingCopy u s
    ∃ t, exec (.setDoorEvents u) s = .next t ∧ Safety.checked (fun r => Safety.orderRefused 20 u r 0 s t)
      (Safety.orderDone 20 u 0 s t ∧ t.part.dor.risingLow = work[0] ∧ t.part.dor.risingHigh = work[1]
        ∧ t.part.dor.fallingLow = work[2] ∧ t.part.dor.fallingHigh = work[3])
      [(param work 0 < 2 ^ 20 ∧ param work 1 < 2 ^ 20 ∧ param work 2 < 2 ^ 20 ∧ param work 3 < 2 ^ 20, .badParam)] := by
  intro work
  let p := received 20 u s
  refine check_step (fun bad => refuse_of (kind := 20) (judge := fun _ => judgeSetDoorEvents) judged (judgeSetDoorEvents_badParam (p := p) bad)) fun good => check_end ?_
  refine order_take (kind := 20) (judge := fun _ => judgeSetDoorEvents) judged (judgeSetDoorEvents_takes (p := p) good) _ fun t ⟨o, ends⟩ done _ => ⟨done, ?_⟩
  obtain ⟨risingLow, risingHigh, fallingLow, fallingHigh⟩ := (order_rest ends).2.masks (by decide)
  exact ⟨risingLow, risingHigh, fallingLow, fallingHigh⟩

/-- TAKE MESSAGE (R165). -/
theorem takeMessage_ends {u : Trigger} {s : State} (judged : Safety.triggerJudged u s) :
    let work := Safety.workingCopy u s
    ∃ t, exec (.takeMessage u) s = .next t ∧ Safety.checked (fun r => Safety.orderRefused 24 u r 0 s t)
      (∀ m rest, s.part.msg.mailbox = m :: rest → Safety.checked (fun r => Safety.orderRefused 24 u r 0 s t)
        (Safety.orderDone 24 u (BitVec.ofNat 32 rest.length) s t ∧ t.part.msg.mailbox = rest)
        [(param work 0 = 0 ∨ param work 0 = m.serial.toNat, .badParam)])
      [(s.part.msg.mailbox ≠ [], .empty)] := by
  intro work
  let p := received 24 u s
  refine check_step (fun empty => refuse_of (kind := 24) (judge := fun _ => judgeTakeMessage) judged (judgeTakeMessage_empty (p := p) (not_not.1 empty))) fun some_ => check_end ?_
  obtain ⟨m, rest, head⟩ := List.exists_cons_of_ne_nil some_
  have one : ∃ t, exec (.takeMessage u) s = .next t ∧ Safety.checked (fun r => Safety.orderRefused 24 u r 0 s t)
        (Safety.orderDone 24 u (BitVec.ofNat 32 rest.length) s t ∧ t.part.msg.mailbox = rest)
        [(param work 0 = 0 ∨ param work 0 = m.serial.toNat, .badParam)] := by
    refine check_step (fun other => refuse_of (kind := 24) (judge := fun _ => judgeTakeMessage) judged (judgeTakeMessage_badParam (p := p) head other)) fun mine => check_end ?_
    refine order_take (kind := 24) (judge := fun _ => judgeTakeMessage) judged (judgeTakeMessage_takes (p := p) head mine) _ fun t ⟨o, ends⟩ done _ => ⟨done, ?_⟩
    rw [(order_rest ends).1.msg]
    rfl
  obtain ⟨t, ends, checked⟩ := one
  refine ⟨t, ends, fun m' rest' head' => ?_⟩
  obtain ⟨rfl, rfl⟩ := List.cons.inj (head.symm.trans head')
  exact checked

/-- Settles O54. -/
theorem otherOrders : Obligations.OtherOrders := by
  unfold Obligations.OtherOrders
  exact fun u s judged => ⟨setGuard_ends judged, setDoorEvents_ends judged, takeMessage_ends judged⟩

/-! ### The triggers that are turned away -/

/-- A trigger's row judges its kind in its slot. -/
theorem trigger_row {c : Instr} {u : Trigger} (of : Safety.triggerOf c = some u) :
    ∃ judge, ∀ s, exec c s = hostRow (triggerWith (Safety.kindOf c) judge u) s := by
  cases c <;> first
    | exact ⟨_, by cases of; exact fun _ => rfl⟩
    | cases of

theorem triggerWith_busy {kind : Byte} {judge : Judge} {u : Trigger} {p : Part} {x : Path} (free : p.asserted = false)
    (running : (p.ord.slots[u.slot]).state = .running) : triggerWith kind judge u p x
      = (p, forwardWrite (p.areaAddr (u.slot.val * 32)) (orderWord kind u.tag (.refused, .busySlot)) 0xF#4 x) := by
  have turned : triggered kind judge u p = (p, (.refused, .busySlot)) := by
    unfold triggered
    exact if_pos (by simpa using running)
  unfold triggerWith
  simp only [free, Bool.false_eq_true, if_false, turned]

theorem triggerWith_asserted {kind : Byte} {judge : Judge} {u : Trigger} {p : Part} {x : Path} (asserted : p.asserted = true) :
    triggerWith kind judge u p x = (p, forwardWrite (p.areaAddr (u.slot.val * 32)) (hostOrderWord kind u) 0xF#4 x) := by
  unfold triggerWith
  simp only [asserted, if_true]

/-- A trigger of an unknown kind is refused in its slot (R183). -/
theorem unknownKind_ends {kind : Byte} {u : Trigger} {s : State} (judged : Safety.triggerJudged u s) :
    ∃ t, exec (.unknownKindTrigger kind u) s = .next t ∧ Safety.orderRefused kind u .unknownKind 0 s t
        ∧ (t.part.ord.slots[u.slot]).kind = kind ∧ (t.part.ord.slots[u.slot]).tag = u.tag
        ∧ (t.part.ord.slots[u.slot]).work = s.part.ord.shadows[u.slot] := by
  refine order_ends (judge := fun _ _ p => (p, .no .unknownKind)) judged rfl _ fun t ends forwarded _ => ?_
  have slot : t.part.ord.slots[u.slot]
      = { (received kind u s).ord.slots[u.slot] with state := .refused, verdict := .refused, reason := .unknownKind, result := 0 } := by
    rw [ends, finish_ord]; exact setSlot_same _ _ _
  have named : (received kind u s).ord.slots[u.slot] = { s.part.ord.slots[u.slot] with kind := kind, tag := u.tag, work := Safety.workingCopy u s } :=
    setSlot_same _ _ _
  rw [named] at slot
  exact ⟨⟨by rw [slot], by rw [slot], by rw [slot], by rw [slot], forwarded⟩, by rw [slot], by rw [slot], by rw [slot]; rfl⟩

/-- Settles O56. -/
theorem triggersTurnedAway : Obligations.TriggersTurnedAway := by
  unfold Obligations.TriggersTurnedAway
  intro c u s of _
  obtain ⟨judge, row⟩ := trigger_row of
  rw [row]
  refine ⟨fun free running => ?_, fun asserted => ?_, fun kind is judged => ?_⟩
  · refine hostRow_ends _ s _ fun t ends path _ => ?_
    rw [triggerWith_busy free running] at ends path
    have ord : t.part.ord = s.part.ord := by rw [ends, finish_ord]
    exact ⟨by rw [Safety.orderForwarded, path]; rfl, by rw [ord], by rw [ord]⟩
  · refine hostRow_ends _ s _ fun t ends path _ => ?_
    rw [triggerWith_asserted asserted] at ends path
    have ord : t.part.ord = s.part.ord := by rw [ends, finish_ord]
    exact ⟨by rw [ord], by rw [path]; rfl⟩
  · subst is
    rw [← row]
    exact unknownKind_ends judged

end Sys2Proof.Machine
end

section
/-! The host's writes: the bridge area (R29, R30, R36, R117, R175 to R177, R180) and the guarded words (R85, R86, R178). -/

namespace Sys2Proof.Machine

/-! ### Parameter words -/

section
variable {s : State}

/-- The shadow with one word merged (R175). -/
def shadowMerged (i : Fin 16) (w : Fin 7) (d : WriteData) (o : Ord) : Ord :=
  { o with shadows := o.shadows.set i (o.shadows[i].set w (mergeBytes o.shadows[i][w] d.data d.enables)) }

theorem shadowMerged_same (i : Fin 16) (w : Fin 7) (d : WriteData) (o : Ord) :
    (((shadowMerged i w d o).shadows[i])[w]) = mergeBytes (o.shadows[i])[w] d.data d.enables := by
  show ((o.shadows.set i.val _)[i.val])[w.val] = _
  rw [Vector.getElem_set_self, Vector.getElem_set_self]

theorem shadowMerged_other {i j : Fin 16} {w v : Fin 7} (d : WriteData) (o : Ord) (other : j ≠ i ∨ v ≠ w) :
    (((shadowMerged i w d o).shadows[j])[v]) = (o.shadows[j])[v] := by
  show ((o.shadows.set i.val _)[j.val])[v.val] = _
  by_cases slot : j = i
  · subst slot
    have word : w.val ≠ v.val := fun e => (other.resolve_left (fun h => h rfl)) (Fin.ext e.symm)
    rw [Vector.getElem_set_self, Vector.getElem_set_ne _ _ word]
    rfl
  · have away : i.val ≠ j.val := fun e => slot (Fin.ext e.symm)
    rw [Vector.getElem_set_ne _ _ away]
    rfl

theorem parameterWrite_ends (i : Fin 16) (w : Fin 7) (d : WriteData) : ∃ t, exec (.parameterWordWrite i w d) s = .next t
      ∧ Safety.passed (s.part.areaAddr (i.val * 32 + (w.val + 1) * 4)) d t
      ∧ (s.part.asserted = true → t.part.ord = s.part.ord)
      ∧ (s.part.asserted = false →
          t.part.ord = { s.part.ord with shadows := t.part.ord.shadows }
          ∧ Safety.bytesTaken (s.part.ord.shadows[i])[w] d (t.part.ord.shadows[i])[w]
          ∧ ∀ j v, (j ≠ i ∨ v ≠ w) → (t.part.ord.shadows[j])[v] = (s.part.ord.shadows[j])[v]) := by
  refine hostRow_ends (writeParameter i w d) s _ fun t ends path _ => ⟨by rw [Safety.passed, path]; rfl, fun asserted => ?_, fun free => ?_⟩
  · rw [ends, finish_ord, show (writeParameter i w d s.part s.path).1 = s.part from if_pos asserted]
  · have ord : t.part.ord = shadowMerged i w d s.part.ord := by
      rw [ends, finish_ord, show (writeParameter i w d s.part s.path).1 = s.part.withOrd (shadowMerged i w d s.part.ord) from if_neg (by rw [free]; decide)]
      rfl
    rw [ord]
    refine ⟨rfl, ?_, fun j v => shadowMerged_other d _⟩
    rw [shadowMerged_same]
    exact merge_taken _ d

/-! ### The staged areas -/

/-- The staged settings with one word merged: the first 32 words are captured (R30). -/
def settingsMerged (w : Fin 256) (d : WriteData) (x : Prf) : Prf :=
  { x with stagedSettings :=
      if h : w.val < 32 then x.stagedSettings.set w.val (mergeBytes x.stagedSettings[w.val] d.data d.enables) else x.stagedSettings }

/-- The staged records with one word merged: words 0 to 6 of a record are captured (R29). -/
def recordMerged (w : Fin 2048) (d : WriteData) (x : Prf) : Prf :=
  let i : Fin 256 := ⟨w.val / 8, by omega⟩
  { x with staged := x.staged.set i (x.staged[i].setWord (w.val % 8) (mergeBytes (x.staged[i].word (w.val % 8)) d.data d.enables)) }

theorem captureSettings_eq (w : Fin 256) (d : WriteData) (p : Part) : captureSettings w d p = abortActivation (p.withPrf (settingsMerged w d p.prf)) := by
  unfold captureSettings settingsMerged
  split <;> rfl

theorem captureProfile_eq (w : Fin 2048) (d : WriteData) (p : Part) : captureProfile w d p = abortActivation (p.withPrf (recordMerged w d p.prf)) := rfl

theorem settingsMerged_word (w : Fin 256) (d : WriteData) (x : Prf) (k : Fin 32) :
    (settingsMerged w d x).stagedSettings[k] = if k.val = w.val then mergeBytes x.stagedSettings[k] d.data d.enables else x.stagedSettings[k] := by
  unfold settingsMerged
  by_cases low : w.val < 32
  · simp only [low, dif_pos]
    show (x.stagedSettings.set w.val _)[k.val] = _
    rw [Vector.getElem_set]
    by_cases here : w.val = k.val
    · rw [if_pos here, if_pos here.symm]
      congr 1
      show x.stagedSettings[w.val] = x.stagedSettings[k.val]
      simp only [here]
    · rw [if_neg here, if_neg fun h => here h.symm]; rfl
  · simp only [low, dif_neg, not_false_eq_true]
    rw [if_neg (by omega)]

theorem recordMerged_word (w : Fin 2048) (d : WriteData) (x : Prf) (i : Fin 256) (k : Fin 7) :
    ((recordMerged w d x).staged[i]).word k.val
      = if i.val * 8 + k.val = w.val then mergeBytes ((x.staged[i]).word k.val) d.data d.enables else (x.staged[i]).word k.val := by
  unfold recordMerged
  show ((x.staged.set (w.val / 8) _)[i.val]).word k.val = _
  rw [Vector.getElem_set]
  by_cases record : w.val / 8 = i.val
  · rw [if_pos record]
    have same : x.staged[w.val / 8]'(by omega) = x.staged[i] := by simp only [record]; rfl
    show ((x.staged[w.val / 8]'(by omega)).setWord (w.val % 8) (mergeBytes ((x.staged[w.val / 8]'(by omega)).word (w.val % 8)) d.data d.enables)).word k.val = _
    rw [same]
    by_cases seventh : w.val % 8 = 7
    · rw [seventh, word_setWord7, if_neg (by omega)]
    · refine (word_setWord (x.staged[i]) ⟨w.val % 8, by omega⟩ k (mergeBytes (x.staged[i].word (w.val % 8)) d.data d.enables)).trans ?_
      by_cases here : k.val = w.val % 8
      · rw [if_pos (Fin.ext here), if_pos (by omega), here]
      · rw [if_neg fun h => here (congrArg Fin.val h), if_neg (by omega)]
  · rw [if_neg record, if_neg (by omega)]
    rfl

/-- A write into the staged areas: the staged copy is taken, and an activation that is COPYING is aborted (R36). -/
theorem captured_prf {x : Prf} {t : State} (copying : x.copying = s.part.prf.copying)
    (ends : t.part = finish s.part (abortActivation (s.part.withPrf x))) :
    t.part.prf = { x with copying := none } ∧ (s.part.prf.copying.isSome = true → Safety.activationAborted s.part t.part) := by
  obtain ⟨prf, aborted⟩ := abort_spec (s.part.withPrf x)
  obtain ⟨returned, queue, -⟩ := finish_all s.part (abortActivation (s.part.withPrf x))
  rw [← ends] at returned queue
  exact ⟨returned.prf.trans prf, fun some_ => aborted (by rw [← copying] at some_; exact some_) t.part queue returned.ord⟩

theorem settingsWrite_ends (w : Fin 256) (d : WriteData) : ∃ t, exec (.settingsWrite w d) s = .next t ∧ Safety.passed (s.part.areaAddr (1024 + w.val * 4)) d t
      ∧ t.part.prf.active = s.part.prf.active ∧ t.part.prf.settings = s.part.prf.settings ∧ t.part.prf.staged = s.part.prf.staged
      ∧ (s.part.asserted = true → t.part.prf = s.part.prf)
      ∧ (s.part.asserted = false → t.part.prf.copying = none
          ∧ (s.part.prf.copying.isSome = true → Safety.activationAborted s.part t.part)
          ∧ ∀ k : Fin 32, (k.val = w.val → Safety.bytesTaken s.part.prf.stagedSettings[k] d t.part.prf.stagedSettings[k])
              ∧ (k.val ≠ w.val → t.part.prf.stagedSettings[k] = s.part.prf.stagedSettings[k])) := by
  refine hostRow_ends (writeSettings w d) s _ fun t ends path _ => ⟨by rw [Safety.passed, path]; rfl, ?_⟩
  cases asserted : s.part.asserted with
  | true =>
    rw [show (writeSettings w d s.part s.path).1 = s.part from if_pos asserted] at ends
    have prf : t.part.prf = s.part.prf := by rw [ends]; exact (finish_returned _ _).prf
    rw [prf]
    exact ⟨rfl, rfl, rfl, fun _ => rfl, nofun⟩
  | false =>
    have captured : (writeSettings w d s.part s.path).1 = captureSettings w d s.part := if_neg (by rw [asserted]; decide)
    rw [captured, captureSettings_eq] at ends
    obtain ⟨prf, aborted⟩ := captured_prf (x := settingsMerged w d s.part.prf) rfl ends
    rw [prf]
    refine ⟨rfl, rfl, rfl, nofun, fun _ => ⟨rfl, aborted, fun k => ⟨fun here => ?_, fun away => ?_⟩⟩⟩
    · show Safety.bytesTaken _ d (settingsMerged w d s.part.prf).stagedSettings[k]
      rw [settingsMerged_word, if_pos here]
      exact merge_taken _ d
    · show (settingsMerged w d s.part.prf).stagedSettings[k] = _
      rw [settingsMerged_word, if_neg away]

theorem profileWrite_ends (w : Fin 2048) (d : WriteData) : ∃ t, exec (.profileWrite w d) s = .next t ∧ Safety.passed (s.part.areaAddr (4096 + w.val * 4)) d t
      ∧ t.part.prf.active = s.part.prf.active ∧ t.part.prf.settings = s.part.prf.settings
      ∧ t.part.prf.stagedSettings = s.part.prf.stagedSettings
      ∧ (s.part.asserted = true → t.part.prf = s.part.prf)
      ∧ (s.part.asserted = false → t.part.prf.copying = none
          ∧ (s.part.prf.copying.isSome = true → Safety.activationAborted s.part t.part)
          ∧ ∀ (i : Fin 256) (k : Fin 7),
              (i.val * 8 + k.val = w.val → Safety.bytesTaken ((s.part.prf.staged[i]).word k.val) d ((t.part.prf.staged[i]).word k.val))
              ∧ (i.val * 8 + k.val ≠ w.val → (t.part.prf.staged[i]).word k.val = (s.part.prf.staged[i]).word k.val)) := by
  refine hostRow_ends (writeProfile w d) s _ fun t ends path _ => ⟨by rw [Safety.passed, path]; rfl, ?_⟩
  cases asserted : s.part.asserted with
  | true =>
    rw [show (writeProfile w d s.part s.path).1 = s.part from if_pos asserted] at ends
    have prf : t.part.prf = s.part.prf := by rw [ends]; exact (finish_returned _ _).prf
    rw [prf]
    exact ⟨rfl, rfl, rfl, fun _ => rfl, nofun⟩
  | false =>
    have captured : (writeProfile w d s.part s.path).1 = captureProfile w d s.part := if_neg (by rw [asserted]; decide)
    rw [captured, captureProfile_eq] at ends
    obtain ⟨prf, aborted⟩ := captured_prf (x := recordMerged w d s.part.prf) rfl ends
    rw [prf]
    refine ⟨rfl, rfl, rfl, nofun, fun _ => ⟨rfl, aborted, fun i k => ⟨fun here => ?_, fun away => ?_⟩⟩⟩
    · show Safety.bytesTaken _ d (((recordMerged w d s.part.prf).staged[i]).word k.val)
      rw [recordMerged_word, if_pos here]
      exact merge_taken _ d
    · show ((recordMerged w d s.part.prf).staged[i]).word k.val = _
      rw [recordMerged_word, if_neg away]

/-! ### The alive word, order words and the mirror -/

theorem aliveWrite_ends (d : WriteData) : ∃ t, exec (.aliveWrite d) s = .next t ∧ Safety.passed (s.part.areaAddr 512) d t
      ∧ (s.part.asserted = true → t.part.mod.silence = s.part.mod.silence ∧ t.part.mod.hostSilent = s.part.mod.hostSilent)
      ∧ (s.part.asserted = false → t.part.mod.silence = some s.part.now ∧ t.part.mod.hostSilent = false) := by
  refine hostRow_ends (writeAlive d) s _ fun t ends path _ => ⟨by rw [Safety.passed, path]; rfl, fun asserted => ?_, fun free => ?_⟩
  · rw [show (writeAlive d s.part s.path).1 = s.part from if_pos asserted] at ends
    rw [ends]
    exact finish_silence s.part s.part
  · rw [show (writeAlive d s.part s.path).1 = aliveTaken s.part from if_neg (by rw [free]; decide)] at ends
    rw [ends]
    exact finish_silence s.part (aliveTaken s.part)

theorem orderPartial_ends (i : Fin 16) (d : WriteData) : ∃ t, exec (.orderWordPartialWrite i d) s = .next t
      ∧ Safety.passed (s.part.areaAddr (i.val * 32)) d t ∧ t.part.ord = s.part.ord
      ∧ (s.part.asserted = false →
          Safety.posts s.part t.part [(.badAccess, BitVec.ofNat 16 (i.val * 32), s.part.odo.pos)] ∧ Safety.flagged .bridge t.part) := by
  refine hostRow_ends (writeOrderPartial i d) s _ fun t ends path _ => ⟨by rw [Safety.passed, path]; rfl, ?_, fun free => ?_⟩
  · rw [ends, finish_ord]
    unfold writeOrderPartial
    split <;> rfl
  · rw [show (writeOrderPartial i d s.part s.path).1 = post .badAccess (BitVec.ofNat 16 (i.val * 32)) s.part from if_neg (by rw [free]; decide)] at ends
    have moves : Moves [.mode] (post .badAccess (BitVec.ofNat 16 (i.val * 32)) s.part) t.part := ends ▸ finish_moves s.part (by decide) (.refl _)
    exact ⟨posts_post (posts_nil (moves.frame.pre (by decide))), flagged_moves (flagged_post _ _ _ _ rfl) moves (by decide)⟩

theorem mirrorWrite_ends (w : Fin 2048) (d : WriteData) : ∃ t, exec (.mirrorWrite w d) s = .next t
      ∧ (s.part.asserted = true → Safety.passed (s.part.areaAddr (16384 + w.val * 4)) d t ∧ t.part.bridge.dropped = s.part.bridge.dropped)
      ∧ (s.part.asserted = false → t.path.access = none ∧ (s.path.access = none → t.path = s.path)
          ∧ t.part.bridge.dropped.toNat = min 65535 (s.part.bridge.dropped.toNat + 1)) := by
  refine hostRow_ends (writeMirror w d) s _ fun t ends path _ => ⟨fun asserted => ?_, fun free => ?_⟩
  · have passes : writeMirror w d s.part s.path = plainWrite (s.part.areaAddr (16384 + w.val * 4)) d s.part s.path := if_pos asserted
    rw [passes] at ends path
    exact ⟨by rw [Safety.passed, path]; rfl, by rw [ends]; exact (finish_returned _ _).dropped⟩
  · have drops : writeMirror w d s.part s.path
        = (s.part.withBridge { s.part.bridge with dropped := sat16 s.part.bridge.dropped }, completeEarlier s.path) := if_neg (by rw [free]; decide)
    rw [drops] at ends path
    refine ⟨by rw [path]; exact completeEarlier_access _, fun idle => by rw [path]; exact completeEarlier_none _ idle, ?_⟩
    rw [ends, (finish_returned _ _).dropped]
    exact sat16_toNat _

end

/-- Settles O57. -/
theorem hostWrites : Obligations.HostWrites := by
  unfold Obligations.HostWrites
  exact ⟨fun _ => ⟨parameterWrite_ends, aliveWrite_ends, settingsWrite_ends, profileWrite_ends⟩,
    fun _ => ⟨fun i d _ => orderPartial_ends i d, mirrorWrite_ends⟩⟩

/-! ### Guarded words -/

section
variable {a : BitVec 24} {d : WriteData} {s : State}

/-- A write outside the area to a word that a slot holds is checked by it. -/
theorem hostWrite_guarded {i : Fin 4} {p : Part} {x : Path} (aligned : a.toNat % 4 = 0) (free : p.asserted = false) (outside : Safety.outsideArea a.toNat p)
    (held : Safety.guarded i a.toNat p) : hostWrite a d p x = guardedWrite i a d p x := by
  have word : a.toNat / 4 * 4 = a.toNat := by omega
  unfold hostWrite
  simp only [word, free, (outside_iff _ _).1 outside, guardAt_some i _ _ held, Bool.false_eq_true, if_false, BitVec.ofNat_toNat, BitVec.setWidth_eq]

theorem guardedWrite_partial {i : Fin 4} {p : Part} {x : Path} (partial_ : d.enables ≠ 0xF) :
    guardedWrite i a d p x = (guardViolation i (d.data &&& enableMask d.enables) 4 p, completeEarlier x) := by
  unfold guardedWrite
  exact if_pos (by unfold isFull; simpa using partial_)

theorem outOfBounds {g : Guard} {p : Part} (out : d.data.toNat < (Safety.guardRange g p).1 ∨ (Safety.guardRange g p).2 < d.data.toNat) :
    ¬ (decide ((guardBounds g p).1 ≤ d.data.toNat) && decide (d.data.toNat ≤ (guardBounds g p).2)) = true := by
  rw [range_eq, Bool.and_eq_true, decide_eq_true_eq, decide_eq_true_eq]
  omega

section
variable {i : Fin 4} {p : Part} {x : Path} (full : d.enables = 0xF)
include full

theorem guardedWrite_within (low : (Safety.guardRange p.bridge.guards[i] p).1 ≤ d.data.toNat) (high : d.data.toNat ≤ (Safety.guardRange p.bridge.guards[i] p).2) :
    guardedWrite i a d p x = plainWrite a d p x := by
  rw [← range_eq] at low high
  unfold guardedWrite
  exact (if_neg (by rw [full]; decide)).trans (if_pos (by rw [decide_eq_true low, decide_eq_true high]; rfl))

variable (out : d.data.toNat < (Safety.guardRange p.bridge.guards[i] p).1 ∨ (Safety.guardRange p.bridge.guards[i] p).2 < d.data.toNat)
include out

theorem guardedWrite_storesNothing (action : p.bridge.guards[i].action = .keep) :
    guardedWrite i a d p x = (guardViolation i d.data 2 p, completeEarlier x) := by
  unfold guardedWrite
  refine (if_neg (by rw [full]; decide)).trans ((if_neg (outOfBounds out)).trans ?_)
  simp only [action]

theorem guardedWrite_storesWritten (action : p.bridge.guards[i].action = .pass) :
    guardedWrite i a d p x = (guardViolation i d.data 3 p, forwardWrite a d.data 0xF#4 x) := by
  unfold guardedWrite
  refine (if_neg (by rw [full]; decide)).trans ((if_neg (outOfBounds out)).trans ?_)
  simp only [action]

theorem guardedWrite_storesBound (action : p.bridge.guards[i].action = .clamp) :
    guardedWrite i a d p x = (guardViolation i d.data 1 p,
      forwardWrite a (BitVec.ofNat 32 (if d.data.toNat < (Safety.guardRange p.bridge.guards[i] p).1 then (Safety.guardRange p.bridge.guards[i] p).1
        else (Safety.guardRange p.bridge.guards[i] p).2)) 0xF#4 x) := by
  rw [← range_eq]
  unfold guardedWrite
  refine (if_neg (by rw [full]; decide)).trans ((if_neg (outOfBounds out)).trans ?_)
  simp only [action]

end

/-- The bytes of a partial write to a guarded word. -/
theorem masked_taken (d : WriteData) : Safety.bytesTaken 0 d (d.data &&& enableMask d.enables) := by
  intro b
  rw [BitVec.getLsbD_and, mask_bit]
  cases d.enables.getLsbD (b.val / 8) <;> simp

/-- A write to a guarded word outside the bridge area (R85, R86). -/
theorem guarded_ends {i : Fin 4} (aligned : a.toNat % 4 = 0) (free : s.part.asserted = false) (outside : Safety.outsideArea a.toNat s.part)
    (held : Safety.guarded i a.toNat s.part) :
      let g := s.part.bridge.guards[i]
      let low := (Safety.guardRange g s.part).1
      let high := (Safety.guardRange g s.part).2
      ∃ t, exec (.guardedWrite a d) s = .next t
        ∧ (d.enables ≠ 0xF#4 →
            ∃ v, Safety.bytesTaken 0 d v ∧ Safety.violated i v 4 s.part t.part ∧ t.path.access = none)
        ∧ (d.enables = 0xF#4 → low ≤ d.data.toNat → d.data.toNat ≤ high →
            Safety.passed a d t ∧ t.part.bridge.guards = s.part.bridge.guards)
        ∧ (d.enables = 0xF#4 → d.data.toNat < low ∨ high < d.data.toNat →
            (g.action = .clamp → Safety.violated i d.data 1 s.part t.part
              ∧ t.path.access = some ⟨false, a, BitVec.ofNat 32 (if d.data.toNat < low then low else high), 0xF#4⟩)
            ∧ (g.action = .keep → Safety.violated i d.data 2 s.part t.part ∧ t.path.access = none)
            ∧ (g.action = .pass → Safety.violated i d.data 3 s.part t.part ∧ Safety.passed a d t)) := by
  intro g low high
  refine hostRow_ends (hostWrite a d) s _ fun t ends path _ => ?_
  rw [hostWrite_guarded aligned free outside held] at ends path
  refine ⟨fun partial_ => ?_, fun full above below => ?_, fun full out => ⟨fun clamp => ?_, fun keep => ?_, fun pass => ?_⟩⟩
  · rw [guardedWrite_partial partial_] at ends path
    exact ⟨_, masked_taken d, violation_spec i _ 4 s.part t ends, by rw [path]; exact completeEarlier_access _⟩
  · rw [guardedWrite_within full above below] at ends path
    exact ⟨by rw [Safety.passed, path]; rfl, by rw [ends]; exact (finish_returned _ _).guards⟩
  · rw [guardedWrite_storesBound full out clamp] at ends path
    exact ⟨violation_spec i _ 1 s.part t ends, by rw [path]; rfl⟩
  · rw [guardedWrite_storesNothing full out keep] at ends path
    exact ⟨violation_spec i _ 2 s.part t ends, by rw [path]; exact completeEarlier_access _⟩
  · rw [guardedWrite_storesWritten full out pass] at ends path
    exact ⟨violation_spec i _ 3 s.part t ends, by rw [Safety.passed, path, full]; rfl⟩

end

/-- Settles O58. -/
theorem guardedWrites : Obligations.GuardedWrites := by
  unfold Obligations.GuardedWrites
  refine fun a d s aligned => ⟨fun clear => ?_, fun i free outside held => guarded_ends aligned free outside held⟩
  have clear' : s.part.asserted = true ∨ (s.part.inArea a.toNat = false ∧ guardAt a.toNat s.part = none) :=
    clear.imp_right fun ⟨outside, free⟩ => ⟨(outside_iff _ _).1 outside, guardAt_none _ _ free⟩
  exact ⟨ordinary_passes a d s aligned clear', ordinary_passes a d s aligned clear'⟩

end Sys2Proof.Machine
end

section
/-! WARM RESET: what the assertion abandons (R66, R119, R180, R185), and what the release restarts and keeps (R18, R117, R167, R181, R192). -/

namespace Sys2Proof.Machine

variable {p q r : Part}

/-! ### The test that an assertion abandons -/

theorem abandonTest_idle (h : p.brk.test = none) : abandonTest p = p := by
  unfold abandonTest
  rw [h]

/-- The brake test's record as an assertion leaves it. -/
def resetRecord (t : TestRun) (x : TestRecord) : TestRecord :=
  { x with outcome := .aborted, abort := .reset, results := x.results.set t.step .notRun, times := x.times.set t.step 0 }

/-- The part with the running test struck, before the two entries follow. -/
def testStruck (t : TestRun) (p : Part) : Part :=
  (p.withBrk { p.brk with test := none, record := resetRecord t p.brk.record }).withMod
    { p.mod with mode := if p.mod.mode = .test then .stand else p.mod.mode }

/-- The two entries that follow the end of a test at a reset. -/
def testQuieted (p : Part) : Part :=
  quietEntry .test .released 0 (quietEntry .mode (modeRequest p.mod.mode p.charging).1 (modeRequest p.mod.mode p.charging).2 p)

theorem abandonTest_running {t : TestRun} (h : p.brk.test = some t) : abandonTest p = testQuieted (testStruck t p) := by
  unfold abandonTest
  simp only [h]
  by_cases mode : p.mod.mode = .test
  · have struck : testStruck t p = ((markStep t.step .notRun p).withBrk { (markStep t.step .notRun p).brk with
        test := none, record := { (markStep t.step .notRun p).brk.record with outcome := .aborted, abort := .reset } }).withMod
          { p.mod with mode := .stand } := by
      unfold testStruck; rw [if_pos mode]; rfl
    rw [struck, if_pos (by simpa [markStep] using mode)]
    rfl
  · have struck : testStruck t p = (markStep t.step .notRun p).withBrk { (markStep t.step .notRun p).brk with
        test := none, record := { (markStep t.step .notRun p).brk.record with outcome := .aborted, abort := .reset } } := by
      unfold testStruck; rw [if_neg mode]; rfl
    rw [struck, if_neg (by simpa [markStep] using mode)]
    rfl

theorem testQuieted_noLatch (p : Part) : NoLatch p (testQuieted p) := fun d => by
  unfold testQuieted
  rw [quietEntry_latched, quietEntry_latched]

theorem abandonTest_noLatch (p : Part) : NoLatch p (abandonTest p) := by
  cases test : p.brk.test with
  | none => rw [abandonTest_idle test]; exact fun _ => rfl
  | some t => rw [abandonTest_running test]; exact testQuieted_noLatch (testStruck t p)

theorem abandonTest_tested (p : Part) : (abandonTest p).brk.test = none := by
  cases test : p.brk.test with
  | none => rw [abandonTest_idle test]; exact test
  | some t => rw [abandonTest_running test]; rfl

theorem abandonTest_mode (p : Part) : (abandonTest p).mod.mode
    = if p.mod.mode = .test ∧ p.brk.test.isSome = true then .stand else p.mod.mode := by
  cases test : p.brk.test with
  | none => rw [abandonTest_idle test]; simp
  | some t =>
    rw [abandonTest_running test]
    simp only [Option.isSome_some, and_true]
    rfl

/-! ### The assertion -/

/-- The part as the assertion of warm reset leaves it, before the return to STAND. -/
def warmHeld (p : Part) : Part := abandonTest (abandonAll (p.withWarmLine true))

theorem assertWarm_eq (cold : p.coldLine = false) (warm : p.warmLine = false) : assertWarm p = warmHeld p := by
  unfold assertWarm
  rw [if_neg (by rw [cold, warm]; decide)]
  rfl

/-- The assertion has held the part: what the reset abandons is gone, and the rest stands. -/
structure WarmHeld (p q : Part) : Prop where
  warm : q.warmLine = true
  cold : q.coldLine = p.coldLine
  now : q.now = p.now
  base : q.bridge.base = p.bridge.base
  guards : q.bridge.guards = Vector.replicate 4 Guard.off
  prf : q.prf = { p.prf with copying := none }
  restrictions : q.ssu.restrictions = p.ssu.restrictions
  link : q.link = quietLink p.link
  msg : q.msg = { p.msg with mailbox := [] }
  dor : q.dor = { p.dor with openAffectedLeft := 0, openAffectedRight := 0, closeAffectedLeft := 0, closeAffectedRight := 0 }
  odo : q.odo = { p.odo with capture := .idle, creep := q.odo.creep, reverse := q.odo.reverse }
  mod : q.mod = { p.mod with mode := q.mod.mode }
  mode : p.mod.mode ≠ .run → p.mod.mode ≠ .test → q.mod.mode = p.mod.mode
  slots : AutSoft p.aut q.aut
  flags : q.aut.overrun = p.aut.overrun ∧ q.aut.lateRevoke = p.aut.lateRevoke
  inputs : q.brk.inputs = p.brk.inputs
  latched : ∀ d, d ≠ .mode → d ≠ .test → (p.entry d).latched = true → Safety.latchedAt d (p.entry d).stage q

theorem abandonAll_holds (p : Part) : WarmHeld p (abandonAll (p.withWarmLine true)) where
  warm := rfl
  cold := rfl
  now := rfl
  base := rfl
  guards := rfl
  prf := rfl
  restrictions := rfl
  link := rfl
  msg := rfl
  dor := rfl
  odo := rfl
  mod := rfl
  mode _ _ := rfl
  slots := ⟨rfl, rfl, rfl, rfl, rfl⟩
  flags := ⟨rfl, rfl⟩
  inputs := rfl
  latched _ _ _ latched := ⟨latched, Nat.le_refl _⟩

/-- The end of the test moves the brake's record and table, and the mode TEST. -/
theorem WarmHeld.abandonTest (h : WarmHeld p q) : WarmHeld p (abandonTest q) := by
  obtain ⟨b, m, e, inputs, mod, table⟩ := abandonTest_rest q
  rw [e]
  refine { h with mod := ?_, mode := fun run test => ?_, inputs := inputs.trans h.inputs, latched := fun d notMode notTest latched => ?_ }
  · rcases mod with rfl | ⟨-, rfl⟩
    · exact h.mod
    · exact congrArg (fun m => { m with mode := Mode.stand }) h.mod
  · have kept := h.mode run test
    rcases mod with rfl | ⟨testing, rfl⟩
    · exact kept
    · exact absurd (kept.symm.trans testing) test
  · have same : ((q.withBrk b).withMod m).entry d = q.entry d := table d notMode notTest
    obtain ⟨held, stage⟩ := h.latched d notMode notTest latched
    exact ⟨same ▸ held, same ▸ stage⟩

theorem warmHeld_holds (p : Part) : WarmHeld p (warmHeld p) := (abandonAll_holds p).abandonTest

theorem warmHeld_test (p : Part) : (warmHeld p).brk.test = none := abandonTest_tested _

theorem finish_restrictions (b q : Part) : (finish b q).ssu.restrictions = q.ssu.restrictions :=
  (finish_moves (H := [.mode]) b (by decide) (Moves.refl q)).frame.restr (by decide)

/-- The return to STAND that may end the assertion leaves the held part. -/
theorem WarmHeld.finish (h : WarmHeld p q) (b : Part) : WarmHeld p (finish b q) := by
  have ends := finish_returned b q
  refine ⟨ends.warm.trans h.warm, ends.cold.trans h.cold, ends.now.trans h.now, ends.base.trans h.base, ends.guards.trans h.guards,
    ends.prf.trans h.prf, (finish_restrictions b q).trans h.restrictions, ends.link.trans h.link, ends.msg.trans h.msg,
    ends.dor.trans h.dor, by rw [ends.odo, h.odo], by rw [ends.mod, h.mod], fun run test => ?_, h.slots.trans ends.slots,
    ⟨ends.flags.1.trans h.flags.1, ends.flags.2.trans h.flags.2⟩, ends.inputs.trans h.inputs,
    fun d notMode notTest latched => finish_latched b notMode (h.latched d notMode notTest latched)⟩
  have kept := h.mode run test
  rcases finish_mode b q with same | ⟨running, -⟩
  · exact same.trans kept
  · exact absurd (kept.symm.trans running) run

theorem outputs_of_warm (h : p.warmLine = true) : p.outputs = outputLevels .emergency := by
  unfold Part.outputs Part.asserted
  rw [h, Bool.or_true]; rfl

/-- The mode that the assertion leaves where no return to STAND is due. -/
theorem warmHeld_mode (p : Part) :
    (warmHeld p).mod.mode = if p.mod.mode = .test ∧ p.brk.test.isSome = true then .stand else p.mod.mode :=
  abandonTest_mode (abandonAll (p.withWarmLine true))

theorem warmHeld_standDone (done : Safety.standDone p) : Safety.standDone (warmHeld p) := by
  rintro ⟨run, still, latched⟩
  have mode := warmHeld_mode p
  rw [run] at mode
  have latch : NoLatch p (warmHeld p) := (NoLatch.of_table rfl : NoLatch p (abandonAll (p.withWarmLine true))).trans (abandonTest_noLatch _)
  refine done ⟨?_, ?_, ?_⟩
  · split at mode
    · cases mode
    · exact mode.symm
  · rw [(warmHeld_holds p).odo] at still; exact still
  · cases any : p.anyLatched with
    | true => rfl
    | false => rw [latch.any any] at latched; cases latched

/-- Where no return to STAND is due, the end of the assertion raises generation words only. -/
theorem warmHeld_finish (b : Part) (done : Safety.standDone p) :
    ∃ g, finish b (warmHeld p) = (warmHeld p).withBridge { (warmHeld p).bridge with generations := g } :=
  finish_eq b (standDone_eq (warmHeld_standDone done))

theorem warmHeld_evq (p : Part) : (warmHeld p).evq = p.evq := by
  obtain ⟨b, m, e, -⟩ := abandonTest_rest (abandonAll (p.withWarmLine true))
  unfold warmHeld
  rw [e]; rfl

theorem warmHeld_untested (test : p.brk.test = none) : (warmHeld p).brk.record = p.brk.record := by
  unfold warmHeld
  rw [abandonTest_idle (p := abandonAll (p.withWarmLine true)) test]
  rfl

theorem warmHeld_tested {t : TestRun} (test : p.brk.test = some t) :
    (warmHeld p).brk.record = resetRecord t p.brk.record ∧ ((warmHeld p).entry .test).stage = .released := by
  unfold warmHeld
  rw [abandonTest_running (p := abandonAll (p.withWarmLine true)) test]
  exact ⟨rfl, (quietEntry_self .test .released 0 _).1⟩

/-! ### The release -/

/-- The part at the release before the blocks restart: WARM_START, and the timers. -/
def warmReady (p : Part) : Part := warmTimers (warmEvents ((p.withOrd Ord.cold).withLink { p.link with queue := [] }))

/-- The charge wait moves on. -/
def withCharge (c : ChargeWait) (p : Part) : Part := p.withMod { p.mod with charge := c }

theorem Returned.withCharge (h : Returned p q) (c : ChargeWait) : Returned (withCharge c p) (withCharge c q) :=
  { h with mod := by unfold Machine.withCharge; rw [Part.withMod_mod, Part.withMod_mod, h.mod] }

theorem chargeDone_returned (p : Part) : Returned (withCharge .complete p) (chargeDone p) :=
  ((post_returned .chargeDone 0 _ _ (withCharge .complete p)).trans (requestMode_requested _).returned).trans
    (patternChanged_only _ _).returned

theorem judgeCharge_returned (p : Part) : ∃ c, Returned (withCharge c p) (judgeCharge p) := by
  unfold judgeCharge
  split
  · split
    · split
      · exact ⟨_, chargeDone_returned p⟩
      · exact ⟨.awaitReservoir, Returned.refl _⟩
    · exact ⟨p.mod.charge, Returned.refl _⟩
  · exact ⟨p.mod.charge, Returned.refl _⟩

theorem autNumbers_returned (p : Part) : Returned p (autNumbers p) :=
  { Returned.refl p with slots := ⟨rfl, rfl, rfl, rfl, rfl⟩, flags := ⟨rfl, rfl⟩ }

/-- The blocks that restart leave all but the charge wait and what a return to STAND touches. -/
theorem warmStart_returned (p : Part) : ∃ c, Returned (withCharge c (warmReady p)) (warmStart p) := by
  have starts := (startOperation_only (warmReady p).brk.commanded (warmReady p)).returned
  obtain ⟨c, judged⟩ := judgeCharge_returned (startOperation (warmReady p).brk.commanded (warmReady p))
  exact ⟨c, ((((starts.withCharge c).trans judged).trans (autNumbers_returned _)).trans (ssuEvaluate_returned _)).trans
    (autoStand_returned _)⟩

/-- The part as the blocks have restarted, before the return to STAND. -/
def warmEvaluated (p : Part) : Part :=
  ssuEvaluate (autNumbers (judgeCharge (startOperation (warmReady p).brk.commanded (warmReady p))))

theorem warmStart_eq (p : Part) : warmStart p = autoStand (warmEvaluated p) := rfl

theorem warmEvaluated_moves (p : Part) : Moves [.charge] (warmReady p) (warmEvaluated p) :=
  ssuEvaluate_moves (autNumbers_moves (judgeCharge_moves (by decide) (startOperation_moves _ (Moves.refl _))))

theorem warmRestart_moves (p : Part) : Moves [.charge, .mode] (warmReady p) (warmStart p) :=
  autoStand_moves (by decide) (ssuEvaluate_moves (autNumbers_moves (judgeCharge_moves (by decide) (startOperation_moves _ (Moves.refl _)))))

/-- The release has restarted the part: the timers run, WARM_START is the first event, and the rest stands. -/
structure WarmReleased (p q : Part) : Prop where
  now : q.now = p.now
  base : q.bridge.base = p.bridge.base
  guards : q.bridge.guards = p.bridge.guards
  dropped : q.bridge.dropped = 0
  ord : q.ord = Ord.cold
  prf : q.prf = p.prf
  restrictions : q.ssu.restrictions = p.ssu.restrictions
  link : q.link = { p.link with queue := [] }
  msg : q.msg = { p.msg with reportTimer := if p.mod.mode = .stabled then none else some p.now }
  dor : q.dor = p.dor
  odo : q.odo = { p.odo with standTimer := some p.now, creep := q.odo.creep, reverse := q.odo.reverse }
  mod : q.mod = { p.mod with mode := q.mod.mode, charge := q.mod.charge, silence := some p.now, hostSilent := false }
  slots : AutSoft p.aut q.aut
  flags : q.aut.overrun = p.aut.overrun ∧ q.aut.lateRevoke = p.aut.lateRevoke
  test : TestKept p.brk q.brk
  inputs : q.brk.inputs = p.brk.inputs
  latched : ∀ d s, d ≠ .mode → Safety.latchedAt d s p → Safety.latchedAt d s q
  mode : q.mod.mode = p.mod.mode ∨ p.mod.mode = .run ∧ p.odo.standstill = true ∧ q.mod.mode = .stand
  event : q.evq.queue.head? = some ⟨p.evq.next, p.now, .warmStart, BitVec.ofNat 16 p.mod.mode.code, p.odo.pos⟩

theorem warmReady_event (p : Part) :
    (warmReady p).evq.queue = [⟨p.evq.next, p.now, .warmStart, BitVec.ofNat 16 p.mod.mode.code, p.odo.pos⟩] := rfl

theorem warmReady_msg (p : Part) :
    (warmReady p).msg = { p.msg with reportTimer := if p.mod.mode = .stabled then none else some p.now } := by
  show ({ p.msg with reportTimer := if p.mod.mode == .stabled then none else some p.now } : Msg) = _
  simp only [beq_iff_eq]

/-- The mode changes by the return to STAND alone. -/
theorem autoStand_modes (q : Part) :
    (autoStand q).mod.mode = q.mod.mode ∨ q.mod.mode = .run ∧ q.odo.standstill = true ∧ (autoStand q).mod.mode = .stand := by
  by_cases due : (q.mod.mode == .run && q.odo.standstill && q.anyLatched) = true
  · have stand := autoStand_mode q due
    simp only [Bool.and_eq_true, beq_iff_eq] at due
    exact .inr ⟨due.1.1, due.1.2, stand⟩
  · exact .inl (by rw [autoStand_of (Bool.eq_false_iff.2 due)])

theorem warmStart_modes (p : Part) :
    (warmStart p).mod.mode = p.mod.mode ∨ p.mod.mode = .run ∧ p.odo.standstill = true ∧ (warmStart p).mod.mode = .stand := by
  have frame := (warmEvaluated_moves p).frame
  have mode : (warmEvaluated p).mod.mode = p.mod.mode := frame.mode (by decide)
  have still : (warmEvaluated p).odo.standstill = p.odo.standstill := by
    have kept : OdoKept (warmReady p).odo (warmEvaluated p).odo := frame.track (by decide) (by decide)
    unfold OdoKept at kept
    rw [kept]
    rfl
  rw [warmStart_eq, ← mode, ← still]
  exact autoStand_modes _

/-- What stands as the timers restart, by blocks. -/
theorem warmReady_rest (p : Part) : (warmReady p).now = p.now
    ∧ (warmReady p).bridge = { p.bridge with dropped := 0 } ∧ (warmReady p).ord = Ord.cold ∧ (warmReady p).prf = p.prf
    ∧ (warmReady p).ssu = p.ssu ∧ (warmReady p).link = { p.link with queue := [] } ∧ (warmReady p).dor = p.dor
    ∧ (warmReady p).odo = { p.odo with standTimer := some p.now }
    ∧ (warmReady p).mod = { p.mod with silence := some p.now, hostSilent := false }
    ∧ (warmReady p).aut = p.aut ∧ (warmReady p).brk = p.brk := by
  simp [warmReady, warmTimers, warmEvents, post, postAt]

theorem latchedAt_congr {d : DemandSource} {s : Stage} (same : q.brk = p.brk) (h : Safety.latchedAt d s p) : Safety.latchedAt d s q := by
  unfold Safety.latchedAt Part.entry
  rw [same]
  exact h

theorem warmReady_releases (p : Part) : WarmReleased p (warmReady p) := by
  have event := congrArg List.head? (warmReady_event p)
  have msg := warmReady_msg p
  obtain ⟨now, bridge, ord, prf, ssu, link, dor, odo, mod, aut, brk⟩ := warmReady_rest p
  generalize warmReady p = q at *
  exact {
    now, ord, prf, link, msg, dor, event
    base := by rw [bridge]
    guards := by rw [bridge]
    dropped := by rw [bridge]
    restrictions := by rw [ssu]
    odo := by rw [odo]
    mod := by rw [mod]
    slots := by rw [aut]; exact ⟨rfl, rfl, rfl, rfl, rfl⟩
    flags := by rw [aut]; exact ⟨rfl, rfl⟩
    test := by rw [brk]; exact TestKept.refl _
    inputs := by rw [brk]
    latched := fun _ _ _ => latchedAt_congr brk
    mode := .inl (by rw [mod]) }

/-- The blocks restart, and the return to STAND follows. -/
theorem WarmReleased.restarts {c : ChargeWait} (h : WarmReleased p q) (ends : Returned (withCharge c q) r)
    (moves : Moves [.charge, .mode] q r)
    (mode : r.mod.mode = p.mod.mode ∨ p.mod.mode = .run ∧ p.odo.standstill = true ∧ r.mod.mode = .stand) : WarmReleased p r where
  now := ends.now.trans h.now
  base := ends.base.trans h.base
  guards := ends.guards.trans h.guards
  dropped := ends.dropped.trans h.dropped
  ord := ends.ord.trans h.ord
  prf := ends.prf.trans h.prf
  restrictions := (moves.frame.restr (by decide)).trans h.restrictions
  link := ends.link.trans h.link
  msg := ends.msg.trans h.msg
  dor := ends.dor.trans h.dor
  odo := by
    have kept : r.odo = { q.odo with creep := r.odo.creep, reverse := r.odo.reverse } := ends.odo
    rw [kept, h.odo]
  mod := by
    have kept : r.mod = { q.mod with mode := r.mod.mode, charge := c } := ends.mod
    rw [kept, h.mod]
  slots := h.slots.trans ends.slots
  flags := ⟨ends.flags.1.trans h.flags.1, ends.flags.2.trans h.flags.2⟩
  test := h.test.trans ends.test
  inputs := ends.inputs.trans h.inputs
  latched d s notMode held := latched_after (h.latched d s notMode held) notMode moves (by decide)
  mode := mode
  event := by
    obtain ⟨later, queue⟩ := moves.frame.pre (by decide)
    rw [← queue, List.head?_append, h.event]
    rfl

theorem warmStart_releases (p : Part) : WarmReleased p (warmStart p) := by
  obtain ⟨c, ends⟩ := warmStart_returned p
  exact (warmReady_releases p).restarts ends (warmRestart_moves p) (warmStart_modes p)

/-- The release of a held part. -/
theorem releaseWarm_releases (warm : p.warmLine = true) (cold : p.coldLine = false) :
    (releaseWarm p).warmLine = false ∧ WarmReleased p (releaseWarm p) := by
  obtain ⟨g, n, e⟩ := raiseAll_eq p (warmStart (p.withWarmLine false))
  have released : releaseWarm p = raiseAll p (warmStart (p.withWarmLine false)) := by
    unfold releaseWarm
    rw [if_neg (by rw [warm]; decide), if_neg (by rw [cold]; decide)]
  obtain ⟨c, ends⟩ := warmStart_returned (p.withWarmLine false)
  have line : (warmReady (p.withWarmLine false)).warmLine = false := by
    simp [warmReady, warmTimers, warmEvents, post, postAt]
  have low := ends.warm.trans line
  have held := warmStart_releases (p.withWarmLine false)
  rw [released, e]
  generalize warmStart (p.withWarmLine false) = q at held low ⊢
  exact ⟨low, { held with }⟩

/-! ### An assertion and the release after it -/

/-- What the assertion leaves where no return to STAND is due. -/
structure HeldDone (p q : Part) : Prop where
  evq : q.evq = p.evq
  mode : q.mod.mode = if p.mod.mode = .test ∧ p.brk.test.isSome = true then .stand else p.mod.mode
  test : q.brk.test = none
  untested : p.brk.test = none → q.brk.record = p.brk.record
  tested : ∀ t, p.brk.test = some t → q.brk.record = resetRecord t p.brk.record ∧ (q.entry .test).stage = .released

theorem warmHeld_done (b : Part) (done : Safety.standDone p) : HeldDone p (finish b (warmHeld p)) := by
  obtain ⟨g, e⟩ := warmHeld_finish b done
  have evq := warmHeld_evq p
  have mode := warmHeld_mode p
  have test := warmHeld_test p
  have untested := warmHeld_untested (p := p)
  have tested := fun t => warmHeld_tested (p := p) (t := t)
  rw [e]
  generalize warmHeld p = q at *
  exact ⟨evq, mode, test, untested, tested⟩

/-- STABLED before the assertion is STABLED at the release. -/
theorem HeldDone.stabled_iff (done : HeldDone p q) : q.mod.mode = .stabled ↔ p.mod.mode = .stabled := by
  rw [done.mode]
  split
  · rename_i testing
    simp [testing.1]
  · exact Iff.rfl

theorem warmReset_fromTest (freed : WarmReleased q r) (done : HeldDone p q) (test : p.brk.test.isSome = true) (mode : p.mod.mode = .test) :
    r.mod.mode = .stand := by
  have stand := done.mode
  rw [if_pos ⟨mode, test⟩] at stand
  rcases freed.mode with same | ⟨-, -, stood⟩
  · exact same.trans stand
  · exact stood

section
variable (held : WarmHeld p q) (freed : WarmReleased q r)
include held freed

theorem warmReset_mode (run : p.mod.mode ≠ .run) (test : p.mod.mode ≠ .test) : r.mod.mode = p.mod.mode := by
  have kept := held.mode run test
  rcases freed.mode with same | ⟨running, -⟩
  · exact same.trans kept
  · exact absurd (kept.symm.trans running) run

theorem warmReset_latched {d : DemandSource} (notMode : d ≠ .mode) (notTest : d ≠ .test) (latched : (p.entry d).latched = true) :
    Safety.latchedAt d (p.entry d).stage r :=
  freed.latched d _ notMode (held.latched d notMode notTest latched)

theorem warmReset_mod : r.mod = { p.mod with mode := r.mod.mode, charge := r.mod.charge, silence := some p.now, hostSilent := false } :=
  freed.mod.trans (by rw [held.mod, held.now])

theorem warmReset_odo : r.odo = { p.odo with
    capture := .idle, standTimer := some p.now, creep := r.odo.creep, reverse := r.odo.reverse } :=
  freed.odo.trans (by rw [held.odo, held.now])

theorem warmReset_dor : r.dor = { p.dor with
    openAffectedLeft := 0, openAffectedRight := 0, closeAffectedLeft := 0, closeAffectedRight := 0 } := freed.dor.trans held.dor

theorem warmReset_aut : r.aut = { p.aut with dc := r.aut.dc, request := r.aut.request, travel := r.aut.travel } := by
  obtain ⟨current, next, lastRevoke, missed, relinquished⟩ := held.slots.trans freed.slots
  have overrun := freed.flags.1.trans held.flags.1
  have lateRevoke := freed.flags.2.trans held.flags.2
  dsimp only
  rw [← current, ← next, ← lastRevoke, ← missed, ← relinquished, ← overrun, ← lateRevoke]

theorem warmReset_link : r.link = quietLink p.link := by
  rw [freed.link, held.link]
  rfl

theorem warmReset_fromRun (done : HeldDone p q) (run : p.mod.mode = .run) : r.mod.mode = .run ∨ r.mod.mode = .stand ∧ p.odo.standstill = true := by
  have mode := done.mode
  rw [if_neg (by rw [run]; simp), run] at mode
  rcases freed.mode with same | ⟨-, still, stood⟩
  · exact .inl (same.trans mode)
  · rw [held.odo] at still
    exact .inr ⟨stood, still⟩

theorem warmReset_msg (done : HeldDone p q) : r.msg = { p.msg with
    mailbox := [], reportTimer := if p.mod.mode = .stabled then none else some p.now } := by
  rw [freed.msg, held.msg, held.now]
  simp only [done.stabled_iff]

/-- WARM_START carries the mode left, the time and the route position, with the next sequence (R192). -/
theorem warmReset_event (done : HeldDone p q) : ∃ e, r.evq.queue.head? = some e ∧ e.sequence = p.evq.next ∧ e.time = p.now ∧ e.position = p.odo.pos
    ∧ e.argument.toNat = if p.mod.mode = .test ∧ p.brk.test.isSome then 1 else p.mod.mode.code := by
  have code : ∀ m : Mode, (BitVec.ofNat 16 m.code).toNat = m.code := fun m => by cases m <;> rfl
  refine ⟨_, freed.event, congrArg Evq.next done.evq, held.now, by rw [held.odo], ?_⟩
  rw [code, done.mode]
  split <;> rfl

end

/-- Settles O6: what the assertion leaves (`WarmHeld`, and `HeldDone` where no return to STAND is due), then what the release restarts
(`WarmReleased`). -/
theorem warmResetKeeps : Obligations.WarmResetKeeps := by
  unfold Obligations.WarmResetKeeps
  intro s cold warm
  have asserted : exec .warmResetAssert s = .next { s with part := finish s.part (warmHeld s.part) } := by
    rw [← assertWarm_eq cold warm]; rfl
  have held := (warmHeld_holds s.part).finish s.part
  have ended := fun done => warmHeld_done (p := s.part) s.part done
  obtain ⟨low, freed⟩ := releaseWarm_releases held.warm (held.cold.trans cold)
  refine ⟨_, _, asserted, rfl, ?_⟩
  dsimp only
  generalize finish s.part (warmHeld s.part) = q at *
  generalize releaseWarm q = r at *
  have slots := held.slots.trans freed.slots
  refine ⟨held.warm, outputs_of_warm held.warm, held.guards, rfl, rfl, low, freed.now.trans held.now, freed.base.trans held.base,
    freed.guards.trans held.guards, freed.dropped, freed.ord, freed.prf.trans held.prf,
    freed.restrictions.trans held.restrictions, slots.1, slots.2.1, by rw [warmReset_odo held freed],
    by rw [warmReset_dor held freed], by rw [warmReset_dor held freed], fun _ => warmReset_latched held freed,
    warmReset_mode held freed, by rw [warmReset_mod held freed], by rw [warmReset_mod held freed],
    by rw [freed.msg, held.msg], ⟨_, freed.event, rfl⟩, fun stood => ?_⟩
  have done := ended stood
  have test := freed.test.step
  rw [done.test] at test
  exact ⟨done.untested, fun t running => ⟨(done.tested t running).1, (done.tested t running).2,
      warmReset_fromTest freed done (by rw [running]; rfl)⟩,
    by simpa using test, freed.test.outcome, freed.test.abort, freed.inputs.trans held.inputs, warmReset_fromRun held freed done,
    warmReset_mod held freed, warmReset_odo held freed, warmReset_dor held freed, warmReset_aut held freed,
    warmReset_link held freed, warmReset_msg held freed done, warmReset_event held freed done⟩

end Sys2Proof.Machine
end
